-- ==== Sys2Proof/Word.lean ====
section
/-!
DEFINITION. Sys2Proof/Word.lean: the word types of the CX980 (R6), and tables kept as sorted lists of key and value.
-/
namespace Sys2Proof

/-- A word is 32 bits (R6). -/
abbrev Word := BitVec 32

/-- A byte. -/
abbrev Byte := BitVec 8

/-- The lanes of one beat, lane 0 first (R44). -/
abbrev Lanes := List Word

/-- A table by number: pairs in rising order of the key, one for each key held. -/
abbrev Tbl (α : Type) := List (Nat × α)

namespace Tbl

/-- The entry of key k, where the table holds one. -/
def find? {α : Type} : Tbl α → Nat → Option α
  | [], _ => none
  | (j, x) :: t, k => if j = k then some x else find? t k

/-- The entry of key k, or d where the table holds none. -/
def getD {α : Type} (t : Tbl α) (k : Nat) (d : α) : α := (find? t k).getD d

/-- The table with entry x at key k. -/
def set {α : Type} : Tbl α → Nat → α → Tbl α
  | [], k, x => [(k, x)]
  | (j, y) :: t, k, x =>
    if k = j then (k, x) :: t else if k < j then (k, x) :: (j, y) :: t else (j, y) :: set t k x

/-- The table without key k. -/
def del {α : Type} : Tbl α → Nat → Tbl α
  | [], _ => []
  | (j, y) :: t, k => if k = j then t else (j, y) :: del t k

/-- A key greater than every key held. -/
def fresh {α : Type} : Tbl α → Nat
  | [] => 1
  | (j, _) :: t => max (j + 1) (fresh t)

end Tbl

end Sys2Proof
end

