-- ==== Sys2Proof/Config.lean ====
section
/-!
DEFINITION. Sys2Proof/Config.lean: the free values of the model (what the spec leaves open: opaque constants without a
body, applied to the counter State.free or to the operands they depend on) and the fixed sizes the spec states.
-/
namespace Sys2Proof.Config

/-- Free bit number i: which of two allowed values is taken (R64, R149, R222, R319; DESIGN CHOICE, log 2). -/
opaque freeBit : Nat → Bool

/-- Free word number i: a value the spec does not state at all (DESIGN CHOICE, log 2). -/
opaque freeWord : Nat → BitVec 32

/-- Byte i of the AES-256-GCM key stream of a VF's key, which no master can read, under a 96-bit IV (R326; DESIGN CHOICE, log 20). -/
opaque gcmStream : Nat → Nat → Nat → BitVec 8

/-- The AES-256-GCM tag of a ciphertext under a VF's key, an IV and the VF number as additional data (R326; DESIGN CHOICE, log 20). -/
opaque gcmTag : Nat → Nat → List (BitVec 8) → BitVec 128

/-- The set of the L2 slice a line falls into, taken modulo l2Sets (R265, R286; the spec states no set index; DESIGN CHOICE, log 19). -/
opaque l2Set : Nat → Nat

/-- A word another device answers a remote read with: device endpoint, offset, number of the request (R404; DESIGN CHOICE, log 21). -/
opaque remoteWord : Nat → Nat → Nat → BitVec 32

/-- The fixed hash of a line address that chooses one of a partition's ports (R405; the spec states no hash; DESIGN CHOICE, log 125). -/
opaque portHash : Nat → Nat

/-- The word of an attestation signature or digest (R389; PRESUMED, log 22). -/
opaque attestWord : Nat → Nat → BitVec 32

/-- The channel of its die that holds an LPDDR address, counted modulo 8 (R378; the spec states no mapping; DESIGN CHOICE, log 44). -/
opaque lpddrChannel : Nat → Nat

/-- Lanes of one beat (R44). -/
def beatLanes : Nat := 32
/-- Physical vector entries of a core (R55). -/
def coreEntries : Nat := 1536
/-- Group slots of a core (R155). -/
def coreSlots : Nat := 24
/-- Groups of the active set (R157). -/
def activeMax : Nat := 8
/-- Cores of the package: 8 dies of 96 clusters of 4 cores (R3, R266). -/
def cores : Nat := 3072
/-- Cores of a die. -/
def dieCores : Nat := 384
/-- Scratchpad bytes of a core (R182). -/
def scratchBytes : Nat := 262144
/-- Bytes of a line. -/
def lineBytes : Nat := 128
/-- Lines of a core's L1, and of a slice in fused mode: 128 KiB (R215, R216). -/
def l1Lines : Nat := 1024
/-- Ways and sets of an L2 slice of 2 MiB, and the slices of a die: 128 MiB a die, 1 GiB a package (R1, R2, R265). -/
def l2Ways : Nat := 16
def l2Sets : Nat := 1024
def l2Slices : Nat := 64
/-- Sharer records of a line (R266). -/
def sharers : Nat := 4
/-- Copies in flight of a cluster (R217). -/
def copyMax : Nat := 128
/-- Entries of a cluster's task queue (R176). -/
def taskMax : Nat := 64
/-- Entries of a cluster's request FIFO (R244). -/
def fifoMax : Nat := 16
/-- TLB entries of a cluster (R318). -/
def tlbMax : Nat := 2048
/-- Entries of a core's micro-TLB (R318). -/
def utlbMax : Nat := 64
/-- Miss entries of an L1 (R146). -/
def missMax : Nat := 64

/-- One of two allowed values: both alike, or as free bit i says. -/
def pick {α : Type} [DecidableEq α] (i : Nat) (old new : α) : α :=
  if old = new then old else if freeBit i then new else old

end Sys2Proof.Config
end

