-- ==== Sys2Proof/Syntax.lean ====
section
/-!
DEFINITION. Sys2Proof/Syntax.lean: the instructions, one constructor for each row of spec/opcode_table.json.
Group words and helm words carry the fields of their format (R16, R248) as one structure; the rows that are steps of
the other agents (spec/95) carry the operands that name the party or the input they act on.
-/
namespace Sys2Proof

/-- Format F-R with both file bits (R16). -/
structure FR where
  d : BitVec 6
  a : BitVec 7
  b : BitVec 7
  fa : BitVec 1
  fb : BitVec 1
  s : BitVec 3
  deriving DecidableEq, Repr

/-- Format F-C (R16, R17). -/
structure FC where
  c : BitVec 3
  t : BitVec 3
  a : BitVec 7
  b : BitVec 7
  fa : BitVec 1
  fb : BitVec 1
  s : BitVec 3
  deriving DecidableEq, Repr

/-- Format F-U whose FN[1:0] is a rounding mode (R33). -/
structure FUm where
  d : BitVec 6
  a : BitVec 7
  m : BitVec 2
  fa : BitVec 1
  s : BitVec 3
  deriving DecidableEq, Repr

/-- Format F-U with a fixed FN (R16). -/
structure FU where
  d : BitVec 6
  a : BitVec 7
  fa : BitVec 1
  s : BitVec 3
  deriving DecidableEq, Repr

/-- Format F-U with a stochastic bit and a byte number (R33). -/
structure FUrb where
  d : BitVec 6
  a : BitVec 7
  r : BitVec 1
  n : BitVec 2
  fa : BitVec 1
  s : BitVec 3
  deriving DecidableEq, Repr

/-- Format F-U with a stochastic bit and a nibble number (R33). -/
structure FUrn where
  d : BitVec 6
  a : BitVec 7
  r : BitVec 1
  n : BitVec 3
  fa : BitVec 1
  s : BitVec 3
  deriving DecidableEq, Repr

/-- Format F-U with a byte number (R33). -/
structure FUb where
  d : BitVec 6
  a : BitVec 7
  n : BitVec 2
  fa : BitVec 1
  s : BitVec 3
  deriving DecidableEq, Repr

/-- Format F-U with a nibble number (R33). -/
structure FUn where
  d : BitVec 6
  a : BitVec 7
  n : BitVec 3
  fa : BitVec 1
  s : BitVec 3
  deriving DecidableEq, Repr

/-- Format F-U of vscan with the exclusive bit FN[6] (R33). -/
structure FUx where
  d : BitVec 6
  a : BitVec 7
  x : BitVec 1
  fa : BitVec 1
  s : BitVec 3
  deriving DecidableEq, Repr

/-- Format a destination, a 7-bit source and S; the other fields fixed (R32, R35). -/
structure FD where
  d : BitVec 6
  a : BitVec 7
  s : BitVec 3
  deriving DecidableEq, Repr

/-- Format F-U of vquant with the stochastic bit (R33). -/
structure FUq where
  d : BitVec 6
  a : BitVec 7
  r : BitVec 1
  fa : BitVec 1
  s : BitVec 3
  deriving DecidableEq, Repr

/-- Format F-R with the file bits fixed (R32). -/
structure FS where
  d : BitVec 6
  a : BitVec 7
  b : BitVec 7
  s : BitVec 3
  deriving DecidableEq, Repr

/-- Format F-I (R16, R19). -/
structure FI where
  d : BitVec 6
  a : BitVec 7
  i : BitVec 9
  s : BitVec 3
  deriving DecidableEq, Repr

/-- Format F-I with a = 0 (R32). -/
structure FIm where
  d : BitVec 6
  i : BitVec 9
  s : BitVec 3
  deriving DecidableEq, Repr

/-- Format F-B (R16). -/
structure FB where
  o : BitVec 22
  s : BitVec 3
  deriving DecidableEq, Repr

/-- Format F-BS (R16). -/
structure FBS where
  d : BitVec 6
  o : BitVec 16
  s : BitVec 3
  deriving DecidableEq, Repr

/-- Format F-BD (R16). -/
structure FBD where
  t : BitVec 3
  o : BitVec 19
  s : BitVec 3
  deriving DecidableEq, Repr

/-- Format only S; every other field fixed (R35). -/
structure F0 where
  s : BitVec 3
  deriving DecidableEq, Repr

/-- Format a scalar field and S (R32, R35). -/
structure Fd where
  d : BitVec 6
  s : BitVec 3
  deriving DecidableEq, Repr

/-- Format F-M (R16, R18). -/
structure FM where
  d : BitVec 6
  a : BitVec 7
  k : BitVec 5
  z : BitVec 3
  s : BitVec 3
  deriving DecidableEq, Repr

/-- Format F-M with k = 0 (R131). -/
structure FMp where
  d : BitVec 6
  a : BitVec 7
  z : BitVec 3
  s : BitVec 3
  deriving DecidableEq, Repr

/-- Format F-A (R16, R36). -/
structure FA where
  d : BitVec 6
  a : BitVec 7
  k : BitVec 5
  o : BitVec 4
  s : BitVec 3
  deriving DecidableEq, Repr

/-- Format F-A with aop = 0 (R283). -/
structure FAn where
  d : BitVec 6
  a : BitVec 7
  k : BitVec 5
  s : BitVec 3
  deriving DecidableEq, Repr

/-- Format F-A with aop = 0 and a = 0 (R283). -/
structure FAr where
  d : BitVec 6
  k : BitVec 5
  s : BitVec 3
  deriving DecidableEq, Repr

/-- Format a 7-bit source and S; the other fields fixed (R32, R35). -/
structure Fa where
  a : BitVec 7
  s : BitVec 3
  deriving DecidableEq, Repr

/-- Format cpyx: two 7-bit sources and S (R32). -/
structure Fab where
  a : BitVec 7
  b : BitVec 7
  s : BitVec 3
  deriving DecidableEq, Repr

/-- Format F-U with a class in FN[5:4] (R35). -/
structure FDc where
  d : BitVec 6
  a : BitVec 7
  c : BitVec 2
  s : BitVec 3
  deriving DecidableEq, Repr

/-- Format park.waitc with its path in FN[5:4] (R35). -/
structure Fap where
  a : BitVec 7
  p : BitVec 2
  s : BitVec 3
  deriving DecidableEq, Repr

/-- Format F-F (R16, R21). -/
structure FF where
  c : BitVec 3
  k : BitVec 2
  s : BitVec 3
  deriving DecidableEq, Repr

/-- Format sys.trap with its 13-bit code (R35). -/
structure FT where
  n : BitVec 13
  s : BitVec 3
  deriving DecidableEq, Repr

/-- Format gimm payload (R23). -/
structure GImm where
  p : BitVec 23
  deriving DecidableEq, Repr

/-- Format grep payload (R23). -/
structure GRep where
  n : BitVec 6
  x : BitVec 1
  y : BitVec 1
  z : BitVec 1
  w : BitVec 2
  deriving DecidableEq, Repr

/-- Format gmod payload (R23). -/
structure GMod where
  e : BitVec 1
  m : BitVec 2
  t : BitVec 1
  c : BitVec 3
  o : BitVec 1
  q : BitVec 3
  x : BitVec 1
  deriving DecidableEq, Repr

/-- Format gext payload (R23). -/
structure GExt where
  c : BitVec 7
  fc : BitVec 1
  t : BitVec 3
  deriving DecidableEq, Repr

/-- Format gstall payload (R23). -/
structure GStall where
  n : BitVec 8
  deriving DecidableEq, Repr

/-- Format gscale payload (R23). -/
structure GScale where
  a : BitVec 6
  p : BitVec 2
  b : BitVec 6
  q : BitVec 2
  deriving DecidableEq, Repr

/-- Format HI with hi = 0 (R248). -/
structure HI where
  d : BitVec 5
  i : BitVec 21
  deriving DecidableEq, Repr

/-- Format HI with hi = 1 (R248, R251). -/
structure HIh where
  d : BitVec 5
  i : BitVec 16
  deriving DecidableEq, Repr

/-- Format HR (R248). -/
structure HR where
  d : BitVec 5
  a : BitVec 5
  b : BitVec 5
  i : BitVec 1
  k : BitVec 11
  deriving DecidableEq, Repr

/-- Format HJ with a = 0 (R248). -/
structure HJ where
  t : BitVec 12
  deriving DecidableEq, Repr

/-- Format HJ (R248). -/
structure HJa where
  a : BitVec 5
  t : BitVec 12
  deriving DecidableEq, Repr

/-- Format HR using d alone (R249). -/
structure HRd where
  d : BitVec 5
  deriving DecidableEq, Repr

/-- Format HR using a alone (R249). -/
structure HRa where
  a : BitVec 5
  deriving DecidableEq, Repr

/-- Format HT using acc alone (R249). -/
structure HT1 where
  t : BitVec 2
  deriving DecidableEq, Repr

/-- Format HT of mma (R239). -/
structure HTm where
  t : BitVec 2
  a : BitVec 5
  b : BitVec 5
  c : BitVec 5
  e : BitVec 5
  deriving DecidableEq, Repr

/-- Format HT using acc and a (R256). -/
structure HTa where
  t : BitVec 2
  a : BitVec 5
  deriving DecidableEq, Repr

/-- Format HT with acc = 0 using a and b (R256). -/
structure HTab where
  a : BitVec 5
  b : BitVec 5
  deriving DecidableEq, Repr

/-- Format HT with acc = 0 using a (R256). -/
structure HTv where
  a : BitVec 5
  deriving DecidableEq, Repr

/-- Format HT using acc, a and b (R256). -/
structure HTtab where
  t : BitVec 2
  a : BitVec 5
  b : BitVec 5
  deriving DecidableEq, Repr

/-- Format HT using acc, a, b and f[1:0] (R254). -/
structure HTf where
  t : BitVec 2
  a : BitVec 5
  b : BitVec 5
  f : BitVec 2
  deriving DecidableEq, Repr

/-- Format HT of mplane (R255). -/
structure HTp where
  t : BitVec 2
  a : BitVec 5
  b : BitVec 5
  c : BitVec 5
  e : BitVec 5
  l : BitVec 1
  f : BitVec 3
  deriving DecidableEq, Repr

/-- The four in-flight counters (R140). -/
inductive Ctr where
  | g | w | p | x
  deriving DecidableEq, Repr

/-- Who makes a register access (R380, R381): a host port, the hypervisor, the partition OS of a partition, or secure
firmware. -/
inductive Master where
  | host (port : Nat) | hostVf (port vf : Nat) | hypervisor | partitionOS (p : Nat) | firmware
  deriving DecidableEq, Repr

/-- The rings that have a base and a head pointer (R322, R385). -/
inductive Ring where
  | guest (vf : Nat) | provider (vf : Nat) | ptr (p : Nat)
  deriving DecidableEq, Repr

/-- What an access needs of a translation (R315). -/
inductive Access where
  | read | write | readWrite | fetch
  deriving DecidableEq, Repr

/-- What is placed, and on which cores (R155, R161): the next block of a work, a whole gang or a spread chain (one core
for each block or stage), or a swapped-out unit. -/
inductive Placement where
  | block (w core : Nat) | gang (w : Nat) (cores : List Nat) | saved (u : Nat) (cores : List Nat)
  deriving DecidableEq, Repr

/-- Where a write performed at a home comes from (R267): operation i of group g, or the dirty bytes an L1 holds of a
line. -/
inductive WriteSrc where
  | op (g i : Nat) | writeBack (l1 line : Nat)
  deriving DecidableEq, Repr

/-- A handler whose service timeout can expire (R354, R355). -/
inductive HandlerRef where
  | group (g : Nat) | block (u : Nat) | context (vf ctx k : Nat) | partition (p i : Nat)
  deriving DecidableEq, Repr

/-- The units firmware fences (R376). -/
inductive FenceKind where
  | core | cluster | sysCore
  deriving DecidableEq, Repr

/-- A 32 B command of the tier transfer queue (R325). -/
structure TtqCmd where
  c0 : BitVec 32
  c1 : BitVec 32
  c2 : BitVec 32
  c3 : BitVec 32
  c4 : BitVec 32
  c5 : BitVec 32
  c6 : BitVec 32
  c7 : BitVec 32
  deriving DecidableEq, Repr

/-- What a fabric request asks of this device as its target (R403, R404). -/
inductive RemoteKind where
  | load (n : Nat) | store (bytes : List (BitVec 8)) | atomic (aop : Nat) (x y : BitVec 32) | red (aop : Nat) (x y : BitVec 32)
  deriving DecidableEq, Repr

/-- A fabric request that reached this device (R321, R403): the receiving die, the target partition, the offset, the
access, and the unit that made it: 0 a group, 4 a copy, 5 a helm, 6 a stream, 9 a completion word. -/
structure RemoteReq where
  die  : Nat
  part : Nat
  off  : Nat
  kind : RemoteKind
  by_  : Nat
  deriving DecidableEq, Repr

/-- One constructor for each row of spec/opcode_table.json; each docstring names the row and its rule. The rows follow
the table's order, but for those without operands, which stand at the end. sys.exit and sys.dabort end the group, so
their S field has no effect (R62) and is not kept; the S field of sys.tret is read from the word being issued. -/
inductive Instr where
  /-- VADD_I32 (R74) -/
  | vaddI32 (o : FR)
  /-- VSUB_I32 (R74) -/
  | vsubI32 (o : FR)
  /-- VMUL_I32 (R74) -/
  | vmulI32 (o : FR)
  /-- VMULHI_I32 (R74) -/
  | vmulhiI32 (o : FR)
  /-- VMULHI_N32 (R74) -/
  | vmulhiN32 (o : FR)
  /-- VMAD_I32 (R74) -/
  | vmadI32 (o : FR)
  /-- VMIN_I32 (R74) -/
  | vminI32 (o : FR)
  /-- VMAX_I32 (R74) -/
  | vmaxI32 (o : FR)
  /-- VMIN_N32 (R74) -/
  | vminN32 (o : FR)
  /-- VMAX_N32 (R74) -/
  | vmaxN32 (o : FR)
  /-- VAND (R74) -/
  | vand (o : FR)
  /-- VOR (R74) -/
  | vor (o : FR)
  /-- VXOR (R74) -/
  | vxor (o : FR)
  /-- VANDN (R74) -/
  | vandn (o : FR)
  /-- VSHL (R75) -/
  | vshl (o : FR)
  /-- VSHR_N32 (R75) -/
  | vshrN32 (o : FR)
  /-- VSHR_I32 (R75) -/
  | vshrI32 (o : FR)
  /-- VROTL (R74) -/
  | vrotl (o : FR)
  /-- VSEL (R78) -/
  | vsel (o : FR)
  /-- VCMP_I32 (R80) -/
  | vcmpI32 (o : FC)
  /-- VCMP_N32 (R80) -/
  | vcmpN32 (o : FC)
  /-- VCMP_F32 (R81) -/
  | vcmpF32 (o : FC)
  /-- VCMP_F16 (R81) -/
  | vcmpF16 (o : FC)
  /-- VBFX_N32 (R76) -/
  | vbfxN32 (o : FR)
  /-- VBFX_I32 (R76) -/
  | vbfxI32 (o : FR)
  /-- VBFI (R76) -/
  | vbfi (o : FR)
  /-- VPERM (R77) -/
  | vperm (o : FR)
  /-- VADDSAT_I32 (R74) -/
  | vaddsatI32 (o : FR)
  /-- VSUBSAT_I32 (R74) -/
  | vsubsatI32 (o : FR)
  /-- VPACK16 (R74) -/
  | vpack16 (o : FR)
  /-- VSHFL (R87) -/
  | vshfl (o : FR)
  /-- VADD_F32 (R115) -/
  | vaddF32 (o : FR)
  /-- VSUB_F32 (R115) -/
  | vsubF32 (o : FR)
  /-- VMUL_F32 (R115) -/
  | vmulF32 (o : FR)
  /-- VFMA_F32 (R115) -/
  | vfmaF32 (o : FR)
  /-- VMIN_F32 (R115) -/
  | vminF32 (o : FR)
  /-- VMAX_F32 (R115) -/
  | vmaxF32 (o : FR)
  /-- VADD_F16X2 (R115) -/
  | vaddF16x2 (o : FR)
  /-- VMUL_F16X2 (R115) -/
  | vmulF16x2 (o : FR)
  /-- VFMA_F16X2 (R115) -/
  | vfmaF16x2 (o : FR)
  /-- VADD_BF16X2 (R115) -/
  | vaddBf16x2 (o : FR)
  /-- VMUL_BF16X2 (R115) -/
  | vmulBf16x2 (o : FR)
  /-- VFMA_BF16X2 (R115) -/
  | vfmaBf16x2 (o : FR)
  /-- VLDEXP_F32 (R115) -/
  | vldexpF32 (o : FR)
  /-- VCOPYSIGN_F32 (R115) -/
  | vcopysignF32 (o : FR)
  /-- VMIN_F16X2 (R115) -/
  | vminF16x2 (o : FR)
  /-- VMAX_F16X2 (R115) -/
  | vmaxF16x2 (o : FR)
  /-- VDOT4_E4M3 (R119) -/
  | vdot4E4m3 (o : FR)
  /-- VDOT4_E5M2 (R119) -/
  | vdot4E5m2 (o : FR)
  /-- VDOT4_I8 (R118) -/
  | vdot4I8 (o : FR)
  /-- VDOT4_N8 (R118) -/
  | vdot4N8 (o : FR)
  /-- VDOT8_E2M1 (R119) -/
  | vdot8E2m1 (o : FR)
  /-- VDOT8_I4 (R118) -/
  | vdot8I4 (o : FR)
  /-- VDOT2_BF16 (R119) -/
  | vdot2Bf16 (o : FR)
  /-- VDOT2_F16 (R119) -/
  | vdot2F16 (o : FR)
  /-- VCVT_I32_F32 (R123) -/
  | vcvtI32F32 (o : FUm)
  /-- VCVT_N32_F32 (R123) -/
  | vcvtN32F32 (o : FUm)
  /-- VCVT_F32_I32 (R123) -/
  | vcvtF32I32 (o : FU)
  /-- VCVT_F32_N32 (R123) -/
  | vcvtF32N32 (o : FU)
  /-- VCVT_F16_F32 (R122) -/
  | vcvtF16F32 (o : FU)
  /-- VCVT_BF16_F32 (R122) -/
  | vcvtBf16F32 (o : FU)
  /-- VCVT_F32_F16 (R121) -/
  | vcvtF32F16 (o : FU)
  /-- VCVT_F32_BF16 (R121) -/
  | vcvtF32Bf16 (o : FU)
  /-- VCVT_E4M3_F32 (R122) -/
  | vcvtE4m3F32 (o : FUrb)
  /-- VCVT_E5M2_F32 (R122) -/
  | vcvtE5m2F32 (o : FUrb)
  /-- VCVT_E2M1_F32 (R122) -/
  | vcvtE2m1F32 (o : FUrn)
  /-- VCVT_F32_E4M3 (R121) -/
  | vcvtF32E4m3 (o : FUb)
  /-- VCVT_F32_E5M2 (R121) -/
  | vcvtF32E5m2 (o : FUb)
  /-- VCVT_F32_E2M1 (R121) -/
  | vcvtF32E2m1 (o : FUn)
  /-- VSFU_RCP (R124) -/
  | vsfuRcp (o : FU)
  /-- VSFU_RSQ (R124) -/
  | vsfuRsq (o : FU)
  /-- VSFU_SQRT (R124) -/
  | vsfuSqrt (o : FU)
  /-- VSFU_EXP2 (R124) -/
  | vsfuExp2 (o : FU)
  /-- VSFU_LOG2 (R124) -/
  | vsfuLog2 (o : FU)
  /-- VSFU_SIN2PI (R124) -/
  | vsfuSin2pi (o : FU)
  /-- VSFU_COS2PI (R124) -/
  | vsfuCos2pi (o : FU)
  /-- VSFU_TANH (R124) -/
  | vsfuTanh (o : FU)
  /-- VSFU_SIGM (R124) -/
  | vsfuSigm (o : FU)
  /-- VMOV (R79) -/
  | vmov (o : FU)
  /-- VMOV_PORT_PUSH (R34) -/
  | vmovPortPush (o : FU)
  /-- VBIT_NOT (R79) -/
  | vbitNot (o : FU)
  /-- VBIT_POPC (R79) -/
  | vbitPopc (o : FU)
  /-- VBIT_CLZ (R79) -/
  | vbitClz (o : FU)
  /-- VBIT_CTZ (R79) -/
  | vbitCtz (o : FU)
  /-- VBIT_BREV (R79) -/
  | vbitBrev (o : FU)
  /-- VBIT_ABS_I32 (R79) -/
  | vbitAbsI32 (o : FU)
  /-- VBIT_NEG_I32 (R79) -/
  | vbitNegI32 (o : FU)
  /-- VBIT_ABS_F32 (R79) -/
  | vbitAbsF32 (o : FU)
  /-- VBIT_NEG_F32 (R79) -/
  | vbitNegF32 (o : FU)
  /-- VSCAN_ADD_I32 (R88) -/
  | vscanAddI32 (o : FUx)
  /-- VSCAN_ADD_F32 (R90) -/
  | vscanAddF32 (o : FUx)
  /-- VSCAN_MIN_I32 (R88) -/
  | vscanMinI32 (o : FUx)
  /-- VSCAN_MAX_I32 (R88) -/
  | vscanMaxI32 (o : FUx)
  /-- VSCAN_MIN_N32 (R88) -/
  | vscanMinN32 (o : FUx)
  /-- VSCAN_MAX_N32 (R88) -/
  | vscanMaxN32 (o : FUx)
  /-- VSCAN_AND (R88) -/
  | vscanAnd (o : FUx)
  /-- VSCAN_OR (R88) -/
  | vscanOr (o : FUx)
  /-- VSCAN_XOR (R88) -/
  | vscanXor (o : FUx)
  /-- VVOTE_ANY (R91) -/
  | vvoteAny (o : FD)
  /-- VVOTE_ALL (R91) -/
  | vvoteAll (o : FD)
  /-- VVOTE_BALLOT (R91) -/
  | vvoteBallot (o : FD)
  /-- VVOTE_COUNT (R91) -/
  | vvoteCount (o : FD)
  /-- VVOTE_FIRST (R91) -/
  | vvoteFirst (o : FD)
  /-- VQUANT_E4M3 (R125) -/
  | vquantE4m3 (o : FUq)
  /-- VQUANT_E5M2 (R125) -/
  | vquantE5m2 (o : FUq)
  /-- VQUANT_E2M1 (R125) -/
  | vquantE2m1 (o : FUq)
  /-- VQUANT_I8 (R125) -/
  | vquantI8 (o : FUq)
  /-- VQUANT_I4 (R125) -/
  | vquantI4 (o : FUq)
  /-- VRED_ADD_I32 (R89) -/
  | vredAddI32 (o : FD)
  /-- VRED_ADD_F32 (R90) -/
  | vredAddF32 (o : FD)
  /-- VRED_MIN_I32 (R89) -/
  | vredMinI32 (o : FD)
  /-- VRED_MAX_I32 (R89) -/
  | vredMaxI32 (o : FD)
  /-- VRED_MIN_N32 (R89) -/
  | vredMinN32 (o : FD)
  /-- VRED_MAX_N32 (R89) -/
  | vredMaxN32 (o : FD)
  /-- VRED_AND (R89) -/
  | vredAnd (o : FD)
  /-- VRED_OR (R89) -/
  | vredOr (o : FD)
  /-- VRED_XOR (R89) -/
  | vredXor (o : FD)
  /-- VDROPM (R126) -/
  | vdropm (o : FS)
  /-- SADD (R82) -/
  | sadd (o : FS)
  /-- SSUB (R82) -/
  | ssub (o : FS)
  /-- SMUL (R82) -/
  | smul (o : FS)
  /-- SMULHI_N32 (R82) -/
  | smulhiN32 (o : FS)
  /-- SAND (R82) -/
  | sand (o : FS)
  /-- SOR (R82) -/
  | sor (o : FS)
  /-- SXOR (R82) -/
  | sxor (o : FS)
  /-- SSHL (R82) -/
  | sshl (o : FS)
  /-- SSHR_N32 (R82) -/
  | sshrN32 (o : FS)
  /-- SSHR_I32 (R82) -/
  | sshrI32 (o : FS)
  /-- SMIN_I32 (R82) -/
  | sminI32 (o : FS)
  /-- SMAX_I32 (R82) -/
  | smaxI32 (o : FS)
  /-- SMIN_N32 (R82) -/
  | sminN32 (o : FS)
  /-- SMAX_N32 (R82) -/
  | smaxN32 (o : FS)
  /-- SCLT_I32 (R82) -/
  | scltI32 (o : FS)
  /-- SCLT_N32 (R82) -/
  | scltN32 (o : FS)
  /-- VADDI (R84) -/
  | vaddi (o : FI)
  /-- VSHLI (R84) -/
  | vshli (o : FI)
  /-- VMOVI (R84) -/
  | vmovi (o : FIm)
  /-- SADDI (R84) -/
  | saddi (o : FI)
  /-- SANDI (R84) -/
  | sandi (o : FI)
  /-- SORI (R84) -/
  | sori (o : FI)
  /-- SMOVI (R84) -/
  | smovi (o : FIm)
  /-- SMOV (R83) -/
  | smov (o : FD)
  /-- SBIT_NOT (R83) -/
  | sbitNot (o : FD)
  /-- SBIT_POPC (R83) -/
  | sbitPopc (o : FD)
  /-- SBIT_CLZ (R83) -/
  | sbitClz (o : FD)
  /-- SBIT_CTZ (R83) -/
  | sbitCtz (o : FD)
  /-- SBIT_BREV (R83) -/
  | sbitBrev (o : FD)
  /-- SBIT_SEQZ (R83) -/
  | sbitSeqz (o : FD)
  /-- BR (R93) -/
  | br (o : FB)
  /-- BRZ (R93) -/
  | brz (o : FBS)
  /-- BRNZ (R93) -/
  | brnz (o : FBS)
  /-- BRD (R95) -/
  | brd (o : FBD)
  /-- MARK (R94) -/
  | mark (o : FB)
  /-- JOIN (R96) -/
  | join (o : F0)
  /-- CALL (R93) -/
  | call (o : FBS)
  /-- JR (R93) -/
  | jr (o : Fd)
  /-- LD (R133) -/
  | ld (o : FM)
  /-- ST (R133) -/
  | st (o : FM)
  /-- LDP (R131) -/
  | ldp (o : FMp)
  /-- STP (R131) -/
  | stp (o : FMp)
  /-- LDX (R183) -/
  | ldx (o : FM)
  /-- STX (R183) -/
  | stx (o : FM)
  /-- SLD (R134) -/
  | sld (o : FM)
  /-- SST (R134) -/
  | sst (o : FM)
  /-- ATOM (R270) -/
  | atom (o : FA)
  /-- RED (R272) -/
  | red (o : FA)
  /-- ATOMX (R184) -/
  | atomx (o : FA)
  /-- NPOST (R283) -/
  | npost (o : FAn)
  /-- NDONE (R283) -/
  | ndone (o : FAn)
  /-- NREAD (R283) -/
  | nread (o : FAr)
  /-- CPY (R220) -/
  | cpy (o : Fa)
  /-- CPYX (R223) -/
  | cpyx (o : Fab)
  /-- BSEAL (R226) -/
  | bseal (o : Fd)
  /-- MPOST (R245) -/
  | mpost (o : FD)
  /-- SQ_LD (R301) -/
  | sqLd (o : FD)
  /-- SQ_ST (R301) -/
  | sqSt (o : FD)
  /-- SQ_MARK (R301) -/
  | sqMark (o : FD)
  /-- SQ_BACK (R301) -/
  | sqBack (o : FD)
  /-- SQ_FORK (R301) -/
  | sqFork (o : FD)
  /-- SQ_DROP (R301) -/
  | sqDrop (o : FD)
  /-- SQ_INFO (R302) -/
  | sqInfo (o : FD)
  /-- SPAWN (R208) -/
  | spawn (o : FD)
  /-- LAUNCH (R208) -/
  | launch (o : FD)
  /-- CHAIN_FIX (R203) -/
  | chainFix (o : F0)
  /-- CHAIN_FORM (R204) -/
  | chainForm (o : Fa)
  /-- CHAIN_QUERY (R206) -/
  | chainQuery (o : Fd)
  /-- CACHE_L1WB (R148) -/
  | cacheL1wb (o : FD)
  /-- CACHE_L1INV (R148) -/
  | cacheL1inv (o : FD)
  /-- CACHE_L1WBINV (R148) -/
  | cacheL1wbinv (o : FD)
  /-- CACHE_ICINV (R148) -/
  | cacheIcinv (o : FD)
  /-- CACHE_FETCHBAR (R148) -/
  | cacheFetchbar (o : F0)
  /-- CACHE_PREF (R148) -/
  | cachePref (o : FD)
  /-- REGROUP (R207) -/
  | regroup (o : FD)
  /-- BAR_INIT (R188) -/
  | barInit (o : FDc)
  /-- BAR_ARRIVE (R189) -/
  | barArrive (o : FD)
  /-- BAR_DROP (R188) -/
  | barDrop (o : Fa)
  /-- BAR_QUERY (R188) -/
  | barQuery (o : FD)
  /-- PARK_WAITC (R143) -/
  | parkWaitc (o : Fap)
  /-- PARK_BWAIT (R227) -/
  | parkBwait (o : Fa)
  /-- PARK_WBAR (R193) -/
  | parkWbar (o : Fa)
  /-- PARK_WAITM (R195) -/
  | parkWaitm (o : FDc)
  /-- PARK_YIELD (R173) -/
  | parkYield (o : F0)
  /-- FENCE (R334) -/
  | fence (o : FF)
  /-- NOP (R365) -/
  | nop (o : F0)
  /-- SYS_TRAP (R366) -/
  | sysTrap (o : FT)
  /-- SYS_GETST (R365) -/
  | sysGetst (o : Fd)
  /-- SYS_SETST (R54) -/
  | sysSetst (o : Fa)
  /-- SYS_DCOMMIT (R287) -/
  | sysDcommit (o : F0)
  /-- SYS_RSEED (R113) -/
  | sysRseed (o : Fa)
  /-- GIMM (R19) -/
  | gimm (o : GImm)
  /-- GREP (R28) -/
  | grep (o : GRep)
  /-- GMOD (R30) -/
  | gmod (o : GMod)
  /-- GEXT (R29) -/
  | gext (o : GExt)
  /-- GSTALL (R30) -/
  | gstall (o : GStall)
  /-- GSCALE (R120) -/
  | gscale (o : GScale)
  /-- HMOVI (R251) -/
  | hmovi (o : HI)
  /-- HMOVI_HI (R251) -/
  | hmoviHi (o : HIh)
  /-- HADD (R251) -/
  | hadd (o : HR)
  /-- HSUB (R251) -/
  | hsub (o : HR)
  /-- HSHL (R251) -/
  | hshl (o : HR)
  /-- HAND (R251) -/
  | hand (o : HR)
  /-- HBR (R251) -/
  | hbr (o : HJ)
  /-- HBRNZ (R251) -/
  | hbrnz (o : HJa)
  /-- HLOOP (R251) -/
  | hloop (o : HJa)
  /-- HCALL (R251) -/
  | hcall (o : HJ)
  /-- MPOP (R252) -/
  | mpop (o : HRd)
  /-- MARRIVE (R252) -/
  | marrive (o : HRa)
  /-- MWBAR (R252) -/
  | mwbar (o : HRa)
  /-- MCOPY (R252) -/
  | mcopy (o : HRa)
  /-- MCWAIT (R252) -/
  | mcwait (o : HRa)
  /-- MZERO (R254) -/
  | mzero (o : HT1)
  /-- MMA (R239) -/
  | mma (o : HTm)
  /-- MEXP (R256) -/
  | mexp (o : HTa)
  /-- MEXP_VDIFF (R256) -/
  | mexpVdiff (o : HTab)
  /-- MEXP_RCP (R256) -/
  | mexpRcp (o : HTv)
  /-- MRMAX (R256) -/
  | mrmax (o : HTa)
  /-- MRMAX_KEEP (R256) -/
  | mrmaxKeep (o : HTtab)
  /-- MRSUM (R256) -/
  | mrsum (o : HTa)
  /-- MRSUM_DECAY (R256) -/
  | mrsumDecay (o : HTtab)
  /-- MSCALE (R256) -/
  | mscale (o : HTa)
  /-- MSTORE (R254) -/
  | mstore (o : HTf)
  /-- MPLANE (R255) -/
  | mplane (o : HTp)
  /-- MLOAD (R254) -/
  | mload (o : HTf)
  /-- MDONE (R252) -/
  | mdone (o : HRa)
  /-- IN_FLIGHT_COMPLETE (R141) -/
  | inFlightComplete (g : Nat) (c : Ctr)
  /-- MISS_ENTRY_GRANT (R146) -/
  | missEntryGrant (core : Nat)
  /-- REFILL_COMPLETE (R58) -/
  | refillComplete (g : Nat)
  /-- ACTIVE_SET_ENTER (R157) -/
  | activeSetEnter (core : Nat)
  /-- DISPLACE (R158) -/
  | displace (core : Nat)
  /-- BOOST_RISE (R159) -/
  | boostRise (g : Nat)
  /-- QUANTUM_EXPIRY (R163) -/
  | quantumExpiry (u : Nat)
  /-- W_BLOCK_SAVE (R164) -/
  | wBlockSave (u : Nat)
  /-- GANG_PREEMPT (R165) -/
  | gangPreempt (w : Nat)
  /-- LAUNCH_RECORD_CHECK (R153) -/
  | launchRecordCheck (w : Nat)
  /-- BLOCK_PLACE (R155) -/
  | blockPlace (p : Placement)
  /-- TASK_PLACE (R176) -/
  | taskPlace (w core : Nat)
  /-- SWAP_OUT (R172) -/
  | swapOut (u : Nat)
  /-- STARVE_TIMER_EXPIRY (R174) -/
  | starveTimerExpiry (g : Nat)
  /-- WORK_COMPLETION_WORD (R154) -/
  | workCompletionWord (w : Nat)
  /-- MIGRATE_UNIT (R179) -/
  | migrateUnit (u core : Nat)
  /-- FORWARD_ENTRY_RELEASE (R180) -/
  | forwardEntryRelease (core u : Nat)
  /-- CHAIN_SWITCH_REQUEST (R204) -/
  | chainSwitchRequest (u : Nat)
  /-- CHAIN_FORM_SWITCH (R203) -/
  | chainFormSwitch (u : Nat) (cores : List Nat)
  /-- STREAM_LOAD_ITEM (R200) -/
  | streamLoadItem (u link : Nat)
  /-- STREAM_STORE_ITEM (R200) -/
  | streamStoreItem (u link : Nat)
  /-- BARRIER_ARRIVAL_EFFECT (R189) -/
  | barrierArrivalEffect (u : Nat)
  /-- COPY_CHUNK (R217) -/
  | copyChunk (k : Nat)
  /-- COPY_COMPLETE (R225) -/
  | copyComplete (k : Nat)
  /-- MPOST_VISIBLE (R245) -/
  | mpostVisible (cl i : Nat)
  /-- HELM_START_REQUEST (R244) -/
  | helmStartRequest (cl : Nat)
  /-- HELM_LOAD_REQUEST (R247) -/
  | helmLoadRequest (cl : Nat)
  /-- HELM_CONTEXT_SWITCH (R243) -/
  | helmContextSwitch (cl : Nat)
  /-- TILE_OP_COMPLETE (R253) -/
  | tileOpComplete (cl : Nat)
  /-- MARRIVE_EFFECT (R252) -/
  | marriveEffect (cl : Nat)
  /-- MDONE_EFFECT (R252) -/
  | mdoneEffect (cl : Nat)
  /-- HELM_MWBAR_STARVE (R252) -/
  | helmMwbarStarve (cl : Nat)
  /-- HOME_READ (R268) -/
  | homeRead (g i : Nat)
  /-- HOME_WRITE_PERFORM (R267) -/
  | homeWritePerform (w : WriteSrc)
  /-- SPAN_CLAIM (R266) -/
  | spanClaim (l1 line : Nat)
  /-- HOME_ATOMIC (R270) -/
  | homeAtomic (g i : Nat)
  /-- UPDATE_ONLY_EVICT (R274) -/
  | updateOnlyEvict (l1 line : Nat)
  /-- NOTICE_COMMIT (R280) -/
  | noticeCommit (g : Nat)
  /-- NOTICE_CLAIM (R280) -/
  | noticeClaim (g : Nat)
  /-- NOTICE_RELEASE (R280) -/
  | noticeRelease (g : Nat)
  /-- DRAFT_ENTRY_FREE (R284) -/
  | draftEntryFree (die e : Nat)
  /-- DRAFT_REPLAY (R290) -/
  | draftReplay (g : Nat)
  /-- L2_DATA_ERROR (R291) -/
  | l2DataError (pa n : Nat)
  /-- L2_TAG_ERROR (R292) -/
  | l2TagError (line : Nat) (clean : Bool)
  /-- SQ_ENGINE_REQUEST (R299) -/
  | sqEngineRequest (g : Nat)
  /-- SQ_TRANSFER_COMPLETE (R303) -/
  | sqTransferComplete (k : Nat)
  /-- STATE_PAGE_ERROR (R305) -/
  | statePageError (die ps : Nat)
  /-- PAGE_WALK (R310) -/
  | pageWalk (vf ctx va : Nat) (acc : Access)
  /-- TLB_INV (R319) -/
  | tlbInv (m : Master) (die : Nat) (v : BitVec 64)
  /-- TLB_INV_COMPLETE (R319) -/
  | tlbInvComplete (i : Nat)
  /-- FQ_BASE_WRITE (R322) -/
  | fqBaseWrite (m : Master) (q : Ring) (v : BitVec 64)
  /-- FQ_PTR_HEAD_WRITE (R322) -/
  | fqPtrHeadWrite (m : Master) (q : Ring) (v : BitVec 32)
  /-- FQ_RESOLVE (R323) -/
  | fqResolve (m : Master) (vf : Nat) (stage2 : Bool) (v : BitVec 64)
  /-- FQ_RESOLVE_FATAL (R323) -/
  | fqResolveFatal (m : Master) (vf : Nat) (stage2 : Bool) (v : BitVec 64)
  /-- TTQ_MOVE (R325) -/
  | ttqMove (m : Master) (die : Nat) (c : TtqCmd)
  /-- TTQ_DEMOTE (R326) -/
  | ttqDemote (m : Master) (die : Nat) (c : TtqCmd)
  /-- TTQ_PROMOTE (R326) -/
  | ttqPromote (m : Master) (die : Nat) (c : TtqCmd)
  /-- TTQ_COMMAND_COMPLETE (R325) -/
  | ttqCommandComplete (die : Nat)
  /-- BLOCK_HANDLER_ENTRY (R361) -/
  | blockHandlerEntry (u : Nat)
  /-- CONTEXT_TRAP (R362) -/
  | contextTrap (i : Nat)
  /-- PARTITION_TRAP (R364) -/
  | partitionTrap (i : Nat)
  /-- DEVICE_TRAP (R364) -/
  | deviceTrap (i : Nat)
  /-- HANDLERTIMEOUT (R355) -/
  | handlertimeout (h : HandlerRef)
  /-- DEVICE_RUNG_TIMEOUT (R354) -/
  | deviceRungTimeout (i : Nat)
  /-- PMT_PREEMPT (R370) -/
  | pmtPreempt (m : Master) (p : Nat) (v : BitVec 32)
  /-- PMT_RESUME (R370) -/
  | pmtResume (m : Master) (p : Nat) (v : BitVec 32)
  /-- PREEMPT_CLASS_ACK (R369) -/
  | preemptClassAck (p : Nat) (cls : Nat)
  /-- UNIT_FENCE (R376) -/
  | unitFence (k : FenceKind) (n : Nat)
  /-- DEV_SEM_READ (R381) -/
  | devSemRead (m : Master)
  /-- DEV_SEM_WRITE (R381) -/
  | devSemWrite (m : Master) (v : BitVec 32)
  /-- DEV_CTL_FWU (R389) -/
  | devCtlFwu (m : Master) (v : BitVec 32)
  /-- DEV_CTL_RST (R381) -/
  | devCtlRst (m : Master) (v : BitVec 32)
  /-- BOOT_VERIFY (R389) -/
  | bootVerify (firmwareOk hypervisorOk : Bool) (badParts : List Nat)
  /-- HOST_LINK_RESET (R381) -/
  | hostLinkReset (port : Nat)
  /-- PART_TBL_WRITE (R382) -/
  | partTblWrite (m : Master) (q : Nat) (v : BitVec 32)
  /-- QUARTER_WIPE_DONE (R390) -/
  | quarterWipeDone (q : Nat)
  /-- HOST_BAR2_READ (R383) -/
  | hostBar2Read (vf off n : Nat)
  /-- HOST_BAR2_WRITE (R383) -/
  | hostBar2Write (vf off : Nat) (bytes : List (BitVec 8))
  /-- NV_INT_WRITE (R384) -/
  | nvIntWrite (vf : Nat) (v : BitVec 32)
  /-- CQ_BASE_WRITE (R386) -/
  | cqBaseWrite (m : Master) (vf : Nat) (v : BitVec 64)
  /-- CQ_KICK (R386) -/
  | cqKick (m : Master) (vf : Nat) (v : BitVec 32)
  /-- CQ_STAMP_REREAD (R387) -/
  | cqStampReread (vf : Nat)
  /-- CQ_NOP (R388) -/
  | cqNop (vf : Nat)
  /-- CQ_LAUNCH (R388) -/
  | cqLaunch (vf : Nat)
  /-- CQ_WAIT (R388) -/
  | cqWait (vf : Nat)
  /-- CQ_WAIT_SATISFIED (R388) -/
  | cqWaitSatisfied (vf : Nat)
  /-- CQ_SIGNAL (R388) -/
  | cqSignal (vf : Nat)
  /-- CQ_SIGNAL_WRITE (R388) -/
  | cqSignalWrite (vf : Nat)
  /-- SQ_POOL_WRITE (R412) -/
  | sqPoolWrite (m : Master) (die : Nat) (v : BitVec 32)
  /-- POWER_CAP_STEP (R391) -/
  | powerCapStep (lower : Bool)
  /-- REGISTER_WRITE (R380) -/
  | registerWrite (m : Master) (pa : Nat) (v : BitVec 64)
  /-- FLIT_RECEIVE (R399) -/
  | flitReceive (die port : Nat) (seq : BitVec 12) (crcOk : Bool)
  /-- FLIT_REPLAY (R399) -/
  | flitReplay (die port : Nat) (seq : BitVec 12)
  /-- PORT_RETRAIN (R399) -/
  | portRetrain (die port : Nat)
  /-- PORT_TRAINED (R400) -/
  | portTrained (die port lanes : Nat)
  /-- PORT_DOWN_TIMEOUT (R399) -/
  | portDownTimeout (die port : Nat)
  /-- REMOTE_REQUEST (R403) -/
  | remoteRequest (r : RemoteReq)
  /-- ENDPOINT_LOST (R407) -/
  | endpointLost (part eid : Nat)
  /-- FIRMWARE_ACKNOWLEDGE (R354) -/
  | firmwareAcknowledge (i : Nat)
  /-- CONTEXT_DESTROY (R247) -/
  | contextDestroy (vf ctx : Nat)
  /-- LIFE_CYCLE_CHANGE (R390) -/
  | lifeCycleChange (v : Nat)
  /-- ATTESTATION_REQUEST (R389) -/
  | attestationRequest (m : Master) (nonce : BitVec 256)
  /-- SYS_TRET (R367) -/
  | sysTret
  /-- SYS_EXIT (R368) -/
  | sysExit
  /-- SYS_DABORT (R288) -/
  | sysDabort
  /-- HRET (R251) -/
  | hret
  /-- MFENCE (R252) -/
  | mfence
  /-- HNOP (R251) -/
  | hnop
  /-- HHALT (R251) -/
  | hhalt
  /-- COLD_RESET (R390) -/
  | coldReset
  /-- WORD_NOT_AN_INSTRUCTION (R37) -/
  | wordNotAnInstruction
  /-- HELM_RESERVED_MAJOR (R249) -/
  | helmReservedMajor
  deriving DecidableEq, Repr

end Sys2Proof
end

