-- ==== Sys2Proof/WellFormed.lean ====
section
/-!
DEFINITION. Sys2Proof/WellFormed.lean: the role each field of a word plays (R32, R35), and the operand limits that a
word alone decides (R12, R13, R18, R23, R32-R36, R249). A register count, a width or a gloss of the chain can narrow
them further; those checks stand with the machine.
-/
namespace Sys2Proof

/-- Which field of the word a role belongs to: the ones grep can step (R23), or another. -/
inductive Fld where
  | d | a | b | k
  deriving DecidableEq, Repr

/-- What a field names (R32). -/
inductive Role where
  /-- a vector register read as a source, with its dry bit -/
  | vsrc (x : BitVec 7)
  /-- a source of a vector instruction whose file bit chooses the file -/
  | xsrc (x : BitVec 7) (f : BitVec 1)
  /-- a source in the scalar and special space of an instruction that is not a vector reader of ports or lid -/
  | ssrc (x : BitVec 7)
  /-- an even base of n consecutive scalars read -/
  | sbase (x : BitVec 7) (n : Nat)
  /-- an even base of n consecutive scalars named by a 6-bit field -/
  | sbase6 (x : BitVec 6) (n : Nat)
  /-- n consecutive scalars of store data -/
  | sdat (x : BitVec 6) (n : Nat)
  /-- n vector registers of data or destination, the first a multiple of n -/
  | vdst (x : BitVec 6) (n : Nat)
  /-- a vector register named by a gloss -/
  | vreg (x : BitVec 6)
  /-- a scalar destination: s0-s47 or zr -/
  | sdst (x : BitVec 6)
  /-- n scalar destinations, or zr -/
  | sdstN (x : BitVec 6) (n : Nat)
  /-- a scalar read named by a 6-bit field -/
  | scal (x : BitVec 6)
  /-- s0-s47 -/
  | s47 (x : BitVec 6)
  /-- a triple index 0-7 -/
  | trip (x : BitVec 6)
  /-- a port or zr written -/
  | pdst (x : BitVec 6)
  /-- a base pair s2k, s2k+1 -/
  | pair (k : BitVec 5)
  /-- the size of a load, of a store, of a private access (R18, R131) -/
  | lsize (z : BitVec 3)
  | ssize (z : BitVec 3)
  | psize (z : BitVec 3)
  /-- an atomic form; the flag admits code 11 (R36) -/
  | aop (o : BitVec 4) (red : Bool)
  /-- a progress class (R35) -/
  | cls (c : BitVec 2)
  /-- a scope code (R21) -/
  | scope (c : BitVec 3)
  /-- the fields of a gmod agree (R23) -/
  | gmodOk (o : GMod)
  /-- the immediate bit of an HR form agrees with its fields (R248) -/
  | hrImm (o : HR)
  /-- a helm register that is a multiple of 4, or even (R252) -/
  | mult4 (x : BitVec 5)
  | hEven (x : BitVec 5)
  /-- an element format of mload and mstore (R254) -/
  | elemFmt (f : BitVec 2)
  /-- a format and layout of mplane (R255) -/
  | planeFmt (f : BitVec 3) (l : BitVec 1)
  deriving DecidableEq, Repr

/-- The index of a 7-bit source: bits [5:0] (R11). -/
def srcIdx (x : BitVec 7) : Nat := x.toNat % 64

/-- The dry bit of a 7-bit source: bit [6] (R11). -/
def srcDry (x : BitVec 7) : Bool := x.getLsbD 6

/-- The registers a size code names (R18); the reserved code counts as one. -/
def sizeRegs (z : BitVec 3) : Nat := if z = 5#3 then 2 else if z = 6#3 then 4 else 1

/-- The bytes of one access of a size code (R18). -/
def sizeBytes (z : BitVec 3) : Nat :=
  match z.toNat with
  | 0 | 1 => 1
  | 2 | 3 => 2
  | 4 => 4
  | 5 => 8
  | _ => 16

/-- The registers an atomic form names: cas takes a comparand and a new value (R36). -/
def aopRegs (o : BitVec 4) : Nat := if o = 10#4 then 2 else 1

/-- A scalar index that R12 allows as a source of an instruction that is not a vector instruction. -/
def scalarReadable (n : Nat) : Bool := n < 48 || n = 56 || (58 ≤ n && n < 64)

/-- Whether a role keeps the limits that the word alone decides. -/
def Role.ok : Role → Bool
  | .vsrc _ => true
  | .xsrc x f => f = 0#1 || !srcDry x
  | .ssrc x => !srcDry x && scalarReadable (srcIdx x)
  | .sbase x n => !srcDry x && srcIdx x % 2 = 0 && srcIdx x + n ≤ 48
  | .sbase6 x n => x.toNat % 2 = 0 && x.toNat + n ≤ 48
  | .sdat x n => x.toNat % n = 0 && x.toNat + n ≤ 48
  | .vdst x n => x.toNat % n = 0
  | .vreg _ => true
  | .sdst x => x.toNat < 48 || x.toNat = 56
  | .sdstN x n => (x.toNat % n = 0 && x.toNat + n ≤ 48) || x.toNat = 56
  | .scal x => scalarReadable x.toNat
  | .s47 x => x.toNat < 48
  | .trip x => x.toNat < 8
  | .pdst x => 48 ≤ x.toNat && x.toNat ≤ 56
  | .pair k => k.toNat < 24
  | .lsize z => z.toNat < 7
  | .ssize z => z.toNat < 7 && z != 1#3 && z != 3#3
  | .psize z => 4 ≤ z.toNat && z.toNat < 7
  | .aop o red => o.toNat < 11 || (red && o = 11#4)
  | .cls c => c != 3#2
  | .scope c => c != 7#3
  | .gmodOk o => (o.e = 1#1 || o.m = 0#2) && (o.o = 1#1 || o.q = 0#3) && o.q != 7#3 && o.c.toNat < 4
  | .hrImm o => if o.i = 1#1 then o.b = 0#5 else o.k = 0#11
  | .mult4 x => x.toNat % 4 = 0
  | .hEven x => x.toNat % 2 = 0
  | .elemFmt f => f != 3#2
  | .planeFmt f l => 2 ≤ f.toNat && f.toNat ≤ 5 && (l = 0#1 || f = 3#3 || f = 5#3)

/-- The roles of the fields of an instruction (R32, R35, R249); a step of another agent has no word. -/
def Instr.roles : Instr → List (Fld × Role)
  | .vaddI32 o | .vsubI32 o | .vmulI32 o | .vmulhiI32 o | .vmulhiN32 o | .vmadI32 o | .vminI32 o | .vmaxI32 o
  | .vminN32 o | .vmaxN32 o | .vand o | .vor o | .vxor o | .vandn o | .vshl o | .vshrN32 o | .vshrI32 o
  | .vrotl o | .vsel o | .vbfxN32 o | .vbfxI32 o | .vbfi o | .vperm o | .vaddsatI32 o | .vsubsatI32 o
  | .vpack16 o | .vshfl o | .vaddF32 o | .vsubF32 o | .vmulF32 o | .vfmaF32 o | .vminF32 o | .vmaxF32 o
  | .vaddF16x2 o | .vmulF16x2 o | .vfmaF16x2 o | .vaddBf16x2 o | .vmulBf16x2 o | .vfmaBf16x2 o | .vldexpF32 o
  | .vcopysignF32 o | .vminF16x2 o | .vmaxF16x2 o | .vdot4E4m3 o | .vdot4E5m2 o | .vdot4I8 o | .vdot4N8 o
  | .vdot8E2m1 o | .vdot8I4 o | .vdot2Bf16 o | .vdot2F16 o =>
    [(.d, .vdst o.d 1), (.a, .xsrc o.a o.fa), (.b, .xsrc o.b o.fb)]
  | .vcmpI32 o | .vcmpN32 o | .vcmpF32 o | .vcmpF16 o =>
    [(.a, .xsrc o.a o.fa), (.b, .xsrc o.b o.fb)]
  | .vmovPortPush o =>
    [(.d, .pdst o.d), (.a, .xsrc o.a o.fa)]
  | .vcvtI32F32 o | .vcvtN32F32 o =>
    [(.d, .vdst o.d 1), (.a, .xsrc o.a o.fa)]
  | .vcvtF32I32 o | .vcvtF32N32 o | .vcvtF16F32 o | .vcvtBf16F32 o | .vcvtF32F16 o | .vcvtF32Bf16 o
  | .vsfuRcp o | .vsfuRsq o | .vsfuSqrt o | .vsfuExp2 o | .vsfuLog2 o | .vsfuSin2pi o | .vsfuCos2pi o
  | .vsfuTanh o | .vsfuSigm o | .vmov o | .vbitNot o | .vbitPopc o | .vbitClz o | .vbitCtz o | .vbitBrev o
  | .vbitAbsI32 o | .vbitNegI32 o | .vbitAbsF32 o | .vbitNegF32 o =>
    [(.d, .vdst o.d 1), (.a, .xsrc o.a o.fa)]
  | .vcvtE4m3F32 o | .vcvtE5m2F32 o =>
    [(.d, .vdst o.d 1), (.a, .xsrc o.a o.fa)]
  | .vcvtE2m1F32 o =>
    [(.d, .vdst o.d 1), (.a, .xsrc o.a o.fa)]
  | .vcvtF32E4m3 o | .vcvtF32E5m2 o =>
    [(.d, .vdst o.d 1), (.a, .xsrc o.a o.fa)]
  | .vcvtF32E2m1 o =>
    [(.d, .vdst o.d 1), (.a, .xsrc o.a o.fa)]
  | .vscanAddI32 o | .vscanAddF32 o | .vscanMinI32 o | .vscanMaxI32 o | .vscanMinN32 o | .vscanMaxN32 o
  | .vscanAnd o | .vscanOr o | .vscanXor o =>
    [(.d, .vdst o.d 1), (.a, .xsrc o.a o.fa)]
  | .vquantE4m3 o | .vquantE5m2 o | .vquantE2m1 o | .vquantI8 o | .vquantI4 o =>
    [(.d, .vdst o.d 1), (.a, .xsrc o.a o.fa)]
  | .vvoteAny o | .vvoteAll o | .vvoteBallot o | .vvoteCount o | .vvoteFirst o | .vredAddI32 o | .vredAddF32 o
  | .vredMinI32 o | .vredMaxI32 o | .vredMinN32 o | .vredMaxN32 o | .vredAnd o | .vredOr o | .vredXor o =>
    [(.d, .sdst o.d), (.a, .vsrc o.a)]
  | .vdropm o =>
    [(.d, .trip o.d), (.a, .vsrc o.a), (.b, .xsrc o.b 1#1)]
  | .sadd o | .ssub o | .smul o | .smulhiN32 o | .sand o | .sor o | .sxor o | .sshl o | .sshrN32 o | .sshrI32 o
  | .sminI32 o | .smaxI32 o | .sminN32 o | .smaxN32 o | .scltI32 o | .scltN32 o =>
    [(.d, .sdst o.d), (.a, .ssrc o.a), (.b, .ssrc o.b)]
  | .vaddi o | .vshli o =>
    [(.d, .vdst o.d 1), (.a, .vsrc o.a)]
  | .vmovi o =>
    [(.d, .vdst o.d 1)]
  | .saddi o | .sandi o | .sori o =>
    [(.d, .sdst o.d), (.a, .ssrc o.a)]
  | .smovi o =>
    [(.d, .sdst o.d)]
  | .smov o | .sbitNot o | .sbitPopc o | .sbitClz o | .sbitCtz o | .sbitBrev o | .sbitSeqz o =>
    [(.d, .sdst o.d), (.a, .ssrc o.a)]
  | .brz o | .brnz o =>
    [(.d, .scal o.d)]
  | .jr o =>
    [(.d, .scal o.d)]
  | .call o =>
    [(.d, .s47 o.d)]
  | .ld o | .ldx o =>
    [(.d, .vdst o.d (sizeRegs o.z)), (.a, .vsrc o.a), (.k, .pair o.k), (.k, .lsize o.z)]
  | .st o | .stx o =>
    [(.d, .vdst o.d (sizeRegs o.z)), (.a, .vsrc o.a), (.k, .pair o.k), (.k, .ssize o.z)]
  | .ldp o =>
    [(.d, .vdst o.d (sizeRegs o.z)), (.a, .vsrc o.a), (.k, .psize o.z)]
  | .stp o =>
    [(.d, .vdst o.d (sizeRegs o.z)), (.a, .vsrc o.a), (.k, .psize o.z)]
  | .sld o =>
    [(.d, .sdstN o.d (sizeRegs o.z)), (.a, .ssrc o.a), (.k, .pair o.k), (.k, .lsize o.z)]
  | .sst o =>
    [(.d, .sdat o.d (sizeRegs o.z)), (.a, .ssrc o.a), (.k, .pair o.k), (.k, .ssize o.z)]
  | .atom o | .atomx o =>
    [(.d, .vdst o.d (aopRegs o.o)), (.a, .vsrc o.a), (.k, .pair o.k), (.k, .aop o.o false)]
  | .red o =>
    [(.d, .vdst o.d (aopRegs o.o)), (.a, .vsrc o.a), (.k, .pair o.k), (.k, .aop o.o true)]
  | .npost o =>
    [(.d, .sdst o.d), (.a, .sbase o.a 2), (.k, .pair o.k)]
  | .ndone o =>
    [(.d, .sbase6 o.d 2), (.a, .ssrc o.a), (.k, .pair o.k)]
  | .nread o =>
    [(.d, .sbase6 o.d 2), (.k, .pair o.k)]
  | .cpy o =>
    [(.a, .sbase o.a 8)]
  | .cpyx o =>
    [(.a, .vsrc o.a), (.b, .sbase o.b 8)]
  | .bseal o =>
    [(.d, .sdst o.d)]
  | .mpost o =>
    [(.d, .sdst o.d), (.a, .sbase o.a 4)]
  | .sqLd o | .sqSt o | .sqMark o | .sqBack o | .sqFork o | .sqDrop o | .sqInfo o =>
    [(.d, .sdst o.d), (.a, .sbase o.a 4)]
  | .spawn o | .launch o =>
    [(.d, .sdst o.d), (.a, .sbase o.a 2)]
  | .chainForm o =>
    [(.a, .ssrc o.a)]
  | .chainQuery o =>
    [(.d, .sdst o.d)]
  | .cacheL1wb o | .cacheL1inv o | .cacheL1wbinv o | .cacheIcinv o | .cachePref o =>
    [(.d, .scal o.d), (.a, .sbase o.a 2)]
  | .regroup o =>
    [(.d, .sdst o.d), (.a, .ssrc o.a)]
  | .barInit o =>
    [(.d, .scal o.d), (.a, .ssrc o.a), (.k, .cls o.c)]
  | .barArrive o | .barQuery o =>
    [(.d, .sdst o.d), (.a, .ssrc o.a)]
  | .barDrop o | .parkBwait o | .parkWbar o | .sysSetst o | .sysRseed o =>
    [(.a, .ssrc o.a)]
  | .parkWaitc o =>
    [(.a, .ssrc o.a)]
  | .parkWaitm o =>
    [(.d, .scal o.d), (.a, .sbase o.a 2), (.k, .cls o.c)]
  | .fence o =>
    [(.k, .scope o.c)]
  | .sysGetst o =>
    [(.d, .sdst o.d)]
  | .gmod o =>
    [(.k, .gmodOk o)]
  | .gimm _ | .grep _ | .gext _ | .gstall _ =>
    []
  | .gscale o =>
    [(.a, .vreg o.a), (.b, .vreg o.b)]
  | .br _ | .brd _ | .mark _ | .join _ | .chainFix _ | .cacheFetchbar _ | .parkYield _ | .nop _ | .sysTrap _
  | .sysDcommit _ =>
    []
  | .hadd o | .hsub o | .hshl o | .hand o =>
    [(.k, .hrImm o)]
  | .mpop o =>
    [(.d, .mult4 o.d)]
  | .mdone o =>
    [(.a, .hEven o.a)]
  | .mstore o | .mload o =>
    [(.k, .elemFmt o.f)]
  | .mplane o =>
    [(.k, .planeFmt o.f o.l)]
  | .hmovi _ | .hmoviHi _ | .hbr _ | .hbrnz _ | .hloop _ | .hcall _ | .marrive _ | .mwbar _ | .mcopy _
  | .mcwait _ | .mzero _ | .mma _ | .mexp _ | .mexpVdiff _ | .mexpRcp _ | .mrmax _ | .mrmaxKeep _ | .mrsum _
  | .mrsumDecay _ | .mscale _ =>
    []
  | .sysTret | .sysExit | .sysDabort | .hret | .mfence | .hnop | .hhalt =>
    []
  | .inFlightComplete _ _ | .missEntryGrant _ | .refillComplete _ | .activeSetEnter _ | .displace _
  | .boostRise _ | .quantumExpiry _ | .wBlockSave _ | .gangPreempt _ | .launchRecordCheck _ | .blockPlace _
  | .taskPlace _ _ | .swapOut _ | .starveTimerExpiry _ | .workCompletionWord _ | .migrateUnit _ _
  | .forwardEntryRelease _ _ | .chainSwitchRequest _ | .chainFormSwitch _ _ | .streamLoadItem _ _
  | .streamStoreItem _ _ | .barrierArrivalEffect _ | .copyChunk _ | .copyComplete _ | .mpostVisible _ _
  | .helmStartRequest _ | .helmLoadRequest _ | .helmContextSwitch _ | .tileOpComplete _ | .marriveEffect _
  | .mdoneEffect _ | .helmMwbarStarve _ | .homeRead _ _ | .homeWritePerform _ | .spanClaim _ _
  | .homeAtomic _ _ | .updateOnlyEvict _ _ | .noticeCommit _ | .noticeClaim _ | .noticeRelease _
  | .draftEntryFree _ _ | .draftReplay _ | .l2DataError _ _ | .l2TagError _ _ | .sqEngineRequest _
  | .sqTransferComplete _ | .statePageError _ _ | .pageWalk _ _ _ _ | .tlbInv _ _ _ | .tlbInvComplete _
  | .fqBaseWrite _ _ _ | .fqPtrHeadWrite _ _ _ | .fqResolve _ _ _ _ | .fqResolveFatal _ _ _ _ | .ttqMove _ _ _
  | .ttqDemote _ _ _ | .ttqPromote _ _ _ | .ttqCommandComplete _ | .blockHandlerEntry _ | .contextTrap _
  | .partitionTrap _ | .deviceTrap _ | .handlertimeout _ | .deviceRungTimeout _ | .pmtPreempt _ _ _
  | .pmtResume _ _ _ | .preemptClassAck _ _ | .unitFence _ _ | .devSemRead _ | .devSemWrite _ _
  | .devCtlFwu _ _ | .devCtlRst _ _ | .coldReset | .bootVerify _ _ _ | .hostLinkReset _ | .partTblWrite _ _ _
  | .quarterWipeDone _ | .hostBar2Read _ _ _ | .hostBar2Write _ _ _ | .nvIntWrite _ _ | .cqBaseWrite _ _ _
  | .cqKick _ _ _ | .cqStampReread _ | .cqNop _ | .cqLaunch _ | .cqWait _ | .cqWaitSatisfied _ | .cqSignal _
  | .cqSignalWrite _ | .sqPoolWrite _ _ _ | .powerCapStep _ | .registerWrite _ _ _ | .flitReceive _ _ _ _
  | .flitReplay _ _ _ | .portRetrain _ _ | .portTrained _ _ _ | .portDownTimeout _ _ | .remoteRequest _
  | .endpointLost _ _ | .wordNotAnInstruction | .helmReservedMajor | .firmwareAcknowledge _
  | .contextDestroy _ _ | .lifeCycleChange _ | .attestationRequest _ _ =>
    []

/-- A well-formed instruction keeps every operand limit that its word alone decides. -/
def WellFormed (i : Instr) : Prop := ∀ r ∈ i.roles, r.2.ok = true

/-- The same as a test. -/
def Instr.wf (i : Instr) : Bool := i.roles.all fun r => r.2.ok

end Sys2Proof
end

