-- ==== Sys2Proof/Decode.lean ====
section
/-!
DEFINITION. Sys2Proof/Decode.lean: the decoders of group words (R31-R37) and helm words (R248, R249), total on any
word, with the reason of each refusal, and after them the encoder, written from the same tables.
-/
namespace Sys2Proof

/-- Bits [lo+n-1 : lo] of a word (R6). -/
def fld (w : BitVec 32) (lo n : Nat) : BitVec n := w.extractLsb' lo n

/-- A field placed at bit lo of a word. -/
def place (n lo : Nat) (x : BitVec n) : BitVec 32 := (x.setWidth 32) <<< lo

/-- Why a decoder refuses a word (R37, R249). -/
inductive Reject where
  /-- 0x0000_0000 -/
  | zeroWord
  /-- 0xFFFF_FFFF -/
  | badWord
  /-- a major that no table defines -/
  | reservedMajor
  /-- major 0x7D with kind 10 or 11 -/
  | reservedGloss
  /-- a defined major with a reserved field not zero or an undefined function code -/
  | reservedField
  deriving DecidableEq, Repr

/-- The fields of format FR read from a word. -/
def FR.dec (w : BitVec 32) : FR :=
  ⟨fld w 19 6, fld w 12 7, fld w 5 7, fld w 4 1, fld w 3 1, fld w 0 3⟩

/-- The fields of format FR placed in a word. -/
def FR.enc (o : FR) : BitVec 32 :=
  place 6 19 o.d ||| place 7 12 o.a ||| place 7 5 o.b ||| place 1 4 o.fa ||| place 1 3 o.fb ||| place 3 0 o.s

/-- The fields of format FC read from a word. -/
def FC.dec (w : BitVec 32) : FC :=
  ⟨fld w 22 3, fld w 19 3, fld w 12 7, fld w 5 7, fld w 4 1, fld w 3 1, fld w 0 3⟩

/-- The fields of format FC placed in a word. -/
def FC.enc (o : FC) : BitVec 32 :=
  place 3 22 o.c ||| place 3 19 o.t ||| place 7 12 o.a ||| place 7 5 o.b ||| place 1 4 o.fa ||| place 1 3 o.fb ||| place 3 0 o.s

/-- The fields of format FUm read from a word. -/
def FUm.dec (w : BitVec 32) : FUm :=
  ⟨fld w 19 6, fld w 12 7, fld w 5 2, fld w 4 1, fld w 0 3⟩

/-- The fields of format FUm placed in a word. -/
def FUm.enc (o : FUm) : BitVec 32 :=
  place 6 19 o.d ||| place 7 12 o.a ||| place 2 5 o.m ||| place 1 4 o.fa ||| place 3 0 o.s

/-- The fields of format FU read from a word. -/
def FU.dec (w : BitVec 32) : FU :=
  ⟨fld w 19 6, fld w 12 7, fld w 4 1, fld w 0 3⟩

/-- The fields of format FU placed in a word. -/
def FU.enc (o : FU) : BitVec 32 :=
  place 6 19 o.d ||| place 7 12 o.a ||| place 1 4 o.fa ||| place 3 0 o.s

/-- The fields of format FUrb read from a word. -/
def FUrb.dec (w : BitVec 32) : FUrb :=
  ⟨fld w 19 6, fld w 12 7, fld w 10 1, fld w 5 2, fld w 4 1, fld w 0 3⟩

/-- The fields of format FUrb placed in a word. -/
def FUrb.enc (o : FUrb) : BitVec 32 :=
  place 6 19 o.d ||| place 7 12 o.a ||| place 1 10 o.r ||| place 2 5 o.n ||| place 1 4 o.fa ||| place 3 0 o.s

/-- The fields of format FUrn read from a word. -/
def FUrn.dec (w : BitVec 32) : FUrn :=
  ⟨fld w 19 6, fld w 12 7, fld w 10 1, fld w 5 3, fld w 4 1, fld w 0 3⟩

/-- The fields of format FUrn placed in a word. -/
def FUrn.enc (o : FUrn) : BitVec 32 :=
  place 6 19 o.d ||| place 7 12 o.a ||| place 1 10 o.r ||| place 3 5 o.n ||| place 1 4 o.fa ||| place 3 0 o.s

/-- The fields of format FUb read from a word. -/
def FUb.dec (w : BitVec 32) : FUb :=
  ⟨fld w 19 6, fld w 12 7, fld w 5 2, fld w 4 1, fld w 0 3⟩

/-- The fields of format FUb placed in a word. -/
def FUb.enc (o : FUb) : BitVec 32 :=
  place 6 19 o.d ||| place 7 12 o.a ||| place 2 5 o.n ||| place 1 4 o.fa ||| place 3 0 o.s

/-- The fields of format FUn read from a word. -/
def FUn.dec (w : BitVec 32) : FUn :=
  ⟨fld w 19 6, fld w 12 7, fld w 5 3, fld w 4 1, fld w 0 3⟩

/-- The fields of format FUn placed in a word. -/
def FUn.enc (o : FUn) : BitVec 32 :=
  place 6 19 o.d ||| place 7 12 o.a ||| place 3 5 o.n ||| place 1 4 o.fa ||| place 3 0 o.s

/-- The fields of format FUx read from a word. -/
def FUx.dec (w : BitVec 32) : FUx :=
  ⟨fld w 19 6, fld w 12 7, fld w 11 1, fld w 4 1, fld w 0 3⟩

/-- The fields of format FUx placed in a word. -/
def FUx.enc (o : FUx) : BitVec 32 :=
  place 6 19 o.d ||| place 7 12 o.a ||| place 1 11 o.x ||| place 1 4 o.fa ||| place 3 0 o.s

/-- The fields of format FD read from a word. -/
def FD.dec (w : BitVec 32) : FD :=
  ⟨fld w 19 6, fld w 12 7, fld w 0 3⟩

/-- The fields of format FD placed in a word. -/
def FD.enc (o : FD) : BitVec 32 :=
  place 6 19 o.d ||| place 7 12 o.a ||| place 3 0 o.s

/-- The fields of format FUq read from a word. -/
def FUq.dec (w : BitVec 32) : FUq :=
  ⟨fld w 19 6, fld w 12 7, fld w 8 1, fld w 4 1, fld w 0 3⟩

/-- The fields of format FUq placed in a word. -/
def FUq.enc (o : FUq) : BitVec 32 :=
  place 6 19 o.d ||| place 7 12 o.a ||| place 1 8 o.r ||| place 1 4 o.fa ||| place 3 0 o.s

/-- The fields of format FS read from a word. -/
def FS.dec (w : BitVec 32) : FS :=
  ⟨fld w 19 6, fld w 12 7, fld w 5 7, fld w 0 3⟩

/-- The fields of format FS placed in a word. -/
def FS.enc (o : FS) : BitVec 32 :=
  place 6 19 o.d ||| place 7 12 o.a ||| place 7 5 o.b ||| place 3 0 o.s

/-- The fields of format FI read from a word. -/
def FI.dec (w : BitVec 32) : FI :=
  ⟨fld w 19 6, fld w 12 7, fld w 3 9, fld w 0 3⟩

/-- The fields of format FI placed in a word. -/
def FI.enc (o : FI) : BitVec 32 :=
  place 6 19 o.d ||| place 7 12 o.a ||| place 9 3 o.i ||| place 3 0 o.s

/-- The fields of format FIm read from a word. -/
def FIm.dec (w : BitVec 32) : FIm :=
  ⟨fld w 19 6, fld w 3 9, fld w 0 3⟩

/-- The fields of format FIm placed in a word. -/
def FIm.enc (o : FIm) : BitVec 32 :=
  place 6 19 o.d ||| place 9 3 o.i ||| place 3 0 o.s

/-- The fields of format FB read from a word. -/
def FB.dec (w : BitVec 32) : FB :=
  ⟨fld w 3 22, fld w 0 3⟩

/-- The fields of format FB placed in a word. -/
def FB.enc (o : FB) : BitVec 32 :=
  place 22 3 o.o ||| place 3 0 o.s

/-- The fields of format FBS read from a word. -/
def FBS.dec (w : BitVec 32) : FBS :=
  ⟨fld w 19 6, fld w 3 16, fld w 0 3⟩

/-- The fields of format FBS placed in a word. -/
def FBS.enc (o : FBS) : BitVec 32 :=
  place 6 19 o.d ||| place 16 3 o.o ||| place 3 0 o.s

/-- The fields of format FBD read from a word. -/
def FBD.dec (w : BitVec 32) : FBD :=
  ⟨fld w 22 3, fld w 3 19, fld w 0 3⟩

/-- The fields of format FBD placed in a word. -/
def FBD.enc (o : FBD) : BitVec 32 :=
  place 3 22 o.t ||| place 19 3 o.o ||| place 3 0 o.s

/-- The fields of format F0 read from a word. -/
def F0.dec (w : BitVec 32) : F0 :=
  ⟨fld w 0 3⟩

/-- The fields of format F0 placed in a word. -/
def F0.enc (o : F0) : BitVec 32 :=
  place 3 0 o.s

/-- The fields of format Fd read from a word. -/
def Fd.dec (w : BitVec 32) : Fd :=
  ⟨fld w 19 6, fld w 0 3⟩

/-- The fields of format Fd placed in a word. -/
def Fd.enc (o : Fd) : BitVec 32 :=
  place 6 19 o.d ||| place 3 0 o.s

/-- The fields of format FM read from a word. -/
def FM.dec (w : BitVec 32) : FM :=
  ⟨fld w 19 6, fld w 12 7, fld w 7 5, fld w 4 3, fld w 0 3⟩

/-- The fields of format FM placed in a word. -/
def FM.enc (o : FM) : BitVec 32 :=
  place 6 19 o.d ||| place 7 12 o.a ||| place 5 7 o.k ||| place 3 4 o.z ||| place 3 0 o.s

/-- The fields of format FMp read from a word. -/
def FMp.dec (w : BitVec 32) : FMp :=
  ⟨fld w 19 6, fld w 12 7, fld w 4 3, fld w 0 3⟩

/-- The fields of format FMp placed in a word. -/
def FMp.enc (o : FMp) : BitVec 32 :=
  place 6 19 o.d ||| place 7 12 o.a ||| place 3 4 o.z ||| place 3 0 o.s

/-- The fields of format FA read from a word. -/
def FA.dec (w : BitVec 32) : FA :=
  ⟨fld w 19 6, fld w 12 7, fld w 7 5, fld w 3 4, fld w 0 3⟩

/-- The fields of format FA placed in a word. -/
def FA.enc (o : FA) : BitVec 32 :=
  place 6 19 o.d ||| place 7 12 o.a ||| place 5 7 o.k ||| place 4 3 o.o ||| place 3 0 o.s

/-- The fields of format FAn read from a word. -/
def FAn.dec (w : BitVec 32) : FAn :=
  ⟨fld w 19 6, fld w 12 7, fld w 7 5, fld w 0 3⟩

/-- The fields of format FAn placed in a word. -/
def FAn.enc (o : FAn) : BitVec 32 :=
  place 6 19 o.d ||| place 7 12 o.a ||| place 5 7 o.k ||| place 3 0 o.s

/-- The fields of format FAr read from a word. -/
def FAr.dec (w : BitVec 32) : FAr :=
  ⟨fld w 19 6, fld w 7 5, fld w 0 3⟩

/-- The fields of format FAr placed in a word. -/
def FAr.enc (o : FAr) : BitVec 32 :=
  place 6 19 o.d ||| place 5 7 o.k ||| place 3 0 o.s

/-- The fields of format Fa read from a word. -/
def Fa.dec (w : BitVec 32) : Fa :=
  ⟨fld w 12 7, fld w 0 3⟩

/-- The fields of format Fa placed in a word. -/
def Fa.enc (o : Fa) : BitVec 32 :=
  place 7 12 o.a ||| place 3 0 o.s

/-- The fields of format Fab read from a word. -/
def Fab.dec (w : BitVec 32) : Fab :=
  ⟨fld w 12 7, fld w 5 7, fld w 0 3⟩

/-- The fields of format Fab placed in a word. -/
def Fab.enc (o : Fab) : BitVec 32 :=
  place 7 12 o.a ||| place 7 5 o.b ||| place 3 0 o.s

/-- The fields of format FDc read from a word. -/
def FDc.dec (w : BitVec 32) : FDc :=
  ⟨fld w 19 6, fld w 12 7, fld w 9 2, fld w 0 3⟩

/-- The fields of format FDc placed in a word. -/
def FDc.enc (o : FDc) : BitVec 32 :=
  place 6 19 o.d ||| place 7 12 o.a ||| place 2 9 o.c ||| place 3 0 o.s

/-- The fields of format Fap read from a word. -/
def Fap.dec (w : BitVec 32) : Fap :=
  ⟨fld w 12 7, fld w 9 2, fld w 0 3⟩

/-- The fields of format Fap placed in a word. -/
def Fap.enc (o : Fap) : BitVec 32 :=
  place 7 12 o.a ||| place 2 9 o.p ||| place 3 0 o.s

/-- The fields of format FF read from a word. -/
def FF.dec (w : BitVec 32) : FF :=
  ⟨fld w 22 3, fld w 20 2, fld w 0 3⟩

/-- The fields of format FF placed in a word. -/
def FF.enc (o : FF) : BitVec 32 :=
  place 3 22 o.c ||| place 2 20 o.k ||| place 3 0 o.s

/-- The fields of format FT read from a word. -/
def FT.dec (w : BitVec 32) : FT :=
  ⟨fld w 12 13, fld w 0 3⟩

/-- The fields of format FT placed in a word. -/
def FT.enc (o : FT) : BitVec 32 :=
  place 13 12 o.n ||| place 3 0 o.s

/-- The fields of format GImm read from a word. -/
def GImm.dec (w : BitVec 32) : GImm :=
  ⟨fld w 0 23⟩

/-- The fields of format GImm placed in a word. -/
def GImm.enc (o : GImm) : BitVec 32 :=
  place 23 0 o.p

/-- The fields of format GRep read from a word. -/
def GRep.dec (w : BitVec 32) : GRep :=
  ⟨fld w 17 6, fld w 16 1, fld w 15 1, fld w 14 1, fld w 12 2⟩

/-- The fields of format GRep placed in a word. -/
def GRep.enc (o : GRep) : BitVec 32 :=
  place 6 17 o.n ||| place 1 16 o.x ||| place 1 15 o.y ||| place 1 14 o.z ||| place 2 12 o.w

/-- The fields of format GMod read from a word. -/
def GMod.dec (w : BitVec 32) : GMod :=
  ⟨fld w 22 1, fld w 20 2, fld w 19 1, fld w 16 3, fld w 15 1, fld w 12 3, fld w 11 1⟩

/-- The fields of format GMod placed in a word. -/
def GMod.enc (o : GMod) : BitVec 32 :=
  place 1 22 o.e ||| place 2 20 o.m ||| place 1 19 o.t ||| place 3 16 o.c ||| place 1 15 o.o ||| place 3 12 o.q ||| place 1 11 o.x

/-- The fields of format GExt read from a word. -/
def GExt.dec (w : BitVec 32) : GExt :=
  ⟨fld w 16 7, fld w 15 1, fld w 12 3⟩

/-- The fields of format GExt placed in a word. -/
def GExt.enc (o : GExt) : BitVec 32 :=
  place 7 16 o.c ||| place 1 15 o.fc ||| place 3 12 o.t

/-- The fields of format GStall read from a word. -/
def GStall.dec (w : BitVec 32) : GStall :=
  ⟨fld w 15 8⟩

/-- The fields of format GStall placed in a word. -/
def GStall.enc (o : GStall) : BitVec 32 :=
  place 8 15 o.n

/-- The fields of format GScale read from a word. -/
def GScale.dec (w : BitVec 32) : GScale :=
  ⟨fld w 17 6, fld w 15 2, fld w 9 6, fld w 7 2⟩

/-- The fields of format GScale placed in a word. -/
def GScale.enc (o : GScale) : BitVec 32 :=
  place 6 17 o.a ||| place 2 15 o.p ||| place 6 9 o.b ||| place 2 7 o.q

/-- The fields of format HI read from a word. -/
def HI.dec (w : BitVec 32) : HI :=
  ⟨fld w 22 5, fld w 0 21⟩

/-- The fields of format HI placed in a word. -/
def HI.enc (o : HI) : BitVec 32 :=
  place 5 22 o.d ||| place 21 0 o.i

/-- The fields of format HIh read from a word. -/
def HIh.dec (w : BitVec 32) : HIh :=
  ⟨fld w 22 5, fld w 0 16⟩

/-- The fields of format HIh placed in a word. -/
def HIh.enc (o : HIh) : BitVec 32 :=
  place 5 22 o.d ||| place 16 0 o.i

/-- The fields of format HR read from a word. -/
def HR.dec (w : BitVec 32) : HR :=
  ⟨fld w 22 5, fld w 17 5, fld w 12 5, fld w 11 1, fld w 0 11⟩

/-- The fields of format HR placed in a word. -/
def HR.enc (o : HR) : BitVec 32 :=
  place 5 22 o.d ||| place 5 17 o.a ||| place 5 12 o.b ||| place 1 11 o.i ||| place 11 0 o.k

/-- The fields of format HJ read from a word. -/
def HJ.dec (w : BitVec 32) : HJ :=
  ⟨fld w 0 12⟩

/-- The fields of format HJ placed in a word. -/
def HJ.enc (o : HJ) : BitVec 32 :=
  place 12 0 o.t

/-- The fields of format HJa read from a word. -/
def HJa.dec (w : BitVec 32) : HJa :=
  ⟨fld w 22 5, fld w 0 12⟩

/-- The fields of format HJa placed in a word. -/
def HJa.enc (o : HJa) : BitVec 32 :=
  place 5 22 o.a ||| place 12 0 o.t

/-- The fields of format HRd read from a word. -/
def HRd.dec (w : BitVec 32) : HRd :=
  ⟨fld w 22 5⟩

/-- The fields of format HRd placed in a word. -/
def HRd.enc (o : HRd) : BitVec 32 :=
  place 5 22 o.d

/-- The fields of format HRa read from a word. -/
def HRa.dec (w : BitVec 32) : HRa :=
  ⟨fld w 17 5⟩

/-- The fields of format HRa placed in a word. -/
def HRa.enc (o : HRa) : BitVec 32 :=
  place 5 17 o.a

/-- The fields of format HT1 read from a word. -/
def HT1.dec (w : BitVec 32) : HT1 :=
  ⟨fld w 25 2⟩

/-- The fields of format HT1 placed in a word. -/
def HT1.enc (o : HT1) : BitVec 32 :=
  place 2 25 o.t

/-- The fields of format HTm read from a word. -/
def HTm.dec (w : BitVec 32) : HTm :=
  ⟨fld w 25 2, fld w 20 5, fld w 15 5, fld w 10 5, fld w 5 5⟩

/-- The fields of format HTm placed in a word. -/
def HTm.enc (o : HTm) : BitVec 32 :=
  place 2 25 o.t ||| place 5 20 o.a ||| place 5 15 o.b ||| place 5 10 o.c ||| place 5 5 o.e

/-- The fields of format HTa read from a word. -/
def HTa.dec (w : BitVec 32) : HTa :=
  ⟨fld w 25 2, fld w 20 5⟩

/-- The fields of format HTa placed in a word. -/
def HTa.enc (o : HTa) : BitVec 32 :=
  place 2 25 o.t ||| place 5 20 o.a

/-- The fields of format HTab read from a word. -/
def HTab.dec (w : BitVec 32) : HTab :=
  ⟨fld w 20 5, fld w 15 5⟩

/-- The fields of format HTab placed in a word. -/
def HTab.enc (o : HTab) : BitVec 32 :=
  place 5 20 o.a ||| place 5 15 o.b

/-- The fields of format HTv read from a word. -/
def HTv.dec (w : BitVec 32) : HTv :=
  ⟨fld w 20 5⟩

/-- The fields of format HTv placed in a word. -/
def HTv.enc (o : HTv) : BitVec 32 :=
  place 5 20 o.a

/-- The fields of format HTtab read from a word. -/
def HTtab.dec (w : BitVec 32) : HTtab :=
  ⟨fld w 25 2, fld w 20 5, fld w 15 5⟩

/-- The fields of format HTtab placed in a word. -/
def HTtab.enc (o : HTtab) : BitVec 32 :=
  place 2 25 o.t ||| place 5 20 o.a ||| place 5 15 o.b

/-- The fields of format HTf read from a word. -/
def HTf.dec (w : BitVec 32) : HTf :=
  ⟨fld w 25 2, fld w 20 5, fld w 15 5, fld w 0 2⟩

/-- The fields of format HTf placed in a word. -/
def HTf.enc (o : HTf) : BitVec 32 :=
  place 2 25 o.t ||| place 5 20 o.a ||| place 5 15 o.b ||| place 2 0 o.f

/-- The fields of format HTp read from a word. -/
def HTp.dec (w : BitVec 32) : HTp :=
  ⟨fld w 25 2, fld w 20 5, fld w 15 5, fld w 10 5, fld w 5 5, fld w 3 1, fld w 0 3⟩

/-- The fields of format HTp placed in a word. -/
def HTp.enc (o : HTp) : BitVec 32 :=
  place 2 25 o.t ||| place 5 20 o.a ||| place 5 15 o.b ||| place 5 10 o.c ||| place 5 5 o.e ||| place 1 3 o.l ||| place 3 0 o.f

/-- The group word whose major some table defines (R31-R35). Major 0x7D is split by its kind. -/
def decodeDefined (w : BitVec 32) : Except Reject Instr :=
  match (fld w 25 7).toNat with
  | 0x01 =>
    .ok (.vaddI32 (FR.dec w))
  | 0x02 =>
    .ok (.vsubI32 (FR.dec w))
  | 0x03 =>
    .ok (.vmulI32 (FR.dec w))
  | 0x04 =>
    .ok (.vmulhiI32 (FR.dec w))
  | 0x05 =>
    .ok (.vmulhiN32 (FR.dec w))
  | 0x06 =>
    .ok (.vmadI32 (FR.dec w))
  | 0x07 =>
    .ok (.vminI32 (FR.dec w))
  | 0x08 =>
    .ok (.vmaxI32 (FR.dec w))
  | 0x09 =>
    .ok (.vminN32 (FR.dec w))
  | 0x0A =>
    .ok (.vmaxN32 (FR.dec w))
  | 0x0B =>
    .ok (.vand (FR.dec w))
  | 0x0C =>
    .ok (.vor (FR.dec w))
  | 0x0D =>
    .ok (.vxor (FR.dec w))
  | 0x0E =>
    .ok (.vandn (FR.dec w))
  | 0x0F =>
    .ok (.vshl (FR.dec w))
  | 0x10 =>
    .ok (.vshrN32 (FR.dec w))
  | 0x11 =>
    .ok (.vshrI32 (FR.dec w))
  | 0x12 =>
    .ok (.vrotl (FR.dec w))
  | 0x13 =>
    .ok (.vsel (FR.dec w))
  | 0x14 =>
    .ok (.vcmpI32 (FC.dec w))
  | 0x15 =>
    .ok (.vcmpN32 (FC.dec w))
  | 0x16 =>
    .ok (.vcmpF32 (FC.dec w))
  | 0x17 =>
    .ok (.vcmpF16 (FC.dec w))
  | 0x18 =>
    .ok (.vbfxN32 (FR.dec w))
  | 0x19 =>
    .ok (.vbfxI32 (FR.dec w))
  | 0x1A =>
    .ok (.vbfi (FR.dec w))
  | 0x1B =>
    .ok (.vperm (FR.dec w))
  | 0x1C =>
    .ok (.vaddsatI32 (FR.dec w))
  | 0x1D =>
    .ok (.vsubsatI32 (FR.dec w))
  | 0x1E =>
    .ok (.vpack16 (FR.dec w))
  | 0x1F =>
    .ok (.vshfl (FR.dec w))
  | 0x20 =>
    .ok (.vaddF32 (FR.dec w))
  | 0x21 =>
    .ok (.vsubF32 (FR.dec w))
  | 0x22 =>
    .ok (.vmulF32 (FR.dec w))
  | 0x23 =>
    .ok (.vfmaF32 (FR.dec w))
  | 0x24 =>
    .ok (.vminF32 (FR.dec w))
  | 0x25 =>
    .ok (.vmaxF32 (FR.dec w))
  | 0x26 =>
    .ok (.vaddF16x2 (FR.dec w))
  | 0x27 =>
    .ok (.vmulF16x2 (FR.dec w))
  | 0x28 =>
    .ok (.vfmaF16x2 (FR.dec w))
  | 0x29 =>
    .ok (.vaddBf16x2 (FR.dec w))
  | 0x2A =>
    .ok (.vmulBf16x2 (FR.dec w))
  | 0x2B =>
    .ok (.vfmaBf16x2 (FR.dec w))
  | 0x2C =>
    .ok (.vldexpF32 (FR.dec w))
  | 0x2D =>
    .ok (.vcopysignF32 (FR.dec w))
  | 0x2E =>
    .ok (.vminF16x2 (FR.dec w))
  | 0x2F =>
    .ok (.vmaxF16x2 (FR.dec w))
  | 0x30 =>
    .ok (.vdot4E4m3 (FR.dec w))
  | 0x31 =>
    .ok (.vdot4E5m2 (FR.dec w))
  | 0x32 =>
    .ok (.vdot4I8 (FR.dec w))
  | 0x33 =>
    .ok (.vdot4N8 (FR.dec w))
  | 0x34 =>
    .ok (.vdot8E2m1 (FR.dec w))
  | 0x35 =>
    .ok (.vdot8I4 (FR.dec w))
  | 0x36 =>
    .ok (.vdot2Bf16 (FR.dec w))
  | 0x37 =>
    .ok (.vdot2F16 (FR.dec w))
  | 0x38 =>
    if w &&& 0xFE000F88#32 = 0x70000000#32 then .ok (.vcvtI32F32 (FUm.dec w))
    else if w &&& 0xFE000F88#32 = 0x70000080#32 then .ok (.vcvtN32F32 (FUm.dec w))
    else if w &&& 0xFE000FE8#32 = 0x70000100#32 then .ok (.vcvtF32I32 (FU.dec w))
    else if w &&& 0xFE000FE8#32 = 0x70000120#32 then .ok (.vcvtF32N32 (FU.dec w))
    else if w &&& 0xFE000FE8#32 = 0x70000140#32 then .ok (.vcvtF16F32 (FU.dec w))
    else if w &&& 0xFE000FE8#32 = 0x70000160#32 then .ok (.vcvtBf16F32 (FU.dec w))
    else if w &&& 0xFE000FE8#32 = 0x70000180#32 then .ok (.vcvtF32F16 (FU.dec w))
    else if w &&& 0xFE000FE8#32 = 0x700001A0#32 then .ok (.vcvtF32Bf16 (FU.dec w))
    else if w &&& 0xFE000B88#32 = 0x70000200#32 then .ok (.vcvtE4m3F32 (FUrb.dec w))
    else if w &&& 0xFE000B88#32 = 0x70000280#32 then .ok (.vcvtE5m2F32 (FUrb.dec w))
    else if w &&& 0xFE000B08#32 = 0x70000300#32 then .ok (.vcvtE2m1F32 (FUrn.dec w))
    else if w &&& 0xFE000F88#32 = 0x70000400#32 then .ok (.vcvtF32E4m3 (FUb.dec w))
    else if w &&& 0xFE000F88#32 = 0x70000480#32 then .ok (.vcvtF32E5m2 (FUb.dec w))
    else if w &&& 0xFE000F08#32 = 0x70000500#32 then .ok (.vcvtF32E2m1 (FUn.dec w))
    else .error .reservedField
  | 0x39 =>
    if w &&& 0xFE000FE8#32 = 0x72000000#32 then .ok (.vsfuRcp (FU.dec w))
    else if w &&& 0xFE000FE8#32 = 0x72000020#32 then .ok (.vsfuRsq (FU.dec w))
    else if w &&& 0xFE000FE8#32 = 0x72000040#32 then .ok (.vsfuSqrt (FU.dec w))
    else if w &&& 0xFE000FE8#32 = 0x72000060#32 then .ok (.vsfuExp2 (FU.dec w))
    else if w &&& 0xFE000FE8#32 = 0x72000080#32 then .ok (.vsfuLog2 (FU.dec w))
    else if w &&& 0xFE000FE8#32 = 0x720000A0#32 then .ok (.vsfuSin2pi (FU.dec w))
    else if w &&& 0xFE000FE8#32 = 0x720000C0#32 then .ok (.vsfuCos2pi (FU.dec w))
    else if w &&& 0xFE000FE8#32 = 0x720000E0#32 then .ok (.vsfuTanh (FU.dec w))
    else if w &&& 0xFE000FE8#32 = 0x72000100#32 then .ok (.vsfuSigm (FU.dec w))
    else .error .reservedField
  | 0x3A =>
    if w &&& 0xFE000FE8#32 = 0x74000000#32 then .ok (.vmov (FU.dec w))
    else if w &&& 0xFE000FE8#32 = 0x74000008#32 then .ok (.vmovPortPush (FU.dec w))
    else if w &&& 0xFE000FE8#32 = 0x74000020#32 then .ok (.vbitNot (FU.dec w))
    else if w &&& 0xFE000FE8#32 = 0x74000040#32 then .ok (.vbitPopc (FU.dec w))
    else if w &&& 0xFE000FE8#32 = 0x74000060#32 then .ok (.vbitClz (FU.dec w))
    else if w &&& 0xFE000FE8#32 = 0x74000080#32 then .ok (.vbitCtz (FU.dec w))
    else if w &&& 0xFE000FE8#32 = 0x740000A0#32 then .ok (.vbitBrev (FU.dec w))
    else if w &&& 0xFE000FE8#32 = 0x740000C0#32 then .ok (.vbitAbsI32 (FU.dec w))
    else if w &&& 0xFE000FE8#32 = 0x740000E0#32 then .ok (.vbitNegI32 (FU.dec w))
    else if w &&& 0xFE000FE8#32 = 0x74000100#32 then .ok (.vbitAbsF32 (FU.dec w))
    else if w &&& 0xFE000FE8#32 = 0x74000120#32 then .ok (.vbitNegF32 (FU.dec w))
    else .error .reservedField
  | 0x3B =>
    if w &&& 0xFE0007E8#32 = 0x76000000#32 then .ok (.vscanAddI32 (FUx.dec w))
    else if w &&& 0xFE0007E8#32 = 0x76000020#32 then .ok (.vscanAddF32 (FUx.dec w))
    else if w &&& 0xFE0007E8#32 = 0x76000040#32 then .ok (.vscanMinI32 (FUx.dec w))
    else if w &&& 0xFE0007E8#32 = 0x76000060#32 then .ok (.vscanMaxI32 (FUx.dec w))
    else if w &&& 0xFE0007E8#32 = 0x76000080#32 then .ok (.vscanMinN32 (FUx.dec w))
    else if w &&& 0xFE0007E8#32 = 0x760000A0#32 then .ok (.vscanMaxN32 (FUx.dec w))
    else if w &&& 0xFE0007E8#32 = 0x760000C0#32 then .ok (.vscanAnd (FUx.dec w))
    else if w &&& 0xFE0007E8#32 = 0x760000E0#32 then .ok (.vscanOr (FUx.dec w))
    else if w &&& 0xFE0007E8#32 = 0x76000100#32 then .ok (.vscanXor (FUx.dec w))
    else .error .reservedField
  | 0x3C =>
    if w &&& 0xFE000FF8#32 = 0x78000000#32 then .ok (.vvoteAny (FD.dec w))
    else if w &&& 0xFE000FF8#32 = 0x78000020#32 then .ok (.vvoteAll (FD.dec w))
    else if w &&& 0xFE000FF8#32 = 0x78000040#32 then .ok (.vvoteBallot (FD.dec w))
    else if w &&& 0xFE000FF8#32 = 0x78000060#32 then .ok (.vvoteCount (FD.dec w))
    else if w &&& 0xFE000FF8#32 = 0x78000080#32 then .ok (.vvoteFirst (FD.dec w))
    else .error .reservedField
  | 0x3D =>
    if w &&& 0xFE000EE8#32 = 0x7A000000#32 then .ok (.vquantE4m3 (FUq.dec w))
    else if w &&& 0xFE000EE8#32 = 0x7A000020#32 then .ok (.vquantE5m2 (FUq.dec w))
    else if w &&& 0xFE000EE8#32 = 0x7A000040#32 then .ok (.vquantE2m1 (FUq.dec w))
    else if w &&& 0xFE000EE8#32 = 0x7A000060#32 then .ok (.vquantI8 (FUq.dec w))
    else if w &&& 0xFE000EE8#32 = 0x7A000080#32 then .ok (.vquantI4 (FUq.dec w))
    else .error .reservedField
  | 0x3E =>
    if w &&& 0xFE000FF8#32 = 0x7C000000#32 then .ok (.vredAddI32 (FD.dec w))
    else if w &&& 0xFE000FF8#32 = 0x7C000020#32 then .ok (.vredAddF32 (FD.dec w))
    else if w &&& 0xFE000FF8#32 = 0x7C000040#32 then .ok (.vredMinI32 (FD.dec w))
    else if w &&& 0xFE000FF8#32 = 0x7C000060#32 then .ok (.vredMaxI32 (FD.dec w))
    else if w &&& 0xFE000FF8#32 = 0x7C000080#32 then .ok (.vredMinN32 (FD.dec w))
    else if w &&& 0xFE000FF8#32 = 0x7C0000A0#32 then .ok (.vredMaxN32 (FD.dec w))
    else if w &&& 0xFE000FF8#32 = 0x7C0000C0#32 then .ok (.vredAnd (FD.dec w))
    else if w &&& 0xFE000FF8#32 = 0x7C0000E0#32 then .ok (.vredOr (FD.dec w))
    else if w &&& 0xFE000FF8#32 = 0x7C000100#32 then .ok (.vredXor (FD.dec w))
    else .error .reservedField
  | 0x3F =>
    if w &&& 0xFE000018#32 = 0x7E000008#32 then .ok (.vdropm (FS.dec w))
    else .error .reservedField
  | 0x40 =>
    if w &&& 0xFE000018#32 = 0x80000000#32 then .ok (.sadd (FS.dec w))
    else .error .reservedField
  | 0x41 =>
    if w &&& 0xFE000018#32 = 0x82000000#32 then .ok (.ssub (FS.dec w))
    else .error .reservedField
  | 0x42 =>
    if w &&& 0xFE000018#32 = 0x84000000#32 then .ok (.smul (FS.dec w))
    else .error .reservedField
  | 0x43 =>
    if w &&& 0xFE000018#32 = 0x86000000#32 then .ok (.smulhiN32 (FS.dec w))
    else .error .reservedField
  | 0x44 =>
    if w &&& 0xFE000018#32 = 0x88000000#32 then .ok (.sand (FS.dec w))
    else .error .reservedField
  | 0x45 =>
    if w &&& 0xFE000018#32 = 0x8A000000#32 then .ok (.sor (FS.dec w))
    else .error .reservedField
  | 0x46 =>
    if w &&& 0xFE000018#32 = 0x8C000000#32 then .ok (.sxor (FS.dec w))
    else .error .reservedField
  | 0x47 =>
    if w &&& 0xFE000018#32 = 0x8E000000#32 then .ok (.sshl (FS.dec w))
    else .error .reservedField
  | 0x48 =>
    if w &&& 0xFE000018#32 = 0x90000000#32 then .ok (.sshrN32 (FS.dec w))
    else .error .reservedField
  | 0x49 =>
    if w &&& 0xFE000018#32 = 0x92000000#32 then .ok (.sshrI32 (FS.dec w))
    else .error .reservedField
  | 0x4A =>
    if w &&& 0xFE000018#32 = 0x94000000#32 then .ok (.sminI32 (FS.dec w))
    else .error .reservedField
  | 0x4B =>
    if w &&& 0xFE000018#32 = 0x96000000#32 then .ok (.smaxI32 (FS.dec w))
    else .error .reservedField
  | 0x4C =>
    if w &&& 0xFE000018#32 = 0x98000000#32 then .ok (.sminN32 (FS.dec w))
    else .error .reservedField
  | 0x4D =>
    if w &&& 0xFE000018#32 = 0x9A000000#32 then .ok (.smaxN32 (FS.dec w))
    else .error .reservedField
  | 0x4E =>
    if w &&& 0xFE000018#32 = 0x9C000000#32 then .ok (.scltI32 (FS.dec w))
    else .error .reservedField
  | 0x4F =>
    if w &&& 0xFE000018#32 = 0x9E000000#32 then .ok (.scltN32 (FS.dec w))
    else .error .reservedField
  | 0x50 =>
    .ok (.vaddi (FI.dec w))
  | 0x51 =>
    .ok (.vshli (FI.dec w))
  | 0x52 =>
    if w &&& 0xFE07F000#32 = 0xA4000000#32 then .ok (.vmovi (FIm.dec w))
    else .error .reservedField
  | 0x53 =>
    .ok (.saddi (FI.dec w))
  | 0x54 =>
    .ok (.sandi (FI.dec w))
  | 0x55 =>
    .ok (.sori (FI.dec w))
  | 0x56 =>
    if w &&& 0xFE07F000#32 = 0xAC000000#32 then .ok (.smovi (FIm.dec w))
    else .error .reservedField
  | 0x57 =>
    if w &&& 0xFE000FF8#32 = 0xAE000000#32 then .ok (.smov (FD.dec w))
    else if w &&& 0xFE000FF8#32 = 0xAE000020#32 then .ok (.sbitNot (FD.dec w))
    else if w &&& 0xFE000FF8#32 = 0xAE000040#32 then .ok (.sbitPopc (FD.dec w))
    else if w &&& 0xFE000FF8#32 = 0xAE000060#32 then .ok (.sbitClz (FD.dec w))
    else if w &&& 0xFE000FF8#32 = 0xAE000080#32 then .ok (.sbitCtz (FD.dec w))
    else if w &&& 0xFE000FF8#32 = 0xAE0000A0#32 then .ok (.sbitBrev (FD.dec w))
    else if w &&& 0xFE000FF8#32 = 0xAE0000C0#32 then .ok (.sbitSeqz (FD.dec w))
    else .error .reservedField
  | 0x58 =>
    .ok (.br (FB.dec w))
  | 0x59 =>
    .ok (.brz (FBS.dec w))
  | 0x5A =>
    .ok (.brnz (FBS.dec w))
  | 0x5B =>
    .ok (.brd (FBD.dec w))
  | 0x5C =>
    .ok (.mark (FB.dec w))
  | 0x5D =>
    if w &&& 0xFFFFFFF8#32 = 0xBA000000#32 then .ok (.join (F0.dec w))
    else .error .reservedField
  | 0x5E =>
    .ok (.call (FBS.dec w))
  | 0x5F =>
    if w &&& 0xFE07FFF8#32 = 0xBE000000#32 then .ok (.jr (Fd.dec w))
    else .error .reservedField
  | 0x60 =>
    if w &&& 0xFE000008#32 = 0xC0000000#32 then .ok (.ld (FM.dec w))
    else .error .reservedField
  | 0x61 =>
    if w &&& 0xFE000008#32 = 0xC2000000#32 then .ok (.st (FM.dec w))
    else .error .reservedField
  | 0x62 =>
    if w &&& 0xFE000F88#32 = 0xC4000000#32 then .ok (.ldp (FMp.dec w))
    else .error .reservedField
  | 0x63 =>
    if w &&& 0xFE000F88#32 = 0xC6000000#32 then .ok (.stp (FMp.dec w))
    else .error .reservedField
  | 0x64 =>
    if w &&& 0xFE000008#32 = 0xC8000000#32 then .ok (.ldx (FM.dec w))
    else .error .reservedField
  | 0x65 =>
    if w &&& 0xFE000008#32 = 0xCA000000#32 then .ok (.stx (FM.dec w))
    else .error .reservedField
  | 0x66 =>
    if w &&& 0xFE000008#32 = 0xCC000000#32 then .ok (.sld (FM.dec w))
    else .error .reservedField
  | 0x67 =>
    if w &&& 0xFE000008#32 = 0xCE000000#32 then .ok (.sst (FM.dec w))
    else .error .reservedField
  | 0x68 =>
    .ok (.atom (FA.dec w))
  | 0x69 =>
    .ok (.red (FA.dec w))
  | 0x6A =>
    .ok (.atomx (FA.dec w))
  | 0x6B =>
    if w &&& 0xFE000078#32 = 0xD6000000#32 then .ok (.npost (FAn.dec w))
    else .error .reservedField
  | 0x6C =>
    if w &&& 0xFE000078#32 = 0xD8000000#32 then .ok (.ndone (FAn.dec w))
    else .error .reservedField
  | 0x6D =>
    if w &&& 0xFE07F078#32 = 0xDA000000#32 then .ok (.nread (FAr.dec w))
    else .error .reservedField
  | 0x6E =>
    if w &&& 0xFFF80FF8#32 = 0xDC000000#32 then .ok (.cpy (Fa.dec w))
    else .error .reservedField
  | 0x6F =>
    if w &&& 0xFFF80018#32 = 0xDE000008#32 then .ok (.cpyx (Fab.dec w))
    else .error .reservedField
  | 0x70 =>
    if w &&& 0xFE07FFF8#32 = 0xE0000000#32 then .ok (.bseal (Fd.dec w))
    else .error .reservedField
  | 0x71 =>
    if w &&& 0xFE000FF8#32 = 0xE2000000#32 then .ok (.mpost (FD.dec w))
    else .error .reservedField
  | 0x72 =>
    if w &&& 0xFE000FF8#32 = 0xE4000000#32 then .ok (.sqLd (FD.dec w))
    else if w &&& 0xFE000FF8#32 = 0xE4000020#32 then .ok (.sqSt (FD.dec w))
    else if w &&& 0xFE000FF8#32 = 0xE4000040#32 then .ok (.sqMark (FD.dec w))
    else if w &&& 0xFE000FF8#32 = 0xE4000060#32 then .ok (.sqBack (FD.dec w))
    else if w &&& 0xFE000FF8#32 = 0xE4000080#32 then .ok (.sqFork (FD.dec w))
    else if w &&& 0xFE000FF8#32 = 0xE40000A0#32 then .ok (.sqDrop (FD.dec w))
    else if w &&& 0xFE000FF8#32 = 0xE40000C0#32 then .ok (.sqInfo (FD.dec w))
    else .error .reservedField
  | 0x73 =>
    if w &&& 0xFE000FF8#32 = 0xE6000000#32 then .ok (.spawn (FD.dec w))
    else .error .reservedField
  | 0x74 =>
    if w &&& 0xFE000FF8#32 = 0xE8000000#32 then .ok (.launch (FD.dec w))
    else .error .reservedField
  | 0x75 =>
    if w &&& 0xFFFFFFF8#32 = 0xEA000000#32 then .ok (.chainFix (F0.dec w))
    else if w &&& 0xFFF80FF8#32 = 0xEA000020#32 then .ok (.chainForm (Fa.dec w))
    else if w &&& 0xFE07FFF8#32 = 0xEA000040#32 then .ok (.chainQuery (Fd.dec w))
    else .error .reservedField
  | 0x76 =>
    if w &&& 0xFE000FF8#32 = 0xEC000000#32 then .ok (.cacheL1wb (FD.dec w))
    else if w &&& 0xFE000FF8#32 = 0xEC000020#32 then .ok (.cacheL1inv (FD.dec w))
    else if w &&& 0xFE000FF8#32 = 0xEC000040#32 then .ok (.cacheL1wbinv (FD.dec w))
    else if w &&& 0xFE000FF8#32 = 0xEC000060#32 then .ok (.cacheIcinv (FD.dec w))
    else if w &&& 0xFFFFFFF8#32 = 0xEC000080#32 then .ok (.cacheFetchbar (F0.dec w))
    else if w &&& 0xFE000FF8#32 = 0xEC0000A0#32 then .ok (.cachePref (FD.dec w))
    else .error .reservedField
  | 0x77 =>
    if w &&& 0xFE000FF8#32 = 0xEE000000#32 then .ok (.regroup (FD.dec w))
    else .error .reservedField
  | 0x78 =>
    if w &&& 0xFE0009F8#32 = 0xF0000000#32 then .ok (.barInit (FDc.dec w))
    else if w &&& 0xFE000FF8#32 = 0xF0000020#32 then .ok (.barArrive (FD.dec w))
    else if w &&& 0xFFF80FF8#32 = 0xF0000040#32 then .ok (.barDrop (Fa.dec w))
    else if w &&& 0xFE000FF8#32 = 0xF0000060#32 then .ok (.barQuery (FD.dec w))
    else .error .reservedField
  | 0x79 =>
    if w &&& 0xFFF809F8#32 = 0xF2000000#32 then .ok (.parkWaitc (Fap.dec w))
    else if w &&& 0xFFF80FF8#32 = 0xF2000020#32 then .ok (.parkBwait (Fa.dec w))
    else if w &&& 0xFFF80FF8#32 = 0xF2000040#32 then .ok (.parkWbar (Fa.dec w))
    else if w &&& 0xFE0009F8#32 = 0xF2000060#32 then .ok (.parkWaitm (FDc.dec w))
    else if w &&& 0xFFFFFFF8#32 = 0xF2000080#32 then .ok (.parkYield (F0.dec w))
    else .error .reservedField
  | 0x7A =>
    if w &&& 0xFE0FFFF8#32 = 0xF4000000#32 then .ok (.fence (FF.dec w))
    else .error .reservedField
  | 0x7B =>
    if w &&& 0xFFFFFFF8#32 = 0xF6000000#32 then .ok (.nop (F0.dec w))
    else if w &&& 0xFE000FF8#32 = 0xF6000020#32 then .ok (.sysTrap (FT.dec w))
    else if w &&& 0xFFFFFFF8#32 = 0xF6000040#32 then .ok .sysTret
    else if w &&& 0xFFFFFFF8#32 = 0xF6000060#32 then .ok .sysExit
    else if w &&& 0xFE07FFF8#32 = 0xF6000080#32 then .ok (.sysGetst (Fd.dec w))
    else if w &&& 0xFFF80FF8#32 = 0xF60000A0#32 then .ok (.sysSetst (Fa.dec w))
    else if w &&& 0xFFFFFFF8#32 = 0xF60000C0#32 then .ok (.sysDcommit (F0.dec w))
    else if w &&& 0xFFFFFFF8#32 = 0xF60000E0#32 then .ok .sysDabort
    else if w &&& 0xFFF80FF8#32 = 0xF6000100#32 then .ok (.sysRseed (Fa.dec w))
    else .error .reservedField
  | 0x7C =>
    if w &&& 0xFF800000#32 = 0xF8000000#32 then .ok (.gimm (GImm.dec w))
    else if w &&& 0xFF800FFF#32 = 0xF8800000#32 then .ok (.grep (GRep.dec w))
    else if w &&& 0xFF8007FF#32 = 0xF9000000#32 then .ok (.gmod (GMod.dec w))
    else if w &&& 0xFF800FFF#32 = 0xF9800000#32 then .ok (.gext (GExt.dec w))
    else .error .reservedField
  | 0x7D =>
    if w &&& 0xFF807FFF#32 = 0xFA000000#32 then .ok (.gstall (GStall.dec w))
    else if w &&& 0xFF80007F#32 = 0xFA800000#32 then .ok (.gscale (GScale.dec w))
    else .error .reservedField
  | 0x00 | 0x7E | 0x7F => .error .reservedMajor
  | _ => .error .reservedMajor

/-- The decoder of group words, total on any word (R37): the two whole-word values, the reserved majors and gloss
kinds, then the tables. -/
def decodeGroup (w : BitVec 32) : Except Reject Instr :=
  if w = 0#32 then .error .zeroWord
  else if w = 0xFFFFFFFF#32 then .error .badWord
  else if w &&& 0xFF000000#32 = 0xFB000000#32 then .error .reservedGloss
  else decodeDefined w

/-- The decoder of helm words, total on any word (R248, R249). -/
def decodeHelm (w : BitVec 32) : Except Reject Instr :=
  match (fld w 27 5).toNat with
  | 0x01 =>
    if w &&& 0xF8200000#32 = 0x08000000#32 then .ok (.hmovi (HI.dec w))
    else if w &&& 0xF83F0000#32 = 0x08200000#32 then .ok (.hmoviHi (HIh.dec w))
    else .error .reservedField
  | 0x02 =>
    .ok (.hadd (HR.dec w))
  | 0x03 =>
    .ok (.hsub (HR.dec w))
  | 0x04 =>
    .ok (.hshl (HR.dec w))
  | 0x05 =>
    .ok (.hand (HR.dec w))
  | 0x06 =>
    if w &&& 0xFFFFF000#32 = 0x30000000#32 then .ok (.hbr (HJ.dec w))
    else .error .reservedField
  | 0x07 =>
    if w &&& 0xF83FF000#32 = 0x38000000#32 then .ok (.hbrnz (HJa.dec w))
    else .error .reservedField
  | 0x08 =>
    if w &&& 0xF83FF000#32 = 0x40000000#32 then .ok (.hloop (HJa.dec w))
    else .error .reservedField
  | 0x09 =>
    if w &&& 0xFFFFF000#32 = 0x48000000#32 then .ok (.hcall (HJ.dec w))
    else .error .reservedField
  | 0x0A =>
    if w &&& 0xFFFFFFFF#32 = 0x50000000#32 then .ok .hret
    else .error .reservedField
  | 0x0B =>
    if w &&& 0xF83FFFFF#32 = 0x58000000#32 then .ok (.mpop (HRd.dec w))
    else .error .reservedField
  | 0x0C =>
    if w &&& 0xFFC1FFFF#32 = 0x60000000#32 then .ok (.marrive (HRa.dec w))
    else .error .reservedField
  | 0x0D =>
    if w &&& 0xFFC1FFFF#32 = 0x68000000#32 then .ok (.mwbar (HRa.dec w))
    else .error .reservedField
  | 0x0E =>
    if w &&& 0xFFC1FFFF#32 = 0x70000000#32 then .ok (.mcopy (HRa.dec w))
    else .error .reservedField
  | 0x0F =>
    if w &&& 0xFFC1FFFF#32 = 0x78000000#32 then .ok (.mcwait (HRa.dec w))
    else .error .reservedField
  | 0x10 =>
    if w &&& 0xF9FFFFFF#32 = 0x80000000#32 then .ok (.mzero (HT1.dec w))
    else .error .reservedField
  | 0x11 =>
    if w &&& 0xF800001F#32 = 0x88000000#32 then .ok (.mma (HTm.dec w))
    else .error .reservedField
  | 0x12 =>
    if w &&& 0xF80FFFFF#32 = 0x90000000#32 then .ok (.mexp (HTa.dec w))
    else if w &&& 0xFE007FFF#32 = 0x90000001#32 then .ok (.mexpVdiff (HTab.dec w))
    else if w &&& 0xFE0FFFFF#32 = 0x90000002#32 then .ok (.mexpRcp (HTv.dec w))
    else .error .reservedField
  | 0x13 =>
    if w &&& 0xF80FFFFF#32 = 0x98000000#32 then .ok (.mrmax (HTa.dec w))
    else if w &&& 0xF8007FFF#32 = 0x98000001#32 then .ok (.mrmaxKeep (HTtab.dec w))
    else .error .reservedField
  | 0x14 =>
    if w &&& 0xF80FFFFF#32 = 0xA0000000#32 then .ok (.mrsum (HTa.dec w))
    else if w &&& 0xF8007FFF#32 = 0xA0000001#32 then .ok (.mrsumDecay (HTtab.dec w))
    else .error .reservedField
  | 0x15 =>
    if w &&& 0xF80FFFFF#32 = 0xA8000000#32 then .ok (.mscale (HTa.dec w))
    else .error .reservedField
  | 0x16 =>
    if w &&& 0xF8007FFC#32 = 0xB0000000#32 then .ok (.mstore (HTf.dec w))
    else .error .reservedField
  | 0x17 =>
    if w &&& 0xF8000010#32 = 0xB8000000#32 then .ok (.mplane (HTp.dec w))
    else .error .reservedField
  | 0x18 =>
    if w &&& 0xF8007FFC#32 = 0xC0000000#32 then .ok (.mload (HTf.dec w))
    else .error .reservedField
  | 0x19 =>
    if w &&& 0xFFFFFFFF#32 = 0xC8000000#32 then .ok .mfence
    else .error .reservedField
  | 0x1A =>
    if w &&& 0xFFC1FFFF#32 = 0xD0000000#32 then .ok (.mdone (HRa.dec w))
    else .error .reservedField
  | 0x1B =>
    if w &&& 0xFFFFFFFF#32 = 0xD8000000#32 then .ok .hnop
    else .error .reservedField
  | 0x1C =>
    if w &&& 0xFFFFFFFF#32 = 0xE0000000#32 then .ok .hhalt
    else .error .reservedField
  | _ => .error .reservedMajor

/-- The instruction a group word stands for: a word the decoder refuses is the step of R37. -/
def groupInstr (w : BitVec 32) : Instr :=
  match decodeGroup w with
  | .ok i => i
  | .error _ => .wordNotAnInstruction

/-- The instruction a helm word stands for: a word the decoder refuses is the step of R249. -/
def helmInstr (w : BitVec 32) : Instr :=
  match decodeHelm w with
  | .ok i => i
  | .error _ => .helmReservedMajor

/-- Whether an instruction is a helm word: those are read by the helm's decoder (R248). -/
def helmWord : Instr → Bool
  | .hmovi _ => true
  | .hmoviHi _ => true
  | .hadd _ => true
  | .hsub _ => true
  | .hshl _ => true
  | .hand _ => true
  | .hbr _ => true
  | .hbrnz _ => true
  | .hloop _ => true
  | .hcall _ => true
  | .hret => true
  | .mpop _ => true
  | .marrive _ => true
  | .mwbar _ => true
  | .mcopy _ => true
  | .mcwait _ => true
  | .mzero _ => true
  | .mma _ => true
  | .mexp _ => true
  | .mexpVdiff _ => true
  | .mexpRcp _ => true
  | .mrmax _ => true
  | .mrmaxKeep _ => true
  | .mrsum _ => true
  | .mrsumDecay _ => true
  | .mscale _ => true
  | .mstore _ => true
  | .mplane _ => true
  | .mload _ => true
  | .mfence => true
  | .mdone _ => true
  | .hnop => true
  | .hhalt => true
  | _ => false

/-- Whether an instruction is a group word: those are read by the group's decoder (R31). -/
def groupWord : Instr → Bool
  | .vaddI32 _ | .vsubI32 _ | .vmulI32 _ | .vmulhiI32 _ | .vmulhiN32 _ | .vmadI32 _ | .vminI32 _ | .vmaxI32 _ | .vminN32 _
  | .vmaxN32 _ | .vand _ | .vor _ | .vxor _ | .vandn _ | .vshl _ | .vshrN32 _ | .vshrI32 _ | .vrotl _ | .vsel _ | .vcmpI32 _
  | .vcmpN32 _ | .vcmpF32 _ | .vcmpF16 _ | .vbfxN32 _ | .vbfxI32 _ | .vbfi _ | .vperm _ | .vaddsatI32 _ | .vsubsatI32 _
  | .vpack16 _ | .vshfl _ | .vaddF32 _ | .vsubF32 _ | .vmulF32 _ | .vfmaF32 _ | .vminF32 _ | .vmaxF32 _ | .vaddF16x2 _
  | .vmulF16x2 _ | .vfmaF16x2 _ | .vaddBf16x2 _ | .vmulBf16x2 _ | .vfmaBf16x2 _ | .vldexpF32 _ | .vcopysignF32 _
  | .vminF16x2 _ | .vmaxF16x2 _ | .vdot4E4m3 _ | .vdot4E5m2 _ | .vdot4I8 _ | .vdot4N8 _ | .vdot8E2m1 _ | .vdot8I4 _
  | .vdot2Bf16 _ | .vdot2F16 _ | .vcvtI32F32 _ | .vcvtN32F32 _ | .vcvtF32I32 _ | .vcvtF32N32 _ | .vcvtF16F32 _
  | .vcvtBf16F32 _ | .vcvtF32F16 _ | .vcvtF32Bf16 _ | .vcvtE4m3F32 _ | .vcvtE5m2F32 _ | .vcvtE2m1F32 _ | .vcvtF32E4m3 _
  | .vcvtF32E5m2 _ | .vcvtF32E2m1 _ | .vsfuRcp _ | .vsfuRsq _ | .vsfuSqrt _ | .vsfuExp2 _ | .vsfuLog2 _ | .vsfuSin2pi _
  | .vsfuCos2pi _ | .vsfuTanh _ | .vsfuSigm _ | .vmov _ | .vmovPortPush _ | .vbitNot _ | .vbitPopc _ | .vbitClz _
  | .vbitCtz _ | .vbitBrev _ | .vbitAbsI32 _ | .vbitNegI32 _ | .vbitAbsF32 _ | .vbitNegF32 _ | .vscanAddI32 _
  | .vscanAddF32 _ | .vscanMinI32 _ | .vscanMaxI32 _ | .vscanMinN32 _ | .vscanMaxN32 _ | .vscanAnd _ | .vscanOr _
  | .vscanXor _ | .vvoteAny _ | .vvoteAll _ | .vvoteBallot _ | .vvoteCount _ | .vvoteFirst _ | .vquantE4m3 _ | .vquantE5m2 _
  | .vquantE2m1 _ | .vquantI8 _ | .vquantI4 _ | .vredAddI32 _ | .vredAddF32 _ | .vredMinI32 _ | .vredMaxI32 _
  | .vredMinN32 _ | .vredMaxN32 _ | .vredAnd _ | .vredOr _ | .vredXor _ | .vdropm _ | .sadd _ | .ssub _ | .smul _
  | .smulhiN32 _ | .sand _ | .sor _ | .sxor _ | .sshl _ | .sshrN32 _ | .sshrI32 _ | .sminI32 _ | .smaxI32 _ | .sminN32 _
  | .smaxN32 _ | .scltI32 _ | .scltN32 _ | .vaddi _ | .vshli _ | .vmovi _ | .saddi _ | .sandi _ | .sori _ | .smovi _
  | .smov _ | .sbitNot _ | .sbitPopc _ | .sbitClz _ | .sbitCtz _ | .sbitBrev _ | .sbitSeqz _ | .br _ | .brz _ | .brnz _
  | .brd _ | .mark _ | .join _ | .call _ | .jr _ | .ld _ | .st _ | .ldp _ | .stp _ | .ldx _ | .stx _ | .sld _ | .sst _
  | .atom _ | .red _ | .atomx _ | .npost _ | .ndone _ | .nread _ | .cpy _ | .cpyx _ | .bseal _ | .mpost _ | .sqLd _
  | .sqSt _ | .sqMark _ | .sqBack _ | .sqFork _ | .sqDrop _ | .sqInfo _ | .spawn _ | .launch _ | .chainFix _ | .chainForm _
  | .chainQuery _ | .cacheL1wb _ | .cacheL1inv _ | .cacheL1wbinv _ | .cacheIcinv _ | .cacheFetchbar _ | .cachePref _
  | .regroup _ | .barInit _ | .barArrive _ | .barDrop _ | .barQuery _ | .parkWaitc _ | .parkBwait _ | .parkWbar _
  | .parkWaitm _ | .parkYield _ | .fence _ | .nop _ | .sysTrap _ | .sysTret | .sysExit | .sysGetst _ | .sysSetst _
  | .sysDcommit _ | .sysDabort | .sysRseed _ | .gimm _ | .grep _ | .gmod _ | .gext _ | .gstall _ | .gscale _ => true
  | _ => false

/-- The words of an instruction, from the encoding tables (R31-R36, R248); a step of another agent has none. -/
def encode : Instr → Option (BitVec 32)
  | .vaddI32 o => some (0x02000000#32 ||| o.enc)
  | .vsubI32 o => some (0x04000000#32 ||| o.enc)
  | .vmulI32 o => some (0x06000000#32 ||| o.enc)
  | .vmulhiI32 o => some (0x08000000#32 ||| o.enc)
  | .vmulhiN32 o => some (0x0A000000#32 ||| o.enc)
  | .vmadI32 o => some (0x0C000000#32 ||| o.enc)
  | .vminI32 o => some (0x0E000000#32 ||| o.enc)
  | .vmaxI32 o => some (0x10000000#32 ||| o.enc)
  | .vminN32 o => some (0x12000000#32 ||| o.enc)
  | .vmaxN32 o => some (0x14000000#32 ||| o.enc)
  | .vand o => some (0x16000000#32 ||| o.enc)
  | .vor o => some (0x18000000#32 ||| o.enc)
  | .vxor o => some (0x1A000000#32 ||| o.enc)
  | .vandn o => some (0x1C000000#32 ||| o.enc)
  | .vshl o => some (0x1E000000#32 ||| o.enc)
  | .vshrN32 o => some (0x20000000#32 ||| o.enc)
  | .vshrI32 o => some (0x22000000#32 ||| o.enc)
  | .vrotl o => some (0x24000000#32 ||| o.enc)
  | .vsel o => some (0x26000000#32 ||| o.enc)
  | .vcmpI32 o => some (0x28000000#32 ||| o.enc)
  | .vcmpN32 o => some (0x2A000000#32 ||| o.enc)
  | .vcmpF32 o => some (0x2C000000#32 ||| o.enc)
  | .vcmpF16 o => some (0x2E000000#32 ||| o.enc)
  | .vbfxN32 o => some (0x30000000#32 ||| o.enc)
  | .vbfxI32 o => some (0x32000000#32 ||| o.enc)
  | .vbfi o => some (0x34000000#32 ||| o.enc)
  | .vperm o => some (0x36000000#32 ||| o.enc)
  | .vaddsatI32 o => some (0x38000000#32 ||| o.enc)
  | .vsubsatI32 o => some (0x3A000000#32 ||| o.enc)
  | .vpack16 o => some (0x3C000000#32 ||| o.enc)
  | .vshfl o => some (0x3E000000#32 ||| o.enc)
  | .vaddF32 o => some (0x40000000#32 ||| o.enc)
  | .vsubF32 o => some (0x42000000#32 ||| o.enc)
  | .vmulF32 o => some (0x44000000#32 ||| o.enc)
  | .vfmaF32 o => some (0x46000000#32 ||| o.enc)
  | .vminF32 o => some (0x48000000#32 ||| o.enc)
  | .vmaxF32 o => some (0x4A000000#32 ||| o.enc)
  | .vaddF16x2 o => some (0x4C000000#32 ||| o.enc)
  | .vmulF16x2 o => some (0x4E000000#32 ||| o.enc)
  | .vfmaF16x2 o => some (0x50000000#32 ||| o.enc)
  | .vaddBf16x2 o => some (0x52000000#32 ||| o.enc)
  | .vmulBf16x2 o => some (0x54000000#32 ||| o.enc)
  | .vfmaBf16x2 o => some (0x56000000#32 ||| o.enc)
  | .vldexpF32 o => some (0x58000000#32 ||| o.enc)
  | .vcopysignF32 o => some (0x5A000000#32 ||| o.enc)
  | .vminF16x2 o => some (0x5C000000#32 ||| o.enc)
  | .vmaxF16x2 o => some (0x5E000000#32 ||| o.enc)
  | .vdot4E4m3 o => some (0x60000000#32 ||| o.enc)
  | .vdot4E5m2 o => some (0x62000000#32 ||| o.enc)
  | .vdot4I8 o => some (0x64000000#32 ||| o.enc)
  | .vdot4N8 o => some (0x66000000#32 ||| o.enc)
  | .vdot8E2m1 o => some (0x68000000#32 ||| o.enc)
  | .vdot8I4 o => some (0x6A000000#32 ||| o.enc)
  | .vdot2Bf16 o => some (0x6C000000#32 ||| o.enc)
  | .vdot2F16 o => some (0x6E000000#32 ||| o.enc)
  | .vcvtI32F32 o => some (0x70000000#32 ||| o.enc)
  | .vcvtN32F32 o => some (0x70000080#32 ||| o.enc)
  | .vcvtF32I32 o => some (0x70000100#32 ||| o.enc)
  | .vcvtF32N32 o => some (0x70000120#32 ||| o.enc)
  | .vcvtF16F32 o => some (0x70000140#32 ||| o.enc)
  | .vcvtBf16F32 o => some (0x70000160#32 ||| o.enc)
  | .vcvtF32F16 o => some (0x70000180#32 ||| o.enc)
  | .vcvtF32Bf16 o => some (0x700001A0#32 ||| o.enc)
  | .vcvtE4m3F32 o => some (0x70000200#32 ||| o.enc)
  | .vcvtE5m2F32 o => some (0x70000280#32 ||| o.enc)
  | .vcvtE2m1F32 o => some (0x70000300#32 ||| o.enc)
  | .vcvtF32E4m3 o => some (0x70000400#32 ||| o.enc)
  | .vcvtF32E5m2 o => some (0x70000480#32 ||| o.enc)
  | .vcvtF32E2m1 o => some (0x70000500#32 ||| o.enc)
  | .vsfuRcp o => some (0x72000000#32 ||| o.enc)
  | .vsfuRsq o => some (0x72000020#32 ||| o.enc)
  | .vsfuSqrt o => some (0x72000040#32 ||| o.enc)
  | .vsfuExp2 o => some (0x72000060#32 ||| o.enc)
  | .vsfuLog2 o => some (0x72000080#32 ||| o.enc)
  | .vsfuSin2pi o => some (0x720000A0#32 ||| o.enc)
  | .vsfuCos2pi o => some (0x720000C0#32 ||| o.enc)
  | .vsfuTanh o => some (0x720000E0#32 ||| o.enc)
  | .vsfuSigm o => some (0x72000100#32 ||| o.enc)
  | .vmov o => some (0x74000000#32 ||| o.enc)
  | .vmovPortPush o => some (0x74000008#32 ||| o.enc)
  | .vbitNot o => some (0x74000020#32 ||| o.enc)
  | .vbitPopc o => some (0x74000040#32 ||| o.enc)
  | .vbitClz o => some (0x74000060#32 ||| o.enc)
  | .vbitCtz o => some (0x74000080#32 ||| o.enc)
  | .vbitBrev o => some (0x740000A0#32 ||| o.enc)
  | .vbitAbsI32 o => some (0x740000C0#32 ||| o.enc)
  | .vbitNegI32 o => some (0x740000E0#32 ||| o.enc)
  | .vbitAbsF32 o => some (0x74000100#32 ||| o.enc)
  | .vbitNegF32 o => some (0x74000120#32 ||| o.enc)
  | .vscanAddI32 o => some (0x76000000#32 ||| o.enc)
  | .vscanAddF32 o => some (0x76000020#32 ||| o.enc)
  | .vscanMinI32 o => some (0x76000040#32 ||| o.enc)
  | .vscanMaxI32 o => some (0x76000060#32 ||| o.enc)
  | .vscanMinN32 o => some (0x76000080#32 ||| o.enc)
  | .vscanMaxN32 o => some (0x760000A0#32 ||| o.enc)
  | .vscanAnd o => some (0x760000C0#32 ||| o.enc)
  | .vscanOr o => some (0x760000E0#32 ||| o.enc)
  | .vscanXor o => some (0x76000100#32 ||| o.enc)
  | .vvoteAny o => some (0x78000000#32 ||| o.enc)
  | .vvoteAll o => some (0x78000020#32 ||| o.enc)
  | .vvoteBallot o => some (0x78000040#32 ||| o.enc)
  | .vvoteCount o => some (0x78000060#32 ||| o.enc)
  | .vvoteFirst o => some (0x78000080#32 ||| o.enc)
  | .vquantE4m3 o => some (0x7A000000#32 ||| o.enc)
  | .vquantE5m2 o => some (0x7A000020#32 ||| o.enc)
  | .vquantE2m1 o => some (0x7A000040#32 ||| o.enc)
  | .vquantI8 o => some (0x7A000060#32 ||| o.enc)
  | .vquantI4 o => some (0x7A000080#32 ||| o.enc)
  | .vredAddI32 o => some (0x7C000000#32 ||| o.enc)
  | .vredAddF32 o => some (0x7C000020#32 ||| o.enc)
  | .vredMinI32 o => some (0x7C000040#32 ||| o.enc)
  | .vredMaxI32 o => some (0x7C000060#32 ||| o.enc)
  | .vredMinN32 o => some (0x7C000080#32 ||| o.enc)
  | .vredMaxN32 o => some (0x7C0000A0#32 ||| o.enc)
  | .vredAnd o => some (0x7C0000C0#32 ||| o.enc)
  | .vredOr o => some (0x7C0000E0#32 ||| o.enc)
  | .vredXor o => some (0x7C000100#32 ||| o.enc)
  | .vdropm o => some (0x7E000008#32 ||| o.enc)
  | .sadd o => some (0x80000000#32 ||| o.enc)
  | .ssub o => some (0x82000000#32 ||| o.enc)
  | .smul o => some (0x84000000#32 ||| o.enc)
  | .smulhiN32 o => some (0x86000000#32 ||| o.enc)
  | .sand o => some (0x88000000#32 ||| o.enc)
  | .sor o => some (0x8A000000#32 ||| o.enc)
  | .sxor o => some (0x8C000000#32 ||| o.enc)
  | .sshl o => some (0x8E000000#32 ||| o.enc)
  | .sshrN32 o => some (0x90000000#32 ||| o.enc)
  | .sshrI32 o => some (0x92000000#32 ||| o.enc)
  | .sminI32 o => some (0x94000000#32 ||| o.enc)
  | .smaxI32 o => some (0x96000000#32 ||| o.enc)
  | .sminN32 o => some (0x98000000#32 ||| o.enc)
  | .smaxN32 o => some (0x9A000000#32 ||| o.enc)
  | .scltI32 o => some (0x9C000000#32 ||| o.enc)
  | .scltN32 o => some (0x9E000000#32 ||| o.enc)
  | .vaddi o => some (0xA0000000#32 ||| o.enc)
  | .vshli o => some (0xA2000000#32 ||| o.enc)
  | .vmovi o => some (0xA4000000#32 ||| o.enc)
  | .saddi o => some (0xA6000000#32 ||| o.enc)
  | .sandi o => some (0xA8000000#32 ||| o.enc)
  | .sori o => some (0xAA000000#32 ||| o.enc)
  | .smovi o => some (0xAC000000#32 ||| o.enc)
  | .smov o => some (0xAE000000#32 ||| o.enc)
  | .sbitNot o => some (0xAE000020#32 ||| o.enc)
  | .sbitPopc o => some (0xAE000040#32 ||| o.enc)
  | .sbitClz o => some (0xAE000060#32 ||| o.enc)
  | .sbitCtz o => some (0xAE000080#32 ||| o.enc)
  | .sbitBrev o => some (0xAE0000A0#32 ||| o.enc)
  | .sbitSeqz o => some (0xAE0000C0#32 ||| o.enc)
  | .br o => some (0xB0000000#32 ||| o.enc)
  | .brz o => some (0xB2000000#32 ||| o.enc)
  | .brnz o => some (0xB4000000#32 ||| o.enc)
  | .brd o => some (0xB6000000#32 ||| o.enc)
  | .mark o => some (0xB8000000#32 ||| o.enc)
  | .join o => some (0xBA000000#32 ||| o.enc)
  | .call o => some (0xBC000000#32 ||| o.enc)
  | .jr o => some (0xBE000000#32 ||| o.enc)
  | .ld o => some (0xC0000000#32 ||| o.enc)
  | .st o => some (0xC2000000#32 ||| o.enc)
  | .ldp o => some (0xC4000000#32 ||| o.enc)
  | .stp o => some (0xC6000000#32 ||| o.enc)
  | .ldx o => some (0xC8000000#32 ||| o.enc)
  | .stx o => some (0xCA000000#32 ||| o.enc)
  | .sld o => some (0xCC000000#32 ||| o.enc)
  | .sst o => some (0xCE000000#32 ||| o.enc)
  | .atom o => some (0xD0000000#32 ||| o.enc)
  | .red o => some (0xD2000000#32 ||| o.enc)
  | .atomx o => some (0xD4000000#32 ||| o.enc)
  | .npost o => some (0xD6000000#32 ||| o.enc)
  | .ndone o => some (0xD8000000#32 ||| o.enc)
  | .nread o => some (0xDA000000#32 ||| o.enc)
  | .cpy o => some (0xDC000000#32 ||| o.enc)
  | .cpyx o => some (0xDE000008#32 ||| o.enc)
  | .bseal o => some (0xE0000000#32 ||| o.enc)
  | .mpost o => some (0xE2000000#32 ||| o.enc)
  | .sqLd o => some (0xE4000000#32 ||| o.enc)
  | .sqSt o => some (0xE4000020#32 ||| o.enc)
  | .sqMark o => some (0xE4000040#32 ||| o.enc)
  | .sqBack o => some (0xE4000060#32 ||| o.enc)
  | .sqFork o => some (0xE4000080#32 ||| o.enc)
  | .sqDrop o => some (0xE40000A0#32 ||| o.enc)
  | .sqInfo o => some (0xE40000C0#32 ||| o.enc)
  | .spawn o => some (0xE6000000#32 ||| o.enc)
  | .launch o => some (0xE8000000#32 ||| o.enc)
  | .chainFix o => some (0xEA000000#32 ||| o.enc)
  | .chainForm o => some (0xEA000020#32 ||| o.enc)
  | .chainQuery o => some (0xEA000040#32 ||| o.enc)
  | .cacheL1wb o => some (0xEC000000#32 ||| o.enc)
  | .cacheL1inv o => some (0xEC000020#32 ||| o.enc)
  | .cacheL1wbinv o => some (0xEC000040#32 ||| o.enc)
  | .cacheIcinv o => some (0xEC000060#32 ||| o.enc)
  | .cacheFetchbar o => some (0xEC000080#32 ||| o.enc)
  | .cachePref o => some (0xEC0000A0#32 ||| o.enc)
  | .regroup o => some (0xEE000000#32 ||| o.enc)
  | .barInit o => some (0xF0000000#32 ||| o.enc)
  | .barArrive o => some (0xF0000020#32 ||| o.enc)
  | .barDrop o => some (0xF0000040#32 ||| o.enc)
  | .barQuery o => some (0xF0000060#32 ||| o.enc)
  | .parkWaitc o => some (0xF2000000#32 ||| o.enc)
  | .parkBwait o => some (0xF2000020#32 ||| o.enc)
  | .parkWbar o => some (0xF2000040#32 ||| o.enc)
  | .parkWaitm o => some (0xF2000060#32 ||| o.enc)
  | .parkYield o => some (0xF2000080#32 ||| o.enc)
  | .fence o => some (0xF4000000#32 ||| o.enc)
  | .nop o => some (0xF6000000#32 ||| o.enc)
  | .sysTrap o => some (0xF6000020#32 ||| o.enc)
  | .sysTret => some 0xF6000040#32
  | .sysExit => some 0xF6000060#32
  | .sysGetst o => some (0xF6000080#32 ||| o.enc)
  | .sysSetst o => some (0xF60000A0#32 ||| o.enc)
  | .sysDcommit o => some (0xF60000C0#32 ||| o.enc)
  | .sysDabort => some 0xF60000E0#32
  | .sysRseed o => some (0xF6000100#32 ||| o.enc)
  | .gimm o => some (0xF8000000#32 ||| o.enc)
  | .grep o => some (0xF8800000#32 ||| o.enc)
  | .gmod o => some (0xF9000000#32 ||| o.enc)
  | .gext o => some (0xF9800000#32 ||| o.enc)
  | .gstall o => some (0xFA000000#32 ||| o.enc)
  | .gscale o => some (0xFA800000#32 ||| o.enc)
  | .hmovi o => some (0x08000000#32 ||| o.enc)
  | .hmoviHi o => some (0x08200000#32 ||| o.enc)
  | .hadd o => some (0x10000000#32 ||| o.enc)
  | .hsub o => some (0x18000000#32 ||| o.enc)
  | .hshl o => some (0x20000000#32 ||| o.enc)
  | .hand o => some (0x28000000#32 ||| o.enc)
  | .hbr o => some (0x30000000#32 ||| o.enc)
  | .hbrnz o => some (0x38000000#32 ||| o.enc)
  | .hloop o => some (0x40000000#32 ||| o.enc)
  | .hcall o => some (0x48000000#32 ||| o.enc)
  | .hret => some 0x50000000#32
  | .mpop o => some (0x58000000#32 ||| o.enc)
  | .marrive o => some (0x60000000#32 ||| o.enc)
  | .mwbar o => some (0x68000000#32 ||| o.enc)
  | .mcopy o => some (0x70000000#32 ||| o.enc)
  | .mcwait o => some (0x78000000#32 ||| o.enc)
  | .mzero o => some (0x80000000#32 ||| o.enc)
  | .mma o => some (0x88000000#32 ||| o.enc)
  | .mexp o => some (0x90000000#32 ||| o.enc)
  | .mexpVdiff o => some (0x90000001#32 ||| o.enc)
  | .mexpRcp o => some (0x90000002#32 ||| o.enc)
  | .mrmax o => some (0x98000000#32 ||| o.enc)
  | .mrmaxKeep o => some (0x98000001#32 ||| o.enc)
  | .mrsum o => some (0xA0000000#32 ||| o.enc)
  | .mrsumDecay o => some (0xA0000001#32 ||| o.enc)
  | .mscale o => some (0xA8000000#32 ||| o.enc)
  | .mstore o => some (0xB0000000#32 ||| o.enc)
  | .mplane o => some (0xB8000000#32 ||| o.enc)
  | .mload o => some (0xC0000000#32 ||| o.enc)
  | .mfence => some 0xC8000000#32
  | .mdone o => some (0xD0000000#32 ||| o.enc)
  | .hnop => some 0xD8000000#32
  | .hhalt => some 0xE0000000#32
  | .inFlightComplete _ _ => none
  | .missEntryGrant _ => none
  | .refillComplete _ => none
  | .activeSetEnter _ => none
  | .displace _ => none
  | .boostRise _ => none
  | .quantumExpiry _ => none
  | .wBlockSave _ => none
  | .gangPreempt _ => none
  | .launchRecordCheck _ => none
  | .blockPlace _ => none
  | .taskPlace _ _ => none
  | .swapOut _ => none
  | .starveTimerExpiry _ => none
  | .workCompletionWord _ => none
  | .migrateUnit _ _ => none
  | .forwardEntryRelease _ _ => none
  | .chainSwitchRequest _ => none
  | .chainFormSwitch _ _ => none
  | .streamLoadItem _ _ => none
  | .streamStoreItem _ _ => none
  | .barrierArrivalEffect _ => none
  | .copyChunk _ => none
  | .copyComplete _ => none
  | .mpostVisible _ _ => none
  | .helmStartRequest _ => none
  | .helmLoadRequest _ => none
  | .helmContextSwitch _ => none
  | .tileOpComplete _ => none
  | .marriveEffect _ => none
  | .mdoneEffect _ => none
  | .helmMwbarStarve _ => none
  | .homeRead _ _ => none
  | .homeWritePerform _ => none
  | .spanClaim _ _ => none
  | .homeAtomic _ _ => none
  | .updateOnlyEvict _ _ => none
  | .noticeCommit _ => none
  | .noticeClaim _ => none
  | .noticeRelease _ => none
  | .draftEntryFree _ _ => none
  | .draftReplay _ => none
  | .l2DataError _ _ => none
  | .l2TagError _ _ => none
  | .sqEngineRequest _ => none
  | .sqTransferComplete _ => none
  | .statePageError _ _ => none
  | .pageWalk _ _ _ _ => none
  | .tlbInv _ _ _ => none
  | .tlbInvComplete _ => none
  | .fqBaseWrite _ _ _ => none
  | .fqPtrHeadWrite _ _ _ => none
  | .fqResolve _ _ _ _ => none
  | .fqResolveFatal _ _ _ _ => none
  | .ttqMove _ _ _ => none
  | .ttqDemote _ _ _ => none
  | .ttqPromote _ _ _ => none
  | .ttqCommandComplete _ => none
  | .blockHandlerEntry _ => none
  | .contextTrap _ => none
  | .partitionTrap _ => none
  | .deviceTrap _ => none
  | .handlertimeout _ => none
  | .deviceRungTimeout _ => none
  | .pmtPreempt _ _ _ => none
  | .pmtResume _ _ _ => none
  | .preemptClassAck _ _ => none
  | .unitFence _ _ => none
  | .devSemRead _ => none
  | .devSemWrite _ _ => none
  | .devCtlFwu _ _ => none
  | .devCtlRst _ _ => none
  | .coldReset => none
  | .bootVerify _ _ _ => none
  | .hostLinkReset _ => none
  | .partTblWrite _ _ _ => none
  | .quarterWipeDone _ => none
  | .hostBar2Read _ _ _ => none
  | .hostBar2Write _ _ _ => none
  | .nvIntWrite _ _ => none
  | .cqBaseWrite _ _ _ => none
  | .cqKick _ _ _ => none
  | .cqStampReread _ => none
  | .cqNop _ => none
  | .cqLaunch _ => none
  | .cqWait _ => none
  | .cqWaitSatisfied _ => none
  | .cqSignal _ => none
  | .cqSignalWrite _ => none
  | .sqPoolWrite _ _ _ => none
  | .powerCapStep _ => none
  | .registerWrite _ _ _ => none
  | .flitReceive _ _ _ _ => none
  | .flitReplay _ _ _ => none
  | .portRetrain _ _ => none
  | .portTrained _ _ _ => none
  | .portDownTimeout _ _ => none
  | .remoteRequest _ => none
  | .endpointLost _ _ => none
  | .wordNotAnInstruction => none
  | .helmReservedMajor => none
  | .firmwareAcknowledge _ => none
  | .contextDestroy _ _ => none
  | .lifeCycleChange _ => none
  | .attestationRequest _ _ => none

/-- The word of an instruction, 0 for a step that has none. -/
def encodeWord (i : Instr) : BitVec 32 := (encode i).getD 0#32

/-- The four bytes of a word, lowest address first (R6). -/
def wordBytes (w : BitVec 32) : List (BitVec 8) := [fld w 0 8, fld w 8 8, fld w 16 8, fld w 24 8]

/-- A word from four bytes, lowest address first (R6). -/
def bytesWord : List (BitVec 8) → BitVec 32
  | [a, b, c, d] => d ++ c ++ b ++ a
  | _ => 0#32

/-- The instruction this decoder reads from bits numbered as the opcode table numbers them. Group words and helm words
share the 32 bits (R249 with R31), and nothing in the bits says which: a word is read as a group word, and as a helm
word where no group table defines it. -/
def decodeTableWord (nbits w : Nat) : Option Instr :=
  if nbits ≤ 32 then
    let u := bytesWord (wordBytes (BitVec.ofNat 32 w))
    match decodeGroup u with
    | .ok i => some i
    | .error _ =>
      match decodeHelm u with
      | .ok i => some i
      | .error _ => none
  else none

end Sys2Proof
end

