-- ==== Sys2Proof/Machine/State.lean ====
section
/-!
DEFINITION. Sys2Proof/Machine/State.lean: the state of the machine as plain data, its faults and refusals, and the
state after reset. INVENTORY.md lists each field with the rule of the spec that names it.
-/
namespace Sys2Proof.Machine

/-- Why the machine stops. -/
inductive Fault where
  /-- Raised by the CX980's own spill, refill and save traffic where the region it needs has no valid mapping, which R130
  excludes by pinning those pages: the spec gives no effect. Safe. -/
  | backingUnmapped
  deriving DecidableEq, Repr

/-- Why a step is refused. -/
inductive Refusal where
  /-- Raised by an arm of exec that has no meaning yet. Safe. -/
  | notModelled (mnemonic : String)
  deriving DecidableEq, Repr

/-- Outer shape of every meaning. -/
abbrev Out (σ : Type) := Host.Outcome σ Fault Refusal

/-! ## Groups -/

/-- A mapped or spilled entry of a rename map (R55); an unmapped one is absent from the map. -/
inductive VEntry where
  /-- holds a physical entry: its lanes and the core cycle of its last use (R58) -/
  | mapped (v : Lanes) (used : Nat)
  /-- saved in the backing region (R59) -/
  | spilled
  /-- released by a dry bit (R57) -/
  | dry
  deriving DecidableEq, Repr

/-- An entry of the divergence stack (R65): word 0 and the mask words. -/
structure DivEntry where
  w0 : Word
  m0 : Word
  m1 : Word
  m2 : Word
  deriving DecidableEq, Repr

/-- A register cell that reads and writes name: a beat of a vector register, or a scalar. -/
inductive RCell where
  | vec (n b : Nat)
  | scal (n : Nat)
  deriving DecidableEq, Repr

/-- A fixed-latency result not yet readable (R61-R64): the cell, the cycle from which it is, and the old value. -/
structure PendW where
  cell  : RCell
  ready : Nat
  old   : Lanes
  deriving DecidableEq, Repr

/-- What a translation fault waits on (R320): VF, stage, context for stage 1, page number. -/
structure FKey where
  vf   : Nat
  stg2 : Bool
  ctx  : Nat
  page : Nat
  deriving DecidableEq, Repr

/-- What ends a park (R168). -/
inductive WaitOn where
  /-- a counter at or below a threshold (code 0x1) -/
  | ctr (c : Ctr) (t : Nat)
  /-- the same for park.waitc (0x0); the group goes on at the next word (R143) -/
  | waitc (c : Ctr) (t next : Nat)
  /-- batch n complete (0x2) -/
  | batch (n : Word)
  /-- the barrier at an address has left a phase (0x3) -/
  | barPhase (a : Nat) (tok : Word)
  /-- K of the barrier has advanced past k, or it is disarmed (0x4) -/
  | barRoom (a k : Nat)
  /-- the word at a physical address equals a value (0x5) -/
  | word (pa : Nat) (v : Word)
  /-- nothing: ready at once (0x6) -/
  | yield
  /-- a port holds an item (0x7), or has room (0x8) -/
  | portItem (q : Nat)
  | portRoom (q : Nat)
  /-- the pending-launch queue (0x9), the task queue (0xA) has room -/
  | launchRoom
  | taskRoom
  /-- no claim overlaps any of these ranges lo .. hi-1 of scratch bytes (0xB) -/
  | unclaimed (rs : List (Nat × Nat))
  /-- one of these fault keys is resolved (0xC) -/
  | keys (ks : List FKey)
  /-- the regroup partner acts (0xD): its gix, the destination, the next word and its stall, the mask read -/
  | partner (gix d next stall : Nat) (mask : List Word)
  /-- the form switch is over (0xE); the group goes on at the next word -/
  | formSwitch (next : Nat)
  /-- the copy engine has room (0xF) -/
  | copyRoom
  /-- a condition that has been found to hold -/
  | done
  deriving DecidableEq, Repr

/-- The states of a group (R156). -/
inductive GState where
  | pending | active | refilling | parked | exited
  deriving DecidableEq, Repr

/-- One access of a memory operation: lane, virtual, physical and VF address, size, its data (operands of a store or an
atomic; the bytes read of a load), and whether it has been performed (R135, R267-R270). -/
structure Acc where
  lane : Nat
  va   : Nat
  pa   : Nat
  /-- VF address (R392) -/
  vfa  : Nat
  n    : Nat
  /-- first register of the operation this access reads or writes -/
  reg  : Nat
  data : List Byte
  new  : List Byte
  fin  : Bool
  /-- suppressed at a helped line (R282), or refused or lost (R403, R407); a load's bytes poisoned (R139) -/
  bad  : Bool
  /-- the trap of a refused or lost access has been left for the group (R403, R407) -/
  told : Bool
  /-- the fabric port a remote access has been sent on (R405, R407) -/
  port : Option Nat
  deriving DecidableEq, Repr

/-- The kinds of a counted operation (R140). -/
inductive OpKind where
  | load | store | atom | red | ldp | stp | ldx | stx | atomx | notice
  /-- a cache range form: 0 l1wb, 1 l1inv, 2 l1wbinv, 3 icinv (R148), with its range -/
  | cache (f lo len : Nat)
  deriving DecidableEq, Repr

/-- A counted operation in flight (R140-R142). -/
structure Op where
  ctr   : Ctr
  kind  : OpKind
  /-- scope code and cache policy (R137) -/
  scope : Nat
  pol   : Nat
  aop   : Nat
  /-- size code, first destination register, vector or scalar file -/
  z     : Nat
  d     : Nat
  vec   : Bool
  accs  : List Acc
  /-- cells written by later instructions while the operation was pending, with the lanes written (R64) -/
  newer : List (RCell × Word)
  /-- issued in handler mode: its results into s40-s47 belong to the handler bank (R359) -/
  hdl   : Bool
  /-- accesses of the beats not accepted yet, beat by beat, and the stall count that runs from the last acceptance (R147) -/
  todo  : List (List Acc)
  stall : Nat
  /-- miss entries taken: beat, L1, line (R146) -/
  ents  : List (Nat × Nat × Nat)
  deriving DecidableEq, Repr

/-- A beat rejected for want of miss entries (R146, R147): its group, the address of its instruction, whether it is the first beat of
an instruction that has not issued, its translated accesses, the entries it has been given and those it lacks (L1, line). -/
structure Reject where
  gid   : Nat
  pc    : Nat
  first : Bool
  accs  : List Acc
  got   : List (Nat × Nat)
  lacks : List (Nat × Nat)
  deriving DecidableEq, Repr

/-- A fence that still holds accesses (R334): kind, scope, how many operations of each counter were issued before it
and are not complete, and the dirty bytes of the cluster that must reach their homes: line and mask. -/
structure FenceRec where
  kind  : Nat
  scope : Nat
  reads : Nat
  g : Nat
  w : Nat
  p : Nat
  x : Nat
  dirty : List (Nat × BitVec 128)
  deriving DecidableEq, Repr

/-- Where a notice instruction stands (R281, R283). -/
structure Notice where
  /-- 0 npost, 1 ndone, 2 nread -/
  form  : Nat
  /-- virtual and VF address of the line, its line number -/
  va    : Nat
  vfa   : Nat
  line  : Nat
  d     : Nat
  /-- S field of the word -/
  sf    : Nat
  /-- sequence of ndone -/
  seq   : Word
  /-- record address of npost -/
  raddr : Nat
  /-- the snapshot has been taken -/
  snap  : Bool
  /-- the commits still to send, earliest first: slot, sequence, record address -/
  todo  : List (Nat × Word × Nat)
  deriving DecidableEq, Repr

/-- An sq request sent to its engine (R299). -/
structure SqReq where
  form : Nat
  d    : Nat
  q    : List Word
  /-- S field of the word -/
  sf   : Nat
  deriving DecidableEq, Repr

/-- A trap: cause word bits of R360 without psd and rung, information, saved PC (R356). -/
structure Trap where
  cause : Nat
  info  : Word
  pc    : Nat
  /-- rung at which it was first raised -/
  rung  : Nat
  psd   : Bool
  deriving DecidableEq, Repr

/-- A group, or one stage of a chain (R47, R201). -/
structure Group where
  unit   : Nat
  core   : Nat
  gix    : Nat
  stage  : Nat
  pc     : Nat
  hiPc   : Nat
  sr     : List Word
  vr     : Tbl VEntry
  /-- the core cycle of the last use of an entry by an instruction that reads it (R58) -/
  lru    : Tbl Nat
  /-- entries of its core set aside for a task that has not entered the active set (R176) -/
  aside  : Nat
  gst    : Word
  flagPend : List (Nat × Nat)
  xsv    : List Word
  bank   : List Word
  /-- held divergence entries, newest first, and the count spilled (R66) -/
  stk    : List DivEntry
  stkSp  : Nat
  /-- glosses issued before the instruction they modify (R25, R26) -/
  chain  : List Word
  /-- inside an issue unit: glosses of the chain have issued, their instruction has not (R26, R159) -/
  mid    : Bool
  pf     : List (Nat × Word)
  pend   : List PendW
  ops    : List Op
  fences : List FenceRec
  st     : GState
  wait   : Option (Nat × WaitOn)
  /-- cells and stack entries a refill brings back (R58, R66) -/
  refill : List RCell
  /-- the cycle from which the next instruction may issue, and the one from which a gloss may (R22, R62) -/
  nextIssue : Nat
  glossAt : Nat
  readySince : Nat
  /-- boost, and the cycle from which its next 256 count (R159) -/
  boost  : Nat
  boostAt : Nat
  entered : Nat
  /-- starvation cycles counted before parkedAt, and the core cycle counting began (R174); the same for a service (R354) -/
  starve : Nat
  parkedAt : Nat
  service : Nat
  serviceAt : Nat
  sealed : Word
  key    : Word
  owner  : Nat
  depth  : Nat
  held   : Bool
  /-- 0 no handler, 1 group rung, 2 block rung with the block's trap at hand (R359, R361); the cause served -/
  rung   : Nat
  served : Nat
  /-- a trap to be taken at the next issue boundary (R139, R282) -/
  trapPend : Option Trap
  notice : Option Notice
  sqReq  : Option SqReq
  /-- draft entry (die, number) and replays (R284, R290) -/
  draft  : Option (Nat × Nat)
  replays : Nat
  /-- registers, width in beats less one (R44), window base, plim, spill depth, entry PC of the record (R152) -/
  regs   : Nat
  wide   : Fin 3
  win    : Nat
  /-- pages of the backing region and the spill area pinned while the group is resident (R130): virtual page to physical and VF page -/
  pins   : Tbl (Nat × Nat)
  plim   : Nat
  dspill : Nat
  entry  : Nat
  prio   : Nat
  arg    : Word
  bix    : Nat
  gpb    : Nat
  deriving DecidableEq, Repr

/-- The width of a group in beats: 1, 2 or 3 (R44). -/
def Group.beats (g : Group) : Nat := g.wide.val + 1

/-! ## Units, work and chains -/

/-- One of the three open phases of a barrier (R187): participants, arrivals, groups that have arrived. -/
structure Phase where
  cnt : Nat
  arr : Nat
  who : List Nat
  deriving DecidableEq, Repr

/-- An armed barrier (R187, R190). -/
structure Bar where
  addr : Nat
  cls  : Nat
  base : Nat
  k    : Nat
  ph   : List Phase
  /-- engine arrivals held until K advances (R189) -/
  held : Nat
  disarm : Bool
  deriving DecidableEq, Repr

/-- A group arrival that waits for the group's earlier writes (R189): barrier, phase number, group, operations of
counters w, p, x (and atomx) still to complete. -/
structure Arrival where
  addr : Nat
  phase : Nat
  gid  : Nat
  drop : Bool
  deps : List Nat
  deriving DecidableEq, Repr

/-- A claimed scratch range lo .. hi-1 (R186, R241): a copy source, an sq.st source, or a tile operation's region. -/
structure Claim where
  lo : Nat
  hi : Nat
  /-- 0 a copy or transfer, 1 a tile operation; its number -/
  kind : Nat
  own  : Nat
  deriving DecidableEq, Repr

/-- A port item (R196): values and mask words. -/
structure Item where
  vals : List Lanes
  mask : List Word
  deriving DecidableEq, Repr

/-- A link of a chain (R199-R201): kind, ends, items oldest first, and the stream of a stream link. -/
structure Link where
  kind : Nat
  ps : Nat
  pq : Nat
  cs : Nat
  cq : Nat
  items : List Item
  sbase : Nat
  lstr : Word
  istr : Word
  cnt  : Nat
  next : Nat
  /-- keys the stream waits on; a stream that ended by a fatal resolution -/
  keys : List FKey
  ended : Bool
  deriving DecidableEq, Repr

/-- The chain part of a unit (R199-R204). -/
structure ChainSt where
  folded  : Bool
  setting : Nat
  pending : Bool
  /-- running stage of the folded form -/
  run     : Nat
  stab    : Nat
  links   : List Link
  deriving DecidableEq, Repr

/-- A block, task or chain (R155, R176, R178). -/
structure UnitSt where
  work  : Nat
  bix   : Nat
  /-- cores it stands on; none while saved -/
  cores : List Nat
  swapped : Bool
  /-- saved by R163 to R165: it waits behind the blocks of its priority -/
  back  : Bool
  /-- saved by pre-emption, of a held context, or destroyed with it -/
  preempted : Bool
  foot  : Nat
  scr   : List Byte
  bars  : List Bar
  arrs  : List Arrival
  claims : List Claim
  chain : Option ChainSt
  /-- core cycle at which the quantum began (R163) -/
  quantum : Nat
  /-- block-rung traps waiting: trapped group (none for the helm) and the trap (R361) -/
  btraps : List (Option Nat × Trap)
  /-- the one being served -/
  bserve : Option (Option Nat × Trap)
  slotWin : Nat
  done  : Bool
  /-- a save of it was due and could not be written (R355, R372) -/
  unsaved : Bool
  /-- it is coming to rest: nothing of it issues until its operations are complete (R145) -/
  resting : Bool
  /-- what stood before it on the waiting list when its quantum ended (R163): works with blocks to place, and units -/
  behindW : List Nat
  behindU : List Nat
  deriving DecidableEq, Repr

/-- Phases of a work: queued for the check, accepted, refused, complete (R153, R154). -/
inductive WPhase where
  | queued | accepted | refused | complete
  deriving DecidableEq, Repr

/-- Where a work came from: a launch of a group, a spawn, a copy completion, a host packet, a handler task
(R177, R176, R229, R388, R362). -/
inductive WSrc where
  | launch (core : Nat) | task (cl : Nat) | copy (cl rec : Nat) | host | handler (cl : Nat)
  deriving DecidableEq, Repr

/-- A launch, task or chain (R152-R154). -/
structure Work where
  vf    : Nat
  ctx   : Nat
  src   : WSrc
  addr  : Nat
  words : List Word
  stab  : List Word
  depth : Nat
  serial : Nat
  phase : WPhase
  next  : Nat
  live  : Nat
  gone  : Nat
  /-- keys the check or the completion word waits on -/
  keys  : List FKey
  fatal : Bool
  sdesc : List (List Word)
  /-- VF address of the packet of a host's launch (R386, R388) -/
  pkt   : Nat
  deriving DecidableEq, Repr

/-! ## Cores, clusters, dies -/

/-- A core (R49, R113, R146, R160, R177, R180). -/
structure CoreSt where
  cycle  : Nat
  vbusy  : Nat
  rnd    : Word
  launchQ : List Nat
  fwd    : List Nat
  /-- rejected beats in the order of their first rejection (R146) -/
  rejected : List Reject
  /-- the last cycle in which a group left the active set (R157) -/
  left   : Nat
  /-- cached instruction words: VF, context, address, word (R149) -/
  ic     : List (Nat × Nat × Nat × Word)
  fenced : Bool
  deriving DecidableEq, Repr

/-- A request of the helm FIFO (R244, R245). -/
structure Req where
  q    : List Word
  key  : Nat
  unit : Nat
  gid  : Nat
  vis  : Bool
  /-- operations of the poster to complete before it is visible -/
  deps : List Nat
  /-- words of a load already copied -/
  got  : Nat
  deriving DecidableEq, Repr

/-- What a helm waits on; a wait in mwbar keeps the cycle its count began, none while its STARVE is being served. -/
inductive HWait where
  | mpop (d : Nat) | mwbar (tok : Word) (since : Option Nat) | mcwait (n : Word) | fence | halt | room (lo hi : Nat) | copyRoom
  | keys (ks : List FKey)
  deriving DecidableEq, Repr

/-- Run state of a helm program (R243). -/
inductive HRun where
  | halted | running | waiting (w : HWait)
  deriving DecidableEq, Repr

/-- A tile operation issued by a helm and not complete (R253): its unit, index and word, the register values it names. -/
structure TileOp where
  unit : Nat
  pc   : Nat
  word : Word
  a : Word
  b : Word
  c : Word
  e : Word
  id : Nat
  /-- the helm cycle of its issue, the next step, the partial sums of the K block begun, the first armed barrier met (R192, R260) -/
  since : Nat
  step : Nat
  part : List Int
  hit  : Option Nat
  deriving DecidableEq, Repr

/-- A deferred arrival or addition (R252): operations and copies it waits on. -/
structure Defer where
  add  : Bool
  unit : Nat
  addr : Nat
  tiles : List Nat
  copies : List Nat
  pc   : Nat
  keys : List FKey
  deriving DecidableEq, Repr

/-- The helm state of a context on a cluster (R243). -/
structure HelmSt where
  h    : List Word
  pc   : Nat
  stack : List Nat
  run  : HRun
  bind : Option Nat
  store : Tbl Word
  acc  : Tbl Word
  tiles : List TileOp
  defers : List Defer
  /-- requests kept through a pre-emption (R247) -/
  saved : List Req
  preempted : Bool
  /-- its bank has been written out to the save area (R242) -/
  out  : Bool
  nextTile : Nat
  deriving DecidableEq, Repr

/-- A copy of the copy engine or a transfer of the state store engine (R217, R303). -/
structure Copy where
  /-- 0 cpy or cpyx, 1 sq.ld, 2 sq.st -/
  kind  : Nat
  cl    : Nat
  unit  : Nat
  key   : Nat
  /-- issuing group, or none for a helm copy -/
  gid   : Option Nat
  /-- rows: source and destination addresses -/
  rows  : List (Nat × Nat)
  dir   : Nat
  pl    : Nat
  len   : Nat
  task  : Nat
  depth : Nat
  /-- the descriptor it was issued with, and of a gather the position and index of each active lane (R220, R223, R231) -/
  desc  : List Word
  chunk : Nat
  /-- bytes of the chunk begun that are not written yet (R228); none between chunks -/
  left  : Option (List Nat)
  keys  : List FKey
  /-- batch number, 0 for an unsealed copy (R226) -/
  batch : Word
  fin   : Bool
  /-- cause and information of a failure not reported yet (R411) -/
  failed : Option (Nat × Word)
  /-- of a transfer: die, slot, layer, page set -/
  sq    : List Nat
  /-- the save of its unit holds it (R231) -/
  kept  : Bool
  deriving DecidableEq, Repr

/-- A cluster (R176, R213, R217, R242, R244, R259). -/
structure ClusterSt where
  fused  : Bool
  taskQ  : List Nat
  fifo   : List Req
  /-- context the helm serves, and the two banks, most recently served first -/
  serve  : Option Nat
  banks  : List Nat
  /-- context whose bank the matrix engine has selected (R242, R369), and the helm cycle up to which it is busy (R259) -/
  sel    : Option Nat
  mbusy  : Nat
  hcycle : Nat
  /-- fenced as a whole (R376, R377) -/
  fenced : Bool
  deriving DecidableEq, Repr

/-- A layer of a sequence (R293): position, page set of the current state, ring earliest first. -/
structure SqLayer where
  cur  : Word
  set  : Nat
  ring : List (Word × Nat)
  deriving DecidableEq, Repr

/-- A sequence (R293). -/
structure SqSeq where
  key : Nat
  n   : Nat
  layers : List SqLayer
  deriving DecidableEq, Repr

/-- A page set: bytes, and whether a page of it is poisoned (R293, R305). Set 0 is all zero and holds no page. -/
structure PageSet where
  key  : Nat
  n    : Nat
  bytes : List Byte
  bad  : Bool
  deriving DecidableEq, Repr

/-- A fabric port (R399, R400): its state and replay count, the sequence number expected next and whether a replay from it has been
asked for, the sequence numbers of the next flit to send and of the first one not acknowledged (those between stand in the replay
buffer), the first flit of the last replay and how often in a row it has been replayed. -/
structure Port where
  st   : Nat
  rty  : Nat
  rx   : Nat
  ask  : Bool
  tx   : Nat
  una  : Nat
  last : Nat
  row  : Nat
  deriving DecidableEq, Repr

/-- State of an entry of the draft table (R284). -/
inductive DraftState where
  | free | opened | committed | discarded
  deriving DecidableEq, Repr

/-- A die. -/
structure DieSt where
  seqs : Tbl SqSeq
  /-- generations that differ from 1 (R294) -/
  gens : Tbl Nat
  sets : Tbl PageSet
  pool : Nat
  drafts : Tbl DraftState
  ttq  : List TtqCmd
  ttqDone : Word
  ports : Tbl Port
  /-- cycles of its system-core clock domain (R3, R354, R387) -/
  sclk  : Nat
  deriving DecidableEq, Repr

/-! ## Memory side -/

/-- Device memory: byte by physical address; an unlisted address reads 0. -/
abbrev Mem := List Host.Cell

/-- A line held in an L1 (R214, R273): core whose L1 it is, line number, the spans held (first word and word count), dirty
bytes, bytes, the bytes among those of its spans that came with an uncorrectable error (R139, R291), and the tag, delta and
issuing context of each word of an update-only line. -/
structure L1Line where
  core  : Nat
  line  : Nat
  spans : List (Nat × Nat)
  dirty : BitVec 128
  bytes : List Byte
  bad   : BitVec 128
  /-- the writers of its dirty bytes and deltas: VF, VF address, bytes (R392) -/
  vfas  : List (Nat × Nat × BitVec 128)
  /-- the dirty bytes that a group has observed or written (R269, R334) -/
  seen  : Tbl (BitVec 128)
  upd   : Tbl (Nat × Word × Nat)
  deriving DecidableEq, Repr

/-- A sharer record of a line (R266): package cluster number, the core whose L1 it is, span (first word and word count), dirty. -/
structure Sharer where
  cl    : Nat
  core  : Nat
  first : Nat
  count : Nat
  dirty : Bool
  deriving DecidableEq, Repr

/-- Directory entry of a line (R266, R268): up to 4 sharer records, the claims that hold (L1, first word, word count) in the order
in which they reached the home, the overflow mark and the dies that hold copies of an overflowed line. -/
structure DirLine where
  recs : List Sharer
  claims : List (Nat × Nat × Nat)
  ovf  : Bool
  dies : BitVec 8
  deriving DecidableEq, Repr

/-- A draft copy of a line (R285). -/
structure DraftLine where
  die  : Nat
  ent  : Nat
  line : Nat
  bytes : List Byte
  /-- bytes of the copy that an uncorrectable error has marked (R291) -/
  bad  : BitVec 128
  /-- VF and VF address of its writers (R392) -/
  vfas : List (Nat × Nat)
  deriving DecidableEq, Repr

/-- A line that the L2 slice of its home holds (R265): the VFs whose data in it is dirty (R292), and while it is dirty the bytes
that its tier holds, which of them are poisoned, and whether the line there is helped. -/
structure L2Line where
  line : Nat
  dirty : Bool
  vfs  : List Nat
  tier : List Byte
  tbad : BitVec 128
  thm  : Bool
  deriving DecidableEq, Repr

/-- A TLB entry (R318): cluster, or core for an entry of a micro-TLB, VF, context, first page and page count of the region, first
output page, permissions r w x, dirty flags allow a write. -/
structure TlbE where
  cl   : Nat
  vf   : Nat
  ctx  : Nat
  page : Nat
  num  : Nat
  out  : Nat
  /-- input page of stage 2, for stage-2 invalidations -/
  mid  : Nat
  r : Bool
  w : Bool
  x : Bool
  d : Bool
  deriving DecidableEq, Repr

/-- An entry of a die's walk cache (R318): a valid table entry that is no leaf, the address it was read at, and the pages it leads
to. -/
structure WEnt where
  die  : Nat
  vf   : Nat
  stg2 : Bool
  ctx  : Nat
  at_  : Nat
  e    : Nat
  page : Nat
  num  : Nat
  deriving DecidableEq, Repr

/-- An invalidation in progress (R319): the system core that wrote it, and the region. -/
structure Inv where
  who  : Nat
  stg2 : Bool
  vf   : Nat
  ctx  : Nat
  page : Nat
  num  : Nat
  deriving DecidableEq, Repr

/-- A fault record held by its walker (R322): queue (true for the provider's), VF, words W0-W5, key. -/
structure HeldRec where
  prov : Bool
  vf   : Nat
  w    : List Word
  key  : FKey
  deriving DecidableEq, Repr

/-! ## VFs, partitions, contexts, device -/

/-- A fault queue (R322). -/
structure FQ where
  base : BitVec 64
  head : Nat
  tail : Nat
  seq  : Nat
  deriving DecidableEq, Repr

/-- A VF (R309, R330, R386, R387, R392). -/
structure VfSt where
  s2   : BitVec 64
  pol  : Word
  gq   : FQ
  pq   : FQ
  cqBase : BitVec 64
  ks   : Bool
  rf   : Bool
  done : Word
  kick : Word
  kickPort : Nat
  kicked : Bool
  reread : Nat
  /-- the cycle of the last read of the packet (R387) -/
  readAt : Nat
  waiting : Option (Nat × Word)
  signal : Bool
  /-- works launched by the queue and not complete -/
  launches : List Nat
  dlog : BitVec 64
  ctxTbl : BitVec 64
  /-- keys the command queue waits on, and whether one ended by a fatal resolution -/
  keys : List FKey
  fatal : Bool
  deriving DecidableEq, Repr

/-- A partition (R175, R370, R385, R401). -/
structure PartSt where
  starve : Word
  busy : Bool
  err  : Bool
  ack  : BitVec 6
  res  : Bool
  all  : Bool
  ctx  : Nat
  tq   : FQ
  /-- records of the trap ring not acknowledged: number, cause, and the system-core cycle of its writing (R354) -/
  serv : List (Nat × Nat × Nat)
  intp : Word
  eid  : Word
  held : Bool
  bad  : Bool
  deriving DecidableEq, Repr

/-- A trap waiting for the context, partition or device rung (R362-R364): rung (6: a record that waits for room in the partition
ring, its context held; 8: one raised at the context rung in this step), unit, group, key, party, record words. -/
structure TrapRec where
  rung : Nat
  key  : Nat
  part : Nat
  unit : Option Nat
  gid  : Option Nat
  party : Nat
  trap : Trap
  ser  : Word
  bix  : Word
  cid  : Word
  gix  : Nat
  hi   : Word
  deriving DecidableEq, Repr

/-- The service count of record num of a context's trap ring (R409): its cause, the core whose cycles count, cycles counted
before now, and the core's cycle from which it counts while the handler task is resident. -/
structure Serv where
  num   : Nat
  cause : Nat
  core  : Nat
  past  : Nat
  since : Option Nat
  deriving DecidableEq, Repr

/-- A context of a VF; its key is vf * 65536 + number (R208, R279, R354, R372). -/
structure CtxSt where
  serial : Nat
  owner  : Nat
  /-- works of handler tasks running -/
  handler : Option Nat
  /-- service counts of ring records not passed (R409) -/
  service : List Serv
  /-- the traps recorded since a handler task was started whose own record is not accepted yet (R355) -/
  first  : List TrapRec
  /-- engine classes that have stopped for a pre-emption, one bit each (R369) -/
  stops  : Nat
  held   : Bool
  preempted : Bool
  /-- save frames in use: frame, unit -/
  frames : List (Nat × Nat)
  destroyed : Bool
  deriving DecidableEq, Repr

/-- Sequences of a VF on one die, moved as state pages with their handles (R307, R393). -/
structure SeqImage where
  die  : Nat
  seqs : Tbl SqSeq
  gens : Tbl Nat
  sets : Tbl PageSet
  deriving DecidableEq, Repr

/-- An access of a system core not performed yet (R339): of a load its register, addresses, size and whether its sign is extended; of a
store its VF and VF address where it was translated, its address and bytes; of a FENCE its predecessor and successor sets, r then w; of
an indivisible read-modify-write, a load-reserved and a store-conditional also whether it acquires and releases. -/
inductive SysAcc where
  | load (rd pa n : Nat) (sgn : Bool)
  | store (vfa : Option (Nat × Nat)) (pa : Nat) (b : List Byte)
  | fence (pr pw sr sw : Bool)
  | amo (rd : Nat) (vfa : Option (Nat × Nat)) (pa n op : Nat) (v : BitVec 64) (aq rl : Bool)
  | lr (rd pa n : Nat) (aq rl : Bool)
  | sc (rd : Nat) (vfa : Option (Nat × Nat)) (pa n : Nat) (v : BitVec 64) (aq rl : Bool)
  deriving DecidableEq, Repr

/-- A system core (R1, R339, R389): its mode (0 M, 1 HS, 2 VS), x0-x31, the accesses it has not performed in program order, the address
of an access fault it has taken, the address and bytes of its reservation, fenced (R376). -/
structure SysSt where
  mode : Nat
  x    : List (BitVec 64)
  pend : List SysAcc
  fault : Option Nat
  resv : Option (Nat × List Byte)
  fenced : Bool
  deriving DecidableEq, Repr

/-- What a system core does (R9, R339, R380, R385, R389, R393): a change of mode; a result of its program; a load and a store of n
bytes; FENCE; an indivisible read-modify-write (0 swap, 1 add, 2 xor, 3 and, 4 or, 5 min, 6 max, 7 minu, 8 maxu), a load-reserved and a
store-conditional; one of its accesses is performed; a control register, its pending external interrupt, or the provider queues that have
interrupted the hypervisor read into a register. -/
inductive SysOp where
  | mode (m : Nat)
  | set (rd : Nat) (v : BitVec 64)
  | load (rd a n : Nat) (sgn : Bool)
  | store (rs a n : Nat)
  | fence (pr pw sr sw : Bool)
  | amo (rd rs a n op : Nat) (aq rl : Bool)
  | lr (rd a n : Nat) (aq rl : Bool)
  | sc (rd rs a n : Nat) (aq rl : Bool)
  | perform (i : Nat)
  | reg (rd pa n : Nat)
  | ext (rd : Nat)
  | prov (rd : Nat)
  deriving DecidableEq, Repr

/-- A record that reached the device rung, or a message to a host or the requester (R364, R387, R389). -/
inductive Report where
  | record (w : List Word) (part : Nat) (count : Nat) (acked : Bool)
  | kickStale (vf port : Nat)
  | attestation (nonce : BitVec 256) (life fenced : Nat) (sig : List Word)
  | hostRead (vf : Nat) (bytes : List Byte)
  | hostAbort (vf : Nat)
  | semRead (who : Master) (v : Word)
  | remote (bytes : List Byte)
  | remoteRefused
  | remotePoison
  | regRead (who : Master) (pa : Nat) (v : BitVec 64)
  | seqs (l : List SeqImage)
  deriving DecidableEq, Repr

/-- The device (R381, R382, R389-R391). -/
structure DevSt where
  semHeld : Bool
  semOwn : Nat
  fwu   : Bool
  partTbl : Tbl Word
  bootDone : Bool
  bootBad : Nat
  clk   : Nat
  cap   : Bool
  halted : Bool
  life  : Nat
  reports : List Report
  /-- VFs whose provider queue has interrupted the hypervisor (R385) -/
  prov  : List Nat
  remotes : List RemoteReq
  deriving DecidableEq, Repr

/-- Which party moves next: a core issues a word, a cluster's helm issues a word, n cycles pass on a core or a helm that
has nothing to issue, another agent's step, such a step made by a system core, a step of a matrix engine (R260), what a system core does,
n cycles of a die's system-core clock, a register read by a host port (R383), sequences of a VF moved out or in (R307), or a flit sent
on a fabric port and one acknowledged there (R399). -/
inductive Turn where
  | core (c : Nat) | helm (cl : Nat) | idle (c n : Nat) | helmIdle (cl n : Nat) | event (i : Instr)
  | sysEvent (k : Nat) (i : Instr) | tile (cl : Nat) | sys (k : Nat) (o : SysOp) | sysTime (die n : Nat)
  | read (m : Master) (off n : Nat) | seqOut (vf : Nat) | seqIn (l : List SeqImage)
  | flitSend (die port : Nat) | flitAck (die port seq : Nat)
  deriving DecidableEq, Repr

/-- The machine. -/
structure State where
  groups : Tbl Group
  units  : Tbl UnitSt
  works  : Tbl Work
  cores  : Tbl CoreSt
  clusters : Tbl ClusterSt
  dies   : Tbl DieSt
  /-- system cores: core j of die d is 16 d + j (R1, R378) -/
  sys    : Tbl SysSt
  vfs    : Tbl VfSt
  parts  : Tbl PartSt
  ctxs   : Tbl CtxSt
  helms  : Tbl HelmSt
  copies : Tbl Copy
  dev    : DevSt
  mem    : Mem
  poison : List Nat
  /-- bytes of other devices' memory as this package last wrote or read them (R404, R405) -/
  rmem   : Tbl Byte
  helped : List Nat
  l1     : List L1Line
  l2     : List L2Line
  dir    : Tbl DirLine
  drafts : List DraftLine
  tlb    : List TlbE
  /-- micro-TLBs of the cores, their entries tagged with the core, and walk caches of the dies (R318) -/
  utlb   : List TlbE
  wcache : List WEnt
  invs   : List Inv
  fkeys  : List FKey
  frecs  : List HeldRec
  trapQ  : List TrapRec
  /-- the model's own: word being issued, issuing group, issuing cluster, acting system core, which party moves next, free value number -/
  iw     : Word
  cur    : Nat
  curCl  : Nat
  curSys : Nat
  agenda : List Turn
  free   : Nat
  deriving DecidableEq, Repr

/-! ## Values at reset -/

/-- A core after reset: its stochastic generator holds 0x9E37_79B9 (R113); every other field is zero or empty. -/
def CoreSt.init : CoreSt := ⟨0, 0, 0x9E3779B9#32, [], [], [], 0, [], false⟩

/-- A cluster after reset: empty, its L1s in private mode (DESIGN CHOICE, log 3). -/
def ClusterSt.init : ClusterSt := ⟨false, [], [], none, [], none, 0, 0, false⟩

/-- A helm state at context creation (R243); the control store is zero (DESIGN CHOICE, log 3). -/
def HelmSt.init : HelmSt := ⟨List.replicate 32 0#32, 0, [], .halted, none, [], [], [], [], [], false, false, 1⟩

/-- A die after reset (R294, R325, R400, R412). -/
def DieSt.init : DieSt := ⟨[], [], [], 0, [], [], 0#32, [], 0⟩

/-- A system core after reset: in M mode, in which the boot ROM runs (DEDUCED from R389, log 98); its registers are zero (DESIGN CHOICE,
log 98). -/
def SysSt.init : SysSt := ⟨0, List.replicate 32 0#64, [], none, none, false⟩

/-- A fabric port after reset (R400). -/
def Port.init : Port := ⟨0, 0, 0, false, 0, 0, 0, 0⟩

/-- A fault queue after reset (R322). -/
def FQ.init : FQ := ⟨0#64, 0, 0, 0⟩

/-- A VF after reset (R309, R322, R330, R386, R392). -/
def VfSt.init : VfSt :=
  ⟨0#64, 1#32, FQ.init, FQ.init, 0#64, false, false, 0#32, 0#32, 0, false, 0, 0, none, false, [], 0#64, 0#64, [], false⟩

/-- A partition after reset (R175, R370, R385, R401): the starvation exponents are 30. -/
def PartSt.init : PartSt :=
  ⟨0x0079E780#32, false, false, 0#6, false, false, 0, FQ.init, [], 0#32, 0#32, false, false⟩

/-- A context before its first use: its first work has serial 1 and its first group owner number 0 (DESIGN CHOICE, log 5). -/
def CtxSt.init : CtxSt := ⟨1, 0, none, [], [], 0, false, false, [], false⟩

/-- The device after reset (R381, R382, R389, R391). -/
def DevSt.init : DevSt := ⟨false, 0, false, [], false, 0, 85, false, false, 0, [], [], []⟩

/-- The machine right after reset: no group, no unit, every table at its reset value, memory all zero (R390). -/
def State.reset : State where
  groups := []
  units := []
  works := []
  cores := []
  clusters := []
  dies := []
  sys := []
  vfs := []
  parts := []
  ctxs := []
  helms := []
  copies := []
  dev := DevSt.init
  mem := []
  poison := []
  rmem := []
  helped := []
  l1 := []
  l2 := []
  dir := []
  drafts := []
  tlb := []
  utlb := []
  wcache := []
  invs := []
  fkeys := []
  frecs := []
  trapQ := []
  iw := 0#32
  cur := 0
  curCl := 0
  curSys := 0
  agenda := []
  free := 0

end Sys2Proof.Machine
end

