-- ==== Sys2Proof/Machine/Base.lean ====
section
/-!
DEFINITION. Sys2Proof/Machine/Base.lean: the named operations over tables, memory bytes and registers that every other
file of Machine/ uses.
-/
namespace Sys2Proof.Machine
open Host (Outcome)

/-! ## Numbers and bytes -/

/-- Bits lo .. lo+n-1 of a number. -/
def bits (x lo n : Nat) : Nat := x / 2 ^ lo % 2 ^ n

/-- A word from a number, modulo 2^32. -/
def toW (n : Nat) : Word := BitVec.ofNat 32 n

/-- A word of 1 or 0. -/
def boolW (b : Bool) : Word := if b then 1#32 else 0#32

/-- The bytes as a little-endian number (R6). -/
def leNat : List Byte → Nat
  | [] => 0
  | b :: t => b.toNat + 256 * leNat t

/-- The n low bytes of a number, lowest first (R6). -/
def leBytes : Nat → Nat → List Byte
  | 0, _ => []
  | n + 1, v => BitVec.ofNat 8 v :: leBytes n (v / 256)

/-- Four bytes as a word (R6). -/
def leWord (b : List Byte) : Word := toW (leNat b)

/-- A list of words from bytes. -/
def leWords (b : List Byte) (n : Nat) : List Word := (List.range n).map fun i => leWord ((b.drop (4 * i)).take 4)

/-- The 48-bit value of a word pair, the high word's upper half ignored (R133). -/
def pair48 (lo hi : Word) : Nat := lo.toNat + (hi.toNat % 65536) * 4294967296

/-- A signed 32-bit offset added to an address modulo 2^48 (R133). -/
def addOff48 (base : Nat) (o : Word) : Nat := ((Int.ofNat base + o.toInt) % (281474976710656 : Int)).toNat

/-- A list entry, 0 beyond the end. -/
def wAt (l : List Word) (i : Nat) : Word := l.getD i 0#32

/-- Two numbers combined bit by bit. -/
def natXor (a b : Nat) : Nat := a ^^^ b

/-- An element put in front of the first one it may precede. -/
def insertBy {α : Type} (le : α → α → Bool) (x : α) : List α → List α
  | [] => [x]
  | y :: t => if le x y then x :: y :: t else y :: insertBy le x t

/-- A list in order; elements neither of which precedes the other keep their places. -/
def sortBy {α : Type} (le : α → α → Bool) (l : List α) : List α := l.foldr (insertBy le) []

/-! ## Memory -/

/-- Whether the addresses rise strictly from above lo and no entry is zero. -/
def Mem.wfFrom : Nat → Mem → Bool
  | _, [] => true
  | lo, (a, b) :: t => lo ≤ a && b != 0#8 && Mem.wfFrom (a + 1) t

/-- The canonical form of memory: strictly rising addresses and no entry of zero. -/
def Memory.wf (m : Mem) : Bool := Mem.wfFrom 0 m

/-- The byte at an address; an unlisted address reads 0 (R390; DESIGN CHOICE, log 4). -/
def Mem.read : Mem → Nat → Byte
  | [], _ => 0#8
  | (k, v) :: t, a => if k = a then v else if a < k then 0#8 else Mem.read t a

/-- A byte placed in front where it is not zero. -/
def Mem.cons (a : Nat) (v : Byte) (t : Mem) : Mem := if v = 0#8 then t else (a, v) :: t

/-- Memory with byte v at address a; the canonical form is kept. -/
def Mem.write : Mem → Nat → Byte → Mem
  | [], a, v => Mem.cons a v []
  | (k, u) :: t, a, v =>
    if k = a then Mem.cons a v t
    else if a < k then Mem.cons a v ((k, u) :: t)
    else (k, u) :: Mem.write t a v

/-- n bytes from an address. -/
def Mem.bytes (m : Mem) (a n : Nat) : List Byte := (List.range n).map fun i => m.read (a + i)

/-- Bytes stored from an address upward. -/
def Mem.store (m : Mem) : Nat → List Byte → Mem
  | _, [] => m
  | a, b :: t => Mem.store (m.write a b) (a + 1) t

/-- The little-endian word at a physical address. -/
def State.memWord (s : State) (pa : Nat) : Word := leWord (s.mem.bytes pa 4)

/-! ## Tables of the state -/

/-- A fresh free-value number. -/
def State.tick (s : State) : State := { s with free := s.free + 1 }

/-- A group that holds nothing. -/
def Group.blank : Group where
  unit := 0
  core := 0
  gix := 0
  stage := 0
  pc := 0
  hiPc := 0
  sr := List.replicate 48 0#32
  vr := []
  lru := []
  aside := 0
  gst := 0#32
  flagPend := []
  xsv := List.replicate 4 0#32
  bank := List.replicate 8 0#32
  stk := []
  stkSp := 0
  chain := []
  mid := false
  pf := []
  pend := []
  ops := []
  fences := []
  st := .pending
  wait := none
  refill := []
  nextIssue := 0
  glossAt := 0
  readySince := 0
  boost := 0
  boostAt := 0
  entered := 0
  starve := 0
  parkedAt := 0
  service := 0
  serviceAt := 0
  sealed := 0#32
  key := 0#32
  owner := 0
  depth := 0
  held := false
  rung := 0
  served := 0
  trapPend := none
  notice := none
  sqReq := none
  draft := none
  replays := 0
  regs := 64
  wide := 0
  win := 0
  pins := []
  plim := 0
  dspill := 0
  entry := 0
  prio := 0
  arg := 0#32
  bix := 0
  gpb := 1

/-- A unit that holds nothing. -/
def UnitSt.blank : UnitSt := ⟨0, 0, [], false, false, false, 0, [], [], [], [], none, 0, [], none, 0, false, false, false, [], []⟩

/-- A work that holds nothing. -/
def Work.blank : Work := ⟨0, 0, .host, 0, [], [], 0, 0, .complete, 0, 0, 0, [], false, [], 0⟩

def State.grp (s : State) (g : Nat) : Group := s.groups.getD g Group.blank
def State.setGrp (s : State) (g : Nat) (x : Group) : State := { s with groups := s.groups.set g x }
def State.modGrp (s : State) (g : Nat) (f : Group → Group) : State :=
  match s.groups.find? g with
  | some x => s.setGrp g (f x)
  | none => s

def State.unit (s : State) (u : Nat) : UnitSt := s.units.getD u UnitSt.blank
def State.setUnit (s : State) (u : Nat) (x : UnitSt) : State := { s with units := s.units.set u x }
def State.modUnit (s : State) (u : Nat) (f : UnitSt → UnitSt) : State :=
  match s.units.find? u with
  | some x => s.setUnit u (f x)
  | none => s

def State.work (s : State) (w : Nat) : Work := s.works.getD w Work.blank
def State.setWork (s : State) (w : Nat) (x : Work) : State := { s with works := s.works.set w x }

def State.core (s : State) (c : Nat) : CoreSt := s.cores.getD c CoreSt.init
def State.setCore (s : State) (c : Nat) (x : CoreSt) : State := { s with cores := s.cores.set c x }

def State.cluster (s : State) (c : Nat) : ClusterSt := s.clusters.getD c ClusterSt.init
def State.setCluster (s : State) (c : Nat) (x : ClusterSt) : State := { s with clusters := s.clusters.set c x }

def State.die (s : State) (d : Nat) : DieSt := s.dies.getD d DieSt.init
def State.setDie (s : State) (d : Nat) (x : DieSt) : State := { s with dies := s.dies.set d x }

def State.syscore (s : State) (k : Nat) : SysSt := s.sys.getD k SysSt.init
def State.setSys (s : State) (k : Nat) (x : SysSt) : State := { s with sys := s.sys.set k x }

def State.vf (s : State) (v : Nat) : VfSt := s.vfs.getD v VfSt.init
def State.setVf (s : State) (v : Nat) (x : VfSt) : State := { s with vfs := s.vfs.set v x }

def State.part (s : State) (p : Nat) : PartSt := s.parts.getD p PartSt.init
def State.setPart (s : State) (p : Nat) (x : PartSt) : State := { s with parts := s.parts.set p x }

/-- The key of a context: VF and number (R385). -/
def ctxKey (vf ctx : Nat) : Nat := vf * 65536 + ctx

/-- The key of a record that names no context: no VF has number 64. -/
def noCtx : Nat := 64 * 65536

def State.ctx (s : State) (k : Nat) : CtxSt := s.ctxs.getD k CtxSt.init
def State.setCtx (s : State) (k : Nat) (x : CtxSt) : State := { s with ctxs := s.ctxs.set k x }

/-- Whether an engine class of a context stands still: pre-empted, held, or stopped for a pre-emption (R364, R369, R370). -/
def State.frozen (s : State) (key cls : Nat) : Bool :=
  (s.ctx key).preempted || (s.ctx key).held || (s.ctx key).stops.testBit cls

/-- Whether a unit holds no slot now: its scratch cannot be reached. -/
def State.unitAway (s : State) (u : Nat) : Bool := (s.unit u).swapped || (s.unit u).preempted

/-- The key of a helm state: its context and cluster (R243). -/
def helmKey (k cl : Nat) : Nat := k * 1024 + cl

def State.helm (s : State) (k cl : Nat) : HelmSt := s.helms.getD (helmKey k cl) HelmSt.init
def State.setHelm (s : State) (k cl : Nat) (x : HelmSt) : State := { s with helms := s.helms.set (helmKey k cl) x }

def State.copy? (s : State) (k : Nat) : Option Copy := s.copies.find? k
def State.setCopy (s : State) (k : Nat) (x : Copy) : State := { s with copies := s.copies.set k x }

/-- The die and cluster of a core: 96 clusters of 4 cores on each die (R3, R266). -/
def coreDie (c : Nat) : Nat := c / 384
def coreCl (c : Nat) : Nat := c / 4

/-- The unit identifier of a core (W3 of R321). -/
def coreCid (c : Nat) : Word := toW (c / 384 * 536870912 + c % 384 / 4 * 4194304 + c % 4 * 1048576)

/-! ## Fields of a launch record (R152) -/

def Work.entry (w : Work) : Nat := (wAt w.words 0).toNat + bits (wAt w.words 1).toNat 0 16 * 4294967296
def Work.regs (w : Work) : Nat := bits (wAt w.words 1).toNat 23 7
def Work.gpb (w : Work) : Nat := bits (wAt w.words 1).toNat 18 5
def Work.beats (w : Work) : Nat := bits (wAt w.words 1).toNat 16 2 + 1
def Work.chn (w : Work) : Bool := (wAt w.words 2).getLsbD 23
def Work.pair (w : Work) : Bool := (wAt w.words 2).getLsbD 22
def Work.drf (w : Work) : Bool := (wAt w.words 2).getLsbD 21
def Work.fused (w : Work) : Bool := (wAt w.words 2).getLsbD 20
def Work.prio (w : Work) : Nat := bits (wAt w.words 2).toNat 18 2
def Work.cls (w : Work) : Nat := bits (wAt w.words 2).toNat 16 2
def Work.foot (w : Work) : Nat := bits (wAt w.words 2).toNat 0 16 * 16
def Work.blocks (w : Work) : Nat := (wAt w.words 3).toNat * (wAt w.words 4).toNat * (wAt w.words 5).toNat
def Work.stabVa (w : Work) : Nat := pair48 (wAt w.words 6) (wAt w.words 7)
def Work.argp (w : Work) : Word := wAt w.words 8
def Work.ccnt (w : Work) : Nat := pair48 (wAt w.words 9) (wAt w.words 10)
def Work.pbase (w : Work) : Nat := pair48 (wAt w.words 11) (wAt w.words 12)
def Work.plim (w : Work) : Nat := (wAt w.words 13).toNat
def Work.dspill (w : Work) : Nat := (wAt w.words 14).toNat
def Work.ntw (w : Work) : Nat := bits (wAt w.words 15).toNat 8 16
def Work.isTask (w : Work) : Bool :=
  match w.src with
  | .task _ | .copy _ _ | .handler _ => true
  | _ => false

/-- Whether a work is a handler task (R362). -/
def Work.handler (w : Work) : Bool :=
  match w.src with
  | .handler _ => true
  | _ => false

/-- The window size of a group (R128): (plim + 64 + D) x W x 4 bytes rounded up to 128 B. -/
def winSize (plim d beats : Nat) : Nat := ((plim + 64 + d) * beats * 128 + 127) / 128 * 128

/-! ## Owners of a group -/

def State.workOf (s : State) (g : Group) : Work := s.work (s.unit g.unit).work
def State.keyOf (s : State) (g : Group) : Nat := ctxKey (s.workOf g).vf (s.workOf g).ctx

/-- The groups of a unit, in rising number. -/
def State.groupsOf (s : State) (u : Nat) : List (Nat × Group) := s.groups.filter fun p => p.2.unit = u

/-- The groups that hold a slot of a core; the stages of a folded chain share one (R155, R156). -/
def State.resident (s : State) (c : Nat) : List (Nat × Group) :=
  s.groups.filter fun p => p.2.core = c && p.2.st != .exited && !(s.unit p.2.unit).swapped

/-- Whether a unit is a chain in folded form (R201). -/
def UnitSt.foldedChain (u : UnitSt) : Bool :=
  match u.chain with
  | some ch => ch.folded
  | none => false

/-- Whether a unit is a chain in spread form (R201). -/
def UnitSt.spreadChain (u : UnitSt) : Bool := u.chain.isSome && !u.foldedChain

/-- Whether a group has a turn of its own: not a stage of a folded chain that is not running. -/
def State.onStage (s : State) (g : Group) : Bool :=
  match (s.unit g.unit).chain with
  | some ch => !ch.folded || ch.run = g.stage
  | none => true

/-! ## Barrier and claim lookups -/

/-- The armed barrier at an address (R187). -/
def UnitSt.bar? (u : UnitSt) (a : Nat) : Option Bar := u.bars.find? fun b => b.addr = a

/-- Whether the barrier at an address has left a token's phase, or is unarmed (R193). -/
def UnitSt.phaseLeft (u : UnitSt) (a : Nat) (tok : Word) : Bool :=
  match u.bar? a with
  | some b => 2 < (bits tok.toNat 0 3 + 8 - b.k % 8) % 8
  | none => true

/-- The lowest armed barrier with a byte in lo .. hi-1 (R191). -/
def UnitSt.barIn? (u : UnitSt) (lo hi : Nat) : Option Bar := u.bars.find? fun b => b.addr < hi && lo < b.addr + 16

/-- Whether a claim overlaps lo .. hi-1 (R186). -/
def UnitSt.claimed (u : UnitSt) (lo hi : Nat) : Bool := u.claims.any fun c => c.lo < hi && lo < c.hi

def UnitSt.setBar (u : UnitSt) (b : Bar) : UnitSt :=
  { u with bars := u.bars.map fun x => if x.addr = b.addr then b else x }

/-- Scratch bytes of a unit; an armed barrier's bytes read 0 (R182, R191). -/
def UnitSt.scrRead (u : UnitSt) (a n : Nat) : List Byte :=
  (List.range n).map fun i =>
    if (u.barIn? (a + i) (a + i + 1)).isSome then 0#8 else u.scr.getD (a + i) 0#8

/-- Scratch bytes written, but for an armed barrier's (R192). -/
def UnitSt.scrWrite (u : UnitSt) (a : Nat) (b : List Byte) : UnitSt :=
  { u with scr := b.zipIdx.foldl (fun m p =>
      if (u.barIn? (a + p.2) (a + p.2 + 1)).isSome then m else m.set (a + p.2) p.1) u.scr }

/-- The number under which a tile operation of a cluster's helm holds its claims (R241). -/
def tileOwner (id cl : Nat) : Nat := id * 1024 + cl

/-! ## Counters -/

/-- The value of a counter: the operations pending on it (R140, R141). -/
def Group.count (g : Group) (c : Ctr) : Nat := (g.ops.filter fun o => o.ctr = c).length

/-- The cells an operation still has to write (R142): its destination registers in the beats of its active lanes. -/
def Op.cells (o : Op) : List RCell :=
  match o.kind with
  | .load | .ldp | .ldx =>
    let n := sizeRegs (BitVec.ofNat 3 o.z)
    if o.vec then
      (List.range n).flatMap fun j => (List.range 3).filterMap fun b =>
        if (o.accs ++ o.todo.flatten).any (fun a => a.lane / 32 = b) then some (.vec (o.d + j) b) else none
    else if o.d = 56 then [] else (List.range n).map fun j => .scal (o.d + j)
  | .atom | .atomx => (List.range 3).filterMap fun b =>
      if (o.accs ++ o.todo.flatten).any (fun a => a.lane / 32 = b) then some (.vec o.d b) else none
  | .notice => if o.d = 56 then [] else if o.z = 5 then [.scal o.d, .scal (o.d + 1)] else [.scal o.d]
  | _ => []

/-- A counted operation as it issues, all of its beats accepted (R140). -/
def Op.new (ctr : Ctr) (kind : OpKind) (scope pol aop z d : Nat) (vec : Bool) (accs : List Acc) : Op :=
  ⟨ctr, kind, scope, pol, aop, z, d, vec, accs, [], false, [], 0, []⟩

/-- The cells of the group's present bank that an operation still has to write: s40-s47 belong to the bank in which it was issued
(R359). -/
def Group.cellsOf (g : Group) (o : Op) : List RCell :=
  if o.hdl = g.gst.getLsbD 28 then o.cells
  else o.cells.filter fun c => match c with
    | .scal n => n < 40
    | .vec _ _ => true

/-- Whether a cell has a pending variable-latency write (R142). -/
def Group.varPending (g : Group) (c : RCell) : Bool := g.ops.any fun o => (g.cellsOf o).contains c

end Sys2Proof.Machine
end

