-- ==== Sys2Proof/Machine/Float.lean ====
section
/-!
DEFINITION. Sys2Proof/Machine/Float.lean: the number formats (R100-R105), rounding, denormals, NaNs and flags
(R106-R114), and one lane of every float form (R81, R115-R126): exact values as sign, integer and power of two, rounded
once.
-/
namespace Sys2Proof.Machine

/-! ## Flags, in the bit order of [12:8] of the status word (R53) -/
def fNV : Nat := 16
def fDZ : Nat := 8
def fOF : Nat := 4
def fUF : Nat := 2
def fNX : Nat := 1

/-- Two sets of flags together. -/
def fOr (a b : Nat) : Nat := a ||| b

/-- A rounding mode (R107), or a stochastic draw with its width (R114). -/
inductive RM where
  | rne | rtz | rup | rdn | sr (rnd w : Nat)
  deriving DecidableEq, Repr

/-- The mode of a two-bit code (R53). -/
def RM.ofCode (n : Nat) : RM := if n = 0 then .rne else if n = 1 then .rtz else if n = 2 then .rup else .rdn

/-- A format: exponent bits, fraction bits, bias, largest finite code, code of infinity or of what stands in its place,
canonical NaN. -/
structure Fmt where
  eb : Nat
  mb : Nat
  bias : Int
  maxc : Nat
  infc : Nat
  nan : Nat
  deriving DecidableEq, Repr

def fmt32 : Fmt := ⟨8, 23, 127, 0x7F7FFFFF, 0x7F800000, 0x7FC00000⟩
def fmt16 : Fmt := ⟨5, 10, 15, 0x7BFF, 0x7C00, 0x7E00⟩
def fmtB16 : Fmt := ⟨8, 7, 127, 0x7F7F, 0x7F80, 0x7FC0⟩
def fmtE4 : Fmt := ⟨4, 3, 7, 0x7E, 0x7F, 0x7F⟩
def fmtE5 : Fmt := ⟨5, 2, 15, 0x7B, 0x7C, 0x7E⟩
def fmtE2 : Fmt := ⟨2, 1, 1, 0x7, 0x7, 0x0⟩

/-- The value of a code: NaN (signalling or not), infinity, or sign, integer and exponent (R100-R103). -/
inductive FVal where
  | nan (sig : Bool)
  | inf (neg : Bool)
  | fin (neg : Bool) (m : Nat) (e : Int)
  deriving DecidableEq, Repr

/-- The sign bit of a code. -/
def Fmt.neg (f : Fmt) (x : Nat) : Bool := x / 2 ^ (f.eb + f.mb) % 2 = 1

/-- The value a code of a format with finite magnitudes below infc stands for: 8-bit and 4-bit NaNs are quiet (R109). -/
def Fmt.val (f : Fmt) (x : Nat) : FVal :=
  let a := x % 2 ^ (f.eb + f.mb)
  let s := f.neg x
  if f.maxc < a then
    if f.infc = f.nan then .nan false
    else if a = f.infc then .inf s else .nan (15 ≤ f.eb + f.mb && a / 2 ^ (f.mb - 1) % 2 = 0)
  else if a < 2 ^ f.mb then .fin s a (1 - f.bias - f.mb)
  else .fin s (2 ^ f.mb + a % 2 ^ f.mb) (a / 2 ^ f.mb - f.bias - f.mb)

/-- Whether a code is a denormal. -/
def Fmt.isDen (f : Fmt) (x : Nat) : Bool :=
  let a := x % 2 ^ (f.eb + f.mb)
  a != 0 && a < 2 ^ f.mb

/-- A code read by a form: a denormal is replaced by a zero of its sign under dn (R108). -/
def Fmt.read (f : Fmt) (dn : Bool) (x : Nat) : FVal :=
  if dn && f.isDen x then .fin (f.neg x) 0 (1 - f.bias - f.mb) else f.val x

/-- The invalid flag of a signalling NaN that is read (R110). -/
def FVal.snan : FVal → Nat
  | .nan true => fNV
  | _ => 0

def FVal.isNan : FVal → Bool
  | .nan _ => true
  | _ => false

/-- The rounding environment: mode, flush of denormals, saturation. -/
structure FEnv where
  mode : RM
  dn   : Bool
  sat  : Bool
  deriving DecidableEq, Repr

/-- Whether a magnitude with remainder rem/den above an integer k is raised to k + 1 (R107, R114). -/
def RM.incr (r : RM) (neg odd : Bool) (rem den : Nat) : Bool :=
  match r with
  | .rne => den < 2 * rem || (2 * rem = den && odd)
  | .rtz => false
  | .rup => !neg && rem != 0
  | .rdn => neg && rem != 0
  | .sr rnd w => 2 ^ w ≤ rem * 2 ^ w / den + rnd % 2 ^ w

/-- An integer times a power of two in units of 2^q: quotient, remainder, divisor. -/
def quant (m : Nat) (e q : Int) : Nat × Nat × Nat :=
  if q ≤ e then (m * 2 ^ (e - q).toNat, 0, 1)
  else
    let d := 2 ^ (q - e).toNat
    (m / d, m % d, d)

/-- Rounds m * 2^e to a format with an unbounded range of codes: code of the magnitude, whether it was raised, tiny,
inexact (R107, R114). -/
def Fmt.round (f : Fmt) (r : RM) (neg : Bool) (m : Nat) (e : Int) : Nat × Bool × Bool × Bool :=
  if m = 0 then (0, false, false, false)
  else
    let E := e + (Nat.log2 m : Int)
    let qmin := 1 - f.bias - f.mb
    let q := max (E - f.mb) qmin
    let (k, rem, den) := quant m e q
    let up := r.incr neg (k % 2 = 1) rem den
    let code := (q - qmin).toNat * 2 ^ f.mb + k + (if up then 1 else 0)
    let (k0, r0, d0) := quant m e (E - f.mb)
    let k1 := k0 + (if r.incr neg (k0 % 2 = 1) r0 d0 then 1 else 0)
    let tiny := E + (if k1 = 2 ^ (f.mb + 1) then 1 else 0) < 1 - f.bias
    (code, up, tiny, rem != 0)

/-- Whether an overflow goes to infinity rather than to the largest finite value (R107, R114). -/
def RM.away (r : RM) (neg up : Bool) : Bool :=
  match r with
  | .rne => true
  | .rtz => false
  | .rup => !neg
  | .rdn => neg
  | .sr _ _ => up

/-- A code with its sign. -/
def Fmt.signed (f : Fmt) (neg : Bool) (a : Nat) : Nat := if neg then a + 2 ^ (f.eb + f.mb) else a

/-- The delivered result of an exact value and its flags (R107, R108, R110, R116). -/
def Fmt.deliver (f : Fmt) (v : FEnv) (neg : Bool) (m : Nat) (e : Int) : Nat × Nat :=
  let (c, up, tiny, nx) := f.round v.mode neg m e
  if f.maxc < c then
    (f.signed neg (if v.mode.away neg up && !v.sat then f.infc else f.maxc), fOr fOF fNX)
  else if v.dn && tiny then (f.signed neg 0, fOr fUF fNX)
  else (f.signed neg c, fOr (if tiny && nx then fUF else 0) (if nx then fNX else 0))

/-- The exact sum of signed terms: sign, integer, exponent; an exact zero takes its sign from the terms (R111). -/
def sumTerms (rdn : Bool) (ts : List (Bool × Nat × Int)) : Bool × Nat × Int :=
  let e := ts.foldl (fun a t => min a t.2.2) 100000
  let n := ts.foldl (fun (a : Int) t =>
    let x : Int := ((t.2.1 * 2 ^ (t.2.2 - e).toNat : Nat) : Int)
    if t.1 then a - x else a + x) 0
  if n = 0 then
    let z := if ts.all (fun t => t.2.1 = 0 && t.1) then true
             else if ts.all (fun t => t.2.1 = 0 && !t.1) then false else rdn
    (z, 0, e)
  else (n < 0, n.natAbs, e)

/-- Whether a mode rounds down, for the sign of an exact zero (R111). -/
def RM.isRdn (r : RM) : Bool := r = .rdn

/-- A sum of products and one addend, rounded once: products as pairs of values (R115, R119). -/
def Fmt.fused (f : Fmt) (v : FEnv) (scale : Int) (ps : List (FVal × FVal)) (acc : FVal) : Nat × Nat :=
  let sn := ps.foldl (fun a p => fOr a (fOr p.1.snan p.2.snan)) acc.snan
  let isZ := fun (x : FVal) => match x with
    | .fin _ 0 _ => true
    | _ => false
  let isI := fun (x : FVal) => match x with
    | .inf _ => true
    | _ => false
  let sg := fun (x : FVal) => match x with
    | .inf s => s
    | .fin s _ _ => s
    | .nan _ => false
  let inv := ps.any fun p => (isI p.1 && isZ p.2) || (isZ p.1 && isI p.2)
  let infs := (ps.filter fun p => isI p.1 || isI p.2).map (fun p => sg p.1 != sg p.2)
  let infs := match acc with
    | .inf s => s :: infs
    | _ => infs
  let nan := acc.isNan || ps.any fun p => p.1.isNan || p.2.isNan
  if nan then (f.nan, if inv && ps.length = 1 then fNV else sn)
  else if inv || (infs.contains true && infs.contains false) then (f.nan, fNV)
  else if infs != [] then (f.signed (infs.contains true) f.infc, 0)
  else
    let fin := fun (x : FVal) => match x with
      | .fin s m e => (s, m, e)
      | _ => (false, 0, 0)
    let ts := ps.map fun p =>
      let a := fin p.1
      let b := fin p.2
      (a.1 != b.1, a.2.1 * b.2.1, a.2.2 + b.2.2 + scale)
    let t := sumTerms v.mode.isRdn (fin acc :: ts)
    f.deliver v t.1 t.2.1 t.2.2

/-- The value 1. -/
def fOne : FVal := .fin false 1 0

/-- a + b (R115). -/
def Fmt.add (f : Fmt) (v : FEnv) (a b : Nat) : Nat × Nat := f.fused v 0 [(f.read v.dn a, fOne)] (f.read v.dn b)

/-- a - b (R115): b's sign is inverted. -/
def Fmt.sub (f : Fmt) (v : FEnv) (a b : Nat) : Nat × Nat :=
  let nb := match f.read v.dn b with
    | .nan q => FVal.nan q
    | .inf s => .inf (!s)
    | .fin s m e => .fin (!s) m e
  f.fused v 0 [(f.read v.dn a, fOne)] nb

/-- a * b (R115): the sign of a zero product is the exclusive or of the signs. -/
def Fmt.mul (f : Fmt) (v : FEnv) (a b : Nat) : Nat × Nat :=
  let x := f.read v.dn a
  let y := f.read v.dn b
  let s := match x, y with
    | .fin s _ _, .fin t _ _ => s != t
    | _, _ => false
  f.fused v 0 [(x, y)] (.fin s 0 0)

/-- a * b + c with one rounding (R115). -/
def Fmt.fma (f : Fmt) (v : FEnv) (a b c : Nat) : Nat × Nat :=
  f.fused v 0 [(f.read v.dn a, f.read v.dn b)] (f.read v.dn c)

/-- Order of two finite or infinite values: -0 below +0. -/
def FVal.key : FVal → Bool × Nat × Int
  | .nan _ => (false, 0, 0)
  | .inf s => (s, 1, 100000)
  | .fin s m e => (s, m, e)

/-- Whether |x| < |y| for non-NaN values. -/
def FVal.absLt (x y : FVal) : Bool :=
  match x, y with
  | .inf _, _ => false
  | .fin _ _ _, .inf _ => true
  | .fin _ m e, .fin _ n d =>
    let q := min e d
    m * 2 ^ (e - q).toNat < n * 2 ^ (d - q).toNat
  | _, _ => false

def FVal.isZero : FVal → Bool
  | .fin _ 0 _ => true
  | _ => false

/-- Whether x < y as numbers, zeros equal (R81). -/
def FVal.lt (x y : FVal) : Bool :=
  if x.isZero && y.isZero then false
  else
    match x.key.1, y.key.1 with
    | true, false => true
    | false, true => x.isZero && false
    | false, false => x.absLt y
    | true, true => y.absLt x

/-- A zero code of a format for a flushed denormal, else the code itself. -/
def Fmt.flush (f : Fmt) (dn : Bool) (x : Nat) : Nat := if dn && f.isDen x then f.signed (f.neg x) 0 else x

/-- Minimum or maximum, -0 below +0 (R109, R115). -/
def Fmt.minmax (f : Fmt) (max? : Bool) (dn : Bool) (a b : Nat) : Nat × Nat :=
  let x := f.read dn a
  let y := f.read dn b
  if x.isNan || y.isNan then (f.nan, fOr x.snan y.snan)
  else
    let aLess := x.lt y || (x.isZero && y.isZero && f.neg a)
    (f.flush dn (if aLess != max? then a else b), 0)

/-- a * 2^n (R115). -/
def ldexp32 (v : FEnv) (a : Nat) (n : Int) : Nat × Nat :=
  match fmt32.read v.dn a with
  | .nan q => (fmt32.nan, if q then fNV else 0)
  | .inf s => (fmt32.signed s fmt32.infc, 0)
  | .fin s 0 _ => (fmt32.signed s 0, 0)
  | .fin s m e => fmt32.deliver v s m (e + max (-1000) (min 1000 n))

/-- A float compare under condition cc (R81): whether it holds, and its flags. -/
def Fmt.cmp (f : Fmt) (dn : Bool) (cc : Nat) (a b : Nat) : Bool × Nat :=
  let x := f.read dn a
  let y := f.read dn b
  let sn := fOr x.snan y.snan
  if x.isNan || y.isNan then
    (cc = 1 || cc = 7, if 2 ≤ cc && cc ≤ 5 then fNV else sn)
  else
    let lt := x.lt y
    let gt := y.lt x
    (match cc with
      | 0 => !lt && !gt
      | 1 => lt || gt
      | 2 => lt
      | 3 => !gt
      | 4 => gt
      | 5 => !lt
      | 6 => true
      | _ => false, 0)

/-! ## Conversions (R121-R123) -/

/-- A code widened to f32, exactly (R121). -/
def Fmt.widen (f : Fmt) (dn : Bool) (x : Nat) : Nat × Nat :=
  match f.read dn x with
  | .nan q => (fmt32.nan, if q then fNV else 0)
  | .inf s => (fmt32.signed s fmt32.infc, 0)
  | .fin s m e => fmt32.deliver ⟨.rne, false, false⟩ s m e

/-- An f32 narrowed to a format (R122). -/
def Fmt.narrow (f : Fmt) (v : FEnv) (x : Nat) : Nat × Nat :=
  match fmt32.read v.dn x with
  | .nan q => (f.nan, if f = fmtE2 || q then fNV else 0)
  | .inf s =>
    if f = fmtE2 then (f.signed s f.maxc, fNV)
    else if f = fmtE4 then (f.signed s (if v.sat then f.maxc else f.infc), fNV)
    else if f = fmtE5 && v.sat then (f.signed s f.maxc, fNV)
    else (f.signed s f.infc, 0)
  | .fin s m e => f.deliver { v with dn := v.dn && (f = fmt16 || f = fmtB16) } s m e

/-- An f32 rounded to an integer, with the range lo .. hi and the results outside it (R123). -/
def toInt32 (v : FEnv) (lo hi : Int) (x : Nat) : Word × Nat :=
  let bad := if lo = 0 then 0#32 else 0x80000000#32
  match fmt32.read v.dn x with
  | .nan _ => (if v.sat then 0#32 else bad, fNV)
  | .inf s => (if v.sat then BitVec.ofInt 32 (if s then lo else hi) else bad, fNV)
  | .fin s m e =>
    let (k, rem, den) := quant m (min e 64) 0
    let k := k + (if v.mode.incr s (k % 2 = 1) rem den then 1 else 0)
    let n : Int := if s then - (k : Int) else k
    if n < lo then (if v.sat then BitVec.ofInt 32 lo else bad, fNV)
    else if hi < n then (if v.sat then BitVec.ofInt 32 hi else bad, fNV)
    else (BitVec.ofInt 32 n, if rem = 0 then 0 else fNX)

/-- An integer rounded to f32 (R123). -/
def ofInt32 (v : FEnv) (n : Int) : Nat × Nat := fmt32.deliver v (n < 0) n.natAbs 0

/-! ## Special functions (R124): the exact value to more bits than any rounding needs, then one rounding -/

/-- The integer square root, by bits from 2^n down. -/
def isqrtBits : Nat → Nat → Nat → Nat
  | 0, _, r => r
  | n + 1, x, r =>
    let t := r + 2 ^ n
    isqrtBits n x (if t * t ≤ x then t else r)

/-- The floor of the square root. -/
def isqrt (x : Nat) : Nat := isqrtBits (Nat.log2 x / 2 + 1) x 0

/-- The bits the fixed-point constants carry. -/
def fixBits : Nat := 448
/-- floor(pi * 2^448). -/
def fixPi : Nat := 0x3243f6a8885a308d313198a2e03707344a4093822299f31d0082efa98ec4e6c89452821e638d01377be5466cf34e90c6cc0ac29b7c97c50dd
/-- floor(ln 2 * 2^448). -/
def fixLn2 : Nat := 0xb17217f7d1cf79abc9e3b39803f2f6af40f343267298b62d8a0d175b8baafa2be7b876206debac98559552fb4afa1b10ed2eae35c1382144

/-- The exponential series at r / 2^s: n terms from term t number k. -/
def expSeries : Nat → Nat → Nat → Nat → Nat → Nat
  | 0, _, _, _, acc => acc
  | n + 1, s, r, k, acc => acc + expTerm n s r k (2 ^ s)
where
  /-- the sum of the terms after t -/
  expTerm : Nat → Nat → Nat → Nat → Nat → Nat
    | 0, _, _, _, _ => 0
    | n + 1, s, r, k, t =>
      let u := t * r / 2 ^ s / k
      u + expTerm n s r (k + 1) u

/-- exp(r / 2^s) * 2^s for 0 <= r < 2^s. -/
def expFix (s r : Nat) : Nat := expSeries 100 s r 1 (2 ^ s)

/-- The alternating series of sine (k = 1) or cosine (k = 0) at r / 2^s. -/
def trigSeries : Nat → Nat → Nat → Nat → Int → Int → Int
  | 0, _, _, _, _, acc => acc
  | n + 1, s, r2, k, t, acc =>
    trigSeries n s r2 (k + 2) (-(t * r2 / 2 ^ s / ((k + 1) * (k + 2)))) (acc + t)

/-- 2^f for a fraction f = n / 2^d, times 2^s. -/
def exp2Frac (s n d : Nat) : Nat := expFix s (fixLn2 * n / 2 ^ (fixBits + d - s))

/-- The fraction bits of log2 of y / 2^s in [1, 2): n bits, appended to acc. -/
def log2Bits : Nat → Nat → Nat → Nat → Nat
  | 0, _, _, acc => acc
  | n + 1, s, y, acc =>
    let z := y * y / 2 ^ s
    if 2 ^ (s + 1) ≤ z then log2Bits n s (z / 2) (2 * acc + 1) else log2Bits n s z (2 * acc)

/-- An f32 rounded from an inexact magnitude slightly above m * 2^e. -/
def near32 (dn : Bool) (neg : Bool) (m : Nat) (e : Int) : Nat × Nat :=
  fmt32.deliver ⟨.rne, dn, false⟩ neg (2 * m + 1) (e - 1)

/-- An exact f32 value delivered. -/
def exact32 (dn : Bool) (neg : Bool) (m : Nat) (e : Int) : Nat × Nat := fmt32.deliver ⟨.rne, dn, false⟩ neg m e

/-- rcp (R124). -/
def sfuRcp (dn : Bool) (x : Nat) : Nat × Nat :=
  match fmt32.read dn x with
  | .nan q => (fmt32.nan, if q then fNV else 0)
  | .inf s => (fmt32.signed s 0, 0)
  | .fin s 0 _ => (fmt32.signed s fmt32.infc, fDZ)
  | .fin s m e =>
    let K := Nat.log2 m + 60
    let n := 2 ^ K / m
    if n * m = 2 ^ K then exact32 dn s n (-(K : Int) - e) else near32 dn s n (-(K : Int) - e)

/-- rsq (R124). -/
def sfuRsq (dn : Bool) (x : Nat) : Nat × Nat :=
  match fmt32.read dn x with
  | .nan q => (fmt32.nan, if q then fNV else 0)
  | .inf s => if s then (fmt32.nan, fNV) else (0, 0)
  | .fin s 0 _ => (fmt32.signed s fmt32.infc, fDZ)
  | .fin s m e =>
    if s then (fmt32.nan, fNV)
    else
      let (m, e) := if e % 2 = 0 then (m, e) else (2 * m, e - 1)
      let K := Nat.log2 m + 60
      let n := isqrt (2 ^ (2 * K) / m)
      if n * n * m = 2 ^ (2 * K) then exact32 dn false n (-(K : Int) - e / 2) else near32 dn false n (-(K : Int) - e / 2)

/-- sqrt (R124). -/
def sfuSqrt (dn : Bool) (x : Nat) : Nat × Nat :=
  match fmt32.read dn x with
  | .nan q => (fmt32.nan, if q then fNV else 0)
  | .inf s => if s then (fmt32.nan, fNV) else (fmt32.infc, 0)
  | .fin s 0 _ => (fmt32.signed s 0, 0)
  | .fin s m e =>
    if s then (fmt32.nan, fNV)
    else
      let (m, e) := if e % 2 = 0 then (m, e) else (2 * m, e - 1)
      let y := m * 2 ^ 80
      let n := isqrt y
      if n * n = y then exact32 dn false n (e / 2 - 40) else near32 dn false n (e / 2 - 40)

/-- exp2 (R124). -/
def sfuExp2 (dn : Bool) (x : Nat) : Nat × Nat :=
  match fmt32.read dn x with
  | .nan q => (fmt32.nan, if q then fNV else 0)
  | .inf s => (if s then 0 else fmt32.infc, 0)
  | .fin s m e =>
    if 2 ^ 10 ≤ m * 2 ^ (max e 0).toNat / 2 ^ (-(min e 0)).toNat then
      exact32 dn false 1 (if s then -1000 else 1000)
    else if 0 ≤ e then exact32 dn false 1 (if s then -((m * 2 ^ e.toNat : Nat) : Int) else ((m * 2 ^ e.toNat : Nat) : Int))
    else
      let d := (-e).toNat
      let i := m / 2 ^ d
      let f := m % 2 ^ d
      if f = 0 then exact32 dn false 1 (if s then -(i : Int) else i)
      else if s then near32 dn false (exp2Frac 256 (2 ^ d - f) d) (-(i : Int) - 1 - 256)
      else near32 dn false (exp2Frac 256 f d) ((i : Int) - 256)

/-- log2 (R124). -/
def sfuLog2 (dn : Bool) (x : Nat) : Nat × Nat :=
  match fmt32.read dn x with
  | .nan q => (fmt32.nan, if q then fNV else 0)
  | .inf s => if s then (fmt32.nan, fNV) else (fmt32.infc, 0)
  | .fin _ 0 _ => (fmt32.signed true fmt32.infc, fDZ)
  | .fin s m e =>
    if s then (fmt32.nan, fNV)
    else
      let k := Nat.log2 m
      let E := e + (k : Int)
      if m = 2 ^ k then exact32 dn (E < 0) E.natAbs 0
      else
        let f := log2Bits 140 400 (m * 2 ^ (400 - k)) 0
        if 0 ≤ E then near32 dn false (E.toNat * 2 ^ 140 + f) (-140)
        else near32 dn true ((-E).toNat * 2 ^ 140 - f - 1) (-140)

/-- sin or cos of (pi/2) u, u = n / 2^d in (0, 1/2], to 200 bits beyond its leading bit. -/
def trigQuarter (cos? : Bool) (n d : Nat) : Nat × Nat :=
  let s := 200 + d - Nat.log2 n
  let r := fixPi * n * 2 ^ s / 2 ^ (fixBits + d + 1)
  let r2 : Int := ((r * r / 2 ^ s : Nat) : Int)
  let v := if cos? then trigSeries 40 s r2.toNat 0 ((2 ^ s : Nat) : Int) 0 else trigSeries 40 s r2.toNat 1 (r : Int) 0
  (v.toNat, s)

/-- sin2pi (c = 0) and cos2pi (c = 1) (R124): the argument in quarters of a turn, exactly. -/
def sfuTrig (c : Nat) (dn : Bool) (x : Nat) : Nat × Nat :=
  match fmt32.read dn x with
  | .nan q => (fmt32.nan, if q then fNV else 0)
  | .inf _ => (fmt32.nan, fNV)
  | .fin s m e =>
    let d := (2 - min (e + 2) 2).toNat
    let t := m * 2 ^ (e + 2 + d).toNat
    let q := (t / 2 ^ d + c) % 4
    let n := t % 2 ^ d
    let neg := (s && c = 0) != (2 ≤ q)
    if n = 0 then
      if q % 2 = 0 then (fmt32.signed (s && c = 0) 0, 0) else exact32 dn neg 1 0
    else
      let cos? : Bool := decide (q % 2 = 1)
      let (u, cos?) := if 2 * n ≤ 2 ^ d then (n, cos?) else (2 ^ d - n, !cos?)
      let r := trigQuarter cos? u d
      near32 dn neg r.1 (-(r.2 : Int))

/-- exp(-|a|) * 2^400 of a finite magnitude capped at 160. -/
def expNeg (m : Nat) (e : Int) : Nat :=
  let a := min (if 0 ≤ e then m * 2 ^ (400 + min e 20).toNat else m * 2 ^ 400 / 2 ^ (-e).toNat) (160 * 2 ^ 400)
  let y := a * 2 ^ fixBits / fixLn2
  let i := y / 2 ^ 400
  let f := y % 2 ^ 400
  if f = 0 then 2 ^ 400 / 2 ^ i else expFix 400 (fixLn2 * (2 ^ 400 - f) / 2 ^ fixBits) / 2 ^ (i + 1)

/-- tanh (R124). -/
def sfuTanh (dn : Bool) (x : Nat) : Nat × Nat :=
  match fmt32.read dn x with
  | .nan q => (fmt32.nan, if q then fNV else 0)
  | .inf s => (fmt32.signed s 0x3F800000, 0)
  | .fin s 0 _ => (fmt32.signed s 0, 0)
  | .fin s m e =>
    if e + (Nat.log2 m : Int) < -14 then near32 dn s (m * 2 ^ 60 - 1) (e - 60)
    else
      let E := expNeg m (e + 1)
      near32 dn s ((2 ^ 400 - E) * 2 ^ 200 / (2 ^ 400 + E)) (-200)

/-- sigm (R124). -/
def sfuSigm (dn : Bool) (x : Nat) : Nat × Nat :=
  match fmt32.read dn x with
  | .nan q => (fmt32.nan, if q then fNV else 0)
  | .inf s => (if s then 0 else 0x3F800000, 0)
  | .fin _ 0 _ => (0x3F000000, 0)
  | .fin s m e =>
    let E := expNeg m e
    if s then near32 dn false (E * 2 ^ 400 / (2 ^ 400 + E)) (-400)
    else near32 dn false (2 ^ 800 / (2 ^ 400 + E)) (-400)

/-! ## Additions outside gst: atomics, reductions, matrix and exponent engines -/

/-- One binary32 addition under RNE with denormals kept and no flag (R184, R270). -/
def addPlain32 (a b : Word) : Word := toW (fmt32.add ⟨.rne, false, false⟩ a.toNat b.toNat).1
def mulPlain32 (a b : Word) : Word := toW (fmt32.mul ⟨.rne, false, false⟩ a.toNat b.toNat).1
def subPlain32 (a b : Word) : Word := toW (fmt32.sub ⟨.rne, false, false⟩ a.toNat b.toNat).1
def maxPlain32 (a b : Word) : Word := toW (fmt32.minmax true false a.toNat b.toNat).1

/-- Each half a bfloat16 addition under RNE (R272). -/
def addPlainB16 (a b : Word) : Word :=
  let h := fun lo => (fmtB16.add ⟨.rne, false, false⟩ (bits a.toNat lo 16) (bits b.toNat lo 16)).1
  toW (h 0 + h 16 * 65536)

/-- The new value of an atomic form: old value, operand, second operand of cas (R270, R272). -/
def aopApply (aop : Nat) (old x y : Word) : Word :=
  match aop with
  | 0 => old + x
  | 1 => addPlain32 old x
  | 2 => if old.slt x then old else x
  | 3 => if old.slt x then x else old
  | 4 => if old.ult x then old else x
  | 5 => if old.ult x then x else old
  | 6 => old &&& x
  | 7 => old ||| x
  | 8 => old ^^^ x
  | 9 => x
  | 10 => if old = x then y else old
  | _ => addPlainB16 old x

/-- The delta an update-only word starts with: a NaN is entered as the canonical NaN of its type (R273). -/
def aopEnter (aop : Nat) (x : Word) : Word :=
  if aop = 1 then
    (match fmt32.val x.toNat with
      | .nan _ => toW fmt32.nan
      | _ => x)
  else if aop = 11 then
    let h := fun lo =>
      match fmtB16.val (bits x.toNat lo 16) with
      | .nan _ => fmtB16.nan
      | _ => bits x.toNat lo 16
    toW (h 0 + h 16 * 65536)
  else x

/-- The 64-bit value a notice operation leaves (R278). -/
def noticeApply (op : Nat) (old x y : BitVec 64) : BitVec 64 :=
  match op with
  | 0 => old + x
  | 1 => old &&& x
  | 2 => old ||| x
  | 3 => old ^^^ x
  | 4 => x
  | 5 => if old.slt x then old else x
  | 6 => if old.slt x then x else old
  | 7 => if old.ult x then old else x
  | 8 => if old.ult x then x else old
  | _ => if old = x then y else old

/-! ## Quantisation (R125) -/

/-- Whether a/2^k <= M for a finite magnitude m * 2^e. -/
def leScaled (m : Nat) (e k : Int) (M : Nat) : Bool :=
  if 0 ≤ e - k then m * 2 ^ (e - k).toNat ≤ M else m ≤ M * 2 ^ (k - e).toNat

/-- The smallest k in start .. with a/2^k <= M, searched upward. -/
def smallestK : Nat → Int → Nat → Int → Nat → Int
  | 0, k, _, _, _ => k
  | n + 1, k, m, e, M => if leScaled m e k M then k else smallestK n (k + 1) m e M

/-- The scale exponent of a block with greatest magnitude m * 2^e (m not 0), before the clamp (R125, R255). -/
def blockK (m : Nat) (e : Int) (M : Nat) : Int :=
  smallestK 4 (e + (Nat.log2 m : Int) - (Nat.log2 M : Int) - 1) m e M

/-- A value m * 2^e rounded to an integer and clamped to M in magnitude: magnitude, inexact. -/
def roundInt (r : RM) (neg : Bool) (m : Nat) (e : Int) (M : Nat) : Nat × Bool :=
  let (k, rem, den) := quant m (min e 64) 0
  let k := k + (if r.incr neg (k % 2 = 1) rem den then 1 else 0)
  (min k M, rem != 0 || M < k)

end Sys2Proof.Machine
end

