-- ==== Sys2Proof/Machine/Home.lean ====
section
/-!
DEFINITION. Sys2Proof/Machine/Home.lean: the L1s, the homes and their directory: recalls, combinations, writes performed
at a home, draft copies, helped lines and poisoned bytes (R213-R216, R265-R275, R282, R285, R291, R392).
-/
namespace Sys2Proof.Machine

/-! ## Regions (R265, R317, R402) -/

/-- Outer memory and the fabric window. -/
def outerPa (pa : Nat) : Bool := 0x8000000000000 ≤ pa && pa < 0x10000000000000
def windowPa (pa : Nat) : Bool := 0x4000000000000 ≤ pa && pa < 0x8000000000000
def sramPa (pa : Nat) : Bool := 0x10000000000 ≤ pa && pa < 0x10400000000
def lpddrPa (pa : Nat) : Bool := pa < 0x10000000000 && pa % 0x2000000000 < 0x1800000000

/-- The home die of a physical address (R265, R317). -/
def homeDie (pa : Nat) : Nat :=
  if sramPa pa then bits pa 31 3
  else if outerPa pa then natXor (bits pa 12 3) (bits pa 15 3)
  else bits pa 37 3

/-- The slice of the home die (R265). -/
def homeSlice (pa : Nat) : Nat := natXor (bits pa 7 6) (bits pa 13 6)

/-- The state page pool of a die, as a range of its near SRAM (R412). -/
def State.poolRange (s : State) (d : Nat) : Nat × Nat :=
  let top := 0x10000000000 + (d + 1) * 0x80000000 - (if d = 0 then 0x4000000 else 0)
  (top - (s.die d).pool * 0x200000, top)

/-- Whether n addresses from an address lie in one region a stage-2 leaf may map, outside every state page pool (R312, R317, R402,
R412); a leaf's range is aligned to its size. -/
def State.mappable (s : State) (pa n : Nat) : Bool :=
  let z := pa + n - 1
  (lpddrPa pa && lpddrPa z) || (outerPa pa && outerPa z) || (windowPa pa && windowPa z) ||
    (sramPa pa && sramPa z && (List.range 8).all fun d =>
      let r := s.poolRange d
      r.1 = r.2 || z < r.1 || r.2 ≤ pa)

/-- The firmware carve-out, a secure region (R389). -/
def carveOut (pa : Nat) : Bool := 0x1007C000000 ≤ pa && pa < 0x10080000000

/-! ## Lines of an L1 (R213-R216) -/

/-- The L1 that holds a line for a core: its own, or the slice of the line in fused mode (R216). -/
def State.l1For (s : State) (core pa : Nat) : Nat :=
  if (s.cluster (coreCl core)).fused then coreCl core * 4 + natXor (bits pa 7 2) (bits pa 15 2) else core

/-- A mask of n bits from bit lo. -/
def spanMask (w lo n : Nat) : BitVec w := BitVec.ofNat w ((2 ^ n - 1) * 2 ^ lo)

/-- The words of a line that bytes lo .. lo+n-1 touch (R214). -/
def wordsMask (lo n : Nat) : BitVec 32 := if n = 0 then 0#32 else spanMask 32 (lo / 4) ((lo + n - 1) / 4 - lo / 4 + 1)

/-- The span of bytes lo .. lo+n-1 of a line: first word and word count (R214). -/
def spanOfBytes (lo n : Nat) : Nat × Nat := if n = 0 then (lo / 4, 0) else (lo / 4, (lo + n - 1) / 4 - lo / 4 + 1)

/-- The words of some spans. -/
def spanWords (l : List (Nat × Nat)) : BitVec 32 := l.foldl (fun m p => m ||| spanMask 32 p.1 p.2) 0#32

/-- The valid words of an L1 line: those of its spans (R214). -/
def L1Line.valid (l : L1Line) : BitVec 32 := spanWords l.spans

/-- An L1 line that holds nothing. -/
def L1Line.blank (core line : Nat) : L1Line := ⟨core, line, [], 0#128, List.replicate 128 0#8, 0#128, [], [], []⟩

/-- Whether an L1 line still holds anything. -/
def L1Line.live (l : L1Line) : Bool := l.spans != [] || l.dirty != 0#128 || l.upd != []

def State.l1At (s : State) (core line : Nat) : L1Line :=
  (s.l1.find? fun l => l.core = core && l.line = line).getD (L1Line.blank core line)

/-- The L1 line replaced; one that holds nothing is dropped. -/
def State.putL1 (s : State) (x : L1Line) : State :=
  let rest := s.l1.filter fun l => !(l.core = x.core && l.line = x.line)
  { s with l1 := if x.live then rest ++ [x] else rest }

/-- The byte an L1 line holds at offset i, where it holds one: a dirty byte, or a byte of a valid word. -/
def L1Line.byte? (l : L1Line) (i : Nat) : Option Byte :=
  if l.dirty.getLsbD i || l.valid.getLsbD (i / 4) then some (l.bytes.getD i 0#8) else none

/-- The byte a core's cluster sees at a physical address without going to the home: its own L1, then a dirty byte of a
cluster mate (R215, R222). -/
def State.l1Byte? (s : State) (core pa : Nat) : Option Byte :=
  let o := s.l1For core pa
  match (s.l1At o (pa / 128)).byte? (pa % 128) with
  | some b => some b
  | none =>
    ((s.l1.find? fun l => l.core / 4 = core / 4 && l.line = pa / 128 && l.dirty.getLsbD (pa % 128))).map
      fun l => l.bytes.getD (pa % 128) 0#8

/-- Whether the byte that l1Byte? answers came with an uncorrectable error: a dirty byte never did (R139, R291). -/
def State.l1Bad (s : State) (core pa : Nat) : Bool :=
  let l := s.l1At (s.l1For core pa) (pa / 128)
  (l.byte? (pa % 128)).isSome && !l.dirty.getLsbD (pa % 128) && l.bad.getLsbD (pa % 128)

/-! ## The L2 (R265, R292) -/

/-- The set of its home slice that a line falls into: home die, slice, set (R265). -/
def l2SetOf (line : Nat) : Nat × Nat × Nat :=
  (homeDie (line * 128), homeSlice (line * 128), Config.l2Set line % Config.l2Sets)

/-- Whether two lines fall into one set. -/
def sameSet (a b : Nat) : Bool := a = b || l2SetOf a = l2SetOf b

/-- The L2 ways of a line's set that draft copies take (R286). -/
def State.draftWays (s : State) (line : Nat) : Nat := (s.drafts.filter fun x => sameSet x.line line).length

/-- The slice of a line's home, numbered over the package (R265). -/
def sliceOf (line : Nat) : Nat := homeDie (line * 128) * Config.l2Slices + homeSlice (line * 128)

/-- Whether a slice, numbered over the package, holds a dirty line of a VF, a draft copy among them: its register bit (R292). -/
def State.sliceDirty (s : State) (k vf : Nat) : Bool :=
  (s.l2.any fun x => x.dirty && x.vfs.contains vf && sliceOf x.line = k) ||
    s.drafts.any fun x => x.vfas.any (fun v => v.1 = vf) && sliceOf x.line = k

/-- A line leaves the L2; the bytes of a dirty one are those of memory. -/
def State.l2Drop (s : State) (line : Nat) : State := { s with l2 := s.l2.filter fun x => x.line != line }

/-- The L2 with room for a line in its set: where every way is taken, one of its lines leaves, by a free value (DESIGN CHOICE, log
112). -/
def State.l2Room (s : State) (line : Nat) : List L2Line :=
  let w := s.l2.filter fun x => sameSet x.line line
  if w.length + s.draftWays line < Config.l2Ways then s.l2
  else match w[(Config.freeWord (s.free * 65536 + 65520)).toNat % w.length]? with
    | some v => s.l2.filter fun x => x.line != v.line
    | none => s.l2

/-- The bytes of a line under a mask of byte addresses. -/
def byteMask (l : List Nat) (line : Nat) : BitVec 128 :=
  (List.range 128).foldl (fun (m : BitVec 128) i => if l.contains (line * 128 + i) then m ||| spanMask 128 i 1 else m) 0#128

/-- A line as it becomes dirty in the L2: its tier keeps what memory holds now. -/
def State.l2Dirty (s : State) (line : Nat) : L2Line :=
  ⟨line, true, [], s.mem.bytes (line * 128) 128, byteMask s.poison line, s.helped.contains line⟩

/-- The L2 after an access of a line at its home: it holds the line (R265), dirty for a VF from a write on; its tier keeps what it
held. -/
def State.l2After (s : State) (line : Nat) (write : Bool) (vf : Option Nat) : List L2Line :=
  match s.l2.find? fun x => x.line = line with
  | some x =>
    if !write then s.l2
    else
      let y := if x.dirty then x else s.l2Dirty line
      let z := match vf with
        | some v => if y.vfs.contains v then y else { y with vfs := v :: y.vfs }
        | none => y
      s.l2.map fun w => if w.line = line then z else w
  | none => s.l2Room line ++ [if write then { s.l2Dirty line with vfs := vf.toList } else ⟨line, false, [], [], 0#128, false⟩]

/-- An access of a line at its home. -/
def State.l2Touch (s : State) (line : Nat) (write : Bool) (vf : Option Nat) : State := { s with l2 := s.l2After line write vf }

/-! ## The directory (R266) -/

def State.dirOf (s : State) (line : Nat) : DirLine := s.dir.getD line ⟨[], [], false, 0#8⟩

/-- Whether any L1 holds anything of a line. -/
def State.cached (s : State) (line : Nat) : Bool := s.l1.any fun l => l.line = line

/-- The directory entry replaced: a line that no L1 holds a span of and none claims has none (R266). -/
def State.putDir (s : State) (line : Nat) (d : DirLine) : State :=
  if d.recs = [] && d.claims = [] && !s.cached line then { s with dir := s.dir.del line } else { s with dir := s.dir.set line d }

/-- The smallest span that holds two. -/
def hull (p q : Nat × Nat) : Nat × Nat :=
  if p.2 = 0 then q else if q.2 = 0 then p else (min p.1 q.1, max (p.1 + p.2) (q.1 + q.2) - min p.1 q.1)

/-- A sharer recorded, with the hull of its spans; a fifth copy overflows the line (R266). -/
def DirLine.share (d : DirLine) (core : Nat) (sp : Nat × Nat) (dirty : Bool) : DirLine :=
  let die : BitVec 8 := BitVec.ofNat 8 (2 ^ (core / 384))
  if d.recs.any fun r => r.core = core then
    { d with recs := d.recs.map fun r =>
        if r.core = core then
          let h := hull (r.first, r.count) sp
          ⟨r.cl, r.core, h.1, h.2, r.dirty || dirty⟩
        else r
             dies := if d.ovf then d.dies ||| die else d.dies }
  else if d.recs.length < Config.sharers then
    { d with recs := d.recs ++ [⟨core / 4, core, sp.1, sp.2, dirty⟩], dies := if d.ovf then d.dies ||| die else d.dies }
  else
    { d with ovf := true, dies := d.dies ||| d.recs.foldl (fun m r => m ||| BitVec.ofNat 8 (2 ^ (r.core / 384))) die }

/-- A claim or a fill of a span recorded at the home, in the order it arrives (R266, R268). -/
def State.record (s : State) (core line : Nat) (sp : Nat × Nat) (dirty : Bool) : State :=
  let d := (s.dirOf line).share core sp dirty
  s.putDir line { d with claims := if dirty then d.claims ++ [(core, sp)] else d.claims }

/-- The words that a mask of bytes touches. -/
def wordsOf (d : BitVec 128) : BitVec 32 :=
  (List.range 32).foldl (fun (m : BitVec 32) i => if d &&& spanMask 128 (4 * i) 4 != 0#128 then m ||| spanMask 32 i 1 else m) 0#32

/-- The claims of an L1 after the words w of its line have been merged, invalidated or given up: of a claim that overlaps them the
words still dirty stay (R266, R268). -/
def trimClaims (core : Nat) (dirty w : BitVec 32) (l : List (Nat × Nat × Nat)) : List (Nat × Nat × Nat) :=
  l.flatMap fun c =>
    if c.1 = core && spanMask 32 c.2.1 c.2.2 &&& w != 0#32 then
      (List.range 32).filterMap fun i => if (spanMask 32 c.2.1 c.2.2 &&& dirty).getLsbD i then some (core, i, 1) else none
    else [c]

/-- The record of an L1 brought up to date after the words w of its line have been merged, invalidated or given up: its claims on
them are spent, and its record is gone once it holds and claims nothing of the line, clean once it holds no dirty byte (R266). -/
def State.unrecord (s : State) (core line : Nat) (w : BitVec 32) : State :=
  let d := s.dirOf line
  let l := s.l1At core line
  let cs := trimClaims core (wordsOf l.dirty) w d.claims
  let mine := cs.any fun c => c.1 = core
  s.putDir line { d with
    claims := cs
    recs := if !l.live && !mine then d.recs.filter fun r => r.core != core
      else if l.dirty = 0#128 && !mine then d.recs.map fun r => if r.core = core then { r with dirty := false } else r
      else d.recs }

/-- The L1s that hold a line, those with a record in the order of their records, then the others. -/
def State.holders (s : State) (line : Nat) : List Nat :=
  let cs := (s.l1.filter fun l => l.line = line).map (·.core)
  let rs := (s.dirOf line).recs.map (·.core)
  (rs.filter cs.contains) ++ (cs.filter fun c => !rs.contains c)

/-! ## Recalls and combinations (R267, R268, R274) -/

/-- The overlapping spans of every L1 but the excepted ones invalidated (R267): spans that do not overlap the words stay valid. -/
def State.invalidate (s : State) (line : Nat) (w : BitVec 32) (except : Nat → Bool) : State :=
  (s.holders line).foldl (fun s c =>
    if except c then s
    else
      let l := s.l1At c line
      (s.putL1 { l with spans := l.spans.filter fun p => spanMask 32 p.1 p.2 &&& w = 0#32 }).unrecord c line w) s

/-- A fence once some bytes of a line have reached their home, or are gone (R334). -/
def FenceRec.reached (f : FenceRec) (line : Nat) (d : BitVec 128) : FenceRec :=
  { f with dirty := (f.dirty.map fun e => if e.1 = line then (e.1, e.2 &&& ~~~d) else e).filter fun e => e.2 != 0#128 }

/-- Dirty bytes of a line that a cluster held and that have reached their home, or are gone, no longer hold a fence of a group of that
cluster (R334). -/
def State.fenceDone (s : State) (cl line : Nat) (d : BitVec 128) : State :=
  { s with groups := s.groups.map fun p =>
      if coreCl p.2.core = cl then (p.1, { p.2 with fences := p.2.fences.map fun f => f.reached line d }) else p }

/-- An L1 line whose bytes d are no longer dirty: neither written nor observed ones are kept of them. -/
def L1Line.clean (l : L1Line) (d : BitVec 128) : L1Line :=
  { l with
    dirty := l.dirty &&& ~~~d
    vfas := (l.vfas.map fun e => (e.1, e.2.1, e.2.2 &&& ~~~d)).filter fun e => e.2.2 != 0#128
    seen := (l.seen.map fun e => (e.1, e.2 &&& ~~~d)).filter fun e => e.2 != 0#128 }

/-- The L2 of a line's home as its bytes written by some VFs reach it. -/
def State.l2Writes (s : State) (line : Nat) (vs : List (Nat × Nat)) : State :=
  vs.foldl (fun s v => s.l2Touch line true (some v.1)) (s.l2Touch line true none)

/-- The dirty bytes of one L1 line under a mask merged into the home: a write from its cluster, which sets its dirty-log bits by log
(R392) and invalidates every overlapping span of other clusters first (R267, R269); they are clean afterwards. -/
def State.mergeWith (log : State → Nat × Nat → State) (s : State) (core line : Nat) (m : BitVec 128) : State :=
  if (s.l1At core line).dirty &&& m = 0#128 then s
  else
    let l := s.l1At core line
    let s := (l.vfas.filter fun e => e.2.2 &&& l.dirty &&& m != 0#128).foldl (fun s e => log s (e.1, e.2.1)) s
    let l := s.l1At core line
    let d := l.dirty &&& m
    let s := s.invalidate line (wordsOf d) (fun c => c / 4 = core / 4)
    let s := s.l2Writes line ((l.vfas.filter fun e => e.2.2 &&& d != 0#128).map fun e => (e.1, e.2.1))
    let mem := (List.range 128).foldl (fun mm i =>
      if d.getLsbD i then mm.write (line * 128 + i) (l.bytes.getD i 0#8) else mm) s.mem
    ((({ s with
      mem := mem
      poison := s.poison.filter fun a => !(a / 128 = line && d.getLsbD (a % 128)) }.putL1
        { l.clean d with bad := l.bad &&& ~~~d }).unrecord core line (wordsOf d)).fenceDone (core / 4) line d)

/-- The bytes of a claim that no later claim of the same L1 covers. -/
def claimBytes (c : Nat × Nat × Nat) (later : List (Nat × Nat × Nat)) : BitVec 128 :=
  later.foldl (fun m d => if d.1 = c.1 then m &&& ~~~(spanMask 128 (4 * d.2.1) (4 * d.2.2)) else m)
    (spanMask 128 (4 * c.2.1) (4 * c.2.2))

/-- The dirty bytes under a mask brought back claim by claim, earliest first (R268). -/
def recallClaims (log : State → Nat × Nat → State) (line : Nat) (m : BitVec 128) (which : Nat → Bool) :
    List (Nat × Nat × Nat) → State → State
  | [], s => s
  | c :: cs, s => recallClaims log line m which cs (if which c.1 then s.mergeWith log c.1 line (m &&& claimBytes c cs) else s)

/-- Every dirty byte of the line under the mask recalled: of the bytes that several clusters hold, in the order of their claims,
the latest last (R267, R268); bytes written into a span held without a claim come after those (DESIGN CHOICE, log 111). -/
def State.recallWith (log : State → Nat × Nat → State) (s : State) (line : Nat) (m : BitVec 128) (which : Nat → Bool) : State :=
  let s := recallClaims log line m which (s.dirOf line).claims s
  (s.holders line).foldl (fun s c => if which c then s.mergeWith log c line m else s) s

/-- Whether every slot of a helped line is FREE (R276, R282). -/
def State.slotsFree (s : State) (line : Nat) : Bool :=
  (List.range 7).all fun i => bits (s.mem.read (line * 128 + (i + 1) * 16 + 15)).toNat 6 2 = 0

/-- Whether a plain write to a line is suppressed (R282). -/
def State.suppresses (s : State) (line : Nat) : Bool := s.helped.contains line && !s.slotsFree line

/-- The mark of a helped line cleared by a plain write to it (R282): bit 127 of its header. -/
def State.clearHm (s : State) (line : Nat) : State :=
  if s.helped.contains line then
    { s with helped := s.helped.filter (· != line)
             mem := s.mem.write (line * 128 + 15) (s.mem.read (line * 128 + 15) &&& 0x7F#8) }
  else s

/-- A trap record for a rung above the block that no group raised. Rung 8 stands for the context rung until the end of the step, where
it is decided whether the record passes up (R355). -/
def State.report (s : State) (rung key party cause : Nat) (info : Word) : State :=
  { s with trapQ := s.trapQ ++ [⟨rung, key, 0, none, none, party, ⟨cause, info, 0, rung, false⟩, 0#32, 0#32, 0#32, 0, 0#32⟩] }

/-- Bytes of one line stored at its home, dirty logging by log first; overwritten bytes are no longer poisoned. -/
def State.putWith (log : State → Nat × Nat → State) (s : State) (vs : List (Nat × Nat)) (pa : Nat) (b : List Byte) : State :=
  let s := (vs.foldl log s).l2Writes (pa / 128) vs
  { s with mem := s.mem.store pa b, poison := s.poison.filter fun a => !(pa ≤ a && a < pa + b.length) }

/-- One delta of an update-only copy combined into its word: a write from outside every cluster, so overlapping dirty bytes are
recalled first and overlapping spans invalidated (R267, R274); one that reaches a helped line with a slot in use is dropped and
reported to its context (R282), and so is one that meets a poisoned word (R291). The record holds the word's physical address
(DESIGN CHOICE, log 123). -/
def State.deltaWith (log : State → Nat × Nat → State) (s : State) (l : L1Line) (e : Nat × Nat × Word × Nat) : State :=
  let a := l.line * 128 + e.1 * 4
  if s.suppresses l.line then s.report 8 e.2.2.2 6 0x07 (toW a)
  else
    let s := s.recallWith log l.line (spanMask 128 (4 * e.1) 4) (fun _ => true)
    if s.poison.any (fun p => p / 4 = a / 4) then s.report 8 e.2.2.2 6 0x15 (toW a)
    else
      let s := (s.invalidate l.line (spanMask 32 e.1 1) (fun _ => false)).clearHm l.line
      let vs := (l.vfas.filter fun v => v.2.2 &&& spanMask 128 (4 * e.1) 4 != 0#128).map fun v => (v.1, v.2.1)
      s.putWith log vs a (leBytes 4 (aopApply e.2.1 (s.memWord a) e.2.2.1 0#32).toNat)

/-- The deltas of one update-only copy combined into the line, which leaves its L1 (R274). -/
def State.combineOneWith (log : State → Nat × Nat → State) (s : State) (l : L1Line) : State :=
  let s := l.upd.foldl (fun s e => s.deltaWith log l e) s
  (s.putL1 { s.l1At l.core l.line with upd := [] }).unrecord l.core l.line 0#32

/-- Every update-only copy of a line combined, in ascending order of cluster and core (R274). -/
def State.combineWith (log : State → Nat × Nat → State) (s : State) (line : Nat) : State :=
  let us := s.l1.filter fun l => l.line = line && l.upd != []
  let us := sortBy (fun a b => a.core ≤ b.core) us
  us.foldl (fun s l => s.combineOneWith log l) s

/-! ## Dirty logging (R392) -/

/-- The bit of a VF page set before a write of it is performed: an atomic OR at the home of the bitmap's byte, which ready has made
ready for it. -/
def State.dlogBit (ready : State → Nat → State) (s : State) (v : Nat × Nat) : State :=
  let f := s.vf v.1
  if f.dlog.getLsbD 0 then
    if v.2 < 2 ^ 40 then
      let a := bits f.dlog.toNat 12 40 * 4096 + v.2 / 4096 / 8
      let s := ready s a
      { s with mem := s.mem.write a (s.mem.read a ||| BitVec.ofNat 8 (2 ^ (v.2 / 4096 % 8))) }
    else s.setVf v.1 { f with dlog := f.dlog ||| 2#64 }
  else s

/-- A byte of the bitmap ready for a write at its home (R267, R274): copies combined, a dirty byte recalled, overlapping spans
invalidated. -/
def State.dlogReady (log : State → Nat × Nat → State) (s : State) (a : Nat) : State :=
  let s := s.combineWith log (a / 128)
  let s := s.recallWith log (a / 128) (spanMask 128 (a % 128) 1) (fun _ => true)
  (s.invalidate (a / 128) (wordsMask (a % 128) 1) (fun _ => false)).l2Touch (a / 128) true none

/-- The bit of a VF page set; a bitmap that is itself logged is followed through two bitmaps (DESIGN CHOICE, log 124). -/
def State.dlogSet : State → Nat × Nat → State :=
  State.dlogBit (State.dlogReady (State.dlogBit (State.dlogReady (State.dlogBit fun s _ => s))))

/-- The dirty bytes of one L1 line under a mask merged into the home. -/
def State.mergeDirty (s : State) (core line : Nat) (m : BitVec 128) : State := s.mergeWith State.dlogSet core line m

/-- Every dirty byte of a line under a mask recalled, by the L1s named (R267, R268). -/
def State.recallDirty (s : State) (line : Nat) (m : BitVec 128) (which : Nat → Bool) : State := s.recallWith State.dlogSet line m which

/-- Bytes of one line stored at its home by one writer, or by the machine itself. -/
def State.putHome (s : State) (v : Option (Nat × Nat)) (pa : Nat) (b : List Byte) : State := s.putWith State.dlogSet v.toList pa b

/-- The deltas of one update-only copy combined into the line. -/
def State.combineOne (s : State) (l : L1Line) : State := s.combineOneWith State.dlogSet l

/-- Every update-only copy of a line combined (R274). -/
def State.combine (s : State) (line : Nat) : State := s.combineWith State.dlogSet line

/-! ## Bytes of other devices (R402, R404, R405) -/

/-- The byte of an endpoint at a window address as its home answers now: the one this package last wrote or read there, or one that
another party has written meanwhile (a free value; DESIGN CHOICE, log 21). -/
def State.remoteByte (s : State) (pa : Nat) : Byte :=
  let new : Byte := BitVec.ofNat 8 ((Config.remoteWord (bits pa 40 10) (bits pa 0 40 / 4) s.free).toNat / 2 ^ (8 * (pa % 4)))
  match s.rmem.find? pa with
  | some b => if Config.freeBit (s.free * 65536 + 65515) then new else b
  | none => new

/-- Bytes of a line of an endpoint known from now on. -/
def State.remoteKeep (s : State) (pa : Nat) (b : List Byte) : State :=
  { s with rmem := b.zipIdx.foldl (fun t p => t.set (pa + p.2) p.1) s.rmem }

/-- A read performed at a remote home. -/
def State.remoteRead (s : State) (pa n : Nat) : State × List Byte :=
  let b := (List.range n).map fun i => s.remoteByte (pa + i)
  (s.remoteKeep pa b, b)

/-- A write performed at its home (R267): copies combined, overlapping dirty bytes recalled and merged, overlapping spans
invalidated, a plain write's helped mark cleared, the bytes stored. A line of the fabric window has its home on another device (R402). -/
def State.homeWrites (s : State) (vs : List (Nat × Nat)) (pa : Nat) (b : List Byte) : State :=
  if windowPa pa then s.remoteKeep pa b else
  let line := pa / 128
  let s := s.combine line
  let s := s.recallDirty line (spanMask 128 (pa % 128) b.length) (fun _ => true)
  let s := s.invalidate line (wordsMask (pa % 128) b.length) (fun _ => false)
  (s.clearHm line).putWith State.dlogSet vs pa b

/-- A write of one writer, or of the machine itself, performed at its home (R267). -/
def State.homeWrite (s : State) (v : Option (Nat × Nat)) (pa : Nat) (b : List Byte) : State := s.homeWrites v.toList pa b

/-- Bytes read at the home, after the combination of update-only copies (R268, R274). -/
def State.homeRead (s : State) (pa n : Nat) : State × List Byte :=
  if windowPa pa then s.remoteRead pa n else
  let s := (s.combine (pa / 128)).l2Touch (pa / 128) false none
  (s, s.mem.bytes pa n)

/-- Whether a byte among pa .. pa+n-1 is poisoned (R291). -/
def State.poisoned (s : State) (pa n : Nat) : Bool := s.poison.any fun a => pa ≤ a && a < pa + n

/-- The write-back of an L1 line's dirty bytes (R214, R267): where the line is helped with a slot in use they are dropped. -/
def State.writeBack (s : State) (core line : Nat) : State :=
  let l := s.l1At core line
  if l.dirty = 0#128 then s
  else if s.suppresses line then
    ((s.putL1 (l.clean l.dirty)).unrecord core line (wordsOf l.dirty)).fenceDone (core / 4) line l.dirty
  else
    let s := s.combine line
    let s := s.recallDirty line l.dirty (fun c => c / 4 != core / 4)
    (s.clearHm line).mergeDirty core line l.dirty

/-! ## The L1 of a core -/

/-- A line leaves an L1: deltas combined, dirty bytes written back (R214, R274). -/
def State.l1Evict (s : State) (c line : Nat) : State :=
  let s := if (s.l1At c line).upd = [] then s else s.combineOne (s.l1At c line)
  let s := s.writeBack c line
  (s.putL1 { s.l1At c line with spans := [] }).unrecord c line (BitVec.allOnes 32)

/-- Room for a line in an L1 of 128 KiB: where it is full, one of its lines leaves, by a free value (R215, R216; DESIGN CHOICE,
log 112). -/
def State.l1Room (s : State) (o line : Nat) : State :=
  let w := s.l1.filter fun l => l.core = o
  if w.length < Config.l1Lines || w.any (fun l => l.line = line) then s
  else match w[(Config.freeWord (s.free * 65536 + 65521)).toNat % w.length]? with
    | some v => s.l1Evict o v.line
    | none => s

/-- Bytes d of an L1 line written by v: that write is the one a log bit is set for when they are merged (R392); of a reduction every
write that a delta holds is. -/
def L1Line.writer (l : L1Line) (v : Nat × Nat) (d : BitVec 128) (clr : Bool) : List (Nat × Nat × BitVec 128) :=
  let old := if clr then (l.vfas.map fun e => (e.1, e.2.1, e.2.2 &&& ~~~d)).filter fun e => e.2.2 != 0#128 else l.vfas
  if old.any (fun e => (e.1, e.2.1) = v) then old.map fun e => if (e.1, e.2.1) = v then (e.1, e.2.1, e.2.2 ||| d) else e
  else old ++ [(v.1, v.2, d)]

/-- Masks of two tables united under a mask. -/
def joinSeen (a b : Tbl (BitVec 128)) (m : BitVec 128) : Tbl (BitVec 128) :=
  b.foldl (fun t e => if e.2 &&& m = 0#128 then t else t.set e.1 (t.getD e.1 0#128 ||| (e.2 &&& m))) a

/-- Bytes of one line written by a store of cluster scope: dirty in the storing L1, invalid in its cluster mates (R215). What groups
have observed of a mate's dirty bytes stands for the storing L1's from now on (R334). -/
def State.l1Store (s : State) (core : Nat) (v : Nat × Nat) (pa : Nat) (b : List Byte) : State :=
  let o := s.l1For core pa
  let line := pa / 128
  let s := if (s.l1At o line).upd != [] then s.combine line else s
  let s := s.l1Room o line
  let m := spanMask 128 (pa % 128) b.length
  let l := s.l1At o line
  let mates := (s.holders line).filter fun c => c / 4 = core / 4 && c != o
  let s := s.putL1 { l with
    dirty := l.dirty ||| m
    vfas := l.writer v m true
    seen := mates.foldl (fun t c => joinSeen t (s.l1At c line).seen m) l.seen
    bytes := b.zipIdx.foldl (fun a p => a.set (pa % 128 + p.2) p.1) l.bytes }
  mates.foldl (fun s c =>
    let w := wordsMask (pa % 128) b.length
    let x := (s.l1At c line).clean m
    (s.putL1 { x with spans := x.spans.filter fun p => spanMask 32 p.1 p.2 &&& w = 0#32 }).unrecord c line w) s

/-- The dirty bytes among pa .. pa+n-1 that a cluster's L1s hold marked as observed or written by a group (R269, R334). -/
def State.markSeen (s : State) (gid cl pa n : Nat) : State :=
  let m := spanMask 128 (pa % 128) n
  { s with l1 := s.l1.map fun l =>
      if l.core / 4 = cl && l.line = pa / 128 && l.dirty &&& m != 0#128 then
        { l with seen := l.seen.set gid (l.seen.getD gid 0#128 ||| (l.dirty &&& m)) }
      else l }

/-- The span of bytes pa .. pa+n-1 of a line filled into the reading L1 (R214): dirty bytes of cluster mates, else the home's; an
uncorrectable error of a byte comes with it (R139). -/
def State.l1Fill (s : State) (core pa n : Nat) : State :=
  let o := s.l1For core pa
  let line := pa / 128
  let s := s.l1Room o line
  let w := wordsMask (pa % 128) n
  let l := s.l1At o line
  let new := fun i => w.getLsbD (i / 4) && !l.dirty.getLsbD i && !l.valid.getLsbD (i / 4)
  let b := (List.range 128).map fun i =>
    if new i then (s.l1Byte? core (line * 128 + i)).getD (s.mem.read (line * 128 + i)) else l.bytes.getD i 0#8
  let bad := (List.range 128).foldl (fun (m : BitVec 128) i =>
    if new i then
      if (s.l1Byte? core (line * 128 + i)).isNone && s.poison.contains (line * 128 + i) then m ||| spanMask 128 i 1
      else m &&& ~~~(spanMask 128 i 1)
    else m) l.bad
  let s := s.l2Touch line false none
  let sp := spanOfBytes (pa % 128) n
  (s.putL1 { l with spans := if n = 0 || l.spans.contains sp then l.spans else l.spans ++ [sp], bytes := b, bad := bad }).record o line
    sp false

/-- Whether the L1 that would take a store holds the words or has claimed them (R266). -/
def State.mayStore (s : State) (core pa n : Nat) : Bool :=
  let o := s.l1For core pa
  let line := pa / 128
  wordsMask (pa % 128) n &&&
    ~~~((s.l1At o line).valid ||| spanWords (((s.dirOf line).claims.filter fun c => c.1 = o).map (·.2))) = 0#32

/-- A claim of an L1 on a span reaches the home: update-only copies are combined first (R274), the claim is recorded (R266). -/
def State.claim (s : State) (o line : Nat) (sp : Nat × Nat) : State := (s.combine line).record o line sp true

/-- A reduction entering an update-only line (R273): dirty bytes are written back and the span dropped; a different tag
recalls the line first. -/
def State.redEnter (s : State) (core key : Nat) (v : Nat × Nat) (aop pa : Nat) (x : Word) : State :=
  let o := s.l1For core pa
  let line := pa / 128
  let s := (s.writeBack o line).l1Room o line
  let l := s.l1At o line
  let s := s.putL1 { l with spans := [] }
  let w := pa % 128 / 4
  let s := match (s.l1At o line).upd.find? w with
    | some e => if e.1 = aop then s else s.combine line
    | none => s
  let l := s.l1At o line
  let d := match l.upd.find? w with
    | some e => aopApply aop e.2.1 x 0#32
    | none => aopEnter aop x
  (s.putL1 { l with upd := l.upd.set w (aop, d, key), vfas := l.writer v (spanMask 128 (pa % 128) 4) false }).record o line
    (spanOfBytes (pa % 128) 4) false

/-- Every dirty byte of the line of pa .. pa+n-1 that the L1s of a cluster hold written back and performed at the home (R137). -/
def State.flushCluster (s : State) (cl pa : Nat) : State :=
  ((s.holders (pa / 128)).filter fun c => c / 4 = cl).foldl (fun s c => s.writeBack c (pa / 128)) s

/-- The lines of a cluster's L1s that hold dirty bytes (R269). -/
def State.dirtyLines (s : State) (cl : Nat) : List (Nat × Nat) :=
  (s.l1.filter fun l => l.core / 4 = cl && l.dirty != 0#128).map fun l => (l.core, l.line)

/-- The dirty bytes of a cluster that a group has observed or written, line by line (R269, R334). -/
def State.seenBytes (s : State) (gid cl : Nat) : List (Nat × BitVec 128) :=
  s.l1.filterMap fun l =>
    if l.core / 4 = cl && l.dirty &&& l.seen.getD gid 0#128 != 0#128 then some (l.line, l.dirty &&& l.seen.getD gid 0#128) else none

/-- Those of them among pa .. pa+n-1. -/
def State.seenAt (s : State) (gid cl pa n : Nat) : List (Nat × BitVec 128) :=
  ((s.seenBytes gid cl).filter fun e => e.1 = pa / 128 && e.2 &&& spanMask 128 (pa % 128) n != 0#128).map fun e =>
    (e.1, e.2 &&& spanMask 128 (pa % 128) n)

/-! ## Draft copies (R285) -/

def State.draftAt (s : State) (d : Nat × Nat) (line : Nat) : Option DraftLine :=
  s.drafts.find? fun x => x.die = d.1 && x.ent = d.2 && x.line = line

/-- A read of a draft: its draft copy where one exists, else the committed line at the home, without allocation. -/
def State.draftRead (s : State) (d : Nat × Nat) (cl pa n : Nat) : State × List Byte :=
  match s.draftAt d (pa / 128) with
  | some x => (s, (x.bytes.drop (pa % 128)).take n)
  | none => (s.flushCluster cl pa).homeRead pa n

/-- Whether a read of a draft meets a byte with an uncorrectable error: of its copy, or of the committed line (R139, R290, R291). -/
def State.draftBad (s : State) (d : Nat × Nat) (pa n : Nat) : Bool :=
  match s.draftAt d (pa / 128) with
  | some x => x.bad &&& spanMask 128 (pa % 128) n != 0#128
  | none => s.poisoned pa n

/-- The first of some lines whose draft copy would need a fifth draft way of its set, the copies made in their order (R286). -/
def State.draftOver (s : State) (d : Nat × Nat) (lines : List Nat) : Option Nat :=
  let new := (lines.filter fun n => (s.draftAt d n).isNone).eraseDups
  (new.zipIdx.find? fun p =>
    4 < s.draftWays p.1 + ((new.take (p.2 + 1)).filter fun n => sameSet n p.1).length).map (·.1)

/-- The bytes of a line with its helped mark clear: bit 127 of its header (R276). -/
def plainBytes (b : List Byte) : List Byte := b.set 15 (b.getD 15 0#8 &&& 0x7F#8)

/-- A write of a draft to one line: the first creates the draft copy, in a way of the L2 set, from the line's current bytes (R265,
R285); a write to a helped line
whose every slot is FREE makes the copy plain (R282). -/
def State.draftWrite (s : State) (d : Nat × Nat) (v : Nat × Nat) (pa : Nat) (b : List Byte) : State :=
  let line := pa / 128
  let s : State := match s.draftAt d line with
    | some _ => s
    | none =>
      let s := (s.combine line).recallDirty line (BitVec.allOnes 128) (fun _ => true)
      let s := (s.invalidate line (BitVec.allOnes 32) (fun _ => false)).l2Touch line false none
      { s with
        l2 := s.l2Room line
        drafts := s.drafts ++ [⟨d.1, d.2, line, s.mem.bytes (line * 128) 128, byteMask s.poison line, []⟩] }
  let helped := s.helped.contains line
  { s with drafts := s.drafts.map fun x =>
      if x.die = d.1 && x.ent = d.2 && x.line = line then
        { x with
          bytes := b.zipIdx.foldl (fun a p => a.set (pa % 128 + p.2) p.1) (if helped then plainBytes x.bytes else x.bytes)
          bad := x.bad &&& ~~~(spanMask 128 (pa % 128) b.length)
          vfas := if x.vfas.contains v then x.vfas else x.vfas ++ [v] }
      else x }

/-- Whether any draft holds a copy of a line: accesses of others are then made at the home without allocation (R285). -/
def State.drafted (s : State) (line : Nat) : Bool := s.drafts.any fun x => x.line = line

/-- The draft copies of an entry become the committed lines (R287); each sets its dirty log bit then (R392). -/
def State.draftCommit (s : State) (d : Nat × Nat) : State :=
  let mine := s.drafts.filter fun x => x.die = d.1 && x.ent = d.2
  let s := mine.foldl (fun s x =>
    let s := s.homeWrites x.vfas (x.line * 128) x.bytes
    { s with poison := s.poison ++ ((List.range 128).filter fun i => x.bad.getLsbD i).map (x.line * 128 + ·) }) s
  { s with drafts := s.drafts.filter fun x => !(x.die = d.1 && x.ent = d.2) }

/-- The draft copies of an entry dropped (R288). -/
def State.draftDrop (s : State) (d : Nat × Nat) : State :=
  { s with drafts := s.drafts.filter fun x => !(x.die = d.1 && x.ent = d.2) }

def State.setDraft (s : State) (d : Nat × Nat) (x : DraftState) : State :=
  let e := s.die d.1
  s.setDie d.1 { e with drafts := if x = .free then e.drafts.del d.2 else e.drafts.set d.2 x }

end Sys2Proof.Machine
end

