-- ==== Sys2Proof/Machine/Trans.lean ====
section
/-!
DEFINITION. Sys2Proof/Machine/Trans.lean: address translation (R309-R324): the two-stage walk, permissions, flags, TLBs,
fault keys, records and queues; and global bytes read and written by the CX980's own units.
-/
namespace Sys2Proof.Machine

/-- How a translation ends (R316, R402): physical and VF address; malformed; secure; stage-1 permission; a fault key
already recorded or held; or a fabric page without the grant. -/
inductive Tr where
  | ok (pa vfa : Nat)
  | malformed
  | sec
  | perm
  | fault (k : FKey)
  | scopeDeny
  deriving DecidableEq, Repr

/-- The order of outcomes in which check 3 of R135 takes the first (R316). -/
def Tr.rank : Tr → Nat
  | .malformed => 1
  | .sec => 2
  | .perm => 3
  | .fault _ => 4
  | .scopeDeny => 5
  | .ok _ _ => 6

/-- What an access needs (R315). -/
def needR : Access → Bool
  | .read | .readWrite => true
  | _ => false
def needW : Access → Bool
  | .write | .readWrite => true
  | _ => false
def needX : Access → Bool
  | .fetch => true
  | _ => false

/-- Fields of a table entry (R311). -/
def peV (e : Nat) : Bool := e % 2 = 1
def peLf (e : Nat) : Bool := bits e 1 1 = 1
def peR (e : Nat) : Bool := bits e 2 1 = 1
def peW (e : Nat) : Bool := bits e 3 1 = 1
def peX (e : Nat) : Bool := bits e 4 1 = 1
def peA (e : Nat) : Bool := bits e 5 1 = 1
def peD (e : Nat) : Bool := bits e 6 1 = 1
def peUc (e : Nat) : Bool := bits e 7 1 = 1
def peCont (e : Nat) : Nat := bits e 8 4
def peOa (e : Nat) : Nat := bits e 12 40 * 4096
def peSec (e : Nat) : Bool := bits e 56 1 = 1

/-- Input bits below the index of a level. -/
def lvlShift (l : Nat) : Nat := 48 - 9 * l

/-- The output range of a leaf at a level, the whole run of a member of one: its base, and its size in address bits (R313). -/
def leafRange (l e : Nat) : Nat × Nat :=
  let sh := lvlShift l + (if peCont e = 4 then 4 else 0)
  (peOa e / 2 ^ sh * 2 ^ sh, sh)

/-- Whether a valid entry read at a level is malformed (R312, R402). -/
def State.peBad (s : State) (stg2 : Bool) (l e : Nat) : Bool :=
  bits e 57 7 != 0 || bits e 52 4 != 0 ||
  (peLf e && l = 1) || (!peLf e && l = 4) ||
  (!peLf e && (peSec e || peCont e != 0 || peUc e || peD e || peX e || peW e || peR e)) ||
  (peLf e && l = 2 && bits e 12 18 != 0) || (peLf e && l = 3 && bits e 12 9 != 0) ||
  (peLf e && !(peCont e = 0 || (peCont e = 4 && l != 2))) ||
  (!stg2 && (peSec e || bits e 48 4 != 0)) ||
  (stg2 && peLf e && (!s.mappable (leafRange l e).1 (2 ^ (leafRange l e).2) || (windowPa (peOa e) && (peX e || peSec e))))

/-- A leaf found: entry, its physical address, level. -/
structure Leaf where
  e   : Nat
  at_ : Nat
  lvl : Nat
  deriving DecidableEq, Repr

/-- How a walk of one stage ends. -/
inductive Walk where
  | leaf (l : Leaf)
  | invalid (lvl : Nat)
  | bad (lvl : Nat)
  deriving DecidableEq, Repr

/-- The output address of an input address under a leaf: within the page, or within the run of 16 (R313). -/
def Leaf.out (l : Leaf) (a : Nat) : Nat :=
  (leafRange l.lvl l.e).1 + a % 2 ^ (leafRange l.lvl l.e).2

/-- First page and page count a TLB entry of the leaf maps (R313). -/
def Leaf.region (l : Leaf) (a : Nat) : Nat × Nat :=
  let sh := (leafRange l.lvl l.e).2
  (a / 2 ^ sh * 2 ^ sh / 4096, 2 ^ (sh - 12))

/-! ## Table entries (R310, R318) -/

/-- The bytes that a read of tenant scope at the home returns (R274, R310, R402). -/
def State.homeView (s : State) (pa n : Nat) : List Byte :=
  if windowPa pa then (s.remoteRead pa n).2 else (s.combine (pa / 128)).mem.bytes pa n

/-- A read of tenant scope at the home, for a party of a cluster or another: what it does to the machine (R137, R274, R310). -/
def State.readHome (s : State) (cl : Option Nat) (pa : Nat) : State :=
  let s := match cl with
    | some c => s.flushCluster c pa
    | none => s
  (s.homeRead pa 8).1

/-- Whether a walk cache entry is one of a table of a VF, read at an address by walks for a cluster (R318). -/
def WEnt.of (w : WEnt) (cl vf : Nat) (stg2 : Bool) (ctx at_ : Nat) : Bool :=
  w.die = cl / 96 && w.vf = vf && w.stg2 = stg2 && (stg2 || w.ctx = ctx) && w.at_ = at_

/-- The table entry a walk takes: the one at its home, or where the die's walk cache holds one either of them (R318, R319). -/
def State.tableEntry (s : State) (cl : Option Nat) (vf : Nat) (stg2 : Bool) (ctx at_ pa : Nat) : Nat :=
  let m := leNat (s.homeView pa 8)
  match cl.bind fun c => s.wcache.find? fun w => w.of c vf stg2 ctx at_ with
  | some w => Config.pick (s.free * 65536 + 65522) m w.e
  | none => m

/-- A table entry that is no leaf kept by the die's walk cache (R318). -/
def State.keepEntry (s : State) (cl : Option Nat) (vf : Nat) (stg2 : Bool) (ctx at_ e l a : Nat) : State :=
  match cl with
  | none => s
  | some c =>
    let sh := lvlShift l
    { s with wcache := (s.wcache.filter fun w => !(w.of c vf stg2 ctx at_)) ++
        [⟨c / 96, vf, stg2, ctx, at_, e, a / 2 ^ sh * 2 ^ sh / 4096, 2 ^ (sh - 12)⟩] }

/-- The stage-2 walk of a VF address: table entries are read at their PA (R309, R310). -/
def State.walk2 (s : State) (cl : Option Nat) (vf : Nat) : List Nat → Nat → Nat → Walk
  | [], _, _ => .bad 4
  | l :: ls, tbl, a =>
    let at_ := tbl + bits a (lvlShift l) 9 * 8
    let e := s.tableEntry cl vf true 0 at_ at_
    if !peV e then .invalid l
    else if s.peBad true l e then .bad l
    else if peLf e then .leaf ⟨e, at_, l⟩
    else s.walk2 cl vf ls (peOa e) a

/-- What that walk's reads do to the machine: copies combined, dirty bytes written back, table entries kept (R310, R318). -/
def walked2 (cl : Option Nat) (vf a : Nat) : List Nat → Nat → State → State
  | [], _, s => s
  | l :: ls, tbl, s =>
    let at_ := tbl + bits a (lvlShift l) 9 * 8
    let s := s.readHome cl at_
    let e := s.tableEntry cl vf true 0 at_ at_
    if peV e && !s.peBad true l e && !peLf e then walked2 cl vf a ls (peOa e) (s.keepEntry cl vf true 0 at_ e l a) else s

/-- The flags a translation sets in a leaf: a, d for a write, and uc cleared (R314). -/
def flagsSet (e : Nat) (w : Bool) : Nat :=
  let e := if peA e then e else e + 32
  let e := if w && !peD e then e + 64 else e
  if peUc e then e - 128 else e

/-- The compare-and-swap of an entry at its home: it writes only where the entry still holds the value the walk read, and answers
whether it did (R314). -/
def State.swapEntry (s : State) (v : Option (Nat × Nat)) (at_ old new : Nat) : State × Bool :=
  let r := ((s.combine (at_ / 128)).recallDirty (at_ / 128) (spanMask 128 (at_ % 128) 8) (fun _ => true)).homeRead at_ 8
  if leNat r.2 = old then (r.1.homeWrite v at_ (leBytes 8 new), true) else (r.1, false)

/-- The flags of a leaf set where the translation that uses it has to set one (R314). -/
def State.touch (s : State) (v : Option (Nat × Nat)) (l : Leaf) (w : Bool) : State × Bool :=
  if flagsSet l.e w = l.e then (s, true) else s.swapEntry v l.at_ l.e (flagsSet l.e w)

/-- Walks that a failed swap may restart: each failure brings dirty bytes of the entry home, and no more entries can be dirty. -/
def State.retries (s : State) : Nat := 16 * s.l1.length

/-- How a stage-2 translation ends: leaf; malformed; or a fault with its level and whether a permission is missing. -/
inductive St2 where
  | ok (l : Leaf)
  | bad (lvl : Nat)
  | sec (lvl : Nat)
  | fault (lvl : Nat) (pm : Bool)
  deriving DecidableEq, Repr

/-- Stage 2 of a VF address with the permissions needed, walked for a cluster or another party (R309, R315, R316). -/
def State.stage2For (s : State) (cl : Option Nat) (vf a : Nat) (r w x : Bool) : St2 :=
  let root := (s.vf vf).s2.toNat
  if !peV root then .bad 1
  else
    match s.walk2 cl vf [1, 2, 3, 4] (peOa root) a with
    | .invalid l => .fault l false
    | .bad l => .bad l
    | .leaf l =>
      if peSec l.e || carveOut (l.out a) then .sec l.lvl
      else if (r && !peR l.e) || (w && !peW l.e) || (x && !peX l.e) then .fault l.lvl true
      else .ok l

/-- Stage 2 of a VF address for a party that belongs to no cluster. -/
def State.stage2 (s : State) (vf a : Nat) (r w x : Bool) : St2 := s.stage2For none vf a r w x

/-- The machine after the reads of a stage-2 walk. -/
def State.walked (s : State) (cl : Option Nat) (vf a : Nat) : State :=
  if peV (s.vf vf).s2.toNat then walked2 cl vf a [1, 2, 3, 4] (peOa (s.vf vf).s2.toNat) s else s

/-- A VF address used by a party of a cluster or another: the walk's reads, then the flags of the leaf; where the swap of the flags
fails, the walk restarts at level 1 (R311, R314, R328). -/
def useFrom (cl : Option Nat) (vf a : Nat) (r w x : Bool) : Nat → State → State × St2
  | n, s =>
    let s := s.walked cl vf a
    match s.stage2For cl vf a r w x with
    | .ok l =>
      let t := s.touch none l w
      match n with
      | 0 => (t.1, .ok l)
      | n + 1 => if t.2 then (t.1, .ok l) else useFrom cl vf a r w x n t.1
    | e => (s, e)

/-- The same with as many restarts as can be needed. -/
def State.use2 (s : State) (cl : Option Nat) (vf a : Nat) (r w x : Bool) : State × St2 := useFrom cl vf a r w x s.retries s

/-- A VF address that the CX980's own units read or write. -/
def State.useAddr (s : State) (vf a : Nat) (w : Bool) : State := (s.use2 none vf a (!w) w false).1

/-! ## Fault records (R320-R322) -/

def FQ.count (q : FQ) : Nat := (q.tail + 8192 - q.head) % 8192
def FQ.en (q : FQ) : Bool := q.base.getLsbD 0
def FQ.addr (q : FQ) : Nat := bits q.base.toNat 17 35 * 131072 + q.tail % 4096 * 32
/-- A record's phase bit: 1 in the first pass of the ring, inverted at each wrap. -/
def FQ.phase (q : FQ) : Nat := if q.tail / 4096 % 2 = 0 then 0x80000000 else 0

/-- The partitions of a VF (R382). -/
def State.partsOf (s : State) (vf : Nat) : List Nat :=
  (s.dev.partTbl.filterMap fun p =>
    if bits p.2.toNat 15 1 = 1 && bits p.2.toNat 0 6 = vf then some (bits p.2.toNat 8 5) else none).eraseDups

/-- An interrupt bit of each partition set (R385). -/
def State.interrupt (s : State) (ps : List Nat) (b : Nat) : State :=
  ps.foldl (fun s p => s.setPart p { s.part p with intp := (s.part p).intp ||| toW (2 ^ b) }) s

/-- A record written into a provider queue at a PA: it is visible before tail counts it, and a queue that was empty interrupts the
hypervisor (R322, R385). -/
def State.putProv (s : State) (vf : Nat) (w : List Word) : State :=
  let f := s.vf vf
  let q := f.pq
  let b := (w ++ [toW q.seq, toW q.phase]).flatMap fun x => leBytes 4 x.toNat
  let s := (s.homeWrite none q.addr b).setVf vf { f with pq := { q with tail := (q.tail + 1) % 8192, seq := q.seq + 1 } }
  if q.count = 0 then { s with dev := { s.dev with prov := s.dev.prov ++ [vf] } } else s

/-- Whether a queue can take a record now. -/
def FQ.room (q : FQ) : Bool := q.en && q.count < 4096

/-- A record for the provider queue: written, or held by its walker (R322). -/
def State.postProv (s : State) (vf : Nat) (w : List Word) (k : FKey) : State :=
  if (s.vf vf).pq.room then s.putProv vf w else { s with frecs := s.frecs ++ [⟨true, vf, w, k⟩] }

/-- The key of a stage-2 fault (R320). -/
def key2 (vf a : Nat) : FKey := ⟨vf, true, 0, a / 4096⟩

/-- A stage-2 fault of a VF address: recorded once for its key; va_lo is 0 for kinds 8 and 9 (R320, R321). -/
def State.fault2 (s : State) (vf a kind lvl : Nat) (pm mf : Bool) (va ctx : Nat) (cid : Word) : State × FKey :=
  let k := key2 vf a
  if s.fkeys.contains k && !mf then (s, k)
  else
    let w := [toW (if 8 ≤ kind then 0 else va), toW (kind * 268435456 + 134217728 + lvl * 16777216 + (if mf then 8388608 else 0) +
        (if pm then 4194304 else 0) + va / 4294967296), toW (ctx * 65536 + vf), cid, toW a, toW (a / 4294967296)]
    let s := if mf then s else { s with fkeys := s.fkeys ++ [k] }
    (s.postProv vf w k, k)

/-- A guest record written through stage 2; a failure is a stage-2 fault of kind 8 and the record is held (R321, R322); a ring page
that is secure is one too, with neither mf nor pm (DESIGN CHOICE, log 126). -/
def State.putGuest (s : State) (vf : Nat) (w : List Word) (k : FKey) : State :=
  let f := s.vf vf
  let q := f.gq
  let t := s.use2 none vf q.addr false true false
  let s := t.1
  let held := fun (lvl : Nat) (pm mf : Bool) =>
    let s := (s.fault2 vf q.addr 8 lvl pm mf 0 (bits (wAt w 2).toNat 16 16) (wAt w 3)).1
    { s with frecs := s.frecs ++ [⟨false, vf, w, k⟩] }
  match t.2 with
  | .ok l =>
    let b := (w ++ [toW q.seq, toW q.phase]).flatMap fun x => leBytes 4 x.toNat
    let s := (s.homeWrite (some (vf, q.addr)) (l.out q.addr) b).setVf vf
      { f with gq := { q with tail := (q.tail + 1) % 8192, seq := q.seq + 1 } }
    if q.count = 0 then s.interrupt (s.partsOf vf) 0 else s
  | .fault l pm => held l pm false
  | .bad l => held l false true
  | .sec l => held l false false

/-- A record for the guest queue: written, or held by its walker (R322). -/
def State.postGuest (s : State) (vf : Nat) (w : List Word) (k : FKey) : State :=
  if (s.vf vf).gq.room then s.putGuest vf w k else { s with frecs := s.frecs ++ [⟨false, vf, w, k⟩] }

/-- A stage-1 fault (R320, R321). -/
def State.fault1 (s : State) (vf ctx va kind lvl : Nat) (mf : Bool) (cid : Word) : State × FKey :=
  let k : FKey := ⟨vf, false, ctx, va / 4096⟩
  if s.fkeys.contains k && !mf then (s, k)
  else
    let w := [toW (if 8 ≤ kind then 0 else va), toW (kind * 268435456 + lvl * 16777216 + (if mf then 8388608 else 0) + va / 4294967296),
      toW (ctx * 65536 + vf), cid, 0#32, 0#32]
    let s := if mf then s else { s with fkeys := s.fkeys ++ [k] }
    (s.postGuest vf w k, k)

/-! ## The whole walk -/

/-- The VF address of a context's descriptor, where the table is enabled (R385). -/
def State.ctxAddr (s : State) (vf ctx : Nat) : Option Nat :=
  let t := (s.vf vf).ctxTbl.toNat
  if peV t then some (peOa t + ctx * 64) else none

/-- The context descriptor's words, read at the VF's table through stage 2 (R385); none where the table is disabled or the
descriptor cannot be read. -/
def State.ctxDesc (s : State) (vf ctx : Nat) : Option (List Word) :=
  match s.ctxAddr vf ctx with
  | none => none
  | some a =>
    match s.stage2 vf a true false false with
    | .ok l => some (leWords (s.homeView (l.out a) 64) 16)
    | _ => none

/-- The stage-1 walk: each table entry is a VF address read through stage 2, its leaf there marked (R309, R310). Answers
the state, and the leaf, its failure, or the outcome of the stage-2 failure. -/
def State.walk1 (s : State) (cl : Option Nat) (vf ctx va kind : Nat) (cid : Word) : List Nat → Nat → State × Except Tr Walk
  | [], _ => (s, .ok (.bad 4))
  | l :: ls, tbl =>
    let at_ := tbl + bits va (lvlShift l) 9 * 8
    match s.use2 cl vf at_ true false false with
    | (s, .bad k) => ((s.fault2 vf at_ 7 k false true va ctx cid).1, .error .malformed)
    | (s, .sec _) => (s, .error .sec)
    | (s, .fault k pm) =>
      let r := s.fault2 vf at_ 7 k pm false va ctx cid
      (r.1, .error (.fault r.2))
    | (s, .ok f) =>
      if windowPa (f.out at_) && !(s.vf vf).pol.getLsbD 3 then (s, .error .scopeDeny) else
      let s := s.readHome cl (f.out at_)
      let e := s.tableEntry cl vf false ctx at_ (f.out at_)
      if !peV e then (s, .ok (.invalid l))
      else if s.peBad false l e then (s, .ok (.bad l))
      else if peLf e then (s, .ok (.leaf ⟨e, at_, l⟩))
      else State.walk1 (s.keepEntry cl vf false ctx at_ e l va) cl vf ctx va kind cid ls (peOa e)

/-- A stage-1 leaf's flags set at its home, which needs write permission of the table's page (R314, R315); false where the entry no
longer holds the value that the walk read. -/
def State.touch1 (s : State) (cl : Option Nat) (vf ctx va : Nat) (cid : Word) (l : Leaf) (w : Bool) : State × Except Tr Bool :=
  if flagsSet l.e w = l.e then (s, .ok true)
  else
    match s.use2 cl vf l.at_ true true false with
    | (s, .ok f) =>
      let r := s.swapEntry (some (vf, l.at_)) (f.out l.at_) l.e (flagsSet l.e w)
      (r.1, .ok r.2)
    | (s, .fault k pm) =>
      let r := s.fault2 vf l.at_ 7 k pm false va ctx cid
      (r.1, .error (.fault r.2))
    | (s, .bad k) => ((s.fault2 vf l.at_ 7 k false true va ctx cid).1, .error .malformed)
    | (s, .sec _) => (s, .error .sec)

/-- A combined translation kept by a TLB of n entries; a full one gives up one entry, by a free value (R318). -/
def keepTlb (n i : Nat) (e : TlbE) (l : List TlbE) : List TlbE :=
  let mine := l.filter fun x => x.cl = e.cl
  if mine.length < n then l ++ [e]
  else (l.filter fun x => x.cl != e.cl) ++ mine.eraseIdx ((Config.freeWord i).toNat % mine.length) ++ [e]

/-- A combined translation kept by a cluster's TLB, and by a core's micro-TLB (R318). -/
def State.tlbFill (s : State) (e : TlbE) (core : Option Nat) : State :=
  { s with
    tlb := keepTlb Config.tlbMax (s.free * 65536 + 65519) e s.tlb
    utlb := match core with
      | some c => keepTlb Config.utlbMax (s.free * 65536 + 65518) { e with cl := c } s.utlb
      | none => s.utlb
    free := s.free + 1 }

/-- The walk of one access, the failing byte recorded with its kind and unit (R309-R322): the context's descriptor, whose page a
fault keeps from being read like a stage-1 table's (DEDUCED, log 113), the stage-1 table, then stage 2 of the VF address. None where
the swap of the stage-1 leaf's flags has failed, so that the walk restarts (R314); the last walk does not. -/
def State.walkOnce (s : State) (last : Bool) (vf ctx va : Nat) (a : Access) (kind cl : Nat) (core : Option Nat) (cid : Word) :
    State × Option Tr :=
  match s.ctxAddr vf ctx with
  | none => ((s.fault1 vf ctx va kind 1 true cid).1, some .malformed)
  | some da =>
    match s.use2 (some cl) vf da true false false with
    | (s, .bad k) => ((s.fault2 vf da 7 k false true va ctx cid).1, some .malformed)
    | (s, .sec _) => (s, some .sec)
    | (s, .fault k pm) =>
      let r := s.fault2 vf da 7 k pm false va ctx cid
      (r.1, some (.fault r.2))
    | (s, .ok f) =>
    let s := s.readHome (some cl) (f.out da)
    let d := leWords (s.homeView (f.out da) 64) 16
    let root := (wAt d 0).toNat + (wAt d 1).toNat * 4294967296
    if !(wAt d 4).getLsbD 0 || !peV root || bits root 48 16 != 0 then ((s.fault1 vf ctx va kind 1 true cid).1, some .malformed)
    else
      match s.walk1 (some cl) vf ctx va kind cid [1, 2, 3, 4] (peOa root) with
      | (s, .error t) => (s, some t)
      | (s, .ok (.bad l)) => ((s.fault1 vf ctx va kind l true cid).1, some .malformed)
      | (s, .ok (.invalid l)) =>
        let r := s.fault1 vf ctx va kind l false cid
        (r.1, some (.fault r.2))
      | (s, .ok (.leaf l)) =>
        if ((needR a) && !peR l.e) || ((needW a) && !peW l.e) || ((needX a) && !peX l.e) then (s, some .perm)
        else
          let vfa := l.out va
          let s := s.walked (some cl) vf vfa
          match s.stage2For (some cl) vf vfa (needR a) (needW a) (needX a) with
          | .bad k => ((s.fault2 vf vfa kind k false true va ctx cid).1, some .malformed)
          | .sec _ => (s, some .sec)
          | .fault k pm =>
            let r := s.fault2 vf vfa kind k pm false va ctx cid
            (r.1, some (.fault r.2))
          | .ok f =>
            if windowPa (f.out vfa) && !(s.vf vf).pol.getLsbD 3 then (s, some .scopeDeny)
            else
              match s.touch1 (some cl) vf ctx va cid l (needW a) with
              | (s, .error t) => (s, some t)
              | (s, .ok done) =>
                if !done && !last then (s, none)
                else
                  let t := s.touch none f (needW a)
                  if !t.2 && !last then (t.1, none)
                  else
                    let r1 := l.region va
                    let r2 := f.region vfa
                    let n := min r1.2 r2.2
                    let p := va / 4096 / n * n
                    let m := vfa / 4096 / n * n
                    (t.1.tlbFill ⟨cl, vf, ctx, p, n, f.out vfa / 4096 / n * n, m, peR l.e && peR f.e, peW l.e && peW f.e,
                      peX l.e && peX f.e, (peD l.e && peD f.e) || (needW a)⟩ core, some (.ok (f.out vfa) vfa))

/-- The walk of one access, restarted as often as a swap of flags fails (R314). -/
def walkFrom (vf ctx va : Nat) (a : Access) (kind cl : Nat) (core : Option Nat) (cid : Word) : Nat → State → State × Tr
  | 0, s =>
    let r := s.walkOnce true vf ctx va a kind cl core cid
    (r.1, r.2.getD .perm)
  | n + 1, s =>
    match s.walkOnce false vf ctx va a kind cl core cid with
    | (s, some t) => (s, t)
    | (s, none) => walkFrom vf ctx va a kind cl core cid n s

/-- The same with as many restarts as can be needed. -/
def State.pageWalk (s : State) (vf ctx va : Nat) (a : Access) (kind cl : Nat) (core : Option Nat) (cid : Word) : State × Tr :=
  walkFrom vf ctx va a kind cl core cid s.retries s

/-- The physical address that a TLB entry gives. -/
def TlbE.pa (e : TlbE) (va : Nat) : Nat := (e.out + (va / 4096 - e.page)) * 4096 + va % 4096

/-- Whether a TLB entry serves an access (R314, R318): a TLB holds no translation that ends in a secure region. -/
def TlbE.serves (e : TlbE) (cl vf ctx va : Nat) (a : Access) : Bool :=
  e.cl = cl && e.vf = vf && e.ctx = ctx && e.page ≤ va / 4096 && va / 4096 < e.page + e.num &&
    (!(needR a) || e.r) && (!(needW a) || (e.w && e.d)) && (!(needX a) || e.x) &&
    !carveOut (e.pa va)

/-- Whether an invalidation in progress covers a TLB entry (R319). -/
def Inv.covers (i : Inv) (e : TlbE) : Bool :=
  e.vf = i.vf && (if i.stg2 then i.page < e.mid + e.num && e.mid < i.page + i.num
    else e.ctx = i.ctx && i.page < e.page + e.num && e.page < i.page + i.num)

/-- Whether an invalidation in progress covers a walk cache entry (R319). -/
def Inv.leads (i : Inv) (w : WEnt) : Bool :=
  w.vf = i.vf && w.stg2 = i.stg2 && (i.stg2 || w.ctx = i.ctx) && i.page < w.page + w.num && w.page < i.page + i.num

/-- The entry that serves an access: of the core's micro-TLB, else of the cluster's TLB (R318). -/
def State.tlbHit (s : State) (vf ctx va : Nat) (a : Access) (cl : Nat) (core : Option Nat) : Option TlbE :=
  (core.bind fun c => s.utlb.find? fun e => e.serves c vf ctx va a).or (s.tlb.find? fun e => e.serves cl vf ctx va a)

/-- The translation of one access: a TLB entry of the core or its cluster, else the walk; during an invalidation that covers the
entry either may serve it (R318, R319). -/
def State.translate (s : State) (vf ctx va : Nat) (a : Access) (kind cl : Nat) (core : Option Nat) (cid : Word) : State × Tr :=
  match s.tlbHit vf ctx va a cl core with
  | none => s.pageWalk vf ctx va a kind cl core cid
  | some e =>
    let hit : Tr := .ok (e.pa va) ((e.mid + (va / 4096 - e.page)) * 4096 + va % 4096)
    if s.invs.any (fun i => i.covers e) && Config.freeBit (s.free * 65536 + 65535) then s.tick.pageWalk vf ctx va a kind cl core cid
    else if windowPa (e.out * 4096) && !(s.vf vf).pol.getLsbD 3 then (s, .scopeDeny)
    else
      match core with
      | some c =>
        if s.utlb.any fun x => x.serves c vf ctx va a then (s, hit)
        else ({ s with utlb := keepTlb Config.utlbMax (s.free * 65536 + 65518) { e with cl := c } s.utlb }, hit)
      | none => (s, hit)

/-! ## Private windows (R128, R130) -/

/-- Whether an address lies at or above plim in a private window of a live group of the context (R130). -/
def State.aboveLim (s : State) (key va : Nat) : Bool :=
  s.groups.any fun p =>
    p.2.st != .exited && p.2.win + p.2.plim * p.2.beats * 128 ≤ va &&
      va < p.2.win + (p.2.plim + 64 + p.2.dspill) * p.2.beats * 128 && s.keyOf p.2 = key

/-- A program's global access: the window check ranks as a stage-1 permission failure (R130, R316). -/
def State.access (s : State) (key va : Nat) (a : Access) (kind core : Nat) : State × Tr :=
  if s.aboveLim key va then (s, .perm)
  else s.translate (key / 65536) (key % 65536) va a kind (coreCl core) (if kind < 4 then some core else none) (coreCid core)

/-- The physical and VF address of a byte of a group's backing region or spill area, for the CX980's own traffic (R59): its page is
pinned while the group is resident (R130), so where a translation finds it unmapped after all the pinned address stands (DESIGN
CHOICE, log 127). -/
def State.ownPa (s : State) (g : Group) (va : Nat) (w : Bool) : State × Option (Nat × Nat) :=
  let key := s.keyOf g
  match s.translate (key / 65536) (key % 65536) va (if w then .write else .read) (if w then 1 else 0) (coreCl g.core)
      (some g.core) (coreCid g.core), g.pins.find? (va / 4096) with
  | (t, .ok pa vfa), _ => (t, some (pa, vfa))
  | _, some p => (s, some (p.1 * 4096 + va % 4096, p.2 * 4096 + va % 4096))
  | (t, _), none => (t, none)

/-- Pages translated for a core one after the other, as they are pinned; none once one of them cannot be (R130). -/
def State.pinList (key core : Nat) : List Nat → State → State × Option (Tbl (Nat × Nat))
  | [], s => (s, some [])
  | p :: ps, s =>
    match s.translate (key / 65536) (key % 65536) (p * 4096) .write 1 (coreCl core) (some core) (coreCid core) with
    | (s, .ok pa vfa) =>
      let r := State.pinList key core ps s
      (r.1, r.2.map fun t => t.set p (pa / 4096, vfa / 4096))
    | (s, _) => (s, none)

/-- The pages of a window at plim and above: those R130 pins. -/
def pinPages (win plim d beats : Nat) : List Nat :=
  let lo := (win + plim * beats * 128) / 4096
  let hi := (win + (plim + 64 + d) * beats * 128 + 4095) / 4096
  (List.range (hi - lo)).map (lo + ·)

/-- The root of a context's stage-1 table, where its descriptor is valid and enables it (R309, R385). -/
def State.root1 (s : State) (vf ctx : Nat) : Option Nat :=
  (s.ctxDesc vf ctx).bind fun d =>
    let root := (wAt d 0).toNat + (wAt d 1).toNat * 4294967296
    if !(wAt d 4).getLsbD 0 || !peV root || bits root 48 16 != 0 then none else some (peOa root)

/-- Where an address is mapped, whatever its permissions, without a record: for the cache forms, which never fault (R148, R315). The
machine after it has the flags of the leaves that the translation used; a stage-1 leaf in a table that may not be written keeps its
flags (R311, R314; DESIGN CHOICE, log 126). Where the address is not mapped nothing is done. -/
def State.mapUse (s : State) (key va : Nat) : State × Option Nat :=
  let vf := key / 65536
  let ctx := key % 65536
  match s.ctxAddr vf ctx, s.root1 vf ctx with
  | some da, some root =>
    match (s.useAddr vf da false).walk1 none vf ctx va 0 0#32 [1, 2, 3, 4] root with
    | (t, .ok (.leaf l)) =>
      match t.stage2 vf (l.out va) false false false with
      | .ok f =>
        let u := match t.touch1 none vf ctx va 0#32 l false with
          | (u, .ok _) => u
          | _ => t
        ((u.touch none f false).1, some (f.out (l.out va)))
      | _ => (s, none)
    | _ => (s, none)
  | _, _ => (s, none)

/-- Where an address is mapped, as a test that changes nothing. -/
def State.mapOnly (s : State) (key va : Nat) : Option Nat := (s.mapUse key va).2

/-- Bytes of the trap block of a context, read through stage 2 only (R358). -/
def State.trapBlock (s : State) (key : Nat) : Option (List Word × Nat) :=
  match s.ctxDesc (key / 65536) (key % 65536) with
  | none => none
  | some d =>
    let a := pair48 (wAt d 2) (wAt d 3)
    match s.stage2 (key / 65536) a true false false with
    | .ok l => some (leWords (s.homeView (l.out a) 64) 16, l.out a)
    | _ => none

/-- The machine after its trap unit has read a context's descriptor and its trap block, or written the block's tail: the flags of
the leaves it used are set (R311, R314). -/
def State.useTrap (s : State) (key : Nat) (w : Bool) : State :=
  match s.ctxAddr (key / 65536) (key % 65536) with
  | none => s
  | some da =>
    let s := s.useAddr (key / 65536) da false
    match s.ctxDesc (key / 65536) (key % 65536) with
    | some d => s.useAddr (key / 65536) (pair48 (wAt d 2) (wAt d 3)) w
    | none => s

/-- The partition that runs a context, where the descriptor exists and names one of the VF (R385). -/
def State.ctxPart (s : State) (vf ctx : Nat) : Option Nat :=
  match s.ctxDesc vf ctx with
  | some d =>
    let p := bits (wAt d 4).toNat 8 5
    if (wAt d 4).getLsbD 0 && (s.partsOf vf).contains p then some p else none
  | none => none

/-- The quarter-dies of a partition, in rising order (R378, R382). -/
def State.quarters (s : State) (p : Nat) : List Nat :=
  s.dev.partTbl.filterMap fun e => if bits e.2.toNat 15 1 = 1 && bits e.2.toNat 8 5 = p then some e.1 else none

/-- The fabric ports of a partition: port p of die d is number 12 d + p, and ports 3i to 3i + 2 belong to quarter-die i (R378, R398). -/
def State.portsOf (s : State) (p : Nat) : List Nat := (List.range 96).filter fun n => (s.quarters p).contains (n / 12 * 4 + n % 12 / 3)

/-- Whether a fabric port is up (R400). -/
def State.portUp (s : State) (n : Nat) : Bool := 2 ≤ ((s.die (n / 12)).ports.getD (n % 12) Port.init).st

/-- The ports of a context's partition that are up, where it has an endpoint identity (R401, R407). -/
def State.upPorts (s : State) (key : Nat) : List Nat :=
  match s.ctxPart (key / 65536) (key % 65536) with
  | some p => if (s.part p).eid.getLsbD 31 then (s.portsOf p).filter s.portUp else []
  | none => []

/-- The port that a context's remote accesses to a line travel on: chosen from those that are up by a fixed hash of the line address
(R405, R407). -/
def State.portFor (s : State) (key line : Nat) : Option Nat :=
  let l := s.upPorts key
  l[Config.portHash line % l.length]?

/-- Whether a context's partition may send through the fabric (R401, R407). -/
def State.sends (s : State) (key : Nat) : Bool := s.upPorts key != []

/-- Whether a core belongs to a partition (R378). -/
def State.coreIn (s : State) (p core : Nat) : Bool := (s.quarters p).contains (coreCl core / 24)

end Sys2Proof.Machine
end

