-- ==== Sys2Proof/Machine/Ops.lean ====
section
/-!
DEFINITION. Sys2Proof/Machine/Ops.lean: the shared operations on groups: the status word, taking an exception and
returning from one (R354-R361, R367), ending a group (R154, R368), parking and waking (R167-R170), giving way in a folded
chain (R202).
-/
namespace Sys2Proof.Machine

/-! ## The status word (R53) -/

def gstHdl (w : Word) : Bool := w.getLsbD 28
def gstChk (w : Word) : Bool := w.getLsbD 27
def gstSr (w : Word) : Bool := w.getLsbD 26
def gstDn (w : Word) : Bool := w.getLsbD 25
def gstRm (w : Word) : Nat := bits w.toNat 23 2
def gstRpi (w : Word) : Nat := bits w.toNat 17 6
def gstCls (w : Word) : Nat := bits w.toNat 30 2
def gstDrf (w : Word) : Bool := w.getLsbD 29

/-- The status word with the rpi field n. -/
def withRpi (w : Word) (n : Nat) : Word := (w &&& 0xFF81FFFF#32) ||| (toW (n % 64) <<< 17)

/-- The status word with the sticky flags of a set of five raised. -/
def withFlags (w : Word) (f : Nat) : Word := w ||| (toW (f % 32) <<< 8)

/-- The status view at a cycle: the flags of the float beats completed by then (R53). -/
def Group.gstAt (g : Group) (t : Nat) : Word :=
  g.flagPend.foldl (fun w p => if p.1 ≤ t then withFlags w p.2 else w) g.gst

/-- The status word once every float beat has completed (R53, R365). -/
def Group.fullGst (g : Group) : Word := g.flagPend.foldl (fun w p => withFlags w p.2) g.gst

/-- Completed float beats entered into the status word. -/
def Group.settleFlags (g : Group) (t : Nat) : Group :=
  { g with gst := g.gstAt t, flagPend := g.flagPend.filter fun p => t < p.1 }

/-- The next word's address (R10). -/
def nextPc (pc : Nat) : Nat := (pc + 4) % 281474976710656

/-- The address of the first gloss of a group's chain, or of the instruction where it has none (R26). -/
def Group.firstPc (g : Group) : Nat := (g.pc + 281474976710656 - 4 * g.chain.length) % 281474976710656

/-- Every earlier instruction of a group complete, but for what its counters cover (R69): fixed-latency results and float flags
stand. -/
def Group.rest (g : Group) : Group := { g with pend := [], gst := g.fullGst, flagPend := [] }

/-- Whether a pop has left fewer than 16 held entries while spilled ones remain: the newest of those comes back before the group's next
instruction issues (R66). -/
def Group.lowStack (g : Group) : Bool := g.stkSp != 0 && decide (g.stk.length < 16)

/-- The status word as a frame or a read shows it: xsv2 without its reserved bits (R360). -/
def causeWord (w : Word) : Word := w &&& 0xFFF#32

/-- A group pending from cycle t on: ready once its next word passes the stall rule (R157, R159). -/
def Group.ready (g : Group) (t : Nat) : Group :=
  { g with st := .pending, readySince := max g.nextIssue t, boost := 0, boostAt := max g.nextIssue t }

/-! ## Copies and batches of a group (R226, R227) -/

/-- Copies a group has issued. -/
def State.copiesOf (s : State) (g : Nat) : List (Nat × Copy) := s.copies.filter fun c => c.2.gid = some g

/-- Copies of the copy engine in flight of a cluster; those of a saved unit are held by its save (R217, R231). -/
def State.copiesIn (s : State) (cl : Nat) : Nat :=
  (s.copies.filter fun c => c.2.kind = 0 && c.2.cl = cl && !c.2.fin && !s.unitAway c.2.unit).length

/-- Whether batch n counts as complete: no copy of it or of an earlier batch is incomplete (R227). -/
def State.batchDone (s : State) (g : Nat) (n : Word) : Bool :=
  let m := (s.grp g).sealed
  (s.copiesOf g).all fun c =>
    c.2.fin || c.2.batch = 0#32 || (m - c.2.batch).toNat < (m - n).toNat

/-! ## Pages of the state store (R293, R301) -/

/-- Page sets a sequence refers to. -/
def SqSeq.sets (q : SqSeq) : List Nat := q.layers.flatMap fun l => l.set :: l.ring.map (·.2)

/-- Page sets that transfers of a die use. -/
def State.movingSets (s : State) (die : Nat) : List Nat :=
  s.copies.filterMap fun c =>
    match c.2.sq with
    | [d, _, _, ps] => if d = die && !c.2.fin then some ps else none
    | _ => none

/-- Pages that no state, waypoint or transfer holds are freed (R293, R301). -/
def State.freeSets (s : State) (die : Nat) : State :=
  let d := s.die die
  let used := (d.seqs.flatMap fun q => q.2.sets) ++ s.movingSets die
  s.setDie die { d with sets := d.sets.filter fun p => used.contains p.1 }

/-- The copies and transfers of a group dropped, with the state pages that only they held (R232, R288, R290, R301). -/
def State.dropCopies (s : State) (g : Nat) : State :=
  let s := { s with copies := s.copies.filter fun c => c.2.gid != some g }
  (List.range 8).foldl (fun s d => if (s.die d).sets = [] then s else s.freeSets d) s

/-! ## Ending a group (R154, R368) -/

/-- The service counts of a context started, or stopped, as its handler task takes or leaves a core (R354, R409). -/
def State.servRun (s : State) (key : Nat) (on : Bool) : State :=
  let c := s.ctx key
  s.setCtx key { c with service := c.service.map fun v =>
    match v.since with
    | some t => if on then v else { v with past := v.past + ((s.core v.core).cycle - t), since := none }
    | none => if on then { v with since := some (s.core v.core).cycle } else v }

/-- The handler task of a context has exited: none runs, and no service is counted (R362, R409). -/
def State.handlerOver (s : State) (key k : Nat) : State :=
  if (s.ctx key).handler = some k then
    let s := s.servRun key false
    s.setCtx key { s.ctx key with handler := none, first := [] }
  else s

/-- The unit of a group that has exited: done once every group of it has. -/
def State.unitDone (s : State) (u : Nat) : State :=
  if (s.groupsOf u).all (fun p => p.2.st = .exited) && !(s.unit u).done then
    let x := s.unit u
    let w := s.work x.work
    let s := s.setUnit u { x with done := true, cores := [], claims := [], bars := [] }
    let s := s.setWork x.work { w with live := w.live - 1, gone := w.gone + 1 }
    if w.handler then s.handlerOver (ctxKey w.vf w.ctx) x.work else s
  else s

/-- A parked regroup answered in cycle t: d takes v, and the group goes on at the next word (R207). -/
def Group.regroupEnd (g : Group) (t d next stall : Nat) (v : Word) : Group :=
  { g with
    st := .pending
    wait := none
    pc := next
    chain := []
    nextIssue := t + max stall 1
    glossAt := t + 1
    readySince := t + max stall 1
    boost := 0
    boostAt := t + max stall 1
    pend := if d < 48 then g.pend ++ [⟨.scal d, t + 2, [wAt g.sr d]⟩] else g.pend
    sr := if d < 48 then g.sr.set d v else g.sr }

/-- Groups of a unit parked in a regroup that names gix, but for the one of gix except, continue with 0 (R207). -/
def State.partnerGone (s : State) (u gix : Nat) (except : Option Nat) : State :=
  { s with groups := s.groups.map fun p =>
      match decide (p.2.unit = u), p.2.wait with
      | true, some (0xD, .partner k d next stall _) =>
        if k = gix && p.2.st = .parked && some p.2.gix != except then
          (p.1, p.2.regroupEnd (s.core p.2.core).cycle d next stall 0#32)
        else p
      | _, _ => p }

/-- A group ends: its slot and rename entries are free, its pages are no longer pinned (R130, R368). -/
def State.exitGroup (s : State) (g : Nat) : State :=
  let x := s.grp g
  let s := s.setGrp g { x with st := .exited, vr := [], ops := [], chain := [], wait := none, held := false, pend := []
                               fences := [], trapPend := none, notice := none, sqReq := none, pins := [], lru := [] }
  (s.partnerGone x.unit x.gix none).unitDone x.unit

/-! ## Links of a chain (R196-R201) -/

/-- The link a port of a stage is bound to: as its input, or as its output. -/
def State.linkOf (s : State) (g : Group) (q : Nat) (input : Bool) : Option (Nat × Link) :=
  match (s.unit g.unit).chain with
  | some c =>
    (c.links.zipIdx.find? fun l =>
      if input then l.1.kind != 2 && l.1.cs = g.stage && l.1.cq = q else l.1.kind != 1 && l.1.ps = g.stage && l.1.pq = q).map
      fun l => (l.2, l.1)
  | none => none

/-- Items a link holds at most: a queue of 8, in folded form a hand-over register of one (R201). -/
def ChainSt.room (c : ChainSt) : Nat := if c.folded then 1 else 8

/-- Whether a wait is one for a load or store stream of the group's chain (R202). -/
def State.onStream (s : State) (g : Group) (w : WaitOn) : Bool :=
  match w with
  | .portItem q => (s.linkOf g q true).any fun l => l.2.kind = 1
  | .portRoom q => (s.linkOf g q false).any fun l => l.2.kind = 2
  | _ => false

/-- Whether a folded chain stands still until a stream acts for its running stage (R202). -/
def State.streamHeld (s : State) (u : Nat) : Bool :=
  match (s.unit u).chain with
  | some c => c.folded && (s.groupsOf u).any fun p => p.2.stage = c.run && p.2.st = .parked && p.2.wait.any fun w => s.onStream p.2 w.2
  | none => false

/-! ## Giving way in a folded chain (R202) -/

/-- How far downstream a stage lies: the longest path of stage links that ends in it, by n rounds. -/
def stageRank : Nat → List Link → Nat → Nat
  | 0, _, _ => 0
  | n + 1, ls, k => ls.foldl (fun m l => if l.kind = 0 && l.cs = k then max m (stageRank n ls l.ps + 1) else m) 0

/-- The most downstream stage of a chain that can run (R202): of those at one distance the highest-numbered (DESIGN CHOICE, log 13). -/
def State.nextStage (s : State) (u : Nat) : Option (Nat × Group) :=
  let ls := match (s.unit u).chain with
    | some c => c.links
    | none => []
  let can := (s.groupsOf u).filter fun p => (p.2.st = .pending || p.2.st = .active) && !p.2.held
  can.foldl (fun b p =>
    match b with
    | none => some p
    | some q => if stageRank 4 ls q.2.stage ≤ stageRank 4 ls p.2.stage then some p else some q) none

/-- The slot of a folded chain given to a stage: the chain is one group (R157, R201), so its entry into the active set stands, and it has
been ready for the stage's next word since that may issue (R158, R159). -/
def State.runStage (s : State) (u : Nat) (k : Nat) (act : Bool) : State :=
  match (s.unit u).chain with
  | some c =>
    let since := ((s.groupsOf u).find? fun p => p.2.stage = c.run).map (·.2.entered)
    let s := s.modUnit u fun x => { x with chain := some { c with run := k } }
    { s with groups := s.groups.map fun p =>
        if p.2.unit = u && (p.2.st = .pending || p.2.st = .active) then
          if p.2.stage = k && c.run != k then
            let t := max p.2.nextIssue (s.core p.2.core).cycle
            (p.1, { p.2 with st := if act then .active else .pending, entered := since.getD p.2.entered, boost := 0, boostAt := t,
                             readySince := t })
          else (p.1, { p.2 with st := if p.2.stage = k && act then .active else .pending })
        else p }
  | none => s

/-- After the running stage of a folded chain has stopped: the next stage runs in its slot, if one can (R202). -/
def State.giveWay (s : State) (u : Nat) (act : Bool) : State :=
  if (s.unit u).foldedChain && !s.streamHeld u then
    match s.nextStage u with
    | some p => s.runStage u p.2.stage act
    | none => s
  else s

/-! ## Raising a trap (R355, R356) -/

/-- The record of a trap of a group at an upper rung (R363). -/
def State.trapRec (s : State) (g rung : Nat) (t : Trap) : TrapRec :=
  let x := s.grp g
  let w := s.workOf x
  ⟨rung, ctxKey w.vf w.ctx, 0, some x.unit, some g, 0, t, toW w.serial, toW x.bix, coreCid x.core, x.gix, 0#32⟩

/-- A group stopped at an issue boundary until its trap is served (R361, R362). -/
def State.hold (s : State) (g : Nat) (t : Trap) : State :=
  let x := s.grp g
  (s.setGrp g { x.rest with held := true, pc := t.pc, chain := [], st := .pending, wait := none, notice := none, sqReq := none }
    ).giveWay x.unit false

/-- Pool base and frame count of a context (R358). -/
def State.pool (s : State) (key : Nat) : Option (Nat × Nat) :=
  (s.trapBlock key).map fun b => (pair48 (wAt b.1 12) (wAt b.1 13), bits (wAt b.1 14).toNat 0 20)

/-- The n lowest frames of a context that hold nothing; which free frames a save takes is not stated (DESIGN CHOICE, log 40). -/
def State.freeFrames (s : State) (key nfr n : Nat) : Option (List Nat) :=
  let used := (s.ctx key).frames.map (·.1)
  let f := ((List.range (min nfr (used.length + n))).filter fun k => !used.contains k).take n
  if f.length = n then some f else none

/-- Whether a unit of the partition that runs a context is being saved, or a pre-emption could not write one (R355, R370, R372). -/
def State.saving (s : State) (key : Nat) : Bool :=
  match s.ctxPart (key / 65536) (key % 65536) with
  | some p => ((s.part p).busy && !(s.part p).res) || (s.part p).err
  | none => false

/-- Whether a save that a unit is due cannot be written, since no frame of its context is free (R355, R372). -/
def State.stuckSave (s : State) (u : Nat) : Bool :=
  let w := s.work (s.unit u).work
  (s.unit u).unsaved && match s.pool (ctxKey w.vf w.ctx) with
    | some p => (s.freeFrames (ctxKey w.vf w.ctx) p.2 1).isNone
    | none => true

/-- A record for the context rung, passed to the partition rung while a save is under way (R355), or one for a rung above it. -/
def State.trapUp (s : State) (r : TrapRec) : State :=
  let r := if r.rung = 2 && (s.saving r.key || r.unit.any s.stuckSave) then { r with rung := 3, trap := { r.trap with psd := true } } else r
  { s with trapQ := s.trapQ ++ [r] }

/-- The records raised at the context rung in this step that no group raised: each passes to the partition rung while a save is under
way (R355). -/
def State.placeRecs (s : State) : State :=
  { s with trapQ := s.trapQ.map fun r =>
      if r.rung = 8 then
        if s.saving r.key then { r with rung := 3, trap := { r.trap with rung := 2, psd := true } }
        else { r with rung := 2, trap := { r.trap with rung := 2 } }
      else r }

/-- A trap at the context rung or above waits for its step (R362, R364). -/
def State.raiseUp (s : State) (g rung : Nat) (t : Trap) : State :=
  let r := s.trapRec g rung t
  let s := s.hold g t
  { s with trapQ := s.trapQ ++ [r] }

/-- A draft that takes a trap is discarded and reported at the context rung (R289). -/
def State.draftTrap (s : State) (g : Nat) (d : Nat × Nat) (t : Trap) : State :=
  let x := s.grp g
  let w := s.workOf x
  let r := s.trapRec g 2 { t with info := toW w.serial + toW x.bix, rung := 2, psd := false }
  let s := ((s.draftDrop d).setDraft d .discarded).dropCopies g
  ((s.setGrp g { x with draft := none }).exitGroup g).trapUp r

/-- The cause word of R360. -/
def Trap.word (t : Trap) : Word := toW ((if t.psd then 2048 else 0) + t.rung * 256 + t.cause)

/-- Entry into handler mode (R359): the saved PC and status, the cause word and the information are saved, s40-s47 are set
aside for the handler bank, the status fields are cleared, and the PC is the vector. -/
def Group.enterHandler (g : Group) (pc : Nat) (cause info : Word) (a2 a3 harea : Word × Word) (vec : Nat) : Group :=
  { g with
    hiPc := pc / 4294967296
    bank := g.sr.drop 40
    sr := g.sr.take 40 ++ [harea.1, harea.2, a2.1, a3.1, toW pc, g.fullGst, cause, info]
    gst := (g.fullGst &&& 0xE0001F00#32) ||| 0x10000000#32
    flagPend := []
    pend := []
    chain := []
    pf := []
    wait := none
    notice := none
    sqReq := none
    pc := vec }

/-- Leaving handler mode (R367): status, s40-s47 and PC restored. -/
def Group.leaveHandler (g : Group) : Group :=
  { g with
    xsv := g.sr.drop 44
    gst := wAt g.sr 45
    sr := g.sr.take 40 ++ g.bank
    bank := List.replicate 8 0#32
    pc := g.hiPc * 4294967296 + (wAt g.sr 44).toNat
    rung := 0
    flagPend := []
    pend := g.pend.filter fun p => !((List.range 8).any fun i => p.cell = .scal (40 + i))
    chain := [] }

/-- A vector of 0, or one not word-aligned, is no handler (R355). -/
def goodVec (v : Nat) : Bool := v != 0 && v % 4 = 0

/-- TAKING AN EXCEPTION: a trap of a group raised at a rung (R354-R359). A draft takes it at the context rung; a handler
passes it up; the group rung is entered at once; the block rung holds the group until its handler enters. -/
def State.raise (s : State) (g : Nat) (rung : Nat) (t : Trap) : State :=
  let x := s.grp g
  let w := s.workOf x
  let up : Trap := { t with psd := true }
  match x.draft with
  | some d => s.draftTrap g d t
  | none =>
    if w.handler && rung < 3 then s.raiseUp g 3 up
    else
      let saving := s.saving (ctxKey w.vf w.ctx) || s.stuckSave x.unit
      let (rung, t) := if saving && rung < 3 then (rung + 1, up) else (rung, t)
      let (rung, t) := if rung = 0 && x.rung = 1 then (1, up) else (rung, t)
      let (rung, t) := if rung < 2 && x.rung = 2 then (2, up) else (rung, t)
      if rung = 0 then
        let tb := s.trapBlock (ctxKey w.vf w.ctx)
        let s := s.useTrap (ctxKey w.vf w.ctx) false
        let x := s.grp g
        match tb with
        | some (b, _) =>
          let v := pair48 (wAt b 0) (wAt b 1)
          if goodVec v then
            let x := x.enterHandler t.pc t.word t.info (0#32, 0#32) (0#32, 0#32) (wAt b 6, wAt b 7 &&& 0xFFFF#32) v
            s.setGrp g { x with
              rung := 1
              served := t.cause
              service := 0
              serviceAt := (s.core x.core).cycle
              st := if x.st = .active then .active else .pending
              trapPend := none }
          else (s.hold g { t with psd := true }).modUnit x.unit fun u => { u with btraps := u.btraps ++ [(some g, up)] }
        | none => (s.hold g up).modUnit x.unit fun u => { u with btraps := u.btraps ++ [(some g, up)] }
      else if rung = 1 then (s.hold g t).modUnit x.unit fun u => { u with btraps := u.btraps ++ [(some g, t)] }
      else s.raiseUp g rung t

/-- The rung a cause is first raised at (R356). -/
def causeRung (c : Nat) : Nat := if c = 0x0A then 1 else if c = 0x15 || c = 0x1B then 2 else 0

/-- A trap of an issuing group: its cause at the rung of R356. -/
def State.trapAt (s : State) (g cause : Nat) (info : Word) (pc : Nat) : State :=
  s.raise g (causeRung cause) ⟨cause, info, pc, causeRung cause, false⟩

/-! ## Parking and waking (R167-R170) -/

/-- The word at a physical address that a parked group waits on: in a draft that of its own copy (R195, R285). -/
def State.wordSeen (s : State) (g : Group) (pa : Nat) : Word :=
  match g.draft.bind fun d => s.draftAt d (pa / 128) with
  | some x => leWord ((x.bytes.drop (pa % 128)).take 4)
  | none => s.memWord pa

/-- Whether a wait condition holds (R168). -/
def State.holds (s : State) (g : Nat) (w : WaitOn) : Bool :=
  let x := s.grp g
  let u := s.unit x.unit
  match w with
  | .ctr c t | .waitc c t _ => x.count c ≤ t
  | .batch n => s.batchDone g n
  | .barPhase a tok => u.phaseLeft a tok
  | .barRoom a k =>
    match u.bar? a with
    | some b => k < b.k
    | none => true
  | .word pa v => s.wordSeen x pa = v
  | .yield | .done => true
  | .portItem q =>
    match u.chain with
    | some c => c.links.any fun l => l.kind != 2 && l.cs = x.stage && l.cq = q && (l.items != [] || l.ended || (l.kind = 1 && l.cnt ≤ l.next))
    | none => true
  | .portRoom q =>
    match u.chain with
    | some c => c.links.any fun l => l.kind != 1 && l.ps = x.stage && l.pq = q && l.items.length < c.room
    | none => true
  | .launchRoom => (s.core x.core).launchQ.length < 4
  | .taskRoom => (s.cluster (coreCl x.core)).taskQ.length < Config.taskMax
  | .unclaimed rs => rs.all fun r => !u.claimed r.1 r.2
  | .keys ks => ks.any fun k => !s.fkeys.contains k
  | .partner _ _ _ _ _ => false
  | .formSwitch _ =>
    match u.chain with
    | some c => !c.pending
    | none => true
  | .copyRoom => s.copiesIn (coreCl x.core) < Config.copyMax

/-- The satisfier class of a park: 3 the hardware (R168). -/
def State.satisfier (s : State) (g code : Nat) (w : WaitOn) (cls : Nat) : Nat :=
  let u := s.unit (s.grp g).unit
  match w with
  | .barPhase a _ | .barRoom a _ =>
    match u.bar? a with
    | some b => b.cls
    | none => 3
  | .word _ _ => if code = 5 then cls else 3
  | .partner _ _ _ _ _ => 0
  | _ => 3

/-- A group that leaves the active set in cycle t (R157). -/
def State.leave (s : State) (core t : Nat) : State := s.setCore core { s.core core with left := t }

/-- A group parks (R167): it leaves the active set with its PC at the instruction, or at the first gloss, earlier instructions
complete (R69). -/
def State.park (s : State) (g code : Nat) (w : WaitOn) (pc : Nat) : State :=
  let x := s.grp g
  let act := x.st = .active
  let s := s.leave x.core (s.core x.core).cycle
  (s.setGrp g { x.rest with
    st := .parked
    wait := some (code, w)
    pc := pc
    chain := []
    notice := none
    boost := 0
    starve := 0
    parkedAt := (s.core x.core).cycle }).giveWay x.unit act

/-- A stage of a folded chain that has become able to run takes the slot where the running stage cannot (R202). -/
def State.takeSlot (s : State) (g : Nat) : State :=
  let x := s.grp g
  match (s.unit x.unit).chain with
  | some c =>
    if c.folded && !s.streamHeld x.unit &&
        ((s.groupsOf x.unit).all fun p => p.2.stage != c.run || (p.2.st != .active && p.2.st != .pending))
    then s.runStage x.unit x.stage false
    else s
  | none => s

/-- PARK_WAKE: a parked group whose condition holds becomes pending (R156, R167). -/
def State.wake (s : State) (g : Nat) : State :=
  let x := s.grp g
  match x.st, x.wait with
  | .parked, some (_, w) =>
    if !x.held && s.holds g w then
      (s.setGrp g { x.ready (s.core x.core).cycle with
        wait := none
        pc := match w with
          | .formSwitch next | .waitc _ _ next => next
          | _ => x.pc }).takeSlot g
    else s
  | _, _ => s

/-- Every parked group whose condition holds wakes. -/
def State.settle (s : State) : State := (s.groups.map (·.1)).foldl (fun s g => s.wake g) s

/-! ## Fences (R334) -/

/-- Whether a fence's condition for reads, and for all accesses at its scope, holds: at group scope every write is complete from its
issue on, since the group itself is the one observer (R138, R334). -/
def FenceRec.readsDone (f : FenceRec) : Bool := f.reads = 0
def FenceRec.allDone (f : FenceRec) : Bool :=
  if f.scope = 0 then f.readsDone else f.g + f.w + f.p + f.x = 0 && f.dirty = []

/-- How many operations of a counter a fence lies behind. -/
def FenceRec.count (f : FenceRec) : Ctr → Nat
  | .g => f.g
  | .w => f.w
  | .p => f.p
  | .x => f.x

/-- Whether a fence has nothing left to hold or to order (R138, R334). -/
def FenceRec.spent (f : FenceRec) : Bool := f.readsDone && f.allDone && f.g + f.w + f.p + f.x = 0

/-- The class of an access for the fences: 0 read, 1 write, 2 read-write, 3 signalling (R333). -/
def FenceRec.holds (f : FenceRec) (cls : Nat) : Bool :=
  match f.kind with
  | 0 => !f.readsDone
  | 1 => cls != 0 && !f.allDone
  | 2 => !f.readsDone || (cls != 0 && !f.allDone)
  | _ => !f.allDone

/-- A fence told that the oldest operation of a counter, a read or not, has completed (R141). -/
def FenceRec.lower (f : FenceRec) (c : Ctr) (read : Bool) : FenceRec :=
  let n := match c with
    | .g => f.g
    | .w => f.w
    | .p => f.p
    | .x => f.x
  if n != 0 then
    let f := if read then { f with reads := f.reads - 1 } else f
    match c with
    | .g => { f with g := f.g - 1 }
    | .w => { f with w := f.w - 1 }
    | .p => { f with p := f.p - 1 }
    | .x => { f with x := f.x - 1 }
  else f

end Sys2Proof.Machine
end

