-- ==== Sys2Proof/Machine/Flags.lean ====
section
/-!
DEFINITION. Sys2Proof/Machine/Flags.lean: raising float flags, enabled exceptions, and the information words of FPX,
STALLCHK and DRYREAD (R53, R63, R70, R110).
-/
namespace Sys2Proof.Machine

/-- The five trap enables of a status word (R53). -/
def gstEn (w : Word) : Nat := w.toNat % 32

/-- The flags a float beat raises, pending until its result is readable (R53). -/
def Group.raiseFlags (g : Group) (ready f : Nat) : Group :=
  if f = 0 then g else { g with flagPend := g.flagPend ++ [(ready, f)] }

/-- The first beat that raises an enabled exception and all the exceptions that beat raised, where there is one (R70; the
beat is DEDUCED, log 12). -/
def fpxOf (en : Nat) (beats : List (Nat × Nat)) : Option (Nat × Nat) := beats.find? fun p => p.2 &&& en != 0

/-- The information word of FPX: the exceptions in [4:0], the beat in [6:5] (R70). -/
def fpxInfo (beat f : Nat) : Word := toW (f % 32 + beat * 32)

/-- The number of a cell in an information word: index, and 1 in [6] for the scalar space (R70). -/
def RCell.code : RCell → Nat
  | .vec n _ => n
  | .scal n => n + 64

/-- The information word of STALLCHK (R70). -/
def stallInfo (c : RCell) (beat : Nat) (var : Bool) : Word :=
  toW (c.code + beat * 128 + (if var then 512 else 0))

/-- The information word of DRYREAD (R70). -/
def dryInfo (n beat : Nat) : Word := toW (n + beat * 128)

/-- The flags a setst or the program clears, and the fields it writes (R54): RW fields from the source, W1C flags cleared,
the rest kept. -/
def setstWord (old src : Word) : Word :=
  ((old &&& ~~~0x0F80001F#32) ||| (src &&& 0x0F80001F#32)) &&& ~~~(src &&& 0x00001F00#32)

end Sys2Proof.Machine
end

