-- ==== Sys2Proof/Machine/Operands.lean ====
section
/-!
DEFINITION. Sys2Proof/Machine/Operands.lean: glosses and the checks of a word or chain (R11-R38), the scoreboard check
(R61-R64), reading every operand form, writing registers, renaming, spilling and refilling (R55-R59), ports (R196-R198).
-/
namespace Sys2Proof.Machine

/-! ## Glosses (R22-R30) -/

/-- The glosses of a chain. -/
structure Gloss where
  imm   : Option GImm
  grep  : Option GRep
  gmod  : Option GMod
  gext  : Option GExt
  stall : Option GStall
  scale : Option GScale
  deriving DecidableEq, Repr

def Gloss.none : Gloss := ⟨.none, .none, .none, .none, .none, .none⟩

/-- A gloss word entered into the glosses of its chain. -/
def Gloss.add (g : Gloss) (w : Word) : Gloss :=
  match decodeGroup w with
  | .ok (.gimm o) => { g with imm := some o }
  | .ok (.grep o) => { g with grep := some o }
  | .ok (.gmod o) => { g with gmod := some o }
  | .ok (.gext o) => { g with gext := some o }
  | .ok (.gstall o) => { g with stall := some o }
  | .ok (.gscale o) => { g with scale := some o }
  | _ => g

def Gloss.ofChain (c : List Word) : Gloss := c.foldl Gloss.add Gloss.none

/-- Major opcode and function code of a word (R10, R16). -/
def wMajor (w : Word) : Nat := bits w.toNat 25 7
def wFn (w : Word) : Nat := bits w.toNat 5 7
/-- Which gloss a gloss word is: major and kind (R25). -/
def wGloss (w : Word) : Nat := bits w.toNat 23 9
def isGloss (w : Word) : Bool := wMajor w = 0x7C || wMajor w = 0x7D

/-- Whether a gloss, with its set fields, applies to the instruction word that ends the chain (R24, R25): step 3 of R38, before its
payload is checked; a gloss of a reserved kind has failed step 2. -/
def glossApplies (gw w : Word) : Bool :=
  let m := wMajor w
  let f := wFn w
  let isIn := fun (l : List Nat) => l.contains m
  let p := bits gw.toNat 0 23
  match wGloss gw with
  | 0x1F0 => 0x50 ≤ m && m ≤ 0x56
  | 0x1F1 => (0x01 ≤ m && m ≤ 0x13) || (0x18 ≤ m && m ≤ 0x3E) || (0x40 ≤ m && m ≤ 0x57) || (0x60 ≤ m && m ≤ 0x6A)
  | 0x1F2 =>
    p != 0 &&
    (bits p 20 3 = 0 || isIn [0x20, 0x21, 0x22, 0x23, 0x26, 0x27, 0x28, 0x29, 0x2A, 0x2B, 0x2C, 0x30, 0x31, 0x34, 0x36, 0x37] ||
      (m = 0x38 && 8 ≤ f && f ≤ 31)) &&
    (bits p 19 1 = 0 || isIn [0x26, 0x27, 0x28, 0x29, 0x2A, 0x2B] ||
      (m = 0x38 && (f ≤ 7 || f = 10 || f = 11 || (16 ≤ f && f ≤ 31) || (48 ≤ f && f ≤ 63)))) &&
    (bits p 16 3 = 0 || isIn [0x60, 0x61, 0x62, 0x63, 0x66, 0x67]) &&
    (bits p 12 4 = 0 || isIn [0x60, 0x61, 0x66, 0x67]) &&
    (bits p 11 1 = 0 || m = 0x3B)
  | 0x1F3 =>
    if m = 0x13 then bits p 15 8 = 0
    else bits p 12 3 = 0 && (isIn [0x06, 0x23, 0x28, 0x2B] || (0x30 ≤ m && m ≤ 0x37))
  | 0x1F5 => isIn [0x30, 0x31, 0x34]
  | _ => true

/-- The step size of a grep (R23). -/
def grepStep (o : GRep) : Nat := 2 ^ o.w.toNat
/-- The repeats of a grep (R28). -/
def grepCount (o : GRep) : Nat := o.n.toNat + 1
def grepFlag (o : GRep) : Fld → Bool
  | .d => o.x = 1#1
  | .a => o.y = 1#1
  | .b => o.z = 1#1
  | .k => false

/-- The repeats of a chain: 1 without grep. -/
def Gloss.count (g : Gloss) : Nat :=
  match g.grep with
  | some o => grepCount o
  | .none => 1

/-- The offset of a field in repeat r (R28). -/
def Gloss.off (g : Gloss) (f : Fld) (r : Nat) : Nat :=
  match g.grep with
  | some o => if grepFlag o f then r * grepStep o else 0
  | .none => 0

/-! ## Operand limits (R12-R14, R18, R28, R32, R36) -/

/-- The limits of a role that the group's register count or width adds (R14, R91). -/
def roleOkFor (regs : Nat) : Role → Bool
  | .vsrc x => srcIdx x < regs
  | .xsrc x f => f = 1#1 || srcIdx x < regs
  | .vdst x n => x.toNat + n ≤ regs
  | .vreg x => x.toNat < regs
  | _ => true

/-- Whether a stepped field keeps its limits in every repeat (R28). -/
def roleOkRep (regs cnt step : Nat) : Role → Bool
  | .vsrc x => srcIdx x + (cnt - 1) * step < regs
  | .xsrc x f =>
    if f = 0#1 then srcIdx x + (cnt - 1) * step < regs else srcIdx x + (cnt - 1) * step < 48
  | .ssrc x => srcIdx x + (cnt - 1) * step < 48
  | .vdst x n => x.toNat + (cnt - 1) * step + n ≤ regs && (cnt = 1 || step % n = 0)
  | .sdst x => x.toNat + (cnt - 1) * step < 48
  | .sdstN x n => x.toNat + (cnt - 1) * step + n ≤ 48 && (cnt = 1 || step % n = 0)
  | .sdat x n => x.toNat + (cnt - 1) * step + n ≤ 48 && (cnt = 1 || step % n = 0)
  | _ => false

/-- Whether the ranges of a grep hold for an instruction (R28): a flagged field names a register, in every repeat. -/
def grepOk (o : GRep) (rs : List (Fld × Role)) (regs : Nat) : Bool :=
  [Fld.d, .a, .b].all fun f =>
    !grepFlag o f || ((rs.any fun r => r.1 = f) && rs.all fun r => r.1 != f || roleOkRep regs (grepCount o) (grepStep o) r.2)

/-- The immediate of an F-I word: imm9 sign-extended, or with a gimm its payload above imm9 (R19). -/
def immOf (g : Gloss) (i : BitVec 9) : Word :=
  match g.imm with
  | some p => (p.p.setWidth 32 <<< 9) ||| i.setWidth 32
  | .none => i.signExtend 32

/-- The target of a branch at pc with a word offset (R20). -/
def target (pc : Nat) (off : Int) : Nat := ((Int.ofNat pc + 4 + 4 * off) % (281474976710656 : Int)).toNat

/-- Limits that need more than a role: a ballot's words, the shift of vshli, the 4 GiB region of mark and brd (R84, R91,
R97, R99). Where a stepped repeat makes only a ballot's last word pass s47, the instruction word is reported (R99; DESIGN CHOICE,
log 115). -/
def extraOk (i : Instr) (g : Gloss) (beats pc : Nat) : Bool :=
  match i with
  | .vvoteBallot o => o.d = 56#6 ||
      o.d.toNat + (match g.grep with
        | some p => if p.x = 1#1 then (grepCount p - 1) * grepStep p else 0
        | .none => 0) + beats ≤ 48
  | .vshli o => (immOf g o.i).toNat < 32
  | .mark o => target pc o.o.toInt / 4294967296 = pc / 4294967296
  | .brd o => target pc o.o.toInt / 4294967296 = pc / 4294967296 && (pc + 4) / 4294967296 = pc / 4294967296
  | _ => true

/-- Whether the word of an instruction, with its glosses, keeps its operand limits (step 4 of R38). -/
def instrOk (i : Instr) (g : Gloss) (regs beats pc : Nat) : Bool :=
  i.wf && (i.roles.all fun r => roleOkFor regs r.2) && extraOk i g beats pc

/-- The register fields that the format of a word's major gives it, whatever its other fields hold: those a grep before a word that
breaks step 4 of R38 may step (R28, R32). -/
def fieldRoles (w : Word) : List (Fld × Role) :=
  let m := wMajor w
  let d : BitVec 6 := w.extractLsb' 19 6
  let a : BitVec 7 := w.extractLsb' 12 7
  let z : BitVec 3 := w.extractLsb' 4 3
  if (0x38 ≤ m && m ≤ 0x3B) || m = 0x3D then [(.d, .vdst d 1), (.a, .xsrc a (w.extractLsb' 4 1))]
  else if m = 0x3C || m = 0x3E then [(.d, .sdst d), (.a, .vsrc a)]
  else if 0x40 ≤ m && m ≤ 0x4F then [(.d, .sdst d), (.a, .ssrc a), (.b, .ssrc (w.extractLsb' 5 7))]
  else if m = 0x52 then [(.d, .vdst d 1)]
  else if m = 0x56 then [(.d, .sdst d)]
  else if m = 0x57 then [(.d, .sdst d), (.a, .ssrc a)]
  else if 0x60 ≤ m && m ≤ 0x65 then [(.d, .vdst d (sizeRegs z)), (.a, .vsrc a)]
  else if m = 0x66 then [(.d, .sdstN d (sizeRegs z)), (.a, .ssrc a)]
  else if m = 0x67 then [(.d, .sdat d (sizeRegs z)), (.a, .ssrc a)]
  else if 0x68 ≤ m && m ≤ 0x6A then [(.d, .vdst d (aopRegs (w.extractLsb' 3 4))), (.a, .vsrc a)]
  else []

/-- Whether a gloss word before an instruction with these register fields keeps its own fields and limits (step 4 of R38): reserved
bits, gmod agreement, operand c and the scale registers, the ranges of grep and rpi. -/
def glossOk (gw : Word) (rs : List (Fld × Role)) (regs rpi : Nat) : Bool :=
  match decodeGroup gw with
  | .ok (.gext o) =>
    if o.fc = 1#1 then !srcDry o.c else srcIdx o.c < regs
  | .ok (.gmod o) => (o.e = 1#1 || o.m = 0#2) && (o.o = 1#1 || o.q = 0#3) && o.q != 7#3 && o.c.toNat < 4
  | .ok (.gscale o) => o.a.toNat < regs && o.b.toNat < regs
  | .ok (.grep o) => grepOk o rs regs && rpi < grepCount o
  | .ok _ => true
  | .error _ => false

/-- Step 3 of R38: the first gloss in chain order that appears a second time or does not apply to the word (R24, R25). -/
def ruleFault (w : Word) : List Word → List Nat → Option Word
  | [], _ => none
  | g :: t, seen => if seen.contains (wGloss g) || !glossApplies g w then some g else ruleFault w t (wGloss g :: seen)

/-- Steps 1 to 4 of R38 for a chain and the instruction that ends it: the word at fault. -/
def chainFault (c : List Word) (i : Instr) (w : Word) (regs beats pc rpi : Nat) : Option Word :=
  match c.find? fun g => wMajor g = 0x7D && 2 ≤ bits g.toNat 23 2 with
  | some g => some g
  | none =>
    match ruleFault w c [] with
    | some g => some g
    | none =>
      match c.find? fun g => !glossOk g i.roles regs rpi with
      | some g => some g
      | none => if instrOk i (Gloss.ofChain c) regs beats pc then none else some w

/-! ## How an instruction stops -/

/-- Why an instruction does not simply complete. -/
inductive Stop where
  /-- a trap with nothing of the instruction taking effect; its saved PC is the word at fault -/
  | trap (cause : Nat) (info : Word)
  /-- the same, first raised at a rung other than the one of R356 -/
  | trapRung (rung cause : Nat) (info : Word)
  /-- a trap after the instruction's effects, its last beat in a cycle; its saved PC is the next word -/
  | after (cause : Nat) (info : Word) (last : Nat)
  /-- a park with its reason code and the class the instruction declares -/
  | park (code : Nat) (w : WaitOn) (cls : Nat)
  /-- spilled entries to bring back first -/
  | refill (cs : List RCell)
  /-- the instruction does not issue now -/
  | wait
  /-- the CX980's own traffic found no mapping -/
  | broken
  deriving DecidableEq, Repr

/-- A result, or the state in which the instruction stops and why. -/
abbrev R (α : Type) := Except (State × Stop) α

/-- What an issuing instruction knows: group number and record, glosses, repeat, issue cycle, its word. -/
structure IX where
  gid : Nat
  g   : Group
  gl  : Gloss
  rep : Nat
  t   : Nat
  w   : Word
  deriving DecidableEq, Repr

/-- Register fields in the current repeat (R28). -/
def IX.d (x : IX) (v : BitVec 6) : Nat := v.toNat + x.gl.off .d x.rep
def IX.a (x : IX) (v : BitVec 7) : Nat := srcIdx v + x.gl.off .a x.rep
def IX.b (x : IX) (v : BitVec 7) : Nat := srcIdx v + x.gl.off .b x.rep

/-! ## The scoreboard check (R63) -/

/-- A read or write of a cell by a beat in a cycle. -/
structure Use where
  cell : RCell
  beat : Nat
  cyc  : Nat
  write : Bool
  deriving DecidableEq, Repr

/-- Whether a use breaks R63: an early read, or a cell with a pending variable-latency write. -/
def Group.breaks (g : Group) (u : Use) : Option Bool :=
  if g.varPending u.cell then some true
  else if !u.write && g.pend.any (fun p => p.cell = u.cell && u.cyc < p.ready) then some false
  else none

/-- The check of R63 over the uses of an instruction, in their order: STALLCHK first, then DRYREAD. -/
def Group.scoreboard (g : Group) (us : List Use) : Option Stop :=
  if !gstChk g.gst then none
  else
    match us.find? fun u => (g.breaks u).isSome with
    | some u => some (.trap 0x04 (stallInfo u.cell u.beat ((g.breaks u).getD false)))
    | none =>
      us.findSome? fun u =>
        match u.cell, u.write with
        | .vec n b, false => if g.vr.find? (3 * n + b) = some .dry then some (.trap 0x1C (dryInfo n b)) else none
        | _, _ => none

/-! ## Values of cells (R55, R64) -/

/-- The free-bit number of a choice for a lane of a cell in this step. -/
def freeAt (s : State) (c : RCell) (lane : Nat) : Nat :=
  s.free * 65536 + (match c with
    | .vec n b => n * 4 + b
    | .scal n => 256 + n) * 64 + lane

/-- Whether a cell is a scalar. -/
def RCell.isScal : RCell → Bool
  | .scal _ => true
  | .vec _ _ => false

/-- 32 lanes of 0. -/
def zeroLanes : Lanes := List.replicate 32 0#32

/-- The lanes a cell holds: 0 where unmapped or dry. -/
def Group.cellNow (g : Group) : RCell → Lanes
  | .vec n b =>
    match g.vr.find? (3 * n + b) with
    | some (.mapped v _) => v
    | _ => zeroLanes
  | .scal n => [wAt g.sr n]

/-- The words an access of n bytes and size code z gives its registers: sign-extended, zero-extended, or words (R133). -/
def loadWords (z : Nat) (b : List Byte) : List Word :=
  match z with
  | 0 => [toW (leNat b)]
  | 1 => [((BitVec.ofNat 8 (leNat b)).signExtend 32)]
  | 2 => [toW (leNat b)]
  | 3 => [((BitVec.ofNat 16 (leNat b)).signExtend 32)]
  | _ => leWords b (b.length / 4)

/-- What a pending operation has received for a cell: lane and word (R64, R141). -/
def Op.arrived (o : Op) (c : RCell) : List (Nat × Word) :=
  o.accs.flatMap fun a =>
    if a.fin && !a.bad && a.new != [] then
      (loadWords o.z a.new).zipIdx.filterMap fun w =>
        let cell := if o.vec then RCell.vec (o.d + a.reg + w.2) (a.lane / 32) else .scal (o.d + a.reg + w.2)
        if cell = c then some (if o.vec then a.lane % 32 else 0, w.1) else none
    else []

/-- What n lanes read of a cell in a cycle, lane l of them from lane src l of the cell: a read that outruns its producer takes the
old or the new value in each lane, the new one of a variable-latency result only once it has arrived (R64; DEDUCED, log 23). Of two
pending fixed-latency writes the old value is the one before both (DESIGN CHOICE, log 115). xsv2[31:12] read 0 (R360). -/
def readFrom (s : State) (g : Group) (c : RCell) (cyc n : Nat) (src free : Nat → Nat) : Lanes :=
  let v := (List.range n).map fun l => (g.cellNow c).getD (src l) 0#32
  let v := (g.pend.filter fun p => p.cell = c && cyc < p.ready).foldr
    (fun p v => v.zipIdx.map fun q => Config.pick (freeAt s c (free q.2)) (p.old.getD (src q.2) 0#32) q.1) v
  g.ops.foldl (fun v o => if (g.cellsOf o).contains c then
      (o.arrived c).foldl (fun v r => v.zipIdx.map fun q =>
        if src q.2 = r.1 then Config.pick (freeAt s c (free q.2)) q.1 r.2 else q.1) v
    else v) v |>.map fun w => if c = .scal 46 && gstHdl g.gst then w &&& 0xFFF#32 else w

/-- The lanes a read of a cell in a cycle returns (R64). -/
def readCell (s : State) (g : Group) (c : RCell) (cyc : Nat) : Lanes :=
  readFrom s g c cyc (if c.isScal then 1 else 32) id id

/-- A scalar cell read by every lane of a beat: the choice of R64 is each lane's own. -/
def readWide (s : State) (g : Group) (n b cyc : Nat) : Lanes :=
  readFrom s g (.scal n) cyc 32 (fun _ => 0) fun l => 8192 * (b + 1) + l

/-- A scalar-space value that is not a port or lid (R12); blk, gix and the rest by R47. -/
def scalarVal (s : State) (g : Group) (n cyc : Nat) : Word :=
  if n < 48 then (readCell s g (.scal n) cyc).headD 0#32
  else match n with
    | 58 => toW g.gix
    | 59 => toW g.bix
    | 60 => toW (g.gpb * g.beats * 32)
    | 61 => toW cyc
    | 62 => g.gstAt cyc
    | 63 => g.arg
    | _ => 0#32

/-! ## Private memory of a group (R59, R129) -/

/-- The address of private word i of lane l (R129). -/
def Group.privVa (g : Group) (i l : Nat) : Nat := g.win + (i * g.beats * 32 + l) * 4

/-- A draft's own write that finds no draft way: DRAFTFULL at its next issue boundary, where the draft is discarded (R286, R289). -/
def State.draftFullTrap (s : State) (gid va : Nat) : State :=
  s.modGrp gid fun g => if g.trapPend.isSome then g else { g with trapPend := some ⟨0x0C, toW va, 0, 0, false⟩ }

/-- A draft's own spill or refill that meets the fabric window: DRAFTSIDE at its next issue boundary (R286, R404). -/
def State.draftSideTrap (s : State) (gid : Nat) : State :=
  s.modGrp gid fun g => if g.trapPend.isSome then g else { g with trapPend := some ⟨0x0D, 0#32, 0, 0, false⟩ }

/-- One line of the backing region written by the CX980's own traffic (R59, R285, R286); of one in the fabric window the bytes go to
their remote home (R402; DESIGN CHOICE, log 127). -/
def State.privPut (s : State) (gid i l : Nat) (b : List Byte) : State × Bool :=
  let g := s.grp gid
  match s.ownPa g (g.privVa i l) true with
  | (s, some (pa, vfa)) =>
    let v := ((s.keyOf g) / 65536, vfa)
    if windowPa pa then (if g.draft.isSome then s.draftSideTrap gid else s.homeWrite (some v) pa b, true) else
    match g.draft with
    | some d =>
      if (s.draftOver d [pa / 128]).isSome then (s.draftFullTrap gid (g.privVa i l), true) else (s.draftWrite d v pa b, true)
    | none =>
      let s := if s.mayStore g.core pa b.length then s else s.claim (s.l1For g.core pa) (pa / 128) (spanOfBytes (pa % 128) b.length)
      (s.l1Store g.core v pa b, true)
  | (s, none) => (s, false)

/-- Bytes of the backing region read (R59). -/
def State.privGet (s : State) (gid i l n : Nat) : State × Option (List Byte) :=
  let g := s.grp gid
  match s.ownPa g (g.privVa i l) false with
  | (s, some (pa, _)) =>
    if windowPa pa then
      let r := s.homeRead pa n
      (if g.draft.isSome then r.1.draftSideTrap gid else r.1, some r.2)
    else
    match g.draft with
    | some d =>
      let r := s.draftRead d (coreCl g.core) pa n
      (r.1, some r.2)
    | none => (s, some ((List.range n).map fun k => (s.l1Byte? g.core (pa + k)).getD (s.mem.read (pa + k))))
  | (s, none) => (s, none)

/-! ## Renaming (R55-R58) -/

/-- The mapped entries of a group. -/
def Group.mappedCount (g : Group) : Nat :=
  (g.vr.filter fun e => match e.2 with
    | .mapped _ _ => true
    | _ => false).length

/-- The physical entries in use on a core (R55). -/
def State.entriesUsed (s : State) (c : Nat) : Nat := (s.resident c).foldl (fun n p => n + p.2.mappedCount) 0

/-- The least recently used mapped entry of a group outside the active set or of a stage that does not run (R58). Of entries last used
in one cycle the first in the order of group, register and beat is taken (DESIGN CHOICE, log 116). -/
def State.victim (s : State) (c : Nat) : Option (Nat × Nat × Lanes) :=
  let all := (s.resident c).flatMap fun p =>
    if p.2.st = .active && s.onStage p.2 then []
    else p.2.vr.filterMap fun e => match e.2 with
      | .mapped v u => some (p.1, e.1, v, max u (p.2.lru.getD e.1 0))
      | _ => none
  (all.foldl (fun b e => match b with
    | none => some e
    | some x => if e.2.2.2 < x.2.2.2 then some e else some x) none).map fun e => (e.1, e.2.1, e.2.2.1)

/-- REGISTER_SPILL: entries spilled until one is free (R58). -/
def State.spill (s : State) (c : Nat) : State × Bool :=
  if s.entriesUsed c < Config.coreEntries then (s, true)
  else
    match s.victim c with
    | none => (s, true)
    | some (g, k, v) =>
      let x := s.grp g
      let r := s.privPut g (x.plim + k / 3) (32 * (k % 3)) (v.flatMap fun w => leBytes 4 w.toNat)
      (r.1.modGrp g fun y => { y with vr := y.vr.set k .spilled }, r.2)

/-- A beat of a vector register written in the lanes of a mask (R56): a fresh entry starts at zero; the result is readable
lat cycles later (R61). -/
def writeVec (s : State) (gid n b : Nat) (mask : Word) (v : Lanes) (cyc lat : Nat) : R State :=
  let g := s.grp gid
  let k := 3 * n + b
  let fresh := match g.vr.find? k with
    | some (.mapped _ _) => false
    | _ => true
  let r := if fresh then s.spill g.core else (s, true)
  if !r.2 then .error (r.1, .broken)
  else
    let s := r.1
    let g := s.grp gid
    let old := g.cellNow (.vec n b)
    let new := old.zipIdx.map fun q => if mask.getLsbD q.2 then v.getD q.2 0#32 else q.1
    .ok (s.setGrp gid { g with
      vr := g.vr.set k (.mapped new cyc)
      pend := g.pend ++ [⟨.vec n b, cyc + lat, old⟩]
      ops := g.ops.map fun o => if o.cells.contains (.vec n b) then { o with newer := (.vec n b, mask) :: o.newer } else o })

/-- A scalar written (R12): zr discards it. -/
def writeScal (s : State) (gid n : Nat) (v : Word) (cyc lat : Nat) : State :=
  if 48 ≤ n then s
  else
    let g := s.grp gid
    s.setGrp gid { g with
      sr := g.sr.set n v
      pend := if lat = 0 then g.pend.filter fun p => p.cell != .scal n else g.pend ++ [⟨.scal n, cyc + lat, [wAt g.sr n]⟩]
      ops := g.ops.map fun o =>
        if (g.cellsOf o).contains (.scal n) then { o with newer := (.scal n, 1#32) :: o.newer } else o }

/-- The register released by a dry bit in every beat (R57). -/
def Group.dryReg (g : Group) (n : Nat) : Group :=
  { g with
    vr := (List.range g.beats).foldl (fun m b => m.set (3 * n + b) .dry) g.vr
    pend := g.pend.map fun p => match p.cell with
      | .vec m _ => if m = n then { p with old := zeroLanes } else p
      | .scal _ => p }

/-- Cells of a list that are spilled. -/
def Group.spilledOf (g : Group) (cs : List RCell) : List RCell :=
  cs.filter fun c => match c with
    | .vec n b => g.vr.find? (3 * n + b) = some .spilled
    | .scal _ => false

/-! ## Ports (R196-R198, R202) -/

/-- One link of a chain replaced. -/
def State.setLink (s : State) (u k : Nat) (l : Link) : State :=
  s.modUnit u fun x => match x.chain with
    | some c => { x with chain := some { c with links := c.links.set k l } }
    | none => x

/-- A port trap: no such port for the group, or a stream that has ended (R196). -/
def portTrap (s : State) (g : Group) (q : Nat) (input : Bool) : Option Stop :=
  match s.linkOf g q input with
  | none => some (.trap 0x0F (toW q))
  | some (_, l) =>
    if input then
      if l.kind = 1 && l.items = [] && (l.cnt ≤ l.next || l.ended) then some (.trap 0x0F (toW q)) else none
    else if l.kind = 2 && (l.cnt ≤ l.next + l.items.length || l.ended) then some (.trap 0x0F (toW q)) else none

/-- The items an instruction pops from the ports it reads, each once (R197, R198): a trap, a park on the lowest-numbered
empty port, or the state without those items. -/
def popPorts (s : State) (gid : Nat) (qs : List Nat) : R (State × Tbl Item) :=
  let g := s.grp gid
  let qs := sortBy (fun a b => a ≤ b) qs.eraseDups
  match qs.findSome? fun q => portTrap s g q true with
  | some st => .error (s, st)
  | none =>
    match qs.find? fun q => match s.linkOf g q true with
      | some (_, l) => l.items = []
      | none => true with
    | some q => .error (s, .park 0x7 (.portItem q) 0)
    | none =>
      .ok (qs.foldl (fun (a : State × Tbl Item) q =>
        match a.1.linkOf g q true with
        | some (k, l) =>
          match l.items with
          | it :: t => (a.1.setLink g.unit k { l with items := t }, a.2.set q it)
          | [] => a
        | none => a) (s, []))

/-- An item pushed to a port (R197, R198, R201): a trap, a park on a full port, or the state with the item. -/
def pushPort (s : State) (gid q : Nat) (it : Item) : R State :=
  let g := s.grp gid
  if g.draft.isSome then .error (s, .trap 0x0D 0#32)
  else match portTrap s g q false with
  | some st => .error (s, st)
  | none =>
    match s.linkOf g q false with
    | some (k, l) =>
      let room := if (s.unit g.unit).foldedChain then 1 else 8
      if room ≤ l.items.length then .error (s, .park 0x8 (.portRoom q) 0)
      else .ok (s.setLink g.unit k { l with items := l.items ++ [it] })
    | none => .error (s, .trap 0x0F (toW q))

end Sys2Proof.Machine
end

