-- ==== Sys2Proof/Machine/Issue.lean ====
section
/-!
DEFINITION. Sys2Proof/Machine/Issue.lean: how a word issues (R10, R22-R30, R61-R69): the shared frame of every group
instruction, the beats of a vector instruction (R45, R46, R52, R57, R86, R197), and the reads and writes of a scalar one.
-/
namespace Sys2Proof.Machine
open Host (Outcome)

/-- What an issued instruction leaves: the state with its effects, the cycle of its last beat, the target of a transfer it
takes, an enabled float exception (R70), and the stage of a folded chain it gives way to (R202). -/
structure Eff where
  s    : State
  last : Nat
  pc   : Option Nat
  fpx  : Option Word
  give : Option Nat
  deriving DecidableEq, Repr

/-- An instruction complete in one cycle that falls through. -/
def Eff.plain (x : IX) (s : State) : Eff := ⟨s, x.t, none, none, none⟩

/-- A transfer. -/
def Eff.jump (x : IX) (s : State) (pc : Nat) : Eff := ⟨s, x.t, some pc, none, none⟩

/-- The repeat an instruction issues as: gst.rpi where its chain holds grep, else 0 (R28). -/
def Gloss.repOf (gl : Gloss) (gst : Word) : Nat := if gl.grep.isSome then gstRpi gst else 0

/-- The stall count: the gstall count, or the S field (R15, R30). -/
def Gloss.stallOf (gl : Gloss) (sf : Nat) : Nat :=
  match gl.stall with
  | some o => o.n.toNat
  | .none => sf

/-- The cycle in which a group's next word issues on its core (R62, R160). -/
def State.issueCycle (s : State) (g : Group) (vec : Bool) : Nat :=
  max (s.core g.core).cycle (max g.nextIssue (if vec then (s.core g.core).vbusy else 0))

/-- The core after an issue in cycle t whose last beat is in cycle last. -/
def State.coreTime (s : State) (c t last : Nat) (vec : Bool) : State :=
  let k := s.core c
  s.setCore c { k with cycle := t + 1, vbusy := if vec then last + 1 else k.vbusy }

/-- The vector registers that the instruction being issued names (R28, R29, R120). -/
def IX.named (x : IX) : List Nat :=
  (match decodeGroup x.w with
    | .ok i => i.roles.flatMap fun r =>
      let at_ := fun (n : Nat) => n + x.gl.off r.1 x.rep
      match r.2 with
      | .vsrc v => [at_ (srcIdx v)]
      | .xsrc v f => if f = 0#1 then [at_ (srcIdx v)] else []
      | .vreg v => [at_ v.toNat]
      | .vdst v n => (List.range n).map fun j => at_ (v.toNat + j)
      | _ => []
    | .error _ => []) ++
  (match x.gl.gext with
    | some o => if o.fc = 0#1 then [srcIdx o.c] else []
    | none => []) ++
  (match x.gl.scale with
    | some o => [o.a.toNat, o.b.toNat]
    | none => [])

/-- The last use of each entry of some registers set to a cycle, in the beats that issue or, in the lane-exchange forms and cpyx, in
all (R58, R86). -/
def Group.useRegs (g : Group) (w : Word) (t : Nat) (ns : List Nat) : Tbl Nat :=
  let bs := (List.range g.beats).filter fun b =>
    [0x1F, 0x3B, 0x3C, 0x3E, 0x6F].contains (wMajor w) || wAt g.sr b != 0#32
  ns.foldl (fun m n => bs.foldl (fun m b => m.set (3 * n + b) t) m) g.lru

/-- The group once an instruction, or one repeat of it, is complete (R28, R58, R62, R159). -/
def Group.retire (g : Group) (x : IX) (e : Eff) (sf : Nat) : Group :=
  let more := x.gl.grep.isSome && x.rep + 1 < x.gl.count
  let next := e.last + max (x.gl.stallOf sf) 1
  { g.settleFlags x.t with
    lru := x.g.useRegs x.w x.t x.named
    mid := false
    gst := if x.gl.grep.isSome then withRpi (g.gstAt x.t) (if more then x.rep + 1 else 0) else g.gstAt x.t
    pc := if more then g.pc else e.pc.getD (nextPc g.pc)
    chain := if more then g.chain else []
    pend := g.pend.filter fun p => x.t < p.ready
    nextIssue := next
    glossAt := e.last + 1
    readySince := next
    boost := 0
    boostAt := next }

/-- A spilled entry or stack entry is brought back first (R58, R66): the group leaves the active set. -/
def State.refillAt (s : State) (gid : Nat) (cs : List RCell) : State :=
  let x := s.grp gid
  let act := x.st = .active
  let s := s.leave x.core (s.core x.core).cycle
  (s.setGrp gid { x with st := .refilling, refill := cs, pc := x.firstPc, chain := [] }).giveWay x.unit act

/-- The slot of a folded chain given to a stage that can run; where it cannot, to the most downstream one that can (R202). -/
def State.giveTo (s : State) (u k : Nat) (act : Bool) : State :=
  match (s.groupsOf u).find? fun p => p.2.stage = k with
  | some p =>
    let s := s.wake p.1
    if (s.grp p.1).st = .pending && !(s.grp p.1).held then s.runStage u k act else s.giveWay u act
  | none => s.giveWay u act

/-- The stage at the other end of a stage link of a folded chain that a group waits on (R202). -/
def State.otherEnd (s : State) (g : Group) (w : WaitOn) : Option Nat :=
  if (s.unit g.unit).foldedChain then
    match w with
    | .portItem q => match s.linkOf g q true with
      | some (_, l) => if l.kind = 0 then some l.ps else none
      | none => none
    | .portRoom q => match s.linkOf g q false with
      | some (_, l) => if l.kind = 0 then some l.cs else none
      | none => none
    | _ => none
  else none

/-- A group that goes on at the next word once its wait in park.waitc or for a form switch is over: the stall of the word it parks in
runs from its issue (R62, R143, R211). -/
def Group.stalled (g : Group) (x : IX) (w : WaitOn) (sf : Nat) : Group :=
  match w with
  | .waitc _ _ _ | .formSwitch _ => { g with nextIssue := x.t + max (x.gl.stallOf sf) 1, glossAt := x.t + 1 }
  | _ => g

/-- What a stop does to the machine. A group parked in park.waitc keeps its PC at that word until it wakes, when it goes on at the next
one (R143, R167; DESIGN CHOICE, log 128). -/
def State.stopAt (s : State) (x : IX) (sf : Nat) (vec : Bool) : Stop → Out State
  | .trap cause info => .next ((s.trapAt x.gid cause info x.g.firstPc).coreTime x.g.core x.t x.t vec)
  | .trapRung rung cause info =>
    .next ((s.raise x.gid rung ⟨cause, info, x.g.firstPc, rung, false⟩).coreTime x.g.core x.t x.t vec)
  | .after cause info last =>
    let s := s.modGrp x.gid fun g => g.retire x ⟨s, last, none, none, none⟩ sf
    .next ((s.trapAt x.gid cause info (nextPc x.g.pc)).coreTime x.g.core x.t last vec)
  | .park code w cls =>
    if s.satisfier x.gid code w cls = 2 then
      .next ((s.trapAt x.gid 0x09 (toW code) x.g.firstPc).coreTime x.g.core x.t x.t vec)
    else
      let s := (s.modGrp x.gid (·.stalled x w sf)).park x.gid code w x.g.firstPc
      let s := s.coreTime x.g.core x.t x.t vec
      match s.otherEnd x.g w with
      | some k => .next (s.giveTo x.g.unit k (x.g.st = .active))
      | none => .next s
  | .refill cs => .next (s.refillAt x.gid cs)
  | .wait => .next s
  | .broken => .fault .backingUnmapped

/-- What an instruction knows as it issues. -/
def State.ixOf (s : State) (vec : Bool) : IX :=
  let g := s.grp s.cur
  let gl := Gloss.ofChain g.chain
  ⟨s.cur, g, gl, gl.repOf g.gst, s.issueCycle g vec, s.iw⟩

/-- Retirement of an instruction whose effects are e: its group, its core, and an enabled float exception (R70, R127). -/
def State.finish (x : IX) (sf : Nat) (vec : Bool) (e : Eff) : State :=
  let s := (e.s.modGrp x.gid fun g => g.retire x e sf).coreTime x.g.core x.t e.last vec
  let s := match e.give with
    | some k => s.giveTo x.g.unit k (x.g.st = .active)
    | none => if (s.grp x.gid).st != x.g.st then s.giveWay x.g.unit (x.g.st = .active) else s
  match e.fpx with
  | some w =>
    let g := s.grp x.gid
    s.trapAt x.gid 0x17 w g.firstPc
  | none => s

/-- Whether a fence still holds an access of a class back (R334). -/
def Group.fenced (g : Group) (cls : Option Nat) : Bool :=
  match cls with
  | some c => g.fences.any fun f => f.holds c
  | none => false

/-- An rpi left by a handler's return is 0 from the issue of a word without grep (R367). -/
def Group.dropRpi (g : Group) : Group :=
  if !(g.chain.any fun w => wGloss w = 0x1F1) && gstRpi g.gst != 0 then { g with gst := withRpi g.gst 0 } else g

/-- THE FRAME OF EVERY GROUP INSTRUCTION: an access a fence holds waits; the chain is checked by R38; the body reads, checks
and acts; then the instruction retires. -/
def issue (cls : Option Nat) (vec : Bool) (i : Instr) (sf : BitVec 3) (body : IX → State → R Eff) (s : State) : Out State :=
  let s := s.modGrp s.cur Group.dropRpi
  let x := s.ixOf vec
  if x.g.fenced cls then .next s
  else
    match chainFault x.g.chain i s.iw x.g.regs x.g.beats x.g.pc x.rep with
    | some w => s.stopAt x sf.toNat vec (.trap 0x01 w)
    | none =>
      match body x s with
      | .ok e => .next (State.finish x sf.toNat vec e)
      | .error (s, st) => s.stopAt x sf.toNat vec st

/-- A vector instruction: it waits for the vector datapath (R160). -/
def issueV (i : Instr) (sf : BitVec 3) (body : IX → State → R Eff) (s : State) : Out State := issue none true i sf body s

/-- An instruction that makes no memory access and needs no vector datapath. -/
def issueS (i : Instr) (sf : BitVec 3) (body : IX → State → R Eff) (s : State) : Out State := issue none false i sf body s

/-- A gloss word: it takes an issue slot of its own and joins the chain (R22, R26). -/
def issueGloss (s : State) : Out State :=
  let g := s.grp s.cur
  let t := (s.core g.core).cycle
  .next ((s.setGrp s.cur { g with chain := g.chain ++ [s.iw], mid := true, pc := nextPc g.pc }).coreTime g.core t t false)

/-! ## Beats (R45, R46, R52) -/

/-- An issued beat: number, cycle, activity mask word. -/
structure Beat where
  b : Nat
  cyc : Nat
  mask : Word
  deriving DecidableEq, Repr

/-- Whether a cell has no write pending that a read in a cycle could outrun (R64). -/
def Group.settled (g : Group) (c : RCell) (cyc : Nat) : Bool :=
  !(g.pend.any fun p => p.cell = c && cyc < p.ready) && !g.varPending c

/-- The words of a mask from its bits. -/
def maskOf (f : Nat → Bool) : Word := (List.range 32).foldl (fun m l => if f l then m ||| (1#32 <<< l) else m) 0#32

/-- The mask word of a beat: where a write of it is pending, the bit of each lane is that of the value this lane reads, the same one
that it takes as an operand of the beat (R64). -/
def readMask (s : State) (g : Group) (b cyc : Nat) : Word :=
  if g.settled (.scal b) cyc then wAt g.sr b
  else
    let v := readWide s g b b cyc
    maskOf fun l => (v.getD l 0#32).getLsbD l

/-- The beats bs from a cycle on, each with the cycle in which it reads its mask word: one whose mask word is zero is skipped and
takes no cycle. -/
def beatsFrom (s : State) (g : Group) : List Nat → Nat → List Beat
  | [], _ => []
  | b :: bs, c =>
    let m := readMask s g b c
    ⟨b, c, m⟩ :: beatsFrom s g bs (if m = 0#32 then c else c + 1)

/-- The beats among bs that issue from a cycle on. -/
def planFrom (s : State) (g : Group) (bs : List Nat) (c : Nat) : List Beat := (beatsFrom s g bs c).filter fun q => q.mask != 0#32

/-- The beats a vector instruction issues. -/
def plan (s : State) (x : IX) : List Beat := planFrom s x.g (List.range x.g.beats) x.t

/-- The cycle of the last beat, or the only issue cycle. -/
def lastCyc (x : IX) (p : List Beat) : Nat := (p.getLast?.map (·.cyc)).getD x.t

/-! ## Sources (R11, R12, R29, R72) -/

/-- A source of a vector instruction: a vector register, an index of the scalar and special space, or the word of a
condition triple that the beat reads. -/
inductive Src where
  | vec (n : Nat)
  | sc (n : Nat)
  | trip (t : Nat)
  deriving DecidableEq, Repr

/-- The source a field and its file bit name. -/
def srcOf (n : Nat) (f : BitVec 1) : Src := if f = 1#1 then .sc n else .vec n

def IX.srcA (x : IX) (v : BitVec 7) (f : BitVec 1) : Src := srcOf (x.a v) f
def IX.srcB (x : IX) (v : BitVec 7) (f : BitVec 1) : Src := srcOf (x.b v) f

/-- Registers that the dry bits of two sources release. -/
def dryOf (n : Nat) (v : BitVec 7) (f : BitVec 1) : List Nat := if f = 0#1 && srcDry v then [n] else []

def IX.dryAB (x : IX) (a b : BitVec 7) (fa fb : BitVec 1) : List Nat := dryOf (x.a a) a fa ++ dryOf (x.b b) b fb

/-- The addend of a fused form: d, or the operand c of gext, with what c releases (R29). -/
def IX.addend (x : IX) (d : BitVec 6) : Src × List Nat :=
  match x.gl.gext with
  | some o => (srcOf (srcIdx o.c) o.fc, dryOf (srcIdx o.c) o.c o.fc)
  | none => (.vec (x.d d), [])

/-- The ports among sources. -/
def portsOf (l : List Src) : List Nat := l.filterMap fun x => match x with
  | .sc n => if 48 ≤ n && n < 56 then some (n - 48) else none
  | _ => none

/-- The cell a source reads in a beat. -/
def Src.cell (b : Nat) : Src → Option RCell
  | .vec n => some (.vec n b)
  | .sc n => if n < 48 then some (.scal n) else none
  | .trip t => some (.scal (3 * t + b))

/-- The value of a source in a beat. -/
def Src.read (s : State) (x : IX) (items : Tbl Item) (b c : Nat) : Src → Lanes
  | .vec n => readCell s x.g (.vec n b) c
  | .trip t => readWide s x.g (3 * t + b) b c
  | .sc n =>
    if 48 ≤ n && n < 56 then
      match items.find? (n - 48) with
      | some it => it.vals.getD b zeroLanes
      | none => zeroLanes
    else if n = 57 then (List.range 32).map fun l => toW (32 * b + l)
    else if n < 48 then readWide s x.g n b c
    else List.replicate 32 (scalarVal s x.g n x.t)

/-! ## Gathering the operands of a vector instruction -/

/-- A beat with its source values; act is the mask of the lanes it acts in (R197). -/
structure Row where
  b    : Nat
  cyc  : Nat
  mask : Word
  act  : Word
  vals : List Lanes
  deriving DecidableEq, Repr

/-- Value i of a row in a lane. -/
def Row.at (r : Row) (i l : Nat) : Word := (r.vals.getD i zeroLanes).getD l 0#32

/-- The gathered operands: state with the ports popped, the issued beats, the beats the instruction does not issue
(read by lane exchange), the cycle of the last beat. -/
structure Gath where
  s    : State
  rows : List Row
  rest : List Row
  last : Nat
  deriving DecidableEq, Repr

/-- A scalar that a vector instruction writes: its number and the beat that writes it, where it is the word of one beat of a
condition triple (R51, R73); every other is written by the last beat that issues (R86). -/
abbrev SDst := Nat × Option Nat

/-- The uses of an instruction for R63: mask words as their beats read them, sources, destinations. -/
def usesOf (x : IX) (all p : List Beat) (xch : Bool) (srcs : List Src) (dv : List Nat) (ds : List SDst) : List Use :=
  let masks : List Use := all.map fun q => ⟨.scal q.b, q.b, q.cyc, false⟩
  let reads : List Use :=
    if xch then (List.range x.g.beats).flatMap fun b => srcs.filterMap fun r => (r.cell b).map fun c => ⟨c, b, x.t, false⟩
    else p.flatMap fun q => srcs.filterMap fun r => (r.cell q.b).map fun c => ⟨c, q.b, q.cyc, false⟩
  let writes : List Use := p.flatMap fun q => dv.map fun n => ⟨.vec n q.b, q.b, q.cyc, true⟩
  let swrites : List Use := (ds.filter (·.1 < 48)).map fun n =>
    match n.2.bind fun b => p.find? fun q => q.b = b with
    | some q => ⟨.scal n.1, q.b, q.cyc, true⟩
    | none => ⟨.scal n.1, (p.getLast?.map (·.b)).getD 0, lastCyc x p, true⟩
  masks ++ (if p = [] then [] else reads ++ writes ++ swrites)

/-- The operands of a vector instruction that writes vector registers dv and scalars ds: spilled entries are brought back
first, R63 is checked, ports are popped, every source is read; xch reads every beat in the first beat's cycle (R86). -/
def gather (x : IX) (s : State) (xch : Bool) (srcs : List Src) (dv : List Nat) (ds : List SDst) : R Gath :=
  let p := plan s x
  let us := usesOf x (beatsFrom s x.g (List.range x.g.beats) x.t) p xch srcs dv ds
  let sp := x.g.spilledOf (us.map (·.cell))
  if sp != [] then .error (s, .refill sp.eraseDups)
  else
    match x.g.scoreboard us with
    | some st => .error (s, st)
    | none =>
      if p = [] then .ok ⟨s, [], [], x.t⟩
      else if portsOf srcs != [] && x.g.fenced (some 0) then .error (s, .wait)
      else do
        let r ← popPorts s x.gid (portsOf srcs)
        let act := fun (b : Nat) (m : Word) => r.2.foldl (fun m e => m &&& wAt e.2.mask b) m
        let rows := p.map fun q =>
          ⟨q.b, q.cyc, q.mask, act q.b q.mask, srcs.map fun z => z.read s x r.2 q.b (if xch then x.t else q.cyc)⟩
        let rest := if xch then ((List.range x.g.beats).filter fun b => p.all fun q => q.b != b).map fun b =>
            ⟨b, x.t, 0#32, 0#32, srcs.map fun z => z.read s x r.2 b x.t⟩ else []
        pure ⟨r.1, rows, rest, lastCyc x p⟩

/-- Registers released after every read (R57). -/
def dryAll (s : State) (gid : Nat) (ds : List Nat) : State :=
  s.modGrp gid fun g => ds.foldl (fun g n => g.dryReg n) g

/-- The rows of a destination register written in the lanes they act in (R46, R56). -/
def writeRows (gid n lat : Nat) : List (Row × Lanes) → State → R State
  | [], s => .ok s
  | r :: rs, s =>
    match writeVec s gid n r.1.b r.1.act r.2 r.1.cyc lat with
    | .ok s => writeRows gid n lat rs s
    | .error e => .error e

/-- A condition triple written: a word for each issued beat, 0 for the others (R50, R73), which are written by the last beat that issues
(DESIGN CHOICE, log 128). -/
def writeTriple (s : State) (gid t lat last : Nat) (rows : List (Row × Word)) : State :=
  (List.range 3).foldl (fun s b =>
    match rows.find? fun r => r.1.b = b with
    | some r => writeScal s gid (3 * t + b) (r.2 &&& r.1.act) r.1.cyc lat
    | none => writeScal s gid (3 * t + b) 0#32 last lat) s

/-- Active lanes of a row, in rising order. -/
def Row.lanes (r : Row) : List Nat := (List.range 32).filter fun l => r.act.getLsbD l

/-! ## Lane-wise forms -/

/-- A vector form that computes each active lane from its sources, without flags: d in latency lat (R71). -/
def lanewise (x : IX) (lat : Nat) (srcs : List Src) (dry : List Nat) (d : Nat) (f : List Word → Word) (s : State) : R Eff := do
  let q ← gather x s false srcs [d] []
  let s := dryAll q.s x.gid dry
  let s ← writeRows x.gid d lat
    (q.rows.map fun r => (r, (List.range 32).map fun l => f ((List.range srcs.length).map fun i => r.at i l))) s
  pure ⟨s, q.last, none, none, none⟩

/-- One step of a core's generator (R112). -/
def xorshift (x : Word) : Word :=
  let x := x ^^^ (x <<< 13)
  let x := x ^^^ (x >>> 17)
  x ^^^ (x <<< 5)

/-- The draws of n beats, and the generator after them. -/
def draws : Nat → Word → List Word × Word
  | 0, x => ([], x)
  | n + 1, x =>
    let y := xorshift x
    let r := draws n y
    (y :: r.1, r.2)

/-- The draw of lane l (R112). -/
def rndLane (x : Word) (l : Nat) : Word := x.rotateLeft l

/-- The float environment of a group for a form. -/
def IX.env (x : IX) (m : RM) (sat : Bool) : FEnv := ⟨m, gstDn x.g.gst, sat⟩

/-- The mode of a gmod override, or the form's own (R106). -/
def IX.mode (x : IX) (own : Nat) : RM :=
  match x.gl.gmod with
  | some o => RM.ofCode (if o.e = 1#1 then o.m.toNat else own)
  | none => RM.ofCode own

/-- Whether an override applies. -/
def IX.override (x : IX) : Bool :=
  match x.gl.gmod with
  | some o => o.e = 1#1
  | none => false

/-- The saturate bit (R23). -/
def IX.sat (x : IX) : Bool :=
  match x.gl.gmod with
  | some o => o.t = 1#1
  | none => false

/-- Flags of beats entered, and the exception they raise where it is enabled (R53, R70, R110). -/
def raiseBeats (x : IX) (s : State) (lat : Nat) (fs : List (Row × Nat)) : State × Option Word :=
  let s := s.modGrp x.gid fun g => fs.foldl (fun g p => g.raiseFlags (p.1.cyc + lat) p.2) g
  (s, (fpxOf (gstEn x.g.gst) (fs.map fun p => (p.1.b, p.2))).map fun p => fpxInfo p.1 p.2)

/-- A float form that computes each active lane with its flags; where stochastic, each issued beat draws once (R112). -/
def flanewise (x : IX) (lat : Nat) (stoch : Bool) (srcs : List Src) (dry : List Nat) (d : Nat)
    (f : Word → Nat → List Word → Word × Nat) (s : State) : R Eff := do
  let q ← gather x s false srcs [d] []
  let k := q.s.core x.g.core
  let dr := if stoch then draws q.rows.length k.rnd else ([], k.rnd)
  let s := q.s.setCore x.g.core { k with rnd := dr.2 }
  let s := dryAll s x.gid dry
  let res := q.rows.zipIdx.map fun p =>
    (p.1, (List.range 32).map fun l => f (dr.1.getD p.2 0#32) l ((List.range srcs.length).map fun i => p.1.at i l))
  let s ← writeRows x.gid d lat (res.map fun p => (p.1, p.2.map (·.1))) s
  let fl := res.map fun p => (p.1, p.1.lanes.foldl (fun m l => m ||| (p.2.getD l (0#32, 0)).2) 0)
  let r := raiseBeats x s lat fl
  pure ⟨r.1, q.last, none, r.2, none⟩

/-- The words of a condition triple as destinations, each of its beat (R51). -/
def tripDst (t : Nat) : List SDst := (List.range 3).map fun b => (3 * t + b, some b)

/-- A compare or another form that writes a condition triple from its active lanes (R80). -/
def tripleForm (x : IX) (lat : Nat) (srcs : List Src) (dry : List Nat) (t : Nat) (f : List Word → Bool × Nat) (s : State) :
    R Eff := do
  let q ← gather x s false srcs [] (tripDst t)
  let s := dryAll q.s x.gid dry
  let res := q.rows.map fun r =>
    (r, (List.range 32).map fun l => f ((List.range srcs.length).map fun i => r.at i l))
  let s := if q.rows = [] then s
    else writeTriple s x.gid t lat q.last (res.map fun p => (p.1, maskOf fun l => (p.2.getD l (false, 0)).1))
  let fl := res.map fun p => (p.1, p.1.lanes.foldl (fun m l => m ||| (p.2.getD l (false, 0)).2) 0)
  let r := raiseBeats x s lat fl
  pure ⟨r.1, q.last, none, r.2, none⟩

/-! ## Scalar forms -/

/-- The uses of scalars read and written in the issue cycle by a beat. -/
def scalarUsesAt (b : Nat) (x : IX) (rs ws : List Nat) : List Use :=
  ((rs.filter (· < 48)).map fun n => ⟨.scal n, b, x.t, false⟩) ++ ((ws.filter (· < 48)).map fun n => ⟨.scal n, b, x.t, true⟩)

/-- The uses of scalars read and written in the issue cycle by an instruction without beats. -/
def scalarUses (x : IX) (rs ws : List Nat) : List Use := scalarUsesAt 0 x rs ws

/-- Scalars read by an instruction that is not a vector instruction, after the check of R63 over what it reads and writes. -/
def scalars (x : IX) (s : State) (rs ws : List Nat) : R (List Word) :=
  match x.g.scoreboard (scalarUses x rs ws) with
  | some st => .error (s, st)
  | none => .ok (rs.map fun n => scalarVal s x.g n x.t)

/-- A scalar form: d from its sources in latency 2 (R82). -/
def scalarForm (x : IX) (rs : List Nat) (d : Nat) (f : List Word → Word) (s : State) : R Eff := do
  let v ← scalars x s rs [d]
  pure (Eff.plain x (writeScal s x.gid d (f v) x.t 2))

end Sys2Proof.Machine
end

