-- ==== Sys2Proof/Machine/VecInt.lean ====
section
/-!
DEFINITION. Sys2Proof/Machine/VecInt.lean: the vector integer, bit, select, compare, move and immediate instructions
(R34, R71-R81, R84).
-/
namespace Sys2Proof.Machine

/-! ## Operations on one lane -/

/-- Signed minimum and maximum, unsigned minimum and maximum (R74). -/
def minI (a b : Word) : Word := if a.toInt < b.toInt then a else b
def maxI (a b : Word) : Word := if a.toInt < b.toInt then b else a
def minN (a b : Word) : Word := if a.toNat < b.toNat then a else b
def maxN (a b : Word) : Word := if a.toNat < b.toNat then b else a

/-- Bits [63:32] of the signed and of the unsigned product (R74). -/
def mulhiI (a b : Word) : Word := BitVec.ofInt 32 (a.toInt * b.toInt / 4294967296)
def mulhiN (a b : Word) : Word := toW (a.toNat * b.toNat / 4294967296)

/-- Shifts by b[7:0]; a count of 32 or more shifts every bit out (R75). -/
def shlW (a b : Word) : Word := a <<< (b.toNat % 256)
def shrN (a b : Word) : Word := a >>> (b.toNat % 256)
def shrI (a b : Word) : Word := a.sshiftRight (b.toNat % 256)

/-- A signed value clamped to 32 bits (R74). -/
def clampI (n : Int) : Word :=
  if n < -2147483648 then 0x80000000#32 else if 2147483647 < n then 0x7FFFFFFF#32 else BitVec.ofInt 32 n

/-- Position and width of a field descriptor, the field cut at bit 31 (R76). -/
def fieldPos (b : Word) : Nat := bits b.toNat 0 5
def fieldWidth (b : Word) : Nat := min (min (bits b.toNat 8 6) 32) (32 - fieldPos b)

/-- Bit-field extracts and the insert (R76). -/
def bfxN (a b : Word) : Word := toW (bits a.toNat (fieldPos b) (fieldWidth b))
def bfxI (a b : Word) : Word :=
  let w := fieldWidth b
  let v := bits a.toNat (fieldPos b) w
  if w != 0 && 2 ^ (w - 1) ≤ v then BitVec.ofInt 32 (Int.ofNat v - Int.ofNat (2 ^ w)) else toW v
def bfi (d a b : Word) : Word :=
  let m := toW ((2 ^ fieldWidth b - 1) * 2 ^ fieldPos b)
  (d &&& ~~~m) ||| ((a <<< fieldPos b) &&& m)

/-- Bytes of the pair (a, b) chosen by the selectors of d (R77). -/
def permW (d a b : Word) : Word :=
  toW ((List.range 4).foldl (fun n i =>
    let s := bits d.toNat (4 * i) 4
    n + (if 8 ≤ s then 0 else if s < 4 then bits a.toNat (8 * s) 8 else bits b.toNat (8 * (s - 4)) 8) * 256 ^ i) 0)

/-- Number of 1 bits, leading and trailing zeros, bit reversal (R79). -/
def popc (a : Word) : Word := toW ((List.range 32).filter fun i => a.getLsbD i).length
def clz (a : Word) : Word := toW (((List.range 32).find? fun i => a.getLsbD (31 - i)).getD 32)
def ctz (a : Word) : Word := toW (((List.range 32).find? fun i => a.getLsbD i).getD 32)
def brev (a : Word) : Word := maskOf fun i => a.getLsbD (31 - i)

/-- Signed absolute value (R79). -/
def absI (a : Word) : Word := if a.getLsbD 31 then 0#32 - a else a

/-- The condition cc on integers under an order (R17, R81). -/
def intCond (cc : Nat) (eq lt : Bool) : Bool :=
  match cc with
  | 0 => eq
  | 1 => !eq
  | 2 => lt
  | 3 => lt || eq
  | 4 => !lt && !eq
  | 5 => !lt
  | 6 => true
  | _ => false

/-- Item i of the values of a lane. -/
def v0 (v : List Word) : Word := v.getD 0 0#32
def v1 (v : List Word) : Word := v.getD 1 0#32
def v2 (v : List Word) : Word := v.getD 2 0#32

/-! ## The shapes -/

/-- A form with sources a and b and destination d, latency 4. -/
def binV (i : Instr) (o : FR) (f : Word → Word → Word) (s : State) : Out State :=
  issueV i o.s (fun x => lanewise x 4 [x.srcA o.a o.fa, x.srcB o.b o.fb] (x.dryAB o.a o.b o.fa o.fb) (x.d o.d)
    fun v => f (v0 v) (v1 v)) s

/-- A form that also reads its destination. -/
def triV (i : Instr) (o : FR) (f : Word → Word → Word → Word) (s : State) : Out State :=
  issueV i o.s (fun x => lanewise x 4 [.vec (x.d o.d), x.srcA o.a o.fa, x.srcB o.b o.fb] (x.dryAB o.a o.b o.fa o.fb) (x.d o.d)
    fun v => f (v0 v) (v1 v) (v2 v)) s

/-- A form of one source, latency 4. -/
def unV (i : Instr) (o : FU) (f : Word → Word) (s : State) : Out State :=
  issueV i o.s (fun x => lanewise x 4 [x.srcA o.a o.fa] (dryOf (x.a o.a) o.a o.fa) (x.d o.d) fun v => f (v0 v)) s

/-- A compare of a and b into triple t, latency 4 (R80). -/
def cmpV (i : Instr) (o : FC) (f : IX → Word → Word → Bool × Nat) (s : State) : Out State :=
  issueV i o.s (fun x => tripleForm x 4 [x.srcA o.a o.fa, x.srcB o.b o.fb] (x.dryAB o.a o.b o.fa o.fb) o.t.toNat
    fun v => f x (v0 v) (v1 v)) s

/-- An immediate form: its source a and the immediate (R19, R84). -/
def immV (i : Instr) (o : FI) (f : Word → Word → Word) (s : State) : Out State :=
  issueV i o.s (fun x => lanewise x 4 [.vec (x.a o.a)] (dryOf (x.a o.a) o.a 0#1) (x.d o.d)
    fun v => f (v0 v) (immOf x.gl o.i)) s

/-! ## The instructions -/

/-- VADD_I32 (R74). -/
def execVaddI32 (o : FR) (s : State) : Out State := binV (.vaddI32 o) o (fun a b => a + b) s

/-- VSUB_I32 (R74). -/
def execVsubI32 (o : FR) (s : State) : Out State := binV (.vsubI32 o) o (fun a b => a - b) s

/-- VMUL_I32 (R74). -/
def execVmulI32 (o : FR) (s : State) : Out State := binV (.vmulI32 o) o (fun a b => a * b) s

/-- VMULHI_I32 (R74). -/
def execVmulhiI32 (o : FR) (s : State) : Out State := binV (.vmulhiI32 o) o (fun a b => mulhiI a b) s

/-- VMULHI_N32 (R74). -/
def execVmulhiN32 (o : FR) (s : State) : Out State := binV (.vmulhiN32 o) o (fun a b => mulhiN a b) s

/-- VMIN_I32 (R74). -/
def execVminI32 (o : FR) (s : State) : Out State := binV (.vminI32 o) o (fun a b => minI a b) s

/-- VMAX_I32 (R74). -/
def execVmaxI32 (o : FR) (s : State) : Out State := binV (.vmaxI32 o) o (fun a b => maxI a b) s

/-- VMIN_N32 (R74). -/
def execVminN32 (o : FR) (s : State) : Out State := binV (.vminN32 o) o (fun a b => minN a b) s

/-- VMAX_N32 (R74). -/
def execVmaxN32 (o : FR) (s : State) : Out State := binV (.vmaxN32 o) o (fun a b => maxN a b) s

/-- VAND (R74). -/
def execVand (o : FR) (s : State) : Out State := binV (.vand o) o (fun a b => a &&& b) s

/-- VOR (R74). -/
def execVor (o : FR) (s : State) : Out State := binV (.vor o) o (fun a b => a ||| b) s

/-- VXOR (R74). -/
def execVxor (o : FR) (s : State) : Out State := binV (.vxor o) o (fun a b => a ^^^ b) s

/-- VANDN (R74). -/
def execVandn (o : FR) (s : State) : Out State := binV (.vandn o) o (fun a b => a &&& ~~~b) s

/-- VSHL (R75). -/
def execVshl (o : FR) (s : State) : Out State := binV (.vshl o) o (fun a b => shlW a b) s

/-- VSHR_N32 (R75). -/
def execVshrN32 (o : FR) (s : State) : Out State := binV (.vshrN32 o) o (fun a b => shrN a b) s

/-- VSHR_I32 (R75). -/
def execVshrI32 (o : FR) (s : State) : Out State := binV (.vshrI32 o) o (fun a b => shrI a b) s

/-- VROTL (R74). -/
def execVrotl (o : FR) (s : State) : Out State := binV (.vrotl o) o (fun a b => a.rotateLeft (b.toNat % 32)) s

/-- VBFX_N32 (R76). -/
def execVbfxN32 (o : FR) (s : State) : Out State := binV (.vbfxN32 o) o (fun a b => bfxN a b) s

/-- VBFX_I32 (R76). -/
def execVbfxI32 (o : FR) (s : State) : Out State := binV (.vbfxI32 o) o (fun a b => bfxI a b) s

/-- VADDSAT_I32 (R74). -/
def execVaddsatI32 (o : FR) (s : State) : Out State := binV (.vaddsatI32 o) o (fun a b => clampI (a.toInt + b.toInt)) s

/-- VSUBSAT_I32 (R74). -/
def execVsubsatI32 (o : FR) (s : State) : Out State := binV (.vsubsatI32 o) o (fun a b => clampI (a.toInt - b.toInt)) s

/-- VPACK16 (R74). -/
def execVpack16 (o : FR) (s : State) : Out State := binV (.vpack16 o) o (fun a b => (b <<< 16) ||| (a &&& 0xFFFF#32)) s

/-- VMAD_I32 (R74, R29): the addend is d, or operand c of gext. -/
def execVmadI32 (o : FR) (s : State) : Out State :=
  issueV (.vmadI32 o) o.s (fun x =>
    let c := x.addend o.d
    lanewise x 4 [c.1, x.srcA o.a o.fa, x.srcB o.b o.fb] (x.dryAB o.a o.b o.fa o.fb ++ c.2) (x.d o.d)
      fun v => v0 v + v1 v * v2 v) s

/-- VBFI (R76). -/
def execVbfi (o : FR) (s : State) : Out State := triV (.vbfi o) o bfi s

/-- VPERM (R77). -/
def execVperm (o : FR) (s : State) : Out State := triV (.vperm o) o permW s

/-- VSEL (R78): the condition is triple 1, or the triple of gext. -/
def execVsel (o : FR) (s : State) : Out State :=
  issueV (.vsel o) o.s (fun x s => do
    let t := match x.gl.gext with
      | some p => p.t.toNat
      | none => 1
    let q ← gather x s false [x.srcA o.a o.fa, x.srcB o.b o.fb, .trip t] [x.d o.d] []
    let s := dryAll q.s x.gid (x.dryAB o.a o.b o.fa o.fb)
    let s ← writeRows x.gid (x.d o.d) 4
      (q.rows.map fun r => (r, (List.range 32).map fun l => if (r.at 2 l).getLsbD l then r.at 0 l else r.at 1 l)) s
    pure ⟨s, q.last, none, none, none⟩) s

/-- VCMP_I32 (R80, R81). -/
def execVcmpI32 (o : FC) (s : State) : Out State :=
  cmpV (.vcmpI32 o) o (fun _ a b => (intCond o.c.toNat (a = b) (a.toInt < b.toInt), 0)) s

/-- VCMP_N32 (R80, R81). -/
def execVcmpN32 (o : FC) (s : State) : Out State :=
  cmpV (.vcmpN32 o) o (fun _ a b => (intCond o.c.toNat (a = b) (a.toNat < b.toNat), 0)) s

/-- VCMP_F32 (R81). -/
def execVcmpF32 (o : FC) (s : State) : Out State :=
  cmpV (.vcmpF32 o) o (fun x a b => fmt32.cmp (gstDn x.g.gst) o.c.toNat a.toNat b.toNat) s

/-- VCMP_F16 (R81): bits [15:0] of a and b. -/
def execVcmpF16 (o : FC) (s : State) : Out State :=
  cmpV (.vcmpF16 o) o (fun x a b => fmt16.cmp (gstDn x.g.gst) o.c.toNat (a.toNat % 65536) (b.toNat % 65536)) s

/-- VMOV (R79). -/
def execVmov (o : FU) (s : State) : Out State := unV (.vmov o) o (fun a => a) s

/-- VBIT_NOT (R79). -/
def execVbitNot (o : FU) (s : State) : Out State := unV (.vbitNot o) o (fun a => ~~~a) s

/-- VBIT_POPC (R79). -/
def execVbitPopc (o : FU) (s : State) : Out State := unV (.vbitPopc o) o (fun a => popc a) s

/-- VBIT_CLZ (R79). -/
def execVbitClz (o : FU) (s : State) : Out State := unV (.vbitClz o) o (fun a => clz a) s

/-- VBIT_CTZ (R79). -/
def execVbitCtz (o : FU) (s : State) : Out State := unV (.vbitCtz o) o (fun a => ctz a) s

/-- VBIT_BREV (R79). -/
def execVbitBrev (o : FU) (s : State) : Out State := unV (.vbitBrev o) o (fun a => brev a) s

/-- VBIT_ABS_I32 (R79). -/
def execVbitAbsI32 (o : FU) (s : State) : Out State := unV (.vbitAbsI32 o) o (fun a => absI a) s

/-- VBIT_NEG_I32 (R79). -/
def execVbitNegI32 (o : FU) (s : State) : Out State := unV (.vbitNegI32 o) o (fun a => 0#32 - a) s

/-- VBIT_ABS_F32 (R79). -/
def execVbitAbsF32 (o : FU) (s : State) : Out State := unV (.vbitAbsF32 o) o (fun a => a &&& 0x7FFFFFFF#32) s

/-- VBIT_NEG_F32 (R79). -/
def execVbitNegF32 (o : FU) (s : State) : Out State := unV (.vbitNegF32 o) o (fun a => a ^^^ 0x80000000#32) s

/-- VMOV_PORT_PUSH (R34, R196-R198, R202): pushes one item to the port named by d; a write to zr is discarded. In a
folded chain a push to a stage link runs the consumer stage next. A push that itself pops a port records the mask words of the lanes
it acts in (DESIGN CHOICE, log 115). A fence holds the push as a signalling access (R333). -/
def execVmovPortPush (o : FU) (s : State) : Out State :=
  issueV (.vmovPortPush o) o.s (fun x s0 => do
    let q ← gather x s0 false [x.srcA o.a o.fa] [] []
    let n := o.d.toNat + x.gl.off .d x.rep
    let s := dryAll q.s x.gid (dryOf (x.a o.a) o.a o.fa)
    if q.rows = [] || n = 56 then pure ⟨s, q.last, none, none, none⟩
    else if x.g.fenced (some 3) then .error (s0, .wait)
    else
      let row := fun (b : Nat) => q.rows.find? fun r => r.b = b
      let it : Item := ⟨(List.range x.g.beats).map fun b => match row b with
          | some r => (List.range 32).map fun l => if r.act.getLsbD l then r.at 0 l else 0#32
          | none => zeroLanes,
        (List.range 3).map fun b => match row b with
          | some r => r.act
          | none => 0#32⟩
      match pushPort s x.gid (n - 48) it with
      | .ok s => pure ⟨s, q.last, none, none, s.otherEnd x.g (.portRoom (n - 48))⟩
      | .error e => .error (s0, e.2)) s

/-- VADDI (R84). -/
def execVaddi (o : FI) (s : State) : Out State := immV (.vaddi o) o (fun a i => a + i) s

/-- VSHLI (R84). -/
def execVshli (o : FI) (s : State) : Out State := immV (.vshli o) o (fun a i => a <<< i.toNat) s

/-- VMOVI (R84). -/
def execVmovi (o : FIm) (s : State) : Out State :=
  issueV (.vmovi o) o.s (fun x => lanewise x 4 [] [] (x.d o.d) fun _ => immOf x.gl o.i) s

end Sys2Proof.Machine
end

