-- ==== Sys2Proof/Machine/Control.lean ====
section
/-!
DEFINITION. Sys2Proof/Machine/Control.lean: fetching an instruction word (R10, R149, R316, R324), the divergence stack
(R65-R67), and the control-flow instructions (R92-R98).
-/
namespace Sys2Proof.Machine

/-! ## Fetch -/

/-- How the fetch of a word ends. -/
inductive Fetched where
  | word (w : Word)
  | stop (st : Stop)
  deriving DecidableEq, Repr

/-- The stop of a group access that did not translate (R316, R402). -/
def Tr.stop (va : Nat) : Tr → Stop
  | .malformed => .trapRung 2 0x1B (toW va)
  | .sec | .perm => .trap 0x07 (toW va)
  | .fault k => .park 0xC (.keys [k]) 0
  | .scopeDeny => .trap 0x08 6#32
  | .ok _ _ => .wait

/-- The word an instruction cache holds of an address, or the one in memory: either, where they differ (R149). -/
def State.codeWord (s : State) (core vf ctx va pa : Nat) : Word :=
  let m := s.memWord pa
  match (s.core core).ic.find? fun e => e.1 = vf && e.2.1 = ctx && e.2.2.1 = va with
  | some e => Config.pick (s.free * 65536 + 65534) e.2.2.2 m
  | none => m

/-- A word kept by an instruction cache. -/
def State.icPut (s : State) (core vf ctx va : Nat) (w : Word) : State :=
  let k := s.core core
  s.setCore core { k with
    ic := k.ic.filter (fun e => !(e.1 = vf && e.2.1 = ctx && e.2.2.1 = va)) ++ [(vf, ctx, va, w)] }

/-- The words of a line fetched with one of its words, not yet issued (R148). -/
def State.linePf (s : State) (core vf ctx va pa : Nat) : List (Nat × Word) :=
  (List.range (32 - va % 128 / 4)).map fun i => (va + 4 * i, s.codeWord core vf ctx (va + 4 * i) (pa + 4 * i))

/-- The word a group fetches at an address: its own fetched words, the instruction cache, then the home (R149). -/
def State.fetch (s : State) (gid va : Nat) : State × Fetched :=
  let g := s.grp gid
  let key := s.keyOf g
  match s.access key va .fetch 3 g.core with
  | (s, .ok pa _) =>
    let s := s.combine (pa / 128)
    let vf := key / 65536
    let ctx := key % 65536
    let w := s.codeWord g.core vf ctx va pa
    match g.pf.find? fun e => e.1 = va with
    | some e => (s, .word (Config.pick (s.free * 65536 + 65533) e.2 w))
    | none => ((s.icPut g.core vf ctx va w).modGrp gid fun g => { g with pf := s.linePf g.core vf ctx va pa }, .word w)
  | (s, t) => (s, .stop (t.stop va))

/-- The read of the word before a target: the machine after its translation, and whether it is a gloss word; a word in a page not mapped
executable is not (R27), and nothing is recorded of it. -/
def State.wordBefore (s : State) (g : Group) (target : Nat) : State × Bool :=
  let va := (target + 281474976710656 - 4) % 281474976710656
  let key := s.keyOf g
  match s.translate (key / 65536) (key % 65536) va .fetch 3 (coreCl g.core) (some g.core) (coreCid g.core) with
  | (t, .ok pa _) => (t, isGloss (t.codeWord g.core (key / 65536) (key % 65536) va pa))
  | _ => (s, false)

/-- Whether the word before a target is a gloss word (R27). -/
def State.glossBefore (s : State) (g : Group) (target : Nat) : Bool := (s.wordBefore g target).2

/-- The check of a transfer's target: word alignment, then the gloss rule (R10, R27). -/
def checkTarget (x : IX) (s : State) (pc : Nat) : Option Stop :=
  if pc % 4 != 0 then some (.trap 0x06 (toW pc))
  else if s.glossBefore x.g pc then some (.trap 0x01 x.w)
  else none

/-- The machine after the check of a target: the flags of the leaf that the read of the word before it used are set (R27, R311). -/
def targetRead (x : IX) (s : State) (pc : Nat) : State := if pc % 4 != 0 then s else (s.wordBefore x.g pc).1

/-- A transfer taken, once its target has passed. -/
def transfer (x : IX) (s : State) (pc : Nat) : R Eff :=
  match checkTarget x s pc with
  | some st => .error (targetRead x s pc, st)
  | none => .ok (Eff.jump x (targetRead x s pc) pc)

/-! ## The divergence stack (R65, R66) -/

/-- The words of an entry. -/
def DivEntry.words (e : DivEntry) : List Word := [e.w0, e.m0, e.m1, e.m2]

/-- Entry kinds: 0 rejoin, 1 pending path. -/
def DivEntry.kind (e : DivEntry) : Nat := bits e.w0.toNat 0 2

/-- The address of a popped entry: bits [47:32] are those of the join (R97). -/
def DivEntry.pc (e : DivEntry) (at_ : Nat) : Nat := at_ / 4294967296 * 4294967296 + bits e.w0.toNat 2 30 * 4

/-- An entry pushed; onto 16 held entries the oldest held one is spilled first, or traps PRIVLIM (R66). -/
def pushDiv (x : IX) (s : State) (e : DivEntry) : R State :=
  let g := s.grp x.gid
  if g.stk.length < 16 then .ok (s.setGrp x.gid { g with stk := e :: g.stk })
  else if g.dspill ≤ g.stkSp then .error (s, .trap 0x05 0xFFFFFFFF#32)
  else
    match g.stk.getLast? with
    | some old =>
      let r := s.privPut x.gid (g.plim + 64 + g.stkSp) 0 (old.words.flatMap fun w => leBytes 4 w.toNat)
      if r.2 then
        .ok (r.1.modGrp x.gid fun g => { g with stk := e :: g.stk.dropLast, stkSp := g.stkSp + 1 })
      else .error (r.1, .broken)
    | none => .ok s

/-- The activity mask words of the beats a group has (R94). -/
def beatNums (x : IX) : List Nat := List.range x.g.beats

/-- Mask words written into the beats that exist, readable at once (R96). -/
def writeMask (x : IX) (s : State) (m : List Word) : State :=
  (beatNums x).foldl (fun s b => writeScal s x.gid b (wAt m b) x.t 0) s

/-! ## The instructions -/

/-- BR (R93). -/
def execBr (o : FB) (s : State) : Out State :=
  issueS (.br o) o.s (fun x s => transfer x s (target x.g.pc o.o.toInt)) s

/-- A conditional branch on a scalar (R93): whether it is taken is known once the scalar has been read, so STALLCHK comes before the
checks of the target (log 9). -/
def brIf (i : Instr) (o : FBS) (zero : Bool) (s : State) : Out State :=
  issueS i o.s (fun x s => do
    let v ← scalars x s [o.d.toNat] []
    if (v0 v = 0#32) = zero then transfer x s (target x.g.pc o.o.toInt) else pure (Eff.plain x s)) s

/-- BRZ (R93). -/
def execBrz (o : FBS) (s : State) : Out State := brIf (.brz o) o true s

/-- BRNZ (R93). -/
def execBrnz (o : FBS) (s : State) : Out State := brIf (.brnz o) o false s

/-- BRD (R95): splits the active lanes by a triple. Whether it is taken is known once the triple and the mask have been read, so STALLCHK
comes before the checks of the target (log 9). -/
def execBrd (o : FBD) (s : State) : Out State :=
  issueS (.brd o) o.s (fun x s => do
    let bs := beatNums x
    let tr ← scalars x s (bs.map fun b => 3 * o.t.toNat + b) []
    let mk ← scalars x s bs []
    let T := bs.map fun b => wAt tr b &&& wAt mk b
    let N := bs.map fun b => wAt mk b &&& ~~~(wAt tr b)
    let pc := target x.g.pc o.o.toInt
    if T.all (· = 0#32) then pure (Eff.plain x s)
    else if N.all (· = 0#32) then transfer x s pc
    else
      match checkTarget x s pc with
      | some st => .error (targetRead x s pc, st)
      | none => do
        let s ← pushDiv x (targetRead x s pc) ⟨toW ((nextPc x.g.pc) % 4294967296 + 1), wAt N 0, wAt N 1, wAt N 2⟩
        pure (Eff.jump x (writeMask x s T) pc)) s

/-- MARK (R94): pushes a rejoin entry. -/
def execMark (o : FB) (s : State) : Out State :=
  issueS (.mark o) o.s (fun x s => do
    let mk ← scalars x s (beatNums x) []
    let s ← pushDiv x s ⟨toW (target x.g.pc o.o.toInt), wAt mk 0, wAt mk 1, wAt mk 2⟩
    pure (Eff.plain x s)) s

/-- JOIN (R96, R67): pops the top entry; a pop that leaves fewer than 16 held entries while spilled ones remain refills. The target is
that of the entry, so its checks come before STALLCHK (R38, log 9). -/
def execJoin (o : F0) (s : State) : Out State :=
  issueS (.join o) o.s (fun x s =>
    match x.g.stk with
    | [] => .error (s, .trap 0x01 0#32)
    | e :: rest =>
      if 2 ≤ e.kind then .error (s, .trapRung 2 0x15 e.w0)
      else
        let pc := e.pc x.g.pc
        match checkTarget x s pc with
        | some st => .error (targetRead x s pc, st)
        | none => do
          let s := targetRead x s pc
          let _ ← scalars x s [] (beatNums x)
          let s := s.modGrp x.gid fun g => { g with
            stk := rest
            st := if g.stkSp != 0 then .refilling else g.st }
          pure (Eff.jump x (writeMask x s [e.m0, e.m1, e.m2]) pc)) s

/-- CALL (R93): its target is in the word, so its checks come before STALLCHK (R38, log 9). -/
def execCall (o : FBS) (s : State) : Out State :=
  issueS (.call o) o.s (fun x s => do
    let pc := target x.g.pc o.o.toInt
    match checkTarget x s pc with
    | some st => .error (targetRead x s pc, st)
    | none => do
      let s := targetRead x s pc
      let _ ← scalars x s [] [o.d.toNat]
      pure (Eff.jump x (writeScal s x.gid o.d.toNat (toW (nextPc x.g.pc)) x.t 2) pc)) s

/-- JR (R93): its target is the scalar's, so STALLCHK comes before the checks of the target (log 9). -/
def execJr (o : Fd) (s : State) : Out State :=
  issueS (.jr o) o.s (fun x s => do
    let v ← scalars x s [o.d.toNat] []
    transfer x s (x.g.pc / 4294967296 * 4294967296 + (v0 v).toNat)) s

end Sys2Proof.Machine
end

