-- ==== Sys2Proof/Machine/Memory.lean ====
section
/-!
DEFINITION. Sys2Proof/Machine/Memory.lean: the memory instructions of a group (R128-R147, R183, R184, R270, R272, R285):
the checks before any lane's access, the counted operations they leave pending, performing an access, and completion.
-/
namespace Sys2Proof.Machine
open Host (Outcome)

/-! ## A group's first state, and drafts (R47, R287-R290) -/

/-- A group with the state of R47: masks of the beats it has, everything else zero, unmapped or empty. -/
def Group.restart (g : Group) (cls : Nat) (drf : Bool) : Group :=
  { g with
    pc := g.entry
    hiPc := 0
    sr := (List.range 48).map fun i => if i < g.beats then 0xFFFFFFFF#32 else 0#32
    vr := []
    gst := toW (cls * 1073741824 + (if drf then 536870912 else 0))
    flagPend := []
    xsv := List.replicate 4 0#32
    bank := List.replicate 8 0#32
    stk := []
    stkSp := 0
    chain := []
    mid := false
    lru := []
    pf := []
    pend := []
    ops := []
    fences := []
    wait := none
    refill := []
    boost := 0
    starve := 0
    sealed := 0#32
    key := 0#32
    held := false
    rung := 0
    served := 0
    trapPend := none
    notice := none
    sqReq := none }

/-- The lowest-numbered FREE entry of a die's draft table of 4,096 (R284; DESIGN CHOICE, log 104). -/
def State.freeDraft (s : State) (die : Nat) : Option Nat :=
  (List.range 4096).find? fun e => (s.die die).drafts.find? e = none

/-- A draft discarded by a soft error and run again from its entry PC with a new entry; a fourth error raises POISON (R290). Where the
die's table has no free entry, the discarded one is taken again, whose cleanup is over: its copies are dropped (R284, log 104). -/
def State.softError (s : State) (g : Nat) (info : Word) : State :=
  let x := s.grp g
  match x.draft with
  | some d =>
    if 3 ≤ x.replays then s.draftTrap g d ⟨0x15, info, x.firstPc, 2, false⟩
    else
      let s := ((s.draftDrop d).setDraft d .discarded).dropCopies g
      let e := ((s.freeDraft (coreDie x.core)).map fun e => (coreDie x.core, e)).getD d
      let s := s.setDraft e .opened
      let s := s.modUnit x.unit fun u => { u with scr := List.replicate u.foot 0#8, bars := [], arrs := [], claims := [] }
      let y := x.restart (gstCls x.gst) true
      s.setGrp g { y with
        draft := some e
        replays := x.replays + 1
        st := if x.st = .active then .active else .pending }
  | none =>
    s.setGrp g { x with trapPend := some ⟨0x15, info, x.firstPc, 2, false⟩ }

/-! ## Checks before any access (R135) -/

/-- One access an instruction asks for: lane, address, size, first register, data. -/
structure Ask where
  lane : Nat
  va   : Nat
  n    : Nat
  reg  : Nat
  data : List Byte
  deriving DecidableEq, Repr

/-- The scope policy (R331): whether a code is refused. -/
def State.scopeDenied (s : State) (vf code : Nat) : Bool :=
  match code with
  | 4 => !(s.vf vf).pol.getLsbD 1
  | 5 => !(s.vf vf).pol.getLsbD 2
  | 6 => !(s.vf vf).pol.getLsbD 3
  | _ => false

/-- Every access translated, in rising order of the lane, up to one that meets a malformed entry: that outcome comes first of
all (R316), and its one record is that lane's. -/
def State.translateAll (s : State) (key core : Nat) (a : Access) (kind : Nat) : List Ask → State × List (Ask × Tr)
  | [] => (s, [])
  | q :: qs =>
    let r := s.access key q.va a kind core
    if r.2.rank = 1 then (r.1, [(q, r.2)])
    else
      let t := r.1.translateAll key core a kind qs
      (t.1, (q, r.2) :: t.2)

/-- The first outcome in the order of R316 that some access meets, as a stop; page faults wait on every key met. -/
def firstStop (l : List (Ask × Tr)) : Option Stop :=
  let worst := l.foldl (fun m p => min m p.2.rank) 6
  match l.find? fun p => p.2.rank = worst with
  | some (q, t) =>
    match t with
    | .ok _ _ => none
    | .fault _ =>
      some (.park 0xC (.keys ((l.filterMap fun p => match p.2 with
        | .fault k => some k
        | _ => none).eraseDups)) 0)
    | t => some (t.stop q.va)
  | none => none

/-- A translated access. -/
def accOf (p : Ask × Tr) : Acc :=
  match p.2 with
  | .ok pa vfa => ⟨p.1.lane, p.1.va, pa, vfa, p.1.n, p.1.reg, p.1.data, [], false, false, false, none⟩
  | _ => ⟨p.1.lane, p.1.va, 0, 0, p.1.n, p.1.reg, p.1.data, [], false, false, false, none⟩

/-- The accesses of a lane of a size: a b128 access is two halves (R136). -/
def asksOf (lane va z : Nat) (data : List Byte) : List Ask :=
  if z = 6 then [⟨lane, va, 8, 0, data.take 8⟩, ⟨lane, va + 8, 8, 2, data.drop 8⟩]
  else [⟨lane, va, sizeBytes (BitVec.ofNat 3 z), 0, data⟩]

/-- The bytes a store of a size takes from its data registers (R133). -/
def storeData (z : Nat) (ws : List Word) : List Byte :=
  (ws.flatMap fun w => leBytes 4 w.toNat).take (sizeBytes (BitVec.ofNat 3 z))

/-- A store of a draft that has no draft way left in a set (R286). -/
def State.draftStop (s : State) (g : Group) (accs : List Acc) : Option Stop :=
  match g.draft with
  | some d =>
    match s.draftOver d (accs.map fun a => a.pa / 128) with
    | some l => (accs.find? fun a => a.pa / 128 = l).map fun a => .trap 0x0C (toW a.va)
    | none => none
  | none => none

/-- A window access of a draft is not sent (R404). -/
def draftSide (g : Group) (accs : List Acc) : Option Stop :=
  if g.draft.isSome && accs.any (fun a => windowPa a.pa) then some (.trap 0x0D 0#32) else none

/-- A counter at 63 parks the instruction that would raise it (R144). -/
def ctrFull (g : Group) (c : Ctr) : Option Stop := if 63 ≤ g.count c then some (.park 0x1 (.ctr c 62) 0) else none

/-! ## Miss entries (R146, R147) -/

/-- The beat of a lane. -/
def Acc.beat (a : Acc) : Nat := a.lane / 32

/-- Whether an operation still waits on a line for a beat: an entry it has taken is in use. -/
def Op.waits (o : Op) (b line : Nat) : Bool := o.accs.any fun a => !a.fin && a.beat = b && a.pa / 128 = line

/-- Whether a rejected beat is still one: its group is on the core, and its instruction is the next one it may issue, or has issued and
has beats left. -/
def State.wanted (s : State) (core : Nat) (r : Reject) : Bool :=
  match s.groups.find? r.gid with
  | some g =>
    g.core = core &&
      (if r.first then (g.st = .active || g.st = .pending) && !g.held && g.pc = r.pc else g.ops.any fun o => o.todo != [])
  | none => false

/-- The rejected beats of a core, oldest first. -/
def State.rejects (s : State) (core : Nat) : List Reject := (s.core core).rejected.filter (s.wanted core)

/-- The entries of an L1 in use or given to a rejected beat. -/
def State.missUsed (s : State) (l1 : Nat) : Nat :=
  (s.groups.filter fun p => coreCl p.2.core = l1 / 4).foldl (fun n p =>
    p.2.ops.foldl (fun n o => n + (o.ents.filter fun e => e.2.1 = l1 && o.waits e.1 e.2.2).length) n)
    (((List.range 4).flatMap fun i => (s.rejects (l1 / 4 * 4 + i)).flatMap (·.got)).filter fun e => e.1 = l1).length

/-- The entries a beat needs: one for each line it misses on, at most 32, by L1 (R146; DEDUCED, log 24). -/
def State.missNeed (s : State) (core : Nat) (accs : List Acc) : List (Nat × Nat) :=
  ((accs.filter fun a => !windowPa a.pa && (List.range a.n).any fun i => (s.l1Byte? core (a.pa + i)).isNone).map fun a =>
    (s.l1For core a.pa, a.pa / 128)).eraseDups.take 32

/-- Whether every L1 has entries free for the misses that no rejected beat of the cluster still lacks. -/
def State.missFits (s : State) (core : Nat) (need : List (Nat × Nat)) : Bool :=
  (need.map (·.1)).eraseDups.all fun l =>
    s.missUsed l + (need.filter fun p => p.1 = l).length ≤ Config.missMax &&
      !((List.range 4).any fun i => (s.rejects (core / 4 * 4 + i)).any fun r => r.lacks.any fun e => e.1 = l)

/-- The rejected beats of a core replaced. -/
def State.setRejects (s : State) (core : Nat) (l : List Reject) : State := s.setCore core { s.core core with rejected := l }

/-- The rejection of the first beat of the instruction that a group is to issue again. -/
def State.rejection (s : State) (gid core pc : Nat) : Option Reject :=
  (s.rejects core).find? fun r => r.gid = gid && r.first && r.pc = pc

/-- Entries for the first beat of an instruction: taken, or the beat is rejected and the instruction does not issue (R146). -/
def State.missGate (s : State) (gid core pc : Nat) (accs : List Acc) : Except State (State × List (Nat × Nat)) :=
  match s.rejection gid core pc with
  | some r =>
    if r.lacks = [] then .ok (s.setRejects core ((s.rejects core).filter fun q => !(q.gid = gid && q.first)), r.got) else .error s
  | none =>
    let need := s.missNeed core ((accs.filter fun a => a.beat = (accs.map (·.beat)).foldl min 2))
    if need = [] || s.missFits core need then .ok (s, need)
    else .error (s.setRejects core (s.rejects core ++ [⟨gid, pc, true, accs, [], need⟩]))

/-- The next beat of an operation accepted with entries; with the last one the stall count begins (R147). -/
def Op.accept (o : Op) (ents : List (Nat × Nat)) : Op :=
  match o.todo with
  | b :: bs => { o with accs := o.accs ++ b, todo := bs, ents := o.ents ++ ents.map fun e => ((b.map (·.beat)).headD 0, e) }
  | [] => o

/-- Operation i of a group with its next beat accepted. -/
def State.acceptBeat (s : State) (gid i : Nat) (ents : List (Nat × Nat)) : State :=
  s.modGrp gid fun g =>
    match g.ops[i]? with
    | some o =>
      let o' := o.accept ents
      let t := (s.core g.core).cycle + max o.stall 1
      { g with
        ops := g.ops.set i o'
        nextIssue := if o'.todo = [] && o.todo != [] then max g.nextIssue t else g.nextIssue
        readySince := if o'.todo = [] && o.todo != [] then max g.readySince t else g.readySince }
    | none => g

/-- The beats left of an operation accepted one after the other, as far as there are entries; the next one is rejected (R147). -/
def acceptMore (gid i : Nat) : Nat → State → State
  | 0, s => s
  | n + 1, s =>
    let g := s.grp gid
    match g.ops[i]? with
    | some o =>
      match o.todo with
      | [] => s
      | b :: _ =>
        let need := s.missNeed g.core b
        if need = [] || s.missFits g.core need then acceptMore gid i n (s.acceptBeat gid i need)
        else s.setRejects g.core (s.rejects g.core ++ [⟨gid, g.pc, false, b, [], need⟩])
    | none => s

/-- An operation with every beat accepted. -/
def Op.whole (o : Op) : Op := { o with accs := o.accs ++ o.todo.flatten, todo := [] }

/-! ## Performing an access -/

/-- Whether an operation's accesses enter the L1 (R137, R285, R402): cluster scope, no bypass, no draft, no draft copy, no remote line. -/
def State.inL1 (s : State) (g : Group) (o : Op) (pa : Nat) : Bool :=
  o.scope ≤ 2 && o.pol != 3 && g.draft.isNone && !s.drafted (pa / 128) && !windowPa pa

/-- The VF and VF address of an access. -/
def State.accVf (s : State) (g : Group) (a : Acc) : Nat × Nat := (s.keyOf g / 65536, a.vfa)

/-- Whether a home read also recalls dirty bytes that other clusters hold: allowed, not required (R268; DEDUCED, log 25). -/
def State.recallElse (s : State) (core pa n : Nat) : State :=
  let m := spanMask 128 (pa % 128) n
  if (s.l1.any fun l => l.line = pa / 128 && l.core / 4 != core / 4 && l.dirty &&& m != 0#128) &&
      Config.freeBit (s.free * 65536 + 65532)
  then s.recallDirty (pa / 128) m (fun c => c / 4 != core / 4) else s

/-- The span of its line that the lanes of an access's beat touch: an address and a length (R214). -/
def Op.span (o : Op) (a : Acc) : Nat × Nat :=
  let l := o.accs.filter fun b => b.pa / 128 = a.pa / 128 && b.beat = a.beat
  let lo := l.foldl (fun m b => min m b.pa) a.pa
  (lo, l.foldl (fun m b => max m (b.pa + b.n)) (a.pa + a.n) - lo)

/-- A load's bytes, and whether one of them came with an uncorrectable error (R137-R139, R214, R215, R268, R285, R291). A line with
update-only copies is combined first (R274, R348). -/
def State.loadAcc (s : State) (g : Group) (o : Op) (a : Acc) : State × List Byte × Bool :=
  match g.draft with
  | some d =>
    let r := s.draftRead d (coreCl g.core) a.pa a.n
    (r.1, r.2, r.1.draftBad d a.pa a.n)
  | none =>
    let line := a.pa / 128
    let s := if s.l1.any fun l => l.line = line && l.upd != [] then s.combine line else s
    if s.inL1 g o a.pa then
      let bs := (List.range a.n).map fun i => s.l1Byte? g.core (a.pa + i)
      let s := if bs.all Option.isSome then s
        else (s.recallElse g.core a.pa a.n).l1Fill g.core (o.span a).1 (o.span a).2
      (s, (List.range a.n).map fun i => (s.l1Byte? g.core (a.pa + i)).getD (s.mem.read (a.pa + i)),
        (List.range a.n).any fun i => s.l1Bad g.core (a.pa + i))
    else
      let s := (s.flushCluster (coreCl g.core) a.pa).recallElse g.core a.pa a.n
      let r := s.homeRead a.pa a.n
      (r.1, r.2, r.1.poisoned a.pa a.n)

/-- A store's bytes, unless a helped line suppresses them (R267, R282). Answers whether they were written. -/
def State.storeAcc (s : State) (g : Group) (o : Op) (a : Acc) : State × Bool :=
  let line := a.pa / 128
  let v := s.accVf g a
  if s.suppresses line then (s, false)
  else
    match g.draft with
    | some d => (s.draftWrite d v a.pa a.data, true)
    | none =>
      if s.inL1 g o a.pa then
        let s := s.clearHm line
        let s := if s.mayStore g.core a.pa a.n then s
          else s.claim (s.l1For g.core a.pa) line (spanOfBytes ((o.span a).1 % 128) (o.span a).2)
        (s.l1Store g.core v a.pa a.data, true)
      else (s.homeWrite (some v) a.pa a.data, true)

/-- The first and second operand words of an atomic access. -/
def Acc.x (a : Acc) : Word := leWord (a.data.take 4)
def Acc.y (a : Acc) : Word := leWord ((a.data.drop 4).take 4)

/-- A read-modify-write at the home (R270): the old bytes, none where it is suppressed. -/
def State.atomAcc (s : State) (g : Group) (o : Op) (a : Acc) : State × Option (List Byte) :=
  let line := a.pa / 128
  let s := s.combine line
  if s.suppresses line then (s, none)
  else
    let s := s.recallDirty line (spanMask 128 (a.pa % 128) 4) (fun _ => true)
    let old := s.memWord a.pa
    (s.homeWrite (some (s.accVf g a)) a.pa (leBytes 4 (aopApply o.aop old a.x a.y).toNat), some (leBytes 4 old.toNat))

/-- The kinds that only read. -/
def OpKind.isLoad : OpKind → Bool
  | .load | .ldp | .ldx => true
  | _ => false

/-- The kinds that only write. -/
def OpKind.isStore : OpKind → Bool
  | .store | .stp | .stx | .red => true
  | _ => false

/-- The path an operation takes (R138): 0 global, 1 private, 2 scratch. -/
def OpKind.path : OpKind → Nat
  | .ldp | .stp => 1
  | .ldx | .stx | .atomx => 2
  | _ => 0

/-- Whether a reduction is performed at the home, as an atomic (R272, R404). -/
def Op.redHome (o : Op) : Bool := o.aop = 9 || o.aop = 10

/-- A window access: sent on the port of its line, and then performed and acknowledged at its target, or refused there (R402-R405). Where
its port has gone down, the target may report that it never arrived, and it is sent again (R407). Whether a target refuses, and what
becomes of a request on a port that goes down, are free values (DESIGN CHOICE, log 21). -/
def State.remoteAcc (s : State) (gid : Nat) (o : Op) (a : Acc) : State × Acc :=
  match a.port with
  | none => (s, { a with port := s.portFor (s.keyOf (s.grp gid)) (a.pa / 128) })
  | some p =>
    if !s.portUp p && Config.freeBit (s.free * 65536 + 65514) then (s, { a with port := none })
    else if Config.freeBit (s.free * 65536 + 65531) then
      (s.modGrp gid fun g => if g.trapPend.isSome then g else { g with trapPend := some ⟨0x07, toW a.va, 0, 0, false⟩ },
        { a with fin := true, bad := true, told := true })
    else if o.kind.isLoad then
      let r := s.homeRead a.pa a.n
      (r.1, { a with fin := true, new := r.2 })
    else if o.kind = .atom || o.kind = .red then
      let r := s.homeRead a.pa 4
      let old := leWord r.2
      (r.1.homeWrite none a.pa (leBytes 4 (aopApply o.aop old a.x a.y).toNat),
        { a with fin := true, new := if o.kind = .atom then leBytes 4 old.toNat else [] })
    else (s.homeWrite none a.pa a.data, { a with fin := true })

/-- One access performed: a window access at its target (R404), a scratch access in the unit's scratchpad (R185), the rest in
the L1 or at the home; a reduction to a line that a draft has copied too (R285). A draft's store that finds no draft way raises
DRAFTFULL at the next issue boundary (R286). -/
def State.performAcc (s : State) (gid : Nat) (o : Op) (a : Acc) : State × Acc :=
  let g := s.grp gid
  let line := a.pa / 128
  if o.ctr = .x then
    let u := s.unit g.unit
    match o.kind with
    | .ldx => (s, { a with fin := true, new := u.scrRead a.pa a.n })
    | .stx => (s.setUnit g.unit (u.scrWrite a.pa a.data), { a with fin := true })
    | _ =>
      let old := leWord (u.scrRead a.pa 4)
      (s.setUnit g.unit (u.scrWrite a.pa (leBytes 4 (aopApply o.aop old a.x a.y).toNat)),
        { a with fin := true, new := leBytes 4 old.toNat })
  else if windowPa a.pa then s.remoteAcc gid o a
  else if o.kind.isLoad then
    let r := s.loadAcc g o a
    (r.1, { a with fin := true, new := r.2.1, bad := r.2.2 })
  else if o.kind = .atom || (o.kind = .red && (o.redHome || s.drafted line)) then
    let t := (s.combine line).recallDirty line (spanMask 128 (a.pa % 128) 4) (fun _ => true)
    if t.poisoned a.pa 4 then (t.softError gid (toW a.va), { a with fin := true })
    else
      match s.atomAcc g o a with
      | (s, some b) => (s, { a with fin := true, new := if o.kind = .atom then b else [] })
      | (s, none) => (s, { a with fin := true, bad := true })
  else if o.kind = .red then
    (s.redEnter g.core (s.keyOf g) (s.accVf g a) o.aop a.pa a.x, { a with fin := true })
  else if g.draft.any (fun d => (s.draftOver d [line]).isSome) && !s.suppresses line then
    (s.draftFullTrap gid a.va, { a with fin := true })
  else
    match s.storeAcc g o a with
    | (s, ok) => (s, { a with fin := true, bad := !ok })

/-! ## Requests: the accesses of one line, performed together (R214) -/

/-- The request an access belongs to: its line, and for a b128 access its half (R136). -/
def Op.reqOf (o : Op) (a : Acc) : Nat := a.pa / 128 * 2 + (if o.z = 6 && o.ctr != .p then a.pa / 8 % 2 else 0)

/-- The requests of an operation not yet performed. -/
def Op.left (o : Op) : List Nat := ((o.accs.filter fun a => !a.fin).map o.reqOf).eraseDups

/-- How many earlier operations of its counter stand before the operation at place i. -/
def Group.rank (g : Group) (i : Nat) (c : Ctr) : Nat := ((g.ops.take i).filter fun o => o.ctr = c).length

/-- Whether a fence of the group, of any kind, lies between the operations at two places (R138, R334). -/
def Group.split (g : Group) (j : Nat) (p : Op) (i : Nat) (o : Op) : Bool :=
  g.fences.any fun f => g.rank j p.ctr < f.count p.ctr && f.count o.ctr ≤ g.rank i o.ctr

/-- Whether two accesses touch a common byte, or one line of another device (R138, R405). -/
def Acc.meets (a b : Acc) : Bool :=
  (b.pa < a.pa + a.n && a.pa < b.pa + b.n) || (windowPa a.pa && a.pa / 128 = b.pa / 128)

/-- Whether an earlier operation of the group, on the same path or with a fence between the global and the private path, still
has to touch a byte of an access (R138), or any operation of the group issued earlier its remote line (R405). -/
def Group.blocked (g : Group) (i : Nat) (o : Op) (a : Acc) : Bool :=
  (g.ops.take i).zipIdx.any fun (p, j) =>
    (p.kind.path = o.kind.path || (p.kind.path < 2 && o.kind.path < 2 && (windowPa a.pa || g.split j p i o))) &&
    p.accs.any fun b => !b.fin && a.meets b

/-- Whether an access before a fence of the group still has to touch a byte of a word read at issue (R138, R334). -/
def Group.wordHeld (g : Group) (pa n : Nat) : Bool :=
  g.ops.zipIdx.any fun (p, j) => p.kind.path < 2 && (g.fences.any fun f => g.rank j p.ctr < f.count p.ctr) &&
    p.accs.any fun b => !b.fin && b.pa < pa + n && pa < b.pa + b.n

/-- The accesses of a request performed in rising order of the lane. -/
def performList (gid : Nat) (o : Op) (k : Nat) : List Acc → State → State × List Acc
  | [], s => (s, [])
  | a :: as, s =>
    let r := if !a.fin && o.reqOf a = k then s.performAcc gid o a else (s, a)
    let t := performList gid o k as r.1
    (t.1, r.2 :: t.2)

/-- Dirty bytes that an operation has written or observed, for the fences it stands before (R269, R334). -/
def Group.observe (g : Group) (i : Nat) (o : Op) (ls : List (Nat × BitVec 128)) : Group :=
  { g with fences := g.fences.map fun f =>
      if f.kind != 0 && 3 ≤ f.scope && decide (g.rank i o.ctr < f.count o.ctr) then { f with dirty := f.dirty ++ ls } else f }

/-- The dirty bytes of its cluster that some accesses of a group have written or read marked as the group's (R269, R334). -/
def State.seeAll (s : State) (gid cl : Nat) (l : List Acc) : State := l.foldl (fun s a => s.markSeen gid cl a.pa a.n) s

/-- Request k of operation i of a group performed, where no earlier access of the group to its bytes is outstanding. -/
def State.performReq (s : State) (gid i k : Nat) : State :=
  let g := s.grp gid
  match g.ops[i]? with
  | some o =>
    if (o.accs.filter fun a => !a.fin && o.reqOf a = k).any (g.blocked i o) then s
    else
      let r := performList gid o k o.accs s
      let done := if o.ctr = .x || g.draft.isSome then []
        else ((o.accs.zip r.2).filter fun p => !p.1.fin && o.reqOf p.1 = k && !p.2.bad).map (·.1)
      let t := r.1.seeAll gid (coreCl g.core) done
      let ls := done.flatMap fun a => t.seenAt gid (coreCl g.core) a.pa a.n
      t.modGrp gid fun g =>
        if g.ops.length ≤ i then g
        else { g.observe i o ls with ops := g.ops.set i { o with accs := r.2, newer := (g.ops[i]?.getD o).newer } }
  | none => s

/-- One request of an operation of a group: the only one left, or one of them by a free value. -/
def State.performOne (s : State) (gid i : Nat) : State :=
  match (s.grp gid).ops[i]? with
  | some o =>
    match o.left with
    | [] => s
    | [k] => s.performReq gid i k
    | k :: ks => s.performReq gid i ((k :: ks).getD ((Config.freeWord (s.free * 65536)).toNat % (ks.length + 1)) k)
  | none => s

/-! ## Completion (R140, R141) -/

/-- One lane of a vector register written by a completing operation; a lane a later instruction wrote meanwhile keeps either
value (R64). -/
def writeLane (gid : Nat) (o : Op) (n lane : Nat) (w : Word) (s : State) : State :=
  let g := s.grp gid
  let k := 3 * n + lane / 32
  let cell := RCell.vec n (lane / 32)
  let cyc := (s.core g.core).cycle
  let cur := g.cellNow cell
  let v := if o.newer.any (fun e => e.1 = cell && e.2.getLsbD (lane % 32)) then
      Config.pick (freeAt s cell (lane % 32)) (cur.getD (lane % 32) 0#32) w else w
  s.setGrp gid { g with vr := g.vr.set k (.mapped (cur.set (lane % 32) v) cyc) }

/-- A cell a completing operation writes made ready: a spilled entry is brought back, an unmapped or dry one is taken (R56,
R58). -/
def openCell (gid : Nat) (s : State) (c : RCell) : State × Bool :=
  match c with
  | .scal _ => (s, true)
  | .vec n b =>
    let g := s.grp gid
    match g.vr.find? (3 * n + b) with
    | some (.mapped _ _) => (s, true)
    | some .spilled =>
      let r := s.spill g.core
      match r.1.privGet gid (g.plim + n) (32 * b) 128 with
      | (s, some bs) =>
        (s.modGrp gid fun g => { g with vr := g.vr.set (3 * n + b) (.mapped (leWords bs 32) (s.core g.core).cycle) }, r.2)
      | (s, none) => (s, false)
    | _ =>
      let r := s.spill g.core
      (r.1.modGrp gid fun g => { g with vr := g.vr.set (3 * n + b) (.mapped zeroLanes (s.core g.core).cycle) }, r.2)

/-- A scalar written by a completing operation: s40-s47 go to the bank in which it was issued, that of a handler that has ended to
nothing (R64, R359). -/
def scalResult (gid : Nat) (o : Op) (n : Nat) (w : Word) (s : State) : State :=
  let g := s.grp gid
  let v := fun (old : Word) => if o.newer.any (fun e => e.1 = .scal n) then Config.pick (freeAt s (.scal n) 0) old w else w
  if 48 ≤ n then s
  else if n < 40 || o.hdl = gstHdl g.gst then s.setGrp gid { g with sr := g.sr.set n (v (wAt g.sr n)) }
  else if o.hdl then s
  else s.setGrp gid { g with bank := g.bank.set (n - 40) (v (wAt g.bank (n - 40))) }

/-- The results of an operation written into its destinations. -/
def writeResults (gid : Nat) (o : Op) (s : State) : State × Bool :=
  let cells := o.cells
  let r := cells.foldl (fun (a : State × Bool) c =>
    let q := openCell gid a.1 c
    (q.1, a.2 && q.2)) (s, true)
  let s := o.accs.foldl (fun s a =>
    if a.bad || a.new = [] then s
    else (loadWords o.z a.new).zipIdx.foldl (fun s w =>
      if o.vec then writeLane gid o (o.d + a.reg + w.2) a.lane w.1 s
      else if o.d = 56 then s
      else scalResult gid o (o.d + a.reg + w.2) w.1 s) s) r.1
  (s, r.2)

/-- Whether the operation reads, for the fences (R333). -/
def OpKind.reads : OpKind → Bool
  | .load | .ldp | .ldx | .atom | .atomx | .notice => true
  | _ => false

/-- The operations of counters w, p and x that stand up to the last one of a kind on each. -/
def Group.depsOf (g : Group) (f : Op → Bool) : List Nat :=
  [Ctr.w, .p, .x].map fun c =>
    ((g.ops.filter fun o => o.ctr = c).zipIdx.foldl (fun n p => if f p.1 then p.2 + 1 else n) 0)

/-- What an arrival of the group waits for (R189): st, sst, red, stx, atomx, stp. -/
def Group.storeDeps (g : Group) : List Nat := g.depsOf fun o => o.kind.isStore || o.kind = .atomx

/-- What a request of the group waits for (R245): stx, atomx, st, stp. -/
def Group.postDeps (g : Group) : List Nat :=
  g.depsOf fun o => (o.kind = .store && o.vec) || o.kind = .stp || o.kind = .stx || o.kind = .atomx

/-- A wait told that the oldest operation of a counter has completed. -/
def lowerDeps (c : Ctr) (l : List Nat) : List Nat :=
  match c, l with
  | .w, [a, b, d] => [a - 1, b, d]
  | .p, [a, b, d] => [a, b - 1, d]
  | .x, [a, b, d] => [a, b, d - 1]
  | _, l => l

/-- What the arrivals and the requests of a group wait for changed, the requests set aside by a pre-emption among them (R189, R245). -/
def State.mapDeps (s : State) (gid : Nat) (f : List Nat → List Nat) : State :=
  let g := s.grp gid
  let s := s.modUnit g.unit fun u => { u with arrs := u.arrs.map fun a => if a.gid = gid then { a with deps := f a.deps } else a }
  let req := fun (r : Req) => if r.gid = gid then { r with deps := f r.deps } else r
  let s := { s with helms := s.helms.map fun (h : Nat × HelmSt) => (h.1, { h.2 with saved := h.2.saved.map req }) }
  match s.clusters.find? (coreCl g.core) with
  | some k => s.setCluster (coreCl g.core) { k with fifo := k.fifo.map req }
  | none => s

/-- An operation taken off its counter; fences, arrivals and requests of its group told (R141, R189, R245, R334). -/
def State.retireOp (s : State) (gid i : Nat) (o : Op) : State :=
  let s := s.modGrp gid fun g => { g with
    ops := g.ops.eraseIdx i
    fences := (g.fences.map fun f => f.lower o.ctr o.kind.reads).filter fun f => !f.spent }
  s.mapDeps gid (lowerDeps o.ctr)

/-- The trap an operation's refused or poisoned accesses leave for the next issue boundary (R139, R282); accesses that another device
refused or lost have left theirs (R403, R407). -/
def State.badEnd (s : State) (gid : Nat) (o : Op) : State :=
  match (o.accs.filter fun a => a.bad && !a.told).map (·.va) with
  | [] => s
  | a :: as =>
    let lowest := as.foldl min a
    if o.kind.isLoad then s.softError gid (toW lowest)
    else s.modGrp gid fun g => match g.trapPend with
      | some _ => g
      | none => { g with trapPend := some ⟨0x07, toW lowest, 0, 0, false⟩ }

/-- The cache forms' effects and the notice forms complete elsewhere; an operation whose accesses are all performed
completes: destinations written, the counter lowered (R140). A load or an atomic of which another device has refused an access writes
no lane, like one whose access is lost (R403, R407; DESIGN CHOICE, log 21). -/
def State.completeOp (s : State) (gid i : Nat) (o : Op) : Out State :=
  let bad := o.accs.any (·.bad)
  let r := if (o.kind.isLoad && bad) || o.accs.any (·.told) then (s, true)
    else if o.kind = .red then (s, true) else writeResults gid o s
  if !r.2 then .fault .backingUnmapped
  else .next ((r.1.retireOp gid i o).badEnd gid o)

/-- The number in the list of the oldest operation on a counter (R141). -/
def Group.oldest (g : Group) (c : Ctr) : Option Nat := g.ops.findIdx? fun o => o.ctr = c

/-- Every request of an operation that is left performed, one after the other. -/
def performRest (gid i : Nat) : List Nat → State → State
  | [], s => s
  | k :: ks, s => performRest gid i ks (s.performReq gid i k)

/-! ## Instructions that leave an operation pending -/

/-- The operation entered, its counter raised (R140). Of two operations pending on one register, which gst.chk 0 allows, the one that
completes last sets every lane it writes (R64; DESIGN CHOICE, log 115). -/
def State.pushOp (s : State) (gid : Nat) (o : Op) : State :=
  s.modGrp gid fun g => { g with ops := g.ops ++ [{ o with hdl := gstHdl g.gst }] }

/-- Accesses beat by beat. -/
def beatsOf (accs : List Acc) : List (List Acc) :=
  ((List.range 3).map fun b => accs.filter fun a => a.beat = b).filter (· != [])

/-- An operation on global or private memory entered with its first beat accepted, and the others as far as there are entries (R140,
R146, R147). -/
def State.pushMem (s : State) (gid : Nat) (o : Op) (stall : Nat) (ents : List (Nat × Nat)) : State :=
  let i := (s.grp gid).ops.length
  let s := s.pushOp gid ({ o with accs := [], todo := beatsOf o.accs, stall := stall }.accept ents)
  acceptMore gid i 3 s

/-- Scope code and cache policy of a gmod, cluster scope and default without one (R137). -/
def IX.scope (x : IX) : Nat :=
  match x.gl.gmod with
  | some o => if o.o = 1#1 then o.q.toNat else 2
  | none => 2
def IX.pol (x : IX) : Nat :=
  match x.gl.gmod with
  | some o => o.c.toNat
  | none => 0

/-- The scalars of a pair (R133). -/
def pairRegs (k : BitVec 5) : List Nat := [2 * k.toNat, 2 * k.toNat + 1]

/-- The rejected first beat of the instruction that issues again, where it asks for the same accesses: its checks have passed (R147). -/
def State.askedBefore (s : State) (x : IX) (q : List Ask) : Option Reject :=
  (s.rejection x.gid x.g.core x.g.pc).filter fun r => r.accs.map (fun a => (a.lane, a.va, a.n)) = q.map fun e => (e.lane, e.va, e.n)

/-- The accesses of a rejected beat with the data the instruction reads now. -/
def Reject.again (r : Reject) (q : List Ask) : List Acc := (r.accs.zip q).map fun p => { p.1 with data := p.2.data }

/-- Checks 1 to 3 of R135 over the accesses an instruction asks for, then drafts and counters; the translated accesses, and the miss
entries of the first beat. The alignment is that of a lane's address, which its first access has (R133, R136). An instruction whose
first beat was rejected has passed them (R147), but for the scope, which is judged in the cycle in which it issues (R331). -/
def askAll (x : IX) (s : State) (c : Ctr) (align : Nat) (scope : Nat) (a : Access) (kind : Nat) (q : List Ask) :
    R (State × List Acc × List (Nat × Nat)) :=
  match s.askedBefore x q with
  | some r =>
    let accs := r.again q
    if s.scopeDenied (s.keyOf x.g / 65536) scope then .error (s, .trap 0x08 (toW scope)) else
    match s.missGate x.gid x.g.core x.g.pc accs with
    | .ok r => .ok (r.1, accs, r.2)
    | .error s => .error (s, .wait)
  | none =>
  match q.find? fun e => e.reg = 0 && e.va % align != 0 with
  | some e => .error (s, .trap 0x06 (toW e.va))
  | none =>
    if s.scopeDenied (s.keyOf x.g / 65536) scope then .error (s, .trap 0x08 (toW scope))
    else
      let r := s.translateAll (s.keyOf x.g) x.g.core a kind q
      match firstStop r.2 with
      | some st => .error (r.1, st)
      | none =>
        let accs := r.2.map accOf
        match (draftSide x.g accs).or ((if needW a then r.1.draftStop x.g accs else none).or (ctrFull x.g c)) with
        | some st => .error (r.1, st)
        | none =>
          match r.1.missGate x.gid x.g.core x.g.pc accs with
          | .ok r => .ok (r.1, accs, r.2)
          | .error s => .error (s, .wait)

/-- The alignment of a size (R133). -/
def alignOf (z : Nat) : Nat := sizeBytes (BitVec.ofNat 3 z)

/-- The asks of a vector memory instruction: each active lane's address from the base and the offset that its beat reads (R64, R133). -/
def laneAsks (q : Gath) (addr : Row → Nat → Nat) (z : Nat) (data : Row → Nat → List Byte) : List Ask :=
  q.rows.flatMap fun r => r.lanes.flatMap fun l => asksOf (32 * r.b + l) (addr r l) z (data r l)

/-- The address of a lane: the pair among its values from place i on, and the offset, its first value (R133). -/
def rowVa (i : Nat) (r : Row) (l : Nat) : Nat := addOff48 (pair48 (r.at i l) (r.at (i + 1) l)) (r.at 0 l)

/-- A vector global access (R133, R135): ld and st. -/
def vecGlobal (i : Instr) (o : FM) (st : Bool) (s : State) : Out State :=
  issue (some (if st then 1 else 0)) false i o.s (fun x s => do
    let z := o.z.toNat
    let n := sizeRegs o.z
    let d := x.d o.d
    let regs := (List.range n).map fun j => d + j
    let srcs := Src.vec (x.a o.a) :: (if st then regs.map Src.vec else [])
    let q ← gather x s false (srcs ++ (pairRegs o.k).map Src.sc) (if st then [] else regs) []
    let asks := laneAsks q (rowVa srcs.length) z fun r l =>
      if st then storeData z ((List.range n).map fun j => r.at (j + 1) l) else []
    let r ← askAll x q.s (if st then .w else .g) (alignOf z) x.scope (if st then .write else .read) (if st then 1 else 0) asks
    let s := dryAll r.1 x.gid (dryOf (x.a o.a) o.a 0#1)
    pure ⟨s.pushMem x.gid (.new (if st then .w else .g) (if st then .store else .load) x.scope x.pol 0 z d true r.2.1)
      (x.gl.stallOf o.s.toNat) r.2.2, q.last, none, none, none⟩) s

/-- A scalar global access (R134): sld and sst. -/
def scalGlobal (i : Instr) (o : FM) (st : Bool) (s : State) : Out State :=
  issue (some (if st then 1 else 0)) false i o.s (fun x s => do
    let z := o.z.toNat
    let n := sizeRegs o.z
    let d := x.d o.d
    let regs := if d = 56 then [] else (List.range n).map fun j => d + j
    let v ← scalars x s (pairRegs o.k ++ [x.a o.a] ++ (if st then regs else [])) (if st then [] else regs)
    let va := addOff48 (pair48 (v0 v) (v1 v)) (v2 v)
    let asks := asksOf 0 va z (if st then storeData z (v.drop 3) else [])
    let r ← askAll x s (if st then .w else .g) (alignOf z) x.scope (if st then .write else .read) (if st then 1 else 0) asks
    pure (Eff.plain x (r.1.pushMem x.gid
      (.new (if st then .w else .g) (if st then .store else .load) x.scope x.pol 0 z d false r.2.1) (x.gl.stallOf o.s.toNat) r.2.2))) s

/-- A private access (R131): word i + j of the lane for each of its registers. -/
def vecPrivate (i : Instr) (o : FMp) (st : Bool) (s : State) : Out State :=
  issue (some (if st then 1 else 0)) false i o.s (fun x s => do
    let n := sizeRegs o.z
    let d := x.d o.d
    let regs := (List.range n).map fun j => d + j
    let q ← gather x s false (.vec (x.a o.a) :: (if st then regs.map Src.vec else [])) (if st then [] else regs) []
    let lanes := q.rows.flatMap fun r => r.lanes.map fun l => (r, l)
    match lanes.find? fun p => x.g.plim ≤ (p.1.at 0 p.2).toNat + n - 1 with
    | some p => .error (s, .trap 0x05 (p.1.at 0 p.2))
    | none => do
      let asks : List Ask := lanes.flatMap fun p => (List.range n).map fun j =>
        ⟨32 * p.1.b + p.2, x.g.privVa ((p.1.at 0 p.2).toNat + j) (32 * p.1.b + p.2), 4, j,
          if st then leBytes 4 (p.1.at (j + 1) p.2).toNat else []⟩
      let r ← askAll x q.s .p 1 2 (if st then .write else .read) (if st then 1 else 0) asks
      let s := dryAll r.1 x.gid (dryOf (x.a o.a) o.a 0#1)
      pure ⟨s.pushMem x.gid (.new .p (if st then .stp else .ldp) 2 x.pol 0 o.z.toNat d true r.2.1) (x.gl.stallOf o.s.toNat) r.2.2,
        q.last, none, none, none⟩) s

/-- Checks 1 to 4 of a scratch access (R183). Where lanes touch several armed barriers, the one that the lowest of those lanes
touches is reported (R191; DESIGN CHOICE, log 115). -/
def askScratch (x : IX) (s : State) (align : Nat) (write : Bool) (q : List Ask) : R (List Acc) :=
  let u := s.unit x.g.unit
  match q.find? fun e => e.reg = 0 && e.va % align != 0 with
  | some e => .error (s, .trap 0x06 (toW e.va))
  | none =>
    match q.find? fun e => u.foot < e.va + e.n with
    | some e => .error (s, .trap 0x07 (toW (e.va / align * align)))
    | none =>
      match (if write then q.findSome? fun e => u.barIn? e.va (e.va + e.n) else none) with
      | some b => .error (s, .trap 0x0B (toW b.addr))
      | none =>
        if write && q.any fun e => u.claimed e.va (e.va + e.n) then
          .error (s, .park 0xB (.unclaimed (q.map fun e => (e.va, e.va + e.n))) 0)
        else
          match ctrFull x.g .x with
          | some st => .error (s, st)
          | none => .ok (q.map fun e => ⟨e.lane, e.va, e.va, 0, e.n, e.reg, e.data, [], false, false, false, none⟩)

/-- The scratch address of a lane: base and offset modulo 2^32 (R183). -/
def scrAddr (base off : Word) : Nat := (base + off).toNat

/-- A scratch access (R183): ldx and stx. -/
def vecScratch (i : Instr) (o : FM) (st : Bool) (s : State) : Out State :=
  issue (some (if st then 1 else 0)) false i o.s (fun x s => do
    let z := o.z.toNat
    let n := sizeRegs o.z
    let d := x.d o.d
    let regs := (List.range n).map fun j => d + j
    let srcs := Src.vec (x.a o.a) :: (if st then regs.map Src.vec else [])
    let q ← gather x s false (srcs ++ [.sc (2 * o.k.toNat)]) (if st then [] else regs) []
    let asks := laneAsks q (fun r l => scrAddr (r.at srcs.length l) (r.at 0 l)) z fun r l =>
      if st then storeData z ((List.range n).map fun j => r.at (j + 1) l) else []
    let accs ← askScratch x q.s (alignOf z) st asks
    let s := dryAll q.s x.gid (dryOf (x.a o.a) o.a 0#1)
    pure ⟨s.pushOp x.gid (.new .x (if st then .stx else .ldx) 2 0 0 z d true accs), q.last, none, none, none⟩) s

/-- The operands of an atomic form: x, and for cas the new value (R36). -/
def atomData (aop : BitVec 4) (r : Row) (l : Nat) : List Byte :=
  leBytes 4 (r.at 1 l).toNat ++ (if aop = 10#4 then leBytes 4 (r.at 2 l).toNat else [])

/-- An atomic or a reduction on global memory (R270, R272). -/
def vecAtom (i : Instr) (o : FA) (ret : Bool) (s : State) : Out State :=
  issue (some (if ret then 2 else 1)) false i o.s (fun x s => do
    let n := aopRegs o.o
    let d := x.d o.d
    let regs := (List.range n).map fun j => d + j
    if x.g.draft.isSome then .error (s, .trap 0x0D 0#32)
    else do
      let q ← gather x s false ((.vec (x.a o.a) :: regs.map Src.vec) ++ (pairRegs o.k).map Src.sc) (if ret then [d] else []) []
      let asks : List Ask := q.rows.flatMap fun r => r.lanes.map fun l =>
        ⟨32 * r.b + l, rowVa (n + 1) r l, 4, 0, atomData o.o r l⟩
      let r ← askAll x q.s (if ret then .g else .w) 4 2 (if ret then .readWrite else .write) (if ret then 2 else 1) asks
      let s := dryAll r.1 x.gid (dryOf (x.a o.a) o.a 0#1)
      pure ⟨s.pushMem x.gid (.new (if ret then .g else .w) (if ret then .atom else .red) 2 0 o.o.toNat 4 d true r.2.1)
        (x.gl.stallOf o.s.toNat) r.2.2, q.last, none, none, none⟩) s

/-! ## The instructions -/

/-- LD (R133). -/
def execLd (o : FM) (s : State) : Out State := vecGlobal (.ld o) o false s

/-- ST (R133). -/
def execSt (o : FM) (s : State) : Out State := vecGlobal (.st o) o true s

/-- LDP (R131). -/
def execLdp (o : FMp) (s : State) : Out State := vecPrivate (.ldp o) o false s

/-- STP (R131). -/
def execStp (o : FMp) (s : State) : Out State := vecPrivate (.stp o) o true s

/-- LDX (R183). -/
def execLdx (o : FM) (s : State) : Out State := vecScratch (.ldx o) o false s

/-- STX (R183). -/
def execStx (o : FM) (s : State) : Out State := vecScratch (.stx o) o true s

/-- SLD (R134). -/
def execSld (o : FM) (s : State) : Out State := scalGlobal (.sld o) o false s

/-- SST (R134). -/
def execSst (o : FM) (s : State) : Out State := scalGlobal (.sst o) o true s

/-- ATOM (R270). -/
def execAtom (o : FA) (s : State) : Out State := vecAtom (.atom o) o true s

/-- RED (R272). -/
def execRed (o : FA) (s : State) : Out State := vecAtom (.red o) o false s

/-- ATOMX (R184): a read-modify-write of the scratch word of each active lane. -/
def execAtomx (o : FA) (s : State) : Out State :=
  issue (some 2) false (.atomx o) o.s (fun x s => do
    let d := x.d o.d
    let regs := (List.range (aopRegs o.o)).map fun j => d + j
    let q ← gather x s false ((.vec (x.a o.a) :: regs.map Src.vec) ++ [.sc (2 * o.k.toNat)]) [d] []
    let asks : List Ask := q.rows.flatMap fun r => r.lanes.map fun l =>
      ⟨32 * r.b + l, scrAddr (r.at (regs.length + 1) l) (r.at 0 l), 4, 0, atomData o.o r l⟩
    let accs ← askScratch x q.s 4 true asks
    let s := dryAll q.s x.gid (dryOf (x.a o.a) o.a 0#1)
    pure ⟨s.pushOp x.gid (.new .x .atomx 2 0 o.o.toNat 4 d true accs), q.last, none, none, none⟩) s

/-! ## The events of pending operations -/

/-- HOME_READ (R268): a request of a pending load reaches its home, or its L1, and is served. -/
def execHomeRead (g i : Nat) (s : State) : Out State :=
  match (s.grp g).ops[i]? with
  | some o => if o.kind.isLoad then .next (s.performOne g i) else .next s
  | none => .next s

/-- HOME_WRITE_PERFORM (R267): a request of a pending store is performed, or an L1 writes back a line's dirty bytes. -/
def execHomeWritePerform (w : WriteSrc) (s : State) : Out State :=
  match w with
  | .op g i =>
    match (s.grp g).ops[i]? with
    | some o => if o.kind.isStore && !(o.kind = .red && o.redHome) then .next (s.performOne g i) else .next s
    | none => .next s
  | .writeBack l1 line => .next (s.writeBack l1 line)

/-- HOME_ATOMIC (R270): a request of a pending atomic, or of a reduction performed at the home. -/
def execHomeAtomic (g i : Nat) (s : State) : Out State :=
  match (s.grp g).ops[i]? with
  | some o =>
    if o.kind = .atom || o.kind = .atomx || (o.kind = .red && o.redHome) then .next (s.performOne g i) else .next s
  | none => .next s

/-- The spans of a line that a group's pending stores need and that its L1 neither holds nor has claimed, in their order (R214, R266). -/
def State.wantedSpans (s : State) (g : Group) (l1 line : Nat) : List (Nat × Nat) :=
  (g.ops.filter fun o => o.kind = .store || o.kind = .stp).flatMap fun o =>
    (o.accs.filter fun a => !a.fin && a.pa / 128 = line && s.l1For g.core a.pa = l1 && s.inL1 g o a.pa && !s.mayStore g.core a.pa a.n).map
      fun a => spanOfBytes ((o.span a).1 % 128) (o.span a).2

/-- SPAN_CLAIM (R266): an L1's claim on the span that a pending store of its cores needs of a line reaches the home. -/
def execSpanClaim (l1 line : Nat) (s : State) : Out State :=
  .next (match (s.groups.flatMap fun p => s.wantedSpans p.2 l1 line).head? with
    | some sp => s.claim l1 line sp
    | none => s)

/-- UPDATE_ONLY_EVICT (R274): an update-only line leaves its L1 and its deltas are combined at the home. -/
def execUpdateOnlyEvict (l1 line : Nat) (s : State) : Out State :=
  .next (if (s.l1At l1 line).upd = [] then s else s.combineOne (s.l1At l1 line))

/-- Free entries given to rejected beats, the oldest first: an L1 that one of them still lacks gives none to a later one (R146). -/
def giveEntries (used : Nat → Nat) : List Reject → List Reject
  | [] => []
  | r :: rs =>
    let got := r.lacks.zipIdx.filter fun e =>
      used e.1.1 + ((r.lacks.take e.2).filter fun f => f.1 = e.1.1).length < Config.missMax
    let r' := { r with got := r.got ++ got.map (·.1), lacks := r.lacks.filter fun e => !(got.map (·.1)).contains e }
    r' :: giveEntries (fun l => if r'.lacks.any (fun e => e.1 = l) then Config.missMax
      else used l + (got.filter fun e => e.1.1 = l).length) rs

/-- The first rejected later beat of a core that has all its entries proceeds, and the beats after it as far as there are entries
(R147). -/
def State.proceed (s : State) (core : Nat) : State :=
  match (s.rejects core).find? fun r => !r.first && r.lacks = [] with
  | none => s
  | some r =>
    let s := s.setRejects core ((s.rejects core).filter fun q => !(q.gid = r.gid && !q.first))
    match (s.grp r.gid).ops.findIdx? fun o => o.todo != [] with
    | some i => acceptMore r.gid i 3 (s.acceptBeat r.gid i r.got)
    | none => s

/-- MISS_ENTRY_GRANT (R146, R147): freed entries go to the oldest rejected beats of a core; one that has all it needs proceeds. -/
def execMissEntryGrant (core : Nat) (s : State) : Out State :=
  .next ((s.setRejects core (giveEntries s.missUsed (s.rejects core))).proceed core)

end Sys2Proof.Machine
end

