-- ==== Sys2Proof/Machine/Cache.lean ====
section
/-!
DEFINITION. Sys2Proof/Machine/Cache.lean: the cache instructions (R148, R149), completion of counted operations in order
(R141), and the end of a refill (R58, R66).
-/
namespace Sys2Proof.Machine
open Host (Outcome)

/-- The lines of page i of a virtual range from lo, where the page lies at a physical address (R148). -/
def pageLines (lo len i pa : Nat) : List (Nat × Nat) :=
  let p0 := lo / 4096
  let page := (p0 + i) % 68719476736
  let a := if i = 0 then lo % 4096 / 128 else 0
  let z := if p0 + i = (lo + len - 1) / 4096 then (lo + len - 1) % 4096 / 128 else 31
  (List.range (z + 1 - a)).map fun j => (page * 32 + a + j, pa / 128 + a + j)

/-- The lines of a virtual range that are mapped, as pairs of line address and physical line, and the machine after their pages are
translated (R148, R311); a range that passes 2^48 goes on at 0 (DESIGN CHOICE, log 115). -/
def State.rangeLines (s : State) (key lo len : Nat) : State × List (Nat × Nat) :=
  if len = 0 then (s, [])
  else
    (List.range ((lo + len - 1) / 4096 - lo / 4096 + 1)).foldl (fun (r : State × List (Nat × Nat)) i =>
      match r.1.mapUse key ((lo / 4096 + i) % 68719476736 * 4096) with
      | (t, some pa) => (t, r.2 ++ pageLines lo len i pa)
      | (t, none) => (t, r.2)) (s, [])

/-- Whether an L1 is that of a core: its own, or a slice of its fused cluster. -/
def State.myL1 (s : State) (core l1 : Nat) : Bool :=
  if (s.cluster (coreCl core)).fused then l1 / 4 = coreCl core else l1 = core

/-- An L1 line discarded; deltas of an update-only line are sent to the home (R148). -/
def State.dropL1 (s : State) (l1 line : Nat) : State :=
  let l := s.l1At l1 line
  let s := if l.upd = [] then s else s.combineOne l
  let l := s.l1At l1 line
  ((s.putL1 { l.clean l.dirty with spans := [] }).unrecord l1 line (BitVec.allOnes 32)).fenceDone (l1 / 4) line l.dirty

/-- One L1 line under a range form: 0 l1wb, 1 l1inv, 2 l1wbinv (R148). -/
def State.cacheLine (s : State) (key f va l1 line : Nat) : State :=
  let l := s.l1At l1 line
  let s := if l.upd = [] then s else s.combineOne l
  match f with
  | 0 => s.writeBack l1 line
  | 1 => if s.aboveLim key (va * 128) then (s.writeBack l1 line).dropL1 l1 line else s.dropL1 l1 line
  | _ => (s.writeBack l1 line).dropL1 l1 line

/-- A range form carried out (R148). -/
def State.cacheForm (s : State) (g : Group) (f lo len : Nat) : State :=
  let key := s.keyOf g
  if f = 3 then
    { s with cores := s.cores.map fun c => (c.1, { c.2 with
        ic := c.2.ic.filter fun e => !(e.1 = key / 65536 && e.2.1 = key % 65536 && len != 0 &&
          (e.2.2.1 / 128 + 2199023255552 - lo / 128) % 2199023255552 ≤ (lo + len - 1) / 128 - lo / 128) }) }
  else
    let r := s.rangeLines key lo len
    (r.1.l1.filter fun l => s.myL1 g.core l.core).foldl (fun s l =>
      match r.2.find? fun p => p.2 = l.line with
      | some p => s.cacheLine key f p.1 l.core l.line
      | none => s) r.1

/-- A range form: it counts on w and never faults (R148). -/
def cacheRange (i : Instr) (o : FD) (f : Nat) (s : State) : Out State :=
  issue (some 1) false i o.s (fun x s => do
    let v ← scalars x s [o.d.toNat, x.a o.a, x.a o.a + 1] []
    match ctrFull x.g .w with
    | some st => .error (s, st)
    | none =>
      pure (Eff.plain x (s.pushOp x.gid
        (.new .w (.cache f (pair48 (v1 v) (v2 v)) (v0 v).toNat) 2 0 0 4 0 false [])))) s

/-- CACHE_L1WB (R148). -/
def execCacheL1wb (o : FD) (s : State) : Out State := cacheRange (.cacheL1wb o) o 0 s

/-- CACHE_L1INV (R148). -/
def execCacheL1inv (o : FD) (s : State) : Out State := cacheRange (.cacheL1inv o) o 1 s

/-- CACHE_L1WBINV (R148). -/
def execCacheL1wbinv (o : FD) (s : State) : Out State := cacheRange (.cacheL1wbinv o) o 2 s

/-- CACHE_ICINV (R148). -/
def execCacheIcinv (o : FD) (s : State) : Out State := cacheRange (.cacheIcinv o) o 3 s

/-- CACHE_FETCHBAR (R148): the words fetched and not issued are discarded. -/
def execCacheFetchbar (o : F0) (s : State) : Out State :=
  issueS (.cacheFetchbar o) o.s (fun x s => .ok (Eff.plain x (s.modGrp x.gid fun g => { g with pf := [] }))) s

/-- CACHE_PREF (R148): up to 64 mapped lines are filled; a draft allocates nothing. -/
def execCachePref (o : FD) (s : State) : Out State :=
  issueS (.cachePref o) o.s (fun x s => do
    let v ← scalars x s [o.d.toNat, x.a o.a, x.a o.a + 1] []
    let r := s.rangeLines (s.keyOf x.g) (pair48 (v1 v) (v2 v)) (min (v0 v).toNat 8192)
    let s := (r.2.take 64).foldl (fun s p =>
      if x.g.draft.isSome || s.drafted p.2 || windowPa (p.2 * 128) then s
      else (s.combine p.2).l1Fill x.g.core (p.2 * 128) 128) r.1
    pure (Eff.plain x s)) s

/-- IN_FLIGHT_COMPLETE (R141): the oldest operation on a counter completes; what is left of it is performed first. While an
earlier access of the group to the same bytes is outstanding it cannot. -/
def execInFlightComplete (gid : Nat) (c : Ctr) (s : State) : Out State :=
  let g := s.grp gid
  match g.oldest c with
  | none => .next s
  | some i =>
    match g.ops[i]? with
    | none => .next s
    | some o =>
      match o.kind with
      | .cache f lo len => .next ((s.cacheForm g f lo len).retireOp gid i o)
      | .notice => if o.accs.all (·.fin) && o.accs != [] then s.completeOp gid i o else .next s
      | _ =>
        let s1 := performRest gid i o.left s
        match (s1.grp gid).ops[i]? with
        | some o1 => if o1.accs.all (·.fin) && o1.todo = [] then s1.completeOp gid i o1 else .next s
        | none => .next s1

/-- REFILL_COMPLETE (R58, R66): spilled registers, or the newest spilled stack entry, are back; the group is pending. -/
def execRefillComplete (gid : Nat) (s : State) : Out State :=
  let g := s.grp gid
  if g.st != .refilling then .next s
  else
    let r := g.refill.foldl (fun (a : State × Bool) c =>
      let q := openCell gid a.1 c
      (q.1, a.2 && q.2)) (s, true)
    let r := if g.stk.length < 16 && g.stkSp != 0 then
        match r.1.privGet gid (g.plim + 64 + (g.stkSp - 1)) 0 16 with
        | (s, some b) =>
          let w := leWords b 4
          (s.modGrp gid fun g => { g with stk := g.stk ++ [⟨wAt w 0, wAt w 1, wAt w 2, wAt w 3⟩], stkSp := g.stkSp - 1 }, r.2)
        | (s, none) => (s, false)
      else r
    if !r.2 then .fault .backingUnmapped
    else .next ((r.1.modGrp gid fun g => { g.ready (s.core g.core).cycle with refill := [] }).takeSlot gid)

end Sys2Proof.Machine
end

