-- ==== Sys2Proof/Machine/Sync.lean ====
section
/-!
DEFINITION. Sys2Proof/Machine/Sync.lean: barriers (R187-R193), the park forms (R143, R194, R195, R227, R411), fence
(R334), regroup (R207), the chain forms (R203-R206), launch and spawn (R208, R209).
-/
namespace Sys2Proof.Machine
open Host (Outcome)

/-- ILLOP raised by a check of the state: the information is the word at fault (R70; DEDUCED, log 30). -/
def IX.illop (x : IX) : Stop := .trap 0x01 x.w

/-! ## The barrier unit (R187-R190) -/

/-- The lowest open phase in which a group has not arrived (R189). -/
def Bar.phaseOf (b : Bar) (g : Nat) : Option Nat := b.ph.findIdx? fun p => !p.who.contains g

/-- An engine arrival counted into the lowest phase not full, or held (R189). -/
def Bar.engine (b : Bar) : Bar :=
  match b.ph.findIdx? fun p => p.arr < p.cnt with
  | some i => { b with ph := b.ph.modify i fun p => { p with arr := p.arr + 1 } }
  | none => { b with held := b.held + 1 }

/-- Whether a barrier marked to disarm has completed its last phase with a count (R190). -/
def Bar.ended (b : Bar) : Bool := b.disarm && b.ph.all fun p => p.cnt = 0

/-- Phases completed while the oldest is full, up to n of them (R189, R190). -/
def Bar.advance : Nat → Bar → Bar
  | 0, b => b
  | n + 1, b =>
    match b.ph with
    | p :: rest =>
      if p.cnt ≤ p.arr && !b.ended then
        let c := { b with k := b.k + 1, ph := rest ++ [⟨b.base, 0, []⟩], held := 0 }
        Bar.advance n ((List.range b.held).foldl (fun c _ => c.engine) c)
      else b
    | [] => b

/-- A barrier after an arrival: phases completed, or disarmed. -/
def UnitSt.putBar (u : UnitSt) (b : Bar) : UnitSt :=
  let b := b.advance (b.held + 4)
  if b.ended then { u with bars := u.bars.filter fun x => x.addr != b.addr } else u.setBar b

/-- The effect of a group's arrival in a phase, and of a drop (R188, R189); in a phase already left it counts nothing. -/
def UnitSt.arriveAt (u : UnitSt) (a phase : Nat) (drop : Bool) : UnitSt :=
  match u.bar? a with
  | some b =>
    let b := if b.k ≤ phase then { b with ph := b.ph.modify (phase - b.k) fun p => { p with arr := p.arr + 1 } } else b
    let b := if drop then
        { b with
          base := b.base - 1
          disarm := b.disarm || b.base ≤ 1
          ph := b.ph.zipIdx.map fun p => if phase < b.k + p.2 then { p.1 with cnt := p.1.cnt - 1 } else p.1 }
      else b
    u.putBar b
  | none => u

/-- An engine's arrival (R189). -/
def UnitSt.engineArrive (u : UnitSt) (a : Nat) : UnitSt :=
  match u.bar? a with
  | some b => u.putBar b.engine
  | none => u

/-- The state word of bar.query (R188). -/
def Bar.word (b : Bar) : Word :=
  match b.ph with
  | p :: _ => toW (p.arr % 256 * 16777216 + p.cnt % 256 * 65536 + b.cls * 16384 + 8192 + b.k % 8)
  | [] => 0#32

/-- The checks of a barrier address (R188). -/
def barAddr (x : IX) (s : State) (a : Word) : Option Stop :=
  if a.toNat % 16 != 0 then some (.trap 0x06 a)
  else if (s.unit x.g.unit).foot < a.toNat + 16 then some (.trap 0x07 a)
  else none

/-- BAR_INIT (R188); the barrier's bytes read 0 from now on, and after it disarms (R190, R191). -/
def execBarInit (o : FDc) (s : State) : Out State :=
  issue (some 3) false (.barInit o) o.s (fun x s => do
    let v ← scalars x s [o.d.toNat, x.a o.a] []
    let n := (v0 v).toNat
    let a := (v1 v).toNat
    match barAddr x s (v1 v) with
    | some st => .error (s, st)
    | none =>
      if n = 0 || 255 < n || ((s.unit x.g.unit).bar? a).isSome then .error (s, x.illop)
      else
        let p : Phase := ⟨n, 0, []⟩
        let b : Bar := ⟨a, o.c.toNat, n, 0, [p, p, p], 0, false⟩
        pure (Eff.plain x (s.modUnit x.g.unit fun u => { u with
          bars := u.bars ++ [b]
          scr := u.scr.take a ++ List.replicate 16 0#8 ++ u.scr.drop (a + 16) }))) s

/-- An arrival or drop of a group (R189): the phase it counts into, at once or once its earlier writes are complete. -/
def barArrival (x : IX) (s : State) (addr : Word) (drop : Bool) : R (State × Word) :=
  match barAddr x s addr with
  | some st => .error (s, st)
  | none =>
    let u := s.unit x.g.unit
    let a := addr.toNat
    match u.bar? a with
    | none => .error (s, .trap 0x01 addr)
    | some b =>
      match b.phaseOf x.gid with
      | none => .error (s, .park 0x4 (.barRoom a b.k) 0)
      | some i =>
        let n := b.k + i
        let u := u.setBar { b with ph := b.ph.modify i fun p => { p with who := x.gid :: p.who } }
        let deps := x.g.storeDeps
        let u := if deps.all (· = 0) && u.arrs.all fun r => r.gid != x.gid then u.arriveAt a n drop
          else { u with arrs := u.arrs ++ [⟨a, n, x.gid, drop, deps⟩] }
        .ok (s.setUnit x.g.unit u, toW (a / 16 * 65536 + n % 8))

/-- BAR_ARRIVE (R188, R189). -/
def execBarArrive (o : FD) (s : State) : Out State :=
  issue (some 3) false (.barArrive o) o.s (fun x s => do
    let v ← scalars x s [x.a o.a] [x.d o.d]
    let r ← barArrival x s (v0 v) false
    pure (Eff.plain x (writeScal r.1 x.gid (x.d o.d) r.2 x.t 2))) s

/-- BAR_DROP (R188, R189). -/
def execBarDrop (o : Fa) (s : State) : Out State :=
  issue (some 3) false (.barDrop o) o.s (fun x s => do
    let v ← scalars x s [x.a o.a] []
    let r ← barArrival x s (v0 v) true
    pure (Eff.plain x r.1)) s

/-- BAR_QUERY (R188). -/
def execBarQuery (o : FD) (s : State) : Out State :=
  issueS (.barQuery o) o.s (fun x s => do
    let v ← scalars x s [x.a o.a] [x.d o.d]
    match barAddr x s (v0 v) with
    | some st => .error (s, st)
    | none =>
      let w := match (s.unit x.g.unit).bar? (v0 v).toNat with
        | some b => b.word
        | none => 0#32
      pure (Eff.plain x (writeScal s x.gid (x.d o.d) w x.t 2))) s

/-- BARRIER_ARRIVAL_EFFECT (R189): the first arrival of a unit whose group's earlier writes are complete takes effect. -/
def execBarrierArrivalEffect (u : Nat) (s : State) : Out State :=
  let x := s.unit u
  match x.arrs.findIdx? fun a => a.deps.all (· = 0) with
  | some i =>
    match x.arrs[i]? with
    | some a => .next (s.setUnit u ({ x with arrs := x.arrs.eraseIdx i }.arriveAt a.addr a.phase a.drop))
    | none => .next s
  | none => .next s

/-! ## The park forms -/

/-- The counter a path names (R35). -/
def ctrOf (p : BitVec 2) : Ctr :=
  match p.toNat with
  | 0 => .g
  | 1 => .w
  | 2 => .p
  | _ => .x

/-- PARK_WAITC (R143). -/
def execParkWaitc (o : Fap) (s : State) : Out State :=
  issueS (.parkWaitc o) o.s (fun x s => do
    let v ← scalars x s [x.a o.a] []
    if x.g.count (ctrOf o.p) ≤ (v0 v).toNat then pure (Eff.plain x s)
    else .error (s, .park 0x0 (.waitc (ctrOf o.p) (v0 v).toNat (nextPc x.g.pc)) 0)) s

/-- The failed copy of a group, issued earliest, that a wait on batch n reports (R411). -/
def State.failedCopy (s : State) (g : Nat) (n : Word) : Option (Nat × Copy) :=
  let m := (s.grp g).sealed
  ((s.copiesOf g).filter fun c =>
    c.2.failed.isSome && c.2.batch != 0#32 && (m - n).toNat ≤ (m - c.2.batch).toNat).foldl
    (fun b c => match b with
      | none => some c
      | some d => if c.1 < d.1 then some c else some d) none

/-- PARK_BWAIT (R227, R411). -/
def execParkBwait (o : Fa) (s : State) : Out State :=
  issueS (.parkBwait o) o.s (fun x s => do
    let v ← scalars x s [x.a o.a] []
    let n := v0 v
    if n = 0#32 then pure (Eff.plain x s)
    else if 2147483648 ≤ (x.g.sealed - n).toNat then .error (s, .trap 0x01 n)
    else if s.batchDone x.gid n then
      match s.failedCopy x.gid n with
      | some (k, c) =>
        let f := c.failed.getD (0, 0#32)
        .error ({ s with copies := s.copies.del k }, .trapRung (causeRung f.1) f.1 f.2)
      | none => pure (Eff.plain x s)
    else .error (s, .park 0x2 (.batch n) 0)) s

/-- PARK_WBAR (R193). -/
def execParkWbar (o : Fa) (s : State) : Out State :=
  issueS (.parkWbar o) o.s (fun x s => do
    let v ← scalars x s [x.a o.a] []
    let tok := v0 v
    let a := tok.toNat / 65536 * 16
    if bits tok.toNat 3 13 != 0 then .error (s, x.illop)
    else if s.holds x.gid (.barPhase a tok) then pure (Eff.plain x s)
    else .error (s, .park 0x3 (.barPhase a tok) 0)) s

/-- PARK_WAITM (R194, R195, R285, R404): the word is read at its home with tenant scope; a draft reads its own copy. -/
def execParkWaitm (o : FDc) (s : State) : Out State :=
  issue (some 0) false (.parkWaitm o) o.s (fun x s => do
    let v ← scalars x s [o.d.toNat, x.a o.a, x.a o.a + 1] []
    let va := pair48 (v1 v) (v2 v)
    if va % 4 != 0 then .error (s, .trap 0x06 (toW va))
    else
      match s.access (s.keyOf x.g) va .read 0 x.g.core with
      | (s, .ok pa _) =>
        if windowPa pa then .error (s, if x.g.draft.isSome then .trap 0x0D 0#32 else .trap 0x07 (toW va))
        else if x.g.wordHeld pa 4 then .error (s, .wait)
        else
          let r := match x.g.draft with
            | some d => s.draftRead d (coreCl x.g.core) pa 4
            | none => (s.flushCluster (coreCl x.g.core) pa).homeRead pa 4
          let bad := match x.g.draft with
            | some d => r.1.draftBad d pa 4
            | none => r.1.poisoned pa 4
          if bad then .error (r.1.softError x.gid (toW va), .wait)
          else if leWord r.2 = v0 v then pure (Eff.plain x r.1)
          else .error (r.1, .park 0x5 (.word pa (v0 v)) o.c.toNat)
      | (s, t) => .error (s, t.stop va)) s

/-- PARK_YIELD (R173, R194): the group is pending at once, at the next word. -/
def execParkYield (o : F0) (s : State) : Out State :=
  issueS (.parkYield o) o.s (fun x s =>
    .ok (Eff.plain x ((s.leave x.g.core x.t).modGrp x.gid fun g => { g with st := .pending }))) s

/-! ## Fence -/

/-- A fence over the accesses a group has issued, and over the dirty bytes of its cluster that it has observed or written (R269, R334). -/
def fenceOf (s : State) (gid : Nat) (g : Group) (kind scope : Nat) : FenceRec where
  kind := kind
  scope := scope
  reads := (g.ops.filter fun o => o.kind.reads).length
  g := g.count .g
  w := g.count .w
  p := g.count .p
  x := g.count .x
  dirty := if 3 ≤ scope && kind != 0 then s.seenBytes gid (coreCl g.core) else []

/-- FENCE (R332-R334): a scope above tenant must be granted. -/
def execFence (o : FF) (s : State) : Out State :=
  issueS (.fence o) o.s (fun x s =>
    if s.scopeDenied (s.keyOf x.g / 65536) o.c.toNat then .error (s, .trap 0x08 (o.c.setWidth 32))
    else
      let f := fenceOf s x.gid x.g o.k.toNat o.c.toNat
      .ok (Eff.plain x (if f.spent then s else s.modGrp x.gid fun g => { g with fences := g.fences ++ [f] }))) s

/-! ## Regroup (R207) -/

/-- The active lane positions of mask words, and the inactive ones, over n beats. -/
def posOf (m : List Word) (n : Nat) (on : Bool) : List Nat :=
  (List.range (32 * n)).filter fun i => (wAt m (i / 32)).getLsbD (i % 32) = on

/-- The lanes of a register's beat, mapped or spilled; none where unmapped or dry. -/
def State.cellVal (s : State) (gid n b : Nat) : State × Option (Option Lanes) :=
  let g := s.grp gid
  match g.vr.find? (3 * n + b) with
  | some (.mapped v _) => (s, some (some v))
  | some .spilled =>
    match s.privGet gid (g.plim + n) (32 * b) 128 with
    | (s, some bs) => (s, some (some (leWords bs 32)))
    | (s, none) => (s, none)
  | _ => (s, some none)

/-- Every cell of a group, register by register and beat by beat. -/
def State.allCells (s : State) (gid : Nat) : State × Option (List (Option Lanes)) :=
  let g := s.grp gid
  ((List.range (3 * g.regs)).foldl (fun (a : State × Option (List (Option Lanes))) k =>
    match a.2 with
    | none => a
    | some l =>
      if g.beats ≤ k % 3 then (a.1, some (none :: l))
      else
        match a.1.cellVal gid (k / 3) (k % 3) with
        | (s, some v) => (s, some (v :: l))
        | (s, none) => (s, none)) (s, some [])).map id fun r => r.map List.reverse

/-- The partner's active lanes moved into the survivor's inactive lanes. Moves are pairs of a destination and a source
position. Whether an unmapped or dry beat of the survivor is mapped is judged beat by beat: it is where a source beat of its lanes is
mapped (R56, R207; DESIGN CHOICE, log 48). -/
def State.fuse (s : State) (sv : Nat) (mv : List (Nat × Nat)) (cs cp : List (Option Lanes)) : State × Bool :=
  let g := s.grp sv
  (List.range (3 * g.regs)).foldl (fun (a : State × Bool) k =>
    let n := k / 3
    let mine := mv.filter fun m => m.1 / 32 = k % 3
    let own := cs.getD k none
    if mine = [] || (own = none && mine.all fun m => cp.getD (3 * n + m.2 / 32) none = none) then a
    else
      let v := mine.foldl (fun (v : Lanes) m =>
        v.set (m.1 % 32) (((cp.getD (3 * n + m.2 / 32) none).getD zeroLanes).getD (m.2 % 32) 0#32)) (own.getD zeroLanes)
      let fresh := match g.vr.find? k with
        | some (.mapped _ _) => false
        | _ => true
      let r := if fresh then a.1.spill g.core else (a.1, true)
      (r.1.modGrp sv fun g => { g with vr := g.vr.set k (.mapped v (r.1.core g.core).cycle) }, a.2 && r.2)) (s, true)

/-- REGROUP_MEET (R207): the values d takes in the survivor and in the partner, and the state after the fusion. -/
def State.meet (s : State) (sv pt : Nat) (ms mp : List Word) : State × Option (Word × Word) :=
  let a := s.grp sv
  let b := s.grp pt
  let on := posOf mp a.beats true
  let free := posOf ms a.beats false
  if free.length < on.length || a.stk != [] || b.stk != [] || a.stkSp + b.stkSp != 0 then (s, some (0#32, 0#32))
  else
    match s.allCells sv with
    | (s, none) => (s, none)
    | (s, some cs) =>
      match s.allCells pt with
      | (s, none) => (s, none)
      | (s, some cp) =>
        let mv := free.zip on
        let r := s.fuse sv mv cs cp
        if !r.2 then (r.1, none)
        else
          let s := r.1.modGrp sv fun g => { g with
            sr := mv.foldl (fun l m => l.set (m.1 / 32) (wAt l (m.1 / 32) ||| (1#32 <<< (m.1 % 32)))) g.sr }
          (s.modGrp pt fun g => { g with vr := [], sr := [0#32, 0#32, 0#32] ++ g.sr.drop 3 }, some (1#32, 2#32))

/-- REGROUP (R207): a group with operations in flight waits for them first. -/
def execRegroup (o : FD) (s : State) : Out State :=
  issueS (.regroup o) o.s (fun x s => do
    let d := o.d.toNat
    let bs := List.range x.g.beats
    let v ← scalars x s (x.a o.a :: bs) [d]
    let k := (v0 v).toNat
    let mask := v.drop 1
    if (s.unit x.g.unit).chain.isSome || x.g.gpb ≤ k || k = x.g.gix then .error (s, .trap 0x01 (v0 v))
    else if x.g.ops != [] then .error (s, .wait)
    else
      let s := s.partnerGone x.g.unit x.g.gix (some k)
      let stay := fun (w : Word) (s : State) => Except.ok (Eff.plain x (writeScal s x.gid d w x.t 2))
      let hold : Stop := .park 0xD (.partner k d (nextPc x.g.pc) (x.gl.stallOf o.s.toNat) mask) 0
      match (s.groupsOf x.g.unit).find? fun p => p.2.gix = k with
      | none => .error (s, hold)
      | some (pid, p) =>
        if p.st = .exited then stay 0#32 s
        else
          match p.st, p.wait with
          | .parked, some (_, .partner j pd pnext pstall pmask) =>
            if j != x.g.gix then stay 0#32 s
            else
              let mine := x.g.gix < k
              match if mine then s.meet x.gid pid mask pmask else s.meet pid x.gid pmask mask with
              | (s, none) => .error (s, .broken)
              | (s, some (a, b)) =>
                let s := s.modGrp pid fun g =>
                  g.regroupEnd (s.core g.core).cycle pd pnext pstall (if mine then b else a)
                stay (if mine then a else b) s
          | _, _ => .error (s, hold)) s

/-! ## The chain forms (R203-R206) -/

/-- CHAIN_FIX (R203). -/
def execChainFix (o : F0) (s : State) : Out State :=
  issueS (.chainFix o) o.s (fun x s =>
    match (s.unit x.g.unit).chain with
    | none => .error (s, x.illop)
    | some c =>
      if c.pending then .error (s, .park 0xE (.formSwitch (nextPc x.g.pc)) 0) else .ok (Eff.plain x s)) s

/-- CHAIN_FORM (R204): the setting; 2 asks a spread chain to fold, and a folded one no longer to spread. -/
def execChainForm (o : Fa) (s : State) : Out State :=
  issueS (.chainForm o) o.s (fun x s => do
    let v ← scalars x s [x.a o.a] []
    match (s.unit x.g.unit).chain with
    | none => .error (s, x.illop)
    | some c =>
      if 2 < (v0 v).toNat then .error (s, x.illop)
      else
        let c := { c with setting := (v0 v).toNat, pending := if v0 v = 2#32 then !c.folded else c.pending }
        pure (Eff.plain x (s.modUnit x.g.unit fun u => { u with chain := some c }))) s

/-- CHAIN_QUERY (R206). -/
def execChainQuery (o : Fd) (s : State) : Out State :=
  issueS (.chainQuery o) o.s (fun x s => do
    let _ ← scalars x s [] [o.d.toNat]
    match (s.unit x.g.unit).chain with
    | none => .error (s, x.illop)
    | some c =>
      let w := toW (x.g.stage % 4 * 16 + (if c.pending then 8 else 0) + c.setting % 4 * 2 + (if c.folded then 1 else 0))
      pure (Eff.plain x (writeScal s x.gid o.d.toNat w x.t 2))) s

/-! ## Creating work (R208, R209) -/

/-- A queued work of a context, with the context's next serial number. -/
def State.newWork (s : State) (key addr depth : Nat) (src : WSrc) : State × Nat × Nat :=
  let c := s.ctx key
  let id := s.works.fresh
  let w := { Work.blank with
    vf := key / 65536, ctx := key % 65536, src := src, addr := addr, depth := depth, serial := c.serial, phase := .queued }
  ((s.setWork id w).setCtx key { c with serial := c.serial + 1 }, id, c.serial)

/-- The checks 2 and 3 of R208. -/
def recordStop (x : IX) (a : Nat) : Option Stop :=
  if x.g.draft.isSome then some (.trap 0x0D 0#32)
  else if a % 128 != 0 then some (.trap 0x06 (toW a))
  else none

/-- LAUNCH (R208, R177). -/
def execLaunch (o : FD) (s : State) : Out State :=
  issue (some 3) false (.launch o) o.s (fun x s => do
    let v ← scalars x s [x.a o.a, x.a o.a + 1] [o.d.toNat]
    let a := pair48 (v0 v) (v1 v)
    match recordStop x a with
    | some st => .error (s, st)
    | none =>
      let k := s.core x.g.core
      if 4 ≤ k.launchQ.length then .error (s, .park 0x9 .launchRoom 0)
      else
        let r := s.newWork (s.keyOf x.g) a 0 (.launch x.g.core)
        let s := r.1.setCore x.g.core { k with launchQ := k.launchQ ++ [r.2.1] }
        pure (Eff.plain x (writeScal s x.gid o.d.toNat (toW r.2.2) x.t 2))) s

/-- SPAWN (R208, R209, R176). -/
def execSpawn (o : FD) (s : State) : Out State :=
  issue (some 3) false (.spawn o) o.s (fun x s => do
    let v ← scalars x s [x.a o.a, x.a o.a + 1] [o.d.toNat]
    let a := pair48 (v0 v) (v1 v)
    match recordStop x a with
    | some st => .error (s, st)
    | none =>
      if 4 ≤ x.g.depth then .error (s, .trap 0x0E (Config.freeWord (s.free * 65536 + 65530)))
      else
        let cl := coreCl x.g.core
        let k := s.cluster cl
        if Config.taskMax ≤ k.taskQ.length then .error (s, .park 0xA .taskRoom 0)
        else
          let r := s.newWork (s.keyOf x.g) a (x.g.depth + 1) (.task cl)
          let s := r.1.setCluster cl { k with taskQ := k.taskQ ++ [r.2.1] }
          pure (Eff.plain x (writeScal s x.gid o.d.toNat (toW r.2.2) x.t 2))) s

end Sys2Proof.Machine
end

