-- ==== Sys2Proof/Machine/Copy.lean ====
section
/-!
DEFINITION. Sys2Proof/Machine/Copy.lean: the copy engine (R217-R230, R192, R411): cpy, cpyx, bseal, the chunks and the
completion of a copy.
-/
namespace Sys2Proof.Machine
open Host (Outcome)

/-! ## Descriptors (R218-R224) -/

/-- Planes of a pl code (R218): 0 for none. -/
def plPlanes (pl : Nat) : Nat :=
  match pl with
  | 1 => 1
  | 2 => 2
  | 3 => 4
  | 4 => 6
  | 5 => 8
  | _ => 0

/-- Length of a destination row (R219). -/
def rowOut (pl len : Nat) : Nat := if pl = 0 then len else plPlanes pl * (len / 8)

/-- The row length a units word gives, and the low half of a word. -/
def hi16 (w : Word) : Nat := bits w.toNat 16 16
def lo16 (w : Word) : Nat := bits w.toNat 0 16

def ctlDir (w : Word) : Nat := bits w.toNat 30 2
def ctlPl (w : Word) : Nat := bits w.toNat 27 3
def ctlIl (w : Word) : Bool := w.getLsbD 26

/-- The first offending scalar of a cpy descriptor (step 1 of R221). -/
def cpyBad (v : List Word) : Option Nat :=
  let c := wAt v 6
  let dir := ctlDir c
  let pl := ctlPl c
  if hi16 (wAt v 1) = 0 || (dir = 2 && lo16 (wAt v 1) != 0) then some 1
  else if hi16 (wAt v 3) = 0 || (dir = 1 && lo16 (wAt v 3) != 0) || (pl != 0 && hi16 (wAt v 3) % 2 != 0) then some 3
  else if dir = 3 || 6 ≤ pl || (pl != 0 && dir != 1) || ctlIl c || bits c.toNat 0 26 != 0 then some 6
  else none

/-- The first offending scalar of a cpyx descriptor (step 1 of R221, R223). -/
def cpyxBad (v : List Word) : Option Nat :=
  let c := wAt v 6
  let pl := ctlPl c
  if hi16 (wAt v 1) != 0 then some 1
  else if hi16 (wAt v 3) = 0 || lo16 (wAt v 3) = 0 || (pl != 0 && hi16 (wAt v 3) % 2 != 0) then some 3
  else if ctlDir c != 1 || 6 ≤ pl || bits c.toNat 0 26 != 0 then some 6
  else none

/-- The first value of a list that is not a multiple of n (step 2 of R221). -/
def misaligned (l : List (Word × Nat)) : Option Word := (l.find? fun p => p.1.toNat % p.2 != 0).map (·.1)

/-- The lowest byte of a scratch row, modulo 2^32, at or above a footprint (step 3 of R221). -/
def rowOutside (foot a len : Nat) : Option Nat :=
  if a + len ≤ 4294967296 then (if foot < a + len then some (max a foot) else none)
  else if foot < a + len - 4294967296 then some foot
  else some (max a foot)

/-- The lowest of some addresses. -/
def lowest (l : List Nat) : Option Nat :=
  match l with
  | [] => none
  | a :: t => some (t.foldl min a)

/-- A scratch or global address of a row: base plus i strides, modulo 2^32 or 2^48. -/
def rowAddr (scratch : Bool) (base i : Nat) (stride : Word) : Nat :=
  ((Int.ofNat base + Int.ofNat i * stride.toInt) % (if scratch then 4294967296 else 281474976710656 : Int)).toNat

/-- Rows of a cpy descriptor: source and destination (R220). -/
def cpyRows (v : List Word) : List (Nat × Nat) :=
  let dir := ctlDir (wAt v 6)
  (List.range (hi16 (wAt v 1))).map fun i =>
    (rowAddr (dir = 2) (pair48 (wAt v 0) (wAt v 1)) i (wAt v 4), rowAddr (dir = 1) (pair48 (wAt v 2) (wAt v 3)) i (wAt v 5))

/-- Steps 1 to 3 of R221 over a cpy descriptor: cause and information. -/
def cpyCheck (v : List Word) (foot : Nat) : Option (Nat × Word) :=
  match cpyBad v with
  | some i => some (0x01, toW i)
  | none =>
    match misaligned [(wAt v 0, 16), (wAt v 2, 16), (wAt v 4, 16), (wAt v 5, 16), (wAt v 7, 128)] with
    | some w => some (0x06, w)
    | none =>
      let dir := ctlDir (wAt v 6)
      let len := hi16 (wAt v 3) * 16
      let out := (cpyRows v).filterMap fun r =>
        if dir = 1 then rowOutside foot r.2 (rowOut (ctlPl (wAt v 6)) len)
        else if dir = 2 then rowOutside foot r.1 len else none
      (lowest out).map fun a => (0x07, toW a)

/-- Whether a scratch destination of rows overlaps a claimed range (step 5 of R221). -/
def UnitSt.rowClaimed (u : UnitSt) (rows : List (Nat × Nat)) (len : Nat) : Bool := rows.any fun r => u.claimed r.2 (r.2 + len)

/-- A copy entered, with the claims of a scratch source (R222). -/
def State.startCopy (s : State) (c : Copy) : State :=
  let k := s.copies.fresh
  let s := s.setCopy k c
  if c.dir = 2 then
    s.modUnit c.unit fun u => { u with claims := u.claims ++ c.rows.map fun r => ⟨r.1, r.1 + c.len, 0, k⟩ }
  else s

/-- Steps 4 to 6 of R221 for a group. -/
def copyStop (x : IX) (s : State) (task : Word) (dir len : Nat) (rows : List (Nat × Nat)) : Option Stop :=
  if task != 0#32 && x.g.draft.isSome then some (.trap 0x0D 0#32)
  else if task != 0#32 && 4 ≤ x.g.depth then some (.trap 0x0E (Config.freeWord (s.free * 65536 + 65530)))
  else
    if dir = 1 && (s.unit x.g.unit).rowClaimed rows len then some (.park 0xB (.unclaimed (rows.map fun r => (r.2, r.2 + len))) 0)
    else
      if Config.copyMax ≤ s.copiesIn (coreCl x.g.core) then some (.park 0xF .copyRoom 0) else none

/-- A copy of a group. -/
def groupCopy (x : IX) (s : State) (desc : List Word) (rows : List (Nat × Nat)) (dir pl len : Nat) (task : Word) : Copy where
  kind := 0
  cl := coreCl x.g.core
  unit := x.g.unit
  key := s.keyOf x.g
  gid := some x.gid
  rows := rows
  dir := dir
  pl := pl
  len := len
  task := task.toNat
  depth := x.g.depth + 1
  desc := desc
  chunk := 0
  left := none
  keys := []
  batch := 0#32
  fin := false
  failed := none
  sq := []
  kept := false

/-- CPY (R220, R221). -/
def execCpy (o : Fa) (s : State) : Out State :=
  issue (some 3) false (.cpy o) o.s (fun x s => do
    let v ← scalars x s ((List.range 8).map fun i => x.a o.a + i) []
    match cpyCheck v (s.unit x.g.unit).foot with
    | some (c, i) => .error (s, .trap c i)
    | none =>
      let dir := ctlDir (wAt v 6)
      let pl := ctlPl (wAt v 6)
      let len := hi16 (wAt v 3) * 16
      match copyStop x s (wAt v 7) dir (rowOut pl len) (cpyRows v) with
      | some st => .error (s, st)
      | none => pure (Eff.plain x (s.startCopy (groupCopy x s v (cpyRows v) dir pl len (wAt v 7))))) s

/-- The active lanes of gathered rows with their values, in ascending position. -/
def laneList (rows : List Row) : List (Nat × Word) :=
  rows.flatMap fun r => r.lanes.map fun l => (32 * r.b + l, r.at 0 l)

/-- The rows of a gather: rank j of n lanes, h rows each, block or interleaved order (R223). -/
def cpyxRows (v : List Word) (lanes : List (Nat × Word)) (out : Nat) : List (Nat × Nat) :=
  let h := lo16 (wAt v 3)
  let n := lanes.length
  let len := hi16 (wAt v 3) * 16
  lanes.zipIdx.flatMap fun p =>
    if (wAt v 5).toNat ≤ p.1.2.toNat then []
    else (List.range h).map fun i =>
      ((pair48 (wAt v 0) (wAt v 1) + p.1.2.toNat * (wAt v 4).toNat + i * len) % 281474976710656,
        ((wAt v 2).toNat + (if ctlIl (wAt v 6) then i * n + p.2 else p.2 * h + i) * out) % 4294967296)

/-- The descriptor of a gather, read by the first beat that issues; where none does, nothing reads it (R63, R70). -/
def cpyxDesc (x : IX) (s : State) (rs : List Nat) : R (List Word) :=
  match plan s x with
  | [] => .ok []
  | p :: _ =>
    match x.g.scoreboard (scalarUsesAt p.b x rs []) with
    | some st => .error (s, st)
    | none => .ok (rs.map fun n => scalarVal s x.g n x.t)

/-- CPYX (R223, R224): one block for each active lane; lanes whose index is at or above the limit fail. -/
def execCpyx (o : Fab) (s : State) : Out State :=
  issue (some 3) false (.cpyx o) o.s (fun x s => do
    let v ← cpyxDesc x s ((List.range 8).map fun i => x.b o.b + i)
    let q ← gather x s true [.vec (x.a o.a)] [] []
    let s := q.s
    let lanes := laneList q.rows
    if lanes = [] then pure ⟨dryAll s x.gid (dryOf (x.a o.a) o.a 0#1), q.last, none, none, none⟩
    else
      match cpyxBad v with
      | some i => .error (s, .trap 0x01 (toW i))
      | none =>
        match misaligned [(wAt v 0, 16), (wAt v 2, 16), (wAt v 4, 16), (wAt v 7, 128)] with
        | some w => .error (s, .trap 0x06 w)
        | none =>
          let pl := ctlPl (wAt v 6)
          let len := hi16 (wAt v 3) * 16
          let out := rowOut pl len
          let all := (List.range (lanes.length * lo16 (wAt v 3))).map fun r =>
            (0, ((wAt v 2).toNat + r * out) % 4294967296)
          match lowest (all.filterMap fun r => rowOutside (s.unit x.g.unit).foot r.2 out) with
          | some a => .error (s, .trap 0x07 (toW a))
          | none =>
            match copyStop x s (wAt v 7) 1 out all with
            | some st => .error (s, st)
            | none =>
              let rows := cpyxRows v lanes out
              let bad := lanes.filter fun l => (wAt v 5).toNat ≤ l.2.toNat
              let s := dryAll s x.gid (dryOf (x.a o.a) o.a 0#1)
              let s := if bad.length = lanes.length then s
                else s.startCopy (groupCopy x s (v ++ lanes.flatMap fun l => [toW l.1, l.2]) rows 1 pl len (wAt v 7))
              match bad with
              | [] => pure ⟨s, q.last, none, none, none⟩
              | b :: _ => .error (s, .after 0x1A (toW (b.1 + bad.length * 256)) q.last)) s

/-- The number after a sealed-batch number (R226). -/
def nextBatch (n : Word) : Word := if n = 0xFFFFFFFF#32 then 1#32 else n + 1#32

/-- BSEAL (R226). -/
def execBseal (o : Fd) (s : State) : Out State :=
  issue (some 3) false (.bseal o) o.s (fun x s => do
    let _ ← scalars x s [] [o.d.toNat]
    let n := nextBatch x.g.sealed
    let s := s.modGrp x.gid fun g => { g with sealed := n }
    let s := { s with copies := s.copies.map fun c =>
      if c.2.gid = some x.gid && c.2.batch = 0#32 then (c.1, { c.2 with batch := n }) else c }
    pure (Eff.plain x (writeScal s x.gid o.d.toNat n x.t 2))) s

/-! ## Chunks (R217, R222, R230) -/

/-- The lowest address of each page among some addresses. -/
def pagesOf (l : List Nat) : Tbl Nat :=
  l.foldl (fun t v => match t.find? (v / 4096) with
    | some m => if v < m then t.set (v / 4096) v else t
    | none => t.set (v / 4096) v) []

/-- Each page translated, with the outcome of its lowest address. -/
def State.mapPages (key core : Nat) (a : Access) (kind : Nat) : Tbl Nat → State → State × List (Nat × Tr)
  | [], s => (s, [])
  | (_, v) :: t, s =>
    let r := s.translate (key / 65536) (key % 65536) v a kind (coreCl core) none (coreCid core)
    let q := State.mapPages key core a kind t r.1
    (q.1, (v, r.2) :: q.2)

/-- Some global addresses of the copy engine or another engine translated: the first outcome in the order of R316, with its
address, or the map from addresses to physical and VF addresses. -/
structure Mapped where
  s    : State
  fail : Option (Nat × Tr)
  keys : List FKey
  map  : Tbl (Nat × Nat)
  deriving DecidableEq, Repr

/-- Physical and VF address of a mapped address. -/
def Mapped.at (m : Mapped) (va : Nat) : Nat × Nat :=
  match m.map.find? (va / 4096) with
  | some (p, v) => (p * 4096 + va % 4096, v * 4096 + va % 4096)
  | none => (0, 0)

/-- A list of addresses translated for an engine of a cluster. -/
def State.mapAll (s : State) (key cl : Nat) (a : Access) (kind : Nat) (vas : List Nat) : Mapped :=
  let r := s.mapPages key (cl * 4) a kind (pagesOf (vas.filter fun v => !s.aboveLim key v))
  let all := r.2 ++ (vas.filterMap fun v => if s.aboveLim key v then some (v, Tr.perm) else none)
  let worst : Nat := all.foldl (fun m p => min m p.2.rank) 6
  let bad := all.filter fun p => p.2.rank = worst
  let fail := if worst = 6 then none else (lowest (bad.map (·.1))).bind fun v => bad.find? fun p => p.1 = v
  ⟨r.1, fail, (r.2.filterMap fun p => match p.2 with
      | .fault k => some k
      | _ => none).eraseDups,
    r.2.foldl (fun t p => match p.2 with
      | .ok pa v => t.set (p.1 / 4096) (pa / 4096, v / 4096)
      | _ => t) []⟩

/-- Consecutive bytes of one line joined. -/
def runsOf : List (Nat × Byte) → List (Nat × List Byte)
  | [] => []
  | (a, b) :: t =>
    match runsOf t with
    | (k, bs) :: r => if a + 1 = k && a / 128 = k / 128 then (a, b :: bs) :: r else (a, [b]) :: (k, bs) :: r
    | [] => [(a, [b])]

/-- A global byte an engine of a cluster reads (R222): a draft copy of its own draft, a dirty byte of its cluster, else the
home; a byte of another device; a poisoned byte is a free value (DEDUCED, log 31). -/
def State.engineByte (s : State) (cl : Nat) (d : Option (Nat × Nat)) (pa : Nat) : Byte :=
  if windowPa pa then s.remoteByte pa
  else
    match d.bind fun d => s.draftAt d (pa / 128) with
    | some x => x.bytes.getD (pa % 128) 0#8
    | none =>
      match s.l1.find? fun (l : L1Line) => l.core / 4 = cl && l.line = pa / 128 && l.dirty.getLsbD (pa % 128) with
      | some l => l.bytes.getD (pa % 128) 0#8
      | none =>
        if s.poison.contains pa then BitVec.ofNat 8 (Config.freeWord ((s.free * 65536 + 65529) + 18446744073709551616 * (pa + 1))).toNat
        else s.mem.read pa

/-- A run of bytes an engine writes into global memory (R232, R285, R404). -/
def State.engineWrite (s : State) (d : Option (Nat × Nat)) (vf : Nat) (pa vfa : Nat) (b : List Byte) : State :=
  match d with
  | some d => if windowPa pa then s else s.draftWrite d (vf, vfa) pa b
  | none => s.homeWrite (some (vf, vfa)) pa b

/-- Destination bytes of a copy. -/
def Copy.size (c : Copy) : Nat := c.rows.length * rowOut c.pl c.len

/-- Chunks of a copy (R217). -/
def Copy.chunks (c : Copy) : Nat := (c.size + 4095) / 4096

/-- Destination address of byte i of a copy. -/
def Copy.dst (c : Copy) (i : Nat) : Nat :=
  let n := rowOut c.pl c.len
  ((c.rows.getD (i / n) (0, 0)).2 + i % n) % (if c.dir = 1 then 4294967296 else 281474976710656)

/-- Source addresses of byte i of a copy: one, or the eight elements of a plane byte (R219). -/
def Copy.srcs (c : Copy) (i : Nat) : List Nat :=
  let n := rowOut c.pl c.len
  let a := (c.rows.getD (i / n) (0, 0)).1
  let m := if c.dir = 2 then 4294967296 else 281474976710656
  if c.pl = 0 then [(a + i % n) % m]
  else (List.range 8).map fun t => (a + (i % n) % (c.len / 8) * 8 + t) % m

/-- Byte i from its source bytes (R219). -/
def Copy.byte (c : Copy) (i : Nat) (b : List Byte) : Byte :=
  if c.pl = 0 then b.headD 0#8
  else
    let p := (i % rowOut c.pl c.len) / (c.len / 8)
    BitVec.ofNat 8 (b.zipIdx.foldl (fun m q => m + (if q.1.getLsbD p then 2 ^ q.2 else 0)) 0)

/-- The draft a copy belongs to. -/
def State.draftOf (s : State) (c : Copy) : Option (Nat × Nat) := c.gid.bind fun g => (s.grp g).draft

/-- The claims of a copy or transfer released. -/
def State.unclaimCopy (s : State) (u k : Nat) : State :=
  s.modUnit u fun x => { x with claims := x.claims.filter fun c => !(c.kind = 0 && c.own = k) }

/-- A copy ended as failed (R230): its batch counts as complete; the first failure is kept. -/
def State.failCopy (s : State) (k : Nat) (c : Copy) (cause : Nat) (info : Word) : State :=
  (s.setCopy k { c with fin := true, keys := [], failed := some (c.failed.getD (cause, info)) }).unclaimCopy c.unit k

/-- Cause and information of a failed translation of an engine's access (R230, R316, R402). -/
def Tr.engineFail (va : Nat) : Tr → Nat × Word
  | .malformed => (0x1B, toW va)
  | .scopeDeny => (0x08, 6#32)
  | _ => (0x07, toW va)

/-- Destination bytes of a copy. -/
def Copy.dsts (c : Copy) : List (Nat × Nat) := c.rows.map fun r => (r.2, r.2 + rowOut c.pl c.len)

/-- One atomic addition of 1 to a word at its home, with what an atomic there does first (R154, R252, R270, R404). -/
def State.addOne (s : State) (v : Nat × Nat) (pa : Nat) : State :=
  let s := (s.combine (pa / 128)).recallDirty (pa / 128) (spanMask 128 (pa % 128) 4) (fun _ => true)
  let r := s.homeRead pa 4
  r.1.homeWrite (some v) pa (leBytes 4 (leWord r.2 + 1#32).toNat)

/-- The destination of a copy page by page: page, first byte in it and the byte after the last; a row that passes the end of its
space goes on at 0 (R220). -/
def Copy.pieces (c : Copy) : List (Nat × Nat × Nat) :=
  c.dsts.flatMap fun r => if r.2 ≤ r.1 then [] else
    (List.range ((r.2 - 1) / 4096 - r.1 / 4096 + 1)).map fun i =>
      let p := r.1 / 4096 + i
      (p % (if c.dir = 1 then 1048576 else 68719476736), max r.1 (p * 4096) - p * 4096, min r.2 ((p + 1) * 4096) - p * 4096)

/-- What a page of a copy's destination is: a scratch page, a physical page, or a page that is not mapped. -/
def State.dstPage (s : State) (c : Copy) (p : Nat) : Nat × Nat :=
  if c.dir = 1 then (0, p)
  else match s.mapOnly c.key (p * 4096) with
    | some pa => (1, pa / 4096)
    | none => (2, p)

/-- Whether two copies of one unit write one byte, whatever address names it (R222). -/
def State.sameBytes (s : State) (c e : Copy) : Bool :=
  c.pieces.any fun p => e.pieces.any fun q => p.2.1 < q.2.2 && q.2.1 < p.2.2 && s.dstPage c p.1 = s.dstPage e q.1

/-- Whether an earlier copy of the group holds a copy back: it has not started, or would write a byte of it (R217, R222). -/
def State.copyBehind (s : State) (k : Nat) (c : Copy) : Bool :=
  c.gid.isSome && s.copies.any fun e => e.1 < k && e.2.gid = c.gid && e.2.kind = 0 && !e.2.fin &&
    ((e.2.chunk = 0 && e.2.keys = [] && e.2.left.isNone) || (e.2.chunk < e.2.chunks && s.sameBytes e.2 c))

/-- A copy after some bytes of its chunk are written, others of it left: the next chunk follows the last of them. -/
def Copy.progress (c : Copy) (left : List Nat) : Copy :=
  if left = [] then { c with chunk := c.chunk + 1, left := none, keys := [] } else { c with left := some left, keys := [] }

/-- Bytes of one chunk written into a scratchpad; those of an armed barrier are not, and the copy ends as failed (R192). Where the bytes
meet several armed barriers, the barrier of the first such byte of the chunk is reported (DESIGN CHOICE, log 115). -/
def State.chunkScratch (s : State) (k : Nat) (c : Copy) (b : List (Nat × Byte)) (left : List Nat) : State :=
  let u := s.unit c.unit
  let hit := (b.find? fun p => (u.barIn? p.1 (p.1 + 1)).isSome).bind fun p => u.barIn? p.1 (p.1 + 1)
  let s := s.setUnit c.unit ((runsOf b).foldl (fun u r => u.scrWrite r.1 r.2) u)
  s.setCopy k { c.progress left with failed := c.failed.or (hit.map fun h => (0x0B, toW h.addr)) }

/-- What ends a copy whose chunk translates: a window access of a draft or one the other device refuses, a helped line, no
draft way (R232, R282, R286, R404). -/
def State.chunkStop (s : State) (d : Option (Nat × Nat)) (wins : List Nat) (dsts : List (Nat × Nat)) : Option (Nat × Word) :=
  if wins != [] && d.isSome then some (0x0D, 0#32)
  else if wins != [] && Config.freeBit (s.free * 65536 + 65531) then some (0x07, toW (wins.headD 0))
  else
    let loc := dsts.filter fun a => !windowPa a.2
    match loc.find? fun a => s.suppresses (a.2 / 128) with
    | some a => some (0x07, toW a.1)
    | none => (d.bind fun d => s.draftOver d (loc.map fun a => a.2 / 128)).map fun l =>
        (0x0C, toW (((loc.find? fun a => a.2 / 128 = l).map (·.1)).getD 0))

/-- Some bytes of a chunk read and written, once its addresses are mapped, others left: global sources are combined first (R274). -/
def State.moveChunk (s : State) (k : Nat) (c : Copy) (idx left : List Nat) (m1 m2 : Mapped) : State :=
  let d := s.draftOf c
  let spa := fun (i : Nat) => (c.srcs i).map fun a => if c.dir = 2 then a else (m1.at a).1
  let s := if c.dir = 2 then s else ((idx.flatMap spa).map (· / 128)).eraseDups.foldl (fun s l => s.combine l) s
  let b := idx.map fun i => (c.dst i, c.byte i ((spa i).map fun p =>
    if c.dir = 2 then (s.unit c.unit).scr.getD p 0#8 else s.engineByte c.cl d p))
  if c.dir = 1 then s.chunkScratch k c b left
  else
    let s := (runsOf b).foldl (fun s r => s.engineWrite d (c.key / 65536) (m2.at r.1).1 (m2.at r.1).2 r.2) s
    s.setCopy k (c.progress left)

/-- A failure of a chunk: no draft way left is the trap of its draft (R286, R289), any other ends the copy (R230). -/
def State.chunkFail (s : State) (k : Nat) (c : Copy) (f : Nat × Word) : State :=
  let s := s.failCopy k c f.1 f.2
  match c.gid with
  | some g => if f.1 = 0x0C then s.draftFullTrap g f.2.toNat else s
  | none => s

/-- The bytes of its chunk that a copy writes now, and those it leaves: all of them, or each as a free bit says, so that a reader
meets either value of each byte (R228, R253). -/
def State.chunkSplit (s : State) (idx : List Nat) : List Nat × List Nat :=
  if Config.freeBit (s.free * 65536 + 65517) then
    let now := fun (i : Nat) => Config.freeBit ((s.free * 65536 + 65516) + 18446744073709551616 * (i + 1))
    if idx.any now then (idx.filter now, idx.filter fun i => !now i) else (idx, [])
  else (idx, [])

/-- One chunk of copy k begun, or what is left of it, in part or whole: every access translated first; a fault parks the copy, whose
chunk is then executed in full, a failure ends it (R230, R282). -/
def State.doChunk (s : State) (k : Nat) (c : Copy) (whole : Bool) : State :=
  let idx := c.left.getD ((List.range (min 4096 (c.size - 4096 * c.chunk))).map (4096 * c.chunk + ·))
  let srcs := if c.dir = 2 then [] else idx.flatMap c.srcs
  let dsts := if c.dir = 1 then [] else idx.map c.dst
  let m1 := s.mapAll c.key c.cl .read 4 srcs
  let m2 := m1.s.mapAll c.key c.cl .write 4 dsts
  let s := m2.s
  let fails := m1.fail.toList ++ m2.fail.toList
  let worst : Nat := fails.foldl (fun m p => min m p.2.rank) 6
  match fails.find? fun p => p.2.rank = worst with
  | some (va, t) =>
    match t with
    | .fault _ => s.setCopy k { c with keys := (m1.keys ++ m2.keys).eraseDups, left := none }
    | t => s.failCopy k c (t.engineFail va).1 (t.engineFail va).2
  | none =>
    let wins := (srcs.filter fun a => windowPa (m1.at a).1) ++ (dsts.filter fun a => windowPa (m2.at a).1)
    if wins != [] && !s.sends c.key then s
    else match s.chunkStop (s.draftOf c) wins (dsts.map fun a => (a, (m2.at a).1)) with
    | some f => s.chunkFail k c f
    | none =>
      let p := if whole then (idx, []) else s.chunkSplit idx
      s.moveChunk k c p.1 p.2 m1 m2

/-- The same, after which a copy with no chunk left holds its claims no longer (R186). -/
def State.chunkStep (s : State) (k : Nat) (c : Copy) (whole : Bool) : State :=
  let s := s.doChunk k c whole
  match s.copy? k with
  | some c1 => if c1.chunks ≤ c1.chunk then s.unclaimCopy c1.unit k else s
  | none => s

/-- The chunks begun of some copies ended (R231, R369): one that meets a page fault is begun anew later. -/
def State.endChunks (s : State) (which : Copy → Bool) : State :=
  (s.copies.filter fun c => c.2.left.isSome && !c.2.fin && which c.2).foldl (fun s p =>
    let s := s.chunkStep p.1 p.2 true
    match s.copy? p.1 with
    | some c => s.setCopy p.1 { c with left := none }
    | none => s) s

/-- COPY_CHUNK (R217): the next chunk of a copy, or bytes of the one begun, where it may run. -/
def execCopyChunk (k : Nat) (s : State) : Out State :=
  match s.copy? k with
  | none => .next s
  | some c =>
    if c.kind != 0 || c.fin || c.chunks ≤ c.chunk || s.frozen c.key 3 || s.unitAway c.unit ||
        (c.keys != [] && c.keys.all s.fkeys.contains) || s.copyBehind k c then .next s
    else
      .next (s.chunkStep k c false)

/-- A copy that has ended: kept while a failure is to be reported, else dropped. -/
def State.endCopy (s : State) (k : Nat) (c : Copy) : State :=
  let s := s.unclaimCopy c.unit k
  if c.failed.isSome then s.setCopy k { c with fin := true } else { s with copies := s.copies.del k }

/-- COPY_COMPLETE (R225, R229): every byte is written; the task record is pushed where the queue has room. A copy of a unit that is away
is held in its save (R231). -/
def execCopyComplete (k : Nat) (s : State) : Out State :=
  match s.copy? k with
  | none => .next s
  | some c =>
    if c.kind != 0 || c.fin || c.chunk < c.chunks || s.frozen c.key 3 || s.unitAway c.unit then .next s
    else if c.task = 0 || c.failed.isSome then .next (s.endCopy k c)
    else
      let cl := s.cluster c.cl
      if Config.taskMax ≤ cl.taskQ.length then .next s
      else
        let r := s.newWork c.key c.task c.depth (.copy c.cl c.task)
        .next ((r.1.setCluster c.cl { r.1.cluster c.cl with taskQ := cl.taskQ ++ [r.2.1] }).endCopy k c)

end Sys2Proof.Machine
end

