-- ==== Sys2Proof/Machine/Seq.lean ====
section
/-!
DEFINITION. Sys2Proof/Machine/Seq.lean: the sequence state store (R293-R308): the sq forms, the engine's answer, and the
transfers.
-/
namespace Sys2Proof.Machine
open Host (Outcome)

/-! ## Handles and page sets -/

def hDie (w : Word) : Nat := bits w.toNat 29 3
def hGen (w : Word) : Nat := bits w.toNat 12 17
def hSlot (w : Word) : Nat := bits w.toNat 0 12

/-- A handle (R294). -/
def handle (die gen slot : Nat) : Word := toW (die * 536870912 + gen * 4096 + slot)

/-- Generation of a slot: 1 at reset. -/
def DieSt.gen (d : DieSt) (slot : Nat) : Nat := d.gens.getD slot 1

/-- The live sequence a handle names. -/
def State.seqOf (s : State) (h : Word) : Option SqSeq :=
  let d := s.die (hDie h)
  if d.gen (hSlot h) = hGen h then d.seqs.find? (hSlot h) else none

def State.setSeq (s : State) (die slot : Nat) (q : SqSeq) : State :=
  let d := s.die die
  s.setDie die { d with seqs := d.seqs.set slot q }

/-- The distance of a position behind the current one (R293). -/
def behind (cur q : Word) : Nat := (cur - q).toNat

/-- How many states, waypoints and transfers hold a page set. -/
def State.setHolders (s : State) (die ps : Nat) : Nat :=
  (((s.die die).seqs.flatMap fun q => q.2.sets).filter (· = ps)).length

/-- Pages of a context on a die, each counted once (R296). -/
def DieSt.pagesOf (d : DieSt) (key : Nat) : Nat := d.sets.foldl (fun n p => if p.2.key = key then n + p.2.n else n) 0

/-- Pages taken on a die. -/
def DieSt.pages (d : DieSt) : Nat := d.sets.foldl (fun n p => n + p.2.n) 0

/-- Whether n more pages of a context fit its quota and the die's pool (R296, R412). -/
def State.pagesFit (s : State) (key die n : Nat) : Bool :=
  let d := s.die die
  let quota := match s.ctxDesc (key / 65536) (key % 65536) with
    | some w => (wAt w (8 + die)).toNat
    | none => 0
  d.pagesOf key + n ≤ quota && d.pages + n ≤ d.pool * 512

/-- A free slot of a die: which one is not stated (R293; DESIGN CHOICE, log 32). -/
def State.freeSlot (s : State) (die : Nat) : Option Nat :=
  let fs := (List.range 4096).filter fun k => (s.die die).seqs.find? k = none
  if fs = [] then none else some (fs.getD ((Config.freeWord (s.free * 65536 + 65528)).toNat % fs.length) 0)

/-! ## At issue (R297, R298) -/

/-- The first offending unused field of a request (step 1 of R298); a create with 255 in Q1[7:0], a layer count that R298 does not give,
offends by Q1 (DESIGN CHOICE, log 131). -/
def sqBad (form : Nat) (q : List Word) : Option Nat :=
  let create := form = 4 && wAt q 0 = 0#32
  let q1 := (wAt q 1).toNat
  let layer := form ≤ 3 || form = 6
  if bits q1 12 20 != 0 || (!create && bits q1 8 4 != 0) || (!layer && !create && bits q1 0 8 != 0) ||
      (create && bits q1 0 8 = 255) then some 1
  else if (form = 2 || form = 5 || create) && wAt q 2 != 0#32 then some 2
  else if form != 1 && wAt q 3 != 0#32 then some 3
  else none

/-- An sq form at issue: checks 1 to 3, for info also 4 and 5, then the request is sent and the group waits for the answer
(R298, R299). -/
def sqIssue (i : Instr) (o : FD) (form : Nat) (s : State) : Out State :=
  issue (some 2) false i o.s (fun x s => do
    let q ← scalars x s ((List.range 4).map fun i => x.a o.a + i) [o.d.toNat]
    if x.g.sqReq.isSome then .error (s, .wait)
    else
      match sqBad form q with
      | some k => .error (s, .trap 0x01 (toW k))
      | none =>
        if x.g.draft.isSome && form != 0 && form != 6 then .error (s, .trap 0x0D 0#32)
        else if (form ≤ 1 || form = 6) && (wAt q 2).toNat % 16 != 0 then .error (s, .trap 0x06 (wAt q 2))
        else
          let u := s.unit x.g.unit
          let a := (wAt q 2).toNat
          let stop : Option Stop := if form != 6 then none
            else
              match rowOutside u.foot a 64 with
              | some lo => some (.trap 0x07 (toW lo))
              | none =>
                match u.barIn? a (a + 64) with
                | some b => some (.trap 0x0B (toW b.addr))
                | none => if u.claimed a (a + 64) then some (.park 0xB (.unclaimed [(a, a + 64)]) 0) else none
          match stop with
          | some st => .error (s, st)
          | none =>
            .error (s.modGrp x.gid fun g => { g with sqReq := some ⟨form, o.d.toNat, q, o.s.toNat⟩ }, .wait)) s

/-- SQ_LD (R301). -/
def execSqLd (o : FD) (s : State) : Out State := sqIssue (.sqLd o) o 0 s

/-- SQ_ST (R301). -/
def execSqSt (o : FD) (s : State) : Out State := sqIssue (.sqSt o) o 1 s

/-- SQ_MARK (R301). -/
def execSqMark (o : FD) (s : State) : Out State := sqIssue (.sqMark o) o 2 s

/-- SQ_BACK (R301). -/
def execSqBack (o : FD) (s : State) : Out State := sqIssue (.sqBack o) o 3 s

/-- SQ_FORK (R301): with Q0 = 0 the create form. -/
def execSqFork (o : FD) (s : State) : Out State := sqIssue (.sqFork o) o 4 s

/-- SQ_DROP (R301). -/
def execSqDrop (o : FD) (s : State) : Out State := sqIssue (.sqDrop o) o 5 s

/-- SQ_INFO (R301, R302). -/
def execSqInfo (o : FD) (s : State) : Out State := sqIssue (.sqInfo o) o 6 s

/-! ## At the engine -/

/-- How the engine disposes of a request: an answer, an answer after which the group traps, a stop in place of an answer, or
not yet. -/
inductive SqAns where
  | answer (s : State) (v : Word)
  | answerTrap (s : State) (v : Word) (cause : Nat) (info : Word)
  | stop (st : Stop)
  | later
  deriving DecidableEq, Repr

/-- A ring in token order behind a position, earliest first (R293). -/
def ringBehind (cur : Word) (r : List (Word × Nat)) : List (Word × Nat) := sortBy (fun a b => decide (behind cur b.1 ≤ behind cur a.1)) r

/-- Layers a request names: one, or every one for 255 (R301). -/
def SqSeq.named (q : SqSeq) (j : Nat) : List Nat := if j = 255 then List.range q.layers.length else [j]

def SqSeq.layer (q : SqSeq) (j : Nat) : SqLayer := q.layers.getD j ⟨0#32, 0, []⟩

/-- A waypoint added (R301): the layer, and whether one was evicted. -/
def SqLayer.mark (l : SqLayer) : SqLayer × Bool :=
  if l.ring.any fun w => w.1 = l.cur then (l, false)
  else if 8 ≤ l.ring.length then ({ l with ring := l.ring.drop 1 ++ [(l.cur, l.set)] }, true)
  else ({ l with ring := l.ring ++ [(l.cur, l.set)] }, false)

/-- Whether a layer holds a position. -/
def SqLayer.has (l : SqLayer) (p : Word) : Bool := l.cur = p || l.ring.any fun w => w.1 = p

/-- A layer taken back to a position it holds (R301). -/
def SqLayer.back (l : SqLayer) (p : Word) : SqLayer :=
  { l with
    cur := p
    set := match l.ring.find? fun w => w.1 = p with
      | some w => w.2
      | none => l.set
    ring := l.ring.filter fun w => behind l.cur p ≤ behind l.cur w.1 }

/-- The record of sq.info (R302). -/
def sqRecord (q : SqSeq) (l : SqLayer) : List Word :=
  [l.cur, toW ((q.layers.length - 1) * 4096 + (q.n - 1) * 256 + l.ring.length)] ++
    (List.range 8).map (fun i => (l.ring[i]?.map (·.1)).getD 0xFFFFFFFF#32) ++ List.replicate 6 0#32

/-- A transfer entered as a copy of the group (R303). -/
def sqCopy (g : Group) (gid key kind : Nat) (rows : List (Nat × Nat)) (len : Nat) (sq : List Nat) : Copy where
  kind := kind
  cl := coreCl g.core
  unit := g.unit
  key := key
  gid := some gid
  rows := rows
  dir := kind
  pl := 0
  len := len
  task := 0
  depth := 0
  desc := []
  chunk := 0
  left := none
  keys := []
  batch := 0#32
  fin := false
  failed := none
  sq := sq
  kept := false

/-- Whether an sq.st of one of some layers of a sequence is not complete (R305). -/
def State.storing (s : State) (die slot : Nat) (js : List Nat) : Bool :=
  s.copies.any fun c => c.2.kind = 2 && !c.2.fin &&
    match c.2.sq with
    | [d, k, j, _] => d = die && k = slot && js.contains j
    | _ => false

/-- A fork or create (R301): a slot of the die, or FULL. -/
def State.newSeq (s : State) (die : Nat) (q : SqSeq) : SqAns :=
  match s.freeSlot die with
  | none => .answer s 1#32
  | some k => .answer (s.setSeq die k q) (handle die ((s.die die).gen k) k)

/-- sq.st at acceptance (R301, R304): its position, behind which the ring is in token order (R293), pages, claim. -/
def sqStore (s : State) (g : Group) (gid key die slot j : Nat) (q : SqSeq) (a : Nat) (p : Word) : SqAns :=
  let l := q.layer j
  if p != l.cur + 1#32 then .stop (.trap 0x10 l.cur)
  else
    let fresh := l.set = 0 || 1 < s.setHolders die l.set
    if fresh && !s.pagesFit key die q.n then .answer s 1#32
    else
      let d := s.die die
      let ps := if fresh then d.sets.fresh else l.set
      let s := if fresh then s.setDie die { d with
          sets := d.sets.set ps ⟨key, q.n, List.replicate (q.n * 4096) 0#8, false⟩ } else s
      let s := s.setSeq die slot { q with layers := q.layers.set j { l with cur := p, set := ps, ring := ringBehind p l.ring } }
      let s := s.startCopy (sqCopy g gid key 2 [(a, 0)] (q.n * 4096) [die, slot, j, ps])
      .answer (s.freeSets die) 0#32

/-- Steps 6 to 8 of R298 and the effect of R301 for a request of a group. -/
def State.sqServe (s : State) (gid : Nat) (r : SqReq) : SqAns :=
  let g := s.grp gid
  let key := s.keyOf g
  let u := s.unit g.unit
  let q0 := wAt r.q 0
  let j := bits (wAt r.q 1).toNat 0 8
  let p2 := wAt r.q 2
  if r.form = 4 && q0 = 0#32 then
    s.newSeq (coreDie g.core) ⟨key, bits (wAt r.q 1).toNat 8 4 + 1, List.replicate (j + 1) ⟨0#32, 0, []⟩⟩
  else
    let die := hDie q0
    let slot := hSlot q0
    match s.seqOf q0 with
    | none => .answer s 2#32
    | some q =>
      let one := r.form ≤ 1 || r.form = 6
      if q.key != key then .stop (.trap 0x07 q0)
      else if (one || ((r.form = 2 || r.form = 3) && j != 255)) && q.layers.length ≤ j then .stop (.trap 0x01 1#32)
      else
        let js := if one then [j] else if r.form ≤ 3 then q.named j else List.range q.layers.length
        let len := q.n * 4096
        let a := p2.toNat
        match if r.form ≤ 1 then rowOutside u.foot a len else none with
        | some lo => .stop (.trap 0x07 (toW lo))
        | none =>
          if r.form = 0 && u.claimed a (a + len) then .stop (.park 0xB (.unclaimed [(a, a + len)]) 0)
          else if s.storing die slot js then .later
          else
            let bad := fun ps => match (s.die die).sets.find? ps with
              | some p => p.bad
              | none => false
            let open_ := Config.freeWord (s.free * 65536 + 65530)
            match r.form with
            | 0 =>
              let ps := (q.layer j).set
              if bad ps then .stop (.trapRung 2 0x15 open_)
              else .answer (s.startCopy (sqCopy g gid key 1 [(0, a)] len [die, slot, j, ps])) 0#32
            | 1 => sqStore s g gid key die slot j q a (wAt r.q 3)
            | 2 =>
              let ls := q.layers.zipIdx.map fun l => if js.contains l.2 then l.1.mark else (l.1, false)
              .answer ((s.setSeq die slot { q with layers := ls.map (·.1) }).freeSets die)
                (if ls.any (·.2) then 0x100#32 else 0#32)
            | 3 =>
              if js.any fun k => !(q.layer k).has p2 then .stop (.trap 0x11 p2)
              else
                let ls := q.layers.zipIdx.map fun l => if js.contains l.2 then l.1.back p2 else l.1
                .answer ((s.setSeq die slot { q with layers := ls }).freeSets die) 0#32
            | 4 =>
              let ws := q.layers.map fun l => l.ring.find? fun w => w.1 = p2
              if ws.any Option.isNone then .stop (.trap 0x11 p2)
              else if ws.any fun w => bad (w.getD (0#32, 0)).2 then .stop (.trapRung 2 0x15 open_)
              else s.newSeq die { q with layers := ws.map fun w => ⟨p2, (w.getD (0#32, 0)).2, [(p2, (w.getD (0#32, 0)).2)]⟩ }
            | 5 =>
              let d := s.die die
              let gen := if hGen q0 = 131071 then 1 else hGen q0 + 1
              .answer ((s.setDie die { d with seqs := d.seqs.del slot, gens := d.gens.set slot gen }).freeSets die) 0#32
            | _ =>
              let b := (sqRecord q (q.layer j)).flatMap fun w => leBytes 4 w.toNat
              let s := s.setUnit g.unit (u.scrWrite a b)
              match u.barIn? a (a + 64) with
              | some h => .answerTrap s 0#32 0x0B (toW h.addr)
              | none => .answer s 0#32

/-- SQ_ENGINE_REQUEST (R298-R301): the engine accepts and answers a group's request; the answer goes into d and the group goes
on, or it traps or parks in place of it. -/
def execSqEngineRequest (gid : Nat) (s : State) : Out State :=
  let g := s.grp gid
  match g.sqReq with
  | none => .next s
  | some r =>
    if s.frozen (s.keyOf g) 4 || s.frozen (s.keyOf g) 0 || s.unitAway g.unit || g.held || (s.unit g.unit).resting then .next s
    else
      let s := { s with cur := gid }
      let x := s.ixOf false
      match s.sqServe gid r with
      | .later => .next s
      | .stop st => (s.modGrp gid fun g => { g with sqReq := none }).stopAt x r.sf false st
      | .answer s v =>
        let s := (writeScal s gid r.d v x.t 2).modGrp gid fun g => { g with sqReq := none }
        .next (State.finish x r.sf false (Eff.plain x s))
      | .answerTrap s v c i =>
        let s := (writeScal s gid r.d v x.t 2).modGrp gid fun g => { g with sqReq := none }
        s.stopAt x r.sf false (.after c i x.t)

/-- Bytes of a state into the scratchpad, those named first, the others left (R192, R303). -/
def State.sqLoad (s : State) (k : Nat) (c : Copy) (set : PageSet) (p : List Nat × List Nat) : State :=
  let lo := (c.rows.headD (0, 0)).2
  s.chunkScratch k c (if c.left.isNone && p.2 = [] then (set.bytes.take c.len).zipIdx.map fun q => (lo + q.2, q.1)
    else p.1.map fun i => (lo + i, set.bytes.getD i 0#8)) p.2

/-- Bytes of the scratchpad into the pages of a state, those named first, the others left (R303, R305). -/
def State.sqSave (s : State) (k : Nat) (c : Copy) (die ps : Nat) (p : List Nat × List Nat) : State :=
  let lo := (c.rows.headD (0, 0)).1
  let u := s.unit c.unit
  let d := s.die die
  let s := match d.sets.find? ps with
    | some q => s.setDie die { d with sets := d.sets.set ps { q with
        bytes := if c.left.isNone && p.2 = [] then u.scrRead lo c.len
          else p.1.foldl (fun b i => b.set i ((u.scrRead (lo + i) 1).getD 0 0#8)) q.bytes
        bad := q.bad && p.2 != [] } }
    | none => s
  s.setCopy k (c.progress p.2)

/-- Bytes of a transfer move: all that are left, or each as a free bit says, so that a reader meets either value of each byte (R228,
R303); with the last of them it is complete. -/
def State.sqMove (s : State) (k : Nat) (whole : Bool) : State :=
  match s.copy? k with
  | none => s
  | some c =>
    match c.sq with
    | [die, _, _, ps] =>
      if c.fin || s.unitAway c.unit || s.frozen c.key 4 then s
      else
        let set := (s.die die).sets.getD ps ⟨c.key, 0, List.replicate c.len 0#8, false⟩
        let idx := c.left.getD (List.range c.len)
        let p := if whole then (idx, []) else s.chunkSplit idx
        if c.kind = 1 && set.bad then (s.failCopy k c 0x15 (Config.freeWord (s.free * 65536 + 65530))).freeSets die
        else if c.kind = 2 && s.copies.any fun e => e.1 < k && e.2.kind = 1 && !e.2.fin && e.2.sq.getD 0 8 = die && e.2.sq.getD 3 0 = ps
        then s
        else
          let s := if c.kind = 1 then s.sqLoad k c set p else s.sqSave k c die ps p
          match s.copy? k with
          | some c => if c.left.isSome then s else (s.endCopy k c).freeSets die
          | none => s
    | _ => s

/-- SQ_TRANSFER_COMPLETE (R303, R305, R192): the bytes of an sq.ld reach the scratchpad, or those of an sq.st their pages, in part or
whole. -/
def execSqTransferComplete (k : Nat) (s : State) : Out State := .next (s.sqMove k false)

/-- STATE_PAGE_ERROR (R305): an uncorrectable error poisons a page of a page set. -/
def execStatePageError (die ps : Nat) (s : State) : Out State :=
  let d := s.die die
  match d.sets.find? ps with
  | some q => .next (s.setDie die { d with sets := d.sets.set ps { q with bad := true } })
  | none => .next s

end Sys2Proof.Machine
end

