-- ==== Sys2Proof/Machine/Sys.lean ====
section
/-!
DEFINITION. Sys2Proof/Machine/Sys.lean: the sys forms (R54, R113, R287, R288, R365-R368), gloss words (R22-R30), words
that are no instruction (R37), and the end of a block-rung service (R361).
-/
namespace Sys2Proof.Machine
open Host (Outcome)

/-! ## Ends of parties -/

/-- The operations a group has issued carried out before it ends, so that its arrivals wait for nothing more (R189, R362). -/
def State.drain (s : State) (gid : Nat) : State :=
  let s := s.modGrp gid fun g => { g with ops := g.ops.map Op.whole }
  let s := (List.range (s.grp gid).ops.length).foldl (fun s i =>
    match (s.grp gid).ops[i]? with
    | some o =>
      match o.kind with
      | .cache f lo len => s.cacheForm (s.grp gid) f lo len
      | _ => performRest gid i o.left s
    | none => s) s
  s.mapDeps gid fun _ => []

/-- HELM_FAULT (R258): the helm of a context on a cluster halts, and the cause is raised at the context rung; idx is the
word's index, hi the upper half of T3 (R192). -/
def State.helmFault (s : State) (key cl cause : Nat) (info : Word) (idx : Nat) (hi : Word) (psd : Bool) : State :=
  let h := s.helm key cl
  let s := s.setHelm key cl { h with run := .halted }
  let ub : Word × Word := match h.bind with
    | some u => (toW (s.work (s.unit u).work).serial, toW (s.unit u).bix)
    | none => (0#32, 0#32)
  s.trapUp ⟨2, key, 0, none, none, 1, ⟨cause, info, idx, if psd then 1 else 2, psd⟩, ub.1, ub.2, coreCid (cl * 4), 0, hi⟩

/-- A held group goes on at its saved PC (R361). -/
def State.release (s : State) (g : Nat) : State :=
  (s.modGrp g fun x => { x.ready (s.core x.core).cycle with held := false }).takeSlot g

/-- The cluster of the helm of a context that waits in mwbar at a word, its STARVE served, bound to a unit: after a migration it is not
that of the unit (R247, R252). -/
def State.starvedHelm (s : State) (key u pc : Nat) : Option Nat :=
  ((s.helms.filter fun p => p.1 / 1024 = key && p.2.bind = some u && p.2.pc = pc && match p.2.run with
    | .waiting (.mwbar _ none) => true
    | _ => false).map fun p => p.1 % 1024).head?

/-- The block handler of a unit leaves handler mode on core c: the disposition decides the trapped party's fate (R361). -/
def State.blockEnd (s : State) (u c : Nat) (disp : Word) : State :=
  let x := s.unit u
  match x.bserve with
  | none => s
  | some (p, t) =>
    let s := s.setUnit u { x with bserve := none }
    match p with
    | some g =>
      if disp = 0#32 then s.release g
      else if disp = 1#32 then (s.drain g).exitGroup g
      else s.raiseUp g 2 { t with psd := true }
    | none =>
      let w := s.work x.work
      let key := ctxKey w.vf w.ctx
      let cl := (s.starvedHelm key u t.pc).getD (coreCl c)
      if disp = 0#32 then
        let h := s.helm key cl
        match h.run with
        | .waiting (.mwbar tok _) => s.setHelm key cl { h with run := .waiting (.mwbar tok (some (s.cluster cl).hcycle)) }
        | _ => s
      else s.helmFault key cl 0x0A t.info t.pc 0#32 (disp != 1#32)

/-! ## The sys forms -/

/-- NOP (R365). -/
def execNop (o : F0) (s : State) : Out State := issueS (.nop o) o.s (fun x s => .ok (Eff.plain x s)) s

/-- SYS_TRAP (R366). -/
def execSysTrap (o : FT) (s : State) : Out State :=
  issueS (.sysTrap o) o.s (fun x s => .error (s, .after 0x16 (o.n.setWidth 32) x.t)) s

/-- SYS_GETST (R365, R53). -/
def execSysGetst (o : Fd) (s : State) : Out State :=
  issueS (.sysGetst o) o.s (fun x s => do
    let _ ← scalars x s [] [o.d.toNat]
    pure (Eff.plain x (writeScal s x.gid o.d.toNat x.g.fullGst x.t 2))) s

/-- SYS_SETST (R54): a reserved bit traps. -/
def execSysSetst (o : Fa) (s : State) : Out State :=
  issueS (.sysSetst o) o.s (fun x s => do
    let v ← scalars x s [x.a o.a] []
    if v0 v &&& 0x0001E0E0#32 != 0#32 then .error (s, x.illop)
    else pure (Eff.plain x (s.modGrp x.gid fun g =>
      let g := g.settleFlags x.t
      { g with gst := setstWord g.gst (v0 v) }))) s

/-- SYS_RSEED (R113). -/
def execSysRseed (o : Fa) (s : State) : Out State :=
  issueS (.sysRseed o) o.s (fun x s => do
    let v ← scalars x s [x.a o.a] []
    let s := s.setCore x.g.core { s.core x.g.core with rnd := if v0 v = 0#32 then 0x9E3779B9#32 else v0 v }
    pure (Eff.plain x (s.modGrp x.gid fun g => { g with key := v0 v }))) s

/-- Whether sys.tret refuses a status word (R367). -/
def tretBad (t gst : Word) : Bool :=
  t &&& 0x0001E0E0#32 != 0#32 || gstHdl t || gstCls t != gstCls gst || gstDrf t != gstDrf gst

/-- SYS_TRET (R367): returning from an exception. The S field is read from the word being issued. -/
def execSysTret (s : State) : Out State :=
  issueS .sysTret (s.iw.setWidth 3) (fun x s =>
    if !gstHdl x.g.gst then .error (s, .trap 0x13 0#32)
    else do
      let v ← scalars x s ([44, 45] ++ if x.g.rung = 2 then [43] else []) []
      if tretBad (v1 v) x.g.gst then .error (s, .trapRung x.g.rung 0x14 (v1 v))
      else
        let pc := x.g.hiPc * 4294967296 + (v0 v).toNat
        match checkTarget x s pc with
        | some st => .error (targetRead x s pc, st)
        | none =>
          let s := (targetRead x s pc).modGrp x.gid fun g => { g.leaveHandler with gst := v1 v }
          let s := if x.g.rung = 2 then s.blockEnd x.g.unit x.g.core (v2 v) else s
          pure (Eff.jump x s pc)) s

/-- Whether a copy of a group is incomplete. -/
def State.copying (s : State) (g : Nat) : Bool := (s.copiesOf g).any fun c => !c.2.fin

/-- A draft committed (R287): its lines become the committed ones, and the group goes on as an ordinary one. -/
def State.commitDraft (s : State) (gid : Nat) : State :=
  match (s.grp gid).draft with
  | some d =>
    ((s.draftCommit d).setDraft d .committed).modGrp gid fun g =>
      { g with draft := none, gst := g.gst &&& ~~~0x20000000#32 }
  | none => s

/-- SYS_DCOMMIT (R287). -/
def execSysDcommit (o : F0) (s : State) : Out State :=
  issueS (.sysDcommit o) o.s (fun x s =>
    if x.g.draft.isNone then .ok (Eff.plain x s)
    else if s.copying x.gid then .error (s, .trap 0x01 0#32)
    else if x.g.ops != [] then .error (s, .wait)
    else .ok (Eff.plain x (s.commitDraft x.gid))) s

/-- SYS_EXIT (R368): once the counters are 0 the group ends; a draft commits first, a block handler disposes first. -/
def execSysExit (s : State) : Out State :=
  issueS .sysExit 0#3 (fun x s =>
    if x.g.draft.isSome && s.copying x.gid then .error (s, .trap 0x01 0#32)
    else if x.g.ops != [] then .error (s, .wait)
    else do
      let v ← scalars x s (if x.g.rung = 2 then [43] else []) []
      let s := if x.g.rung = 2 then s.blockEnd x.g.unit x.g.core (v0 v) else s
      pure (Eff.plain x ((s.commitDraft x.gid).exitGroup x.gid))) s

/-- SYS_DABORT (R288): the draft is discarded with its copies, and its group ends. -/
def execSysDabort (s : State) : Out State :=
  issueS .sysDabort 0#3 (fun x s =>
    match x.g.draft with
    | none => .error (s, x.illop)
    | some d =>
      let s := ((s.draftDrop d).setDraft d .discarded).dropCopies x.gid
      .ok (Eff.plain x ((s.modGrp x.gid fun g => { g with draft := none }).exitGroup x.gid))) s

/-! ## Gloss words and words that are no instruction -/

/-- GIMM (R19, R22). -/
def execGimm (_ : GImm) (s : State) : Out State := issueGloss s

/-- GREP (R22, R28). -/
def execGrep (_ : GRep) (s : State) : Out State := issueGloss s

/-- GMOD (R22, R30). -/
def execGmod (_ : GMod) (s : State) : Out State := issueGloss s

/-- GEXT (R22, R29). -/
def execGext (_ : GExt) (s : State) : Out State := issueGloss s

/-- GSTALL (R22, R30). -/
def execGstall (_ : GStall) (s : State) : Out State := issueGloss s

/-- GSCALE (R22, R120). -/
def execGscale (_ : GScale) (s : State) : Out State := issueGloss s

/-- The cause and word of a word with no instruction that ends a chain (R37, R38): a whole-word value first, then the first
word at fault by major or gloss kind, then by the gloss rules, then the word itself. -/
def badWord (c : List Word) (w : Word) (regs rpi : Nat) : Nat × Word :=
  if w = 0#32 then (0x02, w)
  else if w = 0xFFFFFFFF#32 then (0x03, w)
  else
    match c.find? fun g => wMajor g = 0x7D && 2 ≤ bits g.toNat 23 2 with
    | some g => (0x01, g)
    | none =>
      match decodeGroup w with
      | .error .reservedMajor => (0x01, w)
      | _ =>
        match ruleFault w c [] with
        | some g => (0x01, g)
        | none =>
          match c.find? fun g => !glossOk g (fieldRoles w) regs rpi with
          | some g => (0x01, g)
          | none => (0x01, w)

/-- WORD_NOT_AN_INSTRUCTION (R37): a gloss word with a bad field joins its chain and is judged with it (R38); any other such
word traps. -/
def execWordNotAnInstruction (s : State) : Out State :=
  if isGloss s.iw then issueGloss s
  else
    let x := s.ixOf false
    let f := badWord x.g.chain s.iw x.g.regs x.rep
    s.stopAt x 0 false (.trap f.1 f.2)

end Sys2Proof.Machine
end

