-- ==== Sys2Proof/Machine/Save.lean ====
section
/-!
DEFINITION. Sys2Proof/Machine/Save.lean: context saves and restores (R68, R145, R371-R375): a group brought to rest, the save
pool's frames, the group frame, saving and restoring a unit.
-/
namespace Sys2Proof.Machine
open Host (Outcome)

/-! ## Coming to rest (R145, R335) -/

/-- Every operation a group has issued completed, in order, as far as each can be sent. -/
def State.runOps (gid : Nat) : Nat → State → Out State
  | 0, s => .next s
  | n + 1, s =>
    match (s.grp gid).ops with
    | [] => .next s
    | o :: _ =>
      match execInFlightComplete gid o.ctr s with
      | .next s => State.runOps gid n s
      | e => e

/-- The operations of each group of a list completed, their beats accepted. -/
def State.runAll : List Nat → State → Out State
  | [], s => .next s
  | g :: gs, s =>
    let s := s.modGrp g fun x => { x with ops := x.ops.map Op.whole }
    match State.runOps g (s.grp g).ops.length s with
    | .next s => State.runAll gs s
    | e => e

/-- The dirty lines of a cluster written back (R181, R269). -/
def State.cleanCluster (s : State) (cl : Nat) : State :=
  (s.dirtyLines cl).foldl (fun s l => s.writeBack l.1 l.2) s

/-- A group whose counters are 0 at an issue boundary, its fences satisfied and no message of a notice under way; a request of the
state store not yet accepted has not issued (R145, R281, R306, R335). -/
def State.restGroup (s : State) (gid : Nat) : State :=
  let g := s.grp gid
  let s := s.setRejects g.core ((s.core g.core).rejected.filter fun r => r.gid != gid)
  s.modGrp gid fun g => { g.rest with
    notice := none
    sqReq := none
    fences := []
    pf := []
    pc := g.firstPc
    chain := []
    mid := false
    st := if g.st = .active then .pending else g.st }

/-- A transfer and the earlier ones on its page set that it waits for (R303, R306). -/
def State.transferOrder (s : State) (k : Nat) : List Nat :=
  match s.copy? k with
  | none => []
  | some c => ((s.copies.filter fun e => e.1 < k && e.2.kind = 1 && !e.2.fin && e.2.sq.getD 0 8 = c.sq.getD 0 8 &&
      e.2.sq.getD 3 0 = c.sq.getD 3 0).map (·.1)) ++ [k]

/-- Some transfers with the state store completed, one after the other. -/
def State.restTransfers (s : State) (ks : List Nat) : State := ks.foldl (fun s k => s.sqMove k true) s

/-- The unfinished transfers that pass a test. -/
def State.transfersOf (s : State) (f : Copy → Bool) : List Nat :=
  (s.copies.filter fun c => c.2.kind != 0 && !c.2.fin && f c.2).map (·.1)

/-- The live groups of a unit. -/
def State.liveGroups (s : State) (u : Nat) : List (Nat × Group) := (s.groupsOf u).filter fun p => p.2.st != .exited

/-- Whether nothing of a unit is under way: every counter is 0 and every transfer is complete (R145, R307). -/
def State.quiet (s : State) (u : Nat) : Bool :=
  (s.liveGroups u).all (fun p => p.2.ops = []) && s.transfersOf (fun c => c.unit = u) = []

/-- The arrivals of a unit's groups that wait for nothing counted (R189). -/
def State.restArrivals (u : Nat) : Nat → State → Out State
  | 0, s => .next s
  | n + 1, s =>
    match execBarrierArrivalEffect u s with
    | .next s => State.restArrivals u n s
    | e => e

/-- A unit brought to rest: operations, transfers, arrivals, chunks begun, and the dirty bytes of its clusters at their homes. One
with an access that cannot be sent is not at rest yet: nothing of it issues meanwhile (R145). -/
def State.restUnit (s : State) (u : Nat) : Out State :=
  match State.runAll ((s.liveGroups u).map (·.1)) s with
  | .next s =>
    let s := s.restTransfers ((s.transfersOf fun c => c.unit = u).flatMap s.transferOrder)
    if !s.quiet u then .next (s.modUnit u fun x => { x with resting := true })
    else
      match State.restArrivals u (s.unit u).arrs.length s with
      | .next s =>
        let s := ((s.liveGroups u).map (·.1)).foldl (fun s g => s.restGroup g) (s.endChunks fun c => c.unit = u)
        .next (((s.unit u).cores.map coreCl).eraseDups.foldl (fun s c => s.cleanCluster c) s)
      | e => e
  | e => e

/-- The units whose operations are complete are no longer coming to rest: they are saved or moved, or go on (R145). -/
def State.endRest (s : State) : State :=
  { s with units := s.units.map fun p => if p.2.resting && s.quiet p.1 then (p.1, { p.2 with resting := false }) else p }

/-! ## The save pool (R358, R372) -/

/-- The pages of a VF address range of n pages under stage 2, their leaves marked; none where one does not translate. -/
def State.poolPages (vf : Nat) (w : Bool) : Nat → Nat → State → State × Option (List Nat)
  | 0, _, s => (s, some [])
  | n + 1, a, s =>
    match s.use2 none vf a (!w) w false with
    | (s, .ok l) =>
      match State.poolPages vf w n (a + 4096) s with
      | (s, some t) => (s, some (l.out a :: t))
      | (s, none) => (s, none)
    | (s, _) => (s, none)

/-- Bytes written from byte o of a frame on, line by line. -/
def State.poolPut (s : State) (vf base : Nat) (ps : List Nat) (o : Nat) : Nat → List Byte → State
  | 0, _ => s
  | n + 1, b =>
    let k := min (128 - o % 128) b.length
    if k = 0 then s
    else
      let s := s.homeWrite (some (vf, base + o)) (ps.getD (o / 4096) 0 + o % 4096) (b.take k)
      s.poolPut vf base ps (o + k) n (b.drop k)

/-- Bytes of a frame read at their homes. -/
def State.poolGet (s : State) (ps : List Nat) (o n : Nat) : List Byte :=
  (List.range n).flatMap fun i => s.homeView (ps.getD ((o + i) / 4096) 0 + (o + i) % 4096) 1

/-! ## The group frame (R373) -/

/-- The limit of a starvation timer's class, none where it is disabled (R175). -/
def State.starveLimit (s : State) (p cls : Nat) : Option Nat :=
  let w := (s.part p).starve.toNat
  let e := match cls with
    | 0 => bits w 6 6
    | 1 => bits w 12 6
    | _ => bits w 18 6
  if e = 0 then none else some (2 ^ e)

/-- Cycles a parked group's timer has counted (R174). -/
def State.starved (s : State) (g : Group) : Nat := g.starve + ((s.core g.core).cycle - g.parkedAt)

/-- The partition of a group, 0 where its descriptor names none. -/
def State.partOf (s : State) (g : Group) : Nat := (s.ctxPart (s.workOf g).vf (s.workOf g).ctx).getD 0

/-- Reason code and operand of a wait. -/
def Group.waitWords (g : Group) : Nat × Nat :=
  match g.wait with
  | some (c, w) =>
    (c, match w with
      | .ctr _ t | .waitc _ t _ => t
      | .batch n => n.toNat
      | .barPhase _ t => t.toNat
      | .word _ v => v.toNat
      | _ => 0)
  | none => (0, 0)

/-- The state of a rename entry in a frame. -/
def vCode : Option VEntry → Nat
  | some (.mapped _ _) | some .spilled => 1
  | some .dry => 2
  | none => 0

/-- The service timeout of a handler group (R354): of a group's own handler, or of a block handler. -/
def servLimit (rung : Nat) : Nat := if rung = 1 then 65536 else if rung = 2 then 262144 else 0

/-- The first 768 bytes of a group's frame, its cells' values apart. -/
def State.frameHead (s : State) (g : Group) : List Byte :=
  let words := fun (l : List Word) => l.flatMap fun w => leBytes 4 w.toNat
  let hd := gstHdl g.gst
  let parked := g.st = .parked
  let left := if parked then
      match s.starveLimit (s.partOf g) (gstCls g.gst) with
      | some n => n - s.starved g
      | none => 0
    else 0
  let serv := servLimit g.rung - (g.service + ((s.core g.core).cycle - g.serviceAt))
  let seen := if hd then g.sr.set 46 (causeWord (wAt g.sr 46)) else g.sr
  let saved := if hd then seen.drop 44 else g.xsv.set 2 (causeWord (wAt g.xsv 2))
  leBytes 4 (1 + (if g.held then 256 else 0) + (if parked then 512 else 0) + (if hd then 1024 else 0)) ++
    leBytes 8 g.pc ++ leBytes 4 g.gst.toNat ++ words saved ++
    words (if hd then g.bank else List.replicate 8 0#32) ++ words seen ++
    leBytes 48 ((List.range 192).foldl (fun m k => m + vCode (g.vr.find? k) * 2 ^ (2 * k)) 0) ++
    leBytes 4 g.waitWords.1 ++ leBytes 4 g.waitWords.2 ++ leBytes 8 left ++
    leBytes 4 (g.stk.length % 32 + g.stkSp * 32) ++ leBytes 4 g.sealed.toNat ++ leBytes 4 g.key.toNat ++
    leBytes 4 (g.owner + g.depth * 16777216) ++ leBytes 8 serv ++ List.replicate 168 0#8 ++
    (words (g.stk.reverse.flatMap fun e => [e.w0, e.m0, e.m1, e.m2]) ++ List.replicate 256 0#8).take 256

/-- The values of a group's cells, in the order of a frame: spilled ones are read back. -/
def State.frameCells (s : State) (gid : Nat) : Nat → Nat → State × Option (List Byte)
  | 0, _ => (s, some [])
  | n + 1, k =>
    match s.cellVal gid (k / 3) (k % 3) with
    | (s, none) => (s, none)
    | (s, some v) =>
      match s.frameCells gid n (k + 1) with
      | (s, some t) => (s, some (((v.getD zeroLanes).flatMap fun w => leBytes 4 w.toNat) ++ t))
      | (s, none) => (s, none)

/-- The registers of a group taken from its frame (R373, R375): none where the format, a reserved bit, or the state of a rename entry
is wrong. Its cells are brought in by the caller. -/
def Group.fromFrame (g : Group) (h : List Byte) : Option Group :=
  let w := fun (o : Nat) => leWord ((h.drop o).take 4)
  let ws := fun (o n : Nat) => leWords (h.drop o) n
  if w 0 &&& 0xFFFFF8FF#32 != 1#32 || (w 8).toNat / 65536 != 0 || (w 0x130).toNat / 16 != 0 || (w 0x140).toNat / 262144 != 0 ||
      (w 0x14C).toNat / 134217728 != 0 || ((h.drop 0x158).take 168).any (· != 0#8) || w 0xC &&& 0x0001E0E0#32 != 0#32 ||
      ((List.range 192).any fun k => bits (leNat ((h.drop 0x100).take 48)) (2 * k) 2 = 3) then none
  else
    let hd := (w 0).getLsbD 10
    some { g with
      pc := pair48 (w 4) (w 8)
      gst := w 0xC
      xsv := ws 0x10 4
      bank := if hd then ws 0x20 8 else g.bank
      sr := ws 0x40 48
      sealed := w 0x144
      key := w 0x148
      owner := bits (w 0x14C).toNat 0 24
      service := servLimit g.rung - leNat ((h.drop 0x150).take 8)
      stk := ((List.range (bits (w 0x140).toNat 0 5)).map fun i =>
        ⟨w (0x200 + 16 * i), w (0x204 + 16 * i), w (0x208 + 16 * i), w (0x20C + 16 * i)⟩).reverse
      stkSp := bits (w 0x140).toNat 5 13 }

/-! ## Saving a unit -/

/-- Words as bytes. -/
def wordBytes4 (l : List Word) : List Byte := l.flatMap fun w => leBytes 4 w.toNat

/-- A barrier in a block record (R374): 48 B; how class, base count, arrivals held and the mark to disarm share one word is not
stated (DESIGN CHOICE, log 40). -/
def State.barWords (s : State) (b : Bar) : List Word :=
  [toW b.addr, toW (b.cls + (if b.disarm then 4 else 0) + b.base % 4096 * 8 + b.held * 65536), toW b.k] ++
    b.ph.flatMap fun p => [toW p.cnt, toW p.arr, toW (p.who.foldl (fun m g => m ||| 2 ^ (s.grp g).gix) 0)]

/-- A barrier read back from its words. -/
def State.barOf (s : State) (u : Nat) (w : List Word) : Bar where
  addr := (wAt w 0).toNat
  cls := bits (wAt w 1).toNat 0 2
  base := bits (wAt w 1).toNat 3 12
  k := (wAt w 2).toNat
  ph := (List.range 3).map fun i => ⟨(wAt w (3 + 3 * i)).toNat, (wAt w (4 + 3 * i)).toNat,
    (s.groupsOf u).filterMap fun p => if (wAt w (5 + 3 * i)).getLsbD p.2.gix then some p.1 else none⟩
  held := (wAt w 1).toNat / 65536
  disarm := (wAt w 1).getLsbD 2

/-- The unfinished copies of a unit. -/
def State.openCopies (s : State) (u : Nat) : List (Nat × Copy) := s.copies.filter fun c => c.2.unit = u && c.2.kind = 0 && !c.2.fin

/-- An unfinished copy in a block record (R231, R374): its descriptor, the gix of its issuer (all ones for a helm), its batch and its
next chunk, after the number of words of the descriptor. -/
def State.copyWords (s : State) (c : Copy) : List Word :=
  toW c.desc.length :: c.desc ++ [match c.gid with
    | some g => toW (s.grp g).gix
    | none => 0xFFFFFFFF#32, c.batch, toW c.chunk]

/-- A block record (R374): format, footprint, scratch, armed barriers, unfinished copies; a count stands before each list (DESIGN
CHOICE, log 40). -/
def State.blockRecord (s : State) (u : Nat) : List Byte :=
  let x := s.unit u
  let cs := s.openCopies u
  leBytes 4 2 ++ leBytes 4 x.foot ++ x.scr ++
    wordBytes4 (toW x.bars.length :: x.bars.flatMap s.barWords ++ toW cs.length :: cs.flatMap fun c => s.copyWords c.2)

/-- A link in a chain record: its items with their masks, and the next item of a stream. -/
def Link.words (l : Link) (beats : Nat) : List Word :=
  toW l.items.length :: (l.items.flatMap fun it => ((List.range beats).flatMap fun b => it.vals.getD b (List.replicate 32 0#32)) ++
    (List.range 3).map (wAt it.mask)) ++ [toW l.next]

/-- A chain record (R374): format, form and setting, the stage table's address, its links, then its block record. -/
def State.unitRecord (s : State) (u : Nat) : List Byte :=
  match (s.unit u).chain with
  | some c =>
    leBytes 4 3 ++ leBytes 4 ((if c.folded then 1 else 0) + c.setting * 2) ++ leBytes 8 c.stab ++
      wordBytes4 (c.links.flatMap fun l => l.words (s.work (s.unit u).work).beats) ++ s.blockRecord u
  | none => s.blockRecord u

/-- A link with the items and the next item of its words; and the words after them. -/
def Link.ofWords (l : Link) (beats : Nat) (w : List Word) : Link × List Word :=
  let n := (wAt w 0).toNat
  let z := beats * 32 + 3
  let it := fun (i : Nat) => (w.drop (1 + i * z)).take z
  ({ l with
      items := (List.range (min n 8)).map fun i => ⟨(List.range beats).map fun b => ((it i).drop (32 * b)).take 32, (it i).drop (32 * beats)⟩
      next := (wAt w (1 + n * z)).toNat }, w.drop (2 + n * z))

/-- The links of a chain read back. -/
def linksOf (beats : Nat) : List Link → List Word → List Link × List Word
  | [], w => ([], w)
  | l :: ls, w =>
    let r := l.ofWords beats w
    let t := linksOf beats ls r.2
    (r.1 :: t.1, t.2)

/-- The rows that a descriptor read back names: of a gather one block for each lane that follows its eight words (R223). -/
def Copy.rowsOf (c : Copy) (d : List Word) : List (Nat × Nat) :=
  let lanes := (List.range ((d.length - 8) / 2)).map fun i => ((wAt d (8 + 2 * i)).toNat, wAt d (9 + 2 * i))
  if d.length ≤ 8 then cpyRows d else cpyxRows (d.take 8) lanes (rowOut c.pl c.len)

/-- The copies that a unit's save holds read back: each goes on at the chunk its record names, but for one that has ended meanwhile
(R231, R323, R375). -/
def State.takeCopies : List (Nat × Copy) → List Word → State → State
  | [], _, s => s
  | (k, c) :: cs, w, s =>
    let n := (wAt w 0).toNat
    let d := (w.drop 1).take n
    State.takeCopies cs (w.drop (n + 4)) (s.setCopy k (if c.fin then { c with kept := false } else { c with
      desc := d, rows := c.rowsOf d, batch := wAt w (n + 2), chunk := (wAt w (n + 3)).toNat, kept := false }))

/-- A block record read back: none where its format or its size is wrong (R375). -/
def State.takeBlock (s : State) (u : Nat) (b : List Byte) : Option State :=
  let x := s.unit u
  if leNat (b.take 4) != 2 || leNat ((b.drop 4).take 4) != x.foot then none
  else
    let w := leWords (b.drop (8 + x.foot)) ((b.length - 8 - x.foot) / 4)
    let n := (wAt w 0).toNat
    let s := s.setUnit u { x with
      scr := (b.drop 8).take x.foot
      bars := (List.range n).map fun i => s.barOf u ((w.drop (1 + 12 * i)).take 12) }
    some (State.takeCopies (s.copies.filter fun c => c.2.unit = u && c.2.kept) (w.drop (2 + 12 * n)) s)

/-- A unit's record read back (R374, R375). -/
def State.takeUnit (s : State) (u : Nat) (b : List Byte) : Option State :=
  match (s.unit u).chain with
  | some c =>
    let f := leNat ((b.drop 4).take 4)
    if leNat (b.take 4) != 3 || 8 ≤ f then none
    else
      let w := leWords (b.drop 16) ((b.length - 16) / 4)
      let r := linksOf (s.work (s.unit u).work).beats c.links w
      (s.modUnit u fun x => { x with chain := some { c with
        folded := f % 2 = 1, setting := f / 2, stab := leNat ((b.drop 8).take 8), links := r.1 } }).takeBlock u
        (b.drop (b.length - 4 * r.2.length))
  | none => s.takeBlock u b

/-- Frames of a record of n bytes, linked through their last 8 bytes. -/
def framesFor (n : Nat) : Nat := (n + 32759) / 32760

/-- How a save ends: done, no free frame, or a failed pool access. -/
inductive SaveEnd where
  | ok | full | bad
  deriving DecidableEq, Repr

/-- The frames of a list translated for writing. -/
def State.mapFrames (vf base : Nat) (w : Bool) : List Nat → State → State × Option (List (Nat × List Nat))
  | [], s => (s, some [])
  | f :: fs, s =>
    match State.poolPages vf w 8 (base + 32768 * f) s with
    | (s, some ps) =>
      match State.mapFrames vf base w fs s with
      | (s, some t) => (s, some ((f, ps) :: t))
      | (s, none) => (s, none)
    | (s, none) => (s, none)

/-- The frames of a record written: 32,760 bytes in each, and the address of the next one in its last 8. -/
def State.putRecord (s : State) (vf base : Nat) : List (Nat × List Nat) → List Byte → State
  | [], _ => s
  | (f, ps) :: fs, b =>
    let a := base + 32768 * f
    let s := s.poolPut vf a ps 0 300 (b.take 32760)
    let s := match fs with
      | (f2, _) :: _ => s.poolPut vf a ps 32760 2 (leBytes 8 (base + 32768 * f2))
      | [] => s
    s.putRecord vf base fs (b.drop 32760)

/-- The bytes of a record in its frames. -/
def State.getRecord (s : State) (m : List (Nat × List Nat)) : List Byte := m.flatMap fun f => s.poolGet f.2 0 32760

/-- A group's frame written; its rename entries are free. -/
def State.putFrame (s : State) (vf base gid f : Nat) (ps : List Nat) : State × Bool :=
  match s.frameCells gid 192 0 with
  | (s, some c) =>
    let s := s.poolPut vf (base + 32768 * f) ps 0 300 (s.frameHead (s.grp gid) ++ c)
    (s.modGrp gid fun g => { g with vr := [], lru := [] }, true)
  | (s, none) => (s, false)

/-- The frames of the groups of a unit written. -/
def State.putFrames (vf base : Nat) : List Nat → List (Nat × List Nat) → State → State × Bool
  | g :: gs, (f, ps) :: fs, s =>
    match s.putFrame vf base g f ps with
    | (s, true) => State.putFrames vf base gs fs s
    | r => r
  | _, _, s => (s, true)

/-- A group that leaves its slot: its service count stands (R354, R371), its pages are no longer pinned (R130). -/
def State.awayGroup (s : State) (gid : Nat) : State :=
  s.modGrp gid fun g => { g with
    service := if g.rung = 0 then 0 else g.service + ((s.core g.core).cycle - g.serviceAt)
    serviceAt := (s.core g.core).cycle
    pins := [] }

/-- CONTEXT_SAVE of a unit at rest (R372-R374): frames for its live groups and its block record are allocated and written, and
it leaves its slots. Drafts of a pre-emption hold no frame (R371). -/
def State.saveUnit (s : State) (u : Nat) (drafts : Bool) : State × SaveEnd :=
  let w := s.work (s.unit u).work
  let key := ctxKey w.vf w.ctx
  let gs := ((s.liveGroups u).filter fun p => drafts || p.2.draft.isNone).map (·.1)
  let s := s.useTrap key false
  match s.pool key with
  | none => (s, .bad)
  | some (base, nfr) =>
    let rec_ := s.unitRecord u
    match s.freeFrames key nfr (gs.length + (if gs = [] then 0 else framesFor rec_.length)) with
    | none => (s, .full)
    | some fs =>
      match State.mapFrames w.vf base true fs s with
      | (s, none) => (s, .bad)
      | (s, some m) =>
        match State.putFrames w.vf base gs (m.take gs.length) s with
        | (s, false) => (s, .bad)
        | (s, true) =>
          let s := s.putRecord w.vf base (m.drop gs.length) rec_
          let s := { s with copies := s.copies.map fun (c : Nat × Copy) =>
            if c.2.unit = u && c.2.kind = 0 && !c.2.fin then (c.1, { c.2 with kept := true }) else c }
          let s := s.setUnit u { s.unit u with swapped := true, cores := [], unsaved := false, resting := false }
          let s := ((s.liveGroups u).map (·.1)).foldl (fun s g => s.awayGroup g) s
          let s := if w.handler then s.servRun key false else s
          (s.setCtx key { s.ctx key with frames := (s.ctx key).frames ++ fs.map fun f => (f, u) }, .ok)

/-- A record with party 0 at the partition rung, of a unit, or of a helm and the block it is bound to (R363, R372, R375). -/
def State.saveReport (s : State) (key : Nat) (u : Option Nat) (cid : Word) (cause : Nat) : State :=
  let w := s.work ((u.map fun u => (s.unit u).work).getD 0)
  let info := Config.freeWord (s.free * 65536 + 65527)
  { s with trapQ := s.trapQ ++ [⟨3, key, 0, none, none, 0, ⟨cause, info, 0, 3, false⟩,
      if u.isSome then toW w.serial else 0#32, toW ((u.map fun u => (s.unit u).bix).getD 0), cid, 0, 0#32⟩] }

/-- The record that a failed pool access raises at the partition rung (R372): which of the causes of a failed translation it holds, and
its information, are not stated (log 40). -/
def State.poolFail (s : State) (key : Nat) (u : Option Nat) (cid : Word) : State :=
  s.saveReport key u cid (if Config.freeBit (s.free * 65536 + 65530) then 0x1B else 0x07)

/-- A unit brought to rest and saved by the scheduler (R163-R165, R172): with no free frame it stays, and so it does while an access
of it cannot be sent. -/
def State.saveOne (s : State) (u : Nat) (back : Bool) : Out State :=
  match s.restUnit u with
  | .next s1 =>
    if !s1.quiet u then .next s1
    else
      match s1.saveUnit u true with
      | (s2, .ok) => .next (s2.modUnit u fun x => { x with back := back })
      | (_, .full) => .next (s1.modUnit u fun x => { x with unsaved := true })
      | (s2, .bad) =>
        .next ((s2.poolFail (ctxKey (s.work (s.unit u).work).vf (s.work (s.unit u).work).ctx) (some u)
          (coreCid ((s.unit u).cores.headD 0))).modUnit u fun x => { x with unsaved := true })
  | e => e

/-! ## Restoring a unit -/

/-- The cells of a group brought back from its frame: mapped or spilled entries are mapped, others stand as they were. -/
def State.takeCells (gid : Nat) (h : List Byte) (ps : List Nat) : List Nat → State → State × Bool
  | [], s => (s, true)
  | k :: ks, s =>
    match bits (leNat ((h.drop 0x100).take 48)) (2 * k) 2 with
    | 1 =>
      match s.spill (s.grp gid).core with
      | (s, true) =>
        let v := leWords (s.poolGet ps (0x300 + 128 * k) 128) 32
        State.takeCells gid h ps ks (s.modGrp gid fun g => { g with
          vr := g.vr.set k (.mapped v (s.core g.core).cycle) })
      | r => r
    | 2 => State.takeCells gid h ps ks (s.modGrp gid fun g => { g with vr := g.vr.set k .dry })
    | _ => State.takeCells gid h ps ks s

/-- Timers and times of a group on its new core: a refill of its stack that is due is begun anew (R66); a timer of a parked group counts on (R174); a task that has entered the active set
stays one that has (R176). -/
def State.rehome (s : State) (gid core : Nat) : State :=
  let old := (s.core (s.grp gid).core).cycle
  let now := (s.core core).cycle
  s.modGrp gid fun g => { g with
    core := core
    starve := g.starve + (old - g.parkedAt)
    parkedAt := now
    service := if g.rung = 0 then 0 else g.service + (old - g.serviceAt)
    serviceAt := now
    nextIssue := now
    glossAt := now
    readySince := now
    boost := 0
    boostAt := now
    refill := []
    lru := []
    st := if g.st = .refilling || g.st = .active then (if g.lowStack then .refilling else .pending) else g.st }

/-- The pages that R130 pins for some groups of a unit translated for their cores; none once one of them cannot be. -/
def State.pinAll (key : Nat) (core : Nat → Nat) : List (Nat × Group) → State → State × Option (List (Nat × Tbl (Nat × Nat)))
  | [], s => (s, some [])
  | (g, x) :: gs, s =>
    match State.pinList key (core x.gix) (pinPages x.win x.plim x.dspill x.beats) s with
    | (s, some t) =>
      let r := State.pinAll key core gs s
      (r.1, r.2.map ((g, t) :: ·))
    | (s, none) => (s, none)

/-- The groups of a unit restored from their frames, each to its core: false where a record is not restored. -/
def State.takeFrames (core : Nat → Nat) : List Nat → List (List Nat) → State → State × Bool
  | g :: gs, ps :: fs, s =>
    let h := s.poolGet ps 0 768
    match (s.grp g).fromFrame h with
    | none => (s, false)
    | some y =>
      let y := { y with vr := [], serviceAt := (s.core y.core).cycle }
      match State.takeCells g h ps (List.range 192) ((s.setGrp g y).rehome g (core (s.grp g).gix)) with
      | (s, true) => State.takeFrames core gs fs s
      | r => r
  | _, _, s => (s, true)

/-- A draft started again after a pre-emption, with a new entry where one is free (R371, R290): not one of its 3 replays. A
pre-empted draft has entry number 4,096, which no table holds. -/
def State.redraft (s : State) (core : Nat → Nat) : List Nat → State
  | [] => s
  | g :: gs =>
    let x := s.grp g
    let c := core x.gix
    let s := match s.freeDraft (coreDie c) with
      | some e =>
        let s := (s.setDraft (coreDie c, e) .opened).modUnit x.unit fun u => { u with
          scr := List.replicate u.foot 0#8, bars := [], arrs := [], claims := [] }
        (s.setGrp g { x.restart (gstCls x.gst) true with draft := some (coreDie c, e), st := .pending }).rehome g c
      | none => s
    s.redraft core gs

/-- CONTEXT_RESTORE of a unit to its cores (R375): its pages are pinned and its frames are freed; a record whose format or reserved
bits are wrong is not restored, and the partition rung receives POISON. Its unfinished copies go on in the engine of the cluster it
is restored to (DEDUCED, log 118). -/
def State.restoreUnit (s : State) (u : Nat) (cores : List Nat) (core : Nat → Nat) (pins : List (Nat × Tbl (Nat × Nat))) : State :=
  let x := s.unit u
  let w := s.work x.work
  let key := ctxKey w.vf w.ctx
  let mine := ((s.ctx key).frames.filter fun f => f.2 = u).map (·.1)
  let live := s.liveGroups u
  let cold := fun (p : Nat × Group) => p.2.draft.map (·.2) = some 4096
  let gs := (live.filter fun p => !cold p).map (·.1)
  let ds := (live.filter cold).map (·.1)
  let cid := coreCid (cores.headD 0)
  let bad := fun (s : State) => s.saveReport key (some u) cid 0x15
  let s := s.useTrap key false
  match s.pool key with
  | none => s.poolFail key (some u) cid
  | some (base, _) =>
    match State.mapFrames w.vf base false mine s with
    | (s, none) => s.poolFail key (some u) cid
    | (s, some m) =>
      match if gs = [] then some s else s.takeUnit u (s.getRecord (m.drop gs.length)) with
      | none => bad s
      | some s1 =>
        let s1 := pins.foldl (fun s p => s.modGrp p.1 fun g => { g with pins := p.2 }) s1
        match State.takeFrames core gs ((m.take gs.length).map (·.2)) s1 with
        | (_, false) => bad s
        | (s, true) =>
          let s := s.setCtx key { s.ctx key with frames := (s.ctx key).frames.filter fun f => f.2 != u }
          let c0 := cores.headD 0
          let s := if w.handler then s.servRun key true else s
          let s := { s with copies := s.copies.map fun (c : Nat × Copy) =>
            if c.2.unit = u && c.2.gid.isSome && !c.2.fin then (c.1, { c.2 with cl := coreCl c0 }) else c }
          (s.modUnit u fun y => { y with
            swapped := false, preempted := false, back := false, cores := cores, quantum := (s.core c0).cycle }).redraft core ds

end Sys2Proof.Machine
end

