-- ==== Sys2Proof/Machine/Launch.lean ====
section
/-!
DEFINITION. Sys2Proof/Machine/Launch.lean: launch records and stage tables, their checks and refusals (R152, R153, R166, R199,
R200, R209, R284, R358), and the completion word (R154).
-/
namespace Sys2Proof.Machine
open Host (Outcome)

/-! ## Limits of a record (R152, R209, R284, R358) -/

/-- Words lo .. hi-1 of a record are zero. -/
def zeroFrom (l : List Word) (lo hi : Nat) : Bool := (List.range (hi - lo)).all fun i => wAt l (lo + i) = 0#32

/-- The limits of R152, with those of a task (R209), of a draft (R284) and of a handler record (R358). -/
def Work.recordOk (w : Work) : Bool :=
  let r := w.words
  let n := fun (i : Nat) => (wAt r i).toNat
  n 0 % 4 = 0 && bits (n 1) 30 2 = 0 && bits (n 1) 16 2 != 3 &&
    (w.chn || (1 ≤ w.regs && w.regs ≤ 64 && 1 ≤ w.gpb && w.gpb ≤ 24 && w.gpb * w.beats * 32 ≤ 1536)) &&
    bits (n 2) 24 8 = 0 && w.cls != 3 && w.foot ≤ (if w.pair then 524288 else 262144) &&
    1 ≤ n 3 && 1 ≤ n 4 && 1 ≤ n 5 && w.blocks < 4294967296 &&
    n 7 / 65536 = 0 && (if w.chn then w.stabVa != 0 && w.stabVa % 64 = 0 else w.stabVa = 0) &&
    n 8 % 16 = 0 && n 10 / 65536 = 0 && w.ccnt % 4 = 0 && n 12 / 65536 = 0 && w.pbase % 128 = 0 &&
    w.plim ≤ 1048576 && w.dspill ≤ 4096 && n 15 / 16777216 = 0 && n 15 % 256 = 1 && zeroFrom r 16 32 &&
    (!w.drf || (w.gpb = 1 && !w.chn)) &&
    (!w.isTask || (w.gpb = 1 && w.blocks = 1 && !w.chn && 1 ≤ w.ntw)) &&
    (!w.handler || !w.drf)

/-! ## Stage tables (R199, R200) -/

def stabNst (t : List Word) : Nat := bits (wAt t 0).toNat 0 2 + 1
def stabNlk (t : List Word) : Nat := bits (wAt t 0).toNat 4 4
def stabForm (t : List Word) : Nat := bits (wAt t 0).toNat 8 2
def stabPc (t : List Word) (i : Nat) : Nat := (wAt t (1 + 2 * i)).toNat + bits (wAt t (2 + 2 * i)).toNat 0 16 * 4294967296
def stabRegs (t : List Word) (i : Nat) : Nat := bits (wAt t (2 + 2 * i)).toNat 16 7
def stabGrp (t : List Word) (i : Nat) : Nat := bits (wAt t (2 + 2 * i)).toNat 23 5
def stabLink (t : List Word) (j : Nat) : Nat := bits (wAt t (9 + j / 2)).toNat (if j % 2 = 0 then 0 else 16) 16
def linkKind (l : Nat) : Nat := bits l 14 2
def linkPs (l : Nat) : Nat := bits l 12 2
def linkPq (l : Nat) : Nat := bits l 9 3
def linkCs (l : Nat) : Nat := bits l 7 2
def linkCq (l : Nat) : Nat := bits l 4 3
/-- Address of a link's stream descriptor. -/
def stabDesc (t : List Word) (j : Nat) : Nat := pair48 (wAt t (16 + 2 * j)) (wAt t (17 + 2 * j))

/-- Stages reached from a stage along stage links, by n rounds. -/
def reaches : Nat → List (Nat × Nat) → List Nat → List Nat
  | 0, _, l => l
  | n + 1, es, l => reaches n es (l ++ (es.filterMap fun e => if l.contains e.1 && !l.contains e.2 then some e.2 else none)).eraseDups

/-- The limits of a stage table (R199): reserved bits are zero in every row of it, the other limits hold for the stages and links there
are (DEDUCED, log 121). -/
def stabOk (t : List Word) : Bool :=
  let nst := stabNst t
  let nlk := stabNlk t
  let ls := (List.range nlk).map (stabLink t)
  let ends := ls.flatMap fun l =>
    (if linkKind l != 1 then [linkPs l * 8 + linkPq l] else []) ++ (if linkKind l != 2 then [linkCs l * 8 + linkCq l] else [])
  let edges := (ls.filter fun l => linkKind l = 0).map fun l => (linkPs l, linkCs l)
  bits (wAt t 0).toNat 10 22 = 0 && stabForm t != 3 && nlk ≤ 8 && bits (wAt t 0).toNat 2 2 = 0 &&
    ((List.range nst).all fun i => stabPc t i % 4 = 0 && stabGrp t i = 1 &&
      1 ≤ stabRegs t i && stabRegs t i ≤ 64) &&
    ((List.range 4).all fun i => bits (wAt t (2 + 2 * i)).toNat 28 4 = 0) &&
    (ls.all fun l => linkKind l != 3 && (linkKind l = 1 || linkPs l < nst) && (linkKind l = 2 || linkCs l < nst) &&
      (linkKind l != 1 || bits l 9 5 = 0) && (linkKind l != 2 || bits l 4 5 = 0) && (linkKind l != 0 || linkPs l != linkCs l)) &&
    ((List.range 8).all fun j => bits (stabLink t j) 0 4 = 0) && zeroFrom t 13 16 &&
    ends.eraseDups.length = ends.length &&
    (edges.all fun e => !(reaches 4 edges [e.2]).contains e.1) &&
    ((List.range nlk).all fun j =>
      if linkKind (stabLink t j) != 0 then stabDesc t j % 32 = 0 && (wAt t (17 + 2 * j)).toNat / 65536 = 0
      else wAt t (16 + 2 * j) = 0#32 && wAt t (17 + 2 * j) = 0#32)

/-- The limits of a stream descriptor (R200): base and both strides are multiples of 4, whatever the number of items (DESIGN CHOICE,
log 115). -/
def descOk (d : List Word) : Bool :=
  (wAt d 1).toNat / 65536 = 0 && (wAt d 0).toNat % 4 = 0 && (wAt d 2).toNat % 4 = 0 && (wAt d 3).toNat % 4 = 0 && zeroFrom d 5 8

/-! ## The checks of a record (R153) -/

/-- How a check ends: with what was read, waiting on a key, or refused. -/
inductive RecCheck where
  | ok (w : Work)
  | waits (k : FKey)
  | refused
  deriving DecidableEq, Repr

/-- The cluster that would take a work (R321). -/
def State.workCl (s : State) (w : Work) : Nat :=
  match w.src with
  | .launch c => coreCl c
  | .task cl | .copy cl _ | .handler cl => cl
  | .host =>
    match s.ctxPart w.vf w.ctx with
    | some p => (lowest (s.quarters p)).getD 0 * 24
    | none => 0

/-- A page of a record's data translated (R153). -/
def State.recPage (s : State) (w : Work) (va : Nat) : State × Except (Option FKey) Nat :=
  let cl := s.workCl w
  match s.translate w.vf w.ctx va .read 0 cl none (coreCid (cl * 4)) with
  | (s, .ok pa _) => (s, .ok pa)
  | (s, .fault k) => (s, .error (some k))
  | (s, _) => (s, .error none)

/-- n words at an address in one page, read as by the engines of the cluster (DEDUCED, log 41). In the fabric window of a partition that
may not send the check waits, under a key that is not outstanding, so that it is made again (R401). -/
def State.recWords (s : State) (w : Work) (va n : Nat) : State × Except (Option FKey) (List Word) :=
  match s.recPage w va with
  | (s, .ok pa) =>
    if windowPa pa && !s.sends (ctxKey w.vf w.ctx) then (s, .error (some ⟨w.vf, false, w.ctx, va / 4096⟩)) else
    let s := s.combine (pa / 128)
    (s, .ok (leWords ((List.range (4 * n)).map fun i => s.engineByte (s.workCl w) none (pa + i)) n))
  | (s, .error e) => (s, .error e)

/-- n pages from a page number on translated. -/
def State.recPages (w : Work) : Nat → Nat → State → State × Except (Option FKey) Unit
  | 0, _, s => (s, .ok ())
  | n + 1, p, s =>
    match s.recPage w (p % 68719476736 * 4096) with
    | (s, .ok _) => State.recPages w n (p + 1) s
    | (s, .error e) => (s, .error e)

/-- The stream descriptors of a chain's links, read in turn; an empty list for a link without one. -/
def State.recDescs (w : Work) (t : List Word) : List Nat → State → State × Except (Option FKey) (List (List Word))
  | [], s => (s, .ok [])
  | j :: js, s =>
    if linkKind (stabLink t j) = 0 then
      match State.recDescs w t js s with
      | (s, .ok l) => (s, .ok ([] :: l))
      | r => r
    else
      match s.recWords w (stabDesc t j) 8 with
      | (s, .ok d) =>
        match State.recDescs w t js s with
        | (s, .ok l) => (s, .ok (d :: l))
        | r => r
      | (s, .error e) => (s, .error e)

/-- Windows of a work (R128): one for each group, each stage, or each task window. -/
def Work.windows (w : Work) : Nat :=
  if w.chn then stabNst w.stab else if w.isTask then w.ntw else w.blocks * w.gpb

/-- Whether the cores of a partition that are not fenced could hold a whole gang at once (R166): slots of each core or pair, and
scratch of each core, of which a pair's lower one takes the first 262,144 bytes of a footprint (R182). -/
def State.gangCapacity (s : State) (p : Nat) (w : Work) : Bool :=
  let slots := (if w.pair then 2 * Config.coreSlots else Config.coreSlots) / w.gpb
  let per := if w.foot = 0 then slots else min slots (Config.scratchBytes / min w.foot Config.scratchBytes)
  let cores := (s.quarters p).flatMap fun q => (List.range 96).map (q * 96 + ·)
  let units := if w.pair then cores.filter fun c => c % 2 = 0 && !(s.core c).fenced && !(s.core (c + 1)).fenced
    else cores.filter fun c => !(s.core c).fenced
  w.blocks ≤ units.length * per

/-- An answer to a failed translation. -/
def RecCheck.ofErr : Option FKey → RecCheck
  | some k => .waits k
  | none => .refused

/-- The stage table and stream descriptors of a chain read and checked. -/
def State.checkStab (s : State) (w : Work) : State × Except (Option FKey) Work :=
  if !w.chn then (s, .ok w)
  else
    match s.recWords w w.stabVa (if w.stabVa % 4096 ≤ 3968 then 32 else 16) with
    | (s, .error e) => (s, .error e)
    | (s, .ok t1) =>
      match if w.stabVa % 4096 ≤ 3968 then (s, .ok []) else s.recWords w (w.stabVa + 64) 16 with
      | (s, .error e) => (s, .error e)
      | (s, .ok t2) =>
        let t := t1 ++ t2
        if !stabOk t then (s, .error none)
        else
          match State.recDescs w t (List.range (stabNlk t)) s with
          | (s, .error e) => (s, .error e)
          | (s, .ok ds) =>
            if ds.any fun d => d != [] && !descOk d then (s, .error none)
            else (s, .ok { w with stab := t, sdesc := ds })

/-- The check of a record (R153, R166, R209, R311, R385): the context's descriptor is used, then every limit, and every page of the record, the stage table and the
private windows. -/
def State.checkRecord (s : State) (w : Work) : State × RecCheck :=
  let s := ((s.ctxAddr w.vf w.ctx).map fun a => s.useAddr w.vf a false).getD s
  match s.ctxPart w.vf w.ctx with
  | none => (s, .refused)
  | some p =>
    if w.fatal || w.addr % 128 != 0 then (s, .refused)
    else
      match s.recWords w w.addr 32 with
      | (s, .error e) => (s, .ofErr e)
      | (s, .ok r) =>
        let w := { w with words := r }
        if !w.recordOk then (s, .refused)
        else
          match s.checkStab w with
          | (s, .error e) => (s, .ofErr e)
          | (s, .ok w) =>
            if w.cls = 0 && !w.chn && !w.isTask && !s.gangCapacity p w then (s, .refused)
            else
              let n := w.windows * winSize w.plim w.dspill w.beats
              match State.recPages w ((w.pbase + n - 1) / 4096 - w.pbase / 4096 + 1) (w.pbase / 4096) s with
              | (s, .error e) => (s, .ofErr e)
              | (s, .ok ()) => (s, .ok w)

/-! ## Queues and refusals (R153, R177, R209, R229, R355) -/

/-- A work taken out of the launch queue or the task queue that holds it. -/
def State.dequeue (s : State) (w : Nat) : State :=
  match (s.work w).src with
  | .launch c => s.setCore c { s.core c with launchQ := (s.core c).launchQ.filter (· != w) }
  | .task cl | .copy cl _ | .handler cl => s.setCluster cl { s.cluster cl with taskQ := (s.cluster cl).taskQ.filter (· != w) }
  | .host => s

/-- A record of the launch unit for the context rung of a work's context (R154, R209, R229). -/
def State.workReport (s : State) (w : Work) (cause : Nat) (info : Word) : State :=
  s.trapUp ⟨2, ctxKey w.vf w.ctx, 0, none, none, 5, ⟨cause, info, 0, 2, false⟩, toW w.serial, 0#32, coreCid (s.workCl w * 4), 0, 0#32⟩

/-- P14 of a packet at a VF address written (R386, R388). -/
def State.packetStatus (s : State) (vf slot : Nat) (v : Word) : State :=
  let a := slot + 56
  match s.use2 none vf a false true false with
  | (s, .ok l) => s.engineWrite none vf (l.out a) a (leBytes 4 v.toNat)
  | (s, _) => s

/-- A record refused (R153, R209, R229); that of a host's launch, which a fence has made unplaceable, through P14 = 2 and rf (R166,
R388); a handler's is not reported: the traps it would have served pass to the partition rung (R355). -/
def State.refuse (s : State) (k : Nat) : State :=
  let w := s.work k
  let s := (s.dequeue k).setWork k { w with phase := .refused, keys := [] }
  match w.src with
  | .launch _ | .task _ => s.workReport w 0x01 (toW w.serial)
  | .copy _ a => s.workReport w 0x01 (toW a)
  | .host =>
    let s := s.packetStatus w.vf w.pkt 2#32
    s.setVf w.vf { s.vf w.vf with rf := true, launches := (s.vf w.vf).launches.filter (· != k) }
  | .handler _ =>
    let key := ctxKey w.vf w.ctx
    let c := s.ctx key
    let s := s.setCtx key { c with handler := none, first := [] }
    { s with trapQ := s.trapQ ++ c.first.map fun r => { r with rung := 3, trap := { r.trap with psd := true } } }

/-- Whether a queued record may be checked now: a launch is the oldest of its core's queue, and its pages are resolved. -/
def State.checkable (s : State) (k : Nat) : Bool :=
  let w := s.work k
  w.phase = .queued && !s.frozen (ctxKey w.vf w.ctx) 5 && (w.keys = [] || w.fatal || w.keys.any fun f => !s.fkeys.contains f) &&
    match w.src with
    | .launch c => (s.core c).launchQ.head? = some k
    | .host => false
    | _ => true

/-- LAUNCH_RECORD_CHECK (R153): a queued record is accepted, waits for a page, or is refused. -/
def execLaunchRecordCheck (k : Nat) (s : State) : Out State :=
  if !s.checkable k then .next s
  else
    match s.checkRecord (s.work k) with
    | (s, .waits f) => .next (s.setWork k { s.work k with keys := [f] })
    | (s, .refused) => .next (s.refuse k)
    | (s, .ok w) =>
      let s := s.setWork k { w with phase := .accepted, keys := [] }
      let key := ctxKey w.vf w.ctx
      .next (match w.src with
        | .launch _ => s.dequeue k
        | .handler _ => s.setCtx key { s.ctx key with first := [] }
        | _ => s)

/-! ## The completion word (R154) -/

/-- Blocks of a work: a chain or a task is one. -/
def Work.total (w : Work) : Nat := if w.chn || w.isTask then 1 else w.blocks

/-- Whether a chain's store streams have stored every item they store (R200): items past their count are none (log 129). -/
def UnitSt.drained (x : UnitSt) : Bool :=
  match x.chain with
  | some c => c.links.all fun l => l.kind != 2 || l.items = [] || l.ended || l.cnt ≤ l.next
  | none => true

/-- The clusters the units of a work last stood on. -/
def State.workClusters (s : State) (k : Nat) : List Nat :=
  ((s.groups.filter fun p => (s.unit p.2.unit).work = k).map fun p => coreCl p.2.core).eraseDups

/-- A work complete for every purpose: its command queue and its handler are told. -/
def State.workOver (s : State) (k : Nat) : State :=
  let w := s.work k
  let key := ctxKey w.vf w.ctx
  let s := s.setWork k { w with phase := .complete, keys := [] }
  match w.src with
  | .host => s.setVf w.vf { s.vf w.vf with launches := (s.vf w.vf).launches.filter (· != k) }
  | .handler _ => s.handlerOver key k
  | _ => s

/-- WORK_COMPLETION_WORD (R154): the last group has exited; its stores are performed at their homes, then 1 is added; in the fabric window
once the partition may send, where the other device does not refuse it (R401, R403, R404). -/
def execWorkCompletionWord (k : Nat) (s : State) : Out State :=
  let w := s.work k
  let units := s.units.filter fun p => p.2.work = k
  if w.phase != .accepted || w.next < w.total || w.live != 0 || !(units.all fun p => p.2.drained) ||
      (w.keys != [] && !w.fatal && w.keys.all s.fkeys.contains) then .next s
  else
    let s := (s.workClusters k).foldl (fun s c => s.cleanCluster c) s
    if w.ccnt = 0 then .next (s.workOver k)
    else if w.fatal then .next ((s.workReport w 0x1B (toW w.ccnt)).workOver k)
    else
      match s.translate w.vf w.ctx w.ccnt .write 9 (s.workCl w) none (coreCid (s.workCl w * 4)) with
      | (s, .ok pa vfa) =>
        if windowPa pa && !s.sends (ctxKey w.vf w.ctx) then .next s
        else if windowPa pa && Config.freeBit (s.free * 65536 + 65531) then .next ((s.workReport w 0x07 (toW w.ccnt)).workOver k)
        else .next ((s.addOne (w.vf, vfa) pa).workOver k)
      | (s, .fault f) => .next (s.setWork k { s.work k with keys := [f] })
      | (s, t) => .next ((s.workReport w (t.engineFail w.ccnt).1 (t.engineFail w.ccnt).2).workOver k)

end Sys2Proof.Machine
end

