-- ==== Sys2Proof/Machine/Sched.lean ====
section
/-!
DEFINITION. Sys2Proof/Machine/Sched.lean: the active set and boosts (R157-R159), placement of blocks, gangs, chains, tasks and
saved units (R155, R161, R164, R172, R176-R178, R213), quanta, saves and swap-outs (R163-R165, R172), starvation (R174),
migration (R179, R180).
-/
namespace Sys2Proof.Machine
open Host (Outcome)

/-! ## The active set (R157-R159) -/

/-- Groups of a core that may take part in issue: resident, not held, the running stage of a folded chain, of a unit that is not coming
to rest (R145), on a core that is not fenced (R376); a spread chain goes on to the fix point at which it folds (R203). -/
def State.contenders (s : State) (c : Nat) : List (Nat × Group) :=
  (s.resident c).filter fun p => !p.2.held && s.onStage p.2 && !s.frozen (s.keyOf p.2) 0 && !(s.unit p.2.unit).resting &&
    (!(s.core c).fenced || (s.unit p.2.unit).spreadChain)

/-- Active groups of a core. -/
def State.actives (s : State) (c : Nat) : List (Nat × Group) := (s.contenders c).filter fun p => p.2.st = .active

/-- Whether a group is inside an issue unit: glosses have issued, their instruction has not (R26, R159). -/
def Group.midUnit (g : Group) : Bool := g.mid && g.chain != []

/-- The pending group ready longest: its next word passes the stall rule (R157). Of several ready equally long the lowest-numbered
(DESIGN CHOICE, log 116). -/
def State.nextIn (s : State) (c : Nat) : Option (Nat × Group) :=
  ((s.contenders c).filter fun p => p.2.st = .pending && p.2.readySince ≤ (s.core c).cycle).foldl (fun b p =>
    match b with
    | none => some p
    | some q => if p.2.readySince < q.2.readySince then some p else b) none

/-- A group enters the active set, at the earliest in the cycle after one in which a group left it (R157); the entries set aside for a
task are no longer (R176). -/
def State.enter (s : State) (g : Nat) : State :=
  s.modGrp g fun x => { x with
    st := .active, entered := max ((s.core x.core).cycle) ((s.core x.core).left + 1), aside := 0 }

/-- ACTIVE_SET_ENTER (R157). -/
def execActiveSetEnter (c : Nat) (s : State) : Out State :=
  if Config.activeMax ≤ (s.actives c).length then .next s
  else
    match s.nextIn c with
    | some p => .next (s.enter p.1)
    | none => .next s

/-- DISPLACE (R158): a pending group ready for 2,048 cc takes the place of the active group that entered earliest, once that one stands
at an issue boundary; of several that entered in one cycle, of the lowest-numbered (DESIGN CHOICE, log 116). -/
def execDisplace (c : Nat) (s : State) : Out State :=
  match s.nextIn c with
  | some p =>
    let out := (s.actives c).foldl (fun (b : Option (Nat × Group)) q =>
      match b with
      | none => some q
      | some r => if q.2.entered < r.2.entered then some q else b) none
    match out with
    | some q =>
      if (s.core c).cycle < p.2.readySince + 2048 || (s.actives c).length < Config.activeMax || q.2.midUnit then .next s
      else .next (((s.modGrp q.1 fun x => { x with st := .pending, readySince := max x.nextIssue (s.core c).cycle }).leave c
        (s.core c).cycle).enter p.1)
    | none => .next s
  | none => .next s

/-- BOOST_RISE (R159): 256 further cycles in which a ready group was not chosen; of a folded chain, one group, its running stage. -/
def execBoostRise (g : Nat) (s : State) : Out State :=
  match s.groups.find? g with
  | some x =>
    if (x.st = .active || x.st = .pending) && s.onStage x && x.boost < 3 && x.boostAt + 256 ≤ (s.core x.core).cycle
    then .next (s.setGrp g { x with boost := x.boost + 1, boostAt := x.boostAt + 256 }) else .next s
  | none => .next s

/-! ## Room on a core (R155, R213) -/

/-- Slots of a core in use: a folded chain takes one (R155). -/
def State.slotsUsed (s : State) (c : Nat) : Nat :=
  let r := s.resident c
  let folded := (r.filter fun p => (s.unit p.2.unit).foldedChain).map fun p => p.2.unit
  (r.filter fun p => !(s.unit p.2.unit).foldedChain).length + folded.eraseDups.length

/-- Scratch bytes of core c that a unit takes: a pair's first 262,144 lie in its lower core (R182). -/
def footOn (pair : Bool) (foot head c : Nat) : Nat :=
  if pair then (if c = head then min foot 262144 else if c = head + 1 then foot - 262144 else 0)
  else if c = head then foot else 0

/-- Scratch bytes of a core in use. -/
def State.scrUsed (s : State) (c : Nat) : Nat :=
  s.units.foldl (fun n p =>
    match p.2.cores with
    | h :: _ => n + footOn (s.work p.2.work).pair p.2.foot h c
    | [] => n) 0

/-- Whether a core is of the partition, which is not held, not fenced, and its quarter-die is not being wiped (R364, R376, R382). -/
def State.usable (s : State) (p c : Nat) : Bool :=
  c < Config.cores && s.coreIn p c && !(s.core c).fenced && !(s.part p).held &&
    bits (s.dev.partTbl.getD (c / 96) 0#32).toNat 16 1 = 0

/-- Whether a cluster holds no group. -/
def State.emptyCl (s : State) (cl : Nat) : Bool := (List.range 4).all fun i => s.resident (cl * 4 + i) = []

/-- Whether a core has the slots and scratch for a unit, its cluster in the L1 mode or empty. -/
def State.roomAt (s : State) (p : Nat) (w : Work) (c slots foot : Nat) : Bool :=
  let ok := fun (d n : Nat) => s.usable p d && s.scrUsed d + n ≤ Config.scratchBytes
  let mode := (s.cluster (coreCl c)).fused = w.fused || s.emptyCl (coreCl c)
  mode &&
    if w.pair && foot != 0 then
      c % 2 = 0 && ok c (footOn true foot c c) && ok (c + 1) (footOn true foot c (c + 1)) &&
        slots + s.slotsUsed c + s.slotsUsed (c + 1) ≤ 2 * Config.coreSlots
    else if w.pair then
      c % 2 = 0 && ok c 0 && ok (c + 1) 0 && slots + s.slotsUsed c + s.slotsUsed (c + 1) ≤ 2 * Config.coreSlots
    else ok c foot && slots + s.slotsUsed c ≤ Config.coreSlots

/-- The cores a unit stands on from its placement core. -/
def Work.spanOf (w : Work) (c : Nat) : List Nat := if w.pair && !w.chn then [c, c + 1] else [c]

/-- L1_MODE_CHANGE (R213): the dirty bytes of an empty cluster's L1s are written back, every line is invalidated. -/
def State.l1Mode (s : State) (cl : Nat) (fused : Bool) : State :=
  if (s.cluster cl).fused = fused then s
  else
    let s := (s.l1.filter fun l => l.core / 4 = cl).foldl (fun s l => (s.writeBack l.core l.line).dropL1 l.core l.line) s
    s.setCluster cl { s.cluster cl with fused := fused }

/-! ## Waiting work (R161, R163-R165, R172) -/

/-- Whether a unit's context moves, so that it may be placed. -/
def State.moves (s : State) (w : Work) : Bool := !s.frozen (ctxKey w.vf w.ctx) 0

/-- Whether the starvation timer of a group has reached its limit; the stages of a folded chain park as one group, whose timer is that of
its running stage (R174, R201, R202). -/
def State.late (s : State) (x : Group) : Bool :=
  let due := fun (y : Group) => match s.starveLimit (s.partOf y) (gstCls y.gst) with
    | some n => decide (n ≤ s.starved y)
    | none => false
  due x && (!(s.unit x.unit).foldedChain || (s.onStage x &&
    (s.streamHeld x.unit || (s.liveGroups x.unit).all fun p => p.2.st = .parked && due p.2)))

/-- Whether a saved unit is ready for placement: saved by R163 to R165, or a group of it no longer parks, or a timer of it has
expired (R172, R174). -/
def State.unitReady (s : State) (u : Nat) : Bool :=
  let x := s.unit u
  x.swapped && !x.preempted && (x.back || (s.liveGroups u).any fun p => p.2.st != .parked || s.late p.2)

/-- Partition, class and priority of each party that waits for placement: saved units that are ready, and works with blocks
not placed. A chain ranks by the class that its record declares (DESIGN CHOICE, log 130). -/
def State.waiting (s : State) : List (Nat × Nat × Nat) :=
  (s.units.filterMap fun p =>
    let w := s.work p.2.work
    if s.unitReady p.1 && !s.frozen (ctxKey w.vf w.ctx) 0 then (s.ctxPart w.vf w.ctx).map fun q => (q, w.cls, w.prio) else none) ++
  (s.works.filterMap fun p =>
    let w := p.2
    if w.phase = .accepted && w.next < w.total && !s.frozen (ctxKey w.vf w.ctx) 0 then
      (s.ctxPart w.vf w.ctx).map fun q => (q, w.cls, w.prio)
    else none)

/-- Whether a W placement would take resources that C or P work of the partition waits for (R161). -/
def State.wBarred (s : State) (p cls : Nat) : Bool := cls = 2 && s.waiting.any fun e => e.1 = p && e.2.1 != 2

/-- Whether a swapped-out unit of a priority is ready in a partition and may be placed there: it goes before a block not yet started
(R161, R172). -/
def State.readyFirst (s : State) (p prio : Nat) : Bool :=
  s.units.any fun e =>
    let w := s.work e.2.work
    s.unitReady e.1 && !e.2.back && w.prio = prio && s.moves w && s.ctxPart w.vf w.ctx = some p && !s.wBarred p w.cls

/-- The works of a partition and priority with P blocks not placed, and the P units saved before: the waiting list of R163. -/
def State.queueAhead (s : State) (p prio : Nat) : List Nat × List Nat :=
  let mine := fun (w : Work) => w.cls = 1 && w.prio = prio && s.moves w && s.ctxPart w.vf w.ctx = some p
  ((s.works.filter fun e => e.2.phase = .accepted && e.2.next < e.2.total && mine e.2).map (·.1),
    (s.units.filter fun e => s.unitReady e.1 && e.2.back && mine (s.work e.2.work)).map (·.1))

/-- Whether something that stood before a saved unit on the waiting list still waits (R163). -/
def State.stillBehind (s : State) (x : UnitSt) : Bool :=
  x.behindW.any (fun k => let w := s.work k; w.phase = .accepted && w.next < w.total && s.moves w) ||
    x.behindU.any fun u => s.unitReady u && (s.unit u).back && s.moves (s.work (s.unit u).work)

/-! ## Starting a unit (R47, R128, R155, R279, R284) -/

/-- A group of a new unit, its pages pinned as they have been translated (R130). -/
def State.newGroup (s : State) (u core gix stage entry regs j : Nat) (w : Work) (pins : Tbl (Nat × Nat)) : State :=
  let id := s.groups.fresh
  let key := ctxKey w.vf w.ctx
  let c := s.ctx key
  let t := (s.core core).cycle
  let die := coreDie core
  let d := if w.drf then s.freeDraft die else none
  let x : Group := { Group.blank with
    unit := u
    core := core
    gix := gix
    stage := stage
    regs := regs
    wide := Fin.ofNat 3 (w.beats - 1)
    win := w.pbase + j * winSize w.plim w.dspill w.beats
    plim := w.plim
    dspill := w.dspill
    entry := entry
    prio := w.prio
    arg := w.argp
    bix := (s.unit u).bix
    gpb := if w.chn then stabNst w.stab else w.gpb
    owner := c.owner
    depth := w.depth
    draft := d.map fun e => (die, e)
    pins := pins
    aside := if w.isTask then regs * w.beats else 0 }
  let x := { x.restart w.cls w.drf with st := .pending, nextIssue := t, glossAt := t, readySince := t, boostAt := t, parkedAt := t }
  let s := match d with
    | some e => s.setDraft (die, e) .opened
    | none => s
  (s.setGrp id x).setCtx key { c with owner := (c.owner + 1) % 16777216 }

/-- The links of a chain as it starts (R199-R201). -/
def chainLinks (w : Work) : List Link :=
  (List.range (stabNlk w.stab)).map fun j =>
    let l := stabLink w.stab j
    let d := w.sdesc.getD j []
    ⟨linkKind l, linkPs l, linkPq l, linkCs l, linkCq l, [], pair48 (wAt d 0) (wAt d 1), wAt d 2, wAt d 3, (wAt d 4).toNat, 0, [],
      false⟩

/-- The lowest task window of a private base that no live task of the context holds (R128). -/
def State.taskSlot (s : State) (w : Work) : Option Nat :=
  (List.range w.ntw).find? fun j => !s.units.any fun p =>
    let v := s.work p.2.work
    !p.2.done && p.2.slotWin = j && v.isTask && v.pbase = w.pbase && v.vf = w.vf && v.ctx = w.ctx

/-- The pages that R130 pins for some windows of a work translated for a core, window by window: none once one of them cannot be, and
placement waits for its pager. -/
def State.pinWindows (key core : Nat) (w : Work) : List Nat → State → State × Option (List (Tbl (Nat × Nat)))
  | [], s => (s, some [])
  | j :: js, s =>
    match State.pinList key core (pinPages (w.pbase + j * winSize w.plim w.dspill w.beats) w.plim w.dspill w.beats) s with
    | (s, some t) =>
      let r := State.pinWindows key core w js s
      (r.1, r.2.map (t :: ·))
    | (s, none) => (s, none)

/-- The windows that the next n blocks of a work take, or its stages, or its task window (R128). -/
def Work.nextWindows (w : Work) (n slot : Nat) : List Nat :=
  if w.chn then List.range (stabNst w.stab) else if w.isTask then [slot] else (List.range (n * w.gpb)).map (w.next * w.gpb + ·)

/-- A block, task or chain of an accepted work starts: its footprint is zeroed, the pages of its windows are pinned, its groups start in
the same cycle; a chain is spread over its cores or folded on one. -/
def State.start (s : State) (k : Nat) (cores : List Nat) (slot : Nat) (folded : Bool) (pins : List (Tbl (Nat × Nat))) : State :=
  let w := s.work k
  let u := s.units.fresh
  let c0 := cores.headD 0
  let s := (cores.map coreCl).eraseDups.foldl (fun s c => s.l1Mode c w.fused) s
  let x : UnitSt := { UnitSt.blank with
    work := k
    bix := w.next
    cores := if w.chn then cores else w.spanOf c0
    foot := w.foot
    scr := List.replicate w.foot 0#8
    chain := if w.chn then some ⟨folded, stabForm w.stab, false, 0, w.stabVa, chainLinks w⟩ else none
    quantum := (s.core c0).cycle
    slotWin := slot }
  let free := Config.coreSlots - s.slotsUsed c0
  let s := (s.setUnit u x).setWork k { w with next := w.next + 1, live := w.live + 1 }
  let s := if w.handler then s.servRun (ctxKey w.vf w.ctx) true else s
  if w.chn then
    (List.range (stabNst w.stab)).foldl (fun s i =>
      s.newGroup u (cores.getD i c0) i i (stabPc w.stab i) (stabRegs w.stab i) i w (pins.getD i [])) s
  else
    (List.range w.gpb).foldl (fun s i =>
      s.newGroup u (if i < free then c0 else c0 + 1) i 0 w.entry w.regs (if w.isTask then slot else x.bix * w.gpb + i) w (pins.getD i [])) s

/-- Whether a work may be placed in its partition now. -/
def State.placeable (s : State) (k : Nat) : Option Nat :=
  let w := s.work k
  if w.phase = .accepted && w.next < w.total && !s.frozen (ctxKey w.vf w.ctx) 0 && !s.frozen (ctxKey w.vf w.ctx) 5 then
    match s.ctxPart w.vf w.ctx with
    | some p => if s.wBarred p w.cls || s.readyFirst p w.prio then none else some p
    | none => none
  else none

/-- Whether a draft of a work has an entry on the die of a core (R284). -/
def State.draftRoom (s : State) (w : Work) (c : Nat) : Bool := !w.drf || (s.freeDraft (coreDie c)).isSome

/-- Blocks of a gang placed one after the other on their cores (R155, R161): all of them, or none. -/
def State.startAll (p k : Nat) : List Nat → List (Tbl (Nat × Nat)) → State → Option State
  | [], _, s => some s
  | c :: cs, pins, s =>
    let w := s.work k
    if s.roomAt p w c w.gpb w.foot && s.draftRoom w c then State.startAll p k cs (pins.drop w.gpb) (s.start k [c] 0 false pins)
    else none

/-- Whether a chain fits spread on some cores: one for each stage, of one cluster, the head's with the footprint (R178,
R201). -/
def State.spreadFits (s : State) (p : Nat) (w : Work) (cores : List Nat) : Bool :=
  cores.length = stabNst w.stab && cores.eraseDups.length = cores.length && (cores.map coreCl).eraseDups.length = 1 &&
    cores.zipIdx.all fun c => s.roomAt p w c.1 1 (if c.2 = 0 then w.foot else 0)

/-- The ways to take n of some cores in turn. -/
def picks : Nat → List Nat → List (List Nat)
  | 0, _ => [[]]
  | n + 1, l => l.flatMap fun c => (picks n (l.filter (· != c))).map (c :: ·)

/-- Some cores of a partition on which a chain fits spread, if there are any. -/
def State.spreadOn (s : State) (p : Nat) (w : Work) : Option (List Nat) :=
  let cls := (s.quarters p).flatMap fun q => (List.range 24).map (q * 24 + ·)
  cls.findSome? fun cl =>
    (picks (stabNst w.stab) ((List.range 4).map (cl * 4 + ·))).find? fun c => s.spreadFits p w c

/-- The core of each group of a unit put back on some cores: of a spread chain each stage its own. -/
def State.seatOf (s : State) (u : Nat) (cores : List Nat) (g : Nat) : Nat :=
  let w := s.work (s.unit u).work
  let c0 := cores.headD 0
  if w.chn then (if (s.unit u).foldedChain then c0 else cores.getD g c0)
  else if g < Config.coreSlots - s.slotsUsed c0 then c0 else c0 + 1

/-- The pages that R130 pins for the groups of a unit about to be put back. -/
def State.pinUnit (s : State) (u : Nat) (cores : List Nat) : State × Option (List (Nat × Tbl (Nat × Nat))) :=
  let w := s.work (s.unit u).work
  State.pinAll (ctxKey w.vf w.ctx) (s.seatOf u cores) (s.liveGroups u) s

/-- A saved unit put back on a core, or on the cores of a spread chain, its pages pinned as they have been translated (R130, R172, R375);
a parked group whose timer has expired meanwhile traps (R174). -/
def State.putBack (s : State) (u : Nat) (cores : List Nat) (pins : List (Nat × Tbl (Nat × Nat))) : State :=
  let w := s.work (s.unit u).work
  let seat := s.seatOf u cores
  let s := (cores.map coreCl).eraseDups.foldl (fun s c => s.l1Mode c w.fused) s
  let s := s.restoreUnit u (if w.chn then cores else w.spanOf (cores.headD 0)) seat pins
  ((s.liveGroups u).filter fun p => p.2.st = .parked && !p.2.held && s.late p.2 && !(s.unit u).swapped).foldl (fun s p =>
    s.raise p.1 1 ⟨0x0A, toW p.2.waitWords.1, p.2.pc, 1, false⟩) s

/-- Saved units placed one after the other, with the pages of each as they have been translated: all of them, or none. -/
def State.putAll (p : Nat) : List (Nat × Nat) → List (List (Nat × Tbl (Nat × Nat))) → State → Option State
  | [], _, s => some s
  | (u, c) :: r, pins, s =>
    let w := s.work (s.unit u).work
    let n := if (s.unit u).foldedChain then 1 else (s.liveGroups u).length
    if s.roomAt p w c n (s.unit u).foot && s.draftRoom w c then State.putAll p r (pins.drop 1) (s.putBack u [c] (pins.headD []))
    else none

/-- The pages of several saved units translated, as they will be pinned; none once one cannot be. -/
def State.pinUnits : List (Nat × Nat) → State → State × Option (List (List (Nat × Tbl (Nat × Nat))))
  | [], s => (s, some [])
  | (u, c) :: r, s =>
    match s.pinUnit u [c] with
    | (s, some t) =>
      let q := State.pinUnits r s
      (q.1, q.2.map (t :: ·))
    | (s, none) => (s, none)

/-- The units of a gang that are saved together (R165, R172): of a class C launch all, else the unit itself. -/
def State.gangOf (s : State) (u : Nat) : List Nat :=
  let x := s.unit u
  let w := s.work x.work
  if w.cls = 0 && !w.chn then (s.units.filter fun p => p.2.work = x.work && !p.2.done).map (·.1) else [u]

/-- A placement that waits while a page it pins is not there, and then starts (R130, R324). -/
def State.startPinned (s : State) (k core n slot : Nat) (go : List (Tbl (Nat × Nat)) → State → Option State) : State :=
  let w := s.work k
  match go [] s with
  | none => s
  | some _ =>
    match State.pinWindows (ctxKey w.vf w.ctx) core w (w.nextWindows n slot) s with
    | (s, none) => s
    | (s, some t) => (go t s).getD s

/-- BLOCK_PLACE (R155, R161, R163, R172, R178): a block, a whole gang, a chain or saved units, where everything fits. -/
def execBlockPlace (pl : Placement) (s : State) : Out State :=
  match pl with
  | .block k c =>
    let w := s.work k
    match s.placeable k with
    | some p =>
      if w.isTask then .next s
      else if w.chn then
        (if (s.spreadOn p w).isSome && stabForm w.stab != 2 || !s.roomAt p w c 1 w.foot then .next s
        else .next (s.startPinned k c 1 0 fun t s => some (s.start k [c] 0 true t)))
      else if w.cls = 0 && w.blocks != 1 then .next s
      else if s.roomAt p w c w.gpb w.foot && s.draftRoom w c then
        .next (s.startPinned k c 1 0 fun t s => some (s.start k [c] 0 false t))
      else .next s
    | none => .next s
  | .gang k cores =>
    let w := s.work k
    match s.placeable k with
    | some p =>
      if w.isTask then .next s
      else if w.chn then
        (if s.spreadFits p w cores && stabForm w.stab != 2 then
          .next (s.startPinned k (cores.headD 0) 1 0 fun t s => some (s.start k cores 0 false t)) else .next s)
      else if w.cls != 0 || cores.length != w.blocks || w.next != 0 then .next s
      else .next (s.startPinned k (cores.headD 0) w.blocks 0 fun t s => State.startAll p k cores t s)
    | none => .next s
  | .saved u cores =>
    let x := s.unit u
    let w := s.work x.work
    if !s.unitReady u || !s.moves w || s.stillBehind x then .next s
    else
      match s.ctxPart w.vf w.ctx with
      | none => .next s
      | some p =>
        if s.wBarred p w.cls then .next s
        else if w.chn && !x.foldedChain then
          if s.spreadFits p w cores then
            match s.pinUnit u cores with
            | (s, some t) => .next (s.putBack u cores t)
            | (s, none) => .next s
          else .next s
        else
          let us := (s.gangOf u).filter fun v => (s.unit v).swapped
          if us.length != cores.length || (State.putAll p (us.zip cores) [] s).isNone then .next s
          else
            match State.pinUnits (us.zip cores) s with
            | (s, some t) => .next ((State.putAll p (us.zip cores) t s).getD s)
            | (s, none) => .next s

/-- Entries of a core set aside for tasks that have not entered the active set (R176). -/
def State.asideOn (s : State) (c : Nat) : Nat := (s.resident c).foldl (fun n p => n + p.2.aside) 0

/-- Entries set aside that active groups have taken, since the pool was otherwise empty, given back for good (R176). -/
def State.trimAside (s : State) : State :=
  (s.groups.filter fun p => p.2.aside != 0).foldl (fun s p =>
    s.modGrp p.1 fun g => { g with aside := g.aside - (s.entriesUsed g.core + s.asideOn g.core - Config.coreEntries) }) s

/-- TASK_PLACE (R176): a checked task leaves the cluster's queue for a core with a slot, scratch, entries and a window. -/
def execTaskPlace (k c : Nat) (s : State) : Out State :=
  let w := s.work k
  match s.placeable k with
  | some p =>
    let inQ := match w.src with
      | .task cl | .copy cl _ | .handler cl => coreCl c = cl && (s.cluster cl).taskQ.contains k
      | _ => false
    if !inQ || !s.roomAt p w c 1 w.foot || !s.draftRoom w c ||
        Config.coreEntries < s.entriesUsed c + s.asideOn c + w.regs * w.beats then .next s
    else
      match s.taskSlot w with
      | some j => .next (s.startPinned k c 1 j fun t s => some ((s.dequeue k).start k [c] j false t))
      | none => .next s
  | none => .next s

/-! ## Saves by the scheduler (R163-R165, R172) -/

/-- Whether a unit stands on cores and its context moves. -/
def State.unitHere (s : State) (u : Nat) : Bool :=
  let x := s.unit u
  let w := s.work x.work
  (s.units.find? u).isSome && !x.done && !s.unitAway u && !s.frozen (ctxKey w.vf w.ctx) 0

/-- Whether work that passes a test waits in the partition of a work. -/
def State.waitsFor (s : State) (w : Work) (f : Nat → Nat → Bool) : Bool :=
  s.waiting.any fun e => some e.1 = s.ctxPart w.vf w.ctx && f e.2.1 e.2.2

/-- QUANTUM_EXPIRY (R163): after 1,700,000 cycles a P block is saved where equal or higher P work waits, else runs on. -/
def execQuantumExpiry (u : Nat) (s : State) : Out State :=
  let x := s.unit u
  let w := s.work x.work
  let now := (s.core (x.cores.headD 0)).cycle
  if !s.unitHere u || w.cls != 1 || w.chn || now < x.quantum + 1700000 then .next s
  else if s.waitsFor w fun c p => c = 1 && w.prio ≤ p then
    match s.saveOne u true with
    | .next t =>
      let a := s.queueAhead ((s.ctxPart w.vf w.ctx).getD 0) w.prio
      .next (if (t.unit u).swapped then t.modUnit u fun x => { x with behindW := a.1, behindU := a.2 } else t)
    | e => e
  else .next (s.setUnit u { x with quantum := now })

/-- W_BLOCK_SAVE (R164): a W block gives its resources up to waiting C or P work. -/
def execWBlockSave (u : Nat) (s : State) : Out State :=
  let w := s.work (s.unit u).work
  if s.unitHere u && w.cls = 2 && !w.chn && s.waitsFor w (fun c _ => c != 2) then s.saveOne u true else .next s

/-- Units saved one after the other; all of them, or the state is as it was. -/
def State.saveAll (back : Bool) (s0 : State) : List Nat → State → Out State
  | [], s => .next s
  | u :: us, s =>
    match s.saveOne u back with
    | .next t => if (t.unit u).swapped then State.saveAll back s0 us t else .next s0
    | e => e

/-- GANG_PREEMPT (R165): higher-priority work waits, and every member of a C gang is saved together; a folded chain is a gang of
one, a spread chain is not saved. -/
def execGangPreempt (k : Nat) (s : State) : Out State :=
  let w := s.work k
  let us := (s.units.filter fun p => p.2.work = k && !p.2.done).map (·.1)
  let spread := us.any fun u => (s.unit u).chain.isSome && !(s.unit u).foldedChain
  if us != [] && (w.cls = 0 || w.chn) && !spread && us.all s.unitHere && w.next = w.total && s.waitsFor w (fun _ p => w.prio < p)
  then State.saveAll true s us s else .next s

/-- Whether the satisfier of a wait lies outside the gang that parks (R172). -/
def WaitOn.outside : WaitOn → Bool
  | .barPhase _ _ | .barRoom _ _ | .partner _ _ _ _ _ | .yield | .done => false
  | _ => true

/-- A wait on a port of a chain. -/
def WaitOn.onPort : WaitOn → Bool
  | .portItem _ | .portRoom _ => true
  | _ => false

/-- Whether every group of a unit is parked, on conditions a swap-out may leave to others, or has exited; a folded chain parks as one
group, and what it waits for lies outside where a stage of it waits on no port (R172, R178). A chain with a form switch pending takes
that first (R203, R211). -/
def State.allParked (s : State) (u : Nat) (cls : Nat) : Bool :=
  let out := fun (g : Group) => match g.wait with
    | some (_, w) => w.outside
    | none => false
  let gs := s.liveGroups u
  gs.all (fun p => p.2.st = .parked && !p.2.held) &&
    if (s.unit u).chain.isSome then
      (s.unit u).chain.any (fun c => c.folded && !c.pending) && gs.any fun p => out p.2 && !(p.2.wait.any fun w => w.2.onPort)
    else cls != 0 || gs.all fun p => out p.2

/-- SWAP_OUT (R172): parked work leaves its slots, a C gang whole, to place work that waits. -/
def execSwapOut (u : Nat) (s : State) : Out State :=
  let w := s.work (s.unit u).work
  let us := s.gangOf u
  if us.all s.unitHere && us.all (fun v => s.allParked v w.cls) && s.waitsFor w (fun _ _ => true)
  then State.saveAll false s us s else .next s

/-! ## Starvation (R174) -/

/-- STARVE_TIMER_EXPIRY (R174): a parked group's timer reaches its limit; a wake in the same cycle comes first. The stages of a
folded chain park as one. -/
def execStarveTimerExpiry (g : Nat) (s : State) : Out State :=
  match s.groups.find? g with
  | none => .next s
  | some x =>
    match x.wait with
    | some (c, w) =>
      if x.st != .parked || x.held || !s.late x || s.holds g w || s.frozen (s.keyOf x) 0 || s.unitAway x.unit then .next s
      else .next (s.raise g 1 ⟨0x0A, toW c, x.pc, 1, false⟩)
    | none => .next s

/-! ## Migration (R179, R180) -/

/-- The mapped cells of a group taken into entries of its new core (R68, R179). -/
def State.remap (s : State) (gid : Nat) : State × Bool :=
  let cells := (s.grp gid).vr
  let s := s.modGrp gid fun g => { g with vr := cells.filter fun e => match e.2 with
    | .mapped _ _ => false
    | _ => true }
  cells.foldl (fun (a : State × Bool) e =>
    match e.2 with
    | .mapped v _ =>
      let r := a.1.spill (a.1.grp gid).core
      (r.1.modGrp gid fun g => { g with vr := g.vr.set e.1 (.mapped v (s.core g.core).cycle) }, a.2 && r.2)
    | _ => a) (s, true)

/-- A resident unit at rest moved to another core with its state and scratch; its quantum restarts in the cycles of that core (DESIGN
CHOICE, log 122). -/
def State.moveUnit (s : State) (u core : Nat) : State × Bool :=
  let x := s.unit u
  let w := s.work x.work
  let old := x.cores.headD 0
  let free := Config.coreSlots - s.slotsUsed core
  let gs := (s.liveGroups u).map (·.1)
  let s := s.l1Mode (coreCl core) w.fused
  let s := s.setUnit u { x with cores := w.spanOf core, quantum := (s.core core).cycle }
  let s := s.setCore old { s.core old with fwd := (s.core old).fwd ++ [u] }
  gs.zipIdx.foldl (fun (a : State × Bool) p =>
    let s := a.1.rehome p.1 (if p.2 < free then core else core + 1)
    let r := s.remap p.1
    (r.1, a.2 && r.2)) (s, true)

/-- MIGRATE_UNIT (R179, R180): a block, task or folded chain moves to a core with room, once it is at rest and the old core has
a forwarding entry. -/
def execMigrateUnit (u core : Nat) (s : State) : Out State :=
  let x := s.unit u
  let w := s.work x.work
  let old := x.cores.headD 0
  let n := if x.foldedChain then 1 else (s.liveGroups u).length
  let same := x.cores.any fun c => (w.spanOf core).contains c
  match s.ctxPart w.vf w.ctx with
  | none => .next s
  | some p =>
    if !s.unitHere u || (x.chain.isSome && !x.foldedChain) || same || 16 ≤ (s.core old).fwd.length ||
        !s.roomAt p w core n x.foot then .next s
    else
      match s.restUnit u with
      | .next s =>
        if !s.quiet u then .next s
        else
          let r := s.moveUnit u core
          if r.2 then .next r.1 else .fault .backingUnmapped
      | e => e

/-- FORWARD_ENTRY_RELEASE (R180): every engine has acknowledged a unit's new location. -/
def execForwardEntryRelease (c u : Nat) (s : State) : Out State :=
  .next (s.setCore c { s.core c with fwd := (s.core c).fwd.erase u })

end Sys2Proof.Machine
end

