-- ==== Sys2Proof/Machine/Chain.lean ====
section
/-!
DEFINITION. Sys2Proof/Machine/Chain.lean: form switches of a chain (R203-R205) and its streams (R200).
-/
namespace Sys2Proof.Machine
open Host (Outcome)

/-! ## Form switches (R203-R205) -/

/-- The machine with a unit off its cores, to ask what would fit. -/
def State.without (s : State) (u : Nat) : State := s.modUnit u fun x => { x with cores := [], swapped := true }

/-- CHAIN_SWITCH_REQUEST (R204): the controller asks a spread chain to fold when its cores are taken or its setting says so, and
a folded one to spread when its reservation fits and the setting allows it. -/
def execChainSwitchRequest (u : Nat) (s : State) : Out State :=
  let x := s.unit u
  let w := s.work x.work
  match x.chain, s.ctxPart w.vf w.ctx with
  | some c, some p =>
    let ask := if c.folded then c.setting != 2 && ((s.without u).spreadOn p w).isSome
      else c.setting = 2 || s.waitsFor w (fun _ q => w.prio < q)
    if c.pending || x.done || !ask then .next s
    else .next (s.setUnit u { x with chain := some { c with pending := true } })
  | _, _ => .next s

/-- Whether a chain stands at a fix point (R203). -/
def State.fixPoint (s : State) (u : Nat) (c : ChainSt) : Bool :=
  (c.links.all fun l => l.items.length ≤ 1) &&
    (s.groupsOf u).all fun p => p.2.st = .exited || (p.2.st = .parked && match p.2.wait with
      | some (7, _) | some (14, _) => true
      | _ => false)

/-- The most downstream stage whose input holds an item, or the head (R203; DESIGN CHOICE, log 13). -/
def ChainSt.resumeAt (c : ChainSt) : Nat :=
  ((c.links.filter fun l => l.kind != 2 && l.items != []).map (·.cs)).foldl (fun b k =>
    match b with
    | none => some k
    | some m => if stageRank 4 c.links m < stageRank 4 c.links k || (stageRank 4 c.links m = stageRank 4 c.links k && m < k)
        then some k else b) (none : Option Nat) |>.getD 0

/-- The core of a stage of a chain in a form. -/
def ChainSt.seat (c : ChainSt) (cores : List Nat) (stage : Nat) : Nat := cores.getD (if c.folded then 0 else stage) (cores.headD 0)

/-- The cores that stages of a chain leave as it takes a form: on each the chain holds a forwarding entry (R180, R205; log 129). -/
def State.leaving (s : State) (u : Nat) (c : ChainSt) (cores : List Nat) : List Nat :=
  (((s.liveGroups u).filter fun p => p.2.core != c.seat cores p.2.stage).map (·.2.core)).eraseDups

/-- The stages of a chain at rest moved to their cores in the other form (R180, R205). -/
def State.switchForm (s : State) (u : Nat) (c : ChainSt) (cores : List Nat) : State × Bool :=
  let w := s.work (s.unit u).work
  let s := (s.leaving u c cores).foldl (fun s k => s.setCore k { s.core k with fwd := (s.core k).fwd ++ [u] }) s
  let s := (cores.map coreCl).eraseDups.foldl (fun s k => s.l1Mode k w.fused) (s.without u)
  let s := s.modUnit u fun x => { x with cores := cores, swapped := false, chain := some c }
  ((s.liveGroups u).map (·.1)).foldl (fun (a : State × Bool) g =>
    let s := a.1.rehome g (c.seat cores (a.1.grp g).stage)
    let r := s.remap g
    (r.1, a.2 && r.2)) (s, true)

/-- A folded chain goes on at a stage: parked at chain.fix at its next word, parked on an empty port it issues again, which takes it to
that port's producer (R202, R203). A stage that cannot run yields to the most downstream one that can. -/
def State.resumeStage (s : State) (u k : Nat) : State :=
  match (s.groupsOf u).find? fun p => p.2.stage = k with
  | some (g, x) =>
    match x.st, x.wait, x.held with
    | .parked, some (_, w), false =>
      (s.setGrp g { x.ready (s.core x.core).cycle with
        wait := none
        pc := match w with
          | .formSwitch next => next
          | _ => x.pc }).runStage u k false
    | _, _, _ => s.giveWay u false
  | none => s.giveWay u false

/-- CHAIN_FORM_SWITCH (R203-R205): at a fix point the pending switch is taken, once each core that a stage leaves has a forwarding entry
(R180), and in folded form the stage at which execution resumes runs first; a switch to spread whose reservation no longer fits is
withdrawn. -/
def execChainFormSwitch (u : Nat) (cores : List Nat) (s : State) : Out State :=
  let x := s.unit u
  let w := s.work x.work
  match x.chain, s.ctxPart w.vf w.ctx with
  | some c, some p =>
    if !c.pending || !s.unitHere u || !s.fixPoint u c then .next s
    else if c.folded && ((s.without u).spreadOn p w).isNone then
      .next (s.setUnit u { x with chain := some { c with pending := false } })
    else
      let fits := if c.folded then (s.without u).spreadFits p w cores
        else cores.length = 1 && x.cores.contains (cores.headD 0) && (s.without u).roomAt p w (cores.headD 0) 1 w.foot
      let c1 := { c with folded := !c.folded, pending := false, run := c.resumeAt }
      if !fits || (s.leaving u c1 cores).any fun k => 16 ≤ (s.core k).fwd.length then .next s
      else
        match s.restUnit u with
        | .next s =>
          if !s.quiet u then .next s
          else
            let r := s.switchForm u c1 cores
            if r.2 then .next (if c1.folded then r.1.resumeStage u c1.run else r.1) else .fault .backingUnmapped
        | e => e
  | _, _ => .next s

/-! ## Streams (R200) -/

/-- Address of lane l of a stream's next item (R200). -/
def Link.addr (l : Link) (lane : Nat) : Nat :=
  ((Int.ofNat l.sbase + Int.ofNat l.next * l.istr.toInt + Int.ofNat lane * l.lstr.toInt) % (281474976710656 : Int)).toNat

/-- The cluster in which a chain's streams act: the one it stands in, or last stood in. -/
def State.chainCl (s : State) (u : Nat) : Nat :=
  match (s.unit u).cores, s.groupsOf u with
  | c :: _, _ => coreCl c
  | [], p :: _ => coreCl p.2.core
  | [], [] => 0

/-- A record of a stream for the context rung (R323, R363). -/
def State.streamReport (s : State) (u cause : Nat) (info : Word) : State :=
  let x := s.unit u
  let w := s.work x.work
  s.trapUp ⟨2, ctxKey w.vf w.ctx, 0, some u, none, 3, ⟨cause, info, 0, 2, false⟩, toW w.serial, toW x.bix,
    coreCid (s.chainCl u * 4), 0, 0#32⟩

/-- A link of a chain that may move an item now. A chain whose stages have all exited stores the items left in its store streams: they are
visible before its completion word (R200). -/
def State.streamAt (s : State) (u k kind : Nat) : Option (ChainSt × Link) :=
  match (s.unit u).chain with
  | some c =>
    match c.links[k]? with
    | some l =>
      if l.kind = kind && l.next < l.cnt && !l.ended && (s.unitHere u || (kind = 2 && (s.unit u).done && s.moves (s.work (s.unit u).work))) && (l.keys = [] || l.keys.any fun f => !s.fkeys.contains f)
      then some (c, l) else none
    | none => none
  | none => none

/-- A stream whose access fails: it waits on the page, or it ends and the context rung is told. -/
def State.streamFail (s : State) (u k : Nat) (l : Link) (keys : List FKey) (va : Nat) : Tr → State
  | .fault _ => s.setLink u k { l with keys := keys }
  | t => (s.setLink u k { l with ended := true }).streamReport u (t.engineFail va).1 (t.engineFail va).2

/-- Whether another device refuses a stream's access (R403). -/
def State.streamRefused (s : State) (m : Mapped) (vas : List Nat) : Option Nat :=
  match vas.find? fun a => windowPa (m.at a).1 with
  | some a => if Config.freeBit (s.free * 65536 + 65531) then some a else none
  | none => none

/-- Whether a stream's access would leave through the fabric for a partition that may not send (R401). -/
def State.streamUnsent (s : State) (key : Nat) (m : Mapped) (vas : List Nat) : Bool :=
  !s.sends key && vas.any fun a => windowPa (m.at a).1

/-- STREAM_LOAD_ITEM (R200): the next item of a load stream goes into its port. -/
def execStreamLoadItem (u k : Nat) (s : State) : Out State :=
  match s.streamAt u k 1 with
  | none => .next s
  | some (c, l) =>
    if (if c.folded then 1 else 8) ≤ l.items.length || (c.pending && l.items != []) then .next s
    else
      let w := s.work (s.unit u).work
      let cl := s.chainCl u
      let vas := (List.range (32 * w.beats)).map l.addr
      let m := s.mapAll (ctxKey w.vf w.ctx) cl .read 6 vas
      match m.fail with
      | some (va, t) => .next (m.s.streamFail u k l m.keys va t)
      | none =>
        if m.s.streamUnsent (ctxKey w.vf w.ctx) m vas then .next m.s
        else match m.s.streamRefused m vas with
        | some va => .next (m.s.streamFail u k l [] va .perm)
        | none =>
          let s := (vas.map fun a => (m.at a).1 / 128).eraseDups.foldl (fun s n => s.combine n) m.s
          let word := fun a => leWord ((List.range 4).map fun i => s.engineByte cl none ((m.at a).1 + i))
          let it : Item := ⟨(List.range w.beats).map fun b => (List.range 32).map fun i => word (l.addr (32 * b + i)),
            List.replicate w.beats 0xFFFFFFFF#32⟩
          .next (s.setLink u k { l with items := l.items ++ [it], next := l.next + 1, keys := [] })

/-- One word of a store stream at its home; at a helped line with a slot in use it is not written and the context rung is told
(R282). -/
def State.streamPut (s : State) (u vf : Nat) (m : Mapped) (p : Nat × Word) : State :=
  let q := m.at p.1
  if s.suppresses (q.1 / 128) then s.streamReport u 0x07 (toW p.1)
  else s.engineWrite none vf q.1 q.2 (leBytes 4 p.2.toNat)

/-- STREAM_STORE_ITEM (R200): the oldest item of a store stream is stored in the lanes of its mask. -/
def execStreamStoreItem (u k : Nat) (s : State) : Out State :=
  match s.streamAt u k 2 with
  | none => .next s
  | some (_, l) =>
    match l.items with
    | [] => .next s
    | it :: rest =>
      let w := s.work (s.unit u).work
      let cl := s.chainCl u
      let ws := (List.range (32 * w.beats)).filterMap fun i =>
        if (wAt it.mask (i / 32)).getLsbD (i % 32) then some (l.addr i, (it.vals.getD (i / 32) zeroLanes).getD (i % 32) 0#32)
        else none
      let m := s.mapAll (ctxKey w.vf w.ctx) cl .write 6 (ws.map (·.1))
      match m.fail with
      | some (va, t) => .next (m.s.streamFail u k l m.keys va t)
      | none =>
        if m.s.streamUnsent (ctxKey w.vf w.ctx) m (ws.map (·.1)) then .next m.s
        else match m.s.streamRefused m (ws.map (·.1)) with
        | some va => .next (m.s.streamFail u k l [] va .perm)
        | none =>
          let s := ws.foldl (fun s p => s.streamPut u w.vf m p) m.s
          .next (s.setLink u k { l with items := rest, next := l.next + 1, keys := [] })

end Sys2Proof.Machine
end

