-- ==== Sys2Proof/Machine/Exchange.lean ====
section
/-!
DEFINITION. Sys2Proof/Machine/Exchange.lean: lane exchange: shuffle, scans, reductions and votes (R86-R91).
-/
namespace Sys2Proof.Machine

/-- The value of source i in lane position l, over every beat (R86). -/
def Gath.lane (q : Gath) (i l : Nat) : Word :=
  match (q.rows ++ q.rest).find? fun r => r.b = l / 32 with
  | some r => r.at i (l % 32)
  | none => 0#32

/-- The active lane positions, in rising order. -/
def Gath.active (q : Gath) : List Nat := q.rows.flatMap fun r => r.lanes.map fun l => 32 * r.b + l

/-- The rows as written by the last issued beat (R86). -/
def Gath.late (q : Gath) : List Row := q.rows.map fun r => { r with cyc := q.last }

/-- VSHFL (R87). -/
def execVshfl (o : FR) (s : State) : Out State :=
  issueV (.vshfl o) o.s (fun x s => do
    let q ← gather x s true [x.srcA o.a o.fa, x.srcB o.b o.fb] [x.d o.d] []
    let s := dryAll q.s x.gid (x.dryAB o.a o.b o.fa o.fb)
    let s ← writeRows x.gid (x.d o.d) 6 (q.late.map fun r => (r, (List.range 32).map fun l =>
      let i := (r.at 1 l).toNat
      if i < 32 * x.g.beats then q.lane 0 i else r.at 0 l)) s
    pure ⟨s, q.last, none, none, none⟩) s

/-- A combination with its identity, its step with flags, and how the first element enters (R88-R90). -/
structure Comb where
  ident : Word
  first : Word → Word × Nat
  step  : Word → Word → Word × Nat

/-- An integer combination. -/
def combI (e : Word) (f : Word → Word → Word) : Comb := ⟨e, fun a => (a, 0), fun x a => (f x a, 0)⟩

/-- The float addition of scans and reductions under gst.rm and gst.dn (R90). -/
def combF (g : Word) : Comb :=
  let v : FEnv := ⟨RM.ofCode (gstRm g), gstDn g, false⟩
  ⟨0#32,
    fun a => match fmt32.val a.toNat with
      | .nan true => (toW fmt32.nan, fNV)
      | _ => (toW (fmt32.flush (gstDn g) a.toNat), 0),
    fun x a =>
      let r := fmt32.add v x.toNat a.toNat
      (toW r.1, r.2)⟩

/-- The running values over the active lanes: lane, value before it, value with it, flags (R88). -/
def runScan (c : Comb) (val : Nat → Word) : List Nat → Option Word → List (Nat × Word × Word × Nat)
  | [], _ => []
  | l :: ls, none =>
    let r := c.first (val l)
    (l, c.ident, r.1, r.2) :: runScan c val ls (some r.1)
  | l :: ls, some x =>
    let r := c.step x (val l)
    (l, x, r.1, r.2) :: runScan c val ls (some r.1)

/-- The flags of each beat of a scan. -/
def scanFlags (q : Gath) (rs : List (Nat × Word × Word × Nat)) : List (Row × Nat) :=
  q.late.map fun r => (r, rs.foldl (fun m p => if p.1 / 32 = r.b then m ||| p.2.2.2 else m) 0)

/-- A scan (R88, R90). -/
def scan (i : Instr) (o : FUx) (c : Word → Comb) (s : State) : Out State :=
  issueV i o.s (fun x s => do
    let q ← gather x s true [x.srcA o.a o.fa] [x.d o.d] []
    let ex := o.x = 1#1 || (match x.gl.gmod with
      | some m => m.x = 1#1
      | none => false)
    let rs := runScan (c x.g.gst) (q.lane 0) q.active none
    let s := dryAll q.s x.gid (dryOf (x.a o.a) o.a o.fa)
    let s ← writeRows x.gid (x.d o.d) 6 (q.late.map fun r => (r, (List.range 32).map fun l =>
      match rs.find? fun p => p.1 = 32 * r.b + l with
      | some p => if ex then p.2.1 else p.2.2.1
      | none => 0#32)) s
    let r := raiseBeats x s 6 (scanFlags q rs)
    pure ⟨r.1, q.last, none, r.2, none⟩) s

/-- A reduction into scalar d (R89, R90). -/
def reduce (i : Instr) (o : FD) (c : Word → Comb) (s : State) : Out State :=
  issueV i o.s (fun x s => do
    let d := x.d o.d
    let q ← gather x s true [.vec (x.a o.a)] [] [(d, none)]
    let rs := runScan (c x.g.gst) (q.lane 0) q.active none
    let s := dryAll q.s x.gid (dryOf (x.a o.a) o.a 0#1)
    let v := (rs.getLast?.map fun p => p.2.2.1).getD (c x.g.gst).ident
    let s := if q.rows = [] then s else writeScal s x.gid d v q.last 6
    let r := raiseBeats x s 6 (scanFlags q rs)
    pure ⟨r.1, q.last, none, r.2, none⟩) s

/-- A vote: the words it writes from d on, from the active lanes and those that pass (R91). -/
def vote (i : Instr) (o : FD) (n : IX → Nat) (f : List Nat → List Nat → List Word) (s : State) : Out State :=
  issueV i o.s (fun x s => do
    let d := x.d o.d
    let ds := if d = 56 then [56] else (List.range (n x)).map fun j => d + j
    let q ← gather x s true [.vec (x.a o.a)] [] (ds.map fun n => (n, none))
    let act := q.active
    let vs := f act (act.filter fun l => q.lane 0 l != 0#32)
    let s := dryAll q.s x.gid (dryOf (x.a o.a) o.a 0#1)
    let s := if q.rows = [] then s
      else ds.zipIdx.foldl (fun s p => writeScal s x.gid p.1 (vs.getD p.2 0#32) q.last 6) s
    pure ⟨s, q.last, none, none, none⟩) s

/-! ## The instructions -/

/-- VSCAN_ADD_I32 (R88). -/
def execVscanAddI32 (o : FUx) (s : State) : Out State := scan (.vscanAddI32 o) o (fun _ => combI 0#32 (fun a b => a + b)) s

/-- VSCAN_ADD_F32 (R90). -/
def execVscanAddF32 (o : FUx) (s : State) : Out State := scan (.vscanAddF32 o) o (combF) s

/-- VSCAN_MIN_I32 (R88). -/
def execVscanMinI32 (o : FUx) (s : State) : Out State := scan (.vscanMinI32 o) o (fun _ => combI 0x7FFFFFFF#32 minI) s

/-- VSCAN_MAX_I32 (R88). -/
def execVscanMaxI32 (o : FUx) (s : State) : Out State := scan (.vscanMaxI32 o) o (fun _ => combI 0x80000000#32 maxI) s

/-- VSCAN_MIN_N32 (R88). -/
def execVscanMinN32 (o : FUx) (s : State) : Out State := scan (.vscanMinN32 o) o (fun _ => combI 0xFFFFFFFF#32 minN) s

/-- VSCAN_MAX_N32 (R88). -/
def execVscanMaxN32 (o : FUx) (s : State) : Out State := scan (.vscanMaxN32 o) o (fun _ => combI 0#32 maxN) s

/-- VSCAN_AND (R88). -/
def execVscanAnd (o : FUx) (s : State) : Out State := scan (.vscanAnd o) o (fun _ => combI 0xFFFFFFFF#32 (fun a b => a &&& b)) s

/-- VSCAN_OR (R88). -/
def execVscanOr (o : FUx) (s : State) : Out State := scan (.vscanOr o) o (fun _ => combI 0#32 (fun a b => a ||| b)) s

/-- VSCAN_XOR (R88). -/
def execVscanXor (o : FUx) (s : State) : Out State := scan (.vscanXor o) o (fun _ => combI 0#32 (fun a b => a ^^^ b)) s

/-- VRED_ADD_I32 (R89). -/
def execVredAddI32 (o : FD) (s : State) : Out State := reduce (.vredAddI32 o) o (fun _ => combI 0#32 (fun a b => a + b)) s

/-- VRED_ADD_F32 (R90). -/
def execVredAddF32 (o : FD) (s : State) : Out State := reduce (.vredAddF32 o) o (combF) s

/-- VRED_MIN_I32 (R89). -/
def execVredMinI32 (o : FD) (s : State) : Out State := reduce (.vredMinI32 o) o (fun _ => combI 0x7FFFFFFF#32 minI) s

/-- VRED_MAX_I32 (R89). -/
def execVredMaxI32 (o : FD) (s : State) : Out State := reduce (.vredMaxI32 o) o (fun _ => combI 0x80000000#32 maxI) s

/-- VRED_MIN_N32 (R89). -/
def execVredMinN32 (o : FD) (s : State) : Out State := reduce (.vredMinN32 o) o (fun _ => combI 0xFFFFFFFF#32 minN) s

/-- VRED_MAX_N32 (R89). -/
def execVredMaxN32 (o : FD) (s : State) : Out State := reduce (.vredMaxN32 o) o (fun _ => combI 0#32 maxN) s

/-- VRED_AND (R89). -/
def execVredAnd (o : FD) (s : State) : Out State := reduce (.vredAnd o) o (fun _ => combI 0xFFFFFFFF#32 (fun a b => a &&& b)) s

/-- VRED_OR (R89). -/
def execVredOr (o : FD) (s : State) : Out State := reduce (.vredOr o) o (fun _ => combI 0#32 (fun a b => a ||| b)) s

/-- VRED_XOR (R89). -/
def execVredXor (o : FD) (s : State) : Out State := reduce (.vredXor o) o (fun _ => combI 0#32 (fun a b => a ^^^ b)) s

/-- VVOTE_ANY (R91). -/
def execVvoteAny (o : FD) (s : State) : Out State := vote (.vvoteAny o) o (fun _ => 1) (fun _ p => [boolW (p != [])]) s

/-- VVOTE_ALL (R91). -/
def execVvoteAll (o : FD) (s : State) : Out State := vote (.vvoteAll o) o (fun _ => 1) (fun a p => [boolW (a.length = p.length)]) s

/-- VVOTE_BALLOT (R91). -/
def execVvoteBallot (o : FD) (s : State) : Out State := vote (.vvoteBallot o) o (fun x => x.g.beats) (fun _ p => (List.range 3).map fun b => maskOf fun l => p.contains (32 * b + l)) s

/-- VVOTE_COUNT (R91). -/
def execVvoteCount (o : FD) (s : State) : Out State := vote (.vvoteCount o) o (fun _ => 1) (fun _ p => [toW p.length]) s

/-- VVOTE_FIRST (R91). -/
def execVvoteFirst (o : FD) (s : State) : Out State := vote (.vvoteFirst o) o (fun _ => 1) (fun _ p => [(p.head?.map toW).getD 0xFFFFFFFF#32]) s

end Sys2Proof.Machine
end

