-- ==== Sys2Proof/Machine/Notice.lean ====
section
/-!
DEFINITION. Sys2Proof/Machine/Notice.lean: helped lines and notices (R276-R283): npost, nread, ndone and the messages
COMMIT, CLAIM and RELEASE; the draft table's cleanup and replays (R284, R290); uncorrectable errors of the L2 (R291, R292).
-/
namespace Sys2Proof.Machine
open Host (Outcome)

/-! ## The layout of a helped line (R276) -/

/-- A slot: state, operation, owner, sequence, payload. -/
structure Slot where
  st  : Nat
  op  : Nat
  own : Nat
  seq : Word
  pay : Nat
  deriving DecidableEq, Repr

/-- A slot from its 16 bytes, and its bytes. -/
def slotOf (b : List Byte) : Slot :=
  let n := leNat b
  ⟨bits n 126 2, bits n 122 4, bits n 96 24, toW (bits n 64 32), bits n 0 64⟩
def Slot.bytes (x : Slot) : List Byte :=
  leBytes 16 (x.st * 2 ^ 126 + x.op * 2 ^ 122 + x.own * 2 ^ 96 + x.seq.toNat * 2 ^ 64 + x.pay)

/-- Slot i of a line. -/
def Mem.slot (m : Mem) (line i : Nat) : Slot := slotOf (m.bytes (line * 128 + 16 * i) 16)

/-- val, nseq and ctx of a line's header. -/
def Mem.hVal (m : Mem) (line : Nat) : Nat := leNat (m.bytes (line * 128) 8)
def Mem.hSeq (m : Mem) (line : Nat) : Word := leWord (m.bytes (line * 128 + 8) 4)
def Mem.hCtx (m : Mem) (line : Nat) : Nat := leNat (m.bytes (line * 128 + 12) 2)

/-- The slots 1 to 7 of a line with their numbers. -/
def Mem.slots (m : Mem) (line : Nat) : List (Nat × Slot) := (List.range 7).map fun i => (i + 1, m.slot line (i + 1))

/-- How early a slot is: the distance of its sequence behind nseq (R280). -/
def Slot.age (nseq : Word) (x : Slot) : Nat := (nseq - x.seq).toNat

/-- The POSTED slots of a line, earliest first (R280, R281). -/
def Mem.posted (m : Mem) (line : Nat) : List (Nat × Slot) :=
  sortBy (fun a b => b.2.age (m.hSeq line) ≤ a.2.age (m.hSeq line)) ((m.slots line).filter fun p => p.2.st = 1)

/-! ## Steps at the home (R279, R280) -/

/-- Who acts on a line: VF and VF address. -/
abbrev VfAt := Nat × Nat

/-- The recall and combination before a notice step (R280). -/
def State.noticeRecall (s : State) (line : Nat) : State :=
  (s.combine line).recallDirty line (BitVec.allOnes 128) (fun _ => true)

/-- Bytes of a line that a notice step writes at the home; the helped mark stands (R267, R276). -/
def State.noticePut (s : State) (v : VfAt) (line off : Nat) (b : List Byte) : State :=
  (s.invalidate line (wordsMask off b.length) (fun _ => false)).putHome (some v) (line * 128 + off) b

/-- The initialisation of a line whose hm is 0, in one step (R279): val is kept. -/
def State.noticeInit (s : State) (v : VfAt) (line ctx : Nat) : State :=
  if s.helped.contains line then s
  else
    let s := s.noticePut v line 8 (leBytes 8 (1 + ctx * 2 ^ 32 + 2 ^ 63) ++ List.replicate 112 0#8)
    { s with helped := line :: s.helped }

/-- Whether a helped line belongs to another context (R279). -/
def State.foreign (s : State) (line ctx : Nat) : Bool := s.helped.contains line && s.mem.hCtx line != ctx

/-- The new value of an operation code (R278). -/
def noticeOp (op : Nat) (old x y : BitVec 64) : BitVec 64 :=
  match op with
  | 0 => old + x
  | 1 => old &&& x
  | 2 => old ||| x
  | 3 => old ^^^ x
  | 4 => x
  | 5 => if old.slt x then old else x
  | 6 => if old.slt x then x else old
  | 7 => if old.ult x then old else x
  | 8 => if old.ult x then x else old
  | 9 => if old = x then y else old
  | _ => old

/-- COMMIT (R280): applied where slot i is POSTED with the sequence and is the earliest POSTED slot; else stale. -/
def State.commitAt (s : State) (v : VfAt) (line i : Nat) (q : Word) (x y : BitVec 64) : State :=
  let p := s.mem.slot line i
  if s.helped.contains line && p.st = 1 && p.seq = q && (s.mem.posted line).head?.map (·.1) = some i then
    let old := s.mem.hVal line
    let s := s.noticePut v line 0 (leBytes 8 (noticeOp p.op (BitVec.ofNat 64 old) x y).toNat)
    s.noticePut v line (16 * i) ({ p with st := 2, pay := old }.bytes)
  else s

/-- Whether an owner number is held by a live group of a context (R279, R280). -/
def State.liveOwner (s : State) (key own : Nat) : Bool :=
  s.groups.any fun p => p.2.st != .exited && p.2.owner = own && s.keyOf p.2 = key

/-- The slot a CLAIM takes (R280). -/
def State.claimSlot (s : State) (key line : Nat) : Option Nat :=
  let l := s.mem.slots line
  ((l.filter fun p => p.2.st = 0).head?.or
    (l.filter fun p => p.2.st = 2 && !s.liveOwner key p.2.own).head?).map (·.1)

/-- CLAIM (R280): the sequence, or 0 where no slot is to be had. -/
def State.claimAt (s : State) (v : VfAt) (key line op r own : Nat) : State × Word :=
  match s.claimSlot key line with
  | none => (s, 0#32)
  | some i =>
    let q := s.mem.hSeq line
    let s := s.noticePut v line (16 * i) (Slot.bytes ⟨1, op, own, q, r⟩)
    let n := q + 1#32
    (s.noticePut v line 8 (leBytes 4 (if n = 0#32 then 1 else n.toNat)), q)

/-- RELEASE (R280): the result of the slot with the sequence and owner, which is APPLIED; the slot is FREE. -/
def State.releaseAt (s : State) (v : VfAt) (line : Nat) (q : Word) (own : Nat) : Option (State × Nat) :=
  ((s.mem.slots line).find? fun p => p.2.seq = q && p.2.own = own && p.2.st = 2).map fun p =>
    (s.noticePut v line (16 * p.1) (List.replicate 16 0#8), p.2.pay)

/-! ## The three instructions (R281, R283) -/

/-- The accesses before a notice instruction that its first message waits for: a release at tenant scope (R283, R333). -/
def noticeRelease (s : State) (gid : Nat) (g : Group) : FenceRec := fenceOf s gid g 1 3

/-- The checks of R283, then the snapshot (R281): the line is initialised where it is plain; ndone must find its slot. Until
every earlier access is complete at tenant scope nothing is sent. -/
def noticeStart (x : IX) (s : State) (form sf d va : Nat) (seq : Word) (raddr : Nat) : R Eff :=
  if x.g.draft.isSome then .error (s, .trap 0x0D 0#32)
  else if va % 128 != 0 then .error (s, .trap 0x06 (toW va))
  else if raddr % 32 != 0 then .error (s, .trap 0x06 (toW raddr))
  else
    let key := s.keyOf x.g
    let ctx := key % 65536
    match s.access key va .readWrite 2 x.g.core with
    | (s, .ok pa vfa) =>
      let line := pa / 128
      let v : VfAt := (key / 65536, vfa)
      let n : Notice := ⟨form, va, vfa, line, d, sf, seq, raddr, false, []⟩
      let fresh := match x.g.notice with
        | none => true
        | some _ => false
      if windowPa pa then .error (s, .trap 0x07 (toW va))
      else if s.foreign line ctx then .error (s, .trap 0x12 (toW va))
      else
        match if fresh then ctrFull x.g .g else none with
        | some st => .error (s, st)
        | none =>
          let f := noticeRelease s x.gid x.g
          if fresh && !f.spent then
            .error (s.modGrp x.gid fun g => { g with notice := some n, fences := g.fences ++ [f] }, .wait)
          else if (x.g.fences.any fun f => !f.spent) then .error (s, .wait)
          else
            let s := s.noticeRecall line
            if s.poisoned (line * 128) 128 then .error (s, .trapRung 2 0x15 (toW va))
            else if s.foreign line ctx then .error (s, .trap 0x12 (toW va))
            else
              let s := s.noticeInit v line ctx
              let mine := (s.mem.slots line).any fun p =>
                (p.2.st = 1 || p.2.st = 2) && p.2.seq = seq && p.2.own = x.g.owner
              if form = 1 && !mine then .error (s, .trap 0x01 seq)
              else
                let todo := (s.mem.posted line).map fun p => (p.1, p.2.seq, p.2.pay % 281474976710656)
                .error (s.modGrp x.gid fun g => { g with notice := some { n with snap := true, todo := todo } }, .wait)
    | (s, t) => .error (s, t.stop va)

/-- The completion of a notice instruction's own step: its result stands on counter g until it is written, and later
accesses follow its completion (R140, R283). -/
def State.noticeEnd (s : State) (gid : Nat) (n : Notice) (b : List Byte) : State :=
  let s := { s with cur := gid }
  let x := s.ixOf false
  let a : Acc := ⟨0, n.va, 0, 0, b.length, 0, [], b, true, false, false, none⟩
  let o : Op := .new .g .notice 3 0 0 (if b.length = 8 then 5 else 4) n.d false [a]
  let s := (s.pushOp gid o).modGrp gid fun g => { g with notice := none }
  let s := s.modGrp gid fun g => { g with fences := g.fences ++ [fenceOf s gid g 0 3] }
  State.finish x n.sf false (Eff.plain x s)

/-- A notice instruction: while its messages are under way the group does not go on. -/
def noticeIssue (i : Instr) (sf : BitVec 3) (form : Nat) (body : IX → State → R Eff) (s : State) : Out State :=
  match (s.grp s.cur).notice with
  | some n =>
    if !n.snap then issueS i sf body s
    else if form = 2 && n.todo = [] then
      let s := s.noticeRecall n.line
      if s.poisoned (n.line * 128) 128 then s.stopAt (s.ixOf false) n.sf false (.trapRung 2 0x15 (toW n.va))
      else .next (s.noticeEnd s.cur n (leBytes 8 (s.mem.hVal n.line)))
    else .next s
  | none => issue (some 2) false i sf body s

/-- NPOST (R283). -/
def execNpost (o : FAn) (s : State) : Out State :=
  noticeIssue (.npost o) o.s 0 (fun x s => do
    let v ← scalars x s (pairRegs o.k ++ [x.a o.a, x.a o.a + 1]) [o.d.toNat]
    noticeStart x s 0 o.s.toNat o.d.toNat (pair48 (v0 v) (v1 v)) 0#32 (pair48 (v2 v) (wAt v 3))) s

/-- NREAD (R283). -/
def execNread (o : FAr) (s : State) : Out State :=
  noticeIssue (.nread o) o.s 2 (fun x s => do
    let v ← scalars x s (pairRegs o.k) (if o.d = 56#6 then [] else [o.d.toNat, o.d.toNat + 1])
    noticeStart x s 2 o.s.toNat o.d.toNat (pair48 (v0 v) (v1 v)) 0#32 0) s

/-- NDONE (R283). -/
def execNdone (o : FAn) (s : State) : Out State :=
  noticeIssue (.ndone o) o.s 1 (fun x s => do
    let v ← scalars x s (pairRegs o.k ++ [x.a o.a]) (if o.d = 56#6 then [] else [o.d.toNat, o.d.toNat + 1])
    noticeStart x s 1 o.s.toNat o.d.toNat (pair48 (v0 v) (v1 v)) (v2 v) 0) s

/-! ## The messages -/

/-- The notice instruction under way of a group that may act. -/
def State.noticeOf (s : State) (gid : Nat) : Option Notice :=
  let g := s.grp gid
  if g.held || s.frozen (s.keyOf g) 0 || s.unitAway g.unit then none
  else g.notice.bind fun n => if n.snap then some n else none

/-- Bytes of a record, read at the home (R277, R281): they may fault, be refused or be poisoned. -/
def State.recordRead (s : State) (g : Group) (va n : Nat) : State × Except Stop (List Byte) :=
  match s.access (s.keyOf g) va .read 0 g.core with
  | (s, .ok pa _) =>
    if windowPa pa then (s, .error (.trap 0x07 (toW va)))
    else
      let r := (s.flushCluster (coreCl g.core) pa).homeRead pa n
      (r.1, if r.1.poisoned pa n then .error (.trapRung 2 0x15 (toW va)) else .ok r.2)
  | (s, t) => (s, .error (t.stop va))

/-- A notice instruction abandoned at its PC by a stop (R281). -/
def State.noticeStop (s : State) (gid : Nat) (n : Notice) (st : Stop) : Out State :=
  let s := { s with cur := gid }.modGrp gid fun g => { g with notice := none }
  s.stopAt (s.ixOf false) n.sf false st

/-- NOTICE_COMMIT (R280, R281): the next pending notice of a group's snapshot is read and its COMMIT performed at the home, in one step:
a COMMIT with operands read before its record was changed is not shown (DESIGN CHOICE, log 120). -/
def execNoticeCommit (gid : Nat) (s : State) : Out State :=
  match s.noticeOf gid with
  | none => .next s
  | some n =>
    match n.todo with
    | [] => .next s
    | (i, q, r) :: rest =>
      let g := s.grp gid
      match s.recordRead g r 16 with
      | (s, .error st) => s.noticeStop gid n st
      | (s, .ok b) =>
        let s := s.noticeRecall n.line
        if s.poisoned (n.line * 128) 128 then s.noticeStop gid n (.trapRung 2 0x15 (toW n.va))
        else
          let s := s.commitAt (s.keyOf g / 65536, n.vfa) n.line i q (BitVec.ofNat 64 (leNat (b.take 8)))
            (BitVec.ofNat 64 (leNat (b.drop 8)))
          .next (s.modGrp gid fun g => { g with notice := some { n with todo := rest } })

/-- Whether an nread of another group stands between its snapshot of a line and its read of val: a CLAIM there comes after it, so that the
read answers as R394 states (R281; DEDUCED, log 134). -/
def State.readUnder (s : State) (gid line : Nat) : Bool :=
  s.groups.any fun p => p.1 != gid && p.2.notice.any fun n => n.form = 2 && n.snap && n.line = line

/-- NOTICE_CLAIM (R280, R283): after the help phase of npost, its own record's op word is read and a slot is claimed. -/
def execNoticeClaim (gid : Nat) (s : State) : Out State :=
  match s.noticeOf gid with
  | none => .next s
  | some n =>
    if n.form != 0 || n.todo != [] || s.readUnder gid n.line then .next s
    else
      let g := s.grp gid
      let key := s.keyOf g
      match s.recordRead g ((n.raddr + 28) % 281474976710656) 4 with
      | (s, .error st) => s.noticeStop gid n st
      | (s, .ok b) =>
        let w := leWord b
        if 10 ≤ w.toNat then s.noticeStop gid n (.trap 0x01 w)
        else
          let s := s.noticeRecall n.line
          if s.poisoned (n.line * 128) 128 then s.noticeStop gid n (.trapRung 2 0x15 (toW n.va))
          else if s.foreign n.line (key % 65536) then s.noticeStop gid n (.trap 0x12 (toW n.va))
          else
            let v : VfAt := (key / 65536, n.vfa)
            let r := (s.noticeInit v n.line (key % 65536)).claimAt v key n.line w.toNat n.raddr g.owner
            .next (r.1.noticeEnd gid n (leBytes 4 r.2.toNat))

/-- NOTICE_RELEASE (R280, R283): after the help phase of ndone, its applied slot is freed and the result answered. -/
def execNoticeRelease (gid : Nat) (s : State) : Out State :=
  match s.noticeOf gid with
  | none => .next s
  | some n =>
    if n.form != 1 || n.todo != [] then .next s
    else
      let g := s.grp gid
      let s := s.noticeRecall n.line
      if s.poisoned (n.line * 128) 128 then s.noticeStop gid n (.trapRung 2 0x15 (toW n.va))
      else
        match s.releaseAt (s.keyOf g / 65536, n.vfa) n.line n.seq g.owner with
        | some (s, p) => .next (s.noticeEnd gid n (leBytes 8 p))
        | none => .next (s.modGrp gid fun g => { g with notice := none })

/-! ## Drafts (R284, R290) -/

/-- DRAFT_ENTRY_FREE (R284): the homes have replaced or dropped the lines of an entry, and it is FREE. -/
def execDraftEntryFree (die e : Nat) (s : State) : Out State :=
  match (s.die die).drafts.find? e with
  | some .committed | some .discarded => .next (s.setDraft (die, e) .free)
  | _ => .next s

/-- DRAFT_REPLAY (R60, R67, R290): an uncorrectable error in state that a group's next word reads. A draft is discarded and run
again; any other group traps POISON at the context rung there; the spec names no word at fault for a register (DESIGN CHOICE, log 2). -/
def execDraftReplay (gid : Nat) (s : State) : Out State :=
  let g := s.grp gid
  if g.st = .exited || (g.draft.isNone && g.trapPend.isSome) then .next s
  else .next (s.softError gid (Config.freeWord (s.free * 65536 + 65529)))

/-! ## Errors in the L2 (R291, R292) -/

/-- L2_DATA_ERROR (R291): an uncorrectable error marks bytes of a line as poisoned. -/
def execL2DataError (pa n : Nat) (s : State) : Out State :=
  let a := (List.range (min n (128 - pa % 128))).map (pa + ·)
  .next { s with poison := s.poison ++ a.filter fun x => !s.poison.contains x }

/-- Every context a VF has (R292, R385): those the machine has met, and those whose descriptor is valid. -/
def State.ctxsOf (s : State) (vf : Nat) : List Nat :=
  let met := (s.ctxs.map (·.1)).filter fun k => k / 65536 = vf
  let valid := if peV (s.vf vf).ctxTbl.toNat then (List.range 65536).filter fun c => (s.ctxPart vf c).isSome else []
  met ++ (valid.map (ctxKey vf)).filter fun k => !met.contains k

/-- A VF told of a damaged line that may have been dirty (R292): its contexts, and each draft of them. -/
def State.vfPoison (s : State) (vf : Nat) : State :=
  let s := (s.ctxsOf vf).foldl (fun s k => s.report 8 k 6 0x15 0#32) s
  ((s.groups.filter fun p => p.2.draft.isSome && s.keyOf p.2 / 65536 = vf).map (·.1)).foldl
    (fun s g => s.softError g 0#32) s

/-- The register of a slice, numbered over the package: one bit for each VF with a dirty line in it (R292). -/
def State.sliceWord (s : State) (k : Nat) : BitVec 64 :=
  (List.range 64).foldl (fun (m : BitVec 64) v => if s.sliceDirty k v then m ||| (1#64 <<< v) else m) 0#64

/-- A damaged line discarded by the L2: the writes it held are lost, and what its tier holds stands: bytes, which of them are poisoned,
and whether it is helped (R265, R292). Where the line has draft copies the way hit may be one of them, by a free value; its draft starts
again with its VF told (R285). -/
def State.l2Lose (s : State) (line : Nat) : State :=
  if s.drafted line && Config.freeBit (s.free * 65536 + 65515) then { s with drafts := s.drafts.filter fun x => x.line != line }
  else
    match s.l2.find? fun x => x.line = line with
    | some x =>
      let s := s.l2Drop line
      if x.dirty then { s with
        mem := s.mem.store (line * 128) (x.tier.take 128)
        poison := (s.poison.filter fun a => a / 128 != line) ++
          ((List.range 128).filter fun i => x.tbad.getLsbD i).map (line * 128 + ·)
        helped := if x.thm then (if s.helped.contains line then s.helped else line :: s.helped) else s.helped.filter (· != line) }
      else s
    | none => s

/-- L2_TAG_ERROR (R292): a line whose state field shows it clean, as one that is not dirty may, is invalidated unseen; otherwise the
line is discarded, and every VF with a dirty line in the slice is told, as is the device rung (R364). -/
def execL2TagError (line : Nat) (clean : Bool) (s : State) : Out State :=
  let dirty := s.drafted line || s.l2.any fun x => x.line = line && x.dirty
  if clean && !dirty then .next (s.l2Drop line)
  else
    let k := homeDie (line * 128) * 64 + homeSlice (line * 128)
    let reg := s.sliceWord k
    let s := s.l2Lose line
    let s : State := { s with trapQ := s.trapQ ++ [⟨4, noCtx, 0, none, none, 6, ⟨0x15, toW k, 0, 4, false⟩, reg.setWidth 32,
      (reg >>> 32).setWidth 32, toW (homeDie (line * 128)), 0, 0#32⟩] }
    .next (((List.range 64).filter fun v => reg.getLsbD v).foldl (fun s v => s.vfPoison v) s)

end Sys2Proof.Machine
end

