-- ==== Sys2Proof/Machine/Helm.lean ====
section
/-!
DEFINITION. Sys2Proof/Machine/Helm.lean: the helm (R242-R252, R257, R258, R410): its scalar, control and request words,
mpost, the service of requests, the switch between contexts and its records, deferred arrivals and additions.
-/
namespace Sys2Proof.Machine
open Host (Outcome)

/-! ## How a helm word issues -/

/-- What a helm word knows: cluster, context, helm state, word. -/
structure HX where
  cl  : Nat
  key : Nat
  h   : HelmSt
  w   : Word
  deriving DecidableEq, Repr

/-- Why a helm word does not complete: a helm fault with the upper half of T3, or a wait. -/
inductive HStop where
  | fault (cause : Nat) (hi : Word)
  | wait (w : HWait)
  deriving DecidableEq, Repr

/-- What a helm word leaves: the state, and the target of a transfer. -/
structure HEff where
  s  : State
  pc : Option Nat
  deriving DecidableEq, Repr

abbrev HRes (α : Type) := Except (State × HStop) α

/-- The information word of a helm fault (R258): index in [11:0], major in [16:12]. -/
def helmInfo (pc : Nat) (w : Word) : Word := toW (min pc 4095 + w.toNat / 134217728 * 4096)

/-- Register value and register write of a helm word. -/
def HX.reg (x : HX) (r : BitVec 5) : Word := wAt x.h.h r.toNat
def HX.put (x : HX) (s : State) (d : Nat) (v : Word) : State :=
  let h := s.helm x.key x.cl
  s.setHelm x.key x.cl { h with h := h.h.set d v }

/-- THE FRAME OF EVERY HELM WORD (R248-R252, R258): a context that stands still does not issue, nor does a helm whose bound block is
swapped out (DESIGN CHOICE, log 119); an operand outside its limits is a helm ILLOP; the body acts, waits or faults. -/
def helmIssue (i : Instr) (body : HX → State → HRes HEff) (s : State) : Out State :=
  match (s.cluster s.curCl).serve with
  | none => .next s
  | some key =>
    let cl := s.curCl
    let h := s.helm key cl
    if h.run = .halted || s.frozen key 1 || h.bind.any s.unitAway then .next s
    else if !i.wf then .next (s.helmFault key cl 0x01 (helmInfo h.pc s.iw) (min h.pc 4095) 0#32 false)
    else
      match body ⟨cl, key, h, s.iw⟩ s with
      | .ok e =>
        let h := e.s.helm key cl
        let c := e.s.cluster cl
        .next ((e.s.setHelm key cl { h with
          pc := e.pc.getD (h.pc + 1)
          run := if h.run = .halted then .halted else .running }).setCluster cl { c with
            hcycle := c.hcycle + (if e.pc.isSome then 2 else 1) })
      | .error (s, .wait w) => .next (s.setHelm key cl { s.helm key cl with run := .waiting w })
      | .error (s, .fault c hi) => .next (s.helmFault key cl c (helmInfo h.pc s.iw) (min h.pc 4095) hi false)

/-! ## Scalar and control words (R251) -/

/-- The b operand of format HR (R248). -/
def HX.bop (x : HX) (o : HR) : Word := if o.i = 1#1 then o.k.signExtend 32 else x.reg o.b

/-- A scalar form. -/
def helmBin (i : Instr) (o : HR) (f : Word → Word → Word) (s : State) : Out State :=
  helmIssue i (fun x s => .ok ⟨x.put s o.d.toNat (f (x.reg o.a) (x.bop o)), none⟩) s

/-- HMOVI (R251). -/
def execHmovi (o : HI) (s : State) : Out State :=
  helmIssue (.hmovi o) (fun x s => .ok ⟨x.put s o.d.toNat (o.i.signExtend 32), none⟩) s

/-- HMOVI_HI (R251). -/
def execHmoviHi (o : HIh) (s : State) : Out State :=
  helmIssue (.hmoviHi o) (fun x s =>
    .ok ⟨x.put s o.d.toNat ((x.reg o.d &&& 0x0000FFFF#32) ||| (o.i.setWidth 32 <<< 16)), none⟩) s

/-- HADD (R251). -/
def execHadd (o : HR) (s : State) : Out State := helmBin (.hadd o) o (· + ·) s

/-- HSUB (R251). -/
def execHsub (o : HR) (s : State) : Out State := helmBin (.hsub o) o (· - ·) s

/-- HSHL (R251). -/
def execHshl (o : HR) (s : State) : Out State := helmBin (.hshl o) o (fun a b => a <<< (b.toNat % 256)) s

/-- HAND (R251). -/
def execHand (o : HR) (s : State) : Out State := helmBin (.hand o) o (· &&& ·) s

/-- HBR (R251). -/
def execHbr (o : HJ) (s : State) : Out State := helmIssue (.hbr o) (fun _ s => .ok ⟨s, some o.t.toNat⟩) s

/-- HBRNZ (R251). -/
def execHbrnz (o : HJa) (s : State) : Out State :=
  helmIssue (.hbrnz o) (fun x s => .ok ⟨s, if x.reg o.a = 0#32 then none else some o.t.toNat⟩) s

/-- HLOOP (R251). -/
def execHloop (o : HJa) (s : State) : Out State :=
  helmIssue (.hloop o) (fun x s =>
    let v := x.reg o.a - 1#32
    .ok ⟨x.put s o.a.toNat v, if v = 0#32 then none else some o.t.toNat⟩) s

/-- HCALL (R251): a ninth entry, or a call at word 4,095, is a helm ILLOP. -/
def execHcall (o : HJ) (s : State) : Out State :=
  helmIssue (.hcall o) (fun x s =>
    if 8 ≤ x.h.stack.length || 4095 ≤ x.h.pc then .error (s, .fault 0x01 0#32)
    else .ok ⟨s.setHelm x.key x.cl { s.helm x.key x.cl with stack := (x.h.pc + 1) :: x.h.stack }, some o.t.toNat⟩) s

/-- HRET (R251). -/
def execHret (s : State) : Out State :=
  helmIssue .hret (fun x s =>
    match x.h.stack with
    | [] => .error (s, .fault 0x01 0#32)
    | p :: t => .ok ⟨s.setHelm x.key x.cl { s.helm x.key x.cl with stack := t }, some p⟩) s

/-- HNOP (R251). -/
def execHnop (s : State) : Out State := helmIssue .hnop (fun _ s => .ok ⟨s, none⟩) s

/-- HELM_RESERVED_MAJOR (R249, R251): a helm ILLOP; word 4,096 is fetched as 0. -/
def execHelmReservedMajor (s : State) : Out State :=
  helmIssue .helmReservedMajor (fun _ s => .error (s, .fault 0x01 0#32)) s

/-! ## Waits on engines and copies (R252, R410) -/

/-- The copies of a helm not complete (R243). -/
def State.helmCopies (s : State) (key cl : Nat) : List (Nat × Copy) :=
  s.copies.filter fun c => c.2.gid = none && c.2.kind = 0 && c.2.key = key && c.2.cl = cl && !c.2.fin

/-- The earliest failed copy of a helm not reported (R410). -/
def State.helmFailed (s : State) (key cl : Nat) : Option (Nat × Copy) :=
  (s.copies.filter fun c =>
    c.2.gid = none && c.2.key = key && c.2.cl = cl && c.2.fin && c.2.failed.isSome).head?

/-- Whether everything the helm issued has completed (R252). -/
def State.helmQuiet (s : State) (x : HX) : Bool :=
  let h := s.helm x.key x.cl
  h.tiles = [] && h.defers = [] && s.helmCopies x.key x.cl = []

/-- The report of a copy failure by a completed mcwait, mfence or hhalt (R410): the state without it and its fault. -/
def State.helmReport (s : State) (x : HX) : Option (State × HStop) :=
  match s.helmFailed x.key x.cl with
  | some (k, c) =>
    let f := c.failed.getD (0, 0#32)
    some ({ s with copies := s.copies.del k }, .fault f.1 (if f.1 = 0x0B then toW (f.2.toNat / 16) else 0#32))
  | none => none

/-- The end of a helm program: everything complete, failures reported, then halted (R244, R251). -/
def helmHalt (x : HX) (s : State) : HRes HEff :=
  if !s.helmQuiet x then .error (s, .wait .halt)
  else
    match s.helmReport x with
    | some e => .error e
    | none => .ok ⟨s.setHelm x.key x.cl { s.helm x.key x.cl with run := .halted }, none⟩

/-- HHALT (R251). -/
def execHhalt (s : State) : Out State := helmIssue .hhalt helmHalt s

/-- MFENCE (R252). -/
def execMfence (s : State) : Out State :=
  helmIssue .mfence (fun x s =>
    if !s.helmQuiet x then .error (s, .wait .fence)
    else
      match s.helmReport x with
      | some e => .error e
      | none => .ok ⟨s, none⟩) s

/-- MCWAIT (R252). -/
def execMcwait (o : HRa) (s : State) : Out State :=
  helmIssue (.mcwait o) (fun x s =>
    if (x.reg o.a).toNat < (s.helmCopies x.key x.cl).length then .error (s, .wait (.mcwait (x.reg o.a)))
    else
      match s.helmReport x with
      | some e => .error e
      | none => .ok ⟨s, none⟩) s

/-! ## The request FIFO (R244-R247) -/

/-- Kind of a request. -/
def Req.kind (r : Req) : Nat := bits (wAt r.q 0).toNat 30 2

/-- Whether a request of a group breaks R244. -/
def reqBad (q : List Word) : Bool :=
  let q0 := (wAt q 0).toNat
  match bits q0 30 2 with
  | 0 => false
  | 1 => bits q0 12 18 != 0
  | 2 =>
    let w := bits q0 0 12
    let c := bits q0 12 13
    c = 0 || 4096 < w + c || bits q0 25 5 != 0 || (wAt q 1).toNat % 4 != 0 || bits (wAt q 2).toNat 16 16 != 0 ||
      wAt q 3 != 0#32
  | _ => true

/-- MPOST (R245). -/
def execMpost (o : FD) (s : State) : Out State :=
  issue (some 3) false (.mpost o) o.s (fun x s => do
    let q ← scalars x s ((List.range 4).map fun i => x.a o.a + i) [o.d.toNat]
    if reqBad q then .error (s, .trap 0x01 (wAt q 0))
    else if x.g.draft.isSome then .error (s, .trap 0x0D 0#32)
    else
      let cl := coreCl x.g.core
      let c := s.cluster cl
      if Config.fifoMax ≤ c.fifo.length then pure (Eff.plain x (writeScal s x.gid o.d.toNat 1#32 x.t 2))
      else
        let deps := x.g.postDeps
        let r : Req := ⟨q, s.keyOf x.g, x.g.unit, x.gid, deps.all (· = 0), deps, 0⟩
        let s := s.setCluster cl { c with fifo := c.fifo ++ [r] }
        pure (Eff.plain x (writeScal s x.gid o.d.toNat 0#32 x.t 2))) s

/-- MPOST_VISIBLE (R245): a request whose poster's earlier stores are complete is visible to the helm. -/
def execMpostVisible (cl i : Nat) (s : State) : Out State :=
  let c := s.cluster cl
  match c.fifo[i]? with
  | some r =>
    .next (if r.deps.all (· = 0) && !r.vis then s.setCluster cl { c with fifo := c.fifo.set i { r with vis := true } } else s)
  | none => .next s

/-- Whether a helm copies a load request that waits on a page fault (R247). -/
def HelmSt.loading (h : HelmSt) : Bool :=
  match h.run with
  | .waiting (.keys _) => true
  | _ => false

/-- HELM_REQUEST_DISCARD (R247): requests that are the oldest of their context and whose block has exited leave the FIFO; a load that
is being served goes on. -/
def fifoClean (s : State) (cl : Nat) : List Req → List Nat → List Req
  | [], _ => []
  | r :: rs, seen =>
    if !seen.contains r.key && (s.unit r.unit).done && !(s.helm r.key cl).loading then fifoClean s cl rs seen
    else r :: fifoClean s cl rs (r.key :: seen)

def State.cleanFifo (s : State) (cl : Nat) : State :=
  let c := s.cluster cl
  s.setCluster cl { c with fifo := fifoClean s cl c.fifo [] }

/-- The oldest request of a context (R244). -/
def State.oldestReq (s : State) (cl key : Nat) : Option (Nat × Req) :=
  ((s.cluster cl).fifo.zipIdx.find? fun p => p.1.key = key).map fun p => (p.2, p.1)

/-- Whether a context's program can take a request (R244): a start or load that has become the oldest halts a program in mpop, once the
helm has taken its context up. -/
def HelmSt.canServe (h : HelmSt) (r : Req) : Bool :=
  match r.kind, h.run with
  | 0, .waiting (.mpop _) => true
  | 0, _ => false
  | _, .halted | _, .waiting (.mpop _) => true
  | _, _ => false

/-- The earliest request in the FIFO that can be served now (R244). -/
def State.servable (s : State) (cl : Nat) : Option (Nat × Req) :=
  ((s.cluster cl).fifo.zipIdx.find? fun p =>
    p.1.vis && !s.frozen p.1.key 1 && (s.oldestReq cl p.1.key).map (·.1) = some p.2 && (s.helm p.1.key cl).canServe p.1).map
    fun p => (p.2, p.1)

/-- A request taken from the FIFO. -/
def State.takeReq (s : State) (cl i : Nat) : State :=
  let c := s.cluster cl
  s.setCluster cl { c with fifo := c.fifo.eraseIdx i }

/-- HELM_START_REQUEST (R244): the halted helm serves the start that is to be served now. -/
def execHelmStartRequest (cl : Nat) (s : State) : Out State :=
  let s := s.cleanFifo cl
  match s.servable cl with
  | some (i, r) =>
    if r.kind = 1 && (s.cluster cl).serve = some r.key && (s.helm r.key cl).run = .halted then
      let h := s.helm r.key cl
      .next ((s.takeReq cl i).setHelm r.key cl { h with
        h := r.q.take 4 ++ h.h.drop 4
        pc := bits (wAt r.q 0).toNat 0 12
        bind := some r.unit
        run := .running })
    else .next s
  | none => .next s

/-- Words of a load request copied from word n of the source on, until all are, or one does not translate (R244, R247); in the fabric
window it is made again until the partition may send, and the other device may refuse it (R401, R403). -/
def State.loadWords (s : State) (cl : Nat) (r : Req) : Nat → Nat → State × Nat × Option Tr
  | 0, n => (s, n, none)
  | k + 1, n =>
    let va := (pair48 (wAt r.q 1) (wAt r.q 2) + 4 * n) % 281474976710656
    match s.access r.key va .read 5 (cl * 4) with
    | (s, .ok pa _) =>
      if windowPa pa && !s.sends r.key then (s, n, some (.fault ⟨r.key / 65536, false, r.key % 65536, va / 4096⟩))
      else if windowPa pa && Config.freeBit (s.free * 65536 + 65531) then (s, n, some .perm) else
      let s := s.combine (pa / 128)
      let w := leWord ((List.range 4).map fun j => s.engineByte cl none (pa + j))
      let h := s.helm r.key cl
      let s := s.setHelm r.key cl { h with store := h.store.set (bits (wAt r.q 0).toNat 0 12 + n) w }
      s.loadWords cl r k (n + 1)
    | (s, t) => (s, n, some t)

/-- The load request a helm copies now: the one it has begun, once a key it waits on is resolved, or the one to be served now while
its program is halted (R244, R247). -/
def State.loadReq (s : State) (cl : Nat) : Option (Nat × Req) :=
  match (s.cluster cl).serve with
  | none => none
  | some key =>
    match (s.helm key cl).run with
    | .waiting (.keys ks) =>
      if (ks = [] || ks.any fun k => !s.fkeys.contains k) && !s.frozen key 1 then s.oldestReq cl key else none
    | .halted => (s.servable cl).filter fun p => p.2.kind = 2 && p.2.key = key
    | _ => none

/-- HELM_LOAD_REQUEST (R244, R247): the halted helm copies words into the control store. -/
def execHelmLoadRequest (cl : Nat) (s : State) : Out State :=
  let s := s.cleanFifo cl
  match s.loadReq cl with
  | some (i, r) =>
    let n := bits (wAt r.q 0).toNat 12 13
    match s.loadWords cl r (n - r.got) r.got with
    | (s, _, none) => .next ((s.takeReq cl i).setHelm r.key cl { s.helm r.key cl with run := .halted })
    | (s, k, some (.fault f)) =>
      let c := s.cluster cl
      .next ((s.setCluster cl { c with fifo := c.fifo.set i { r with got := k } }).setHelm r.key cl
        { s.helm r.key cl with run := .waiting (.keys [f]) })
    | (s, k, some t) =>
      let idx := bits (wAt r.q 0).toNat 0 12 + k
      .next ((s.takeReq cl i).helmFault r.key cl (t.engineFail 0).1 (toW (idx % 4096)) (idx % 4096) 0#32 false)
  | none => .next s

/-! ## Helm records and the switch between contexts (R242, R243, R374) -/

/-- A frame owner number for the helm of a cluster. -/
def helmOwner (cl : Nat) : Nat := 4294967296 + cl

/-- Run state as words: code, what it waits for, operand. -/
def HRun.words : HRun → List Word
  | .halted => [0#32, 0#32, 0#32]
  | .running => [1#32, 0#32, 0#32]
  | .waiting w =>
    match w with
    | .mpop d => [2#32, 0#32, toW d]
    | .mwbar t _ => [2#32, 1#32, t]
    | .mcwait n => [2#32, 2#32, n]
    | .fence => [2#32, 3#32, 0#32]
    | .halt => [2#32, 4#32, 0#32]
    | .room lo _ => [2#32, 5#32, toW lo]
    | .copyRoom => [2#32, 6#32, 0#32]
    | .keys _ => [2#32, 7#32, 0#32]

/-- A queued tile operation as words: its index, word, register values, number and next step. -/
def TileOp.words (t : TileOp) : List Word := [toW t.pc, t.word, t.a, t.b, t.c, t.e, toW t.id, toW t.step]

/-- Whether the operations of a context's helm on a cluster are suspended: pre-empted, or their bank written out. The operations of one
that has only left the helm run on in the engine, and its record holds none (R242, R260, R374). -/
def HelmSt.suspended (h : HelmSt) : Bool := h.preempted || h.out

/-- The record of a helm (R374), after its format word; a count stands before each list, and the tiles and partial sums follow where
the bank has been written out (DESIGN CHOICE, log 40). -/
def State.helmWords (s : State) (key cl : Nat) (h : HelmSt) (bank : Bool) : List Word :=
  let tiles := if h.suspended then h.tiles else []
  let claims := if h.suspended then (h.bind.map fun u => (s.unit u).claims.filter fun c => c.kind = 1 && c.own % 1024 = cl).getD [] else []
  h.h ++ [toW h.pc, toW h.stack.length] ++ (List.range 8).map (fun i => toW (h.stack.getD i 0)) ++
    [toW (s.copies.filter fun c => c.2.gid = none && c.2.kind = 0 && c.2.key = key && c.2.cl = cl && !c.2.fin).length] ++ h.run.words ++
    [toW ((h.bind.map (· + 1)).getD 0), toW tiles.length] ++ tiles.flatMap TileOp.words ++
    toW claims.length :: claims.flatMap (fun c => [toW c.lo, toW c.hi]) ++
    (List.range 4096).map (fun i => h.store.getD i 0#32) ++
    toW h.saved.length :: h.saved.flatMap (fun r => r.q.take 4) ++
    (if bank then (List.range 16384).map (fun i => h.acc.getD i 0#32) ++
      (let p := (h.tiles.map (·.part)).headD []
       toW p.length :: p.map fun x => BitVec.ofInt 32 x) else [])

/-- A helm as its record says, none where the format or a field is wrong (R375). -/
def HelmSt.ofRecord (h : HelmSt) (b : List Byte) : Option HelmSt :=
  let w := leWords (b.drop 4) ((b.length - 4) / 4)
  let n := (wAt w 47).toNat
  let v := w.drop (48 + 8 * n)
  let m := (wAt v 0).toNat
  let v := v.drop (1 + 2 * m)
  let r := (wAt v 4096).toNat
  let q := v.drop 4097
  let acc := q.drop (4 * r)
  let op := fun (i j : Nat) => wAt w (48 + 8 * i + j)
  if leNat (b.take 4) != 4 || 4096 < (wAt w 32).toNat || 8 < (wAt w 33).toNat || 63 < (wAt w 42).toNat || 2 < (wAt w 43).toNat ||
      n != (if h.suspended then h.tiles.length else 0) || r != h.saved.length then none
  else
    some { h with
      h := w.take 32
      pc := (wAt w 32).toNat
      stack := (List.range (wAt w 33).toNat).map fun i => (wAt w (34 + i)).toNat
      tiles := if !h.suspended then h.tiles else h.tiles.zipIdx.map fun t => { t.1 with
        pc := (op t.2 0).toNat, word := op t.2 1, a := op t.2 2, b := op t.2 3, c := op t.2 4, e := op t.2 5, step := (op t.2 7).toNat
        part := if h.out && t.2 = 0 then (List.range (wAt acc 16384).toNat).map fun i => (wAt acc (16385 + i)).toInt else t.1.part }
      store := (List.range 4096).map fun i => (i, wAt v i)
      saved := h.saved.zipIdx.map fun x => { x.1 with q := (List.range 4).map fun j => wAt q (4 * x.2 + j) }
      acc := if h.out then (List.range 16384).map fun i => (i, wAt acc i) else h.acc
      out := false }

/-- The record of a helm written into frames of its context's save pool, in place of an earlier one (R243, R374). -/
def State.putHelm (s : State) (key cl : Nat) (h : HelmSt) (bank : Bool) : State × SaveEnd :=
  let s := s.useTrap key false
  match s.pool key with
  | none => (s, .bad)
  | some (base, nfr) =>
    let rec_ := leBytes 4 4 ++ wordBytes4 (s.helmWords key cl h bank)
    let s0 := s.setCtx key { s.ctx key with frames := (s.ctx key).frames.filter fun f => f.2 != helmOwner cl }
    match s0.freeFrames key nfr (framesFor rec_.length) with
    | none => (s, .full)
    | some fs =>
      match State.mapFrames (key / 65536) base true fs s0 with
      | (_, none) => (s, .bad)
      | (s, some m) =>
        let s := s.putRecord (key / 65536) base m rec_
        (s.setCtx key { s.ctx key with frames := (s.ctx key).frames ++ fs.map fun f => (f, helmOwner cl) }, .ok)

/-- The record that a failed pool access of a helm raises (R372). -/
def State.helmPoolFail (s : State) (key cl : Nat) : State := s.poolFail key (s.helm key cl).bind (coreCid (cl * 4))

/-- The record of a helm read back, where it has one. None where it cannot be: the partition rung receives the record of R375 or R372. -/
def State.readHelm (s : State) (key cl : Nat) : State × Option (Option HelmSt) :=
  match (s.ctx key).frames.filter fun f => f.2 = helmOwner cl with
  | [] => (s, some none)
  | fs =>
    let s := s.useTrap key false
    match s.pool key with
    | none => (s.helmPoolFail key cl, none)
    | some (base, _) =>
      match State.mapFrames (key / 65536) base false (fs.map (·.1)) s with
      | (s, none) => (s.helmPoolFail key cl, none)
      | (s, some m) =>
        match (s.helm key cl).ofRecord (s.getRecord m) with
        | none => (s.saveReport key (s.helm key cl).bind (coreCid (cl * 4)) 0x15, none)
        | some h => (s, some (some h))

/-- A helm restored from its record, where it has one: its frames are free then (R243, R375). False where it is not restored. -/
def State.getHelm (s : State) (key cl : Nat) : State × Bool :=
  match s.readHelm key cl with
  | (s, none) => (s, false)
  | (s, some none) => (s, true)
  | (s, some (some h)) =>
    ((s.setCtx key { s.ctx key with frames := (s.ctx key).frames.filter fun f => f.2 != helmOwner cl }).setHelm key cl h, true)

/-- The helm of a context leaves service: its state is saved (R243). Where no frame takes it, it stands where it is (DESIGN CHOICE,
log 40); a failed pool access is recorded (R372). -/
def State.helmLeave (s : State) (key cl : Nat) : State :=
  let h := s.helm key cl
  match s.putHelm key cl h h.out with
  | (s, .bad) => s.helmPoolFail key cl
  | (s, _) => s

/-- A bank written out for a third context: its tiles and partial sums stand in the save area (R242). Where no frame takes them, they
stand where they are (DESIGN CHOICE, log 40); a failed pool access is recorded (R372). -/
def State.bankOut (s : State) (key cl : Nat) : State :=
  let h := s.helm key cl
  match s.putHelm key cl { h with out := true } true with
  | (s, .ok) => s.setHelm key cl { h with acc := [], out := true, tiles := h.tiles.map fun t => { t with part := [] } }
  | (s, .full) => s
  | (s, .bad) => s.helmPoolFail key cl

/-- The context whose bank a third one takes: the one served less recently (R242). -/
def ClusterSt.bankVictim (c : ClusterSt) (key : Nat) : Option Nat :=
  if c.banks.contains key || c.banks.length < 2 then none else c.banks.getLast?

/-- Whether a helm's program stands at a word that needs the helm, or an operation of it needs its bank: only a pre-emption leaves one
so without service (R243, R244). -/
def HelmSt.due (h : HelmSt) : Bool :=
  (match h.run with
    | .halted | .waiting (.mpop _) => h.out && h.tiles != []
    | _ => true) && !h.preempted

/-- The context that a helm takes up next: one that a pre-emption has interrupted and that has been resumed, else that of the request
that can be served now (R243, R244; the first DEDUCED, log 40). -/
def State.nextServe (s : State) (cl : Nat) : Option Nat :=
  match (s.helms.filter fun p => p.1 % 1024 = cl && p.2.due && !s.frozen (p.1 / 1024) 1 && (s.cluster cl).serve != some (p.1 / 1024)).map
      (·.1 / 1024) with
  | k :: _ => some k
  | [] => (s.servable cl).map (·.2.key)

/-- HELM_CONTEXT_SWITCH (R242-R244): a helm whose program is halted or waits in mpop takes up another context: the state of the one it
served is saved, a third context takes the bank served less recently once the operations of that bank are over, and the helm state and
the tiles of the one it takes up are restored. -/
def execHelmContextSwitch (cl : Nat) (s : State) : Out State :=
  let s := s.cleanFifo cl
  let c := s.cluster cl
  match s.nextServe cl with
  | some key =>
    let idle := match c.serve with
      | none => true
      | some k =>
        match (s.helm k cl).run with
        | .halted | .waiting (.mpop _) => true
        | _ => false
    let held := (c.bankVictim key).any fun k => (s.helm k cl).tiles != [] && !s.frozen k 2
    if !idle || held || c.serve = some key then .next s
    else
      let s := (c.serve.map fun k => s.helmLeave k cl).getD s
      let s := ((c.bankVictim key).map fun k => s.bankOut k cl).getD s
      match s.getHelm key cl with
      | (s, false) => .next s
      | (s, true) =>
        .next ((s.setCluster cl { s.cluster cl with
          serve := some key
          banks := (key :: c.banks.filter (· != key)).take 2
          sel := some key
          hcycle := c.hcycle + 1 }).setHelm key cl (s.helm key cl))
  | none => .next s

/-- MPOP (R252, R244): the program waits until the request that can be served now is a message of its context, and takes it; a start or
load that is visible and the oldest request of the context halts the program. -/
def execMpop (o : HRd) (s : State) : Out State :=
  helmIssue (.mpop o) (fun x s =>
    let s := s.cleanFifo x.cl
    let d := o.d.toNat
    match s.oldestReq x.cl x.key with
    | none => .error (s, .wait (.mpop d))
    | some (i, r) =>
      if !r.vis then .error (s, .wait (.mpop d))
      else if r.kind != 0 then helmHalt x s
      else
        let waits := s.setHelm x.key x.cl { s.helm x.key x.cl with run := .waiting (.mpop d) }
        if (waits.servable x.cl).map (·.1) != some i then .error (s, .wait (.mpop d))
        else
          let s := s.takeReq x.cl i
          let h := s.helm x.key x.cl
          .ok ⟨s.setHelm x.key x.cl { h with
            h := h.h.take d ++ r.q.take 4 ++ h.h.drop (d + 4)
            bind := some r.unit }, none⟩) s

/-! ## Arrivals, completion words, copies (R252) -/

/-- The unit a helm is bound to. -/
def HX.unit (x : HX) : Nat := x.h.bind.getD 0

/-- Footprint of the bound unit, 0 without one (R246). -/
def HX.foot (x : HX) (s : State) : Nat :=
  match x.h.bind with
  | some u => (s.unit u).foot
  | none => 0

/-- A deferred arrival or addition entered. -/
def HX.defer (x : HX) (s : State) (add : Bool) (a : Nat) : State :=
  let h := s.helm x.key x.cl
  s.setHelm x.key x.cl { h with defers := h.defers ++
    [⟨add, x.unit, a, h.tiles.map (·.id), (s.helmCopies x.key x.cl).map (·.1), h.pc, []⟩] }

/-- MARRIVE (R252). -/
def execMarrive (o : HRa) (s : State) : Out State :=
  helmIssue (.marrive o) (fun x s =>
    let a := (x.reg o.a).toNat
    if a % 16 != 0 then .error (s, .fault 0x06 0#32)
    else if x.foot s < a + 16 then .error (s, .fault 0x07 0#32)
    else if ((s.unit x.unit).bar? a).isNone then .error (s, .fault 0x01 0#32)
    else .ok ⟨x.defer s false a, none⟩) s

/-- MWBAR (R252, R193): the helm waits until the barrier has left the token's phase, and while a STARVE of the wait is served until the
block rung has disposed of it. -/
def execMwbar (o : HRa) (s : State) : Out State :=
  helmIssue (.mwbar o) (fun x s =>
    let tok := x.reg o.a
    if bits tok.toNat 3 13 != 0 then .error (s, .fault 0x01 0#32)
    else if x.h.run = .waiting (.mwbar tok none) then .error (s, .wait (.mwbar tok none))
    else if (s.unit x.unit).phaseLeft (tok.toNat / 65536 * 16) tok then .ok ⟨s, none⟩
    else
      match x.h.run with
      | .waiting (.mwbar t n) => .error (s, .wait (.mwbar t n))
      | _ => .error (s, .wait (.mwbar tok (some (s.cluster x.cl).hcycle)))) s

/-- MCOPY (R252). -/
def execMcopy (o : HRa) (s : State) : Out State :=
  helmIssue (.mcopy o) (fun x s =>
    let a := (x.reg o.a).toNat
    if a % 32 != 0 then .error (s, .fault 0x06 0#32)
    else if x.foot s < a + 32 then .error (s, .fault 0x07 0#32)
    else
      let v := leWords ((s.unit x.unit).scrRead a 32) 8
      match cpyCheck v (x.foot s) with
      | some (c, _) => .error (s, .fault c 0#32)
      | none =>
        if wAt v 7 != 0#32 then .error (s, .fault 0x01 0#32)
        else
          let dir := ctlDir (wAt v 6)
          let pl := ctlPl (wAt v 6)
          let len := hi16 (wAt v 3) * 16
          let n := rowOut pl len
          match if dir = 1 then (cpyRows v).find? fun r => (s.unit x.unit).claimed r.2 (r.2 + n) else none with
          | some r => .error (s, .wait (.room r.2 (r.2 + n)))
          | none =>
            if Config.copyMax ≤ s.copiesIn x.cl || 63 ≤ (s.helmCopies x.key x.cl).length then .error (s, .wait .copyRoom)
            else
              .ok ⟨s.startCopy ⟨0, x.cl, x.unit, x.key, none, cpyRows v, dir, pl, len, 0, 0, v, 0, none, [], 0#32, false, none, [], false⟩,
                none⟩) s

/-- MDONE (R252). -/
def execMdone (o : HRa) (s : State) : Out State :=
  helmIssue (.mdone o) (fun x s =>
    let va := pair48 (x.reg o.a) (wAt x.h.h (o.a.toNat + 1))
    if va % 4 != 0 then .error (s, .fault 0x06 0#32) else .ok ⟨x.defer s true va, none⟩) s

/-- The helm states of a cluster, the served one first. -/
def State.helmsOf (s : State) (cl : Nat) : List (Nat × HelmSt) :=
  let all := (s.helms.filter fun p => p.1 % 1024 = cl).map fun p => (p.1 / 1024, p.2)
  match (s.cluster cl).serve with
  | some k => (all.filter fun p => p.1 = k) ++ all.filter fun p => p.1 != k
  | none => all

/-- The helm state whose first deferred effect is of a kind and waits on nothing more (R252). -/
def State.deferReady (s : State) (cl : Nat) (add : Bool) : Option (Nat × HelmSt × Defer) :=
  (s.helmsOf cl).findSome? fun p =>
    match p.2.defers with
    | d :: _ =>
      if d.add = add && !s.frozen p.1 1 && d.tiles.all (fun t => p.2.tiles.all fun q => q.id != t) &&
          d.copies.all (fun k => match s.copy? k with
            | some c => c.fin
            | none => true) && (d.keys = [] || d.keys.any fun k => !s.fkeys.contains k)
      then some (p.1, p.2, d) else none
    | [] => none

/-- MARRIVE_EFFECT (R252, R189): the deferred arrival counts once the earlier operations and copies are complete. -/
def execMarriveEffect (cl : Nat) (s : State) : Out State :=
  match s.deferReady cl false with
  | some (key, h, d) =>
    .next ((s.setHelm key cl { h with defers := h.defers.drop 1 }).modUnit d.unit fun u => u.engineArrive d.addr)
  | none => .next s

/-- MDONE_EFFECT (R252): the deferred addition is made; a page fault holds it, another failure is a helm fault at its word. In the fabric
window it waits until the partition may send, and the other device may refuse it (R401, R403, R404). -/
def execMdoneEffect (cl : Nat) (s : State) : Out State :=
  match s.deferReady cl true with
  | some (key, h, d) =>
    match s.access key d.addr .write 5 (cl * 4) with
    | (s, .ok pa vfa) =>
      if windowPa pa && !s.sends key then .next s
      else
        let s := s.setHelm key cl { s.helm key cl with defers := h.defers.drop 1 }
        if windowPa pa && Config.freeBit (s.free * 65536 + 65531) then
          .next (s.helmFault key cl 0x07 (toW (d.pc % 4096 + 0x1A000)) d.pc 0#32 false)
        else .next (s.addOne (key / 65536, vfa) pa)
    | (s, .fault k) =>
      .next (s.setHelm key cl { s.helm key cl with defers := { d with keys := [k] } :: h.defers.drop 1 })
    | (s, t) =>
      let s := s.setHelm key cl { s.helm key cl with defers := h.defers.drop 1 }
      .next (s.helmFault key cl (t.engineFail 0).1 (toW (d.pc % 4096 + 0x1A000)) d.pc 0#32 false)
  | none => .next s

/-- HELM_MWBAR_STARVE (R252, R361): a wait in mwbar of 2^30 helm cycles raises STARVE at the block rung of the bound block. Helm cycles that
pass while the context is pre-empted count too: R371 names other counts (DESIGN CHOICE, log 133). -/
def execHelmMwbarStarve (cl : Nat) (s : State) : Out State :=
  match (s.cluster cl).serve with
  | none => .next s
  | some key =>
    let h := s.helm key cl
    match h.run, h.bind with
    | .waiting (.mwbar tok (some n)), some u =>
      if (s.cluster cl).hcycle < n + 1073741824 || s.frozen key 1 then .next s
      else
        let t : Trap := ⟨0x0A, helmInfo h.pc (h.store.getD h.pc 0#32), h.pc, 1, false⟩
        .next ((s.setHelm key cl { h with run := .waiting (.mwbar tok none) }).modUnit u fun x =>
          { x with btraps := x.btraps ++ [(none, t)] })
    | _, _ => .next s

end Sys2Proof.Machine
end

