-- ==== Sys2Proof/Machine/Syscore.lean ====
section
/-!
DEFINITION. Sys2Proof/Machine/Syscore.lean: what the system cores do to memory (R1, R9, R339, R378, R389): their accesses, in the order
RVWMO leaves open, their fences and access faults. Their programs are not part of the spec: the agenda stands for them (log 98).
-/
namespace Sys2Proof.Machine

/-- A line read by a party outside every cluster: update-only copies combined, dirty bytes of the bytes read recalled (R383). -/
def State.readLine (s : State) (line : Nat) (pas : List Nat) : State :=
  (s.combine line).recallDirty line
    (pas.foldl (fun (m : BitVec 128) a => if a / 128 = line then m ||| spanMask 128 (a % 128) 1 else m) 0#128) (fun _ => true)

/-- Bytes at some physical addresses read at their homes by a party outside every cluster. -/
def State.readOut (s : State) (pas : List Nat) : State × List Byte :=
  let s := (pas.map (· / 128)).eraseDups.foldl (fun s l => s.readLine l pas) s
  (s, pas.map fun p => s.engineByte 1024 none p)

/-- The quarter-die of a system core: cores 4i to 4i + 3 of a die belong to its quarter-die i (R378). -/
def sysQuarter (k : Nat) : Nat := k / 4

/-- The partition, and its VF, whose system core one is (R378, R382). -/
def State.sysPart (s : State) (k : Nat) : Option (Nat × Nat) :=
  let e := s.dev.partTbl.getD (sysQuarter k) 0#32
  if e.getLsbD 15 then some (bits e.toNat 8 5, bits e.toNat 0 6) else none

/-- Whether a master is one that a system core acts as: firmware in M mode, the hypervisor in HS mode, a partition OS in VS mode on a
core of its partition (R378, R389). -/
def State.actsAs (s : State) (k : Nat) (m : Master) : Bool :=
  k < 128 && !(s.syscore k).fenced && match m with
    | .firmware => (s.syscore k).mode = 0
    | .hypervisor => (s.syscore k).mode = 1
    | .partitionOS p => (s.syscore k).mode = 2 && (s.sysPart k).map (·.1) = some p
    | _ => false

/-- Whether an address is one of memory that a system core can reach: in the physical map of R317, and in M mode the carve-out (R389). A
pool of state pages lies outside that map (R412). -/
def State.sysReach (s : State) (mode pa n : Nat) : Bool := s.mappable pa n && (mode = 0 || !(carveOut pa || carveOut (pa + n - 1)))

/-- The address of an access of a system core that reads or writes, with the VF address in VS mode, where stage 2 translates it and the
address is non-secure (R309, R389); none is an access fault. A page fault of stage 2 is one too (DESIGN CHOICE, log 98). -/
def State.sysAddr (s : State) (k a n : Nat) (r w : Bool) : Option (State × Nat × Option (Nat × Nat)) :=
  let m := (s.syscore k).mode
  if m != 2 then if s.sysReach m a n then some (s, a, none) else none
  else
    match s.sysPart k with
    | none => none
    | some (_, vf) =>
      match s.use2 none vf a r w false with
      | (s, .ok l) => some (s, l.out a, some (vf, a))
      | _ => none

/-- Whether a system core may reach the fabric window now: in VS mode only while its partition may send (R401, R407). -/
def State.sysSends (s : State) (k : Nat) : Bool :=
  (s.syscore k).mode != 2 || match s.sysPart k with
    | some (p, _) => (s.part p).eid.getLsbD 31 && (s.portsOf p).any s.portUp
    | none => false

/-- Whether a FENCE orders accesses toward other parties (R339): as fence.acq, fence.rel or fence.full of package scope. Other forms
order nothing toward them. -/
def fenceOrders (pr pw sr sw : Bool) : Bool := pr && sw && (sr || pw)

/-- Bytes of an access of a system core. -/
def SysAcc.range : SysAcc → Nat × Nat
  | .load _ pa n _ | .amo _ _ pa n _ _ _ _ | .lr _ pa n _ _ | .sc _ _ pa n _ _ _ => (pa, n)
  | .store _ pa b => (pa, b.length)
  | .fence _ _ _ _ => (0, 0)

def SysAcc.overlaps (a b : SysAcc) : Bool := a.range.1 < b.range.1 + b.range.2 && b.range.1 < a.range.1 + a.range.2

/-- Whether an access reads, whether it writes, and the register it loads. -/
def SysAcc.reads : SysAcc → Bool
  | .load _ _ _ _ | .amo _ _ _ _ _ _ _ _ | .lr _ _ _ _ _ => true
  | _ => false
def SysAcc.writes : SysAcc → Bool
  | .store _ _ _ | .amo _ _ _ _ _ _ _ _ | .sc _ _ _ _ _ _ _ => true
  | _ => false
def SysAcc.dest : SysAcc → Option Nat
  | .load rd _ _ _ | .amo rd _ _ _ _ _ _ _ | .lr rd _ _ _ _ | .sc rd _ _ _ _ _ _ => some rd
  | _ => none

/-- Whether an access acquires, and whether it releases. -/
def SysAcc.acquires : SysAcc → Bool
  | .amo _ _ _ _ _ _ aq _ | .lr _ _ _ aq _ | .sc _ _ _ _ _ aq _ => aq
  | _ => false
def SysAcc.releases : SysAcc → Bool
  | .amo _ _ _ _ _ _ _ rl | .lr _ _ _ _ rl | .sc _ _ _ _ _ _ rl => rl
  | _ => false

/-- Whether an earlier access of a core keeps a later one from being performed (R339): a FENCE whose sets name both; one that acquires,
or before one that releases; accesses to the same bytes stay in order, but for a load after a store, which takes the store's bytes
(DEDUCED from RVWMO, log 98). -/
def SysAcc.before (a b : SysAcc) : Bool :=
  match a, b with
  | .fence _ _ _ _, .fence _ _ _ _ => true
  | .fence _ _ sr sw, b => (sr && b.reads) || (sw && b.writes)
  | a, .fence pr pw _ _ => (pr && a.reads) || (pw && a.writes)
  | .store _ _ _, .load _ _ _ _ => false
  | a, b => a.acquires || b.releases || (a.releases && b.acquires) || a.overlaps b

/-- A byte that a store not performed yet gives to a later load of its core. -/
def SysAcc.gives (a : SysAcc) (pa : Nat) : Option Byte :=
  match a with
  | .store _ p b => if p ≤ pa && pa < p + b.length then some (b.getD (pa - p) 0#8) else none
  | _ => none

/-- A value read into a register of a system core; x0 stays zero. -/
def SysSt.put (x : SysSt) (rd : Nat) (v : BitVec 64) : SysSt := if rd = 0 then x else { x with x := x.x.set rd v }

/-- n bytes as a register value. -/
def sysValue (b : List Byte) (sgn : Bool) : BitVec 64 :=
  let n := 8 * b.length
  let v := BitVec.ofNat 64 (leNat b)
  if sgn && n < 64 && leNat b / 2 ^ (n - 1) % 2 = 1 then v - BitVec.ofNat 64 (2 ^ n) else v

/-- What an indivisible read-modify-write of n bytes leaves: 0 swap, 1 add, 2 xor, 3 and, 4 or, 5 min, 6 max, 7 minu, 8 maxu (R9). -/
def sysAmo (op n : Nat) (old : List Byte) (v : BitVec 64) : List Byte :=
  let x := leNat old
  let y := v.toNat % 2 ^ (8 * n)
  let flip := fun (z : Nat) => natXor z (2 ^ (8 * n - 1))
  leBytes n (match op with
    | 0 => y
    | 1 => x + y
    | 2 => natXor x y
    | 3 => x &&& y
    | 4 => x ||| y
    | 5 => if flip x ≤ flip y then x else y
    | 6 => if flip x ≤ flip y then y else x
    | 7 => min x y
    | _ => max x y)

/-- Whether a store-conditional succeeds: its core holds a reservation of just these bytes, which are as they were read; one that could
succeed may fail all the same, by a free value (DESIGN CHOICE, log 98). -/
def State.scWins (s : State) (k pa : Nat) (b : List Byte) : Bool :=
  (s.syscore k).resv = some (pa, b) && Config.freeBit (s.free * 65536 + 65514)

/-- An access of a system core is performed at its home, where none before it keeps it back; a FENCE is over then (R339). -/
def State.sysPerform (s : State) (k i : Nat) : State :=
  let x := s.syscore k
  match x.pend[i]? with
  | none => s
  | some a =>
    let old := x.pend.take i
    if (old.any fun b => b.before a) || (windowPa a.range.1 && !s.sysSends k) then s
    else
      let s := s.setSys k { x with pend := x.pend.eraseIdx i }
      match a with
      | .fence _ _ _ _ => s
      | .store v pa b => s.homeWrite v pa b
      | .load rd pa n sgn =>
        let r := s.readOut ((List.range n).map (pa + ·))
        let b := r.2.zipIdx.map fun p => (old.reverse.findSome? fun e => e.gives (pa + p.2)).getD p.1
        r.1.setSys k ((r.1.syscore k).put rd (sysValue b sgn))
      | .amo rd v pa n op y _ _ =>
        let r := s.readOut ((List.range n).map (pa + ·))
        (r.1.setSys k ((r.1.syscore k).put rd (sysValue r.2 true))).homeWrite v pa (sysAmo op n r.2 y)
      | .lr rd pa n _ _ =>
        let r := s.readOut ((List.range n).map (pa + ·))
        r.1.setSys k { (r.1.syscore k).put rd (sysValue r.2 true) with resv := some (pa, r.2) }
      | .sc rd v pa n y _ _ =>
        let r := s.readOut ((List.range n).map (pa + ·))
        let win := r.1.scWins k pa r.2
        let s := r.1.setSys k { (r.1.syscore k).put rd (if win then 0#64 else 1#64) with resv := none }
        if win then s.homeWrite v pa (leBytes n y.toNat) else s

/-- Every access a system core has made is performed, in order. -/
def sysDrainN (k : Nat) : Nat → State → State
  | 0, s => s
  | n + 1, s => sysDrainN k n (s.sysPerform k 0)

def State.sysDrain (s : State) (k : Nat) : State := sysDrainN k (s.syscore k).pend.length s

/-- The partition whose pending and enabled interrupt bits interrupt a system core: core 4i of its lowest quarter-die (R385). -/
def State.external (s : State) (k : Nat) : Bool :=
  k % 4 = 0 && s.parts.any fun p => (s.quarters p.1).head? = some (sysQuarter k) && p.2.intp.toNat / 65536 % 8 &&& p.2.intp.toNat % 8 != 0

/-- The lowest quarter-die of a partition, and the clock its system cores count (R3, R354, R378). -/
def State.partDie (s : State) (p : Nat) : Nat := ((s.quarters p).headD 0) / 4

/-- Registers that an operation of a system core reads or writes. -/
def SysOp.regs : SysOp → List Nat
  | .set rd _ | .load rd _ _ _ | .lr rd _ _ _ _ | .reg rd _ _ | .ext rd | .prov rd => [rd]
  | .store rs _ _ => [rs]
  | .amo rd rs _ _ _ _ _ | .sc rd rs _ _ _ _ => [rd, rs]
  | _ => []

/-- Whether an operation waits for a register that an access not performed yet will load: the dependencies that RVWMO keeps, and a later
result of the register stands (R339). -/
def SysSt.waitsReg (x : SysSt) (o : SysOp) : Bool := x.pend.any fun a => a.dest.any fun r => r != 0 && o.regs.contains r

/-- An access of a system core made: where it may not reach the address it takes an access fault. -/
def State.sysAccess (s : State) (k a n : Nat) (r w : Bool) (acc : Nat → Option (Nat × Nat) → SysAcc) : State :=
  match s.sysAddr k a n r w with
  | none => s.setSys k { s.syscore k with fault := some a }
  | some (s, pa, v) => s.setSys k { s.syscore k with pend := (s.syscore k).pend ++ [acc pa v] }

/-- What a system core does, but for a control register (R9, R339, R385, R389): an access whose address it may not reach is an access
fault. One whose address is no multiple of its size, or whose size or operation is none, has no effect (DESIGN CHOICE, log 98). -/
def State.sysDo (s : State) (k : Nat) (o : SysOp) : State :=
  let x := s.syscore k
  if 128 ≤ k || x.fenced || x.waitsReg o then s
  else
    match o with
    | .mode m => if m < 3 then s.setSys k { x with mode := m } else s
    | .set rd v => s.setSys k (x.put rd v)
    | .load rd a n sgn =>
      if n = 0 || 8 < n || a % n != 0 then s else s.sysAccess k a n true false fun pa _ => .load rd pa n sgn
    | .store rs a n =>
      if n = 0 || 8 < n || a % n != 0 then s
      else s.sysAccess k a n false true fun pa v => .store v pa (leBytes n (x.x.getD rs 0#64).toNat)
    | .amo rd rs a n op aq rl =>
      if (n != 4 && n != 8) || 8 < op || a % n != 0 then s
      else s.sysAccess k a n true true fun pa v => .amo rd v pa n op (x.x.getD rs 0#64) aq rl
    | .lr rd a n aq rl =>
      if (n != 4 && n != 8) || a % n != 0 then s else s.sysAccess k a n true false fun pa _ => .lr rd pa n aq rl
    | .sc rd rs a n aq rl =>
      if (n != 4 && n != 8) || a % n != 0 then s
      else s.sysAccess k a n false true fun pa v => .sc rd v pa n (x.x.getD rs 0#64) aq rl
    | .fence pr pw sr sw => if fenceOrders pr pw sr sw then s.setSys k { x with pend := x.pend ++ [.fence pr pw sr sw] } else s
    | .perform i => s.sysPerform k i
    | .reg _ _ _ => s
    | .ext rd => s.setSys k (x.put rd (if s.external k then 1#64 else 0#64))
    | .prov rd =>
      if x.mode != 1 then s
      else
        let s := s.setSys k (x.put rd (BitVec.ofNat 64 (s.dev.prov.foldl (fun m v => m ||| 2 ^ v) 0)))
        { s with dev := { s.dev with prov := [] } }

end Sys2Proof.Machine
end

