-- ==== Sys2Proof/Machine/Pager.lean ====
section
/-!
DEFINITION. Sys2Proof/Machine/Pager.lean: what the owners of the translation stages do (R310, R318-R328): walks, invalidations,
fault queues and their resolutions, the tier transfer queues.
-/
namespace Sys2Proof.Machine
open Host (Outcome)

/-- Whether a master is the partition OS of a partition of a VF. -/
def State.osOf (s : State) (m : Master) (vf : Nat) : Bool :=
  match m with
  | .partitionOS p => (s.partsOf vf).contains p
  | _ => false

/-- PAGE_WALK (R310): the walk of an access, for the cluster that issued last. -/
def execPageWalk (vf ctx va : Nat) (a : Access) (s : State) : Out State :=
  let kind := match a with
    | .read => 0
    | .write => 1
    | .readWrite => 2
    | .fetch => 3
  .next (s.pageWalk vf ctx va a kind s.curCl none (coreCid (s.curCl * 4))).1

/-! ## Invalidations (R319) -/

/-- Pages of a region code: 4 KiB, 64 KiB, 2 MiB, 32 MiB, 1 GiB, every address; none for 6 and 7. -/
def regionPages (sz : Nat) : Option Nat :=
  match sz with
  | 0 => some 1
  | 1 => some 16
  | 2 => some 512
  | 3 => some 8192
  | 4 => some 262144
  | 5 => some 68719476736
  | _ => none

/-- Whether an address of a context, with its VF address, lies in an invalidated region. -/
def Inv.hits (i : Inv) (key va vfa : Nat) : Bool :=
  key / 65536 = i.vf && (if i.stg2 then i.page ≤ vfa / 4096 && vfa / 4096 < i.page + i.num
    else key % 65536 = i.ctx && i.page ≤ va / 4096 && va / 4096 < i.page + i.num)

/-- TLB_INV (R319, R380): by the hypervisor, or for stage 1 by a partition OS of the named VF. It takes effect once every store that the
writing system core has made is performed. -/
def execTlbInv (m : Master) (_die : Nat) (v : BitVec 64) (s : State) : Out State :=
  let n := v.toNat
  let vf := bits n 57 6
  let stg2 := v.getLsbD 63
  match regionPages (bits n 38 3) with
  | some k =>
    if (m = .hypervisor || (!stg2 && s.osOf m vf)) && bits n 36 2 = 0 then
      let s := s.sysDrain s.curSys
      .next { s with invs := s.invs ++ [⟨s.curSys, stg2, vf, bits n 41 16, bits n 0 36 / k * k, k⟩] }
    else .next s
  | none => .next s

/-- Whether an access that used a translation of the region has not completed for its counter: an operation stands in its group until
then, its beats not accepted yet among it, and so does one that a system core in VS mode has not performed (R141, R319). -/
def State.invBusy (s : State) (i : Inv) : Bool :=
  (i.stg2 && s.sys.any fun e => e.2.mode = 2 && e.2.pend != [] && (s.sysPart e.1).any fun p => p.2 = i.vf) ||
  s.groups.any fun p =>
    let key := s.keyOf p.2
    (p.2.ops.any fun o => o.ctr != .x && (o.accs ++ o.todo.flatten).any fun a => i.hits key a.va a.vfa) ||
      match p.2.notice with
      | some n => i.hits key n.va n.vfa
      | none => false

/-- TLB_BUSY as a system core reads it (R319). -/
def State.tlbBusy (s : State) (k : Nat) : Bool := s.invs.any fun i => i.who = k

/-- TLB_INV_COMPLETE (R319): every TLB, micro-TLB and walk cache drops its entries of the region; a beat of an instruction that has not
issued is translated again, as is the word that a command queue of the VF waits on; a group parked on a word of the VF reads it again. -/
def execTlbInvComplete (k : Nat) (s : State) : Out State :=
  match s.invs[k]? with
  | some i =>
    if s.invBusy i then .next s
    else
      let groups := s.groups.map fun p =>
        match p.2.wait with
        | some (5, .word _ _) => if s.keyOf p.2 / 65536 = i.vf then (p.1, { p.2 with wait := some (5, .done) }) else p
        | _ => p
      .next { s with
        invs := s.invs.eraseIdx k
        tlb := s.tlb.filter fun e => !i.covers e
        utlb := s.utlb.filter fun e => !i.covers e
        wcache := s.wcache.filter fun w => !i.leads w
        cores := s.cores.map fun (c : Nat × CoreSt) => (c.1, { c.2 with rejected := c.2.rejected.filter fun r =>
          !(r.first && r.accs.any fun a => i.hits (s.keyOf (s.grp r.gid)) a.va a.vfa) })
        vfs := s.vfs.map fun (f : Nat × VfSt) => if f.1 = i.vf then (f.1, { f.2 with waiting := none }) else f
        groups := groups }
  | none => .next s

/-! ## Fault queues (R322, R385) -/

/-- Whether a master may write the registers of a ring (R380). -/
def State.ringBy (s : State) (m : Master) (q : Ring) : Bool :=
  match q with
  | .guest vf => s.osOf m vf
  | .provider _ => m = .hypervisor
  | .ptr p => m = .partitionOS p

def State.ring (s : State) (q : Ring) : FQ :=
  match q with
  | .guest vf => (s.vf vf).gq
  | .provider vf => (s.vf vf).pq
  | .ptr p => (s.part p).tq

def State.setRing (s : State) (q : Ring) (f : FQ) : State :=
  match q with
  | .guest vf => s.setVf vf { s.vf vf with gq := f }
  | .provider vf => s.setVf vf { s.vf vf with pq := f }
  | .ptr p => s.setPart p { s.part p with tq := f }

/-- The records that walkers hold written where their queue has room (R322). -/
def State.writeHeld (s : State) : State :=
  s.frecs.foldl (fun s r => if r.prov then s.postProv r.vf r.w r.key else s.postGuest r.vf r.w r.key) { s with frecs := [] }

/-- FQ_BASE_WRITE (R322, R385): en = 1 enables the ring with head and tail 0. -/
def execFqBaseWrite (m : Master) (q : Ring) (v : BitVec 64) (s : State) : Out State :=
  if !s.ringBy m q then .next s
  else
    let guest := match q with
      | .provider _ => false
      | _ => true
    let b := v &&& (if guest then 0x0000FFFFFFFE0001#64 else 0x000FFFFFFFFE0001#64)
    let f := s.ring q
    let s := match q with
      | .ptr p => if v.getLsbD 0 then s.setPart p { s.part p with serv := [] } else s
      | _ => s
    .next ((s.setRing q (if v.getLsbD 0 then ⟨b, 0, 0, 0⟩ else { f with base := b })).writeHeld)

/-- FQ_PTR_HEAD_WRITE (R322): a head that would leave more than 4,096 records is ignored. -/
def execFqPtrHeadWrite (m : Master) (q : Ring) (v : BitVec 32) (s : State) : Out State :=
  let f := s.ring q
  let h := bits v.toNat 0 13
  if !s.ringBy m q || 4096 < (f.tail + 8192 - h) % 8192 then .next s
  else
    let s := s.setRing q { f with head := h }
    let s := match q with
      | .ptr p => s.setPart p { s.part p with serv := (s.part p).serv.filter fun r => (r.1 + 8192 - h) % 8192 < (f.tail + 8192 - h) % 8192 }
      | _ => s
    .next s.writeHeld

/-! ## Resolutions (R323) -/

/-- The keys a resolution clears, none where the write is ignored (R323, R380). -/
def State.resolved (s : State) (m : Master) (vf : Nat) (stg2 : Bool) (v : BitVec 64) : List FKey :=
  let n := v.toNat
  if !(if stg2 then m = .hypervisor else s.osOf m vf) || bits n 2 7 != 0 then []
  else
    match regionPages (bits n 9 3) with
    | some k =>
      let p := bits n 12 36 / k * k
      s.fkeys.filter fun f => f.vf = vf && f.stg2 = stg2 && (stg2 || f.ctx = bits n 48 16) && p ≤ f.page && f.page < p + k
    | none => []

/-- Keys cleared: records held for them are dropped (R322, R323). -/
def State.clearKeys (s : State) (ks : List FKey) : State :=
  { s with fkeys := s.fkeys.filter fun f => !ks.contains f, frecs := s.frecs.filter fun r => !ks.contains r.key }

/-- A party's keys once some are cleared: a party that waited on one waits no more, whatever faults anew (R323). -/
def wokenBy (ks mine : List FKey) : List FKey := if mine.any ks.contains then [] else mine

/-- Every party but the groups that waits on one of some keys translates again (R323). -/
def State.wakeParties (s : State) (ks : List FKey) : State :=
  { s with
    copies := s.copies.map fun (c : Nat × Copy) => (c.1, { c.2 with keys := wokenBy ks c.2.keys })
    units := s.units.map fun (u : Nat × UnitSt) => (u.1, { u.2 with
      chain := u.2.chain.map fun c => { c with links := c.links.map fun l => { l with keys := wokenBy ks l.keys } } })
    helms := s.helms.map fun (h : Nat × HelmSt) => (h.1, { h.2 with
      run := (match h.2.run with
        | .waiting (.keys mine) => .waiting (.keys (wokenBy ks mine))
        | r => r)
      defers := h.2.defers.map fun d => { d with keys := wokenBy ks d.keys } })
    works := s.works.map fun (w : Nat × Work) => (w.1, { w.2 with keys := wokenBy ks w.2.keys })
    vfs := s.vfs.map fun (f : Nat × VfSt) => (f.1, { f.2 with keys := wokenBy ks f.2.keys }) }

/-- FQ_RESOLVE (R323): it takes effect after the writer's earlier stores; the parties that wait on a key translate again, and so does a
walker whose guest record waits for its ring's page (R322). -/
def execFqResolve (m : Master) (vf : Nat) (stg2 : Bool) (v : BitVec 64) (s : State) : Out State :=
  if v.getLsbD 1 then .next s
  else
    let s := s.sysDrain s.curSys
    let ks := s.resolved m vf stg2 v
    .next ((s.clearKeys ks).wakeParties ks).writeHeld

/-- Address of a key's page. -/
def FKey.info (k : FKey) : Word := toW (k.page * 4096)

/-- The first of a party's keys among some. -/
def hitKey (ks mine : List FKey) : Option FKey := mine.find? ks.contains

/-- A group that waits on a key that cannot be resolved: PAGEFATAL at the context rung (R323). -/
def State.fatalGroup (s : State) (ks : List FKey) (g : Nat) : State :=
  let x := s.grp g
  match x.st, x.wait with
  | .parked, some (_, .keys mine) =>
    match hitKey ks mine with
    | some k => s.raise g 2 ⟨0x1B, k.info, x.pc, 2, false⟩
    | none => s
  | _, _ => s

/-- A copy that waits on such a key ends as failed. -/
def State.fatalCopy (s : State) (ks : List FKey) (k : Nat) : State :=
  match s.copy? k with
  | some c =>
    match hitKey ks c.keys with
    | some f => s.failCopy k c 0x1B f.info
    | none => s
  | none => s

/-- A helm that waits on such a key, in a load request or an addition, takes a helm fault (R247, R252). -/
def State.fatalHelm (s : State) (ks : List FKey) (hk : Nat) : State :=
  let key := hk / 1024
  let cl := hk % 1024
  let h := s.helm key cl
  let s := match h.defers with
    | d :: ds =>
      if (hitKey ks d.keys).isSome then
        (s.setHelm key cl { h with defers := ds }).helmFault key cl 0x1B (toW (d.pc % 4096 + 0x1A000)) d.pc 0#32 false
      else s
    | [] => s
  match h.run with
  | .waiting (.keys mine) =>
    match hitKey ks mine, s.oldestReq cl key with
    | some _, some (i, r) =>
      let idx := bits (wAt r.q 0).toNat 0 12 + r.got
      (s.takeReq cl i).helmFault key cl 0x1B (toW (idx % 4096)) (idx % 4096) 0#32 false
    | _, _ => s
  | _ => s

/-- The streams of a unit that wait on such a key end. -/
def State.fatalStreams (s : State) (ks : List FKey) (u : Nat) : State :=
  match (s.unit u).chain with
  | some c =>
    c.links.zipIdx.foldl (fun s l =>
      match hitKey ks l.1.keys with
      | some k => (s.setLink u l.2 { l.1 with ended := true, keys := [] }).streamReport u 0x1B k.info
      | none => s) s
  | none => s

/-- FQ_RESOLVE_FATAL (R323): the keys are cleared and every party that waits on one ends as its rule states. -/
def execFqResolveFatal (m : Master) (vf : Nat) (stg2 : Bool) (v : BitVec 64) (s : State) : Out State :=
  if !v.getLsbD 1 then .next s
  else
    let s := s.sysDrain s.curSys
    let ks := s.resolved m vf stg2 v
    let s := s.clearKeys ks
    let s := (s.groups.map (·.1)).foldl (fun s g => s.fatalGroup ks g) s
    let s := (s.copies.map (·.1)).foldl (fun s k => s.fatalCopy ks k) s
    let s := (s.helms.map (·.1)).foldl (fun s k => s.fatalHelm ks k) s
    let s := (s.units.map (·.1)).foldl (fun s u => s.fatalStreams ks u) s
    .next { s with
      works := s.works.map fun w => if (hitKey ks w.2.keys).isSome then (w.1, { w.2 with fatal := true, keys := [] }) else w
      vfs := s.vfs.map fun f => if (hitKey ks f.2.keys).isSome then (f.1, { f.2 with fatal := true, keys := [] }) else f }

/-! ## Tier transfers (R325-R327) -/

/-- Operation of a command, and the page and entry addresses it names. -/
def ttqOp (c : TtqCmd) : Nat := bits c.c6.toNat 30 2
def ttqVf (c : TtqCmd) : Nat := bits c.c6.toNat 0 6
def ttqSrc (c : TtqCmd) : Nat := bits c.c0.toNat 12 20 * 4096 + bits c.c1.toNat 0 20 * 4294967296
def ttqDst (c : TtqCmd) : Nat := bits c.c2.toNat 12 20 * 4096 + bits c.c3.toNat 0 20 * 4294967296
def ttqVer (c : TtqCmd) : Nat := bits c.c4.toNat 5 27 * 32 + bits c.c5.toNat 0 20 * 4294967296

/-- Whether every reserved bit of a command is zero. -/
def ttqClean (c : TtqCmd) : Bool :=
  bits c.c0.toNat 0 12 = 0 && bits c.c1.toNat 20 12 = 0 && bits c.c2.toNat 0 12 = 0 && bits c.c3.toNat 20 12 = 0 &&
    bits c.c4.toNat 0 5 = 0 && bits c.c5.toNat 20 12 = 0 && bits c.c6.toNat 6 24 = 0 && c.c7 = 0#32

/-- Whether n bytes from an address lie in an in-package tier, outside firmware's carve-out, which a command of the hypervisor, a
non-secure master, does not reach (R325, R389). -/
def State.inPackage (s : State) (pa n : Nat) : Bool :=
  s.mappable pa n && !outerPa pa && !windowPa pa && !carveOut pa && !carveOut (pa + n - 1)

/-- Whether a command keeps the placements of its operation (R325). -/
def State.placed (s : State) (c : TtqCmd) : Bool :=
  match ttqOp c with
  | 0 => s.inPackage (ttqSrc c) 4096 && s.inPackage (ttqDst c) 4096
  | 1 => s.inPackage (ttqSrc c) 4096 && outerPa (ttqDst c) && s.inPackage (ttqVer c) 32
  | 2 => outerPa (ttqSrc c) && s.inPackage (ttqDst c) 4096 && s.inPackage (ttqVer c) 32
  | _ => false

/-- A command entered in a die's queue by the hypervisor. -/
def ttqPush (m : Master) (die : Nat) (c : TtqCmd) (s : State) : State :=
  if m = .hypervisor then s.setDie die { s.die die with ttq := (s.die die).ttq ++ [c] } else s

/-- TTQ_MOVE (R325): operation 0, and the refused operation 3. -/
def execTtqMove (m : Master) (die : Nat) (c : TtqCmd) (s : State) : Out State :=
  .next (if ttqOp c = 0 || (ttqOp c) = 3 then ttqPush m die c s else s)

/-- TTQ_DEMOTE (R325). -/
def execTtqDemote (m : Master) (die : Nat) (c : TtqCmd) (s : State) : Out State :=
  .next (if ttqOp c = 1 then ttqPush m die c s else s)

/-- TTQ_PROMOTE (R325). -/
def execTtqPromote (m : Master) (die : Nat) (c : TtqCmd) (s : State) : Out State :=
  .next (if ttqOp c = 2 then ttqPush m die c s else s)

/-- The bytes of a page performed at its homes, after every copy in an L1 has been recalled (R327). -/
def State.pageRead (s : State) (pa : Nat) : State × List Byte :=
  let s := (List.range 32).foldl (fun s i =>
    let line := pa / 128 + i
    ((s.combine line).recallDirty line (BitVec.allOnes 128) (fun _ => true)).invalidate line (BitVec.allOnes 32) (fun _ => false)) s
  (s, (List.range 4096).map fun i => s.engineByte 1024 none (pa + i))

/-- A page written at its homes, line by line. -/
def State.pageWrite (s : State) (pa : Nat) (b : List Byte) : State :=
  (List.range 32).foldl (fun s i => s.homeWrite none (pa + 128 * i) ((b.drop (128 * i)).take 128)) s

/-- The helped marks of a page's lines go with its bytes (DEDUCED, log 42). -/
def State.copyMarks (s : State) (src dst : Nat) : State :=
  let on := (List.range 32).filter fun i => s.helped.contains (src / 128 + i)
  { s with helped := (on.map (dst / 128 + ·)) ++ s.helped.filter fun l => !(dst / 128 ≤ l && l < dst / 128 + 32) }

/-- The IV of a version entry at a version (R326). -/
def ttqIv (ver v : Nat) : Nat := ver / 32 * 2 ^ 49 + v

/-- A page under the key stream of a VF (R326). -/
def gcmPage (vf iv : Nat) (b : List Byte) : List Byte := b.zipIdx.map fun p => p.1 ^^^ Config.gcmStream vf iv p.2

/-- The status of a version entry written. -/
def State.verStatus (s : State) (ver st : Nat) : State := s.homeWrite none (ver + 24) (leBytes 4 st)

/-- One tier command carried out (R325-R327): a refused command that names a version entry writes status 2 there; where a tag fails, the
lines of the destination are poisoned and no L1 holds a span of them. -/
def State.ttqDo (s : State) (c : TtqCmd) : State :=
  if !(ttqClean c) || !s.placed c then
    (if ttqOp c != 0 && s.inPackage (ttqVer c) 32 then s.verStatus (ttqVer c) 2 else s)
  else
    match ttqOp c with
    | 0 =>
      let r := s.pageRead (ttqSrc c)
      (r.1.pageWrite (ttqDst c) r.2).copyMarks (ttqSrc c) (ttqDst c)
    | 1 =>
      let e := s.homeRead (ttqVer c) 32
      let v := leNat (e.2.take 6)
      if v = 2 ^ 48 - 1 then e.1.verStatus (ttqVer c) 2
      else
        let r := e.1.pageRead (ttqSrc c)
        let ct := gcmPage (ttqVf c) (ttqIv (ttqVer c) (v + 1)) r.2
        let s := (r.1.pageWrite (ttqDst c) ct).copyMarks (ttqSrc c) (ttqDst c)
        s.homeWrite none (ttqVer c) (leBytes 8 (v + 1) ++ leBytes 16 (Config.gcmTag (ttqVf c) (ttqIv (ttqVer c) (v + 1)) ct).toNat ++
          leBytes 8 0)
    | _ =>
      let e := s.homeRead (ttqVer c) 32
      let iv := ttqIv (ttqVer c) (leNat (e.2.take 6))
      let r := e.1.pageRead (ttqSrc c)
      if (Config.gcmTag (ttqVf c) iv r.2).toNat = leNat ((e.2.drop 8).take 16) then
        ((r.1.pageWrite (ttqDst c) (gcmPage (ttqVf c) iv r.2)).copyMarks (ttqSrc c) (ttqDst c)).verStatus (ttqVer c) 0
      else
        let s := (r.1.verStatus (ttqVer c) 1).pageRead (ttqDst c) |>.1
        { s with poison := s.poison ++ ((List.range 4096).map ((ttqDst c) + ·)).filter fun a => !s.poison.contains a }

/-- TTQ_COMMAND_COMPLETE (R325): the oldest command of a die completes and TTQ_DONE rises. -/
def execTtqCommandComplete (die : Nat) (s : State) : Out State :=
  let d := s.die die
  match d.ttq with
  | c :: cs =>
    let s := (s.setDie die { d with ttq := cs }).ttqDo c
    .next (s.setDie die { s.die die with ttqDone := (s.die die).ttqDone + 1#32 })
  | [] => .next s

end Sys2Proof.Machine
end

