-- ==== Sys2Proof/Machine/Ladder.lean ====
section
/-!
DEFINITION. Sys2Proof/Machine/Ladder.lean: the rungs above the group (R354-R364, R409), pre-emption (R369-R371), fencing of failed
units (R376, R377), and the end of a context.
-/
namespace Sys2Proof.Machine
open Host (Outcome)

/-! ## The block rung (R361) -/

/-- The handler group of a unit for a trapped group: the lowest-numbered other one, not exited, held or in handler mode. -/
def State.blockHandler (s : State) (u : Nat) (t : Option Nat) : Option (Nat × Group) :=
  ((s.groupsOf u).filter fun p => some p.1 != t && p.2.st != .exited && !p.2.held && !gstHdl p.2.gst).foldl (fun b p =>
    match b with
    | none => some p
    | some q => if p.2.gix < q.2.gix then some p else b) none

/-- A block-rung trap with no handler passes to the context rung; the helm halts there (R355, R361). -/
def State.blockPass (s : State) (u : Nat) (p : Option Nat) (t : Trap) : State :=
  match p with
  | some g => s.raiseUp g 2 { t with psd := true }
  | none =>
    let x := s.unit u
    let w := s.work x.work
    let key := ctxKey w.vf w.ctx
    s.helmFault key ((s.starvedHelm key u t.pc).getD (coreCl (x.cores.headD 0))) t.cause t.info t.pc 0#32 true

/-- BLOCK_HANDLER_ENTRY (R361): the oldest block-rung trap of a unit is served: its handler group enters bvec. -/
def execBlockHandlerEntry (u : Nat) (s : State) : Out State :=
  let x := s.unit u
  let w := s.work x.work
  let key := ctxKey w.vf w.ctx
  match x.bserve, x.btraps with
  | none, (p, t) :: rest =>
    if s.unitAway u || s.frozen key 0 then .next s
    else
      let s := (s.setUnit u { x with btraps := rest }).useTrap key false
      match s.blockHandler u p, s.trapBlock key with
      | some (hid, h), some (b, _) =>
        let v := pair48 (wAt b 2) (wAt b 3)
        if !goodVec v then .next (s.blockPass u p t)
        else
          let who : Word := match p with
            | some g => toW (s.grp g).gix
            | none => 0xFFFFFFFF#32
          let h := h.enterHandler h.firstPc t.word t.info (who, 0#32) (0#32, 0#32) (wAt b 6, wAt b 7 &&& 0xFFFF#32) v
          let act := h.st = .active
          let s := s.setGrp hid { (if act then h else h.ready (s.core h.core).cycle) with
            st := if h.lowStack then .refilling else if act then .active else .pending
            rung := 2
            served := t.cause
            service := 0
            serviceAt := (s.core h.core).cycle
            refill := [] }
          .next ((s.modUnit u fun y => { y with bserve := some (p, t) }).takeSlot hid)
      | _, _ => .next (s.blockPass u p t)
  | _, _ => .next s

/-! ## The context rung (R362, R363, R409) -/

/-- The cluster a unit identifier names. -/
def cidCl (w : Word) : Nat := bits w.toNat 29 3 * 96 + bits w.toNat 22 7

/-- The words T0 to T6 of a trap record (R363). -/
def TrapRec.words (r : TrapRec) : List Word :=
  [toW (r.key % 65536 * 65536 + r.party * 4096 + r.trap.word.toNat % 4096), r.trap.info, toW r.trap.pc,
    toW (r.trap.pc / 4294967296 % 65536 + r.hi.toNat % 65536 * 65536), r.ser, r.bix, r.cid]

/-- A record's bytes with a phase bit. -/
def TrapRec.bytes (r : TrapRec) (ph : Bool) : List Byte :=
  (r.words ++ [toW ((if ph then 2147483648 else 0) + r.gix % 32)]).flatMap fun w => leBytes 4 w.toNat

/-- The block-rung traps of a unit's helm that wait or are served: as the unit ends no handler is left, and each passes to the context rung
(R355, R361). -/
def State.passHelmTraps (s : State) (u : Nat) : State :=
  ((s.unit u).bserve.toList ++ (s.unit u).btraps).foldl (fun s p => if p.1.isNone then s.blockPass u none p.2 else s) s

/-- The unit of a trapped group ends (R362): its issued operations complete and its groups count as exited. -/
def State.endUnit (s : State) (u : Nat) : State :=
  let w := s.work (s.unit u).work
  let key := ctxKey w.vf w.ctx
  let s := s.passHelmTraps u
  let s := ((s.liveGroups u).map (·.1)).foldl (fun s g => (s.drain g).exitGroup g) s
  (s.setCtx key { s.ctx key with frames := (s.ctx key).frames.filter fun f => f.2 != u }).modUnit u fun x =>
    { x with swapped := false, preempted := false, btraps := [], bserve := none }

/-- The cluster whose task queue takes the handler task (R362): that of the trap, or the lowest of the partition not fenced. -/
def State.handlerCl (s : State) (r : TrapRec) : Nat :=
  match s.ctxPart (r.key / 65536) (r.key % 65536) with
  | none => cidCl r.cid
  | some p =>
    if r.party != 5 && r.party != 6 && s.coreIn p (cidCl r.cid * 4) then cidCl r.cid
    else
      let cls := (s.quarters p).flatMap fun q => (List.range 24).map (q * 24 + ·)
      (lowest (cls.filter fun c => (List.range 4).any fun i => !(s.core (c * 4 + i)).fenced)).getD 0

/-- Whether a group of the context's handler task is resident. -/
def State.handlerHere (s : State) (key : Nat) : Bool :=
  match (s.ctx key).handler with
  | some k => s.units.any fun p => p.2.work = k && !p.2.done && !s.unitAway p.1
  | none => false

/-- Whether record k of a context's ring has been passed by thead (R409). -/
def State.passed (s : State) (key k : Nat) : Bool :=
  match s.trapBlock key with
  | some (b, _) => ((wAt b 10).toNat % 256 + 512 - (k + 1)) % 256 < 128
  | none => false

/-- The services of the records that thead has passed are over: a record once passed stays so (R354, R409). -/
def State.dropPassed (s : State) (key : Nat) : State :=
  let c := s.ctx key
  s.setCtx key { c with service := c.service.filter fun v => !s.passed key v.num }

/-- The VF address of a context's trap block (R358). -/
def State.trapVfa (s : State) (key : Nat) : Nat :=
  match s.ctxDesc (key / 65536) (key % 65536) with
  | some d => pair48 (wAt d 2) (wAt d 3)
  | none => 0

/-- The record of a context-rung trap in the ring, its service count, and a handler task where none runs. -/
def State.ctxRecord (s : State) (r : TrapRec) (pa vfa tb tail hrec : Nat) : State :=
  let vf := r.key / 65536
  let s := match r.party, r.unit with
    | 0, some u => s.endUnit u
    | _, _ => s
  let s := s.homeWrite (some (vf, vfa)) pa (r.bytes (tail / 128 % 2 = 0))
  let s := (s.useTrap r.key true).homeWrite (some (vf, s.trapVfa r.key + 44)) (tb + 44) (leBytes 1 ((tail + 1) % 256))
  let core := if r.party = 0 then (r.gid.map fun g => (s.grp g).core).getD (s.handlerCl r * 4) else s.handlerCl r * 4
  let since := if s.handlerHere r.key then some (s.core core).cycle else none
  let c := s.ctx r.key
  let s := s.setCtx r.key { c with service := c.service ++ [⟨tail, r.trap.cause, core, 0, since⟩] }
  match c.handler with
  | some _ => if c.first = [] then s else s.setCtx r.key { s.ctx r.key with first := c.first ++ [r] }
  | none =>
    let cl := s.handlerCl r
    let q := s.newWork r.key hrec 0 (.handler cl)
    let s := q.1.setCluster cl { q.1.cluster cl with taskQ := (q.1.cluster cl).taskQ ++ [q.2.1] }
    s.setCtx r.key { s.ctx r.key with handler := some q.2.1, first := [r] }

/-- CONTEXT_TRAP (R362): a trap waiting for the context rung; with no handler, a full ring or a failed ring write it passes to the
partition rung (R355). -/
def execContextTrap (i : Nat) (s : State) : Out State :=
  match s.trapQ[i]? with
  | none => .next s
  | some r =>
    if r.rung != 2 || s.frozen r.key 0 then .next s
    else
      let s := ({ s with trapQ := s.trapQ.eraseIdx i }.useTrap r.key false).dropPassed r.key
      let pass := fun (s : State) => Outcome.next { s with trapQ := s.trapQ ++ [{ r with rung := 3, trap := { r.trap with psd := true } }] }
      match s.trapBlock r.key with
      | none => pass s
      | some (b, tb) =>
        let head := (wAt b 10).toNat % 256
        let tail := (wAt b 11).toNat % 256
        let hrec := pair48 (wAt b 4) (wAt b 5)
        if hrec = 0 || (tail + 256 - head) % 256 = 128 then pass s
        else
          let va := (pair48 (wAt b 8) (wAt b 9) + tail % 128 * 32) % 281474976710656
          match s.translate (r.key / 65536) (r.key % 65536) va .write 1 (cidCl r.cid) none r.cid with
          | (s, .ok pa vfa) => .next (s.ctxRecord r pa vfa tb tail hrec)
          | (s, _) => pass s

/-! ## Pre-emption (R369-R372) -/

/-- A draft of a pre-empted context is discarded, its copies with it (R371). -/
def State.discardDraft (s : State) (g : Nat) : State :=
  let x := s.grp g
  match x.draft with
  | some d =>
    if d.2 < 4096 then
      let s := ((s.draftDrop d).setDraft d .discarded).dropCopies g
      s.setGrp g { x with draft := some (d.1, 4096), ops := [], fences := [], st := .pending, wait := none }
    else s
  | none => s

/-- How an engine class stands after it has been asked to stop: not at its boundary yet, or stopped, its units saved or not (R369,
R372). -/
inductive Stopped where
  | notYet | saved | unsaved
  deriving DecidableEq, Repr

/-- How several parties of a class stand. -/
def Stopped.and : Stopped → Stopped → Stopped
  | .notYet, _ | _, .notYet => .notYet
  | .saved, .saved => .saved
  | _, _ => .unsaved

/-- The starvation counts of a pre-empted unit's parked groups stand still (R371); a swapped-out unit's count on (R174). -/
def State.pauseStarve (s : State) (u : Nat) : State :=
  ((s.liveGroups u).map (·.1)).foldl (fun s g => s.modGrp g fun x => { x with
    starve := if x.st = .parked then s.starved x else x.starve
    parkedAt := (s.core x.core).cycle }) s

/-- A unit pre-empted: brought to rest and saved (R369, R371, R372). One with an access that cannot be sent is not at rest. -/
def State.preemptUnit (s : State) (u : Nat) : Out (State × Stopped) :=
  let x := s.unit u
  let w := s.work x.work
  if x.done || x.preempted then .next (s, .saved)
  else if x.swapped then .next ((s.pauseStarve u).modUnit u fun y => { y with preempted := true }, .saved)
  else
    let s := ((s.liveGroups u).map (·.1)).foldl (fun s g => s.discardDraft g) s
    match s.restUnit u with
    | .next s =>
      if !s.quiet u then .next (s, .notYet)
      else
        match (s.pauseStarve u).saveUnit u false with
        | (s, .ok) => .next (s.modUnit u fun y => { y with preempted := true, back := true }, .saved)
        | (_, .full) => .next (s, .unsaved)
        | (t, .bad) => .next (t.poolFail (ctxKey w.vf w.ctx) (some u) (coreCid (x.cores.headD 0)), .unsaved)
    | .fault f => .fault f
    | .refused r => .refused r

/-- Some units pre-empted one after the other. -/
def State.preemptUnits : List Nat → Stopped → State → Out (State × Stopped)
  | [], ok, s => .next (s, ok)
  | u :: us, ok, s =>
    match s.preemptUnit u with
    | .next (s, b) => State.preemptUnits us (ok.and b) s
    | e => e

/-- The units of a context. -/
def State.unitsOf (s : State) (key : Nat) : List Nat :=
  (s.units.filter fun p => ctxKey (s.work p.2.work).vf (s.work p.2.work).ctx = key).map (·.1)

/-- The helm of a context on a cluster pre-empted: its requests leave the FIFO, its record is written, with the tiles of a bank that has
been written out as its earlier record has them (R242, R247, R369, R374). -/
def State.preemptHelm (s : State) (key cl : Nat) : State × Stopped :=
  let c := s.cluster cl
  let h := s.helm key cl
  let h := { h with saved := h.saved ++ c.fifo.filter fun r => r.key = key, preempted := true }
  match if h.out then s.readHelm key cl else (s, some none) with
  | (s, none) => (s, .unsaved)
  | (s, some old) =>
    match s.putHelm key cl { old.getD h with saved := h.saved, preempted := true } h.out with
    | (s, .ok) =>
      ((s.setCluster cl { s.cluster cl with
        fifo := c.fifo.filter fun r => r.key != key
        serve := if c.serve = some key then none else c.serve }).setHelm key cl h, .saved)
    | (s, .full) => (s, .unsaved)
    | (s, .bad) => (s.helmPoolFail key cl, .unsaved)

/-- The clusters on which a context has a helm state, or requests in the FIFO (R247). -/
def State.helmCls (s : State) (key : Nat) : List Nat :=
  let have_ := (s.helms.filter fun p => p.1 / 1024 = key).map fun p => p.1 % 1024
  let asked := (s.clusters.filter fun c => c.2.fifo.any fun r => r.key = key).map fun c => c.1
  (have_ ++ asked).eraseDups.filter fun cl => !(s.helm key cl).preempted

/-- The helms of a context pre-empted. -/
def State.preemptHelms (s : State) (key : Nat) : State × Stopped :=
  (s.helmCls key).foldl (fun (a : State × Stopped) cl =>
    let r := a.1.preemptHelm key cl
    (r.1, a.2.and r.2)) (s, .saved)

/-- The bank selectors that name a context flip: its bank is deselected (R242, R369). -/
def State.deselect (s : State) (key : Nat) : State :=
  { s with clusters := s.clusters.map fun (c : Nat × ClusterSt) => if c.2.sel = some key then (c.1, { c.2 with sel := none }) else c }

/-- A stop bit of a context set. -/
def State.stopCls (s : State) (key cls : Nat) : State :=
  s.setCtx key { s.ctx key with stops := (s.ctx key).stops ||| 2 ^ cls }

/-- What one engine class does to stop for a context (R369-R372): units at rest and saved; helm records written; the matrix engine's
bank deselected; the chunks begun ended; every accepted transfer ended. -/
def State.stopClass (s : State) (key cls : Nat) : Out (State × Stopped) :=
  match cls with
  | 0 =>
    match State.preemptUnits (s.unitsOf key) .saved s with
    | .next (s, .notYet) => .next (s, .notYet)
    | .next (s, ok) => .next (s.stopCls key 0, ok)
    | e => e
  | 1 =>
    let r := s.preemptHelms key
    .next (r.1.stopCls key 1, r.2)
  | 2 => .next ((s.deselect key).stopCls key 2, .saved)
  | 3 => .next ((s.endChunks fun c => c.key = key).stopCls key 3, .saved)
  | 4 =>
    let s := s.restTransfers ((s.transfersOf fun c => c.key = key).flatMap s.transferOrder)
    if s.transfersOf (fun c => c.key = key) = [] then .next (s.stopCls key 4, .saved) else .next (s, .notYet)
  | c => .next (s.stopCls key c, .saved)

/-- Some classes of some contexts stopped. -/
def State.stopAll : List (Nat × Nat) → Stopped → State → Out (State × Stopped)
  | [], ok, s => .next (s, ok)
  | (k, c) :: l, ok, s =>
    match s.stopClass k c with
    | .next (s, b) => State.stopAll l (ok.and b) s
    | e => e

/-- Contexts pre-empted whole by a trap at the partition or device rung, and held (R364): false while a party of them is not at its
boundary. -/
def State.holdCtxs (s : State) (keys : List Nat) : Out (State × Bool) :=
  match State.stopAll (keys.flatMap fun k => [4, 0, 1, 2, 3, 5].map fun c => (k, c)) .saved s with
  | .next (s, .notYet) => .next (s, false)
  | .next (s, _) => .next (keys.foldl (fun s k => s.setCtx k { s.ctx k with held := true, preempted := true }) s, true)
  | .fault f => .fault f
  | .refused r => .refused r

/-- The contexts a partition runs. -/
def State.ctxsIn (s : State) (p : Nat) : List Nat :=
  (s.ctxs.map (·.1)).filter fun k => s.ctxPart (k / 65536) (k % 65536) = some p

/-- The VF of a partition (R379). -/
def State.vfOf (s : State) (p : Nat) : Option Nat :=
  ((s.dev.partTbl.filter fun e => bits e.2.toNat 15 1 = 1 && bits e.2.toNat 8 5 = p).head?).map fun e => bits e.2.toNat 0 6

/-- The contexts a PMT operation names. -/
def State.pmtKeys (s : State) (p : Nat) : List Nat :=
  let x := s.part p
  if x.all then s.ctxsIn p
  else
    match s.vfOf p with
    | some v => [ctxKey v x.ctx]
    | none => []

/-- The write of PMT_CTL that starts an operation (R370, R380, R385). -/
def State.pmtGo (s : State) (m : Master) (p : Nat) (v : Word) (res : Bool) : Bool :=
  m = .hypervisor && v.getLsbD 31 && v.getLsbD 29 = res && !(s.part p).busy &&
    (v.getLsbD 16 || match s.vfOf p with
      | some f => s.ctxPart f (bits v.toNat 0 16) = some p
      | none => false)

/-- PMT_PREEMPT (R370): the pre-emption starts, no class has acknowledged. -/
def execPmtPreempt (m : Master) (p : Nat) (v : BitVec 32) (s : State) : Out State :=
  if s.pmtGo m p v false then
    .next (s.setPart p { s.part p with
      busy := true, err := false, ack := 0#6, res := false, all := v.getLsbD 16, ctx := bits v.toNat 0 16 })
  else .next s

/-- PREEMPT_CLASS_ACK (R369-R372): a class stops at its boundary, writes its records and acknowledges; with the last one the
pre-emption is complete. A class that is not at its boundary yet does not acknowledge. -/
def execPreemptClassAck (p cls : Nat) (s : State) : Out State :=
  let x := s.part p
  if !x.busy || x.res || 6 ≤ cls || x.ack.getLsbD cls then .next s
  else
    let keys := s.pmtKeys p
    match State.stopAll (keys.map fun k => (k, cls)) .saved s with
    | .next (s, .notYet) => .next s
    | .next (s, ok) =>
      let ack := x.ack ||| (1#6 <<< cls)
      let s := s.setPart p { s.part p with ack := ack, err := x.err || ok = .unsaved, busy := ack != 0x3F#6 }
      .next (if ack = 0x3F#6 then keys.foldl (fun s k => s.setCtx k { s.ctx k with preempted := true }) s else s)
    | .fault f => .fault f
    | .refused r => .refused r

/-- The helm of a context restored: its state is read back, and its requests re-enter the FIFO at its tail, past 16 entries where there
is no room for them (R247, R375; the last DESIGN CHOICE, log 132). -/
def State.resumeHelm (s : State) (key cl : Nat) : State :=
  match s.getHelm key cl with
  | (s, false) => s
  | (s, true) =>
    let h := s.helm key cl
    (s.setCluster cl { s.cluster cl with fifo := (s.cluster cl).fifo ++ h.saved }).setHelm key cl { h with saved := [], preempted := false }

/-- Whether a trap of a unit is still to be served, at the block rung or above (R361, R362, R364). -/
def State.trapOpen (s : State) (u : Nat) : Bool :=
  (s.unit u).bserve.isSome || (s.unit u).btraps != [] || s.trapQ.any fun r => r.unit = some u

/-- The groups of a unit that a trap at an upper rung has stopped go on, once that trap has been taken (R364; DEDUCED, log 71). -/
def State.unhold (s : State) (u : Nat) : State :=
  if s.trapOpen u then s
  else ((s.liveGroups u).map (·.1)).foldl (fun s g => s.modGrp g fun x => { x with held := false }) s

/-- A context resumed (R370): its units are ready for placement, starvation counts go on, its helms are restored, and the groups whose
trap the partition rung has taken go on. -/
def State.resumeCtx (s : State) (key : Nat) : State :=
  let s := s.setCtx key { s.ctx key with preempted := false, held := false, stops := 0 }
  let s := (s.unitsOf key).foldl (fun s u => s.unhold u) s
  let s := (s.unitsOf key).foldl (fun s u =>
    (((s.liveGroups u).map (·.1)).foldl (fun s g => s.modGrp g fun x =>
      if (s.unit u).preempted then { x with parkedAt := (s.core x.core).cycle } else x) s).modUnit u fun x => { x with preempted := false }) s
  ((s.helms.filter fun p => p.1 / 1024 = key && p.2.preempted).map fun p => p.1 % 1024).foldl (fun s cl => s.resumeHelm key cl) s

/-- PMT_RESUME (R370). -/
def execPmtResume (m : Master) (p : Nat) (v : BitVec 32) (s : State) : Out State :=
  if s.pmtGo m p v true then
    let s := s.setPart p { s.part p with
      err := false, ack := 0#6, res := true, all := v.getLsbD 16, ctx := bits v.toNat 0 16, held := false }
    .next ((s.pmtKeys p).foldl (fun s k => s.resumeCtx k) s)
  else .next s

/-! ## The partition and device rungs (R364) -/

/-- The partition of a record. -/
def State.recPart (s : State) (r : TrapRec) : Nat := (s.ctxPart (r.key / 65536) (r.key % 65536)).getD r.part

/-- A record in the partition trap ring (R363, R385), its service counted from now; the ring interrupts where it was empty. -/
def State.partRecord (s : State) (p : Nat) (r : TrapRec) (v : Nat × Nat) (pa : Nat) : State :=
  let x := s.part p
  let q := x.tq
  let s := s.homeWrite (some v) pa (r.bytes (q.tail / 4096 % 2 = 0))
  let s := s.setPart p { x with
    tq := { q with tail := (q.tail + 1) % 8192, seq := q.seq + 1 }
    serv := x.serv ++ [(q.tail, r.trap.cause, (s.die (s.partDie p)).sclk)] }
  if q.count = 0 then s.interrupt [p] 1 else s

/-- PARTITION_TRAP (R364): the context is pre-empted and held, and the partition trap ring receives the record. A record waits
while the ring is full, not enabled or not reached (R322); its context is held meanwhile, and the record's rung is then 6. -/
def execPartitionTrap (i : Nat) (s : State) : Out State :=
  match s.trapQ[i]? with
  | none => .next s
  | some r =>
    let p := s.recPart r
    let q := (s.part p).tq
    let vf := (s.vfOf p).getD (r.key / 65536)
    let keys := if r.key = noCtx || r.rung = 6 then [] else [r.key]
    let waits : Out State :=
      if r.rung = 6 then .next s
      else
        match s.holdCtxs keys with
        | .next (s, true) => .next { s with trapQ := s.trapQ.set i { r with rung := 6 } }
        | .next (s, false) => .next s
        | .fault f => .fault f
        | .refused r => .refused r
    if r.rung != 3 && r.rung != 6 then .next s
    else if !q.room then waits
    else
      match s.stage2 vf q.addr false true false with
      | .ok _ =>
        match s.holdCtxs keys with
        | .next (s, true) =>
          match s.use2 none vf q.addr false true false with
          | (s, .ok l) => .next ({ s with trapQ := s.trapQ.eraseIdx i }.partRecord p r (vf, q.addr) (l.out q.addr))
          | (s, _) => .next { s with trapQ := s.trapQ.set i { r with rung := 6 } }
        | .next (s, false) => .next s
        | .fault f => .fault f
        | .refused r => .refused r
      | _ => waits

/-- DEVICE_TRAP (R364): the partition is held, and firmware and the host receive the record; a record of an L2 slice or of a
fenced unit holds nothing. -/
def execDeviceTrap (i : Nat) (s : State) : Out State :=
  match s.trapQ[i]? with
  | none => .next s
  | some r =>
    if r.rung != 4 then .next s
    else
      let p := s.recPart r
      let tell := fun (s : State) => { s with
        trapQ := s.trapQ.eraseIdx i
        dev := { s.dev with reports := s.dev.reports ++ [.record (r.words ++ [toW (r.gix % 32)]) p (s.die 0).sclk false] } }
      if r.party = 6 || r.party = 7 then .next (tell s)
      else
        match (s.setPart p { s.part p with held := true }).holdCtxs (s.ctxsIn p) with
        | .next (s, true) => .next (tell s)
        | .next (s, false) => .next s
        | .fault f => .fault f
        | .refused r => .refused r

/-! ## Service timeouts (R354, R355, R409) -/

/-- Cycles counted of a group's service. -/
def State.served (s : State) (g : Group) : Nat := g.service + ((s.core g.core).cycle - g.serviceAt)

/-- A HANDLERTIMEOUT of a group handler, with the cause it served. -/
def State.timeoutGroup (s : State) (g rung limit : Nat) : State :=
  let x := s.grp g
  if x.rung != rung || !gstHdl x.gst || x.held || x.st = .exited || s.served x < limit || s.unitAway x.unit || s.frozen (s.keyOf x) 0
  then s else s.raise g rung ⟨0x19, toW x.served, x.firstPc, rung, false⟩

/-- The timeout of the context rung's service of record k (R409): the partition rung receives HANDLERTIMEOUT. -/
def State.timeoutCtx (s : State) (key k : Nat) : State :=
  let s := (s.useTrap key false).dropPassed key
  let c := s.ctx key
  match c.service.find? fun v => v.num = k with
  | none => s
  | some v =>
    let n := v.past + match v.since with
      | some t => (s.core v.core).cycle - t
      | none => 0
    if n < 1048576 || v.since = none then s
    else
      let s := s.setCtx key { c with service := c.service.filter fun w => w.num != k }
      match ((s.units.filter fun p => some p.2.work = c.handler && !p.2.done).map (·.1)).head? with
      | some u =>
        match (s.liveGroups u).head? with
        | some (g, x) => { s with trapQ := s.trapQ ++ [s.trapRec g 3 ⟨0x19, toW v.cause, x.firstPc, 3, false⟩] }
        | none => s
      | none => s

/-- HANDLERTIMEOUT (R354, R355): a rung's service timeout expires. The partition rung's cycles are those of the system core that takes
its interrupt. -/
def execHandlertimeout (h : HandlerRef) (s : State) : Out State :=
  match h with
  | .group g => .next (s.timeoutGroup g 1 65536)
  | .block u =>
    match ((s.groupsOf u).filter fun p => p.2.rung = 2).head? with
    | some p => .next (s.timeoutGroup p.1 2 262144)
    | none => .next s
  | .context vf ctx k => .next (s.timeoutCtx (ctxKey vf ctx) k)
  | .partition p k =>
    let x := s.part p
    match x.serv.find? fun r => r.1 = k with
    | some r =>
      if (s.die (s.partDie p)).sclk < r.2.2 + 16777216 then .next s
      else .next { s.setPart p { x with serv := x.serv.filter fun q => q.1 != k } with
        trapQ := s.trapQ ++ [⟨4, noCtx, p, none, none, 0, ⟨0x19, toW r.2.1, 0, 4, false⟩, 0#32, 0#32, 0#32, 0, 0#32⟩] }
    | none => .next s

/-! ## Cold reset and firmware (R354, R377, R390) -/

/-- Cold reset with its wipes (R390): every store of state at its reset value and LPDDR and SRAM zero. The life-cycle state,
firmware's records of fences (R377) and outer memory, which is not the package's, stay. -/
def State.cold (s : State) : State :=
  { State.reset with
    mem := s.mem.filter fun c => outerPa c.1
    cores := (s.cores.filter fun c => c.2.fenced).map fun c => (c.1, { CoreSt.init with fenced := true })
    clusters := (s.clusters.filter fun c => c.2.fenced).map fun c => (c.1, { ClusterSt.init with fenced := true })
    sys := (s.sys.filter fun c => c.2.fenced).map fun c => (c.1, { SysSt.init with fenced := true })
    dev := { DevSt.init with life := s.dev.life }
    agenda := s.agenda
    free := s.free }

/-- DEVICE_RUNG_TIMEOUT (R354): a record that firmware has not acknowledged for 2^28 cycles of the system core that runs it, on die 0
(DEDUCED from R389, log 43). -/
def execDeviceRungTimeout (i : Nat) (s : State) : Out State :=
  match s.dev.reports[i]? with
  | some (.record _ _ n false) => .next (if (s.die 0).sclk < n + 268435456 then s else s.cold)
  | _ => .next s

/-- FIRMWARE_ACKNOWLEDGE (R354): secure firmware acknowledges a record of the device rung. -/
def execFirmwareAcknowledge (i : Nat) (s : State) : Out State :=
  match s.dev.reports[i]? with
  | some (.record w p n _) => .next { s with dev := { s.dev with reports := s.dev.reports.set i (.record w p n true) } }
  | _ => .next s

/-! ## Fencing (R376, R377) -/

/-- A core of a partition with room for a unit, the lowest there is. -/
def State.roomFor (s : State) (u : Nat) : Option Nat :=
  let w := s.work (s.unit u).work
  let n := if (s.unit u).foldedChain then 1 else (s.liveGroups u).length
  match s.ctxPart w.vf w.ctx with
  | some p => ((s.quarters p).flatMap fun q => (List.range 96).map (q * 96 + ·)).find? fun c => s.roomAt p w c n (s.unit u).foot
  | none => none

/-- A unit that is to leave its cores: a block, task or folded chain migrates where a core has room; a spread chain is asked to fold; any
other is saved and placed again, a C gang whole (R163, R165, R179, R204, R376). What can do neither stays, and issues nothing there. -/
def State.leaveCores (s : State) (u : Nat) : Out State :=
  let old := (s.unit u).cores
  let us := s.gangOf u
  match (s.unit u).chain with
  | some c =>
    if !c.folded then .next (s.modUnit u fun x => { x with chain := some { c with pending := true } }) else
    match s.roomFor u with
    | some c => execMigrateUnit u c s
    | none => if s.unitHere u then s.saveOne u true else .next s
  | none =>
  let moved : Out State := match s.roomFor u with
    | some c => execMigrateUnit u c s
    | none => .next s
  match moved with
  | .next s => if (s.unit u).cores = old && us.all s.unitHere then State.saveAll true s us s else .next s
  | e => e

/-- A resident unit of a fenced core (R376): it leaves where its state reads; where it does not, its drafts start again and leave, and any
other unit takes one POISON at the context rung and ends. Whether the state reads is not the spec's to say: a free value. -/
def State.evacuate (s : State) (u : Nat) : Out State :=
  let gs := s.liveGroups u
  if Config.freeBit (s.free * 65536 + 65526 + 18446744073709551616 * (u + 1)) then
    match gs.find? fun p => p.2.draft.isNone with
    | some p =>
      let s := (gs.filter fun q => q.1 != p.1).foldl (fun s q => s.modGrp q.1 fun x => { x with held := true }) s
      .next (s.raise p.1 2 ⟨0x15, Config.freeWord (s.free * 65536 + 65530), p.2.firstPc, 2, false⟩)
    | none => (gs.foldl (fun s p => s.softError p.1 0#32) s).leaveCores u
  else s.leaveCores u

/-- Several units moved away. -/
def State.evacuateAll : List Nat → State → Out State
  | [], s => .next s
  | u :: us, s =>
    match s.evacuate u with
    | .next s => State.evacuateAll us s
    | e => e

/-- UNIT_FENCE (R376, R377): a core, or a whole cluster, takes no more work; its units leave; waiting C launches that no longer fit
are refused; the device rung receives a record. -/
def execUnitFence (k : FenceKind) (n : Nat) (s : State) : Out State :=
  let cs := match k with
    | .core => [n]
    | .cluster => (List.range 4).map (n * 4 + ·)
    | .sysCore => []
  let cid := match k with
    | .core => coreCid n
    | .cluster => coreCid (n * 4)
    | .sysCore => toW n
  let s := cs.foldl (fun s c => s.setCore c { s.core c with fenced := true }) s
  let s := if k = .cluster then s.setCluster n { s.cluster n with fenced := true } else s
  let s := if k = .sysCore then s.setSys n { s.syscore n with fenced := true, pend := [] } else s
  let us := (s.units.filter fun p => p.2.cores.any cs.contains && !p.2.done).map (·.1)
  match State.evacuateAll us s with
  | .next s =>
    let lost := (s.works.filter fun p =>
      p.2.phase = .accepted && p.2.next = 0 && p.2.cls = 0 && !p.2.chn && !p.2.isTask && match s.ctxPart p.2.vf p.2.ctx with
        | some q => !s.gangCapacity q p.2
        | none => false).map (·.1)
    let s := lost.foldl (fun s w => s.refuse w) s
    .next { s with trapQ := s.trapQ ++ [⟨4, noCtx, 0, none, none, 7, ⟨0, 0#32, 0, 4, false⟩, 0#32, 0#32, cid, 0, 0#32⟩] }
  | e => e

/-! ## The end of a context (R247, R364) -/

/-- CONTEXT_DESTROY: the partition OS destroys a context: its units, works, copies, helm requests and traps are gone, and the state pages
that only its transfers held are free (R247, R301, R364). -/
def execContextDestroy (vf ctx : Nat) (s : State) : Out State :=
  let key := ctxKey vf ctx
  let us := s.unitsOf key
  let gs := us.flatMap fun u => (s.liveGroups u).map (·.1)
  let s := gs.foldl (fun s g =>
    match (s.grp g).draft with
    | some d => if d.2 < 4096 then (s.draftDrop d).setDraft d .discarded else s
    | none => s) s
  let s := gs.foldl (fun s g => (s.dropCopies g).exitGroup g) s
  let s := us.foldl (fun s u => s.modUnit u fun x => { x with
    swapped := false, preempted := false, btraps := [], bserve := none, done := true, cores := [], chain := none }) s
  let dead := (s.works.filter fun p => p.2.vf = vf && p.2.ctx = ctx && p.2.phase != .complete && p.2.phase != .refused).map (·.1)
  let s := dead.foldl (fun s w => (s.dequeue w).setWork w { s.work w with phase := .complete, keys := [] }) s
  let f := s.vf vf
  let s := { s with copies := s.copies.filter fun c => c.2.key != key }
  let s := (List.range 8).foldl (fun s d => if (s.die d).sets = [] then s else s.freeSets d) s
  .next { s.setVf vf { f with launches := f.launches.filter fun w => !dead.contains w } with
    trapQ := s.trapQ.filter fun r => r.key != key
    clusters := s.clusters.map fun c => (c.1, { c.2 with
      fifo := c.2.fifo.filter fun r => r.key != key
      serve := if c.2.serve = some key then none else c.2.serve
      sel := if c.2.sel = some key then none else c.2.sel
      banks := c.2.banks.filter (· != key) })
    helms := s.helms.filter fun h => h.1 / 1024 != key
    tlb := s.tlb.filter fun e => !(e.vf = vf && e.ctx = ctx)
    utlb := s.utlb.filter fun e => !(e.vf = vf && e.ctx = ctx)
    wcache := s.wcache.filter fun w => !(w.vf = vf && !w.stg2 && w.ctx = ctx)
    ctxs := s.ctxs.set key { CtxSt.init with destroyed := true } }

end Sys2Proof.Machine
end

