-- ==== Sys2Proof/Machine/Parts.lean ====
section
/-!
DEFINITION. Sys2Proof/Machine/Parts.lean: what hosts, the hypervisor, partition OSes and firmware do to the package
(R378-R393): the device semaphore, the partition table and its wipes, BAR requests, the command queues, boot, attestation,
resets, and the registers without a row of their own (R175, R309, R330, R385, R386, R392, R401, R412).
-/
namespace Sys2Proof.Machine
open Host (Outcome)

/-- A message to a host or a requester. -/
def State.tell (s : State) (r : Report) : State := { s with dev := { s.dev with reports := s.dev.reports ++ [r] } }

/-! ## The device semaphore (R381) -/

/-- A party that can hold the semaphore: host port 0 or 1, or firmware (2). -/
def semNum (m : Master) : Option Nat :=
  match m with
  | .host p => if p < 2 then some p else none
  | .firmware => some 2
  | _ => none

/-- Whether a master owns the semaphore. -/
def State.semBy (s : State) (m : Master) : Bool := s.dev.semHeld && semNum m = some s.dev.semOwn

/-- The value of DEV_SEM. -/
def State.semWord (s : State) : Word := toW ((if s.dev.semHeld then 2147483648 else 0) + s.dev.semOwn)

/-- DEV_SEM_READ (R381): a test-and-set for a host port or firmware; another master only reads. -/
def execDevSemRead (m : Master) (s : State) : Out State :=
  let t := s.tell (.semRead m s.semWord)
  match semNum m with
  | some n => if s.dev.semHeld then .next t else .next { t with dev := { t.dev with semHeld := true, semOwn := n } }
  | none => .next t

/-- DEV_SEM_WRITE (R381): any value, by the owner. -/
def execDevSemWrite (m : Master) (_v : BitVec 32) (s : State) : Out State :=
  .next (if s.semBy m then { s with dev := { s.dev with semHeld := false } } else s)

/-- A write of DEV_CTL (R381): ignored with a reserved bit set; rst wins over fwu, which the reset would clear. -/
def State.devCtl (s : State) (m : Master) (v : Word) : State :=
  if !s.semBy m || bits v.toNat 2 30 != 0 then s
  else if v.getLsbD 0 then s.cold
  else if v.getLsbD 1 then { s with dev := { s.dev with fwu := true } }
  else s

/-- DEV_CTL_FWU (R381, R389). -/
def execDevCtlFwu (m : Master) (v : BitVec 32) (s : State) : Out State := .next (s.devCtl m v)

/-- DEV_CTL_RST (R381, R390). -/
def execDevCtlRst (m : Master) (v : BitVec 32) (s : State) : Out State := .next (s.devCtl m v)

/-- HOST_LINK_RESET (R381): a link reset frees a semaphore the port holds. -/
def execHostLinkReset (port : Nat) (s : State) : Out State :=
  .next (if s.semBy (.host port) then { s with dev := { s.dev with semHeld := false } } else s)

/-! ## Boot, attestation, resets (R389, R390) -/

/-- The failing stages of a boot: 1 firmware, 2 hypervisor, 3 + p for partition image p. -/
def badStages (firmwareOk hypervisorOk : Bool) (badParts : List Nat) : List Nat :=
  (if firmwareOk then [] else [1]) ++ (if hypervisorOk then [] else [2]) ++ (badParts.filter (· < 32)).map (3 + ·)

/-- BOOT_VERIFY (R389): firmware that fails halts the package; a partition image that fails leaves its partition held. Where
several images fail, bad names one of them. An update is verified in the same way before it replaces the old image, which
lies in the boot flash. -/
def execBootVerify (firmwareOk hypervisorOk : Bool) (badParts : List Nat) (s : State) : Out State :=
  if s.dev.fwu then .next { s with dev := { s.dev with fwu := false } }
  else if s.dev.bootDone || s.dev.halted then .next s
  else if !firmwareOk then .next { s with dev := { s.dev with halted := true, bootBad := 1 } }
  else
    let l := badStages firmwareOk hypervisorOk badParts
    let bad := l.getD ((Config.freeWord (s.free * 65536)).toNat % l.length) 0
    let s := { s with dev := { s.dev with bootDone := true, bootBad := bad } }
    .next ((badParts.filter (· < 32)).foldl (fun s p => s.setPart p { s.part p with held := true, bad := true }) s)

/-- Units that firmware has fenced: a cluster fenced whole is one (R376, R377, R389). -/
def State.fencedUnits (s : State) : Nat :=
  (s.cores.filter fun c => c.2.fenced && !(s.cluster (coreCl c.1)).fenced).length + (s.clusters.filter fun c => c.2.fenced).length +
    (s.sys.filter fun c => c.2.fenced).length

/-- ATTESTATION_REQUEST (R389): nonce, life-cycle state and the count of fenced units; the digests and the signature, which
only firmware can make, are free values (PRESUMED, log 22). -/
def execAttestationRequest (_m : Master) (nonce : BitVec 256) (s : State) : Out State :=
  .next (s.tell (.attestation nonce s.dev.life s.fencedUnits
    ((List.range 344).map (Config.attestWord s.free))))

/-- COLD_RESET (R390). -/
def execColdReset (s : State) : Out State := .next s.cold

/-- LIFE_CYCLE_CHANGE (R390): the same wipes, and the new life-cycle state. -/
def execLifeCycleChange (v : Nat) (s : State) : Out State := .next { s.cold with dev := { s.cold.dev with life := v } }

/-! ## The partition table and its wipes (R382, R390) -/

/-- The entry of a quarter-die. -/
def State.partEnt (s : State) (q : Nat) : Word := s.dev.partTbl.getD q 0#32

def entV (w : Word) : Bool := w.getLsbD 15
def entWip (w : Word) : Bool := w.getLsbD 16
def entPart (w : Word) : Nat := bits w.toNat 8 5
def entVf (w : Word) : Nat := bits w.toNat 0 6

/-- Whether a write of an entry is carried out (R382). -/
def State.partWrites (s : State) (m : Master) (q : Nat) (v : Word) : Bool :=
  s.semBy m && q < 32 && bits v.toNat 17 15 = 0 && bits v.toNat 13 2 = 0 && bits v.toNat 6 2 = 0 && !(entWip (s.partEnt q)) &&
    !s.dev.partTbl.any fun e => e.1 != q && entV e.2 && entPart e.2 = entPart v && entVf e.2 != entVf v

/-- The ranges of physical addresses a stage-2 table maps. -/
def State.leaves2 (s : State) : List Nat → Nat → List (Nat × Nat)
  | [], _ => []
  | l :: ls, tbl => (List.range 512).flatMap fun i =>
    let e := leNat (s.mem.bytes (tbl + 8 * i) 8)
    if !peV e || s.peBad true l e then []
    else if peLf e then
      let n := 2 ^ (lvlShift l + if peCont e = 4 then 4 else 0)
      [(peOa e / n * n, n)]
    else State.leaves2 s ls (peOa e)

/-- The ranges a VF's stage 2 maps. -/
def State.vfRanges (s : State) (vf : Nat) : List (Nat × Nat) :=
  let r := (s.vf vf).s2.toNat
  if peV r then s.leaves2 [1, 2, 3, 4] (peOa r) else []

/-- Whether an address lies in a quarter-die's LPDDR channels (R378). -/
def inChannels (q pa : Nat) : Bool := lpddrPa pa && homeDie pa = q / 4 && Config.lpddrChannel pa % 8 / 2 = q % 4

/-- The units of a quarter-die pre-empted (R370, R382); one that cannot be saved ends. -/
def State.clearUnits : List Nat → State → Out State
  | [], s => .next s
  | u :: us, s =>
    match s.preemptUnit u with
    | .next (s, ok) => State.clearUnits us (if ok = .saved then s else s.endUnit u)
    | e => match e with
      | .fault f => .fault f
      | .refused r => .refused r
      | .next r => .next r.1

/-- The units, engines and system cores of a quarter-die at their reset values (R390). -/
def State.wipeUnits (s : State) (q : Nat) : State :=
  let s := (s.l1.filter fun l => l.core / 96 = q).foldl (fun s l =>
    ((s.combine l.line).writeBack l.core l.line).dropL1 l.core l.line) s
  let lost := s.works.filter fun p => p.2.phase = .queued && match p.2.src with
    | .launch c => c / 96 = q
    | .task cl | .copy cl _ | .handler cl => cl / 24 = q
    | .host => false
  { s with
    works := s.works.map fun p => if (lost.map (·.1)).contains p.1 then (p.1, { p.2 with phase := .refused }) else p
    cores := s.cores.filterMap fun c =>
      if c.1 / 96 != q then some c else if c.2.fenced then some (c.1, { CoreSt.init with fenced := true }) else none
    clusters := s.clusters.filterMap fun c =>
      if c.1 / 24 != q then some c else if c.2.fenced then some (c.1, { ClusterSt.init with fenced := true }) else none
    helms := s.helms.filter fun h => h.1 % 1024 / 24 != q || h.2.preempted
    sys := s.sys.filterMap fun c =>
      if c.1 / 4 != q then some c else if c.2.fenced then some (c.1, { SysSt.init with fenced := true }) else none
    tlb := s.tlb.filter fun e => e.cl / 24 != q
    utlb := s.utlb.filter fun e => e.cl / 96 != q }

/-- What is left of a VF on a quarter-die it loses: draft entries, L2 lines, which are written to their tiers first, and pages in the
quarter-die's channels, of which no cache keeps a byte (R390; the first DESIGN CHOICE, log 112). -/
def State.wipeVf (s : State) (q vf : Nat) : State :=
  let rs := s.vfRanges vf
  let gone := fun pa => inChannels q pa && rs.any fun r => r.1 ≤ pa && pa < r.1 + r.2
  let s := (s.groups.filter fun p => s.keyOf p.2 / 65536 = vf).foldl (fun s p =>
    match p.2.draft with
    | some d => if d.2 < 4096 then (s.draftDrop d).setDraft d .discarded else s
    | none => s) s
  let s := (s.l1.filter fun l => gone (l.line * 128)).foldl (fun s l => s.dropL1 l.core l.line) s
  { s with
    l2 := s.l2.filter fun l => !l.vfs.contains vf && !gone (l.line * 128)
    drafts := s.drafts.filter fun x => !gone (x.line * 128)
    mem := s.mem.filter fun c => !gone c.1
    poison := s.poison.filter fun a => !gone a
    helped := s.helped.filter fun l => !gone (l * 128) }

/-- PART_TBL_WRITE (R382): a valid entry that changes is first cleared of its units and wiped. -/
def execPartTblWrite (m : Master) (q : Nat) (v : BitVec 32) (s : State) : Out State :=
  let old := s.partEnt q
  let new := v &&& 0x9F3F#32
  if !s.partWrites m q v then .next s
  else if entV old && (entPart old != entPart new || entVf old != entVf new || !(entV new)) then
    match State.clearUnits ((s.units.filter fun p => p.2.cores.any fun c => c / 96 = q).map (·.1)) s with
    | .next s =>
      let s := ((s.helms.filter fun h => h.1 % 1024 / 24 = q && !h.2.preempted).map (·.1)).foldl
        (fun s h => (s.preemptHelm (h / 1024) (h % 1024)).1) s
      let s := (s.wipeUnits q).wipeVf q (entVf old)
      .next { s with dev := { s.dev with partTbl := s.dev.partTbl.set q (new ||| 0x10000#32) } }
    | e => e
  else .next { s with dev := { s.dev with partTbl := s.dev.partTbl.set q new } }

/-- QUARTER_WIPE_DONE (R390): wip clears. -/
def execQuarterWipeDone (q : Nat) (s : State) : Out State :=
  .next (if entWip (s.partEnt q) then { s with dev := { s.dev with partTbl := s.dev.partTbl.set q (s.partEnt q &&& 0xFFFF#32) } }
    else s)

/-! ## Host port requests (R383, R384) -/

/-- The first address of each page among n bytes from a VF address. -/
def pageStarts (a n : Nat) : List Nat :=
  if n = 0 then []
  else (List.range ((a + n - 1) / 4096 - a / 4096 + 1)).map fun i => if i = 0 then a else (a / 4096 + i) * 4096

/-- Whether some partition of a VF may send through the fabric (R401, R407). -/
def State.vfSends (s : State) (vf : Nat) : Bool :=
  (s.partsOf vf).any fun p => (s.part p).eid.getLsbD 31 && (s.portsOf p).any s.portUp

/-- The pages of a request from outside translated through stage 2; none where one does not end in outcome 5 of R316, or lies in the
fabric window of a VF that may not send. -/
def State.outside (vf : Nat) (r w : Bool) : List Nat → State → Option (State × Tbl Nat)
  | [], s => some (s, [])
  | a :: as, s =>
    match s.use2 none vf a r w false with
    | (s, .ok l) =>
      if windowPa (l.out a) && !((s.vf vf).pol.getLsbD 3 && s.vfSends vf) then none
      else (State.outside vf r w as s).map fun q => (q.1, q.2.set (a / 4096) (l.out a / 4096))
    | _ => none

/-- The physical address of a VF address under a page map. -/
def pageAt (m : Tbl Nat) (a : Nat) : Nat := m.getD (a / 4096) 0 * 4096 + a % 4096

/-- HOST_BAR2_READ (R383). -/
def execHostBar2Read (vf off n : Nat) (s : State) : Out State :=
  match (if s.partsOf vf = [] || 2 ^ 40 < off + n then none else State.outside vf true false (pageStarts off n) s) with
  | none => .next (s.tell (.hostAbort vf))
  | some (s, m) =>
    let r := s.readOut ((List.range n).map fun i => pageAt m (off + i))
    .next (r.1.tell (.hostRead vf r.2))

/-- HOST_BAR2_WRITE (R383). -/
def execHostBar2Write (vf off : Nat) (bytes : List (BitVec 8)) (s : State) : Out State :=
  match (if s.partsOf vf = [] || 2 ^ 40 < off + bytes.length then none
    else State.outside vf false true (pageStarts off bytes.length) s) with
  | none => .next (s.tell (.hostAbort vf))
  | some (s, m) =>
    .next ((runsOf (bytes.zipIdx.map fun p => (off + p.2, p.1))).foldl
      (fun s r => s.engineWrite none vf (pageAt m r.1) r.1 r.2) s)

/-- NV_INT_WRITE (R384): INT_PEND.nvi of a partition of the VF. -/
def execNvIntWrite (vf : Nat) (v : BitVec 32) (s : State) : Out State :=
  .next (if (s.partsOf vf).contains (bits v.toNat 0 5) then s.interrupt [bits v.toNat 0 5] 2 else s)

/-! ## Command queues (R386-R388) -/

/-- The system-core clock that a VF's queue unit counts: that of the die of its lowest quarter-die (R387). -/
def State.queueClock (s : State) (vf : Nat) : Nat := (s.die (((s.partsOf vf).flatMap s.quarters).foldl min 31 / 4)).sclk

/-- Whether a master is a host that reaches a VF's registers: the VF is enabled (R379, R383). -/
def State.hostOf (s : State) (m : Master) (vf : Nat) : Bool :=
  match m with
  | .hostVf _ v => v = vf && s.partsOf vf != []
  | _ => false

/-- CQ_BASE_WRITE (R386): setting en restarts the count of packets. -/
def execCqBaseWrite (m : Master) (vf : Nat) (v : BitVec 64) (s : State) : Out State :=
  if !s.hostOf m vf then .next s
  else
    let f := { s.vf vf with cqBase := v &&& 0x0000FFFFFFFE0001#64 }
    .next (s.setVf vf (if v.getLsbD 0 then
      { f with done := 0#32, kick := 0#32, kicked := false, reread := 0, waiting := none, signal := false, keys := [], fatal := false }
      else f))

/-- CQ_KICK (R386): a stamp already executed, or beyond the ring, is ignored; a later kick re-reads the packet (R387). -/
def execCqKick (m : Master) (vf : Nat) (v : BitVec 32) (s : State) : Out State :=
  let f := s.vf vf
  match m with
  | .hostVf port _ =>
    if !s.hostOf m vf || 2048 < (v - f.done).toNat then .next s
    else .next (s.setVf vf { f with kick := v, kickPort := port, kicked := true, reread := 0, readAt := s.queueClock vf })
  | _ => .next s

/-- The VF address of the next packet: slot (H + 1) mod 2048 of the ring. -/
def VfSt.slotAt (f : VfSt) : Nat := bits f.cqBase.toNat 17 31 * 131072 + (f.done + 1#32).toNat % 2048 * 64

/-- Whether the queue unit of a VF has a packet to read. -/
def State.cqRuns (s : State) (vf : Nat) : Bool :=
  let f := s.vf vf
  f.cqBase.getLsbD 0 && f.kicked && f.waiting = none && f.done != f.kick && s.partsOf vf != [] &&
    (f.keys = [] || f.fatal || f.keys.any fun k => !s.fkeys.contains k)

/-- The sixteen words of the next packet, read at its home; none where its page is not mapped for reading, or cannot be reached through
the fabric (R401). -/
def State.cqRead (s : State) (vf : Nat) : Option (State × List Word) :=
  let a := (s.vf vf).slotAt
  match s.use2 none vf a true false false with
  | (s, .ok l) =>
    let pa := l.out a
    if windowPa pa && !s.vfSends vf then none else
    let s := s.readLine (pa / 128) ((List.range 64).map (pa + ·))
    some (s, leWords ((List.range 64).map fun i => s.engineByte 1024 none (pa + i)) 16)
  | _ => none

/-- The next packet where its stamp matches (R387). -/
def State.cqPacket (s : State) (vf : Nat) : Option (State × List Word) :=
  if s.cqRuns vf then (s.cqRead vf).bind fun r => if wAt r.2 15 = (s.vf vf).done + 1#32 then some r else none else none

def cqOp (p : List Word) : Nat := bits (wAt p 0).toNat 0 8
def cqCtx (p : List Word) : Nat := bits (wAt p 0).toNat 16 16
def cqAddr (p : List Word) : Nat := pair48 (wAt p 1) (wAt p 2)

/-- A packet executed: H rises, and the next packet's reads begin. -/
def State.cqAdvance (s : State) (vf : Nat) : State :=
  let f := s.vf vf
  s.setVf vf { f with done := f.done + 1#32, reread := 0, readAt := s.queueClock vf, waiting := none, signal := false, keys := [], fatal := false }

/-- P14 of the next packet written (R386). -/
def State.cqStatus (s : State) (vf : Nat) (v : Word) : State := s.packetStatus vf (s.vf vf).slotAt v

/-- A packet refused: P14 = 2, rf, and the head advances (R386, R388). -/
def State.cqRefuse (s : State) (vf : Nat) : State :=
  let s := s.cqStatus vf 2#32
  (s.setVf vf { s.vf vf with rf := true }).cqAdvance vf

/-- CQ_STAMP_REREAD (R387): a further read of a packet whose stamp does not match, 1,024 cycles after the last; the sixteenth reports
KICKSTALE and stops the queue. -/
def execCqStampReread (vf : Nat) (s : State) : Out State :=
  if !s.cqRuns vf then .next s
  else
    match s.cqRead vf with
    | none => .next s
    | some (s, p) =>
      let f := s.vf vf
      let now := s.queueClock vf
      if wAt p 15 = f.done + 1#32 || now < f.readAt + 1024 then .next s
      else if f.reread < 15 then .next (s.setVf vf { f with reread := f.reread + 1, readAt := now })
      else .next ((s.setVf vf { f with reread := 16, ks := true, kicked := false }).tell (.kickStale vf f.kickPort))

/-- CQ_NOP (R386, R388): a nop only advances the head; a packet with an op above 3 is refused. -/
def execCqNop (vf : Nat) (s : State) : Out State :=
  match s.cqPacket vf with
  | none => .next s
  | some (s, p) => .next (if cqOp p = 0 then s.cqAdvance vf else if 3 < cqOp p then s.cqRefuse vf else s)

/-- CQ_LAUNCH (R388): the record is checked by R153 and enters the launch unit, or is refused. -/
def execCqLaunch (vf : Nat) (s : State) : Out State :=
  match s.cqPacket vf with
  | none => .next s
  | some (s, p) =>
    let key := ctxKey vf (cqCtx p)
    if cqOp p != 1 || s.frozen key 5 then .next s
    else
      match s.checkRecord { Work.blank with vf := vf, ctx := cqCtx p, addr := cqAddr p, fatal := (s.vf vf).fatal } with
      | (s, .waits k) => .next (s.setVf vf { s.vf vf with keys := [k] })
      | (s, .refused) => .next (s.cqRefuse vf)
      | (s, .ok w) =>
        let r := s.newWork key (cqAddr p) 0 .host
        let s := r.1.setWork r.2.1 { r.1.work r.2.1 with
          words := w.words, stab := w.stab, sdesc := w.sdesc, phase := .accepted, pkt := (s.vf vf).slotAt }
        let s := s.cqStatus vf 1#32
        .next ((s.setVf vf { s.vf vf with launches := (s.vf vf).launches ++ [r.2.1] }).cqAdvance vf)

/-- The word a wait or a signal names, translated in its context (R388); a fault holds the queue, another failure refuses the
packet; in the fabric window the queue waits until its partition may send, and the other device may refuse it (R401, R403). -/
def State.cqWord (s : State) (vf : Nat) (p : List Word) (a : Access) (kind : Nat) : State × Option (Nat × Nat) :=
  let cl := s.workCl { Work.blank with vf := vf, ctx := cqCtx p }
  if (s.vf vf).fatal || cqAddr p % 4 != 0 then (s.cqRefuse vf, none)
  else
    match s.translate vf (cqCtx p) (cqAddr p) a kind cl none (coreCid (cl * 4)) with
    | (s, .ok pa vfa) =>
      if windowPa pa && !s.sends (ctxKey vf (cqCtx p)) then (s, none)
      else if windowPa pa && Config.freeBit (s.free * 65536 + 65531) then (s.cqRefuse vf, none)
      else (s, some (pa, vfa))
    | (s, .fault k) => (s.setVf vf { s.vf vf with keys := [k] }, none)
    | (s, _) => (s.cqRefuse vf, none)

/-- The word at a physical address, read at its home (R388). -/
def State.cqValue (s : State) (pa : Nat) : State × Word :=
  let s := s.combine (pa / 128)
  (s, leWord ((List.range 4).map fun i => s.engineByte 1024 none (pa + i)))

/-- CQ_WAIT (R388): the queue proceeds where the word is at least P3, else it waits for writes of it. -/
def execCqWait (vf : Nat) (s : State) : Out State :=
  match s.cqPacket vf with
  | none => .next s
  | some (s, p) =>
    if cqOp p != 2 then .next s
    else
      match s.cqWord vf p .read 0 with
      | (s, none) => .next s
      | (s, some (pa, _)) =>
        let r := s.cqValue pa
        if (wAt p 3).toNat ≤ r.2.toNat then .next (r.1.cqAdvance vf)
        else .next (r.1.setVf vf { r.1.vf vf with waiting := some (pa, wAt p 3) })

/-- CQ_WAIT_SATISFIED (R388): the word, read again after a write to its line, is at least P3. -/
def execCqWaitSatisfied (vf : Nat) (s : State) : Out State :=
  match (s.vf vf).waiting with
  | none => .next s
  | some (pa, v) =>
    if windowPa pa && !s.vfSends vf then .next s else
    let r := s.cqValue pa
    .next (if v.toNat ≤ r.2.toNat then r.1.cqAdvance vf else r.1)

/-- CQ_SIGNAL (R388): the queue holds the signal until its launches have completed. -/
def execCqSignal (vf : Nat) (s : State) : Out State :=
  match s.cqPacket vf with
  | none => .next s
  | some (s, p) => .next (if cqOp p = 3 then s.setVf vf { s.vf vf with signal := true } else s)

/-- CQ_SIGNAL_WRITE (R388): every earlier launch of the queue has completed; P3 is written. -/
def execCqSignalWrite (vf : Nat) (s : State) : Out State :=
  if !(s.vf vf).signal || (s.vf vf).launches != [] then .next s
  else
    match s.cqPacket vf with
    | none => .next s
    | some (s, p) =>
      if cqOp p != 3 then .next s
      else
        match s.cqWord vf p .write 1 with
        | (s, none) => .next s
        | (s, some (pa, vfa)) => .next ((s.engineWrite none vf pa vfa (leBytes 4 (wAt p 3).toNat)).cqAdvance vf)

/-! ## Power (R391) -/

/-- POWER_CAP_STEP (R391): the arithmetic clock falls or rises by 10 MHz, between 500 and 850 MHz. -/
def execPowerCapStep (lower : Bool) (s : State) : Out State :=
  let d := s.dev
  .next { s with dev := if lower then { d with clk := max 50 (d.clk - 1), cap := true }
    else { d with clk := min 85 (d.clk + 1), cap := d.clk + 1 < 85 } }

/-! ## The remaining registers (R175, R309, R330, R380, R385, R386, R392, R401, R412) -/

/-- SQ_POOL_WRITE (R412): by the hypervisor; ignored while the die's engine holds a page. -/
def execSqPoolWrite (m : Master) (die : Nat) (v : BitVec 32) (s : State) : Out State :=
  .next (if m = .hypervisor && die < 8 && bits v.toNat 11 21 = 0 && v.toNat ≤ (if die = 0 then 992 else 1024) &&
      (s.die die).pages = 0 then s.setDie die { s.die die with pool := v.toNat } else s)

/-- One limit exponent of SCH_STARVE: 0 or 20 to 40, any other value leaves it (R175). -/
def starveField (old new lo : Nat) : Nat :=
  let n := bits new lo 6
  (if n = 0 || (20 ≤ n && n ≤ 40) then n else bits old lo 6) * 2 ^ lo

/-- A write of a register of a partition's block. -/
def State.writePartReg (s : State) (m : Master) (p off : Nat) (v : Word) : State :=
  let x := s.part p
  if off = 0 && m = .partitionOS p then
    if bits v.toNat 24 8 != 0 || bits v.toNat 0 6 != 0 then s
    else s.setPart p { x with
      starve := toW (starveField x.starve.toNat v.toNat 6 + starveField x.starve.toNat v.toNat 12 + starveField x.starve.toNat v.toNat 18) }
  else if off = 0x28 && m = .partitionOS p then
    s.setPart p { x with intp := (x.intp &&& 7#32 &&& ~~~v) ||| (v &&& 0x70000#32) }
  else if off = 0x30 && m = .hypervisor then
    if bits v.toNat 10 21 != 0 then s else s.setPart p { x with eid := v }
  else s

/-- A write of a register of a VF's block. -/
def State.writeVfReg (s : State) (m : Master) (vf off : Nat) (v : BitVec 64) : State :=
  let f := s.vf vf
  if off = 0 && m = .hypervisor then s.setVf vf { f with s2 := v &&& 0x000FFFFFFFFFF001#64 }
  else if off = 8 && m = .hypervisor then
    if bits v.toNat 4 28 != 0 then s else s.setVf vf { f with pol := toW (bits v.toNat 1 3 * 2 + 1) }
  else if off = 0x4C && s.hostOf m vf then
    s.setVf vf { f with ks := f.ks && !v.getLsbD 31, rf := f.rf && !v.getLsbD 30 }
  else if off = 0x50 && m = .hypervisor then
    s.setVf vf { f with dlog := (v &&& 0x000FFFFFFFFFF001#64) ||| (f.dlog &&& 2#64 &&& ~~~v) }
  else if off = 0x60 && s.osOf m vf then s.setVf vf { f with ctxTbl := v &&& 0x0000FFFFFFFFF001#64 }
  else s

/-- REGISTER_WRITE (R380): a control register without a row of its own; a write of another register, or by a master the table
does not name, is ignored. -/
def execRegisterWrite (m : Master) (pa : Nat) (v : BitVec 64) (s : State) : Out State :=
  if 0x20001000000 ≤ pa && pa < 0x20001200000 then
    .next (s.writePartReg m ((pa - 0x20001000000) / 65536) (pa % 65536) (v.setWidth 32))
  else if 0x20002000000 ≤ pa && pa < 0x20002400000 then
    .next (s.writeVfReg m ((pa - 0x20002000000) / 65536) (pa % 65536) v)
  else .next s

end Sys2Proof.Machine
end

