-- ==== Sys2Proof/Machine/Fabric.lean ====
section
/-!
DEFINITION. Sys2Proof/Machine/Fabric.lean: fabric ports and flits (R398-R400), requests of other devices (R403, R404), and a
lost endpoint (R407).
-/
namespace Sys2Proof.Machine
open Host (Outcome)

/-! ## Ports and flits (R399, R400) -/

def State.port (s : State) (die port : Nat) : Port := (s.die die).ports.getD port Port.init
def State.setPort (s : State) (die port : Nat) (x : Port) : State :=
  s.setDie die { s.die die with ports := (s.die die).ports.set port x }

/-- Whether a die has a port of a number (R398). -/
def isPort (die port : Nat) : Bool := die < 8 && port < 12

/-- FLIT_RECEIVE (R399): a flit in sequence whose CRC holds is accepted; any other is discarded, and a replay from the first one missing
is requested. -/
def execFlitReceive (die port : Nat) (seq : BitVec 12) (crcOk : Bool) (s : State) : Out State :=
  let x := s.port die port
  .next (if !isPort die port || x.st < 2 then s
    else if crcOk && seq.toNat = x.rx then s.setPort die port { x with rx := (x.rx + 1) % 4096, ask := false }
    else s.setPort die port { x with ask := true })

/-- Flits sent and not acknowledged: they stand in the replay buffer (R399). -/
def Port.unacked (x : Port) : Nat := (x.tx + 4096 - x.una) % 4096

/-- Whether a flit stands in the replay buffer. -/
def Port.holds (x : Port) (seq : Nat) : Bool := (seq + 4096 - x.una) % 4096 < x.unacked

/-- A flit sent: it takes one of the 256 places of the replay buffer (R399). -/
def State.flitSend (s : State) (die port : Nat) : State :=
  let x := s.port die port
  if isPort die port && 2 ≤ x.st && x.unacked < 256 then s.setPort die port { x with tx := (x.tx + 1) % 4096 } else s

/-- The receiver acknowledges the flits up to one: they leave the replay buffer, and a later replay is of another flit (R399). -/
def State.flitAck (s : State) (die port seq : Nat) : State :=
  let x := s.port die port
  if isPort die port && 2 ≤ x.st && x.holds seq then s.setPort die port { x with una := (seq + 1) % 4096, row := 0 } else s

/-- FLIT_REPLAY (R399, R400): a replay from a flit of the buffer on, counted; replays of one flit in a row are counted apart, and after the
eighth the port retrains. -/
def execFlitReplay (die port : Nat) (seq : BitVec 12) (s : State) : Out State :=
  let x := s.port die port
  .next (if isPort die port && 2 ≤ x.st && x.row < 8 && x.holds seq.toNat then s.setPort die port { x with
      rty := min 0xFFFF (x.rty + 1)
      last := seq.toNat
      row := if x.row != 0 && x.last = seq.toNat then x.row + 1 else 1 }
    else s)

/-- PORT_RETRAIN (R399): after 8 consecutive replays of one flit. -/
def execPortRetrain (die port : Nat) (s : State) : Out State :=
  let x := s.port die port
  .next (if isPort die port && 2 ≤ x.st && 8 ≤ x.row then s.setPort die port { x with st := 1, row := 0 } else s)

/-- PORT_TRAINED (R399, R400): a port that is down or training is in service on one lane or both. -/
def execPortTrained (die port lanes : Nat) (s : State) : Out State :=
  let x := s.port die port
  .next (if isPort die port && x.st < 2 && (lanes = 1 || lanes = 2) then s.setPort die port { x with st := lanes + 1, row := 0 }
    else s)

/-- PORT_DOWN_TIMEOUT (R399): a training port that does not return in time is down. -/
def execPortDownTimeout (die port : Nat) (s : State) : Out State :=
  let x := s.port die port
  .next (if isPort die port && x.st = 1 then s.setPort die port { x with st := 0 } else s)

/-! ## Requests of other devices (R403, R404) -/

def remoteSize (k : RemoteKind) : Nat :=
  match k with
  | .load n => n
  | .store b => b.length
  | .atomic _ _ _ | .red _ _ _ => 4

/-- The permissions of a request (R315), and its kind in a record where a group made it (R321). -/
def remoteNeeds (k : RemoteKind) : Bool × Bool × Nat :=
  match k with
  | .load _ => (true, false, 0)
  | .store _ => (false, true, 1)
  | .atomic _ _ _ => (true, true, 2)
  | .red _ _ _ => (false, true, 1)

/-- The kind of a request in a record (R321). -/
def remoteCode (r : RemoteReq) : Nat := if r.by_ = 4 || r.by_ = 5 || r.by_ = 6 || r.by_ = 9 then r.by_ else (remoteNeeds r.kind).2.2

/-- How the translation of a request from the fabric ends. -/
inductive RemoteTr where
  | ok (pages : Tbl Nat)
  | refused
  | fault (a lvl : Nat)
  deriving DecidableEq, Repr

/-- The pages of a request translated through stage 2 alone (R403). -/
def State.remotePages (vf : Nat) (r w : Bool) : List Nat → State → State × RemoteTr
  | [], s => (s, .ok [])
  | a :: as, s =>
    match s.use2 none vf a r w false with
    | (s, .ok l) =>
      match State.remotePages vf r w as s with
      | (s, .ok m) => (s, .ok (m.set (a / 4096) (l.out a / 4096)))
      | e => e
    | (s, .fault l false) => (s, .fault a l)
    | (s, _) => (s, .refused)

/-- An atomic of a request at its home; a red answers no value (R270, R404). -/
def State.remoteAtomic (s : State) (vf off pa aop : Nat) (x y : Word) (ret : Bool) : State :=
  let s := s.combine (pa / 128)
  if s.suppresses (pa / 128) then s.tell .remoteRefused
  else if s.poisoned pa 4 then s.tell .remotePoison
  else
    let s := s.recallDirty (pa / 128) (spanMask 128 (pa % 128) 4) (fun _ => true)
    let old := s.memWord pa
    (s.homeWrite (some (vf, off)) pa (leBytes 4 (aopApply aop old x y).toNat)).tell (.remote (if ret then leBytes 4 old.toNat else []))

/-- A request performed at its home in coherence order (R268, R270, R404), and its answer. -/
def State.remoteDo (s : State) (vf : Nat) (r : RemoteReq) (m : Tbl Nat) : State :=
  let pas := (List.range (remoteSize r.kind)).map fun i => pageAt m (r.off + i)
  let lines := (pas.map (· / 128)).eraseDups
  match r.kind with
  | .load _ =>
    let s := lines.foldl (fun s l => s.combine l) s
    if pas.any s.poison.contains then s.tell .remotePoison
    else s.tell (.remote (pas.map fun p => s.engineByte 1024 none p))
  | .store b =>
    if lines.any s.suppresses then s.tell .remoteRefused
    else ((runsOf (b.zipIdx.map fun p => (r.off + p.2, p.1))).foldl
      (fun s q => s.engineWrite none vf (pageAt m q.1) q.1 q.2) s).tell (.remote [])
  | .atomic aop x y => s.remoteAtomic vf r.off (pageAt m r.off) aop x y true
  | .red aop x y => s.remoteAtomic vf r.off (pageAt m r.off) aop x y false

/-- REMOTE_REQUEST (R403, R404): refused, held on a stage-2 fault, or performed. -/
def execRemoteRequest (r : RemoteReq) (s : State) : Out State :=
  let t := { s with dev := { s.dev with remotes := s.dev.remotes.filter (· != r) } }
  match s.vfOf r.part with
  | none => .next (t.tell .remoteRefused)
  | some vf =>
    let n := remoteNeeds r.kind
    if !(s.part r.part).eid.getLsbD 31 || !(s.vf vf).pol.getLsbD 3 then .next (t.tell .remoteRefused)
    else
      match State.remotePages vf n.1 n.2.1 (pageStarts r.off (remoteSize r.kind)) t with
      | (u, .ok m) => .next (u.remoteDo vf r m)
      | (u, .refused) => .next (u.tell .remoteRefused)
      | (u, .fault a lvl) =>
        let u := (u.fault2 vf a (remoteCode r) lvl false false 0 0 (toW (r.die * 536870912))).1
        .next { u with dev := { u.dev with remotes := u.dev.remotes ++ [r] } }

/-! ## A lost endpoint (R407) -/

/-- Whether a physical address names an endpoint (R402). -/
def toEndpoint (eid pa : Nat) : Bool := windowPa pa && bits pa 40 10 = eid

/-- The outstanding accesses of a group to an endpoint end: a load or atomic writes no lane, a write may have been performed, and the group
traps POISON at its next issue boundary, once. -/
def State.loseGroup (s : State) (eid g : Nat) : State :=
  let x := s.grp g
  let hit := fun (a : Acc) => !a.fin && toEndpoint eid a.pa
  match lowest ((x.ops.flatMap fun o => if o.ctr = .x then [] else (o.accs.filter hit).map (·.va))) with
  | none => s
  | some va =>
    let s := s.modGrp g fun x => { x with ops := x.ops.map fun o =>
      if o.ctr = .x then o else { o with accs := o.accs.map fun a => if hit a then { a with fin := true, bad := !o.kind.isStore, told := true } else a } }
    s.softError g (toW va)

/-- A copy whose next chunk has an access to the endpoint ends as failed. -/
def State.loseCopy (s : State) (eid k : Nat) : State :=
  match s.copy? k with
  | some c =>
    if c.kind != 0 || c.fin || c.chunks ≤ c.chunk then s
    else
      let idx := (List.range (min 4096 (c.size - 4096 * c.chunk))).map (4096 * c.chunk + ·)
      let vas := (if c.dir = 2 then [] else idx.flatMap c.srcs) ++ (if c.dir = 1 then [] else idx.map c.dst)
      let hit := (pagesOf vas).filterMap fun p =>
        match s.mapOnly c.key p.2 with
        | some pa => if toEndpoint eid pa then some p.2 else none
        | none => none
      match lowest hit with
      | some va => s.failCopy k c 0x15 (toW va)
      | none => s
  | none => s

/-- Whether an address of a context is mapped to an endpoint. -/
def State.vaTo (s : State) (key eid va : Nat) : Bool := (s.mapOnly key va).any (toEndpoint eid)

/-- A stream whose next item has a word at the endpoint ends, and the context rung is told (R200, R404, R407). -/
def State.loseStreams (s : State) (eid u : Nat) : State :=
  let w := s.work (s.unit u).work
  match (s.unit u).chain with
  | some c => c.links.zipIdx.foldl (fun s l =>
      let go := l.1.kind != 0 && l.1.next < l.1.cnt && !l.1.ended && (l.1.kind = 1 || l.1.items != [])
      match if go then lowest (((List.range (32 * w.beats)).map l.1.addr).filter (s.vaTo (ctxKey w.vf w.ctx) eid)) else none with
      | some va => (s.setLink u l.2 { l.1 with ended := true, keys := [] }).streamReport u 0x15 (toW va)
      | none => s) s
  | none => s

/-- A helm whose oldest deferred effect is an addition at the endpoint takes a helm fault, and the addition is not made (R252, R404,
R407). -/
def State.loseHelm (s : State) (eid hk : Nat) : State :=
  let key := hk / 1024
  let cl := hk % 1024
  let h := s.helm key cl
  match h.defers with
  | d :: ds =>
    if d.add && s.vaTo key eid d.addr then
      (s.setHelm key cl { h with defers := ds }).helmFault key cl 0x15 (toW (d.pc % 4096 + 0x1A000)) d.pc 0#32 false
    else s
  | [] => s

/-- A work whose completion word lies at the endpoint is complete without it, and the context rung is told (R154, R404, R407). -/
def State.loseWork (s : State) (eid k : Nat) : State :=
  let w := s.work k
  if w.phase = .accepted && w.total ≤ w.next && w.live = 0 && w.ccnt != 0 && s.vaTo (ctxKey w.vf w.ctx) eid w.ccnt then
    (s.workReport w 0x15 (toW w.ccnt)).workOver k
  else s

/-- ENDPOINT_LOST (R407): no port of the partition reaches an endpoint; the partition rung receives a record with party 7, which names the
lowest-numbered port of the partition: its die in [31:29] and its number there in [3:0] (DESIGN CHOICE, log 135). -/
def execEndpointLost (part eid : Nat) (s : State) : Out State :=
  let mine := fun (key : Nat) => s.ctxPart (key / 65536) (key % 65536) = some part
  let s := ((s.groups.filter fun p => p.2.st != .exited && mine (s.keyOf p.2)).map (·.1)).foldl (fun s g => s.loseGroup eid g) s
  let s := ((s.copies.filter fun c => mine c.2.key).map (·.1)).foldl (fun s k => s.loseCopy eid k) s
  let s := ((s.units.filter fun p => p.2.chain.isSome && mine (ctxKey (s.work p.2.work).vf (s.work p.2.work).ctx)).map (·.1)).foldl
    (fun s u => s.loseStreams eid u) s
  let s := ((s.helms.filter fun h => mine (h.1 / 1024)).map (·.1)).foldl (fun s k => s.loseHelm eid k) s
  let s := ((s.works.filter fun p => mine (ctxKey p.2.vf p.2.ctx)).map (·.1)).foldl (fun s k => s.loseWork eid k) s
  let port := (lowest (s.portsOf part)).getD 0
  let cid := toW (port / 12 * 536870912 + port % 12)
  .next { s with trapQ := s.trapQ ++ [⟨3, noCtx, part, none, none, 7, ⟨0x15, toW eid, 0, 3, false⟩, 0#32, 0#32, cid, 0, 0#32⟩] }

end Sys2Proof.Machine
end

