-- ==== Sys2Proof/Machine/VecFloat.lean ====
section
/-!
DEFINITION. Sys2Proof/Machine/VecFloat.lean: the float, packed, dot-product, conversion, special-function, quantisation and
dropout instructions (R100-R127).
-/
namespace Sys2Proof.Machine

/-- A code and its flags as a word and its flags. -/
def asW (r : Nat × Nat) : Word × Nat := (toW r.1, r.2)

/-- The rounding mode of the forms that follow gst.rm (R106). -/
def IX.rm (x : IX) : RM := x.mode (gstRm x.g.gst)

/-- Whether a packed or half-narrowing form rounds stochastically: gst.sr without an override (R106). -/
def IX.stoch (x : IX) : Bool := gstSr x.g.gst && !x.override

/-- The mode of a lane for a form that may round stochastically with width w (R112, R114). -/
def IX.srMode (x : IX) (rnd : Word) (w : Nat) : RM := if x.stoch then .sr rnd.toNat w else x.rm

/-- A binary32 form of two sources, latency 5. -/
def binF (i : Instr) (o : FR) (f : IX → Nat → Nat → Nat × Nat) (s : State) : Out State :=
  issueV i o.s (fun x => flanewise x 5 false [x.srcA o.a o.fa, x.srcB o.b o.fb] (x.dryAB o.a o.b o.fa o.fb) (x.d o.d)
    fun _ _ v => asW (f x (v0 v).toNat (v1 v).toNat)) s

/-- A packed form on both halves, latency 5: element 0 uses the lane's draw, element 1 its complement (R112). -/
def packed (x : IX) (w : Nat) (rnd : Word) (l : Nat) (f : FEnv → Nat → Nat × Nat) : Word × Nat :=
  let r := rndLane rnd l
  let a := f (x.env (x.srMode r w) x.sat) 0
  let b := f (x.env (x.srMode (~~~r) w) x.sat) 16
  (toW (a.1 + b.1 * 65536), fOr a.2 b.2)

/-- A packed form of two sources. -/
def binP (i : Instr) (o : FR) (w : Nat) (f : FEnv → Nat → Nat → Nat × Nat) (s : State) : Out State :=
  issueV i o.s (fun x => flanewise x 5 x.stoch [x.srcA o.a o.fa, x.srcB o.b o.fb] (x.dryAB o.a o.b o.fa o.fb) (x.d o.d)
    fun r l v => packed x w r l fun e lo => f e (bits (v0 v).toNat lo 16) (bits (v1 v).toNat lo 16)) s

/-- A packed fused form: the addend is d, or operand c of gext. -/
def fmaP (i : Instr) (o : FR) (w : Nat) (f : FEnv → Nat → Nat → Nat → Nat × Nat) (s : State) : Out State :=
  issueV i o.s (fun x =>
    let c := x.addend o.d
    flanewise x 5 x.stoch [x.srcA o.a o.fa, x.srcB o.b o.fb, c.1] (x.dryAB o.a o.b o.fa o.fb ++ c.2) (x.d o.d)
      fun r l v => packed x w r l fun e lo =>
        f e (bits (v0 v).toNat lo 16) (bits (v1 v).toNat lo 16) (bits (v2 v).toNat lo 16)) s

/-- A packed minimum or maximum: it never rounds (R106). -/
def minmaxP (i : Instr) (o : FR) (mx : Bool) (s : State) : Out State :=
  issueV i o.s (fun x => flanewise x 5 false [x.srcA o.a o.fa, x.srcB o.b o.fb] (x.dryAB o.a o.b o.fa o.fb) (x.d o.d)
    fun _ _ v =>
      let h := fun lo => fmt16.minmax mx (gstDn x.g.gst) (bits (v0 v).toNat lo 16) (bits (v1 v).toNat lo 16)
      (toW ((h 0).1 + (h 16).1 * 65536), fOr (h 0).2 (h 16).2)) s

/-- A conversion of one source that writes all of d, latency 5. -/
def cvtU (i : Instr) (o : FU) (stoch : IX → Bool) (f : IX → Word → Word → Word × Nat) (s : State) : Out State :=
  issueV i o.s (fun x => flanewise x 5 (stoch x) [x.srcA o.a o.fa] (dryOf (x.a o.a) o.a o.fa) (x.d o.d)
    fun r l v => f x (rndLane r l) (v0 v)) s

/-- f32 rounded to an integer in the mode the function code names (R123). -/
def cvtInt (i : Instr) (o : FUm) (lo hi : Int) (s : State) : Out State :=
  issueV i o.s (fun x => flanewise x 5 false [x.srcA o.a o.fa] (dryOf (x.a o.a) o.a o.fa) (x.d o.d)
    fun _ _ v => toInt32 (x.env (RM.ofCode o.m.toNat) x.sat) lo hi (v0 v).toNat) s

/-- n bits of d at lo replaced (R121). -/
def insBits (d lo n v : Nat) : Word :=
  toW (d - bits d lo n * 2 ^ lo + v % 2 ^ n * 2 ^ lo)

/-- f32 narrowed into n bits of d at lo (R121, R122): stochastic with width w by its function code, else RNE or an
override. -/
def cvtPart (i : Instr) (sf : BitVec 3) (d : BitVec 6) (a : BitVec 7) (fa r : BitVec 1) (f : Fmt) (w lo n : Nat) (s : State) :
    Out State :=
  issueV i sf (fun x => flanewise x 5 (r = 1#1) [x.srcA a fa, .vec (x.d d)] (dryOf (x.a a) a fa) (x.d d)
    fun q l v =>
      let m := if r = 1#1 then .sr (rndLane q l).toNat w else x.mode 0
      let c := f.narrow (x.env m x.sat) (v0 v).toNat
      (insBits (v1 v).toNat lo n c.1, c.2)) s

/-- n bits of a at lo widened to f32 (R121): 8-bit and 4-bit elements are never flushed. -/
def cvtWide (i : Instr) (sf : BitVec 3) (d : BitVec 6) (a : BitVec 7) (fa : BitVec 1) (f : Fmt) (lo n : Nat) (s : State) :
    Out State :=
  issueV i sf (fun x => flanewise x 5 false [x.srcA a fa] (dryOf (x.a a) a fa) (x.d d)
    fun _ _ v => asW (f.widen false (bits (v0 v).toNat lo n))) s

/-- A special function, latency 10 (R124). -/
def sfu (i : Instr) (o : FU) (f : Bool → Nat → Nat × Nat) (s : State) : Out State :=
  issueV i o.s (fun x => flanewise x 10 false [x.srcA o.a o.fa] (dryOf (x.a o.a) o.a o.fa) (x.d o.d)
    fun _ _ v => asW (f (gstDn x.g.gst) (v0 v).toNat)) s

/-! ## Dot products (R117-R120) -/

/-- An integer element of n bits at lo, signed or not (R105). -/
def intElem (sgn : Bool) (n lo x : Nat) : Int :=
  let v := bits x lo n
  if sgn && 2 ^ (n - 1) ≤ v then (v : Int) - (2 ^ n : Nat) else v

/-- An integer dot product over k elements of n bits (R118). -/
def dotI (i : Instr) (o : FR) (sgn : Bool) (n k : Nat) (s : State) : Out State :=
  issueV i o.s (fun x =>
    let c := x.addend o.d
    lanewise x 6 [x.srcA o.a o.fa, x.srcB o.b o.fb, c.1] (x.dryAB o.a o.b o.fa o.fb ++ c.2) (x.d o.d) fun v =>
      v2 v + BitVec.ofInt 32 ((List.range k).foldl (fun t j =>
        t + intElem sgn n (n * j) (v0 v).toNat * intElem sgn n (n * j) (v1 v).toNat) 0)) s

/-- A float dot product over k elements of n bits, with the scales of gscale (R119, R120). -/
def dotF (i : Instr) (o : FR) (f : Fmt) (n k : Nat) (flush : Bool) (s : State) : Out State :=
  issueV i o.s (fun x =>
    let c := x.addend o.d
    let sc : List Src := match x.gl.scale with
      | some p => [.vec p.a.toNat, .vec p.b.toNat]
      | none => []
    flanewise x 6 false ([x.srcA o.a o.fa, x.srcB o.b o.fb, c.1] ++ sc) (x.dryAB o.a o.b o.fa o.fb ++ c.2) (x.d o.d)
      fun _ _ v =>
        let dn := gstDn x.g.gst
        let e := match x.gl.scale with
          | some p => (bits (v.getD 3 0#32).toNat (8 * p.p.toNat) 8, bits (v.getD 4 0#32).toNat (8 * p.q.toNat) 8)
          | none => (127, 127)
        if e.1 = 255 || e.2 = 255 then (toW fmt32.nan, 0)
        else
          let el := fun (w : Word) (j : Nat) => f.read (flush && dn) (bits w.toNat (n * j) n)
          asW (fmt32.fused (x.env (x.mode 0) false) ((e.1 : Int) - 127 + ((e.2 : Int) - 127))
            ((List.range k).map fun j => (el (v0 v) j, el (v1 v) j)) (fmt32.read dn (v2 v).toNat))) s

/-! ## Quantisation (R125) -/

/-- Sign, magnitude and exponent of a finite value. -/
def FVal.parts : FVal → Bool × Nat × Int
  | .fin s m e => (s, m, e)
  | _ => (false, 0, 0)

/-- The scale byte of a block of finite values, and its exponent (R125). -/
def blockScale (M : Nat) (vs : List FVal) : Nat × Int :=
  let mx := vs.foldl (fun (a : FVal) v => if a.absLt v then v else a) (.fin false 0 0)
  let k := blockK mx.parts.2.1 mx.parts.2.2 M
  let c := max 0 (min 254 (k + 127))
  (c.toNat, c - 127)

/-- One element of a float format (R125): code and whether inexact. -/
def quantF (f : Fmt) (r : RM) (v : FVal) (k : Int) : Nat × Bool :=
  let p := v.parts
  let q := f.round r p.1 p.2.1 (p.2.2 - k)
  (f.signed p.1 (min q.1 f.maxc), q.2.2.2 || f.maxc < q.1)

/-- One element of an integer format of n bits. -/
def quantI (n M : Nat) (r : RM) (v : FVal) (k : Int) : Nat × Bool :=
  let p := v.parts
  let q := roundInt r p.1 p.2.1 (p.2.2 - k) M
  ((if p.1 then 2 ^ n - q.1 else q.1) % 2 ^ n, q.2)

/-- A quantisation of each issued beat as one block. -/
def vquant (i : Instr) (o : FUq) (M w : Nat) (f : RM → FVal → Int → Nat × Bool) (s : State) : Out State :=
  issueV i o.s (fun x s => do
    let q ← gather x s false [x.srcA o.a o.fa] [x.d o.d] []
    let k := q.s.core x.g.core
    let dr := if o.r = 1#1 then draws q.rows.length k.rnd else ([], k.rnd)
    let s := q.s.setCore x.g.core { k with rnd := dr.2 }
    let s := dryAll s x.gid (dryOf (x.a o.a) o.a o.fa)
    let res := q.rows.zipIdx.map fun p =>
      let r := p.1
      let val := fun l => fmt32.read (gstDn x.g.gst) (r.at 0 l).toNat
      let vs := r.lanes.map val
      if vs.any fun v => match v with
        | .fin _ _ _ => false
        | _ => true
      then (r, List.replicate 32 0x0000FF00#32, fNV)
      else if vs.all FVal.isZero then (r, List.replicate 32 0x00007F00#32, 0)
      else
        let b := blockScale M vs
        let e := (List.range 32).map fun l =>
          if r.act.getLsbD l then
            f (if o.r = 1#1 then .sr (rndLane (dr.1.getD p.2 0#32) l).toNat w else .rne) (val l) b.2
          else (0, false)
        (r, e.map fun y => toW (b.1 * 256 + y.1), if e.any (·.2) then fNX else 0)
    let s ← writeRows x.gid (x.d o.d) 5 (res.map fun p => (p.1, p.2.1)) s
    let r := raiseBeats x s 5 (res.map fun p => (p.1, p.2.2))
    pure ⟨r.1, q.last, none, r.2, none⟩) s

/-- The hash of a dropout counter (R126). -/
def dropHash (a key : Word) : Word :=
  let h := (a ^^^ key) * 0x9E3779B1#32
  let h := h ^^^ (h >>> 16)
  let h := h * 0x85EBCA77#32
  h ^^^ (h >>> 13)

/-! ## The instructions -/

/-- VADD_F32 (R115). -/
def execVaddF32 (o : FR) (s : State) : Out State := binF (.vaddF32 o) o (fun x a b => fmt32.add (x.env x.rm false) a b) s

/-- VSUB_F32 (R115). -/
def execVsubF32 (o : FR) (s : State) : Out State := binF (.vsubF32 o) o (fun x a b => fmt32.sub (x.env x.rm false) a b) s

/-- VMUL_F32 (R115). -/
def execVmulF32 (o : FR) (s : State) : Out State := binF (.vmulF32 o) o (fun x a b => fmt32.mul (x.env x.rm false) a b) s

/-- VMIN_F32 (R115). -/
def execVminF32 (o : FR) (s : State) : Out State := binF (.vminF32 o) o (fun x a b => fmt32.minmax false (gstDn x.g.gst) a b) s

/-- VMAX_F32 (R115). -/
def execVmaxF32 (o : FR) (s : State) : Out State := binF (.vmaxF32 o) o (fun x a b => fmt32.minmax true (gstDn x.g.gst) a b) s

/-- VLDEXP_F32 (R115). -/
def execVldexpF32 (o : FR) (s : State) : Out State := binF (.vldexpF32 o) o (fun x a b => ldexp32 (x.env x.rm false) a (toW b).toInt) s

/-- VFMA_F32 (R115, R29). -/
def execVfmaF32 (o : FR) (s : State) : Out State :=
  issueV (.vfmaF32 o) o.s (fun x =>
    let c := x.addend o.d
    flanewise x 5 false [x.srcA o.a o.fa, x.srcB o.b o.fb, c.1] (x.dryAB o.a o.b o.fa o.fb ++ c.2) (x.d o.d)
      fun _ _ v => asW (fmt32.fma (x.env x.rm false) (v0 v).toNat (v1 v).toNat (v2 v).toNat)) s

/-- VCOPYSIGN_F32 (R115): a bit operation. -/
def execVcopysignF32 (o : FR) (s : State) : Out State :=
  issueV (.vcopysignF32 o) o.s (fun x => lanewise x 5 [x.srcA o.a o.fa, x.srcB o.b o.fb] (x.dryAB o.a o.b o.fa o.fb) (x.d o.d)
    fun v => (v0 v &&& 0x7FFFFFFF#32) ||| (v1 v &&& 0x80000000#32)) s

/-- VADD_F16X2 (R115). -/
def execVaddF16x2 (o : FR) (s : State) : Out State := binP (.vaddF16x2 o) o 13 fmt16.add s

/-- VMUL_F16X2 (R115). -/
def execVmulF16x2 (o : FR) (s : State) : Out State := binP (.vmulF16x2 o) o 13 fmt16.mul s

/-- VADD_BF16X2 (R115). -/
def execVaddBf16x2 (o : FR) (s : State) : Out State := binP (.vaddBf16x2 o) o 16 fmtB16.add s

/-- VMUL_BF16X2 (R115). -/
def execVmulBf16x2 (o : FR) (s : State) : Out State := binP (.vmulBf16x2 o) o 16 fmtB16.mul s

/-- VFMA_F16X2 (R115). -/
def execVfmaF16x2 (o : FR) (s : State) : Out State := fmaP (.vfmaF16x2 o) o 13 fmt16.fma s

/-- VFMA_BF16X2 (R115). -/
def execVfmaBf16x2 (o : FR) (s : State) : Out State := fmaP (.vfmaBf16x2 o) o 16 fmtB16.fma s

/-- VMIN_F16X2 (R115). -/
def execVminF16x2 (o : FR) (s : State) : Out State := minmaxP (.vminF16x2 o) o false s

/-- VMAX_F16X2 (R115). -/
def execVmaxF16x2 (o : FR) (s : State) : Out State := minmaxP (.vmaxF16x2 o) o true s

/-- VDOT4_E4M3 (R119). -/
def execVdot4E4m3 (o : FR) (s : State) : Out State := dotF (.vdot4E4m3 o) o fmtE4 8 4 false s

/-- VDOT4_E5M2 (R119). -/
def execVdot4E5m2 (o : FR) (s : State) : Out State := dotF (.vdot4E5m2 o) o fmtE5 8 4 false s

/-- VDOT4_I8 (R118). -/
def execVdot4I8 (o : FR) (s : State) : Out State := dotI (.vdot4I8 o) o true 8 4 s

/-- VDOT4_N8 (R118). -/
def execVdot4N8 (o : FR) (s : State) : Out State := dotI (.vdot4N8 o) o false 8 4 s

/-- VDOT8_E2M1 (R119). -/
def execVdot8E2m1 (o : FR) (s : State) : Out State := dotF (.vdot8E2m1 o) o fmtE2 4 8 false s

/-- VDOT8_I4 (R118). -/
def execVdot8I4 (o : FR) (s : State) : Out State := dotI (.vdot8I4 o) o true 4 8 s

/-- VDOT2_BF16 (R119). -/
def execVdot2Bf16 (o : FR) (s : State) : Out State := dotF (.vdot2Bf16 o) o fmtB16 16 2 true s

/-- VDOT2_F16 (R119). -/
def execVdot2F16 (o : FR) (s : State) : Out State := dotF (.vdot2F16 o) o fmt16 16 2 true s

/-- VCVT_I32_F32 (R123). -/
def execVcvtI32F32 (o : FUm) (s : State) : Out State := cvtInt (.vcvtI32F32 o) o (-2147483648) 2147483647 s

/-- VCVT_N32_F32 (R123). -/
def execVcvtN32F32 (o : FUm) (s : State) : Out State := cvtInt (.vcvtN32F32 o) o 0 4294967295 s

/-- VCVT_F32_I32 (R123). -/
def execVcvtF32I32 (o : FU) (s : State) : Out State :=
  cvtU (.vcvtF32I32 o) o (fun _ => false) (fun x _ a => asW (ofInt32 (x.env x.rm false) a.toInt)) s

/-- VCVT_F32_N32 (R123). -/
def execVcvtF32N32 (o : FU) (s : State) : Out State :=
  cvtU (.vcvtF32N32 o) o (fun _ => false) (fun x _ a => asW (ofInt32 (x.env x.rm false) (a.toNat : Int))) s

/-- VCVT_F16_F32 (R121, R122): d[31:16] becomes 0. -/
def execVcvtF16F32 (o : FU) (s : State) : Out State :=
  cvtU (.vcvtF16F32 o) o IX.stoch (fun x r a => asW (fmt16.narrow (x.env (x.srMode r 13) x.sat) a.toNat)) s

/-- VCVT_BF16_F32 (R121, R122). -/
def execVcvtBf16F32 (o : FU) (s : State) : Out State :=
  cvtU (.vcvtBf16F32 o) o IX.stoch (fun x r a => asW (fmtB16.narrow (x.env (x.srMode r 16) x.sat) a.toNat)) s

/-- VCVT_F32_F16 (R121). -/
def execVcvtF32F16 (o : FU) (s : State) : Out State :=
  cvtU (.vcvtF32F16 o) o (fun _ => false) (fun x _ a => asW (fmt16.widen (gstDn x.g.gst) (a.toNat % 65536))) s

/-- VCVT_F32_BF16 (R121). -/
def execVcvtF32Bf16 (o : FU) (s : State) : Out State :=
  cvtU (.vcvtF32Bf16 o) o (fun _ => false) (fun x _ a => asW (fmtB16.widen (gstDn x.g.gst) (a.toNat % 65536))) s

/-- VCVT_E4M3_F32 (R122). -/
def execVcvtE4m3F32 (o : FUrb) (s : State) : Out State :=
  cvtPart (.vcvtE4m3F32 o) o.s o.d o.a o.fa o.r fmtE4 20 (8 * o.n.toNat) 8 s

/-- VCVT_E5M2_F32 (R122). -/
def execVcvtE5m2F32 (o : FUrb) (s : State) : Out State :=
  cvtPart (.vcvtE5m2F32 o) o.s o.d o.a o.fa o.r fmtE5 21 (8 * o.n.toNat) 8 s

/-- VCVT_E2M1_F32 (R122). -/
def execVcvtE2m1F32 (o : FUrn) (s : State) : Out State :=
  cvtPart (.vcvtE2m1F32 o) o.s o.d o.a o.fa o.r fmtE2 22 (4 * o.n.toNat) 4 s

/-- VCVT_F32_E4M3 (R121). -/
def execVcvtF32E4m3 (o : FUb) (s : State) : Out State :=
  cvtWide (.vcvtF32E4m3 o) o.s o.d o.a o.fa fmtE4 (8 * o.n.toNat) 8 s

/-- VCVT_F32_E5M2 (R121). -/
def execVcvtF32E5m2 (o : FUb) (s : State) : Out State :=
  cvtWide (.vcvtF32E5m2 o) o.s o.d o.a o.fa fmtE5 (8 * o.n.toNat) 8 s

/-- VCVT_F32_E2M1 (R121). -/
def execVcvtF32E2m1 (o : FUn) (s : State) : Out State :=
  cvtWide (.vcvtF32E2m1 o) o.s o.d o.a o.fa fmtE2 (4 * o.n.toNat) 4 s

/-- VSFU_RCP (R124). -/
def execVsfuRcp (o : FU) (s : State) : Out State := sfu (.vsfuRcp o) o sfuRcp s

/-- VSFU_RSQ (R124). -/
def execVsfuRsq (o : FU) (s : State) : Out State := sfu (.vsfuRsq o) o sfuRsq s

/-- VSFU_SQRT (R124). -/
def execVsfuSqrt (o : FU) (s : State) : Out State := sfu (.vsfuSqrt o) o sfuSqrt s

/-- VSFU_EXP2 (R124). -/
def execVsfuExp2 (o : FU) (s : State) : Out State := sfu (.vsfuExp2 o) o sfuExp2 s

/-- VSFU_LOG2 (R124). -/
def execVsfuLog2 (o : FU) (s : State) : Out State := sfu (.vsfuLog2 o) o sfuLog2 s

/-- VSFU_SIN2PI (R124). -/
def execVsfuSin2pi (o : FU) (s : State) : Out State := sfu (.vsfuSin2pi o) o (sfuTrig 0) s

/-- VSFU_COS2PI (R124). -/
def execVsfuCos2pi (o : FU) (s : State) : Out State := sfu (.vsfuCos2pi o) o (sfuTrig 1) s

/-- VSFU_TANH (R124). -/
def execVsfuTanh (o : FU) (s : State) : Out State := sfu (.vsfuTanh o) o sfuTanh s

/-- VSFU_SIGM (R124). -/
def execVsfuSigm (o : FU) (s : State) : Out State := sfu (.vsfuSigm o) o sfuSigm s

/-- VQUANT_E4M3 (R125). -/
def execVquantE4m3 (o : FUq) (s : State) : Out State := vquant (.vquantE4m3 o) o 448 20 (quantF fmtE4) s

/-- VQUANT_E5M2 (R125). -/
def execVquantE5m2 (o : FUq) (s : State) : Out State := vquant (.vquantE5m2 o) o 57344 21 (quantF fmtE5) s

/-- VQUANT_E2M1 (R125). -/
def execVquantE2m1 (o : FUq) (s : State) : Out State := vquant (.vquantE2m1 o) o 6 22 (quantF fmtE2) s

/-- VQUANT_I8 (R125). -/
def execVquantI8 (o : FUq) (s : State) : Out State := vquant (.vquantI8 o) o 127 16 (quantI 8 127) s

/-- VQUANT_I4 (R125). -/
def execVquantI4 (o : FUq) (s : State) : Out State := vquant (.vquantI4 o) o 7 16 (quantI 4 7) s

/-- VDROPM (R126): triple N from the dropout key, latency 5. -/
def execVdropm (o : FS) (s : State) : Out State :=
  issueV (.vdropm o) o.s (fun x => tripleForm x 5 [.vec (x.a o.a), .sc (x.b o.b)] (dryOf (x.a o.a) o.a 0#1)
    (o.d.toNat + x.gl.off .d x.rep) fun v =>
      (bits (dropHash (v0 v) x.g.key).toNat 16 16 < bits (v1 v).toNat 0 16, 0)) s

end Sys2Proof.Machine
end

