-- ==== Sys2Proof/Machine/Matrix.lean ====
section
/-!
DEFINITION. Sys2Proof/Machine/Matrix.lean: the tile operations of the matrix and exponent engines (R234-R242, R253-R260):
their checks and claims at issue, their steps, and their completion.
-/
namespace Sys2Proof.Machine
open Host (Outcome)

/-! ## Spans (R241, R254) -/

/-- The 64 row addresses of a base and a stride, modulo 2^32. -/
def rows64 (base stride : Word) : List Nat := (List.range 64).map fun i => (base + toW i * stride).toNat

/-- The span from the lowest to the highest byte of rows of a length. -/
def spanOf (rows : List Nat) (len : Nat) : Nat × Nat := ((lowest rows).getD 0, rows.foldl max 0 + len)

/-- Whether every row lies within a footprint. -/
def rowsIn (foot : Nat) (rows : List Nat) (len : Nat) : Bool := rows.all fun a => a + len ≤ foot

/-- The lowest armed barrier in written rows. -/
def UnitSt.rowBar (u : UnitSt) (rows : List Nat) (len : Nat) : Option Bar := rows.findSome? fun a => u.barIn? a (a + len)

/-- Whether an stx or atomx issued into a span is not complete (R241). -/
def State.pendingStx (s : State) (u lo hi : Nat) : Bool :=
  (s.groupsOf u).any fun p => p.2.ops.any fun o =>
    (o.kind = .stx || o.kind = .atomx) && o.accs.any fun a => !a.fin && a.pa < hi && lo < a.pa + a.n

/-- A check of a tile operation: rows read or written, their length, whether they are written. -/
structure Region where
  rows : List Nat
  len  : Nat
  w    : Bool
  deriving DecidableEq, Repr

/-- The first failure of the regions of an operation: outside the footprint, then an armed barrier in a written one. -/
def regionFault (u : UnitSt) (foot : Nat) (rs : List Region) : Option HStop :=
  if rs.any fun r => !rowsIn foot r.rows r.len then some (.fault 0x07 0#32)
  else (rs.findSome? fun r => if r.w then u.rowBar r.rows r.len else none).map fun b => .fault 0x0B (toW (b.addr / 16))

/-- A tile operation issued: it waits for the scratch stores into the spans it reads, claims them, and is queued (R241,
R253). -/
def tilePush (x : HX) (s : State) (a b c e : Word) (spans : List (Nat × Nat)) : HRes HEff :=
  match spans.find? fun p => s.pendingStx x.unit p.1 p.2 with
  | some p => .error (s, .wait (.room p.1 p.2))
  | none =>
    let h := s.helm x.key x.cl
    let s := s.setHelm x.key x.cl { h with
      tiles := h.tiles ++ [⟨x.unit, h.pc, x.w, a, b, c, e, h.nextTile, (s.cluster x.cl).hcycle, 0, [], none⟩]
      nextTile := h.nextTile + 1 }
    .ok ⟨s.modUnit x.unit fun u => { u with claims := u.claims ++ spans.map fun p => ⟨p.1, p.2, 1, tileOwner h.nextTile x.cl⟩ }, none⟩

/-- A tile operation whose addresses align to 16 and whose regions pass: reads claim their spans. -/
def tileIssue (i : Instr) (align : HX → List Word) (regs : HX → Word × Word × Word × Word) (rs : HX → List Region)
    (s : State) : Out State :=
  helmIssue i (fun x s =>
    if (align x).any fun w => w.toNat % 16 != 0 then .error (s, .fault 0x06 0#32)
    else
      match regionFault (s.unit x.unit) (x.foot s) (rs x) with
      | some st => .error (s, st)
      | none =>
        let r := regs x
        tilePush x s r.1 r.2.1 r.2.2.1 r.2.2.2 (((rs x).filter fun r => !r.w).map fun r => spanOf r.rows r.len)) s

/-- A vector of 64 f32 values at an address, read or written. -/
def vec64 (a : Word) (w : Bool) : Region := ⟨[a.toNat], 256, w⟩

/-- A form over a tile and a vector at hA. -/
def tileVec (i : Instr) (o : HTa) (w : Bool) (s : State) : Out State :=
  tileIssue i (fun x => [x.reg o.a]) (fun x => (x.reg o.a, 0#32, 0#32, 0#32))
    (fun x => vec64 (x.reg o.a) false :: (if w then [vec64 (x.reg o.a) true] else [])) s

/-- Bytes of an element of mload and mstore. -/
def elemBytes (f : BitVec 2) : Nat := if f = 0#2 then 4 else 2

/-! ## The words -/

/-- MZERO (R254). -/
def execMzero (o : HT1) (s : State) : Out State :=
  tileIssue (.mzero o) (fun _ => []) (fun _ => (0#32, 0#32, 0#32, 0#32)) (fun _ => []) s

/-- MLOAD (R254). -/
def execMload (o : HTf) (s : State) : Out State :=
  tileIssue (.mload o) (fun x => [x.reg o.a, x.reg o.b]) (fun x => (x.reg o.a, x.reg o.b, 0#32, 0#32))
    (fun x => [⟨rows64 (x.reg o.a) (x.reg o.b), 64 * elemBytes o.f, false⟩]) s

/-- MSTORE (R254). -/
def execMstore (o : HTf) (s : State) : Out State :=
  tileIssue (.mstore o) (fun x => [x.reg o.a, x.reg o.b]) (fun x => (x.reg o.a, x.reg o.b, 0#32, 0#32))
    (fun x => [⟨rows64 (x.reg o.a) (x.reg o.b), 64 * elemBytes o.f, true⟩]) s

/-- Bytes of a row mplane writes (R255). -/
def planeRow (o : HTp) : Nat :=
  if o.l = 1#1 then (if o.f = 5#3 then 64 else 32) else 8 * plPlanes o.f.toNat

/-- MPLANE (R255). -/
def execMplane (o : HTp) (s : State) : Out State :=
  tileIssue (.mplane o) (fun _ => []) (fun x => (x.reg o.a, x.reg o.b, x.reg o.c, x.reg o.e))
    (fun x => [⟨rows64 (x.reg o.a) (x.reg o.c), planeRow o, true⟩, ⟨rows64 (x.reg o.b) (x.reg o.e), 2, true⟩]) s

/-- MEXP (R256). -/
def execMexp (o : HTa) (s : State) : Out State := tileVec (.mexp o) o false s

/-- MEXP_VDIFF (R256). -/
def execMexpVdiff (o : HTab) (s : State) : Out State :=
  tileIssue (.mexpVdiff o) (fun x => [x.reg o.a, x.reg o.b]) (fun x => (x.reg o.a, x.reg o.b, 0#32, 0#32))
    (fun x => [vec64 (x.reg o.a) false, vec64 (x.reg o.b) false, vec64 (x.reg o.a) true]) s

/-- MEXP_RCP (R256). -/
def execMexpRcp (o : HTv) (s : State) : Out State :=
  tileIssue (.mexpRcp o) (fun x => [x.reg o.a]) (fun x => (x.reg o.a, 0#32, 0#32, 0#32))
    (fun x => [vec64 (x.reg o.a) false, vec64 (x.reg o.a) true]) s

/-- MRMAX (R256). -/
def execMrmax (o : HTa) (s : State) : Out State := tileVec (.mrmax o) o true s

/-- MRMAX_KEEP (R256). -/
def execMrmaxKeep (o : HTtab) (s : State) : Out State :=
  tileIssue (.mrmaxKeep o) (fun x => [x.reg o.a, x.reg o.b]) (fun x => (x.reg o.a, x.reg o.b, 0#32, 0#32))
    (fun x => [vec64 (x.reg o.a) false, vec64 (x.reg o.a) true, vec64 (x.reg o.b) true]) s

/-- MRSUM (R256). -/
def execMrsum (o : HTa) (s : State) : Out State := tileVec (.mrsum o) o true s

/-- MRSUM_DECAY (R256). -/
def execMrsumDecay (o : HTtab) (s : State) : Out State :=
  tileIssue (.mrsumDecay o) (fun x => [x.reg o.a, x.reg o.b]) (fun x => (x.reg o.a, x.reg o.b, 0#32, 0#32))
    (fun x => [vec64 (x.reg o.a) false, vec64 (x.reg o.b) false, vec64 (x.reg o.a) true]) s

/-- MSCALE (R256). -/
def execMscale (o : HTa) (s : State) : Out State := tileVec (.mscale o) o false s

/-! ## mma (R238-R241, R257) -/

/-- Fields of an operand header (R238). -/
def hdFmt (h : List Word) : Nat := bits (wAt h 5).toNat 0 3
def hdSp (h : List Word) : Bool := (wAt h 5).getLsbD 4

/-- Whether dadr, dstr and pstr break R238; pstr of A is 0. -/
def hdMis (h : List Word) (isA : Bool) : Bool :=
  (wAt h 0).toNat % 16 != 0 || (wAt h 1).toNat % 16 != 0 || (wAt h 2).toNat % 4 != 0 || (isA && wAt h 2 != 0#32)

/-- Whether reserved bits of a header are set. -/
def hdRsv (h : List Word) : Bool := wAt h 5 &&& 0xFFFFFFE8#32 != 0#32

/-- Dense or stored positions lo .. hi-1 of B along K (R236, R240); a stored index counts from korg (DEDUCED, log 55). -/
def bRange (h : List Word) (ko k : Nat) : Nat × Nat :=
  if hdSp h then (((wAt h 6).toNat + ko) / 2, ((wAt h 6).toNat + ko + k) / 2) else (ko, ko + k)

/-- The regions an mma reads: headers, A data, A scales, B data, B scales (R235-R237, R241). -/
def mmaRegions (ha hb : Word) (a b : List Word) (ko k : Nat) : List Region :=
  let ka := if hdFmt a = 3 then (ko / 2, k / 2) else (ko, k)
  let r := bRange b ko k
  [⟨[ha.toNat], 32, false⟩, ⟨[hb.toNat], 32, false⟩,
    ⟨(rows64 (wAt a 0) (wAt a 1)).map (· + ka.1), ka.2, false⟩,
    ⟨(rows64 (wAt a 3) (wAt a 4)).map (· + ko / 32), k / 32, false⟩,
    ⟨(rows64 (wAt b 0) (wAt b 1)).flatMap fun d => (List.range (plPlanes (hdFmt b))).map fun p =>
      d + p * (wAt b 2).toNat + r.1 / 8, (r.2 + 7) / 8 - r.1 / 8, false⟩,
    ⟨(rows64 (wAt b 3) (wAt b 4)).map (· + ko / 32), k / 32, false⟩]

/-- MMA (R239, R257): the checks in their order, then the claims and the queue. -/
def execMma (o : HTm) (s : State) : Out State :=
  helmIssue (.mma o) (fun x s =>
    let ha := x.reg o.a
    let hb := x.reg o.b
    let k := (x.reg o.c).toNat
    let ko := (x.reg o.e).toNat
    let u := s.unit x.unit
    let foot := x.foot s
    if ha.toNat % 32 != 0 || hb.toNat % 32 != 0 then .error (s, .fault 0x06 0#32)
    else if foot < ha.toNat + 32 || foot < hb.toNat + 32 then .error (s, .fault 0x07 0#32)
    else
      let a := leWords (u.scrRead ha.toNat 32) 8
      let b := leWords (u.scrRead hb.toNat 32) 8
      if hdMis a true || hdMis b false then .error (s, .fault 0x06 0#32)
      else if !(hdFmt a = 3 || hdFmt a = 5) || hdSp a || hdFmt b = 0 || 5 < hdFmt b || hdRsv a || hdRsv b ||
          k < 32 || 512 < k || k % 32 != 0 || ko % 32 != 0 || (wAt b 6).toNat % 4 != 0 then .error (s, .fault 0x01 0#32)
      else
        let rs := mmaRegions ha hb a b ko k
        match regionFault u foot rs with
        | some st => .error (s, st)
        | none => tilePush x s ha hb (x.reg o.c) (x.reg o.e) (rs.map fun r => spanOf r.rows r.len)) s

/-! ## Effects of the tile operations -/

/-- Element (i, j) of a tile. -/
def HelmSt.tile (h : HelmSt) (t i j : Nat) : Word := h.acc.getD (t * 4096 + i * 64 + j) 0#32

/-- Accumulator elements from a place on replaced. -/
def HelmSt.setCells (h : HelmSt) (at_ : Nat) (v : List Word) : HelmSt :=
  { h with acc := (h.acc.filter fun p => p.1 < at_) ++ v.zipIdx.map (fun p => (at_ + p.2, p.1)) ++
      h.acc.filter fun p => at_ + v.length ≤ p.1 }

/-- A tile, or one row of it, replaced. -/
def HelmSt.setTile (h : HelmSt) (t : Nat) (v : List Word) : HelmSt := h.setCells (t * 4096) v
def HelmSt.setRow (h : HelmSt) (t i : Nat) (v : List Word) : HelmSt := h.setCells (t * 4096 + 64 * i) v

/-- A tile from a function of row and column. -/
def tileOf (f : Nat → Nat → Word) : List Word := (List.range 4096).map fun k => f (k / 64) (k % 64)

/-- A vector of 64 words at a scratch address. -/
def UnitSt.vec (u : UnitSt) (a : Word) : List Word := leWords (u.scrRead a.toNat 256) 64

/-- The canonical NaN where a value is one. -/
def nan32 (w : Word) : Word := if (fmt32.read false w.toNat).isNan then 0x7FC00000#32 else w

/-- A signed field of n bits. -/
def sField (x lo n : Nat) : Int :=
  let v := bits x lo n
  if v < 2 ^ (n - 1) then (v : Int) else (v : Int) - 2 ^ n

/-- Element of A at row m and dense position k (R235). -/
def aElem (u : UnitSt) (a : List Word) (m k : Nat) : Int :=
  let row := (wAt a 0 + toW m * wAt a 1).toNat
  if hdFmt a = 3 then sField ((u.scrRead (row + k / 2) 1).headD 0#8).toNat (4 * (k % 2)) 4
  else sField ((u.scrRead (row + k) 1).headD 0#8).toNat 0 8

/-- Bit i of plane p of column n of B (R236). -/
def bBit (u : UnitSt) (b : List Word) (n p i : Nat) : Bool :=
  let row := (wAt b 0 + toW n * wAt b 1).toNat
  ((u.scrRead (row + p * (wAt b 2).toNat + i / 8) 1).headD 0#8).getLsbD (i % 8)

/-- What a bit of plane p adds to an element of k planes (R234, R236): the last plane counts negative, a single one is a sign. -/
def planeVal (k p : Nat) (bit : Bool) : Int :=
  if k = 1 then (if bit then 1 else -1) else if bit then (if p + 1 = k then -(2 ^ p) else 2 ^ p) else 0

/-- Stored element i of column n of B (R236). -/
def bElem (u : UnitSt) (b : List Word) (n i : Nat) : Int :=
  let k := plPlanes (hdFmt b)
  (List.range k).foldl (fun v p => v + planeVal k p (bBit u b n p i)) 0

/-- The kept offsets of a column in a group of four (R240). -/
def keptPair (seed : Word) (n g : Nat) : Nat × Nat :=
  let h := seed ^^^ (toW n * 0x9E3779B1#32) ^^^ (toW g * 0x85EBCA77#32)
  let h := h ^^^ (h >>> 16)
  let h := h * 0x7FEB352D#32
  let h := h ^^^ (h >>> 15)
  match bits h.toNat 16 16 * 6 / 65536 with
  | 0 => (0, 1)
  | 1 => (0, 2)
  | 2 => (0, 3)
  | 3 => (1, 2)
  | 4 => (1, 3)
  | _ => (2, 3)

/-- The products of one K block for an element summed, with the elements of column n of B given by their stored index (R239, R240). -/
def keptSum (u : UnitSt) (a b : List Word) (m n k0 : Nat) (e : Nat → Int) : Int :=
  if hdSp b then
    (List.range 8).foldl (fun t q =>
      let k := k0 + 4 * q
      let g := ((wAt b 6).toNat + k) / 4
      let p := keptPair (wAt b 7) n g
      t + aElem u a m (k + p.1) * e (2 * g) + aElem u a m (k + p.2) * e (2 * g + 1)) 0
  else (List.range 32).foldl (fun t q => t + aElem u a m (k0 + q) * e (k0 + q)) 0

/-- The exact sum of one K block for an element (R239, R240). -/
def blockSum (u : UnitSt) (a b : List Word) (m n k0 : Nat) : Int := keptSum u a b m n k0 (bElem u b n)

/-- What a pass of plane p adds to it (R260). -/
def planeSum (u : UnitSt) (a b : List Word) (m n k0 p : Nat) : Int :=
  keptSum u a b m n k0 fun i => planeVal (plPlanes (hdFmt b)) p (bBit u b n p i)

/-- A scale byte (R237). -/
def scaleByte (u : UnitSt) (h : List Word) (m k : Nat) : Nat :=
  ((u.scrRead ((wAt h 3 + toW m * wAt h 4).toNat + k / 32) 1).headD 0#8).toNat

/-- One accumulator element through one K block (R239). -/
def mmaStep (p : Int) (sa sb : Nat) (acc : Word) : Word :=
  if sa = 255 || sb = 255 || (fmt32.read false acc.toNat).isNan then 0x7FC00000#32
  else
    let t := if p = 0 then 0 else (fmt32.deliver ⟨.rne, false, false⟩ (p < 0) p.natAbs ((sa : Int) + sb - 254)).1
    addPlain32 acc (toW t)

/-- The partial sums after the pass of plane p over the K block at k0 (R239, R260). -/
def planePass (u : UnitSt) (a b : List Word) (k0 p : Nat) (part : List Int) : List Int :=
  (List.range 4096).map fun c => (if p = 0 then 0 else part.getD c 0) + planeSum u a b (c / 64) (c % 64) k0 p

/-- Codes and scale of a block of 32 values (R255). -/
def planeBlock (k M : Nat) (v : List Word) : List Nat × Nat :=
  let vs := v.map fun w => fmt32.read false w.toNat
  if vs.any fun x => match x with
    | .fin _ _ _ => false
    | _ => true
  then (List.replicate 32 0, 255)
  else if vs.all FVal.isZero then (List.replicate 32 0, 127)
  else
    let b := blockScale M vs
    (vs.map fun x => (quantI k M .rne x b.2).1, b.1)

/-- Largest magnitude of a format (R234). -/
def fmtMax (f : Nat) : Nat := 2 ^ (plPlanes f - 1) - 1

/-- A row of 64 codes in the A layout (R235) or as planes (R236). -/
def planeBytes (o : HTp) (c : List Nat) : List Byte :=
  if o.l = 1#1 then
    if o.f = 5#3 then c.map (BitVec.ofNat 8)
    else (List.range 32).map fun i => BitVec.ofNat 8 (c.getD (2 * i) 0 + 16 * c.getD (2 * i + 1) 0)
  else
    (List.range (plPlanes o.f.toNat)).flatMap fun p => (List.range 8).map fun i =>
      BitVec.ofNat 8 ((List.range 8).foldl (fun m t => m + (bits (c.getD (8 * i + t) 0) p 1) * 2 ^ t) 0)

/-- Row i of a tile operation but mma: the row of the tile it replaces, and the bytes it writes into scratch, earliest first
(R254-R256). A vector form does all its elements in one step (R260). -/
def tileRow (h : HelmSt) (u : UnitSt) (t : TileOp) (i : Nat) : Option (Nat × List Word) × List (Nat × List Byte) :=
  let v := fun (a : Word) (i : Nat) => leWord (u.scrRead (a.toNat + 4 * i) 4)
  let put := fun (a : Word) (i : Nat) (w : Word) => (a.toNat + 4 * i, leBytes 4 w.toNat)
  let row := fun (f : Nat → Word) => (List.range 64).map f
  let fold := fun (tl : BitVec 2) (f : Word → Word → Word) (x : Word) => (List.range 64).foldl (fun m j => f m (h.tile tl.toNat i j)) x
  match decodeHelm t.word with
  | .ok (.mzero o) => (some (o.t.toNat, row fun _ => 0#32), [])
  | .ok (.mload o) =>
    let n := elemBytes o.f
    (some (o.t.toNat, row fun j =>
      let x := leNat (u.scrRead ((t.a + toW i * t.b).toNat + n * j) n)
      match o.f.toNat with
      | 0 => nan32 (toW x)
      | 1 => nan32 (toW (fmt16.widen false x).1)
      | _ => nan32 (toW (fmtB16.widen false x).1)), [])
  | .ok (.mstore o) =>
    (none, [((t.a + toW i * t.b).toNat, (List.range 64).flatMap fun j =>
      let x := h.tile o.t.toNat i j
      match o.f.toNat with
      | 0 => leBytes 4 (nan32 x).toNat
      | 1 => leBytes 2 (fmt16.narrow ⟨.rne, false, false⟩ x.toNat).1
      | _ => leBytes 2 (fmtB16.narrow ⟨.rne, false, false⟩ x.toNat).1)])
  | .ok (.mplane o) =>
    let k := plPlanes o.f.toNat
    let b := fun c => planeBlock k (fmtMax o.f.toNat) ((List.range 32).map fun j => h.tile o.t.toNat i (32 * c + j))
    (none, [((t.a + toW i * t.c).toNat, planeBytes o ((b 0).1 ++ (b 1).1)),
      ((t.b + toW i * t.e).toNat, [BitVec.ofNat 8 (b 0).2, BitVec.ofNat 8 (b 1).2])])
  | .ok (.mexp o) => (some (o.t.toNat, row fun j => toW (sfuExp2 false (subPlain32 (h.tile o.t.toNat i j) (v t.a i)).toNat).1), [])
  | .ok (.mexpVdiff _) =>
    (none, (List.range 64).map fun i => put t.a i (toW (sfuExp2 false (subPlain32 (v t.a i) (v t.b i)).toNat).1))
  | .ok (.mexpRcp _) => (none, (List.range 64).map fun i => put t.a i (toW (sfuRcp false (v t.a i).toNat).1))
  | .ok (.mrmax o) => (none, [put t.a i (fold o.t maxPlain32 (v t.a i))])
  | .ok (.mrmaxKeep o) => (none, [put t.b i (v t.a i), put t.a i (fold o.t maxPlain32 (v t.a i))])
  | .ok (.mrsum o) => (none, [put t.a i (fold o.t addPlain32 (v t.a i))])
  | .ok (.mrsumDecay o) => (none, [put t.a i (fold o.t addPlain32 (mulPlain32 (v t.a i) (v t.b i)))])
  | .ok (.mscale o) => (some (o.t.toNat, row fun j => mulPlain32 (h.tile o.t.toNat i j) (v t.a i)), [])
  | _ => (none, [])

/-- The operand headers of an mma. -/
def TileOp.headA (t : TileOp) (u : UnitSt) : List Word := leWords (u.scrRead t.a.toNat 32) 8
def TileOp.headB (t : TileOp) (u : UnitSt) : List Word := leWords (u.scrRead t.b.toNat 32) 8

/-- Steps of a tile operation, and the helm cycles of each (R259, R260): a plane pass over a K block of an mma, a row, or a vector
form. -/
def TileOp.steps (t : TileOp) (u : UnitSt) : Nat :=
  match decodeHelm t.word with
  | .ok (.mma _) => t.c.toNat / 32 * plPlanes (hdFmt (t.headB u))
  | .ok (.mexpVdiff _) | .ok (.mexpRcp _) => 1
  | _ => 64

def TileOp.cost (t : TileOp) (u : UnitSt) : Nat :=
  match decodeHelm t.word with
  | .ok (.mma _) => 4 / (if hdFmt (t.headA u) = 3 then 2 else 1) / (if hdSp (t.headB u) then 2 else 1)
  | .ok (.mload o) | .ok (.mstore o) => if o.f = 0#2 then 2 else 1
  | _ => 1

/-- ONE STEP of a tile operation (R239, R253-R256, R260): bytes of an armed barrier are kept, and the first one met is noted
(R192). -/
def tileStep (h : HelmSt) (u : UnitSt) (t : TileOp) : HelmSt × UnitSt × TileOp :=
  let next := { t with step := t.step + 1 }
  match decodeHelm t.word with
  | .ok (.mma o) =>
    let a := t.headA u
    let b := t.headB u
    let k := plPlanes (hdFmt b)
    let k0 := t.e.toNat + 32 * (t.step / k)
    let part := planePass u a b k0 (t.step % k) t.part
    if t.step % k + 1 = k then
      (h.setTile o.t.toNat (tileOf fun m n =>
        mmaStep (part.getD (64 * m + n) 0) (scaleByte u a m k0) (scaleByte u b n k0) (h.tile o.t.toNat m n)), u, { next with part := [] })
    else (h, u, { next with part := part })
  | _ =>
    let r := tileRow h u t t.step
    let hit := (r.2.findSome? fun p => u.barIn? p.1 (p.1 + p.2.length)).map (·.addr)
    ((r.1.map fun p => h.setRow p.1 t.step p.2).getD h, r.2.foldl (fun u p => u.scrWrite p.1 p.2) u, { next with hit := t.hit <|> hit })

/-- n steps of a tile operation, one after the other. -/
def tileRun : Nat → HelmSt → UnitSt → TileOp → HelmSt × UnitSt × TileOp
  | 0, h, u, t => (h, u, t)
  | n + 1, h, u, t =>
    let r := tileStep h u t
    tileRun n r.1 r.2.1 r.2.2

/-- The context whose oldest tile operation the matrix engine of a cluster works on: the one the helm serves, where it has one, else
another whose bank is at hand; of neither class that the helm and the engine stop for does it stand still: the record of its helm names
the next step (R242, R253, R260, R369). -/
def State.tileHead (s : State) (cl : Nat) : Option (Nat × HelmSt) :=
  (s.helmsOf cl).find? fun p => p.2.tiles != [] && !s.frozen p.1 1 && !s.frozen p.1 2 && !p.2.out

/-- The engine's clock after n steps of an operation: it begins when it is free and the operation has been issued, and the helm's
cycle count is not behind it (R253, R259). -/
def ClusterSt.engineRun (c : ClusterSt) (key : Nat) (t : TileOp) (cycles : Nat) : ClusterSt :=
  let e := max c.mbusy t.since + cycles
  { c with sel := some key, mbusy := e, hcycle := max c.hcycle e }

/-- A step of the matrix engine of a cluster (R260): the next one of its oldest operation. -/
def State.matrixStep (s : State) (cl : Nat) : State :=
  match s.tileHead cl with
  | none => s
  | some (key, h) =>
    match h.tiles with
    | [] => s
    | t :: ts =>
      let u := s.unit t.unit
      if s.unitAway t.unit || t.steps u ≤ t.step then s
      else
        let r := tileStep h u t
        ((s.setUnit t.unit r.2.1).setHelm key cl { r.1 with tiles := r.2.2 :: ts }).setCluster cl
          ((s.cluster cl).engineRun key t (t.cost u))

/-- TILE_OP_COMPLETE (R253, R192, R241, R260): the steps that the oldest tile operation of a helm has left are done, and its claims
are released; where an armed barrier has kept its bytes, the helm faults. -/
def execTileOpComplete (cl : Nat) (s : State) : Out State :=
  match s.tileHead cl with
  | none => .next s
  | some (key, h) =>
    match h.tiles with
    | [] => .next s
    | t :: ts =>
      if s.unitAway t.unit then .next s
      else
        let u := s.unit t.unit
        let n := t.steps u - t.step
        let r := tileRun n h u t
        let s := s.setUnit t.unit { r.2.1 with claims := r.2.1.claims.filter fun c => !(c.kind = 1 && c.own = tileOwner t.id cl) }
        let s := (s.setHelm key cl { r.1 with tiles := ts }).setCluster cl ((s.cluster cl).engineRun key t (n * t.cost u))
        match r.2.2.hit with
        | some b => .next (s.helmFault key cl 0x0B (helmInfo t.pc t.word) t.pc (toW (b / 16)) false)
        | none => .next s

end Sys2Proof.Machine
end

