-- ==== Sys2Proof/Machine/Scalar.lean ====
section
/-!
DEFINITION. Sys2Proof/Machine/Scalar.lean: the scalar and scalar-immediate instructions (R82-R85).
-/
namespace Sys2Proof.Machine

/-- A scalar form of two sources. -/
def binS (i : Instr) (o : FS) (f : Word → Word → Word) (s : State) : Out State :=
  issueS i o.s (fun x => scalarForm x [x.a o.a, x.b o.b] (x.d o.d) fun v => f (v0 v) (v1 v)) s

/-- A scalar form of one source. -/
def unS (i : Instr) (o : FD) (f : Word → Word) (s : State) : Out State :=
  issueS i o.s (fun x => scalarForm x [x.a o.a] (x.d o.d) fun v => f (v0 v)) s

/-- A scalar immediate form. -/
def immS (i : Instr) (o : FI) (f : Word → Word → Word) (s : State) : Out State :=
  issueS i o.s (fun x => scalarForm x [x.a o.a] (x.d o.d) fun v => f (v0 v) (immOf x.gl o.i)) s

/-- SADD (R82). -/
def execSadd (o : FS) (s : State) : Out State := binS (.sadd o) o (fun a b => a + b) s

/-- SSUB (R82). -/
def execSsub (o : FS) (s : State) : Out State := binS (.ssub o) o (fun a b => a - b) s

/-- SMUL (R82). -/
def execSmul (o : FS) (s : State) : Out State := binS (.smul o) o (fun a b => a * b) s

/-- SMULHI_N32 (R82). -/
def execSmulhiN32 (o : FS) (s : State) : Out State := binS (.smulhiN32 o) o (fun a b => mulhiN a b) s

/-- SAND (R82). -/
def execSand (o : FS) (s : State) : Out State := binS (.sand o) o (fun a b => a &&& b) s

/-- SOR (R82). -/
def execSor (o : FS) (s : State) : Out State := binS (.sor o) o (fun a b => a ||| b) s

/-- SXOR (R82). -/
def execSxor (o : FS) (s : State) : Out State := binS (.sxor o) o (fun a b => a ^^^ b) s

/-- SSHL (R82). -/
def execSshl (o : FS) (s : State) : Out State := binS (.sshl o) o (fun a b => shlW a b) s

/-- SSHR_N32 (R82). -/
def execSshrN32 (o : FS) (s : State) : Out State := binS (.sshrN32 o) o (fun a b => shrN a b) s

/-- SSHR_I32 (R82). -/
def execSshrI32 (o : FS) (s : State) : Out State := binS (.sshrI32 o) o (fun a b => shrI a b) s

/-- SMIN_I32 (R82). -/
def execSminI32 (o : FS) (s : State) : Out State := binS (.sminI32 o) o (fun a b => minI a b) s

/-- SMAX_I32 (R82). -/
def execSmaxI32 (o : FS) (s : State) : Out State := binS (.smaxI32 o) o (fun a b => maxI a b) s

/-- SMIN_N32 (R82). -/
def execSminN32 (o : FS) (s : State) : Out State := binS (.sminN32 o) o (fun a b => minN a b) s

/-- SMAX_N32 (R82). -/
def execSmaxN32 (o : FS) (s : State) : Out State := binS (.smaxN32 o) o (fun a b => maxN a b) s

/-- SCLT_I32 (R82). -/
def execScltI32 (o : FS) (s : State) : Out State := binS (.scltI32 o) o (fun a b => boolW (a.toInt < b.toInt)) s

/-- SCLT_N32 (R82). -/
def execScltN32 (o : FS) (s : State) : Out State := binS (.scltN32 o) o (fun a b => boolW (a.toNat < b.toNat)) s

/-- SADDI (R84). -/
def execSaddi (o : FI) (s : State) : Out State := immS (.saddi o) o (fun a i => a + i) s

/-- SANDI (R84). -/
def execSandi (o : FI) (s : State) : Out State := immS (.sandi o) o (fun a i => a &&& i) s

/-- SORI (R84). -/
def execSori (o : FI) (s : State) : Out State := immS (.sori o) o (fun a i => a ||| i) s

/-- SMOVI (R84). -/
def execSmovi (o : FIm) (s : State) : Out State :=
  issueS (.smovi o) o.s (fun x => scalarForm x [] (x.d o.d) fun _ => immOf x.gl o.i) s

/-- SMOV (R83). -/
def execSmov (o : FD) (s : State) : Out State := unS (.smov o) o (fun a => a) s

/-- SBIT_NOT (R83). -/
def execSbitNot (o : FD) (s : State) : Out State := unS (.sbitNot o) o (fun a => ~~~a) s

/-- SBIT_POPC (R83). -/
def execSbitPopc (o : FD) (s : State) : Out State := unS (.sbitPopc o) o (fun a => popc a) s

/-- SBIT_CLZ (R83). -/
def execSbitClz (o : FD) (s : State) : Out State := unS (.sbitClz o) o (fun a => clz a) s

/-- SBIT_CTZ (R83). -/
def execSbitCtz (o : FD) (s : State) : Out State := unS (.sbitCtz o) o (fun a => ctz a) s

/-- SBIT_BREV (R83). -/
def execSbitBrev (o : FD) (s : State) : Out State := unS (.sbitBrev o) o (fun a => brev a) s

/-- SBIT_SEQZ (R83). -/
def execSbitSeqz (o : FD) (s : State) : Out State := unS (.sbitSeqz o) o (fun a => boolW (a = 0#32)) s

end Sys2Proof.Machine
end

