-- ==== Sys2Proof/Machine/Dispatch.lean ====
section
/-!
DEFINITION. Sys2Proof/Machine/Dispatch.lean: one arm for each constructor of Instr, each a call of its meaning.
-/
namespace Sys2Proof.Machine

/-- The effect of an instruction or step. -/
def exec (i : Instr) (s : State) : Host.Outcome State Fault Refusal :=
  match i with
  | .vaddI32 o => Sys2Proof.Machine.execVaddI32 o s
  | .vsubI32 o => Sys2Proof.Machine.execVsubI32 o s
  | .vmulI32 o => Sys2Proof.Machine.execVmulI32 o s
  | .vmulhiI32 o => Sys2Proof.Machine.execVmulhiI32 o s
  | .vmulhiN32 o => Sys2Proof.Machine.execVmulhiN32 o s
  | .vmadI32 o => Sys2Proof.Machine.execVmadI32 o s
  | .vminI32 o => Sys2Proof.Machine.execVminI32 o s
  | .vmaxI32 o => Sys2Proof.Machine.execVmaxI32 o s
  | .vminN32 o => Sys2Proof.Machine.execVminN32 o s
  | .vmaxN32 o => Sys2Proof.Machine.execVmaxN32 o s
  | .vand o => Sys2Proof.Machine.execVand o s
  | .vor o => Sys2Proof.Machine.execVor o s
  | .vxor o => Sys2Proof.Machine.execVxor o s
  | .vandn o => Sys2Proof.Machine.execVandn o s
  | .vshl o => Sys2Proof.Machine.execVshl o s
  | .vshrN32 o => Sys2Proof.Machine.execVshrN32 o s
  | .vshrI32 o => Sys2Proof.Machine.execVshrI32 o s
  | .vrotl o => Sys2Proof.Machine.execVrotl o s
  | .vsel o => Sys2Proof.Machine.execVsel o s
  | .vcmpI32 o => Sys2Proof.Machine.execVcmpI32 o s
  | .vcmpN32 o => Sys2Proof.Machine.execVcmpN32 o s
  | .vcmpF32 o => Sys2Proof.Machine.execVcmpF32 o s
  | .vcmpF16 o => Sys2Proof.Machine.execVcmpF16 o s
  | .vbfxN32 o => Sys2Proof.Machine.execVbfxN32 o s
  | .vbfxI32 o => Sys2Proof.Machine.execVbfxI32 o s
  | .vbfi o => Sys2Proof.Machine.execVbfi o s
  | .vperm o => Sys2Proof.Machine.execVperm o s
  | .vaddsatI32 o => Sys2Proof.Machine.execVaddsatI32 o s
  | .vsubsatI32 o => Sys2Proof.Machine.execVsubsatI32 o s
  | .vpack16 o => Sys2Proof.Machine.execVpack16 o s
  | .vshfl o => Sys2Proof.Machine.execVshfl o s
  | .vaddF32 o => Sys2Proof.Machine.execVaddF32 o s
  | .vsubF32 o => Sys2Proof.Machine.execVsubF32 o s
  | .vmulF32 o => Sys2Proof.Machine.execVmulF32 o s
  | .vfmaF32 o => Sys2Proof.Machine.execVfmaF32 o s
  | .vminF32 o => Sys2Proof.Machine.execVminF32 o s
  | .vmaxF32 o => Sys2Proof.Machine.execVmaxF32 o s
  | .vaddF16x2 o => Sys2Proof.Machine.execVaddF16x2 o s
  | .vmulF16x2 o => Sys2Proof.Machine.execVmulF16x2 o s
  | .vfmaF16x2 o => Sys2Proof.Machine.execVfmaF16x2 o s
  | .vaddBf16x2 o => Sys2Proof.Machine.execVaddBf16x2 o s
  | .vmulBf16x2 o => Sys2Proof.Machine.execVmulBf16x2 o s
  | .vfmaBf16x2 o => Sys2Proof.Machine.execVfmaBf16x2 o s
  | .vldexpF32 o => Sys2Proof.Machine.execVldexpF32 o s
  | .vcopysignF32 o => Sys2Proof.Machine.execVcopysignF32 o s
  | .vminF16x2 o => Sys2Proof.Machine.execVminF16x2 o s
  | .vmaxF16x2 o => Sys2Proof.Machine.execVmaxF16x2 o s
  | .vdot4E4m3 o => Sys2Proof.Machine.execVdot4E4m3 o s
  | .vdot4E5m2 o => Sys2Proof.Machine.execVdot4E5m2 o s
  | .vdot4I8 o => Sys2Proof.Machine.execVdot4I8 o s
  | .vdot4N8 o => Sys2Proof.Machine.execVdot4N8 o s
  | .vdot8E2m1 o => Sys2Proof.Machine.execVdot8E2m1 o s
  | .vdot8I4 o => Sys2Proof.Machine.execVdot8I4 o s
  | .vdot2Bf16 o => Sys2Proof.Machine.execVdot2Bf16 o s
  | .vdot2F16 o => Sys2Proof.Machine.execVdot2F16 o s
  | .vcvtI32F32 o => Sys2Proof.Machine.execVcvtI32F32 o s
  | .vcvtN32F32 o => Sys2Proof.Machine.execVcvtN32F32 o s
  | .vcvtF32I32 o => Sys2Proof.Machine.execVcvtF32I32 o s
  | .vcvtF32N32 o => Sys2Proof.Machine.execVcvtF32N32 o s
  | .vcvtF16F32 o => Sys2Proof.Machine.execVcvtF16F32 o s
  | .vcvtBf16F32 o => Sys2Proof.Machine.execVcvtBf16F32 o s
  | .vcvtF32F16 o => Sys2Proof.Machine.execVcvtF32F16 o s
  | .vcvtF32Bf16 o => Sys2Proof.Machine.execVcvtF32Bf16 o s
  | .vcvtE4m3F32 o => Sys2Proof.Machine.execVcvtE4m3F32 o s
  | .vcvtE5m2F32 o => Sys2Proof.Machine.execVcvtE5m2F32 o s
  | .vcvtE2m1F32 o => Sys2Proof.Machine.execVcvtE2m1F32 o s
  | .vcvtF32E4m3 o => Sys2Proof.Machine.execVcvtF32E4m3 o s
  | .vcvtF32E5m2 o => Sys2Proof.Machine.execVcvtF32E5m2 o s
  | .vcvtF32E2m1 o => Sys2Proof.Machine.execVcvtF32E2m1 o s
  | .vsfuRcp o => Sys2Proof.Machine.execVsfuRcp o s
  | .vsfuRsq o => Sys2Proof.Machine.execVsfuRsq o s
  | .vsfuSqrt o => Sys2Proof.Machine.execVsfuSqrt o s
  | .vsfuExp2 o => Sys2Proof.Machine.execVsfuExp2 o s
  | .vsfuLog2 o => Sys2Proof.Machine.execVsfuLog2 o s
  | .vsfuSin2pi o => Sys2Proof.Machine.execVsfuSin2pi o s
  | .vsfuCos2pi o => Sys2Proof.Machine.execVsfuCos2pi o s
  | .vsfuTanh o => Sys2Proof.Machine.execVsfuTanh o s
  | .vsfuSigm o => Sys2Proof.Machine.execVsfuSigm o s
  | .vmov o => Sys2Proof.Machine.execVmov o s
  | .vmovPortPush o => Sys2Proof.Machine.execVmovPortPush o s
  | .vbitNot o => Sys2Proof.Machine.execVbitNot o s
  | .vbitPopc o => Sys2Proof.Machine.execVbitPopc o s
  | .vbitClz o => Sys2Proof.Machine.execVbitClz o s
  | .vbitCtz o => Sys2Proof.Machine.execVbitCtz o s
  | .vbitBrev o => Sys2Proof.Machine.execVbitBrev o s
  | .vbitAbsI32 o => Sys2Proof.Machine.execVbitAbsI32 o s
  | .vbitNegI32 o => Sys2Proof.Machine.execVbitNegI32 o s
  | .vbitAbsF32 o => Sys2Proof.Machine.execVbitAbsF32 o s
  | .vbitNegF32 o => Sys2Proof.Machine.execVbitNegF32 o s
  | .vscanAddI32 o => Sys2Proof.Machine.execVscanAddI32 o s
  | .vscanAddF32 o => Sys2Proof.Machine.execVscanAddF32 o s
  | .vscanMinI32 o => Sys2Proof.Machine.execVscanMinI32 o s
  | .vscanMaxI32 o => Sys2Proof.Machine.execVscanMaxI32 o s
  | .vscanMinN32 o => Sys2Proof.Machine.execVscanMinN32 o s
  | .vscanMaxN32 o => Sys2Proof.Machine.execVscanMaxN32 o s
  | .vscanAnd o => Sys2Proof.Machine.execVscanAnd o s
  | .vscanOr o => Sys2Proof.Machine.execVscanOr o s
  | .vscanXor o => Sys2Proof.Machine.execVscanXor o s
  | .vvoteAny o => Sys2Proof.Machine.execVvoteAny o s
  | .vvoteAll o => Sys2Proof.Machine.execVvoteAll o s
  | .vvoteBallot o => Sys2Proof.Machine.execVvoteBallot o s
  | .vvoteCount o => Sys2Proof.Machine.execVvoteCount o s
  | .vvoteFirst o => Sys2Proof.Machine.execVvoteFirst o s
  | .vquantE4m3 o => Sys2Proof.Machine.execVquantE4m3 o s
  | .vquantE5m2 o => Sys2Proof.Machine.execVquantE5m2 o s
  | .vquantE2m1 o => Sys2Proof.Machine.execVquantE2m1 o s
  | .vquantI8 o => Sys2Proof.Machine.execVquantI8 o s
  | .vquantI4 o => Sys2Proof.Machine.execVquantI4 o s
  | .vredAddI32 o => Sys2Proof.Machine.execVredAddI32 o s
  | .vredAddF32 o => Sys2Proof.Machine.execVredAddF32 o s
  | .vredMinI32 o => Sys2Proof.Machine.execVredMinI32 o s
  | .vredMaxI32 o => Sys2Proof.Machine.execVredMaxI32 o s
  | .vredMinN32 o => Sys2Proof.Machine.execVredMinN32 o s
  | .vredMaxN32 o => Sys2Proof.Machine.execVredMaxN32 o s
  | .vredAnd o => Sys2Proof.Machine.execVredAnd o s
  | .vredOr o => Sys2Proof.Machine.execVredOr o s
  | .vredXor o => Sys2Proof.Machine.execVredXor o s
  | .vdropm o => Sys2Proof.Machine.execVdropm o s
  | .sadd o => Sys2Proof.Machine.execSadd o s
  | .ssub o => Sys2Proof.Machine.execSsub o s
  | .smul o => Sys2Proof.Machine.execSmul o s
  | .smulhiN32 o => Sys2Proof.Machine.execSmulhiN32 o s
  | .sand o => Sys2Proof.Machine.execSand o s
  | .sor o => Sys2Proof.Machine.execSor o s
  | .sxor o => Sys2Proof.Machine.execSxor o s
  | .sshl o => Sys2Proof.Machine.execSshl o s
  | .sshrN32 o => Sys2Proof.Machine.execSshrN32 o s
  | .sshrI32 o => Sys2Proof.Machine.execSshrI32 o s
  | .sminI32 o => Sys2Proof.Machine.execSminI32 o s
  | .smaxI32 o => Sys2Proof.Machine.execSmaxI32 o s
  | .sminN32 o => Sys2Proof.Machine.execSminN32 o s
  | .smaxN32 o => Sys2Proof.Machine.execSmaxN32 o s
  | .scltI32 o => Sys2Proof.Machine.execScltI32 o s
  | .scltN32 o => Sys2Proof.Machine.execScltN32 o s
  | .vaddi o => Sys2Proof.Machine.execVaddi o s
  | .vshli o => Sys2Proof.Machine.execVshli o s
  | .vmovi o => Sys2Proof.Machine.execVmovi o s
  | .saddi o => Sys2Proof.Machine.execSaddi o s
  | .sandi o => Sys2Proof.Machine.execSandi o s
  | .sori o => Sys2Proof.Machine.execSori o s
  | .smovi o => Sys2Proof.Machine.execSmovi o s
  | .smov o => Sys2Proof.Machine.execSmov o s
  | .sbitNot o => Sys2Proof.Machine.execSbitNot o s
  | .sbitPopc o => Sys2Proof.Machine.execSbitPopc o s
  | .sbitClz o => Sys2Proof.Machine.execSbitClz o s
  | .sbitCtz o => Sys2Proof.Machine.execSbitCtz o s
  | .sbitBrev o => Sys2Proof.Machine.execSbitBrev o s
  | .sbitSeqz o => Sys2Proof.Machine.execSbitSeqz o s
  | .br o => Sys2Proof.Machine.execBr o s
  | .brz o => Sys2Proof.Machine.execBrz o s
  | .brnz o => Sys2Proof.Machine.execBrnz o s
  | .brd o => Sys2Proof.Machine.execBrd o s
  | .mark o => Sys2Proof.Machine.execMark o s
  | .join o => Sys2Proof.Machine.execJoin o s
  | .call o => Sys2Proof.Machine.execCall o s
  | .jr o => Sys2Proof.Machine.execJr o s
  | .ld o => Sys2Proof.Machine.execLd o s
  | .st o => Sys2Proof.Machine.execSt o s
  | .ldp o => Sys2Proof.Machine.execLdp o s
  | .stp o => Sys2Proof.Machine.execStp o s
  | .ldx o => Sys2Proof.Machine.execLdx o s
  | .stx o => Sys2Proof.Machine.execStx o s
  | .sld o => Sys2Proof.Machine.execSld o s
  | .sst o => Sys2Proof.Machine.execSst o s
  | .atom o => Sys2Proof.Machine.execAtom o s
  | .red o => Sys2Proof.Machine.execRed o s
  | .atomx o => Sys2Proof.Machine.execAtomx o s
  | .npost o => Sys2Proof.Machine.execNpost o s
  | .ndone o => Sys2Proof.Machine.execNdone o s
  | .nread o => Sys2Proof.Machine.execNread o s
  | .cpy o => Sys2Proof.Machine.execCpy o s
  | .cpyx o => Sys2Proof.Machine.execCpyx o s
  | .bseal o => Sys2Proof.Machine.execBseal o s
  | .mpost o => Sys2Proof.Machine.execMpost o s
  | .sqLd o => Sys2Proof.Machine.execSqLd o s
  | .sqSt o => Sys2Proof.Machine.execSqSt o s
  | .sqMark o => Sys2Proof.Machine.execSqMark o s
  | .sqBack o => Sys2Proof.Machine.execSqBack o s
  | .sqFork o => Sys2Proof.Machine.execSqFork o s
  | .sqDrop o => Sys2Proof.Machine.execSqDrop o s
  | .sqInfo o => Sys2Proof.Machine.execSqInfo o s
  | .spawn o => Sys2Proof.Machine.execSpawn o s
  | .launch o => Sys2Proof.Machine.execLaunch o s
  | .chainFix o => Sys2Proof.Machine.execChainFix o s
  | .chainForm o => Sys2Proof.Machine.execChainForm o s
  | .chainQuery o => Sys2Proof.Machine.execChainQuery o s
  | .cacheL1wb o => Sys2Proof.Machine.execCacheL1wb o s
  | .cacheL1inv o => Sys2Proof.Machine.execCacheL1inv o s
  | .cacheL1wbinv o => Sys2Proof.Machine.execCacheL1wbinv o s
  | .cacheIcinv o => Sys2Proof.Machine.execCacheIcinv o s
  | .cacheFetchbar o => Sys2Proof.Machine.execCacheFetchbar o s
  | .cachePref o => Sys2Proof.Machine.execCachePref o s
  | .regroup o => Sys2Proof.Machine.execRegroup o s
  | .barInit o => Sys2Proof.Machine.execBarInit o s
  | .barArrive o => Sys2Proof.Machine.execBarArrive o s
  | .barDrop o => Sys2Proof.Machine.execBarDrop o s
  | .barQuery o => Sys2Proof.Machine.execBarQuery o s
  | .parkWaitc o => Sys2Proof.Machine.execParkWaitc o s
  | .parkBwait o => Sys2Proof.Machine.execParkBwait o s
  | .parkWbar o => Sys2Proof.Machine.execParkWbar o s
  | .parkWaitm o => Sys2Proof.Machine.execParkWaitm o s
  | .parkYield o => Sys2Proof.Machine.execParkYield o s
  | .fence o => Sys2Proof.Machine.execFence o s
  | .nop o => Sys2Proof.Machine.execNop o s
  | .sysTrap o => Sys2Proof.Machine.execSysTrap o s
  | .sysGetst o => Sys2Proof.Machine.execSysGetst o s
  | .sysSetst o => Sys2Proof.Machine.execSysSetst o s
  | .sysDcommit o => Sys2Proof.Machine.execSysDcommit o s
  | .sysRseed o => Sys2Proof.Machine.execSysRseed o s
  | .gimm o => Sys2Proof.Machine.execGimm o s
  | .grep o => Sys2Proof.Machine.execGrep o s
  | .gmod o => Sys2Proof.Machine.execGmod o s
  | .gext o => Sys2Proof.Machine.execGext o s
  | .gstall o => Sys2Proof.Machine.execGstall o s
  | .gscale o => Sys2Proof.Machine.execGscale o s
  | .hmovi o => Sys2Proof.Machine.execHmovi o s
  | .hmoviHi o => Sys2Proof.Machine.execHmoviHi o s
  | .hadd o => Sys2Proof.Machine.execHadd o s
  | .hsub o => Sys2Proof.Machine.execHsub o s
  | .hshl o => Sys2Proof.Machine.execHshl o s
  | .hand o => Sys2Proof.Machine.execHand o s
  | .hbr o => Sys2Proof.Machine.execHbr o s
  | .hbrnz o => Sys2Proof.Machine.execHbrnz o s
  | .hloop o => Sys2Proof.Machine.execHloop o s
  | .hcall o => Sys2Proof.Machine.execHcall o s
  | .mpop o => Sys2Proof.Machine.execMpop o s
  | .marrive o => Sys2Proof.Machine.execMarrive o s
  | .mwbar o => Sys2Proof.Machine.execMwbar o s
  | .mcopy o => Sys2Proof.Machine.execMcopy o s
  | .mcwait o => Sys2Proof.Machine.execMcwait o s
  | .mzero o => Sys2Proof.Machine.execMzero o s
  | .mma o => Sys2Proof.Machine.execMma o s
  | .mexp o => Sys2Proof.Machine.execMexp o s
  | .mexpVdiff o => Sys2Proof.Machine.execMexpVdiff o s
  | .mexpRcp o => Sys2Proof.Machine.execMexpRcp o s
  | .mrmax o => Sys2Proof.Machine.execMrmax o s
  | .mrmaxKeep o => Sys2Proof.Machine.execMrmaxKeep o s
  | .mrsum o => Sys2Proof.Machine.execMrsum o s
  | .mrsumDecay o => Sys2Proof.Machine.execMrsumDecay o s
  | .mscale o => Sys2Proof.Machine.execMscale o s
  | .mstore o => Sys2Proof.Machine.execMstore o s
  | .mplane o => Sys2Proof.Machine.execMplane o s
  | .mload o => Sys2Proof.Machine.execMload o s
  | .mdone o => Sys2Proof.Machine.execMdone o s
  | .inFlightComplete g c => Sys2Proof.Machine.execInFlightComplete g c s
  | .missEntryGrant core => Sys2Proof.Machine.execMissEntryGrant core s
  | .refillComplete g => Sys2Proof.Machine.execRefillComplete g s
  | .activeSetEnter core => Sys2Proof.Machine.execActiveSetEnter core s
  | .displace core => Sys2Proof.Machine.execDisplace core s
  | .boostRise g => Sys2Proof.Machine.execBoostRise g s
  | .quantumExpiry u => Sys2Proof.Machine.execQuantumExpiry u s
  | .wBlockSave u => Sys2Proof.Machine.execWBlockSave u s
  | .gangPreempt w => Sys2Proof.Machine.execGangPreempt w s
  | .launchRecordCheck w => Sys2Proof.Machine.execLaunchRecordCheck w s
  | .blockPlace p => Sys2Proof.Machine.execBlockPlace p s
  | .taskPlace w core => Sys2Proof.Machine.execTaskPlace w core s
  | .swapOut u => Sys2Proof.Machine.execSwapOut u s
  | .starveTimerExpiry g => Sys2Proof.Machine.execStarveTimerExpiry g s
  | .workCompletionWord w => Sys2Proof.Machine.execWorkCompletionWord w s
  | .migrateUnit u core => Sys2Proof.Machine.execMigrateUnit u core s
  | .forwardEntryRelease core u => Sys2Proof.Machine.execForwardEntryRelease core u s
  | .chainSwitchRequest u => Sys2Proof.Machine.execChainSwitchRequest u s
  | .chainFormSwitch u cores => Sys2Proof.Machine.execChainFormSwitch u cores s
  | .streamLoadItem u link => Sys2Proof.Machine.execStreamLoadItem u link s
  | .streamStoreItem u link => Sys2Proof.Machine.execStreamStoreItem u link s
  | .barrierArrivalEffect u => Sys2Proof.Machine.execBarrierArrivalEffect u s
  | .copyChunk k => Sys2Proof.Machine.execCopyChunk k s
  | .copyComplete k => Sys2Proof.Machine.execCopyComplete k s
  | .mpostVisible cl i0 => Sys2Proof.Machine.execMpostVisible cl i0 s
  | .helmStartRequest cl => Sys2Proof.Machine.execHelmStartRequest cl s
  | .helmLoadRequest cl => Sys2Proof.Machine.execHelmLoadRequest cl s
  | .helmContextSwitch cl => Sys2Proof.Machine.execHelmContextSwitch cl s
  | .tileOpComplete cl => Sys2Proof.Machine.execTileOpComplete cl s
  | .marriveEffect cl => Sys2Proof.Machine.execMarriveEffect cl s
  | .mdoneEffect cl => Sys2Proof.Machine.execMdoneEffect cl s
  | .helmMwbarStarve cl => Sys2Proof.Machine.execHelmMwbarStarve cl s
  | .homeRead g i0 => Sys2Proof.Machine.execHomeRead g i0 s
  | .homeWritePerform w => Sys2Proof.Machine.execHomeWritePerform w s
  | .spanClaim l1 line => Sys2Proof.Machine.execSpanClaim l1 line s
  | .homeAtomic g i0 => Sys2Proof.Machine.execHomeAtomic g i0 s
  | .updateOnlyEvict l1 line => Sys2Proof.Machine.execUpdateOnlyEvict l1 line s
  | .noticeCommit g => Sys2Proof.Machine.execNoticeCommit g s
  | .noticeClaim g => Sys2Proof.Machine.execNoticeClaim g s
  | .noticeRelease g => Sys2Proof.Machine.execNoticeRelease g s
  | .draftEntryFree die e => Sys2Proof.Machine.execDraftEntryFree die e s
  | .draftReplay g => Sys2Proof.Machine.execDraftReplay g s
  | .l2DataError pa n => Sys2Proof.Machine.execL2DataError pa n s
  | .l2TagError line clean => Sys2Proof.Machine.execL2TagError line clean s
  | .sqEngineRequest g => Sys2Proof.Machine.execSqEngineRequest g s
  | .sqTransferComplete k => Sys2Proof.Machine.execSqTransferComplete k s
  | .statePageError die ps => Sys2Proof.Machine.execStatePageError die ps s
  | .pageWalk vf ctx va acc => Sys2Proof.Machine.execPageWalk vf ctx va acc s
  | .tlbInv m die v => Sys2Proof.Machine.execTlbInv m die v s
  | .tlbInvComplete i0 => Sys2Proof.Machine.execTlbInvComplete i0 s
  | .fqBaseWrite m q v => Sys2Proof.Machine.execFqBaseWrite m q v s
  | .fqPtrHeadWrite m q v => Sys2Proof.Machine.execFqPtrHeadWrite m q v s
  | .fqResolve m vf stage2 v => Sys2Proof.Machine.execFqResolve m vf stage2 v s
  | .fqResolveFatal m vf stage2 v => Sys2Proof.Machine.execFqResolveFatal m vf stage2 v s
  | .ttqMove m die c => Sys2Proof.Machine.execTtqMove m die c s
  | .ttqDemote m die c => Sys2Proof.Machine.execTtqDemote m die c s
  | .ttqPromote m die c => Sys2Proof.Machine.execTtqPromote m die c s
  | .ttqCommandComplete die => Sys2Proof.Machine.execTtqCommandComplete die s
  | .blockHandlerEntry u => Sys2Proof.Machine.execBlockHandlerEntry u s
  | .contextTrap i0 => Sys2Proof.Machine.execContextTrap i0 s
  | .partitionTrap i0 => Sys2Proof.Machine.execPartitionTrap i0 s
  | .deviceTrap i0 => Sys2Proof.Machine.execDeviceTrap i0 s
  | .handlertimeout h => Sys2Proof.Machine.execHandlertimeout h s
  | .deviceRungTimeout i0 => Sys2Proof.Machine.execDeviceRungTimeout i0 s
  | .pmtPreempt m p v => Sys2Proof.Machine.execPmtPreempt m p v s
  | .pmtResume m p v => Sys2Proof.Machine.execPmtResume m p v s
  | .preemptClassAck p cls => Sys2Proof.Machine.execPreemptClassAck p cls s
  | .unitFence k n => Sys2Proof.Machine.execUnitFence k n s
  | .devSemRead m => Sys2Proof.Machine.execDevSemRead m s
  | .devSemWrite m v => Sys2Proof.Machine.execDevSemWrite m v s
  | .devCtlFwu m v => Sys2Proof.Machine.execDevCtlFwu m v s
  | .devCtlRst m v => Sys2Proof.Machine.execDevCtlRst m v s
  | .bootVerify firmwareOk hypervisorOk badParts => Sys2Proof.Machine.execBootVerify firmwareOk hypervisorOk badParts s
  | .hostLinkReset port => Sys2Proof.Machine.execHostLinkReset port s
  | .partTblWrite m q v => Sys2Proof.Machine.execPartTblWrite m q v s
  | .quarterWipeDone q => Sys2Proof.Machine.execQuarterWipeDone q s
  | .hostBar2Read vf off n => Sys2Proof.Machine.execHostBar2Read vf off n s
  | .hostBar2Write vf off bytes => Sys2Proof.Machine.execHostBar2Write vf off bytes s
  | .nvIntWrite vf v => Sys2Proof.Machine.execNvIntWrite vf v s
  | .cqBaseWrite m vf v => Sys2Proof.Machine.execCqBaseWrite m vf v s
  | .cqKick m vf v => Sys2Proof.Machine.execCqKick m vf v s
  | .cqStampReread vf => Sys2Proof.Machine.execCqStampReread vf s
  | .cqNop vf => Sys2Proof.Machine.execCqNop vf s
  | .cqLaunch vf => Sys2Proof.Machine.execCqLaunch vf s
  | .cqWait vf => Sys2Proof.Machine.execCqWait vf s
  | .cqWaitSatisfied vf => Sys2Proof.Machine.execCqWaitSatisfied vf s
  | .cqSignal vf => Sys2Proof.Machine.execCqSignal vf s
  | .cqSignalWrite vf => Sys2Proof.Machine.execCqSignalWrite vf s
  | .sqPoolWrite m die v => Sys2Proof.Machine.execSqPoolWrite m die v s
  | .powerCapStep lower => Sys2Proof.Machine.execPowerCapStep lower s
  | .registerWrite m pa v => Sys2Proof.Machine.execRegisterWrite m pa v s
  | .flitReceive die port seq crcOk => Sys2Proof.Machine.execFlitReceive die port seq crcOk s
  | .flitReplay die port seq => Sys2Proof.Machine.execFlitReplay die port seq s
  | .portRetrain die port => Sys2Proof.Machine.execPortRetrain die port s
  | .portTrained die port lanes => Sys2Proof.Machine.execPortTrained die port lanes s
  | .portDownTimeout die port => Sys2Proof.Machine.execPortDownTimeout die port s
  | .remoteRequest r => Sys2Proof.Machine.execRemoteRequest r s
  | .endpointLost part eid => Sys2Proof.Machine.execEndpointLost part eid s
  | .firmwareAcknowledge i0 => Sys2Proof.Machine.execFirmwareAcknowledge i0 s
  | .contextDestroy vf ctx => Sys2Proof.Machine.execContextDestroy vf ctx s
  | .lifeCycleChange v => Sys2Proof.Machine.execLifeCycleChange v s
  | .attestationRequest m nonce => Sys2Proof.Machine.execAttestationRequest m nonce s
  | .sysTret => Sys2Proof.Machine.execSysTret s
  | .sysExit => Sys2Proof.Machine.execSysExit s
  | .sysDabort => Sys2Proof.Machine.execSysDabort s
  | .hret => Sys2Proof.Machine.execHret s
  | .mfence => Sys2Proof.Machine.execMfence s
  | .hnop => Sys2Proof.Machine.execHnop s
  | .hhalt => Sys2Proof.Machine.execHhalt s
  | .coldReset => Sys2Proof.Machine.execColdReset s
  | .wordNotAnInstruction => Sys2Proof.Machine.execWordNotAnInstruction s
  | .helmReservedMajor => Sys2Proof.Machine.execHelmReservedMajor s

end Sys2Proof.Machine
end

