-- ==== Sys2Proof/Machine/Outside.lean ====
section
/-!
DEFINITION. Sys2Proof/Machine/Outside.lean: the control registers as a master reads them (R8, R380-R383), by a host port or a system
core, and the sequences of a VF that migrates between chips (R307, R393).
-/
namespace Sys2Proof.Machine

/-! ## Control registers (R380) -/

/-- Half i of a 64-bit register. -/
def half (v : BitVec 64) (i : Nat) : Word := toW (v.toNat / 4294967296 ^ i)

/-- FQ_PTR, PTR_PTR (R322). -/
def FQ.ptrWord (q : FQ) : Word := toW (q.head + q.tail * 65536)

/-- A word of the device block (R380-R382, R389, R391); DEV_CTL is write-only. -/
def State.devWord (s : State) (o : Nat) : Word :=
  let d := s.dev
  if o = 0 then s.semWord
  else if 0x100 ≤ o && o < 0x180 then d.partTbl.getD ((o - 0x100) / 4) 0#32
  else if o = 0x200 then toW ((if d.bootDone then 2147483648 else 0) + d.bootBad)
  else if o = 0x208 then toW (d.clk * 256 + if d.cap then 1 else 0)
  else 0#32

/-- A word of a partition's block (R175, R370, R380, R385, R401); PMT_CTL is write-only. -/
def PartSt.word (x : PartSt) (o : Nat) : Word :=
  if o = 0 then x.starve
  else if o = 0xC then toW ((if x.busy then 2147483648 else 0) + (if x.err then 1073741824 else 0) + x.ack.toNat)
  else if o = 0x18 then half x.tq.base 0
  else if o = 0x1C then half x.tq.base 1
  else if o = 0x20 then x.tq.ptrWord
  else if o = 0x28 then x.intp
  else if o = 0x30 then x.eid
  else 0#32

/-- CQ_STAT: ks, rf and the head, packets executed modulo 2,048 (R386). -/
def VfSt.cqStat (f : VfSt) : Word :=
  toW ((if f.ks then 2147483648 else 0) + (if f.rf then 1073741824 else 0) + f.done.toNat % 2048)

/-- A word of a VF's block (R309, R322, R330, R380, R385, R386, R392); FQ_RESOLVE, CQ_KICK and NV_INT are write-only. -/
def VfSt.word (f : VfSt) (o : Nat) : Word :=
  match o with
  | 0x00 => half f.s2 0
  | 0x04 => half f.s2 1
  | 0x08 => f.pol
  | 0x10 => half f.gq.base 0
  | 0x14 => half f.gq.base 1
  | 0x18 => f.gq.ptrWord
  | 0x20 => half f.pq.base 0
  | 0x24 => half f.pq.base 1
  | 0x28 => f.pq.ptrWord
  | 0x40 => half f.cqBase 0
  | 0x44 => half f.cqBase 1
  | 0x4C => f.cqStat
  | 0x50 => half f.dlog 0
  | 0x54 => half f.dlog 1
  | 0x58 => f.done
  | 0x60 => half f.ctxTbl 0
  | 0x64 => half f.ctxTbl 1
  | _ => 0#32

/-- Word w of FENCE_CORE of a die: bit c marks core 32 w + c (R377). -/
def State.fenceWord (s : State) (die w : Nat) : Word :=
  toW ((List.range 32).foldl (fun m c => if (s.core (384 * die + 32 * w + c)).fenced then m + 2 ^ c else m) 0)

/-- Word p of FAB_PORT of a die (R400). -/
def Port.word (x : Port) : Word := toW (x.st * 1073741824 + x.rty)

/-- A word of a die's block (R319, R325, R377, R380, R400, R412), read by a system core or another master; TTQ_CMD and TLB_INV are
write-only. -/
def State.dieWord (s : State) (who : Option Nat) (die o : Nat) : Word :=
  if o = 0x20 then (s.die die).ttqDone
  else if o = 0x30 then (if who.any s.tlbBusy then 1#32 else 0#32)
  else if 0x40 ≤ o && o < 0x70 then s.fenceWord die ((o - 0x40) / 4)
  else if 0x80 ≤ o && o < 0xB0 then (s.port die ((o - 0x80) / 4)).word
  else if o = 0xC0 then toW (s.die die).pool
  else 0#32

/-- The word at an offset of the control registers (R380): reserved and write-only fields read 0 (R8). -/
def State.regWord (s : State) (who : Option Nat) (o : Nat) : Word :=
  if o < 0x10000 then s.devWord o
  else if 0x1000000 ≤ o && o < 0x1200000 then (s.part ((o - 0x1000000) / 65536)).word (o % 65536)
  else if 0x2000000 ≤ o && o < 0x2400000 then (s.vf ((o - 0x2000000) / 65536)).word (o % 65536)
  else if 0x3000000 ≤ o && o < 0x3080000 then s.dieWord who ((o - 0x3000000) / 65536) (o % 65536)
  else 0#32

/-- A register of 4 or 8 bytes. -/
def State.regValue (s : State) (who : Option Nat) (o n : Nat) : BitVec 64 :=
  BitVec.ofNat 64 ((s.regWord who o).toNat + if n = 8 then (s.regWord who (o + 4)).toNat * 4294967296 else 0)

/-- What a read of a register does to it: DEV_SEM is a test-and-set for a host port or firmware (R381). -/
def State.regSeen (s : State) (m : Master) (o : Nat) : State :=
  match semNum m with
  | some n => if o = 0 && !s.dev.semHeld then { s with dev := { s.dev with semHeld := true, semOwn := n } } else s
  | none => s

/-- A register read by a host port (R383): through the PF any register, through an enabled VF a register of its own block. -/
def State.hostReg (s : State) (m : Master) (off n : Nat) : State :=
  match m with
  | .host p =>
    if 2 ≤ p || 0x4000000 ≤ off then s
    else (s.tell (.regRead m (0x20000000000 + off) (s.regValue none off n))).regSeen m off
  | .hostVf _ v =>
    let o := 0x2000000 + v * 65536 + off
    if !s.hostOf m v || 65536 ≤ off then s else s.tell (.regRead m (0x20000000000 + o) (s.regValue none o n))
  | _ => s

/-- A register read by a system core into one of its own (R380). -/
def State.sysReg (s : State) (k rd pa n : Nat) : State :=
  let x := s.syscore k
  if 128 ≤ k || x.fenced || x.waitsReg (.reg rd pa n) || pa < 0x20000000000 || 0x20004000000 ≤ pa then s
  else
    let o := pa - 0x20000000000
    let t := s.setSys k (x.put rd (s.regValue (some k) o n))
    if x.mode = 0 then t.regSeen .firmware o else t

/-! ## Sequences of a VF that migrates (R307, R393) -/

/-- Whether every context of a VF stands still and no transfer of one is unfinished (R306, R307). -/
def State.sqQuiet (s : State) (vf : Nat) : Bool :=
  (s.ctxs.all fun c => c.1 / 65536 != vf || s.frozen c.1 4) && s.transfersOf (fun c => c.key / 65536 = vf) = []

/-- The sequences of a VF on a die, with their generations and page sets. -/
def State.seqImage (s : State) (vf die : Nat) : SeqImage :=
  let d := s.die die
  let q := d.seqs.filter fun p => p.2.key / 65536 = vf
  let used := q.flatMap fun p => p.2.sets
  ⟨die, q, q.map fun p => (p.1, d.gen p.1), d.sets.filter fun p => used.contains p.1⟩

/-- The sequences of a VF moved out as state pages: their slots and pages are free here (R294, R307). -/
def State.seqOut (s : State) (vf : Nat) : State :=
  if !s.sqQuiet vf then s
  else
    let l := (List.range 8).map (s.seqImage vf)
    let s := l.foldl (fun s i =>
      let d := s.die i.die
      if i.seqs = [] then s
      else (s.setDie i.die { d with
        seqs := d.seqs.filter fun p => p.2.key / 65536 != vf
        gens := i.gens.foldl (fun (g : Tbl Nat) p => g.set p.1 (if p.2 = 131071 then 1 else p.2 + 1)) d.gens }).freeSets i.die) s
    s.tell (.seqs l)

/-- A page set number moved up; set 0 is no page. -/
def moveSet (n k : Nat) : Nat := if k = 0 then 0 else n + k

/-- Sequences installed on a die under their handles (R307): their slots are free, and the pool holds their pages. -/
def State.seqsIn (s : State) (i : SeqImage) : State :=
  let d := s.die i.die
  let n := d.sets.fresh
  if 8 ≤ i.die || (i.seqs.any fun p => (d.seqs.find? p.1).isSome) || d.pool * 512 < d.pages + i.sets.foldl (fun m p => m + p.2.n) 0 then s
  else
    s.setDie i.die { d with
      seqs := i.seqs.foldl (fun (q : Tbl SqSeq) p => q.set p.1 { p.2 with layers := p.2.layers.map fun y =>
        { y with set := moveSet n y.set, ring := y.ring.map fun w => (w.1, moveSet n w.2) } }) d.seqs
      gens := i.gens.foldl (fun (g : Tbl Nat) p => g.set p.1 p.2) d.gens
      sets := i.sets.foldl (fun (t : Tbl PageSet) p => t.set (n + p.1) p.2) d.sets }

end Sys2Proof.Machine
end

