-- ==== Sys2Proof/Machine/Turns.lean ====
section
/-!
DEFINITION. Sys2Proof/Machine/Turns.lean: what a turn of the agenda does: the choice of the next word of a core (R159, R160), its
fetch and issue, a helm's next word (R243), cycles that pass, and a step of another agent; and how a word is placed where the
next step fetches it.
-/
namespace Sys2Proof.Machine
open Host (Outcome)

/-! ## A core (R159, R160) -/

/-- Whether a word holds the vector datapath: majors 0x01 to 0x3F and 0x50 to 0x52 (R31, R160). -/
def wordVec (w : Word) : Bool := (1 ≤ wMajor w && wMajor w ≤ 0x3F) || (0x50 ≤ wMajor w && wMajor w ≤ 0x52)

/-- The next issue unit of a group: how many glosses stand before its instruction, among n words, and whether that one needs the vector
datapath (R22, R26). -/
def State.unitAhead (s : State) (g : Nat) : Nat → Nat → Nat × Bool
  | 0, _ => (0, false)
  | n + 1, va =>
    match (s.fetch g va).2 with
    | .word w =>
      if isGloss w then
        let r := State.unitAhead s g n (nextPc va)
        (r.1 + 1, r.2)
      else (0, wordVec w)
    | .stop _ => (0, false)

/-- The effective level of a group (R159). -/
def Group.level (g : Group) : Nat := min 3 (g.prio + g.boost)

/-- The cycle from which the next word of a group may issue: with n glosses to come before the instruction, n cycles before the
instruction may by the stall rule (R22, R62) and, where it needs the vector datapath, by the beats of an earlier one (R31; log 114). -/
def Group.startAt (g : Group) (vbusy : Nat) (u : Nat × Bool) : Nat :=
  max (max g.entered (if u.1 = 0 then 0 else g.glossAt)) (max (g.nextIssue - u.1) (if u.2 then vbusy - u.1 else 0))

/-- The active groups of a core whose next word may issue in its current cycle: no answer of the state store and no beat is
outstanding. -/
def State.readyOn (s : State) (c : Nat) : List (Nat × Group) :=
  let k := s.core c
  (s.actives c).filter fun p => p.2.startAt k.vbusy (s.unitAhead p.1 7 p.2.pc) ≤ k.cycle && p.2.sqReq.isNone &&
    p.2.ops.all fun o => o.todo = []

/-- Whether group p goes before q: inside an issue unit, by level, by the time it has been ready (R159). -/
def firstOf (p q : Nat × Group) : Bool :=
  if p.2.midUnit != q.2.midUnit then p.2.midUnit
  else if p.2.level != q.2.level then decide (q.2.level < p.2.level)
  else decide (p.2.readySince ≤ q.2.readySince)

/-- A list with the entries that rank with its first one rotated by a free value: the spec does not rank them. -/
def rotateTies (i : Nat) : List (Nat × Group) → List (Nat × Group)
  | p :: q :: t =>
    let l := p :: q :: t
    let ties := l.filter fun x => firstOf x p
    let rest := l.filter fun x => !firstOf x p
    match ties with
    | [_] => l
    | _ =>
      let k := (Config.freeWord i).toNat % ties.length
      ties.drop k ++ ties.take k ++ rest
  | l => l

/-- One word of a group: a trap that waits for its issue boundary, else the word at its PC fetched and issued (R69, R139, R282). -/
def State.wordTurn (s : State) (gid : Nat) : Out State :=
  let g := s.grp gid
  match g.trapPend with
  | some t => .next ((s.setGrp gid { g with trapPend := none }).raise gid t.rung { t with pc := g.firstPc })
  | none =>
    match s.fetch gid g.pc with
    | (s, .word w) => exec (groupInstr w) { s with cur := gid, iw := w }
    | (s, .stop st) =>
      let s := { s with cur := gid }
      s.stopAt (s.ixOf false) 0 false st

/-- Groups tried in turn until one moves; the flag says whether one has. A group that a fence holds, or that waits for a miss
entry or an engine, does not move. -/
def State.tryGroups (c : Nat) : List Nat → State → Out (State × Bool)
  | [], s => .next (s, false)
  | g :: gs, s =>
    match s.wordTurn g with
    | .next t => if (t.core c).cycle = (s.core c).cycle && t.grp g = s.grp g then State.tryGroups c gs t else .next (t, true)
    | .fault f => .fault f
    | .refused r => .refused r

/-- The next word of a core. -/
def State.coreTry (s : State) (c : Nat) : Out (State × Bool) :=
  State.tryGroups c ((rotateTies (s.free * 65536 + 65524) (sortBy firstOf (s.readyOn c))).map (·.1)) s

/-- A core's turn. -/
def State.coreTurn (s : State) (c : Nat) : Out State :=
  match s.coreTry c with
  | .next r => .next r.1
  | .fault f => .fault f
  | .refused r => .refused r

/-- Cycles until the first of some later cycles, at most n, at least one. -/
def untilNext (now n : Nat) (l : List Nat) : Nat := max 1 ((l.filter (now < ·)).foldl (fun m t => min m (t - now)) n)

/-- Up to n cycles pass on a core where no word can issue: no further than the cycle in which one may. -/
def State.idleTurn (s : State) (c n : Nat) : Out State :=
  match s.coreTry c with
  | .next (_, true) => .next s
  | .next (_, false) =>
    let k := s.core c
    .next (s.setCore c { k with cycle := k.cycle + untilNext k.cycle n ((s.actives c).map fun p => p.2.startAt k.vbusy (s.unitAhead p.1 7 p.2.pc)) })
  | .fault f => .fault f
  | .refused r => .refused r

/-! ## A helm (R243) -/

/-- A helm's turn: the word at its PC; past the control store a word of 0 (R249). -/
def State.helmTurn (s : State) (cl : Nat) : Out State :=
  match (s.cluster cl).serve with
  | none => .next s
  | some key =>
    let h := s.helm key cl
    match h.run with
    | .halted | .waiting (.keys _) => .next s
    | _ =>
      let w := if h.pc < 4096 then h.store.getD h.pc 0#32 else 0#32
      exec (helmInstr w) { s with curCl := cl, iw := w }

/-- Up to n cycles pass on a helm that does not run a word. -/
def State.helmIdle (s : State) (cl n : Nat) : State :=
  let c := s.cluster cl
  let running : Bool := match c.serve with
    | some key => decide ((s.helm key cl).run = .running)
    | none => false
  if running then s else s.setCluster cl { c with hcycle := c.hcycle + max n 1 }

/-! ## Any turn -/

/-- Whether a constructor is a step of another agent, not a word. -/
def Instr.isStep (i : Instr) : Bool := (encode i).isNone && i != .wordNotAnInstruction && i != .helmReservedMajor

/-- Whether a step takes place though firmware has halted the package (R389). -/
def Instr.afterHalt (i : Instr) : Bool := i = .coldReset || match i with
  | .lifeCycleChange _ => true
  | _ => false

/-- The master that writes a register, where a step is such a write. -/
def Instr.writer (i : Instr) : Option Master :=
  match i with
  | .tlbInv m _ _ | .fqBaseWrite m _ _ | .fqPtrHeadWrite m _ _ | .fqResolve m _ _ _ | .fqResolveFatal m _ _ _ | .ttqMove m _ _
  | .ttqDemote m _ _ | .ttqPromote m _ _ | .pmtPreempt m _ _ | .pmtResume m _ _ | .devSemRead m | .devSemWrite m _ | .devCtlFwu m _
  | .devCtlRst m _ | .partTblWrite m _ _ | .sqPoolWrite m _ _ | .registerWrite m _ _ => some m
  | _ => none

/-- One turn. -/
def State.turn (s : State) (t : Turn) : Out State :=
  if s.dev.halted && (match t with
    | .event i => !Instr.afterHalt i
    | .idle _ _ | .helmIdle _ _ | .sysTime _ _ => false
    | _ => true) then .next s
  else
  match t with
  | .event i => if Instr.isStep i then exec i s else .next s
  | .sysEvent k i => if (Instr.writer i).any (s.actsAs k) then exec i { s with curSys := k } else .next s
  | .core c => s.coreTurn c
  | .helm cl => s.helmTurn cl
  | .tile cl => .next (s.matrixStep cl)
  | .idle c n => s.idleTurn c n
  | .helmIdle cl n => .next (s.helmIdle cl n)
  | .sys k (.reg rd pa n) => .next (s.sysReg k rd pa n)
  | .sys k o => .next (s.sysDo k o)
  | .sysTime d n => .next (s.setDie d { s.die d with sclk := (s.die d).sclk + n })
  | .read m off n => .next (s.hostReg m off n)
  | .seqOut vf => .next (s.seqOut vf)
  | .seqIn l => .next (l.foldl (fun s i => s.seqsIn i) s)
  | .flitSend die port => .next (s.flitSend die port)
  | .flitAck die port seq => .next (s.flitAck die port seq)

/-- After a turn: parked groups whose condition holds wake (R167), units at rest are no longer coming to it (R145), entries set aside that active groups have taken are given back
(R176), the records raised at the context rung find their rung (R355), and the free values of the next turn are others. -/
def State.endTurn (s : State) : State := s.settle.endRest.trimAside.placeRecs.tick

/-- The next turn of the agenda, and what follows each turn. -/
def State.advance (s : State) : Out State :=
  match s.agenda with
  | [] => .next s.endTurn
  | t :: ts =>
    match ({ s with agenda := ts } : State).turn t with
    | .next s => .next s.endTurn
    | .fault f => .fault f
    | .refused r => .refused r

/-! ## Placing a word (DESIGN CHOICE, log 45) -/

/-- The address at which a word is placed. -/
def probeAt : Nat := 0x10000000

/-- A core of which no group is a resident. -/
def State.probeCore (s : State) : Nat := s.groups.foldl (fun m p => max m (p.2.core + 1)) 0

/-- A group about to fetch its first word, alone on a core, and the code page's translation in its cluster's TLB. -/
def State.placeGroup (s : State) (w : Word) : State :=
  let c := s.probeCore
  let k := s.works.fresh
  let u := s.units.fresh
  let g := s.groups.fresh
  let b := wordBytes w
  let x := { Group.blank.restart 2 false with unit := u, core := c, pc := probeAt, entry := probeAt, st := .active,
                                              nextIssue := 0, win := 0x20000000, plim := 64, dspill := 16 }
  let s : State := { s with
    works := s.works.set k { Work.blank with phase := .accepted, next := 1, live := 1 }
    units := s.units.set u { UnitSt.blank with work := k, cores := [c] }
    groups := s.groups.set g x
    cores := s.cores.del c
    tlb := (s.tlb.filter fun e => e.cl != coreCl c) ++ [⟨coreCl c, 0, 0, probeAt / 4096, 1, probeAt / 4096, probeAt / 4096, true, true, true, true⟩]
    utlb := s.utlb.filter fun e => e.cl != c
    invs := []
    l1 := s.l1.filter fun l => l.line != probeAt / 128
    mem := s.mem.store probeAt b
    dev := { s.dev with halted := false } }
  { s with ctxs := s.ctxs.set 0 { s.ctx 0 with preempted := false, held := false, stops := 0 }, agenda := [.core c] }

/-- A helm of context 0 about to run its word 0. -/
def State.placeHelm (s : State) (w : Word) : State :=
  let c := s.cluster 0
  { (s.setCluster 0 { c with serve := some 0 }).setHelm 0 0 { HelmSt.init with run := .running, store := [(0, w)] } with
    ctxs := s.ctxs.set 0 { s.ctx 0 with preempted := false, held := false, stops := 0 }
    dev := { s.dev with halted := false }
    agenda := [.helm 0] }

/-- Whether a word is read as a helm's: no group word, but a helm word. -/
def onlyHelm (w : Word) : Bool :=
  match decodeGroup w, decodeHelm w with
  | .error _, .ok _ => true
  | _, _ => false

/-- A word placed where the next step fetches it. -/
def State.placeWord (s : State) (w : Word) : State := if onlyHelm w then s.placeHelm w else s.placeGroup w

end Sys2Proof.Machine
end

