-- ==== Sys2Proof/Machine/Step.lean ====
section
/-!
DEFINITION. Sys2Proof/Machine/Step.lean: one step of the machine, and the placing of an instruction for the next step.
-/
namespace Sys2Proof.Machine

/-- One step: the next turn of the agenda (DESIGN CHOICE, log 1). -/
def step (s : State) : Host.Outcome State Fault Refusal := s.advance

/-- The state in which the next step fetches and runs an instruction of nbits bits w (DESIGN CHOICE, log 45). -/
def State.withFetchWord (s : State) (_nbits w : Nat) : State := s.placeWord (BitVec.ofNat 32 w)

end Sys2Proof.Machine
end

