-- ==== Sys2Proof/Laws/Bits.lean ====
section
/-!
SUPPORT. Sys2Proof/Laws/Bits.lean: fields read from words built of fields: what the encoder places, the decoder reads.
-/
namespace Sys2Proof

/-- A field read from a union of words is the union of the fields read. -/
theorem fld_or (x y : BitVec 32) (lo n : Nat) : fld (x ||| y) lo n = fld x lo n ||| fld y lo n := by
  unfold fld
  ext i hi
  simp [BitVec.getElem_extractLsb']

/-- A field placed is read back. -/
theorem fld_place_same (n lo : Nat) (x : BitVec n) (h : lo + n ≤ 32) : fld (place n lo x) lo n = x := by
  unfold fld place
  ext i hi
  simp only [BitVec.getElem_extractLsb', BitVec.getLsbD_shiftLeft, BitVec.getLsbD_setWidth]
  have h1 : lo + i < 32 := by omega
  have h2 : ¬ lo + i < lo := by omega
  have h3 : lo + i - lo = i := by omega
  have h4 : i < 32 := by omega
  simp [h1, h3, h4, BitVec.getLsbD_eq_getElem hi]

/-- A field placed elsewhere reads as zero. -/
theorem fld_place_disj (n lo m k : Nat) (x : BitVec m) (h : lo + n ≤ k ∨ k + m ≤ lo) : fld (place m k x) lo n = 0#n := by
  unfold fld place
  ext i hi
  simp only [BitVec.getElem_extractLsb', BitVec.getLsbD_shiftLeft, BitVec.getLsbD_setWidth, BitVec.getElem_zero]
  rcases h with h | h
  · have : lo + i < k := by omega
    simp [this]
  · have : m ≤ lo + i - k := by omega
    simp [BitVec.getLsbD_of_ge x _ this]

/-- Whether a mask has no bit in a field. -/
def clearOf (n lo : Nat) (m : BitVec 32) : Bool := place n lo (BitVec.allOnes n) &&& m = 0#32

/-- A placed field is not seen through a mask without its bits. -/
theorem place_and_clear (n lo : Nat) (x : BitVec n) (m : BitVec 32) (h : clearOf n lo m = true) : place n lo x &&& m = 0#32 := by
  have h := of_decide_eq_true h
  unfold place at *
  apply BitVec.eq_of_getLsbD_eq
  intro i hi
  have hb := congrArg (fun w => w.getLsbD i) h
  simp only [BitVec.getLsbD_and, BitVec.getLsbD_shiftLeft, BitVec.getLsbD_setWidth, BitVec.getLsbD_allOnes, BitVec.getLsbD_zero] at hb ⊢
  by_cases hx : i - lo < n
  · simp only [hx, decide_true, Bool.and_true] at hb
    cases hm : m.getLsbD i
    · simp
    · rw [hm, Bool.and_true] at hb
      rw [← Bool.and_assoc, hb]
      simp
  · rw [BitVec.getLsbD_of_ge x (i - lo) (by omega)]
    simp

/-- Masks distribute over a union. -/
theorem or_and (x y m : BitVec 32) : (x ||| y) &&& m = (x &&& m) ||| (y &&& m) := by
  ext i hi
  simp [Bool.and_or_distrib_right]

/-- A word of an ordinary major is decoded from the tables. -/
theorem decodeGroup_major (w : BitVec 32) (k : BitVec 7) (h : fld w 25 7 = k) (h0 : k ≠ 0#7) (h1 : k ≠ 0x7F#7) (h2 : k ≠ 0x7D#7) :
    decodeGroup w = decodeDefined w := by
  have a : w ≠ 0#32 := by
    rintro rfl
    exact h0 (by rw [← h]; decide)
  have b : w ≠ 0xFFFFFFFF#32 := by
    rintro rfl
    exact h1 (by rw [← h]; decide)
  have c : w &&& 0xFF000000#32 ≠ 0xFB000000#32 := by
    intro e
    apply h2
    rw [← h]
    have := congrArg (fun v => fld v 25 7) e
    have e1 : fld (w &&& 0xFF000000#32) 25 7 = fld w 25 7 := by
      unfold fld
      ext i hi
      simp only [BitVec.getElem_extractLsb', BitVec.getLsbD_and]
      have : i = 0 ∨ i = 1 ∨ i = 2 ∨ i = 3 ∨ i = 4 ∨ i = 5 ∨ i = 6 := by omega
      rcases this with rfl | rfl | rfl | rfl | rfl | rfl | rfl <;> simp
    simp only [e1] at this
    rw [this]
    decide
  unfold decodeGroup
  rw [if_neg a, if_neg b, if_neg c]

end Sys2Proof
end

