-- ==== Sys2Proof/Laws/PerInstr.lean ====
section
/-!
SUPPORT. Sys2Proof/Laws/PerInstr.lean: the round trip of every instruction's word, one lemma per constructor: decoding
the word the encoder writes gives the instruction back, with every operand at every value its field admits.
-/
namespace Sys2Proof

/-- A word with the match bits of one row is not a word of a row whose match bits differ where both look. -/
theorem not_arm {w own c M V : BitVec 32} (m : w &&& own = c) (d : V &&& own ≠ c &&& M) : w &&& M ≠ V := by
  rintro rfl
  exact d (by rw [← m, BitVec.and_assoc, BitVec.and_assoc, BitVec.and_comm own M])

/-- The major of a word with the match bits of a row. -/
theorem major_of_own {w own c : BitVec 32} (k : BitVec 7) (m : w &&& own = c) (ho : own ||| 0x01FFFFFF#32 = 0xFFFFFFFF#32)
    (hk : fld c 25 7 = k) : fld w 25 7 = k := by
  rw [← hk, ← m]
  unfold fld
  ext i hi
  have b := congrArg (fun v => v.getLsbD (25 + i)) ho
  simp only [BitVec.getLsbD_or] at b
  simp only [BitVec.getElem_extractLsb', BitVec.getLsbD_and]
  have : i = 0 ∨ i = 1 ∨ i = 2 ∨ i = 3 ∨ i = 4 ∨ i = 5 ∨ i = 6 := by omega
  rcases this with rfl | rfl | rfl | rfl | rfl | rfl | rfl <;> simp_all

/-- The opcode of a helm word with the match bits of a row. -/
theorem op_of_own {w own c : BitVec 32} (k : BitVec 5) (m : w &&& own = c) (ho : own ||| 0x07FFFFFF#32 = 0xFFFFFFFF#32)
    (hk : fld c 27 5 = k) : fld w 27 5 = k := by
  rw [← hk, ← m]
  unfold fld
  ext i hi
  have b := congrArg (fun v => v.getLsbD (27 + i)) ho
  simp only [BitVec.getLsbD_or] at b
  simp only [BitVec.getElem_extractLsb', BitVec.getLsbD_and]
  have : i = 0 ∨ i = 1 ∨ i = 2 ∨ i = 3 ∨ i = 4 := by omega
  rcases this with rfl | rfl | rfl | rfl | rfl <;> simp_all

/-- A group word with the match bits of a row is read from the tables. -/
theorem decodeGroup_own {w own c : BitVec 32} (m : w &&& own = c) (d0 : 0#32 ≠ c) (d1 : own ≠ c)
    (d2 : 0xFB000000#32 &&& own ≠ c &&& 0xFF000000#32) : decodeGroup w = decodeDefined w := by
  unfold decodeGroup
  rw [if_neg, if_neg, if_neg (not_arm m d2)]
  · rintro rfl
    exact d1 (by rw [← m]; exact BitVec.allOnes_and.symm)
  · rintro rfl
    exact d0 (by rw [← m]; exact BitVec.zero_and.symm)

/-- The fields of format FR are not seen through a mask without their bits. -/
theorem FR.enc_and (o : FR) (c m : BitVec 32) (h : (clearOf 6 19 m && clearOf 7 12 m && clearOf 7 5 m && clearOf 1 4 m && clearOf 1 3 m && clearOf 3 0 m) = true) (hc : c &&& m = c) : (c ||| o.enc) &&& m = c := by
  simp only [Bool.and_eq_true, and_assoc] at h
  obtain ⟨h0, h1, h2, h3, h4, h5⟩ := h
  simp only [FR.enc, or_and, hc, place_and_clear _ _ _ _ h0, place_and_clear _ _ _ _ h1, place_and_clear _ _ _ _ h2, place_and_clear _ _ _ _ h3, place_and_clear _ _ _ _ h4, place_and_clear _ _ _ _ h5, BitVec.or_zero]

/-- The fields of format FR are read back from the word they are placed in. -/
theorem FR.dec_enc (o : FR) (c : BitVec 32) (h : FR.dec c = FR.dec 0#32) : FR.dec (c ||| o.enc) = o := by
  simp only [FR.dec, FR.mk.injEq] at h
  cases o
  simp (decide := true) only [FR.dec, FR.enc, fld_or, h, fld_place_disj, fld_place_same, BitVec.or_zero, BitVec.zero_or, show ∀ lo n, fld 0#32 lo n = 0#n from fun lo n => by simp [fld]]

/-- The fields of format FC are not seen through a mask without their bits. -/
theorem FC.enc_and (o : FC) (c m : BitVec 32) (h : (clearOf 3 22 m && clearOf 3 19 m && clearOf 7 12 m && clearOf 7 5 m && clearOf 1 4 m && clearOf 1 3 m && clearOf 3 0 m) = true) (hc : c &&& m = c) : (c ||| o.enc) &&& m = c := by
  simp only [Bool.and_eq_true, and_assoc] at h
  obtain ⟨h0, h1, h2, h3, h4, h5, h6⟩ := h
  simp only [FC.enc, or_and, hc, place_and_clear _ _ _ _ h0, place_and_clear _ _ _ _ h1, place_and_clear _ _ _ _ h2, place_and_clear _ _ _ _ h3, place_and_clear _ _ _ _ h4, place_and_clear _ _ _ _ h5, place_and_clear _ _ _ _ h6, BitVec.or_zero]

/-- The fields of format FC are read back from the word they are placed in. -/
theorem FC.dec_enc (o : FC) (c : BitVec 32) (h : FC.dec c = FC.dec 0#32) : FC.dec (c ||| o.enc) = o := by
  simp only [FC.dec, FC.mk.injEq] at h
  cases o
  simp (decide := true) only [FC.dec, FC.enc, fld_or, h, fld_place_disj, fld_place_same, BitVec.or_zero, BitVec.zero_or, show ∀ lo n, fld 0#32 lo n = 0#n from fun lo n => by simp [fld]]

/-- The fields of format FUm are not seen through a mask without their bits. -/
theorem FUm.enc_and (o : FUm) (c m : BitVec 32) (h : (clearOf 6 19 m && clearOf 7 12 m && clearOf 2 5 m && clearOf 1 4 m && clearOf 3 0 m) = true) (hc : c &&& m = c) : (c ||| o.enc) &&& m = c := by
  simp only [Bool.and_eq_true, and_assoc] at h
  obtain ⟨h0, h1, h2, h3, h4⟩ := h
  simp only [FUm.enc, or_and, hc, place_and_clear _ _ _ _ h0, place_and_clear _ _ _ _ h1, place_and_clear _ _ _ _ h2, place_and_clear _ _ _ _ h3, place_and_clear _ _ _ _ h4, BitVec.or_zero]

/-- The fields of format FUm are read back from the word they are placed in. -/
theorem FUm.dec_enc (o : FUm) (c : BitVec 32) (h : FUm.dec c = FUm.dec 0#32) : FUm.dec (c ||| o.enc) = o := by
  simp only [FUm.dec, FUm.mk.injEq] at h
  cases o
  simp (decide := true) only [FUm.dec, FUm.enc, fld_or, h, fld_place_disj, fld_place_same, BitVec.or_zero, BitVec.zero_or, show ∀ lo n, fld 0#32 lo n = 0#n from fun lo n => by simp [fld]]

/-- The fields of format FU are not seen through a mask without their bits. -/
theorem FU.enc_and (o : FU) (c m : BitVec 32) (h : (clearOf 6 19 m && clearOf 7 12 m && clearOf 1 4 m && clearOf 3 0 m) = true) (hc : c &&& m = c) : (c ||| o.enc) &&& m = c := by
  simp only [Bool.and_eq_true, and_assoc] at h
  obtain ⟨h0, h1, h2, h3⟩ := h
  simp only [FU.enc, or_and, hc, place_and_clear _ _ _ _ h0, place_and_clear _ _ _ _ h1, place_and_clear _ _ _ _ h2, place_and_clear _ _ _ _ h3, BitVec.or_zero]

/-- The fields of format FU are read back from the word they are placed in. -/
theorem FU.dec_enc (o : FU) (c : BitVec 32) (h : FU.dec c = FU.dec 0#32) : FU.dec (c ||| o.enc) = o := by
  simp only [FU.dec, FU.mk.injEq] at h
  cases o
  simp (decide := true) only [FU.dec, FU.enc, fld_or, h, fld_place_disj, fld_place_same, BitVec.or_zero, BitVec.zero_or, show ∀ lo n, fld 0#32 lo n = 0#n from fun lo n => by simp [fld]]

/-- The fields of format FUrb are not seen through a mask without their bits. -/
theorem FUrb.enc_and (o : FUrb) (c m : BitVec 32) (h : (clearOf 6 19 m && clearOf 7 12 m && clearOf 1 10 m && clearOf 2 5 m && clearOf 1 4 m && clearOf 3 0 m) = true) (hc : c &&& m = c) : (c ||| o.enc) &&& m = c := by
  simp only [Bool.and_eq_true, and_assoc] at h
  obtain ⟨h0, h1, h2, h3, h4, h5⟩ := h
  simp only [FUrb.enc, or_and, hc, place_and_clear _ _ _ _ h0, place_and_clear _ _ _ _ h1, place_and_clear _ _ _ _ h2, place_and_clear _ _ _ _ h3, place_and_clear _ _ _ _ h4, place_and_clear _ _ _ _ h5, BitVec.or_zero]

/-- The fields of format FUrb are read back from the word they are placed in. -/
theorem FUrb.dec_enc (o : FUrb) (c : BitVec 32) (h : FUrb.dec c = FUrb.dec 0#32) : FUrb.dec (c ||| o.enc) = o := by
  simp only [FUrb.dec, FUrb.mk.injEq] at h
  cases o
  simp (decide := true) only [FUrb.dec, FUrb.enc, fld_or, h, fld_place_disj, fld_place_same, BitVec.or_zero, BitVec.zero_or, show ∀ lo n, fld 0#32 lo n = 0#n from fun lo n => by simp [fld]]

/-- The fields of format FUrn are not seen through a mask without their bits. -/
theorem FUrn.enc_and (o : FUrn) (c m : BitVec 32) (h : (clearOf 6 19 m && clearOf 7 12 m && clearOf 1 10 m && clearOf 3 5 m && clearOf 1 4 m && clearOf 3 0 m) = true) (hc : c &&& m = c) : (c ||| o.enc) &&& m = c := by
  simp only [Bool.and_eq_true, and_assoc] at h
  obtain ⟨h0, h1, h2, h3, h4, h5⟩ := h
  simp only [FUrn.enc, or_and, hc, place_and_clear _ _ _ _ h0, place_and_clear _ _ _ _ h1, place_and_clear _ _ _ _ h2, place_and_clear _ _ _ _ h3, place_and_clear _ _ _ _ h4, place_and_clear _ _ _ _ h5, BitVec.or_zero]

/-- The fields of format FUrn are read back from the word they are placed in. -/
theorem FUrn.dec_enc (o : FUrn) (c : BitVec 32) (h : FUrn.dec c = FUrn.dec 0#32) : FUrn.dec (c ||| o.enc) = o := by
  simp only [FUrn.dec, FUrn.mk.injEq] at h
  cases o
  simp (decide := true) only [FUrn.dec, FUrn.enc, fld_or, h, fld_place_disj, fld_place_same, BitVec.or_zero, BitVec.zero_or, show ∀ lo n, fld 0#32 lo n = 0#n from fun lo n => by simp [fld]]

/-- The fields of format FUb are not seen through a mask without their bits. -/
theorem FUb.enc_and (o : FUb) (c m : BitVec 32) (h : (clearOf 6 19 m && clearOf 7 12 m && clearOf 2 5 m && clearOf 1 4 m && clearOf 3 0 m) = true) (hc : c &&& m = c) : (c ||| o.enc) &&& m = c := by
  simp only [Bool.and_eq_true, and_assoc] at h
  obtain ⟨h0, h1, h2, h3, h4⟩ := h
  simp only [FUb.enc, or_and, hc, place_and_clear _ _ _ _ h0, place_and_clear _ _ _ _ h1, place_and_clear _ _ _ _ h2, place_and_clear _ _ _ _ h3, place_and_clear _ _ _ _ h4, BitVec.or_zero]

/-- The fields of format FUb are read back from the word they are placed in. -/
theorem FUb.dec_enc (o : FUb) (c : BitVec 32) (h : FUb.dec c = FUb.dec 0#32) : FUb.dec (c ||| o.enc) = o := by
  simp only [FUb.dec, FUb.mk.injEq] at h
  cases o
  simp (decide := true) only [FUb.dec, FUb.enc, fld_or, h, fld_place_disj, fld_place_same, BitVec.or_zero, BitVec.zero_or, show ∀ lo n, fld 0#32 lo n = 0#n from fun lo n => by simp [fld]]

/-- The fields of format FUn are not seen through a mask without their bits. -/
theorem FUn.enc_and (o : FUn) (c m : BitVec 32) (h : (clearOf 6 19 m && clearOf 7 12 m && clearOf 3 5 m && clearOf 1 4 m && clearOf 3 0 m) = true) (hc : c &&& m = c) : (c ||| o.enc) &&& m = c := by
  simp only [Bool.and_eq_true, and_assoc] at h
  obtain ⟨h0, h1, h2, h3, h4⟩ := h
  simp only [FUn.enc, or_and, hc, place_and_clear _ _ _ _ h0, place_and_clear _ _ _ _ h1, place_and_clear _ _ _ _ h2, place_and_clear _ _ _ _ h3, place_and_clear _ _ _ _ h4, BitVec.or_zero]

/-- The fields of format FUn are read back from the word they are placed in. -/
theorem FUn.dec_enc (o : FUn) (c : BitVec 32) (h : FUn.dec c = FUn.dec 0#32) : FUn.dec (c ||| o.enc) = o := by
  simp only [FUn.dec, FUn.mk.injEq] at h
  cases o
  simp (decide := true) only [FUn.dec, FUn.enc, fld_or, h, fld_place_disj, fld_place_same, BitVec.or_zero, BitVec.zero_or, show ∀ lo n, fld 0#32 lo n = 0#n from fun lo n => by simp [fld]]

/-- The fields of format FUx are not seen through a mask without their bits. -/
theorem FUx.enc_and (o : FUx) (c m : BitVec 32) (h : (clearOf 6 19 m && clearOf 7 12 m && clearOf 1 11 m && clearOf 1 4 m && clearOf 3 0 m) = true) (hc : c &&& m = c) : (c ||| o.enc) &&& m = c := by
  simp only [Bool.and_eq_true, and_assoc] at h
  obtain ⟨h0, h1, h2, h3, h4⟩ := h
  simp only [FUx.enc, or_and, hc, place_and_clear _ _ _ _ h0, place_and_clear _ _ _ _ h1, place_and_clear _ _ _ _ h2, place_and_clear _ _ _ _ h3, place_and_clear _ _ _ _ h4, BitVec.or_zero]

/-- The fields of format FUx are read back from the word they are placed in. -/
theorem FUx.dec_enc (o : FUx) (c : BitVec 32) (h : FUx.dec c = FUx.dec 0#32) : FUx.dec (c ||| o.enc) = o := by
  simp only [FUx.dec, FUx.mk.injEq] at h
  cases o
  simp (decide := true) only [FUx.dec, FUx.enc, fld_or, h, fld_place_disj, fld_place_same, BitVec.or_zero, BitVec.zero_or, show ∀ lo n, fld 0#32 lo n = 0#n from fun lo n => by simp [fld]]

/-- The fields of format FD are not seen through a mask without their bits. -/
theorem FD.enc_and (o : FD) (c m : BitVec 32) (h : (clearOf 6 19 m && clearOf 7 12 m && clearOf 3 0 m) = true) (hc : c &&& m = c) : (c ||| o.enc) &&& m = c := by
  simp only [Bool.and_eq_true, and_assoc] at h
  obtain ⟨h0, h1, h2⟩ := h
  simp only [FD.enc, or_and, hc, place_and_clear _ _ _ _ h0, place_and_clear _ _ _ _ h1, place_and_clear _ _ _ _ h2, BitVec.or_zero]

/-- The fields of format FD are read back from the word they are placed in. -/
theorem FD.dec_enc (o : FD) (c : BitVec 32) (h : FD.dec c = FD.dec 0#32) : FD.dec (c ||| o.enc) = o := by
  simp only [FD.dec, FD.mk.injEq] at h
  cases o
  simp (decide := true) only [FD.dec, FD.enc, fld_or, h, fld_place_disj, fld_place_same, BitVec.or_zero, BitVec.zero_or, show ∀ lo n, fld 0#32 lo n = 0#n from fun lo n => by simp [fld]]

/-- The fields of format FUq are not seen through a mask without their bits. -/
theorem FUq.enc_and (o : FUq) (c m : BitVec 32) (h : (clearOf 6 19 m && clearOf 7 12 m && clearOf 1 8 m && clearOf 1 4 m && clearOf 3 0 m) = true) (hc : c &&& m = c) : (c ||| o.enc) &&& m = c := by
  simp only [Bool.and_eq_true, and_assoc] at h
  obtain ⟨h0, h1, h2, h3, h4⟩ := h
  simp only [FUq.enc, or_and, hc, place_and_clear _ _ _ _ h0, place_and_clear _ _ _ _ h1, place_and_clear _ _ _ _ h2, place_and_clear _ _ _ _ h3, place_and_clear _ _ _ _ h4, BitVec.or_zero]

/-- The fields of format FUq are read back from the word they are placed in. -/
theorem FUq.dec_enc (o : FUq) (c : BitVec 32) (h : FUq.dec c = FUq.dec 0#32) : FUq.dec (c ||| o.enc) = o := by
  simp only [FUq.dec, FUq.mk.injEq] at h
  cases o
  simp (decide := true) only [FUq.dec, FUq.enc, fld_or, h, fld_place_disj, fld_place_same, BitVec.or_zero, BitVec.zero_or, show ∀ lo n, fld 0#32 lo n = 0#n from fun lo n => by simp [fld]]

/-- The fields of format FS are not seen through a mask without their bits. -/
theorem FS.enc_and (o : FS) (c m : BitVec 32) (h : (clearOf 6 19 m && clearOf 7 12 m && clearOf 7 5 m && clearOf 3 0 m) = true) (hc : c &&& m = c) : (c ||| o.enc) &&& m = c := by
  simp only [Bool.and_eq_true, and_assoc] at h
  obtain ⟨h0, h1, h2, h3⟩ := h
  simp only [FS.enc, or_and, hc, place_and_clear _ _ _ _ h0, place_and_clear _ _ _ _ h1, place_and_clear _ _ _ _ h2, place_and_clear _ _ _ _ h3, BitVec.or_zero]

/-- The fields of format FS are read back from the word they are placed in. -/
theorem FS.dec_enc (o : FS) (c : BitVec 32) (h : FS.dec c = FS.dec 0#32) : FS.dec (c ||| o.enc) = o := by
  simp only [FS.dec, FS.mk.injEq] at h
  cases o
  simp (decide := true) only [FS.dec, FS.enc, fld_or, h, fld_place_disj, fld_place_same, BitVec.or_zero, BitVec.zero_or, show ∀ lo n, fld 0#32 lo n = 0#n from fun lo n => by simp [fld]]

/-- The fields of format FI are not seen through a mask without their bits. -/
theorem FI.enc_and (o : FI) (c m : BitVec 32) (h : (clearOf 6 19 m && clearOf 7 12 m && clearOf 9 3 m && clearOf 3 0 m) = true) (hc : c &&& m = c) : (c ||| o.enc) &&& m = c := by
  simp only [Bool.and_eq_true, and_assoc] at h
  obtain ⟨h0, h1, h2, h3⟩ := h
  simp only [FI.enc, or_and, hc, place_and_clear _ _ _ _ h0, place_and_clear _ _ _ _ h1, place_and_clear _ _ _ _ h2, place_and_clear _ _ _ _ h3, BitVec.or_zero]

/-- The fields of format FI are read back from the word they are placed in. -/
theorem FI.dec_enc (o : FI) (c : BitVec 32) (h : FI.dec c = FI.dec 0#32) : FI.dec (c ||| o.enc) = o := by
  simp only [FI.dec, FI.mk.injEq] at h
  cases o
  simp (decide := true) only [FI.dec, FI.enc, fld_or, h, fld_place_disj, fld_place_same, BitVec.or_zero, BitVec.zero_or, show ∀ lo n, fld 0#32 lo n = 0#n from fun lo n => by simp [fld]]

/-- The fields of format FIm are not seen through a mask without their bits. -/
theorem FIm.enc_and (o : FIm) (c m : BitVec 32) (h : (clearOf 6 19 m && clearOf 9 3 m && clearOf 3 0 m) = true) (hc : c &&& m = c) : (c ||| o.enc) &&& m = c := by
  simp only [Bool.and_eq_true, and_assoc] at h
  obtain ⟨h0, h1, h2⟩ := h
  simp only [FIm.enc, or_and, hc, place_and_clear _ _ _ _ h0, place_and_clear _ _ _ _ h1, place_and_clear _ _ _ _ h2, BitVec.or_zero]

/-- The fields of format FIm are read back from the word they are placed in. -/
theorem FIm.dec_enc (o : FIm) (c : BitVec 32) (h : FIm.dec c = FIm.dec 0#32) : FIm.dec (c ||| o.enc) = o := by
  simp only [FIm.dec, FIm.mk.injEq] at h
  cases o
  simp (decide := true) only [FIm.dec, FIm.enc, fld_or, h, fld_place_disj, fld_place_same, BitVec.or_zero, BitVec.zero_or, show ∀ lo n, fld 0#32 lo n = 0#n from fun lo n => by simp [fld]]

/-- The fields of format FB are not seen through a mask without their bits. -/
theorem FB.enc_and (o : FB) (c m : BitVec 32) (h : (clearOf 22 3 m && clearOf 3 0 m) = true) (hc : c &&& m = c) : (c ||| o.enc) &&& m = c := by
  simp only [Bool.and_eq_true] at h
  obtain ⟨h0, h1⟩ := h
  simp only [FB.enc, or_and, hc, place_and_clear _ _ _ _ h0, place_and_clear _ _ _ _ h1, BitVec.or_zero]

/-- The fields of format FB are read back from the word they are placed in. -/
theorem FB.dec_enc (o : FB) (c : BitVec 32) (h : FB.dec c = FB.dec 0#32) : FB.dec (c ||| o.enc) = o := by
  simp only [FB.dec, FB.mk.injEq] at h
  cases o
  simp (decide := true) only [FB.dec, FB.enc, fld_or, h, fld_place_disj, fld_place_same, BitVec.or_zero, BitVec.zero_or, show ∀ lo n, fld 0#32 lo n = 0#n from fun lo n => by simp [fld]]

/-- The fields of format FBS are not seen through a mask without their bits. -/
theorem FBS.enc_and (o : FBS) (c m : BitVec 32) (h : (clearOf 6 19 m && clearOf 16 3 m && clearOf 3 0 m) = true) (hc : c &&& m = c) : (c ||| o.enc) &&& m = c := by
  simp only [Bool.and_eq_true, and_assoc] at h
  obtain ⟨h0, h1, h2⟩ := h
  simp only [FBS.enc, or_and, hc, place_and_clear _ _ _ _ h0, place_and_clear _ _ _ _ h1, place_and_clear _ _ _ _ h2, BitVec.or_zero]

/-- The fields of format FBS are read back from the word they are placed in. -/
theorem FBS.dec_enc (o : FBS) (c : BitVec 32) (h : FBS.dec c = FBS.dec 0#32) : FBS.dec (c ||| o.enc) = o := by
  simp only [FBS.dec, FBS.mk.injEq] at h
  cases o
  simp (decide := true) only [FBS.dec, FBS.enc, fld_or, h, fld_place_disj, fld_place_same, BitVec.or_zero, BitVec.zero_or, show ∀ lo n, fld 0#32 lo n = 0#n from fun lo n => by simp [fld]]

/-- The fields of format FBD are not seen through a mask without their bits. -/
theorem FBD.enc_and (o : FBD) (c m : BitVec 32) (h : (clearOf 3 22 m && clearOf 19 3 m && clearOf 3 0 m) = true) (hc : c &&& m = c) : (c ||| o.enc) &&& m = c := by
  simp only [Bool.and_eq_true, and_assoc] at h
  obtain ⟨h0, h1, h2⟩ := h
  simp only [FBD.enc, or_and, hc, place_and_clear _ _ _ _ h0, place_and_clear _ _ _ _ h1, place_and_clear _ _ _ _ h2, BitVec.or_zero]

/-- The fields of format FBD are read back from the word they are placed in. -/
theorem FBD.dec_enc (o : FBD) (c : BitVec 32) (h : FBD.dec c = FBD.dec 0#32) : FBD.dec (c ||| o.enc) = o := by
  simp only [FBD.dec, FBD.mk.injEq] at h
  cases o
  simp (decide := true) only [FBD.dec, FBD.enc, fld_or, h, fld_place_disj, fld_place_same, BitVec.or_zero, BitVec.zero_or, show ∀ lo n, fld 0#32 lo n = 0#n from fun lo n => by simp [fld]]

/-- The fields of format F0 are not seen through a mask without their bits. -/
theorem F0.enc_and (o : F0) (c m : BitVec 32) (h : (clearOf 3 0 m) = true) (hc : c &&& m = c) : (c ||| o.enc) &&& m = c := by
  have h0 := h
  simp only [F0.enc, or_and, hc, place_and_clear _ _ _ _ h0, BitVec.or_zero]

/-- The fields of format F0 are read back from the word they are placed in. -/
theorem F0.dec_enc (o : F0) (c : BitVec 32) (h : F0.dec c = F0.dec 0#32) : F0.dec (c ||| o.enc) = o := by
  simp only [F0.dec, F0.mk.injEq] at h
  cases o
  simp (decide := true) only [F0.dec, F0.enc, fld_or, h, fld_place_same, BitVec.zero_or, show ∀ lo n, fld 0#32 lo n = 0#n from fun lo n => by simp [fld]]

/-- The fields of format Fd are not seen through a mask without their bits. -/
theorem Fd.enc_and (o : Fd) (c m : BitVec 32) (h : (clearOf 6 19 m && clearOf 3 0 m) = true) (hc : c &&& m = c) : (c ||| o.enc) &&& m = c := by
  simp only [Bool.and_eq_true] at h
  obtain ⟨h0, h1⟩ := h
  simp only [Fd.enc, or_and, hc, place_and_clear _ _ _ _ h0, place_and_clear _ _ _ _ h1, BitVec.or_zero]

/-- The fields of format Fd are read back from the word they are placed in. -/
theorem Fd.dec_enc (o : Fd) (c : BitVec 32) (h : Fd.dec c = Fd.dec 0#32) : Fd.dec (c ||| o.enc) = o := by
  simp only [Fd.dec, Fd.mk.injEq] at h
  cases o
  simp (decide := true) only [Fd.dec, Fd.enc, fld_or, h, fld_place_disj, fld_place_same, BitVec.or_zero, BitVec.zero_or, show ∀ lo n, fld 0#32 lo n = 0#n from fun lo n => by simp [fld]]

/-- The fields of format FM are not seen through a mask without their bits. -/
theorem FM.enc_and (o : FM) (c m : BitVec 32) (h : (clearOf 6 19 m && clearOf 7 12 m && clearOf 5 7 m && clearOf 3 4 m && clearOf 3 0 m) = true) (hc : c &&& m = c) : (c ||| o.enc) &&& m = c := by
  simp only [Bool.and_eq_true, and_assoc] at h
  obtain ⟨h0, h1, h2, h3, h4⟩ := h
  simp only [FM.enc, or_and, hc, place_and_clear _ _ _ _ h0, place_and_clear _ _ _ _ h1, place_and_clear _ _ _ _ h2, place_and_clear _ _ _ _ h3, place_and_clear _ _ _ _ h4, BitVec.or_zero]

/-- The fields of format FM are read back from the word they are placed in. -/
theorem FM.dec_enc (o : FM) (c : BitVec 32) (h : FM.dec c = FM.dec 0#32) : FM.dec (c ||| o.enc) = o := by
  simp only [FM.dec, FM.mk.injEq] at h
  cases o
  simp (decide := true) only [FM.dec, FM.enc, fld_or, h, fld_place_disj, fld_place_same, BitVec.or_zero, BitVec.zero_or, show ∀ lo n, fld 0#32 lo n = 0#n from fun lo n => by simp [fld]]

/-- The fields of format FMp are not seen through a mask without their bits. -/
theorem FMp.enc_and (o : FMp) (c m : BitVec 32) (h : (clearOf 6 19 m && clearOf 7 12 m && clearOf 3 4 m && clearOf 3 0 m) = true) (hc : c &&& m = c) : (c ||| o.enc) &&& m = c := by
  simp only [Bool.and_eq_true, and_assoc] at h
  obtain ⟨h0, h1, h2, h3⟩ := h
  simp only [FMp.enc, or_and, hc, place_and_clear _ _ _ _ h0, place_and_clear _ _ _ _ h1, place_and_clear _ _ _ _ h2, place_and_clear _ _ _ _ h3, BitVec.or_zero]

/-- The fields of format FMp are read back from the word they are placed in. -/
theorem FMp.dec_enc (o : FMp) (c : BitVec 32) (h : FMp.dec c = FMp.dec 0#32) : FMp.dec (c ||| o.enc) = o := by
  simp only [FMp.dec, FMp.mk.injEq] at h
  cases o
  simp (decide := true) only [FMp.dec, FMp.enc, fld_or, h, fld_place_disj, fld_place_same, BitVec.or_zero, BitVec.zero_or, show ∀ lo n, fld 0#32 lo n = 0#n from fun lo n => by simp [fld]]

/-- The fields of format FA are not seen through a mask without their bits. -/
theorem FA.enc_and (o : FA) (c m : BitVec 32) (h : (clearOf 6 19 m && clearOf 7 12 m && clearOf 5 7 m && clearOf 4 3 m && clearOf 3 0 m) = true) (hc : c &&& m = c) : (c ||| o.enc) &&& m = c := by
  simp only [Bool.and_eq_true, and_assoc] at h
  obtain ⟨h0, h1, h2, h3, h4⟩ := h
  simp only [FA.enc, or_and, hc, place_and_clear _ _ _ _ h0, place_and_clear _ _ _ _ h1, place_and_clear _ _ _ _ h2, place_and_clear _ _ _ _ h3, place_and_clear _ _ _ _ h4, BitVec.or_zero]

/-- The fields of format FA are read back from the word they are placed in. -/
theorem FA.dec_enc (o : FA) (c : BitVec 32) (h : FA.dec c = FA.dec 0#32) : FA.dec (c ||| o.enc) = o := by
  simp only [FA.dec, FA.mk.injEq] at h
  cases o
  simp (decide := true) only [FA.dec, FA.enc, fld_or, h, fld_place_disj, fld_place_same, BitVec.or_zero, BitVec.zero_or, show ∀ lo n, fld 0#32 lo n = 0#n from fun lo n => by simp [fld]]

/-- The fields of format FAn are not seen through a mask without their bits. -/
theorem FAn.enc_and (o : FAn) (c m : BitVec 32) (h : (clearOf 6 19 m && clearOf 7 12 m && clearOf 5 7 m && clearOf 3 0 m) = true) (hc : c &&& m = c) : (c ||| o.enc) &&& m = c := by
  simp only [Bool.and_eq_true, and_assoc] at h
  obtain ⟨h0, h1, h2, h3⟩ := h
  simp only [FAn.enc, or_and, hc, place_and_clear _ _ _ _ h0, place_and_clear _ _ _ _ h1, place_and_clear _ _ _ _ h2, place_and_clear _ _ _ _ h3, BitVec.or_zero]

/-- The fields of format FAn are read back from the word they are placed in. -/
theorem FAn.dec_enc (o : FAn) (c : BitVec 32) (h : FAn.dec c = FAn.dec 0#32) : FAn.dec (c ||| o.enc) = o := by
  simp only [FAn.dec, FAn.mk.injEq] at h
  cases o
  simp (decide := true) only [FAn.dec, FAn.enc, fld_or, h, fld_place_disj, fld_place_same, BitVec.or_zero, BitVec.zero_or, show ∀ lo n, fld 0#32 lo n = 0#n from fun lo n => by simp [fld]]

/-- The fields of format FAr are not seen through a mask without their bits. -/
theorem FAr.enc_and (o : FAr) (c m : BitVec 32) (h : (clearOf 6 19 m && clearOf 5 7 m && clearOf 3 0 m) = true) (hc : c &&& m = c) : (c ||| o.enc) &&& m = c := by
  simp only [Bool.and_eq_true, and_assoc] at h
  obtain ⟨h0, h1, h2⟩ := h
  simp only [FAr.enc, or_and, hc, place_and_clear _ _ _ _ h0, place_and_clear _ _ _ _ h1, place_and_clear _ _ _ _ h2, BitVec.or_zero]

/-- The fields of format FAr are read back from the word they are placed in. -/
theorem FAr.dec_enc (o : FAr) (c : BitVec 32) (h : FAr.dec c = FAr.dec 0#32) : FAr.dec (c ||| o.enc) = o := by
  simp only [FAr.dec, FAr.mk.injEq] at h
  cases o
  simp (decide := true) only [FAr.dec, FAr.enc, fld_or, h, fld_place_disj, fld_place_same, BitVec.or_zero, BitVec.zero_or, show ∀ lo n, fld 0#32 lo n = 0#n from fun lo n => by simp [fld]]

/-- The fields of format Fa are not seen through a mask without their bits. -/
theorem Fa.enc_and (o : Fa) (c m : BitVec 32) (h : (clearOf 7 12 m && clearOf 3 0 m) = true) (hc : c &&& m = c) : (c ||| o.enc) &&& m = c := by
  simp only [Bool.and_eq_true] at h
  obtain ⟨h0, h1⟩ := h
  simp only [Fa.enc, or_and, hc, place_and_clear _ _ _ _ h0, place_and_clear _ _ _ _ h1, BitVec.or_zero]

/-- The fields of format Fa are read back from the word they are placed in. -/
theorem Fa.dec_enc (o : Fa) (c : BitVec 32) (h : Fa.dec c = Fa.dec 0#32) : Fa.dec (c ||| o.enc) = o := by
  simp only [Fa.dec, Fa.mk.injEq] at h
  cases o
  simp (decide := true) only [Fa.dec, Fa.enc, fld_or, h, fld_place_disj, fld_place_same, BitVec.or_zero, BitVec.zero_or, show ∀ lo n, fld 0#32 lo n = 0#n from fun lo n => by simp [fld]]

/-- The fields of format Fab are not seen through a mask without their bits. -/
theorem Fab.enc_and (o : Fab) (c m : BitVec 32) (h : (clearOf 7 12 m && clearOf 7 5 m && clearOf 3 0 m) = true) (hc : c &&& m = c) : (c ||| o.enc) &&& m = c := by
  simp only [Bool.and_eq_true, and_assoc] at h
  obtain ⟨h0, h1, h2⟩ := h
  simp only [Fab.enc, or_and, hc, place_and_clear _ _ _ _ h0, place_and_clear _ _ _ _ h1, place_and_clear _ _ _ _ h2, BitVec.or_zero]

/-- The fields of format Fab are read back from the word they are placed in. -/
theorem Fab.dec_enc (o : Fab) (c : BitVec 32) (h : Fab.dec c = Fab.dec 0#32) : Fab.dec (c ||| o.enc) = o := by
  simp only [Fab.dec, Fab.mk.injEq] at h
  cases o
  simp (decide := true) only [Fab.dec, Fab.enc, fld_or, h, fld_place_disj, fld_place_same, BitVec.or_zero, BitVec.zero_or, show ∀ lo n, fld 0#32 lo n = 0#n from fun lo n => by simp [fld]]

/-- The fields of format FDc are not seen through a mask without their bits. -/
theorem FDc.enc_and (o : FDc) (c m : BitVec 32) (h : (clearOf 6 19 m && clearOf 7 12 m && clearOf 2 9 m && clearOf 3 0 m) = true) (hc : c &&& m = c) : (c ||| o.enc) &&& m = c := by
  simp only [Bool.and_eq_true, and_assoc] at h
  obtain ⟨h0, h1, h2, h3⟩ := h
  simp only [FDc.enc, or_and, hc, place_and_clear _ _ _ _ h0, place_and_clear _ _ _ _ h1, place_and_clear _ _ _ _ h2, place_and_clear _ _ _ _ h3, BitVec.or_zero]

/-- The fields of format FDc are read back from the word they are placed in. -/
theorem FDc.dec_enc (o : FDc) (c : BitVec 32) (h : FDc.dec c = FDc.dec 0#32) : FDc.dec (c ||| o.enc) = o := by
  simp only [FDc.dec, FDc.mk.injEq] at h
  cases o
  simp (decide := true) only [FDc.dec, FDc.enc, fld_or, h, fld_place_disj, fld_place_same, BitVec.or_zero, BitVec.zero_or, show ∀ lo n, fld 0#32 lo n = 0#n from fun lo n => by simp [fld]]

/-- The fields of format Fap are not seen through a mask without their bits. -/
theorem Fap.enc_and (o : Fap) (c m : BitVec 32) (h : (clearOf 7 12 m && clearOf 2 9 m && clearOf 3 0 m) = true) (hc : c &&& m = c) : (c ||| o.enc) &&& m = c := by
  simp only [Bool.and_eq_true, and_assoc] at h
  obtain ⟨h0, h1, h2⟩ := h
  simp only [Fap.enc, or_and, hc, place_and_clear _ _ _ _ h0, place_and_clear _ _ _ _ h1, place_and_clear _ _ _ _ h2, BitVec.or_zero]

/-- The fields of format Fap are read back from the word they are placed in. -/
theorem Fap.dec_enc (o : Fap) (c : BitVec 32) (h : Fap.dec c = Fap.dec 0#32) : Fap.dec (c ||| o.enc) = o := by
  simp only [Fap.dec, Fap.mk.injEq] at h
  cases o
  simp (decide := true) only [Fap.dec, Fap.enc, fld_or, h, fld_place_disj, fld_place_same, BitVec.or_zero, BitVec.zero_or, show ∀ lo n, fld 0#32 lo n = 0#n from fun lo n => by simp [fld]]

/-- The fields of format FF are not seen through a mask without their bits. -/
theorem FF.enc_and (o : FF) (c m : BitVec 32) (h : (clearOf 3 22 m && clearOf 2 20 m && clearOf 3 0 m) = true) (hc : c &&& m = c) : (c ||| o.enc) &&& m = c := by
  simp only [Bool.and_eq_true, and_assoc] at h
  obtain ⟨h0, h1, h2⟩ := h
  simp only [FF.enc, or_and, hc, place_and_clear _ _ _ _ h0, place_and_clear _ _ _ _ h1, place_and_clear _ _ _ _ h2, BitVec.or_zero]

/-- The fields of format FF are read back from the word they are placed in. -/
theorem FF.dec_enc (o : FF) (c : BitVec 32) (h : FF.dec c = FF.dec 0#32) : FF.dec (c ||| o.enc) = o := by
  simp only [FF.dec, FF.mk.injEq] at h
  cases o
  simp (decide := true) only [FF.dec, FF.enc, fld_or, h, fld_place_disj, fld_place_same, BitVec.or_zero, BitVec.zero_or, show ∀ lo n, fld 0#32 lo n = 0#n from fun lo n => by simp [fld]]

/-- The fields of format FT are not seen through a mask without their bits. -/
theorem FT.enc_and (o : FT) (c m : BitVec 32) (h : (clearOf 13 12 m && clearOf 3 0 m) = true) (hc : c &&& m = c) : (c ||| o.enc) &&& m = c := by
  simp only [Bool.and_eq_true] at h
  obtain ⟨h0, h1⟩ := h
  simp only [FT.enc, or_and, hc, place_and_clear _ _ _ _ h0, place_and_clear _ _ _ _ h1, BitVec.or_zero]

/-- The fields of format FT are read back from the word they are placed in. -/
theorem FT.dec_enc (o : FT) (c : BitVec 32) (h : FT.dec c = FT.dec 0#32) : FT.dec (c ||| o.enc) = o := by
  simp only [FT.dec, FT.mk.injEq] at h
  cases o
  simp (decide := true) only [FT.dec, FT.enc, fld_or, h, fld_place_disj, fld_place_same, BitVec.or_zero, BitVec.zero_or, show ∀ lo n, fld 0#32 lo n = 0#n from fun lo n => by simp [fld]]

/-- The fields of format GImm are not seen through a mask without their bits. -/
theorem GImm.enc_and (o : GImm) (c m : BitVec 32) (h : (clearOf 23 0 m) = true) (hc : c &&& m = c) : (c ||| o.enc) &&& m = c := by
  have h0 := h
  simp only [GImm.enc, or_and, hc, place_and_clear _ _ _ _ h0, BitVec.or_zero]

/-- The fields of format GImm are read back from the word they are placed in. -/
theorem GImm.dec_enc (o : GImm) (c : BitVec 32) (h : GImm.dec c = GImm.dec 0#32) : GImm.dec (c ||| o.enc) = o := by
  simp only [GImm.dec, GImm.mk.injEq] at h
  cases o
  simp (decide := true) only [GImm.dec, GImm.enc, fld_or, h, fld_place_same, BitVec.zero_or, show ∀ lo n, fld 0#32 lo n = 0#n from fun lo n => by simp [fld]]

/-- The fields of format GRep are not seen through a mask without their bits. -/
theorem GRep.enc_and (o : GRep) (c m : BitVec 32) (h : (clearOf 6 17 m && clearOf 1 16 m && clearOf 1 15 m && clearOf 1 14 m && clearOf 2 12 m) = true) (hc : c &&& m = c) : (c ||| o.enc) &&& m = c := by
  simp only [Bool.and_eq_true, and_assoc] at h
  obtain ⟨h0, h1, h2, h3, h4⟩ := h
  simp only [GRep.enc, or_and, hc, place_and_clear _ _ _ _ h0, place_and_clear _ _ _ _ h1, place_and_clear _ _ _ _ h2, place_and_clear _ _ _ _ h3, place_and_clear _ _ _ _ h4, BitVec.or_zero]

/-- The fields of format GRep are read back from the word they are placed in. -/
theorem GRep.dec_enc (o : GRep) (c : BitVec 32) (h : GRep.dec c = GRep.dec 0#32) : GRep.dec (c ||| o.enc) = o := by
  simp only [GRep.dec, GRep.mk.injEq] at h
  cases o
  simp (decide := true) only [GRep.dec, GRep.enc, fld_or, h, fld_place_disj, fld_place_same, BitVec.or_zero, BitVec.zero_or, show ∀ lo n, fld 0#32 lo n = 0#n from fun lo n => by simp [fld]]

/-- The fields of format GMod are not seen through a mask without their bits. -/
theorem GMod.enc_and (o : GMod) (c m : BitVec 32) (h : (clearOf 1 22 m && clearOf 2 20 m && clearOf 1 19 m && clearOf 3 16 m && clearOf 1 15 m && clearOf 3 12 m && clearOf 1 11 m) = true) (hc : c &&& m = c) : (c ||| o.enc) &&& m = c := by
  simp only [Bool.and_eq_true, and_assoc] at h
  obtain ⟨h0, h1, h2, h3, h4, h5, h6⟩ := h
  simp only [GMod.enc, or_and, hc, place_and_clear _ _ _ _ h0, place_and_clear _ _ _ _ h1, place_and_clear _ _ _ _ h2, place_and_clear _ _ _ _ h3, place_and_clear _ _ _ _ h4, place_and_clear _ _ _ _ h5, place_and_clear _ _ _ _ h6, BitVec.or_zero]

/-- The fields of format GMod are read back from the word they are placed in. -/
theorem GMod.dec_enc (o : GMod) (c : BitVec 32) (h : GMod.dec c = GMod.dec 0#32) : GMod.dec (c ||| o.enc) = o := by
  simp only [GMod.dec, GMod.mk.injEq] at h
  cases o
  simp (decide := true) only [GMod.dec, GMod.enc, fld_or, h, fld_place_disj, fld_place_same, BitVec.or_zero, BitVec.zero_or, show ∀ lo n, fld 0#32 lo n = 0#n from fun lo n => by simp [fld]]

/-- The fields of format GExt are not seen through a mask without their bits. -/
theorem GExt.enc_and (o : GExt) (c m : BitVec 32) (h : (clearOf 7 16 m && clearOf 1 15 m && clearOf 3 12 m) = true) (hc : c &&& m = c) : (c ||| o.enc) &&& m = c := by
  simp only [Bool.and_eq_true, and_assoc] at h
  obtain ⟨h0, h1, h2⟩ := h
  simp only [GExt.enc, or_and, hc, place_and_clear _ _ _ _ h0, place_and_clear _ _ _ _ h1, place_and_clear _ _ _ _ h2, BitVec.or_zero]

/-- The fields of format GExt are read back from the word they are placed in. -/
theorem GExt.dec_enc (o : GExt) (c : BitVec 32) (h : GExt.dec c = GExt.dec 0#32) : GExt.dec (c ||| o.enc) = o := by
  simp only [GExt.dec, GExt.mk.injEq] at h
  cases o
  simp (decide := true) only [GExt.dec, GExt.enc, fld_or, h, fld_place_disj, fld_place_same, BitVec.or_zero, BitVec.zero_or, show ∀ lo n, fld 0#32 lo n = 0#n from fun lo n => by simp [fld]]

/-- The fields of format GStall are not seen through a mask without their bits. -/
theorem GStall.enc_and (o : GStall) (c m : BitVec 32) (h : (clearOf 8 15 m) = true) (hc : c &&& m = c) : (c ||| o.enc) &&& m = c := by
  have h0 := h
  simp only [GStall.enc, or_and, hc, place_and_clear _ _ _ _ h0, BitVec.or_zero]

/-- The fields of format GStall are read back from the word they are placed in. -/
theorem GStall.dec_enc (o : GStall) (c : BitVec 32) (h : GStall.dec c = GStall.dec 0#32) : GStall.dec (c ||| o.enc) = o := by
  simp only [GStall.dec, GStall.mk.injEq] at h
  cases o
  simp (decide := true) only [GStall.dec, GStall.enc, fld_or, h, fld_place_same, BitVec.zero_or, show ∀ lo n, fld 0#32 lo n = 0#n from fun lo n => by simp [fld]]

/-- The fields of format GScale are not seen through a mask without their bits. -/
theorem GScale.enc_and (o : GScale) (c m : BitVec 32) (h : (clearOf 6 17 m && clearOf 2 15 m && clearOf 6 9 m && clearOf 2 7 m) = true) (hc : c &&& m = c) : (c ||| o.enc) &&& m = c := by
  simp only [Bool.and_eq_true, and_assoc] at h
  obtain ⟨h0, h1, h2, h3⟩ := h
  simp only [GScale.enc, or_and, hc, place_and_clear _ _ _ _ h0, place_and_clear _ _ _ _ h1, place_and_clear _ _ _ _ h2, place_and_clear _ _ _ _ h3, BitVec.or_zero]

/-- The fields of format GScale are read back from the word they are placed in. -/
theorem GScale.dec_enc (o : GScale) (c : BitVec 32) (h : GScale.dec c = GScale.dec 0#32) : GScale.dec (c ||| o.enc) = o := by
  simp only [GScale.dec, GScale.mk.injEq] at h
  cases o
  simp (decide := true) only [GScale.dec, GScale.enc, fld_or, h, fld_place_disj, fld_place_same, BitVec.or_zero, BitVec.zero_or, show ∀ lo n, fld 0#32 lo n = 0#n from fun lo n => by simp [fld]]

/-- The fields of format HI are not seen through a mask without their bits. -/
theorem HI.enc_and (o : HI) (c m : BitVec 32) (h : (clearOf 5 22 m && clearOf 21 0 m) = true) (hc : c &&& m = c) : (c ||| o.enc) &&& m = c := by
  simp only [Bool.and_eq_true] at h
  obtain ⟨h0, h1⟩ := h
  simp only [HI.enc, or_and, hc, place_and_clear _ _ _ _ h0, place_and_clear _ _ _ _ h1, BitVec.or_zero]

/-- The fields of format HI are read back from the word they are placed in. -/
theorem HI.dec_enc (o : HI) (c : BitVec 32) (h : HI.dec c = HI.dec 0#32) : HI.dec (c ||| o.enc) = o := by
  simp only [HI.dec, HI.mk.injEq] at h
  cases o
  simp (decide := true) only [HI.dec, HI.enc, fld_or, h, fld_place_disj, fld_place_same, BitVec.or_zero, BitVec.zero_or, show ∀ lo n, fld 0#32 lo n = 0#n from fun lo n => by simp [fld]]

/-- The fields of format HIh are not seen through a mask without their bits. -/
theorem HIh.enc_and (o : HIh) (c m : BitVec 32) (h : (clearOf 5 22 m && clearOf 16 0 m) = true) (hc : c &&& m = c) : (c ||| o.enc) &&& m = c := by
  simp only [Bool.and_eq_true] at h
  obtain ⟨h0, h1⟩ := h
  simp only [HIh.enc, or_and, hc, place_and_clear _ _ _ _ h0, place_and_clear _ _ _ _ h1, BitVec.or_zero]

/-- The fields of format HIh are read back from the word they are placed in. -/
theorem HIh.dec_enc (o : HIh) (c : BitVec 32) (h : HIh.dec c = HIh.dec 0#32) : HIh.dec (c ||| o.enc) = o := by
  simp only [HIh.dec, HIh.mk.injEq] at h
  cases o
  simp (decide := true) only [HIh.dec, HIh.enc, fld_or, h, fld_place_disj, fld_place_same, BitVec.or_zero, BitVec.zero_or, show ∀ lo n, fld 0#32 lo n = 0#n from fun lo n => by simp [fld]]

/-- The fields of format HR are not seen through a mask without their bits. -/
theorem HR.enc_and (o : HR) (c m : BitVec 32) (h : (clearOf 5 22 m && clearOf 5 17 m && clearOf 5 12 m && clearOf 1 11 m && clearOf 11 0 m) = true) (hc : c &&& m = c) : (c ||| o.enc) &&& m = c := by
  simp only [Bool.and_eq_true, and_assoc] at h
  obtain ⟨h0, h1, h2, h3, h4⟩ := h
  simp only [HR.enc, or_and, hc, place_and_clear _ _ _ _ h0, place_and_clear _ _ _ _ h1, place_and_clear _ _ _ _ h2, place_and_clear _ _ _ _ h3, place_and_clear _ _ _ _ h4, BitVec.or_zero]

/-- The fields of format HR are read back from the word they are placed in. -/
theorem HR.dec_enc (o : HR) (c : BitVec 32) (h : HR.dec c = HR.dec 0#32) : HR.dec (c ||| o.enc) = o := by
  simp only [HR.dec, HR.mk.injEq] at h
  cases o
  simp (decide := true) only [HR.dec, HR.enc, fld_or, h, fld_place_disj, fld_place_same, BitVec.or_zero, BitVec.zero_or, show ∀ lo n, fld 0#32 lo n = 0#n from fun lo n => by simp [fld]]

/-- The fields of format HJ are not seen through a mask without their bits. -/
theorem HJ.enc_and (o : HJ) (c m : BitVec 32) (h : (clearOf 12 0 m) = true) (hc : c &&& m = c) : (c ||| o.enc) &&& m = c := by
  have h0 := h
  simp only [HJ.enc, or_and, hc, place_and_clear _ _ _ _ h0, BitVec.or_zero]

/-- The fields of format HJ are read back from the word they are placed in. -/
theorem HJ.dec_enc (o : HJ) (c : BitVec 32) (h : HJ.dec c = HJ.dec 0#32) : HJ.dec (c ||| o.enc) = o := by
  simp only [HJ.dec, HJ.mk.injEq] at h
  cases o
  simp (decide := true) only [HJ.dec, HJ.enc, fld_or, h, fld_place_same, BitVec.zero_or, show ∀ lo n, fld 0#32 lo n = 0#n from fun lo n => by simp [fld]]

/-- The fields of format HJa are not seen through a mask without their bits. -/
theorem HJa.enc_and (o : HJa) (c m : BitVec 32) (h : (clearOf 5 22 m && clearOf 12 0 m) = true) (hc : c &&& m = c) : (c ||| o.enc) &&& m = c := by
  simp only [Bool.and_eq_true] at h
  obtain ⟨h0, h1⟩ := h
  simp only [HJa.enc, or_and, hc, place_and_clear _ _ _ _ h0, place_and_clear _ _ _ _ h1, BitVec.or_zero]

/-- The fields of format HJa are read back from the word they are placed in. -/
theorem HJa.dec_enc (o : HJa) (c : BitVec 32) (h : HJa.dec c = HJa.dec 0#32) : HJa.dec (c ||| o.enc) = o := by
  simp only [HJa.dec, HJa.mk.injEq] at h
  cases o
  simp (decide := true) only [HJa.dec, HJa.enc, fld_or, h, fld_place_disj, fld_place_same, BitVec.or_zero, BitVec.zero_or, show ∀ lo n, fld 0#32 lo n = 0#n from fun lo n => by simp [fld]]

/-- The fields of format HRd are not seen through a mask without their bits. -/
theorem HRd.enc_and (o : HRd) (c m : BitVec 32) (h : (clearOf 5 22 m) = true) (hc : c &&& m = c) : (c ||| o.enc) &&& m = c := by
  have h0 := h
  simp only [HRd.enc, or_and, hc, place_and_clear _ _ _ _ h0, BitVec.or_zero]

/-- The fields of format HRd are read back from the word they are placed in. -/
theorem HRd.dec_enc (o : HRd) (c : BitVec 32) (h : HRd.dec c = HRd.dec 0#32) : HRd.dec (c ||| o.enc) = o := by
  simp only [HRd.dec, HRd.mk.injEq] at h
  cases o
  simp (decide := true) only [HRd.dec, HRd.enc, fld_or, h, fld_place_same, BitVec.zero_or, show ∀ lo n, fld 0#32 lo n = 0#n from fun lo n => by simp [fld]]

/-- The fields of format HRa are not seen through a mask without their bits. -/
theorem HRa.enc_and (o : HRa) (c m : BitVec 32) (h : (clearOf 5 17 m) = true) (hc : c &&& m = c) : (c ||| o.enc) &&& m = c := by
  have h0 := h
  simp only [HRa.enc, or_and, hc, place_and_clear _ _ _ _ h0, BitVec.or_zero]

/-- The fields of format HRa are read back from the word they are placed in. -/
theorem HRa.dec_enc (o : HRa) (c : BitVec 32) (h : HRa.dec c = HRa.dec 0#32) : HRa.dec (c ||| o.enc) = o := by
  simp only [HRa.dec, HRa.mk.injEq] at h
  cases o
  simp (decide := true) only [HRa.dec, HRa.enc, fld_or, h, fld_place_same, BitVec.zero_or, show ∀ lo n, fld 0#32 lo n = 0#n from fun lo n => by simp [fld]]

/-- The fields of format HT1 are not seen through a mask without their bits. -/
theorem HT1.enc_and (o : HT1) (c m : BitVec 32) (h : (clearOf 2 25 m) = true) (hc : c &&& m = c) : (c ||| o.enc) &&& m = c := by
  have h0 := h
  simp only [HT1.enc, or_and, hc, place_and_clear _ _ _ _ h0, BitVec.or_zero]

/-- The fields of format HT1 are read back from the word they are placed in. -/
theorem HT1.dec_enc (o : HT1) (c : BitVec 32) (h : HT1.dec c = HT1.dec 0#32) : HT1.dec (c ||| o.enc) = o := by
  simp only [HT1.dec, HT1.mk.injEq] at h
  cases o
  simp (decide := true) only [HT1.dec, HT1.enc, fld_or, h, fld_place_same, BitVec.zero_or, show ∀ lo n, fld 0#32 lo n = 0#n from fun lo n => by simp [fld]]

/-- The fields of format HTm are not seen through a mask without their bits. -/
theorem HTm.enc_and (o : HTm) (c m : BitVec 32) (h : (clearOf 2 25 m && clearOf 5 20 m && clearOf 5 15 m && clearOf 5 10 m && clearOf 5 5 m) = true) (hc : c &&& m = c) : (c ||| o.enc) &&& m = c := by
  simp only [Bool.and_eq_true, and_assoc] at h
  obtain ⟨h0, h1, h2, h3, h4⟩ := h
  simp only [HTm.enc, or_and, hc, place_and_clear _ _ _ _ h0, place_and_clear _ _ _ _ h1, place_and_clear _ _ _ _ h2, place_and_clear _ _ _ _ h3, place_and_clear _ _ _ _ h4, BitVec.or_zero]

/-- The fields of format HTm are read back from the word they are placed in. -/
theorem HTm.dec_enc (o : HTm) (c : BitVec 32) (h : HTm.dec c = HTm.dec 0#32) : HTm.dec (c ||| o.enc) = o := by
  simp only [HTm.dec, HTm.mk.injEq] at h
  cases o
  simp (decide := true) only [HTm.dec, HTm.enc, fld_or, h, fld_place_disj, fld_place_same, BitVec.or_zero, BitVec.zero_or, show ∀ lo n, fld 0#32 lo n = 0#n from fun lo n => by simp [fld]]

/-- The fields of format HTa are not seen through a mask without their bits. -/
theorem HTa.enc_and (o : HTa) (c m : BitVec 32) (h : (clearOf 2 25 m && clearOf 5 20 m) = true) (hc : c &&& m = c) : (c ||| o.enc) &&& m = c := by
  simp only [Bool.and_eq_true] at h
  obtain ⟨h0, h1⟩ := h
  simp only [HTa.enc, or_and, hc, place_and_clear _ _ _ _ h0, place_and_clear _ _ _ _ h1, BitVec.or_zero]

/-- The fields of format HTa are read back from the word they are placed in. -/
theorem HTa.dec_enc (o : HTa) (c : BitVec 32) (h : HTa.dec c = HTa.dec 0#32) : HTa.dec (c ||| o.enc) = o := by
  simp only [HTa.dec, HTa.mk.injEq] at h
  cases o
  simp (decide := true) only [HTa.dec, HTa.enc, fld_or, h, fld_place_disj, fld_place_same, BitVec.or_zero, BitVec.zero_or, show ∀ lo n, fld 0#32 lo n = 0#n from fun lo n => by simp [fld]]

/-- The fields of format HTab are not seen through a mask without their bits. -/
theorem HTab.enc_and (o : HTab) (c m : BitVec 32) (h : (clearOf 5 20 m && clearOf 5 15 m) = true) (hc : c &&& m = c) : (c ||| o.enc) &&& m = c := by
  simp only [Bool.and_eq_true] at h
  obtain ⟨h0, h1⟩ := h
  simp only [HTab.enc, or_and, hc, place_and_clear _ _ _ _ h0, place_and_clear _ _ _ _ h1, BitVec.or_zero]

/-- The fields of format HTab are read back from the word they are placed in. -/
theorem HTab.dec_enc (o : HTab) (c : BitVec 32) (h : HTab.dec c = HTab.dec 0#32) : HTab.dec (c ||| o.enc) = o := by
  simp only [HTab.dec, HTab.mk.injEq] at h
  cases o
  simp (decide := true) only [HTab.dec, HTab.enc, fld_or, h, fld_place_disj, fld_place_same, BitVec.or_zero, BitVec.zero_or, show ∀ lo n, fld 0#32 lo n = 0#n from fun lo n => by simp [fld]]

/-- The fields of format HTv are not seen through a mask without their bits. -/
theorem HTv.enc_and (o : HTv) (c m : BitVec 32) (h : (clearOf 5 20 m) = true) (hc : c &&& m = c) : (c ||| o.enc) &&& m = c := by
  have h0 := h
  simp only [HTv.enc, or_and, hc, place_and_clear _ _ _ _ h0, BitVec.or_zero]

/-- The fields of format HTv are read back from the word they are placed in. -/
theorem HTv.dec_enc (o : HTv) (c : BitVec 32) (h : HTv.dec c = HTv.dec 0#32) : HTv.dec (c ||| o.enc) = o := by
  simp only [HTv.dec, HTv.mk.injEq] at h
  cases o
  simp (decide := true) only [HTv.dec, HTv.enc, fld_or, h, fld_place_same, BitVec.zero_or, show ∀ lo n, fld 0#32 lo n = 0#n from fun lo n => by simp [fld]]

/-- The fields of format HTtab are not seen through a mask without their bits. -/
theorem HTtab.enc_and (o : HTtab) (c m : BitVec 32) (h : (clearOf 2 25 m && clearOf 5 20 m && clearOf 5 15 m) = true) (hc : c &&& m = c) : (c ||| o.enc) &&& m = c := by
  simp only [Bool.and_eq_true, and_assoc] at h
  obtain ⟨h0, h1, h2⟩ := h
  simp only [HTtab.enc, or_and, hc, place_and_clear _ _ _ _ h0, place_and_clear _ _ _ _ h1, place_and_clear _ _ _ _ h2, BitVec.or_zero]

/-- The fields of format HTtab are read back from the word they are placed in. -/
theorem HTtab.dec_enc (o : HTtab) (c : BitVec 32) (h : HTtab.dec c = HTtab.dec 0#32) : HTtab.dec (c ||| o.enc) = o := by
  simp only [HTtab.dec, HTtab.mk.injEq] at h
  cases o
  simp (decide := true) only [HTtab.dec, HTtab.enc, fld_or, h, fld_place_disj, fld_place_same, BitVec.or_zero, BitVec.zero_or, show ∀ lo n, fld 0#32 lo n = 0#n from fun lo n => by simp [fld]]

/-- The fields of format HTf are not seen through a mask without their bits. -/
theorem HTf.enc_and (o : HTf) (c m : BitVec 32) (h : (clearOf 2 25 m && clearOf 5 20 m && clearOf 5 15 m && clearOf 2 0 m) = true) (hc : c &&& m = c) : (c ||| o.enc) &&& m = c := by
  simp only [Bool.and_eq_true, and_assoc] at h
  obtain ⟨h0, h1, h2, h3⟩ := h
  simp only [HTf.enc, or_and, hc, place_and_clear _ _ _ _ h0, place_and_clear _ _ _ _ h1, place_and_clear _ _ _ _ h2, place_and_clear _ _ _ _ h3, BitVec.or_zero]

/-- The fields of format HTf are read back from the word they are placed in. -/
theorem HTf.dec_enc (o : HTf) (c : BitVec 32) (h : HTf.dec c = HTf.dec 0#32) : HTf.dec (c ||| o.enc) = o := by
  simp only [HTf.dec, HTf.mk.injEq] at h
  cases o
  simp (decide := true) only [HTf.dec, HTf.enc, fld_or, h, fld_place_disj, fld_place_same, BitVec.or_zero, BitVec.zero_or, show ∀ lo n, fld 0#32 lo n = 0#n from fun lo n => by simp [fld]]

/-- The fields of format HTp are not seen through a mask without their bits. -/
theorem HTp.enc_and (o : HTp) (c m : BitVec 32) (h : (clearOf 2 25 m && clearOf 5 20 m && clearOf 5 15 m && clearOf 5 10 m && clearOf 5 5 m && clearOf 1 3 m && clearOf 3 0 m) = true) (hc : c &&& m = c) : (c ||| o.enc) &&& m = c := by
  simp only [Bool.and_eq_true, and_assoc] at h
  obtain ⟨h0, h1, h2, h3, h4, h5, h6⟩ := h
  simp only [HTp.enc, or_and, hc, place_and_clear _ _ _ _ h0, place_and_clear _ _ _ _ h1, place_and_clear _ _ _ _ h2, place_and_clear _ _ _ _ h3, place_and_clear _ _ _ _ h4, place_and_clear _ _ _ _ h5, place_and_clear _ _ _ _ h6, BitVec.or_zero]

/-- The fields of format HTp are read back from the word they are placed in. -/
theorem HTp.dec_enc (o : HTp) (c : BitVec 32) (h : HTp.dec c = HTp.dec 0#32) : HTp.dec (c ||| o.enc) = o := by
  simp only [HTp.dec, HTp.mk.injEq] at h
  cases o
  simp (decide := true) only [HTp.dec, HTp.enc, fld_or, h, fld_place_disj, fld_place_same, BitVec.or_zero, BitVec.zero_or, show ∀ lo n, fld 0#32 lo n = 0#n from fun lo n => by simp [fld]]

theorem decodeDefined_01 (w : BitVec 32) (h : fld w 25 7 = 0x01#7) : decodeDefined w = (.ok (.vaddI32 (FR.dec w))) := by
  unfold decodeDefined
  rw [h]
  rfl

theorem decodeDefined_02 (w : BitVec 32) (h : fld w 25 7 = 0x02#7) : decodeDefined w = (.ok (.vsubI32 (FR.dec w))) := by
  unfold decodeDefined
  rw [h]
  rfl

theorem decodeDefined_03 (w : BitVec 32) (h : fld w 25 7 = 0x03#7) : decodeDefined w = (.ok (.vmulI32 (FR.dec w))) := by
  unfold decodeDefined
  rw [h]
  rfl

theorem decodeDefined_04 (w : BitVec 32) (h : fld w 25 7 = 0x04#7) : decodeDefined w = (.ok (.vmulhiI32 (FR.dec w))) := by
  unfold decodeDefined
  rw [h]
  rfl

theorem decodeDefined_05 (w : BitVec 32) (h : fld w 25 7 = 0x05#7) : decodeDefined w = (.ok (.vmulhiN32 (FR.dec w))) := by
  unfold decodeDefined
  rw [h]
  rfl

theorem decodeDefined_06 (w : BitVec 32) (h : fld w 25 7 = 0x06#7) : decodeDefined w = (.ok (.vmadI32 (FR.dec w))) := by
  unfold decodeDefined
  rw [h]
  rfl

theorem decodeDefined_07 (w : BitVec 32) (h : fld w 25 7 = 0x07#7) : decodeDefined w = (.ok (.vminI32 (FR.dec w))) := by
  unfold decodeDefined
  rw [h]
  rfl

theorem decodeDefined_08 (w : BitVec 32) (h : fld w 25 7 = 0x08#7) : decodeDefined w = (.ok (.vmaxI32 (FR.dec w))) := by
  unfold decodeDefined
  rw [h]
  rfl

theorem decodeDefined_09 (w : BitVec 32) (h : fld w 25 7 = 0x09#7) : decodeDefined w = (.ok (.vminN32 (FR.dec w))) := by
  unfold decodeDefined
  rw [h]
  rfl

theorem decodeDefined_0A (w : BitVec 32) (h : fld w 25 7 = 0x0A#7) : decodeDefined w = (.ok (.vmaxN32 (FR.dec w))) := by
  unfold decodeDefined
  rw [h]
  rfl

theorem decodeDefined_0B (w : BitVec 32) (h : fld w 25 7 = 0x0B#7) : decodeDefined w = (.ok (.vand (FR.dec w))) := by
  unfold decodeDefined
  rw [h]
  rfl

theorem decodeDefined_0C (w : BitVec 32) (h : fld w 25 7 = 0x0C#7) : decodeDefined w = (.ok (.vor (FR.dec w))) := by
  unfold decodeDefined
  rw [h]
  rfl

theorem decodeDefined_0D (w : BitVec 32) (h : fld w 25 7 = 0x0D#7) : decodeDefined w = (.ok (.vxor (FR.dec w))) := by
  unfold decodeDefined
  rw [h]
  rfl

theorem decodeDefined_0E (w : BitVec 32) (h : fld w 25 7 = 0x0E#7) : decodeDefined w = (.ok (.vandn (FR.dec w))) := by
  unfold decodeDefined
  rw [h]
  rfl

theorem decodeDefined_0F (w : BitVec 32) (h : fld w 25 7 = 0x0F#7) : decodeDefined w = (.ok (.vshl (FR.dec w))) := by
  unfold decodeDefined
  rw [h]
  rfl

theorem decodeDefined_10 (w : BitVec 32) (h : fld w 25 7 = 0x10#7) : decodeDefined w = (.ok (.vshrN32 (FR.dec w))) := by
  unfold decodeDefined
  rw [h]
  rfl

theorem decodeDefined_11 (w : BitVec 32) (h : fld w 25 7 = 0x11#7) : decodeDefined w = (.ok (.vshrI32 (FR.dec w))) := by
  unfold decodeDefined
  rw [h]
  rfl

theorem decodeDefined_12 (w : BitVec 32) (h : fld w 25 7 = 0x12#7) : decodeDefined w = (.ok (.vrotl (FR.dec w))) := by
  unfold decodeDefined
  rw [h]
  rfl

theorem decodeDefined_13 (w : BitVec 32) (h : fld w 25 7 = 0x13#7) : decodeDefined w = (.ok (.vsel (FR.dec w))) := by
  unfold decodeDefined
  rw [h]
  rfl

theorem decodeDefined_14 (w : BitVec 32) (h : fld w 25 7 = 0x14#7) : decodeDefined w = (.ok (.vcmpI32 (FC.dec w))) := by
  unfold decodeDefined
  rw [h]
  rfl

theorem decodeDefined_15 (w : BitVec 32) (h : fld w 25 7 = 0x15#7) : decodeDefined w = (.ok (.vcmpN32 (FC.dec w))) := by
  unfold decodeDefined
  rw [h]
  rfl

theorem decodeDefined_16 (w : BitVec 32) (h : fld w 25 7 = 0x16#7) : decodeDefined w = (.ok (.vcmpF32 (FC.dec w))) := by
  unfold decodeDefined
  rw [h]
  rfl

theorem decodeDefined_17 (w : BitVec 32) (h : fld w 25 7 = 0x17#7) : decodeDefined w = (.ok (.vcmpF16 (FC.dec w))) := by
  unfold decodeDefined
  rw [h]
  rfl

theorem decodeDefined_18 (w : BitVec 32) (h : fld w 25 7 = 0x18#7) : decodeDefined w = (.ok (.vbfxN32 (FR.dec w))) := by
  unfold decodeDefined
  rw [h]
  rfl

theorem decodeDefined_19 (w : BitVec 32) (h : fld w 25 7 = 0x19#7) : decodeDefined w = (.ok (.vbfxI32 (FR.dec w))) := by
  unfold decodeDefined
  rw [h]
  rfl

theorem decodeDefined_1A (w : BitVec 32) (h : fld w 25 7 = 0x1A#7) : decodeDefined w = (.ok (.vbfi (FR.dec w))) := by
  unfold decodeDefined
  rw [h]
  rfl

theorem decodeDefined_1B (w : BitVec 32) (h : fld w 25 7 = 0x1B#7) : decodeDefined w = (.ok (.vperm (FR.dec w))) := by
  unfold decodeDefined
  rw [h]
  rfl

theorem decodeDefined_1C (w : BitVec 32) (h : fld w 25 7 = 0x1C#7) : decodeDefined w = (.ok (.vaddsatI32 (FR.dec w))) := by
  unfold decodeDefined
  rw [h]
  rfl

theorem decodeDefined_1D (w : BitVec 32) (h : fld w 25 7 = 0x1D#7) : decodeDefined w = (.ok (.vsubsatI32 (FR.dec w))) := by
  unfold decodeDefined
  rw [h]
  rfl

theorem decodeDefined_1E (w : BitVec 32) (h : fld w 25 7 = 0x1E#7) : decodeDefined w = (.ok (.vpack16 (FR.dec w))) := by
  unfold decodeDefined
  rw [h]
  rfl

theorem decodeDefined_1F (w : BitVec 32) (h : fld w 25 7 = 0x1F#7) : decodeDefined w = (.ok (.vshfl (FR.dec w))) := by
  unfold decodeDefined
  rw [h]
  rfl

theorem decodeDefined_20 (w : BitVec 32) (h : fld w 25 7 = 0x20#7) : decodeDefined w = (.ok (.vaddF32 (FR.dec w))) := by
  unfold decodeDefined
  rw [h]
  rfl

theorem decodeDefined_21 (w : BitVec 32) (h : fld w 25 7 = 0x21#7) : decodeDefined w = (.ok (.vsubF32 (FR.dec w))) := by
  unfold decodeDefined
  rw [h]
  rfl

theorem decodeDefined_22 (w : BitVec 32) (h : fld w 25 7 = 0x22#7) : decodeDefined w = (.ok (.vmulF32 (FR.dec w))) := by
  unfold decodeDefined
  rw [h]
  rfl

theorem decodeDefined_23 (w : BitVec 32) (h : fld w 25 7 = 0x23#7) : decodeDefined w = (.ok (.vfmaF32 (FR.dec w))) := by
  unfold decodeDefined
  rw [h]
  rfl

theorem decodeDefined_24 (w : BitVec 32) (h : fld w 25 7 = 0x24#7) : decodeDefined w = (.ok (.vminF32 (FR.dec w))) := by
  unfold decodeDefined
  rw [h]
  rfl

theorem decodeDefined_25 (w : BitVec 32) (h : fld w 25 7 = 0x25#7) : decodeDefined w = (.ok (.vmaxF32 (FR.dec w))) := by
  unfold decodeDefined
  rw [h]
  rfl

theorem decodeDefined_26 (w : BitVec 32) (h : fld w 25 7 = 0x26#7) : decodeDefined w = (.ok (.vaddF16x2 (FR.dec w))) := by
  unfold decodeDefined
  rw [h]
  rfl

theorem decodeDefined_27 (w : BitVec 32) (h : fld w 25 7 = 0x27#7) : decodeDefined w = (.ok (.vmulF16x2 (FR.dec w))) := by
  unfold decodeDefined
  rw [h]
  rfl

theorem decodeDefined_28 (w : BitVec 32) (h : fld w 25 7 = 0x28#7) : decodeDefined w = (.ok (.vfmaF16x2 (FR.dec w))) := by
  unfold decodeDefined
  rw [h]
  rfl

theorem decodeDefined_29 (w : BitVec 32) (h : fld w 25 7 = 0x29#7) : decodeDefined w = (.ok (.vaddBf16x2 (FR.dec w))) := by
  unfold decodeDefined
  rw [h]
  rfl

theorem decodeDefined_2A (w : BitVec 32) (h : fld w 25 7 = 0x2A#7) : decodeDefined w = (.ok (.vmulBf16x2 (FR.dec w))) := by
  unfold decodeDefined
  rw [h]
  rfl

theorem decodeDefined_2B (w : BitVec 32) (h : fld w 25 7 = 0x2B#7) : decodeDefined w = (.ok (.vfmaBf16x2 (FR.dec w))) := by
  unfold decodeDefined
  rw [h]
  rfl

theorem decodeDefined_2C (w : BitVec 32) (h : fld w 25 7 = 0x2C#7) : decodeDefined w = (.ok (.vldexpF32 (FR.dec w))) := by
  unfold decodeDefined
  rw [h]
  rfl

theorem decodeDefined_2D (w : BitVec 32) (h : fld w 25 7 = 0x2D#7) : decodeDefined w = (.ok (.vcopysignF32 (FR.dec w))) := by
  unfold decodeDefined
  rw [h]
  rfl

theorem decodeDefined_2E (w : BitVec 32) (h : fld w 25 7 = 0x2E#7) : decodeDefined w = (.ok (.vminF16x2 (FR.dec w))) := by
  unfold decodeDefined
  rw [h]
  rfl

theorem decodeDefined_2F (w : BitVec 32) (h : fld w 25 7 = 0x2F#7) : decodeDefined w = (.ok (.vmaxF16x2 (FR.dec w))) := by
  unfold decodeDefined
  rw [h]
  rfl

theorem decodeDefined_30 (w : BitVec 32) (h : fld w 25 7 = 0x30#7) : decodeDefined w = (.ok (.vdot4E4m3 (FR.dec w))) := by
  unfold decodeDefined
  rw [h]
  rfl

theorem decodeDefined_31 (w : BitVec 32) (h : fld w 25 7 = 0x31#7) : decodeDefined w = (.ok (.vdot4E5m2 (FR.dec w))) := by
  unfold decodeDefined
  rw [h]
  rfl

theorem decodeDefined_32 (w : BitVec 32) (h : fld w 25 7 = 0x32#7) : decodeDefined w = (.ok (.vdot4I8 (FR.dec w))) := by
  unfold decodeDefined
  rw [h]
  rfl

theorem decodeDefined_33 (w : BitVec 32) (h : fld w 25 7 = 0x33#7) : decodeDefined w = (.ok (.vdot4N8 (FR.dec w))) := by
  unfold decodeDefined
  rw [h]
  rfl

theorem decodeDefined_34 (w : BitVec 32) (h : fld w 25 7 = 0x34#7) : decodeDefined w = (.ok (.vdot8E2m1 (FR.dec w))) := by
  unfold decodeDefined
  rw [h]
  rfl

theorem decodeDefined_35 (w : BitVec 32) (h : fld w 25 7 = 0x35#7) : decodeDefined w = (.ok (.vdot8I4 (FR.dec w))) := by
  unfold decodeDefined
  rw [h]
  rfl

theorem decodeDefined_36 (w : BitVec 32) (h : fld w 25 7 = 0x36#7) : decodeDefined w = (.ok (.vdot2Bf16 (FR.dec w))) := by
  unfold decodeDefined
  rw [h]
  rfl

theorem decodeDefined_37 (w : BitVec 32) (h : fld w 25 7 = 0x37#7) : decodeDefined w = (.ok (.vdot2F16 (FR.dec w))) := by
  unfold decodeDefined
  rw [h]
  rfl

theorem decodeDefined_38 (w : BitVec 32) (h : fld w 25 7 = 0x38#7) : decodeDefined w = (if w &&& 0xFE000F88#32 = 0x70000000#32 then .ok (.vcvtI32F32 (FUm.dec w))
    else if w &&& 0xFE000F88#32 = 0x70000080#32 then .ok (.vcvtN32F32 (FUm.dec w))
    else if w &&& 0xFE000FE8#32 = 0x70000100#32 then .ok (.vcvtF32I32 (FU.dec w))
    else if w &&& 0xFE000FE8#32 = 0x70000120#32 then .ok (.vcvtF32N32 (FU.dec w))
    else if w &&& 0xFE000FE8#32 = 0x70000140#32 then .ok (.vcvtF16F32 (FU.dec w))
    else if w &&& 0xFE000FE8#32 = 0x70000160#32 then .ok (.vcvtBf16F32 (FU.dec w))
    else if w &&& 0xFE000FE8#32 = 0x70000180#32 then .ok (.vcvtF32F16 (FU.dec w))
    else if w &&& 0xFE000FE8#32 = 0x700001A0#32 then .ok (.vcvtF32Bf16 (FU.dec w))
    else if w &&& 0xFE000B88#32 = 0x70000200#32 then .ok (.vcvtE4m3F32 (FUrb.dec w))
    else if w &&& 0xFE000B88#32 = 0x70000280#32 then .ok (.vcvtE5m2F32 (FUrb.dec w))
    else if w &&& 0xFE000B08#32 = 0x70000300#32 then .ok (.vcvtE2m1F32 (FUrn.dec w))
    else if w &&& 0xFE000F88#32 = 0x70000400#32 then .ok (.vcvtF32E4m3 (FUb.dec w))
    else if w &&& 0xFE000F88#32 = 0x70000480#32 then .ok (.vcvtF32E5m2 (FUb.dec w))
    else if w &&& 0xFE000F08#32 = 0x70000500#32 then .ok (.vcvtF32E2m1 (FUn.dec w))
    else .error .reservedField) := by
  unfold decodeDefined
  rw [h]
  rfl

theorem decodeDefined_39 (w : BitVec 32) (h : fld w 25 7 = 0x39#7) : decodeDefined w = (if w &&& 0xFE000FE8#32 = 0x72000000#32 then .ok (.vsfuRcp (FU.dec w))
    else if w &&& 0xFE000FE8#32 = 0x72000020#32 then .ok (.vsfuRsq (FU.dec w))
    else if w &&& 0xFE000FE8#32 = 0x72000040#32 then .ok (.vsfuSqrt (FU.dec w))
    else if w &&& 0xFE000FE8#32 = 0x72000060#32 then .ok (.vsfuExp2 (FU.dec w))
    else if w &&& 0xFE000FE8#32 = 0x72000080#32 then .ok (.vsfuLog2 (FU.dec w))
    else if w &&& 0xFE000FE8#32 = 0x720000A0#32 then .ok (.vsfuSin2pi (FU.dec w))
    else if w &&& 0xFE000FE8#32 = 0x720000C0#32 then .ok (.vsfuCos2pi (FU.dec w))
    else if w &&& 0xFE000FE8#32 = 0x720000E0#32 then .ok (.vsfuTanh (FU.dec w))
    else if w &&& 0xFE000FE8#32 = 0x72000100#32 then .ok (.vsfuSigm (FU.dec w))
    else .error .reservedField) := by
  unfold decodeDefined
  rw [h]
  rfl

theorem decodeDefined_3A (w : BitVec 32) (h : fld w 25 7 = 0x3A#7) : decodeDefined w = (if w &&& 0xFE000FE8#32 = 0x74000000#32 then .ok (.vmov (FU.dec w))
    else if w &&& 0xFE000FE8#32 = 0x74000008#32 then .ok (.vmovPortPush (FU.dec w))
    else if w &&& 0xFE000FE8#32 = 0x74000020#32 then .ok (.vbitNot (FU.dec w))
    else if w &&& 0xFE000FE8#32 = 0x74000040#32 then .ok (.vbitPopc (FU.dec w))
    else if w &&& 0xFE000FE8#32 = 0x74000060#32 then .ok (.vbitClz (FU.dec w))
    else if w &&& 0xFE000FE8#32 = 0x74000080#32 then .ok (.vbitCtz (FU.dec w))
    else if w &&& 0xFE000FE8#32 = 0x740000A0#32 then .ok (.vbitBrev (FU.dec w))
    else if w &&& 0xFE000FE8#32 = 0x740000C0#32 then .ok (.vbitAbsI32 (FU.dec w))
    else if w &&& 0xFE000FE8#32 = 0x740000E0#32 then .ok (.vbitNegI32 (FU.dec w))
    else if w &&& 0xFE000FE8#32 = 0x74000100#32 then .ok (.vbitAbsF32 (FU.dec w))
    else if w &&& 0xFE000FE8#32 = 0x74000120#32 then .ok (.vbitNegF32 (FU.dec w))
    else .error .reservedField) := by
  unfold decodeDefined
  rw [h]
  rfl

theorem decodeDefined_3B (w : BitVec 32) (h : fld w 25 7 = 0x3B#7) : decodeDefined w = (if w &&& 0xFE0007E8#32 = 0x76000000#32 then .ok (.vscanAddI32 (FUx.dec w))
    else if w &&& 0xFE0007E8#32 = 0x76000020#32 then .ok (.vscanAddF32 (FUx.dec w))
    else if w &&& 0xFE0007E8#32 = 0x76000040#32 then .ok (.vscanMinI32 (FUx.dec w))
    else if w &&& 0xFE0007E8#32 = 0x76000060#32 then .ok (.vscanMaxI32 (FUx.dec w))
    else if w &&& 0xFE0007E8#32 = 0x76000080#32 then .ok (.vscanMinN32 (FUx.dec w))
    else if w &&& 0xFE0007E8#32 = 0x760000A0#32 then .ok (.vscanMaxN32 (FUx.dec w))
    else if w &&& 0xFE0007E8#32 = 0x760000C0#32 then .ok (.vscanAnd (FUx.dec w))
    else if w &&& 0xFE0007E8#32 = 0x760000E0#32 then .ok (.vscanOr (FUx.dec w))
    else if w &&& 0xFE0007E8#32 = 0x76000100#32 then .ok (.vscanXor (FUx.dec w))
    else .error .reservedField) := by
  unfold decodeDefined
  rw [h]
  rfl

theorem decodeDefined_3C (w : BitVec 32) (h : fld w 25 7 = 0x3C#7) : decodeDefined w = (if w &&& 0xFE000FF8#32 = 0x78000000#32 then .ok (.vvoteAny (FD.dec w))
    else if w &&& 0xFE000FF8#32 = 0x78000020#32 then .ok (.vvoteAll (FD.dec w))
    else if w &&& 0xFE000FF8#32 = 0x78000040#32 then .ok (.vvoteBallot (FD.dec w))
    else if w &&& 0xFE000FF8#32 = 0x78000060#32 then .ok (.vvoteCount (FD.dec w))
    else if w &&& 0xFE000FF8#32 = 0x78000080#32 then .ok (.vvoteFirst (FD.dec w))
    else .error .reservedField) := by
  unfold decodeDefined
  rw [h]
  rfl

theorem decodeDefined_3D (w : BitVec 32) (h : fld w 25 7 = 0x3D#7) : decodeDefined w = (if w &&& 0xFE000EE8#32 = 0x7A000000#32 then .ok (.vquantE4m3 (FUq.dec w))
    else if w &&& 0xFE000EE8#32 = 0x7A000020#32 then .ok (.vquantE5m2 (FUq.dec w))
    else if w &&& 0xFE000EE8#32 = 0x7A000040#32 then .ok (.vquantE2m1 (FUq.dec w))
    else if w &&& 0xFE000EE8#32 = 0x7A000060#32 then .ok (.vquantI8 (FUq.dec w))
    else if w &&& 0xFE000EE8#32 = 0x7A000080#32 then .ok (.vquantI4 (FUq.dec w))
    else .error .reservedField) := by
  unfold decodeDefined
  rw [h]
  rfl

theorem decodeDefined_3E (w : BitVec 32) (h : fld w 25 7 = 0x3E#7) : decodeDefined w = (if w &&& 0xFE000FF8#32 = 0x7C000000#32 then .ok (.vredAddI32 (FD.dec w))
    else if w &&& 0xFE000FF8#32 = 0x7C000020#32 then .ok (.vredAddF32 (FD.dec w))
    else if w &&& 0xFE000FF8#32 = 0x7C000040#32 then .ok (.vredMinI32 (FD.dec w))
    else if w &&& 0xFE000FF8#32 = 0x7C000060#32 then .ok (.vredMaxI32 (FD.dec w))
    else if w &&& 0xFE000FF8#32 = 0x7C000080#32 then .ok (.vredMinN32 (FD.dec w))
    else if w &&& 0xFE000FF8#32 = 0x7C0000A0#32 then .ok (.vredMaxN32 (FD.dec w))
    else if w &&& 0xFE000FF8#32 = 0x7C0000C0#32 then .ok (.vredAnd (FD.dec w))
    else if w &&& 0xFE000FF8#32 = 0x7C0000E0#32 then .ok (.vredOr (FD.dec w))
    else if w &&& 0xFE000FF8#32 = 0x7C000100#32 then .ok (.vredXor (FD.dec w))
    else .error .reservedField) := by
  unfold decodeDefined
  rw [h]
  rfl

theorem decodeDefined_3F (w : BitVec 32) (h : fld w 25 7 = 0x3F#7) : decodeDefined w = (if w &&& 0xFE000018#32 = 0x7E000008#32 then .ok (.vdropm (FS.dec w))
    else .error .reservedField) := by
  unfold decodeDefined
  rw [h]
  rfl

theorem decodeDefined_40 (w : BitVec 32) (h : fld w 25 7 = 0x40#7) : decodeDefined w = (if w &&& 0xFE000018#32 = 0x80000000#32 then .ok (.sadd (FS.dec w))
    else .error .reservedField) := by
  unfold decodeDefined
  rw [h]
  rfl

theorem decodeDefined_41 (w : BitVec 32) (h : fld w 25 7 = 0x41#7) : decodeDefined w = (if w &&& 0xFE000018#32 = 0x82000000#32 then .ok (.ssub (FS.dec w))
    else .error .reservedField) := by
  unfold decodeDefined
  rw [h]
  rfl

theorem decodeDefined_42 (w : BitVec 32) (h : fld w 25 7 = 0x42#7) : decodeDefined w = (if w &&& 0xFE000018#32 = 0x84000000#32 then .ok (.smul (FS.dec w))
    else .error .reservedField) := by
  unfold decodeDefined
  rw [h]
  rfl

theorem decodeDefined_43 (w : BitVec 32) (h : fld w 25 7 = 0x43#7) : decodeDefined w = (if w &&& 0xFE000018#32 = 0x86000000#32 then .ok (.smulhiN32 (FS.dec w))
    else .error .reservedField) := by
  unfold decodeDefined
  rw [h]
  rfl

theorem decodeDefined_44 (w : BitVec 32) (h : fld w 25 7 = 0x44#7) : decodeDefined w = (if w &&& 0xFE000018#32 = 0x88000000#32 then .ok (.sand (FS.dec w))
    else .error .reservedField) := by
  unfold decodeDefined
  rw [h]
  rfl

theorem decodeDefined_45 (w : BitVec 32) (h : fld w 25 7 = 0x45#7) : decodeDefined w = (if w &&& 0xFE000018#32 = 0x8A000000#32 then .ok (.sor (FS.dec w))
    else .error .reservedField) := by
  unfold decodeDefined
  rw [h]
  rfl

theorem decodeDefined_46 (w : BitVec 32) (h : fld w 25 7 = 0x46#7) : decodeDefined w = (if w &&& 0xFE000018#32 = 0x8C000000#32 then .ok (.sxor (FS.dec w))
    else .error .reservedField) := by
  unfold decodeDefined
  rw [h]
  rfl

theorem decodeDefined_47 (w : BitVec 32) (h : fld w 25 7 = 0x47#7) : decodeDefined w = (if w &&& 0xFE000018#32 = 0x8E000000#32 then .ok (.sshl (FS.dec w))
    else .error .reservedField) := by
  unfold decodeDefined
  rw [h]
  rfl

theorem decodeDefined_48 (w : BitVec 32) (h : fld w 25 7 = 0x48#7) : decodeDefined w = (if w &&& 0xFE000018#32 = 0x90000000#32 then .ok (.sshrN32 (FS.dec w))
    else .error .reservedField) := by
  unfold decodeDefined
  rw [h]
  rfl

theorem decodeDefined_49 (w : BitVec 32) (h : fld w 25 7 = 0x49#7) : decodeDefined w = (if w &&& 0xFE000018#32 = 0x92000000#32 then .ok (.sshrI32 (FS.dec w))
    else .error .reservedField) := by
  unfold decodeDefined
  rw [h]
  rfl

theorem decodeDefined_4A (w : BitVec 32) (h : fld w 25 7 = 0x4A#7) : decodeDefined w = (if w &&& 0xFE000018#32 = 0x94000000#32 then .ok (.sminI32 (FS.dec w))
    else .error .reservedField) := by
  unfold decodeDefined
  rw [h]
  rfl

theorem decodeDefined_4B (w : BitVec 32) (h : fld w 25 7 = 0x4B#7) : decodeDefined w = (if w &&& 0xFE000018#32 = 0x96000000#32 then .ok (.smaxI32 (FS.dec w))
    else .error .reservedField) := by
  unfold decodeDefined
  rw [h]
  rfl

theorem decodeDefined_4C (w : BitVec 32) (h : fld w 25 7 = 0x4C#7) : decodeDefined w = (if w &&& 0xFE000018#32 = 0x98000000#32 then .ok (.sminN32 (FS.dec w))
    else .error .reservedField) := by
  unfold decodeDefined
  rw [h]
  rfl

theorem decodeDefined_4D (w : BitVec 32) (h : fld w 25 7 = 0x4D#7) : decodeDefined w = (if w &&& 0xFE000018#32 = 0x9A000000#32 then .ok (.smaxN32 (FS.dec w))
    else .error .reservedField) := by
  unfold decodeDefined
  rw [h]
  rfl

theorem decodeDefined_4E (w : BitVec 32) (h : fld w 25 7 = 0x4E#7) : decodeDefined w = (if w &&& 0xFE000018#32 = 0x9C000000#32 then .ok (.scltI32 (FS.dec w))
    else .error .reservedField) := by
  unfold decodeDefined
  rw [h]
  rfl

theorem decodeDefined_4F (w : BitVec 32) (h : fld w 25 7 = 0x4F#7) : decodeDefined w = (if w &&& 0xFE000018#32 = 0x9E000000#32 then .ok (.scltN32 (FS.dec w))
    else .error .reservedField) := by
  unfold decodeDefined
  rw [h]
  rfl

theorem decodeDefined_50 (w : BitVec 32) (h : fld w 25 7 = 0x50#7) : decodeDefined w = (.ok (.vaddi (FI.dec w))) := by
  unfold decodeDefined
  rw [h]
  rfl

theorem decodeDefined_51 (w : BitVec 32) (h : fld w 25 7 = 0x51#7) : decodeDefined w = (.ok (.vshli (FI.dec w))) := by
  unfold decodeDefined
  rw [h]
  rfl

theorem decodeDefined_52 (w : BitVec 32) (h : fld w 25 7 = 0x52#7) : decodeDefined w = (if w &&& 0xFE07F000#32 = 0xA4000000#32 then .ok (.vmovi (FIm.dec w))
    else .error .reservedField) := by
  unfold decodeDefined
  rw [h]
  rfl

theorem decodeDefined_53 (w : BitVec 32) (h : fld w 25 7 = 0x53#7) : decodeDefined w = (.ok (.saddi (FI.dec w))) := by
  unfold decodeDefined
  rw [h]
  rfl

theorem decodeDefined_54 (w : BitVec 32) (h : fld w 25 7 = 0x54#7) : decodeDefined w = (.ok (.sandi (FI.dec w))) := by
  unfold decodeDefined
  rw [h]
  rfl

theorem decodeDefined_55 (w : BitVec 32) (h : fld w 25 7 = 0x55#7) : decodeDefined w = (.ok (.sori (FI.dec w))) := by
  unfold decodeDefined
  rw [h]
  rfl

theorem decodeDefined_56 (w : BitVec 32) (h : fld w 25 7 = 0x56#7) : decodeDefined w = (if w &&& 0xFE07F000#32 = 0xAC000000#32 then .ok (.smovi (FIm.dec w))
    else .error .reservedField) := by
  unfold decodeDefined
  rw [h]
  rfl

theorem decodeDefined_57 (w : BitVec 32) (h : fld w 25 7 = 0x57#7) : decodeDefined w = (if w &&& 0xFE000FF8#32 = 0xAE000000#32 then .ok (.smov (FD.dec w))
    else if w &&& 0xFE000FF8#32 = 0xAE000020#32 then .ok (.sbitNot (FD.dec w))
    else if w &&& 0xFE000FF8#32 = 0xAE000040#32 then .ok (.sbitPopc (FD.dec w))
    else if w &&& 0xFE000FF8#32 = 0xAE000060#32 then .ok (.sbitClz (FD.dec w))
    else if w &&& 0xFE000FF8#32 = 0xAE000080#32 then .ok (.sbitCtz (FD.dec w))
    else if w &&& 0xFE000FF8#32 = 0xAE0000A0#32 then .ok (.sbitBrev (FD.dec w))
    else if w &&& 0xFE000FF8#32 = 0xAE0000C0#32 then .ok (.sbitSeqz (FD.dec w))
    else .error .reservedField) := by
  unfold decodeDefined
  rw [h]
  rfl

theorem decodeDefined_58 (w : BitVec 32) (h : fld w 25 7 = 0x58#7) : decodeDefined w = (.ok (.br (FB.dec w))) := by
  unfold decodeDefined
  rw [h]
  rfl

theorem decodeDefined_59 (w : BitVec 32) (h : fld w 25 7 = 0x59#7) : decodeDefined w = (.ok (.brz (FBS.dec w))) := by
  unfold decodeDefined
  rw [h]
  rfl

theorem decodeDefined_5A (w : BitVec 32) (h : fld w 25 7 = 0x5A#7) : decodeDefined w = (.ok (.brnz (FBS.dec w))) := by
  unfold decodeDefined
  rw [h]
  rfl

theorem decodeDefined_5B (w : BitVec 32) (h : fld w 25 7 = 0x5B#7) : decodeDefined w = (.ok (.brd (FBD.dec w))) := by
  unfold decodeDefined
  rw [h]
  rfl

theorem decodeDefined_5C (w : BitVec 32) (h : fld w 25 7 = 0x5C#7) : decodeDefined w = (.ok (.mark (FB.dec w))) := by
  unfold decodeDefined
  rw [h]
  rfl

theorem decodeDefined_5D (w : BitVec 32) (h : fld w 25 7 = 0x5D#7) : decodeDefined w = (if w &&& 0xFFFFFFF8#32 = 0xBA000000#32 then .ok (.join (F0.dec w))
    else .error .reservedField) := by
  unfold decodeDefined
  rw [h]
  rfl

theorem decodeDefined_5E (w : BitVec 32) (h : fld w 25 7 = 0x5E#7) : decodeDefined w = (.ok (.call (FBS.dec w))) := by
  unfold decodeDefined
  rw [h]
  rfl

theorem decodeDefined_5F (w : BitVec 32) (h : fld w 25 7 = 0x5F#7) : decodeDefined w = (if w &&& 0xFE07FFF8#32 = 0xBE000000#32 then .ok (.jr (Fd.dec w))
    else .error .reservedField) := by
  unfold decodeDefined
  rw [h]
  rfl

theorem decodeDefined_60 (w : BitVec 32) (h : fld w 25 7 = 0x60#7) : decodeDefined w = (if w &&& 0xFE000008#32 = 0xC0000000#32 then .ok (.ld (FM.dec w))
    else .error .reservedField) := by
  unfold decodeDefined
  rw [h]
  rfl

theorem decodeDefined_61 (w : BitVec 32) (h : fld w 25 7 = 0x61#7) : decodeDefined w = (if w &&& 0xFE000008#32 = 0xC2000000#32 then .ok (.st (FM.dec w))
    else .error .reservedField) := by
  unfold decodeDefined
  rw [h]
  rfl

theorem decodeDefined_62 (w : BitVec 32) (h : fld w 25 7 = 0x62#7) : decodeDefined w = (if w &&& 0xFE000F88#32 = 0xC4000000#32 then .ok (.ldp (FMp.dec w))
    else .error .reservedField) := by
  unfold decodeDefined
  rw [h]
  rfl

theorem decodeDefined_63 (w : BitVec 32) (h : fld w 25 7 = 0x63#7) : decodeDefined w = (if w &&& 0xFE000F88#32 = 0xC6000000#32 then .ok (.stp (FMp.dec w))
    else .error .reservedField) := by
  unfold decodeDefined
  rw [h]
  rfl

theorem decodeDefined_64 (w : BitVec 32) (h : fld w 25 7 = 0x64#7) : decodeDefined w = (if w &&& 0xFE000008#32 = 0xC8000000#32 then .ok (.ldx (FM.dec w))
    else .error .reservedField) := by
  unfold decodeDefined
  rw [h]
  rfl

theorem decodeDefined_65 (w : BitVec 32) (h : fld w 25 7 = 0x65#7) : decodeDefined w = (if w &&& 0xFE000008#32 = 0xCA000000#32 then .ok (.stx (FM.dec w))
    else .error .reservedField) := by
  unfold decodeDefined
  rw [h]
  rfl

theorem decodeDefined_66 (w : BitVec 32) (h : fld w 25 7 = 0x66#7) : decodeDefined w = (if w &&& 0xFE000008#32 = 0xCC000000#32 then .ok (.sld (FM.dec w))
    else .error .reservedField) := by
  unfold decodeDefined
  rw [h]
  rfl

theorem decodeDefined_67 (w : BitVec 32) (h : fld w 25 7 = 0x67#7) : decodeDefined w = (if w &&& 0xFE000008#32 = 0xCE000000#32 then .ok (.sst (FM.dec w))
    else .error .reservedField) := by
  unfold decodeDefined
  rw [h]
  rfl

theorem decodeDefined_68 (w : BitVec 32) (h : fld w 25 7 = 0x68#7) : decodeDefined w = (.ok (.atom (FA.dec w))) := by
  unfold decodeDefined
  rw [h]
  rfl

theorem decodeDefined_69 (w : BitVec 32) (h : fld w 25 7 = 0x69#7) : decodeDefined w = (.ok (.red (FA.dec w))) := by
  unfold decodeDefined
  rw [h]
  rfl

theorem decodeDefined_6A (w : BitVec 32) (h : fld w 25 7 = 0x6A#7) : decodeDefined w = (.ok (.atomx (FA.dec w))) := by
  unfold decodeDefined
  rw [h]
  rfl

theorem decodeDefined_6B (w : BitVec 32) (h : fld w 25 7 = 0x6B#7) : decodeDefined w = (if w &&& 0xFE000078#32 = 0xD6000000#32 then .ok (.npost (FAn.dec w))
    else .error .reservedField) := by
  unfold decodeDefined
  rw [h]
  rfl

theorem decodeDefined_6C (w : BitVec 32) (h : fld w 25 7 = 0x6C#7) : decodeDefined w = (if w &&& 0xFE000078#32 = 0xD8000000#32 then .ok (.ndone (FAn.dec w))
    else .error .reservedField) := by
  unfold decodeDefined
  rw [h]
  rfl

theorem decodeDefined_6D (w : BitVec 32) (h : fld w 25 7 = 0x6D#7) : decodeDefined w = (if w &&& 0xFE07F078#32 = 0xDA000000#32 then .ok (.nread (FAr.dec w))
    else .error .reservedField) := by
  unfold decodeDefined
  rw [h]
  rfl

theorem decodeDefined_6E (w : BitVec 32) (h : fld w 25 7 = 0x6E#7) : decodeDefined w = (if w &&& 0xFFF80FF8#32 = 0xDC000000#32 then .ok (.cpy (Fa.dec w))
    else .error .reservedField) := by
  unfold decodeDefined
  rw [h]
  rfl

theorem decodeDefined_6F (w : BitVec 32) (h : fld w 25 7 = 0x6F#7) : decodeDefined w = (if w &&& 0xFFF80018#32 = 0xDE000008#32 then .ok (.cpyx (Fab.dec w))
    else .error .reservedField) := by
  unfold decodeDefined
  rw [h]
  rfl

theorem decodeDefined_70 (w : BitVec 32) (h : fld w 25 7 = 0x70#7) : decodeDefined w = (if w &&& 0xFE07FFF8#32 = 0xE0000000#32 then .ok (.bseal (Fd.dec w))
    else .error .reservedField) := by
  unfold decodeDefined
  rw [h]
  rfl

theorem decodeDefined_71 (w : BitVec 32) (h : fld w 25 7 = 0x71#7) : decodeDefined w = (if w &&& 0xFE000FF8#32 = 0xE2000000#32 then .ok (.mpost (FD.dec w))
    else .error .reservedField) := by
  unfold decodeDefined
  rw [h]
  rfl

theorem decodeDefined_72 (w : BitVec 32) (h : fld w 25 7 = 0x72#7) : decodeDefined w = (if w &&& 0xFE000FF8#32 = 0xE4000000#32 then .ok (.sqLd (FD.dec w))
    else if w &&& 0xFE000FF8#32 = 0xE4000020#32 then .ok (.sqSt (FD.dec w))
    else if w &&& 0xFE000FF8#32 = 0xE4000040#32 then .ok (.sqMark (FD.dec w))
    else if w &&& 0xFE000FF8#32 = 0xE4000060#32 then .ok (.sqBack (FD.dec w))
    else if w &&& 0xFE000FF8#32 = 0xE4000080#32 then .ok (.sqFork (FD.dec w))
    else if w &&& 0xFE000FF8#32 = 0xE40000A0#32 then .ok (.sqDrop (FD.dec w))
    else if w &&& 0xFE000FF8#32 = 0xE40000C0#32 then .ok (.sqInfo (FD.dec w))
    else .error .reservedField) := by
  unfold decodeDefined
  rw [h]
  rfl

theorem decodeDefined_73 (w : BitVec 32) (h : fld w 25 7 = 0x73#7) : decodeDefined w = (if w &&& 0xFE000FF8#32 = 0xE6000000#32 then .ok (.spawn (FD.dec w))
    else .error .reservedField) := by
  unfold decodeDefined
  rw [h]
  rfl

theorem decodeDefined_74 (w : BitVec 32) (h : fld w 25 7 = 0x74#7) : decodeDefined w = (if w &&& 0xFE000FF8#32 = 0xE8000000#32 then .ok (.launch (FD.dec w))
    else .error .reservedField) := by
  unfold decodeDefined
  rw [h]
  rfl

theorem decodeDefined_75 (w : BitVec 32) (h : fld w 25 7 = 0x75#7) : decodeDefined w = (if w &&& 0xFFFFFFF8#32 = 0xEA000000#32 then .ok (.chainFix (F0.dec w))
    else if w &&& 0xFFF80FF8#32 = 0xEA000020#32 then .ok (.chainForm (Fa.dec w))
    else if w &&& 0xFE07FFF8#32 = 0xEA000040#32 then .ok (.chainQuery (Fd.dec w))
    else .error .reservedField) := by
  unfold decodeDefined
  rw [h]
  rfl

theorem decodeDefined_76 (w : BitVec 32) (h : fld w 25 7 = 0x76#7) : decodeDefined w = (if w &&& 0xFE000FF8#32 = 0xEC000000#32 then .ok (.cacheL1wb (FD.dec w))
    else if w &&& 0xFE000FF8#32 = 0xEC000020#32 then .ok (.cacheL1inv (FD.dec w))
    else if w &&& 0xFE000FF8#32 = 0xEC000040#32 then .ok (.cacheL1wbinv (FD.dec w))
    else if w &&& 0xFE000FF8#32 = 0xEC000060#32 then .ok (.cacheIcinv (FD.dec w))
    else if w &&& 0xFFFFFFF8#32 = 0xEC000080#32 then .ok (.cacheFetchbar (F0.dec w))
    else if w &&& 0xFE000FF8#32 = 0xEC0000A0#32 then .ok (.cachePref (FD.dec w))
    else .error .reservedField) := by
  unfold decodeDefined
  rw [h]
  rfl

theorem decodeDefined_77 (w : BitVec 32) (h : fld w 25 7 = 0x77#7) : decodeDefined w = (if w &&& 0xFE000FF8#32 = 0xEE000000#32 then .ok (.regroup (FD.dec w))
    else .error .reservedField) := by
  unfold decodeDefined
  rw [h]
  rfl

theorem decodeDefined_78 (w : BitVec 32) (h : fld w 25 7 = 0x78#7) : decodeDefined w = (if w &&& 0xFE0009F8#32 = 0xF0000000#32 then .ok (.barInit (FDc.dec w))
    else if w &&& 0xFE000FF8#32 = 0xF0000020#32 then .ok (.barArrive (FD.dec w))
    else if w &&& 0xFFF80FF8#32 = 0xF0000040#32 then .ok (.barDrop (Fa.dec w))
    else if w &&& 0xFE000FF8#32 = 0xF0000060#32 then .ok (.barQuery (FD.dec w))
    else .error .reservedField) := by
  unfold decodeDefined
  rw [h]
  rfl

theorem decodeDefined_79 (w : BitVec 32) (h : fld w 25 7 = 0x79#7) : decodeDefined w = (if w &&& 0xFFF809F8#32 = 0xF2000000#32 then .ok (.parkWaitc (Fap.dec w))
    else if w &&& 0xFFF80FF8#32 = 0xF2000020#32 then .ok (.parkBwait (Fa.dec w))
    else if w &&& 0xFFF80FF8#32 = 0xF2000040#32 then .ok (.parkWbar (Fa.dec w))
    else if w &&& 0xFE0009F8#32 = 0xF2000060#32 then .ok (.parkWaitm (FDc.dec w))
    else if w &&& 0xFFFFFFF8#32 = 0xF2000080#32 then .ok (.parkYield (F0.dec w))
    else .error .reservedField) := by
  unfold decodeDefined
  rw [h]
  rfl

theorem decodeDefined_7A (w : BitVec 32) (h : fld w 25 7 = 0x7A#7) : decodeDefined w = (if w &&& 0xFE0FFFF8#32 = 0xF4000000#32 then .ok (.fence (FF.dec w))
    else .error .reservedField) := by
  unfold decodeDefined
  rw [h]
  rfl

theorem decodeDefined_7B (w : BitVec 32) (h : fld w 25 7 = 0x7B#7) : decodeDefined w = (if w &&& 0xFFFFFFF8#32 = 0xF6000000#32 then .ok (.nop (F0.dec w))
    else if w &&& 0xFE000FF8#32 = 0xF6000020#32 then .ok (.sysTrap (FT.dec w))
    else if w &&& 0xFFFFFFF8#32 = 0xF6000040#32 then .ok .sysTret
    else if w &&& 0xFFFFFFF8#32 = 0xF6000060#32 then .ok .sysExit
    else if w &&& 0xFE07FFF8#32 = 0xF6000080#32 then .ok (.sysGetst (Fd.dec w))
    else if w &&& 0xFFF80FF8#32 = 0xF60000A0#32 then .ok (.sysSetst (Fa.dec w))
    else if w &&& 0xFFFFFFF8#32 = 0xF60000C0#32 then .ok (.sysDcommit (F0.dec w))
    else if w &&& 0xFFFFFFF8#32 = 0xF60000E0#32 then .ok .sysDabort
    else if w &&& 0xFFF80FF8#32 = 0xF6000100#32 then .ok (.sysRseed (Fa.dec w))
    else .error .reservedField) := by
  unfold decodeDefined
  rw [h]
  rfl

theorem decodeDefined_7C (w : BitVec 32) (h : fld w 25 7 = 0x7C#7) : decodeDefined w = (if w &&& 0xFF800000#32 = 0xF8000000#32 then .ok (.gimm (GImm.dec w))
    else if w &&& 0xFF800FFF#32 = 0xF8800000#32 then .ok (.grep (GRep.dec w))
    else if w &&& 0xFF8007FF#32 = 0xF9000000#32 then .ok (.gmod (GMod.dec w))
    else if w &&& 0xFF800FFF#32 = 0xF9800000#32 then .ok (.gext (GExt.dec w))
    else .error .reservedField) := by
  unfold decodeDefined
  rw [h]
  rfl

theorem decodeDefined_7D (w : BitVec 32) (h : fld w 25 7 = 0x7D#7) : decodeDefined w = (if w &&& 0xFF807FFF#32 = 0xFA000000#32 then .ok (.gstall (GStall.dec w))
    else if w &&& 0xFF80007F#32 = 0xFA800000#32 then .ok (.gscale (GScale.dec w))
    else .error .reservedField) := by
  unfold decodeDefined
  rw [h]
  rfl

theorem decodeHelm_01 (w : BitVec 32) (h : fld w 27 5 = 0x01#5) : decodeHelm w = (if w &&& 0xF8200000#32 = 0x08000000#32 then .ok (.hmovi (HI.dec w))
    else if w &&& 0xF83F0000#32 = 0x08200000#32 then .ok (.hmoviHi (HIh.dec w))
    else .error .reservedField) := by
  unfold decodeHelm
  rw [h]
  rfl

theorem decodeHelm_02 (w : BitVec 32) (h : fld w 27 5 = 0x02#5) : decodeHelm w = (.ok (.hadd (HR.dec w))) := by
  unfold decodeHelm
  rw [h]
  rfl

theorem decodeHelm_03 (w : BitVec 32) (h : fld w 27 5 = 0x03#5) : decodeHelm w = (.ok (.hsub (HR.dec w))) := by
  unfold decodeHelm
  rw [h]
  rfl

theorem decodeHelm_04 (w : BitVec 32) (h : fld w 27 5 = 0x04#5) : decodeHelm w = (.ok (.hshl (HR.dec w))) := by
  unfold decodeHelm
  rw [h]
  rfl

theorem decodeHelm_05 (w : BitVec 32) (h : fld w 27 5 = 0x05#5) : decodeHelm w = (.ok (.hand (HR.dec w))) := by
  unfold decodeHelm
  rw [h]
  rfl

theorem decodeHelm_06 (w : BitVec 32) (h : fld w 27 5 = 0x06#5) : decodeHelm w = (if w &&& 0xFFFFF000#32 = 0x30000000#32 then .ok (.hbr (HJ.dec w))
    else .error .reservedField) := by
  unfold decodeHelm
  rw [h]
  rfl

theorem decodeHelm_07 (w : BitVec 32) (h : fld w 27 5 = 0x07#5) : decodeHelm w = (if w &&& 0xF83FF000#32 = 0x38000000#32 then .ok (.hbrnz (HJa.dec w))
    else .error .reservedField) := by
  unfold decodeHelm
  rw [h]
  rfl

theorem decodeHelm_08 (w : BitVec 32) (h : fld w 27 5 = 0x08#5) : decodeHelm w = (if w &&& 0xF83FF000#32 = 0x40000000#32 then .ok (.hloop (HJa.dec w))
    else .error .reservedField) := by
  unfold decodeHelm
  rw [h]
  rfl

theorem decodeHelm_09 (w : BitVec 32) (h : fld w 27 5 = 0x09#5) : decodeHelm w = (if w &&& 0xFFFFF000#32 = 0x48000000#32 then .ok (.hcall (HJ.dec w))
    else .error .reservedField) := by
  unfold decodeHelm
  rw [h]
  rfl

theorem decodeHelm_0A (w : BitVec 32) (h : fld w 27 5 = 0x0A#5) : decodeHelm w = (if w &&& 0xFFFFFFFF#32 = 0x50000000#32 then .ok .hret
    else .error .reservedField) := by
  unfold decodeHelm
  rw [h]
  rfl

theorem decodeHelm_0B (w : BitVec 32) (h : fld w 27 5 = 0x0B#5) : decodeHelm w = (if w &&& 0xF83FFFFF#32 = 0x58000000#32 then .ok (.mpop (HRd.dec w))
    else .error .reservedField) := by
  unfold decodeHelm
  rw [h]
  rfl

theorem decodeHelm_0C (w : BitVec 32) (h : fld w 27 5 = 0x0C#5) : decodeHelm w = (if w &&& 0xFFC1FFFF#32 = 0x60000000#32 then .ok (.marrive (HRa.dec w))
    else .error .reservedField) := by
  unfold decodeHelm
  rw [h]
  rfl

theorem decodeHelm_0D (w : BitVec 32) (h : fld w 27 5 = 0x0D#5) : decodeHelm w = (if w &&& 0xFFC1FFFF#32 = 0x68000000#32 then .ok (.mwbar (HRa.dec w))
    else .error .reservedField) := by
  unfold decodeHelm
  rw [h]
  rfl

theorem decodeHelm_0E (w : BitVec 32) (h : fld w 27 5 = 0x0E#5) : decodeHelm w = (if w &&& 0xFFC1FFFF#32 = 0x70000000#32 then .ok (.mcopy (HRa.dec w))
    else .error .reservedField) := by
  unfold decodeHelm
  rw [h]
  rfl

theorem decodeHelm_0F (w : BitVec 32) (h : fld w 27 5 = 0x0F#5) : decodeHelm w = (if w &&& 0xFFC1FFFF#32 = 0x78000000#32 then .ok (.mcwait (HRa.dec w))
    else .error .reservedField) := by
  unfold decodeHelm
  rw [h]
  rfl

theorem decodeHelm_10 (w : BitVec 32) (h : fld w 27 5 = 0x10#5) : decodeHelm w = (if w &&& 0xF9FFFFFF#32 = 0x80000000#32 then .ok (.mzero (HT1.dec w))
    else .error .reservedField) := by
  unfold decodeHelm
  rw [h]
  rfl

theorem decodeHelm_11 (w : BitVec 32) (h : fld w 27 5 = 0x11#5) : decodeHelm w = (if w &&& 0xF800001F#32 = 0x88000000#32 then .ok (.mma (HTm.dec w))
    else .error .reservedField) := by
  unfold decodeHelm
  rw [h]
  rfl

theorem decodeHelm_12 (w : BitVec 32) (h : fld w 27 5 = 0x12#5) : decodeHelm w = (if w &&& 0xF80FFFFF#32 = 0x90000000#32 then .ok (.mexp (HTa.dec w))
    else if w &&& 0xFE007FFF#32 = 0x90000001#32 then .ok (.mexpVdiff (HTab.dec w))
    else if w &&& 0xFE0FFFFF#32 = 0x90000002#32 then .ok (.mexpRcp (HTv.dec w))
    else .error .reservedField) := by
  unfold decodeHelm
  rw [h]
  rfl

theorem decodeHelm_13 (w : BitVec 32) (h : fld w 27 5 = 0x13#5) : decodeHelm w = (if w &&& 0xF80FFFFF#32 = 0x98000000#32 then .ok (.mrmax (HTa.dec w))
    else if w &&& 0xF8007FFF#32 = 0x98000001#32 then .ok (.mrmaxKeep (HTtab.dec w))
    else .error .reservedField) := by
  unfold decodeHelm
  rw [h]
  rfl

theorem decodeHelm_14 (w : BitVec 32) (h : fld w 27 5 = 0x14#5) : decodeHelm w = (if w &&& 0xF80FFFFF#32 = 0xA0000000#32 then .ok (.mrsum (HTa.dec w))
    else if w &&& 0xF8007FFF#32 = 0xA0000001#32 then .ok (.mrsumDecay (HTtab.dec w))
    else .error .reservedField) := by
  unfold decodeHelm
  rw [h]
  rfl

theorem decodeHelm_15 (w : BitVec 32) (h : fld w 27 5 = 0x15#5) : decodeHelm w = (if w &&& 0xF80FFFFF#32 = 0xA8000000#32 then .ok (.mscale (HTa.dec w))
    else .error .reservedField) := by
  unfold decodeHelm
  rw [h]
  rfl

theorem decodeHelm_16 (w : BitVec 32) (h : fld w 27 5 = 0x16#5) : decodeHelm w = (if w &&& 0xF8007FFC#32 = 0xB0000000#32 then .ok (.mstore (HTf.dec w))
    else .error .reservedField) := by
  unfold decodeHelm
  rw [h]
  rfl

theorem decodeHelm_17 (w : BitVec 32) (h : fld w 27 5 = 0x17#5) : decodeHelm w = (if w &&& 0xF8000010#32 = 0xB8000000#32 then .ok (.mplane (HTp.dec w))
    else .error .reservedField) := by
  unfold decodeHelm
  rw [h]
  rfl

theorem decodeHelm_18 (w : BitVec 32) (h : fld w 27 5 = 0x18#5) : decodeHelm w = (if w &&& 0xF8007FFC#32 = 0xC0000000#32 then .ok (.mload (HTf.dec w))
    else .error .reservedField) := by
  unfold decodeHelm
  rw [h]
  rfl

theorem decodeHelm_19 (w : BitVec 32) (h : fld w 27 5 = 0x19#5) : decodeHelm w = (if w &&& 0xFFFFFFFF#32 = 0xC8000000#32 then .ok .mfence
    else .error .reservedField) := by
  unfold decodeHelm
  rw [h]
  rfl

theorem decodeHelm_1A (w : BitVec 32) (h : fld w 27 5 = 0x1A#5) : decodeHelm w = (if w &&& 0xFFC1FFFF#32 = 0xD0000000#32 then .ok (.mdone (HRa.dec w))
    else .error .reservedField) := by
  unfold decodeHelm
  rw [h]
  rfl

theorem decodeHelm_1B (w : BitVec 32) (h : fld w 27 5 = 0x1B#5) : decodeHelm w = (if w &&& 0xFFFFFFFF#32 = 0xD8000000#32 then .ok .hnop
    else .error .reservedField) := by
  unfold decodeHelm
  rw [h]
  rfl

theorem decodeHelm_1C (w : BitVec 32) (h : fld w 27 5 = 0x1C#5) : decodeHelm w = (if w &&& 0xFFFFFFFF#32 = 0xE0000000#32 then .ok .hhalt
    else .error .reservedField) := by
  unfold decodeHelm
  rw [h]
  rfl

end Sys2Proof

namespace Sys2Proof.Laws.EncodingRoundTrip
open Sys2Proof

/-- Decoding the word of an instruction gives the instruction back, by the decoder of the words it belongs to. -/
def Statement (i : Instr) : Prop :=
  ∀ w, encode i = some w → (if helmWord i then decodeHelm w = .ok i else decodeGroup w = .ok i)

theorem vaddI32 (o : FR) : Statement (.vaddI32 o) := by
  intro w e
  obtain rfl := Option.some.inj e
  show decodeGroup (0x02000000#32 ||| o.enc) = .ok (.vaddI32 o)
  have m : (0x02000000#32 ||| o.enc) &&& 0xFE000000#32 = 0x02000000#32 := FR.enc_and o _ _ (by decide) (by decide)
  rw [decodeGroup_own m (by decide) (by decide) (by decide), decodeDefined_01 _ (major_of_own _ m (by decide) (by decide)), FR.dec_enc o _ (by decide)]

theorem vsubI32 (o : FR) : Statement (.vsubI32 o) := by
  intro w e
  obtain rfl := Option.some.inj e
  show decodeGroup (0x04000000#32 ||| o.enc) = .ok (.vsubI32 o)
  have m : (0x04000000#32 ||| o.enc) &&& 0xFE000000#32 = 0x04000000#32 := FR.enc_and o _ _ (by decide) (by decide)
  rw [decodeGroup_own m (by decide) (by decide) (by decide), decodeDefined_02 _ (major_of_own _ m (by decide) (by decide)), FR.dec_enc o _ (by decide)]

theorem vmulI32 (o : FR) : Statement (.vmulI32 o) := by
  intro w e
  obtain rfl := Option.some.inj e
  show decodeGroup (0x06000000#32 ||| o.enc) = .ok (.vmulI32 o)
  have m : (0x06000000#32 ||| o.enc) &&& 0xFE000000#32 = 0x06000000#32 := FR.enc_and o _ _ (by decide) (by decide)
  rw [decodeGroup_own m (by decide) (by decide) (by decide), decodeDefined_03 _ (major_of_own _ m (by decide) (by decide)), FR.dec_enc o _ (by decide)]

theorem vmulhiI32 (o : FR) : Statement (.vmulhiI32 o) := by
  intro w e
  obtain rfl := Option.some.inj e
  show decodeGroup (0x08000000#32 ||| o.enc) = .ok (.vmulhiI32 o)
  have m : (0x08000000#32 ||| o.enc) &&& 0xFE000000#32 = 0x08000000#32 := FR.enc_and o _ _ (by decide) (by decide)
  rw [decodeGroup_own m (by decide) (by decide) (by decide), decodeDefined_04 _ (major_of_own _ m (by decide) (by decide)), FR.dec_enc o _ (by decide)]

theorem vmulhiN32 (o : FR) : Statement (.vmulhiN32 o) := by
  intro w e
  obtain rfl := Option.some.inj e
  show decodeGroup (0x0A000000#32 ||| o.enc) = .ok (.vmulhiN32 o)
  have m : (0x0A000000#32 ||| o.enc) &&& 0xFE000000#32 = 0x0A000000#32 := FR.enc_and o _ _ (by decide) (by decide)
  rw [decodeGroup_own m (by decide) (by decide) (by decide), decodeDefined_05 _ (major_of_own _ m (by decide) (by decide)), FR.dec_enc o _ (by decide)]

theorem vmadI32 (o : FR) : Statement (.vmadI32 o) := by
  intro w e
  obtain rfl := Option.some.inj e
  show decodeGroup (0x0C000000#32 ||| o.enc) = .ok (.vmadI32 o)
  have m : (0x0C000000#32 ||| o.enc) &&& 0xFE000000#32 = 0x0C000000#32 := FR.enc_and o _ _ (by decide) (by decide)
  rw [decodeGroup_own m (by decide) (by decide) (by decide), decodeDefined_06 _ (major_of_own _ m (by decide) (by decide)), FR.dec_enc o _ (by decide)]

theorem vminI32 (o : FR) : Statement (.vminI32 o) := by
  intro w e
  obtain rfl := Option.some.inj e
  show decodeGroup (0x0E000000#32 ||| o.enc) = .ok (.vminI32 o)
  have m : (0x0E000000#32 ||| o.enc) &&& 0xFE000000#32 = 0x0E000000#32 := FR.enc_and o _ _ (by decide) (by decide)
  rw [decodeGroup_own m (by decide) (by decide) (by decide), decodeDefined_07 _ (major_of_own _ m (by decide) (by decide)), FR.dec_enc o _ (by decide)]

theorem vmaxI32 (o : FR) : Statement (.vmaxI32 o) := by
  intro w e
  obtain rfl := Option.some.inj e
  show decodeGroup (0x10000000#32 ||| o.enc) = .ok (.vmaxI32 o)
  have m : (0x10000000#32 ||| o.enc) &&& 0xFE000000#32 = 0x10000000#32 := FR.enc_and o _ _ (by decide) (by decide)
  rw [decodeGroup_own m (by decide) (by decide) (by decide), decodeDefined_08 _ (major_of_own _ m (by decide) (by decide)), FR.dec_enc o _ (by decide)]

theorem vminN32 (o : FR) : Statement (.vminN32 o) := by
  intro w e
  obtain rfl := Option.some.inj e
  show decodeGroup (0x12000000#32 ||| o.enc) = .ok (.vminN32 o)
  have m : (0x12000000#32 ||| o.enc) &&& 0xFE000000#32 = 0x12000000#32 := FR.enc_and o _ _ (by decide) (by decide)
  rw [decodeGroup_own m (by decide) (by decide) (by decide), decodeDefined_09 _ (major_of_own _ m (by decide) (by decide)), FR.dec_enc o _ (by decide)]

theorem vmaxN32 (o : FR) : Statement (.vmaxN32 o) := by
  intro w e
  obtain rfl := Option.some.inj e
  show decodeGroup (0x14000000#32 ||| o.enc) = .ok (.vmaxN32 o)
  have m : (0x14000000#32 ||| o.enc) &&& 0xFE000000#32 = 0x14000000#32 := FR.enc_and o _ _ (by decide) (by decide)
  rw [decodeGroup_own m (by decide) (by decide) (by decide), decodeDefined_0A _ (major_of_own _ m (by decide) (by decide)), FR.dec_enc o _ (by decide)]

theorem vand (o : FR) : Statement (.vand o) := by
  intro w e
  obtain rfl := Option.some.inj e
  show decodeGroup (0x16000000#32 ||| o.enc) = .ok (.vand o)
  have m : (0x16000000#32 ||| o.enc) &&& 0xFE000000#32 = 0x16000000#32 := FR.enc_and o _ _ (by decide) (by decide)
  rw [decodeGroup_own m (by decide) (by decide) (by decide), decodeDefined_0B _ (major_of_own _ m (by decide) (by decide)), FR.dec_enc o _ (by decide)]

theorem vor (o : FR) : Statement (.vor o) := by
  intro w e
  obtain rfl := Option.some.inj e
  show decodeGroup (0x18000000#32 ||| o.enc) = .ok (.vor o)
  have m : (0x18000000#32 ||| o.enc) &&& 0xFE000000#32 = 0x18000000#32 := FR.enc_and o _ _ (by decide) (by decide)
  rw [decodeGroup_own m (by decide) (by decide) (by decide), decodeDefined_0C _ (major_of_own _ m (by decide) (by decide)), FR.dec_enc o _ (by decide)]

theorem vxor (o : FR) : Statement (.vxor o) := by
  intro w e
  obtain rfl := Option.some.inj e
  show decodeGroup (0x1A000000#32 ||| o.enc) = .ok (.vxor o)
  have m : (0x1A000000#32 ||| o.enc) &&& 0xFE000000#32 = 0x1A000000#32 := FR.enc_and o _ _ (by decide) (by decide)
  rw [decodeGroup_own m (by decide) (by decide) (by decide), decodeDefined_0D _ (major_of_own _ m (by decide) (by decide)), FR.dec_enc o _ (by decide)]

theorem vandn (o : FR) : Statement (.vandn o) := by
  intro w e
  obtain rfl := Option.some.inj e
  show decodeGroup (0x1C000000#32 ||| o.enc) = .ok (.vandn o)
  have m : (0x1C000000#32 ||| o.enc) &&& 0xFE000000#32 = 0x1C000000#32 := FR.enc_and o _ _ (by decide) (by decide)
  rw [decodeGroup_own m (by decide) (by decide) (by decide), decodeDefined_0E _ (major_of_own _ m (by decide) (by decide)), FR.dec_enc o _ (by decide)]

theorem vshl (o : FR) : Statement (.vshl o) := by
  intro w e
  obtain rfl := Option.some.inj e
  show decodeGroup (0x1E000000#32 ||| o.enc) = .ok (.vshl o)
  have m : (0x1E000000#32 ||| o.enc) &&& 0xFE000000#32 = 0x1E000000#32 := FR.enc_and o _ _ (by decide) (by decide)
  rw [decodeGroup_own m (by decide) (by decide) (by decide), decodeDefined_0F _ (major_of_own _ m (by decide) (by decide)), FR.dec_enc o _ (by decide)]

theorem vshrN32 (o : FR) : Statement (.vshrN32 o) := by
  intro w e
  obtain rfl := Option.some.inj e
  show decodeGroup (0x20000000#32 ||| o.enc) = .ok (.vshrN32 o)
  have m : (0x20000000#32 ||| o.enc) &&& 0xFE000000#32 = 0x20000000#32 := FR.enc_and o _ _ (by decide) (by decide)
  rw [decodeGroup_own m (by decide) (by decide) (by decide), decodeDefined_10 _ (major_of_own _ m (by decide) (by decide)), FR.dec_enc o _ (by decide)]

theorem vshrI32 (o : FR) : Statement (.vshrI32 o) := by
  intro w e
  obtain rfl := Option.some.inj e
  show decodeGroup (0x22000000#32 ||| o.enc) = .ok (.vshrI32 o)
  have m : (0x22000000#32 ||| o.enc) &&& 0xFE000000#32 = 0x22000000#32 := FR.enc_and o _ _ (by decide) (by decide)
  rw [decodeGroup_own m (by decide) (by decide) (by decide), decodeDefined_11 _ (major_of_own _ m (by decide) (by decide)), FR.dec_enc o _ (by decide)]

theorem vrotl (o : FR) : Statement (.vrotl o) := by
  intro w e
  obtain rfl := Option.some.inj e
  show decodeGroup (0x24000000#32 ||| o.enc) = .ok (.vrotl o)
  have m : (0x24000000#32 ||| o.enc) &&& 0xFE000000#32 = 0x24000000#32 := FR.enc_and o _ _ (by decide) (by decide)
  rw [decodeGroup_own m (by decide) (by decide) (by decide), decodeDefined_12 _ (major_of_own _ m (by decide) (by decide)), FR.dec_enc o _ (by decide)]

theorem vsel (o : FR) : Statement (.vsel o) := by
  intro w e
  obtain rfl := Option.some.inj e
  show decodeGroup (0x26000000#32 ||| o.enc) = .ok (.vsel o)
  have m : (0x26000000#32 ||| o.enc) &&& 0xFE000000#32 = 0x26000000#32 := FR.enc_and o _ _ (by decide) (by decide)
  rw [decodeGroup_own m (by decide) (by decide) (by decide), decodeDefined_13 _ (major_of_own _ m (by decide) (by decide)), FR.dec_enc o _ (by decide)]

theorem vcmpI32 (o : FC) : Statement (.vcmpI32 o) := by
  intro w e
  obtain rfl := Option.some.inj e
  show decodeGroup (0x28000000#32 ||| o.enc) = .ok (.vcmpI32 o)
  have m : (0x28000000#32 ||| o.enc) &&& 0xFE000000#32 = 0x28000000#32 := FC.enc_and o _ _ (by decide) (by decide)
  rw [decodeGroup_own m (by decide) (by decide) (by decide), decodeDefined_14 _ (major_of_own _ m (by decide) (by decide)), FC.dec_enc o _ (by decide)]

theorem vcmpN32 (o : FC) : Statement (.vcmpN32 o) := by
  intro w e
  obtain rfl := Option.some.inj e
  show decodeGroup (0x2A000000#32 ||| o.enc) = .ok (.vcmpN32 o)
  have m : (0x2A000000#32 ||| o.enc) &&& 0xFE000000#32 = 0x2A000000#32 := FC.enc_and o _ _ (by decide) (by decide)
  rw [decodeGroup_own m (by decide) (by decide) (by decide), decodeDefined_15 _ (major_of_own _ m (by decide) (by decide)), FC.dec_enc o _ (by decide)]

theorem vcmpF32 (o : FC) : Statement (.vcmpF32 o) := by
  intro w e
  obtain rfl := Option.some.inj e
  show decodeGroup (0x2C000000#32 ||| o.enc) = .ok (.vcmpF32 o)
  have m : (0x2C000000#32 ||| o.enc) &&& 0xFE000000#32 = 0x2C000000#32 := FC.enc_and o _ _ (by decide) (by decide)
  rw [decodeGroup_own m (by decide) (by decide) (by decide), decodeDefined_16 _ (major_of_own _ m (by decide) (by decide)), FC.dec_enc o _ (by decide)]

theorem vcmpF16 (o : FC) : Statement (.vcmpF16 o) := by
  intro w e
  obtain rfl := Option.some.inj e
  show decodeGroup (0x2E000000#32 ||| o.enc) = .ok (.vcmpF16 o)
  have m : (0x2E000000#32 ||| o.enc) &&& 0xFE000000#32 = 0x2E000000#32 := FC.enc_and o _ _ (by decide) (by decide)
  rw [decodeGroup_own m (by decide) (by decide) (by decide), decodeDefined_17 _ (major_of_own _ m (by decide) (by decide)), FC.dec_enc o _ (by decide)]

theorem vbfxN32 (o : FR) : Statement (.vbfxN32 o) := by
  intro w e
  obtain rfl := Option.some.inj e
  show decodeGroup (0x30000000#32 ||| o.enc) = .ok (.vbfxN32 o)
  have m : (0x30000000#32 ||| o.enc) &&& 0xFE000000#32 = 0x30000000#32 := FR.enc_and o _ _ (by decide) (by decide)
  rw [decodeGroup_own m (by decide) (by decide) (by decide), decodeDefined_18 _ (major_of_own _ m (by decide) (by decide)), FR.dec_enc o _ (by decide)]

theorem vbfxI32 (o : FR) : Statement (.vbfxI32 o) := by
  intro w e
  obtain rfl := Option.some.inj e
  show decodeGroup (0x32000000#32 ||| o.enc) = .ok (.vbfxI32 o)
  have m : (0x32000000#32 ||| o.enc) &&& 0xFE000000#32 = 0x32000000#32 := FR.enc_and o _ _ (by decide) (by decide)
  rw [decodeGroup_own m (by decide) (by decide) (by decide), decodeDefined_19 _ (major_of_own _ m (by decide) (by decide)), FR.dec_enc o _ (by decide)]

theorem vbfi (o : FR) : Statement (.vbfi o) := by
  intro w e
  obtain rfl := Option.some.inj e
  show decodeGroup (0x34000000#32 ||| o.enc) = .ok (.vbfi o)
  have m : (0x34000000#32 ||| o.enc) &&& 0xFE000000#32 = 0x34000000#32 := FR.enc_and o _ _ (by decide) (by decide)
  rw [decodeGroup_own m (by decide) (by decide) (by decide), decodeDefined_1A _ (major_of_own _ m (by decide) (by decide)), FR.dec_enc o _ (by decide)]

theorem vperm (o : FR) : Statement (.vperm o) := by
  intro w e
  obtain rfl := Option.some.inj e
  show decodeGroup (0x36000000#32 ||| o.enc) = .ok (.vperm o)
  have m : (0x36000000#32 ||| o.enc) &&& 0xFE000000#32 = 0x36000000#32 := FR.enc_and o _ _ (by decide) (by decide)
  rw [decodeGroup_own m (by decide) (by decide) (by decide), decodeDefined_1B _ (major_of_own _ m (by decide) (by decide)), FR.dec_enc o _ (by decide)]

theorem vaddsatI32 (o : FR) : Statement (.vaddsatI32 o) := by
  intro w e
  obtain rfl := Option.some.inj e
  show decodeGroup (0x38000000#32 ||| o.enc) = .ok (.vaddsatI32 o)
  have m : (0x38000000#32 ||| o.enc) &&& 0xFE000000#32 = 0x38000000#32 := FR.enc_and o _ _ (by decide) (by decide)
  rw [decodeGroup_own m (by decide) (by decide) (by decide), decodeDefined_1C _ (major_of_own _ m (by decide) (by decide)), FR.dec_enc o _ (by decide)]

theorem vsubsatI32 (o : FR) : Statement (.vsubsatI32 o) := by
  intro w e
  obtain rfl := Option.some.inj e
  show decodeGroup (0x3A000000#32 ||| o.enc) = .ok (.vsubsatI32 o)
  have m : (0x3A000000#32 ||| o.enc) &&& 0xFE000000#32 = 0x3A000000#32 := FR.enc_and o _ _ (by decide) (by decide)
  rw [decodeGroup_own m (by decide) (by decide) (by decide), decodeDefined_1D _ (major_of_own _ m (by decide) (by decide)), FR.dec_enc o _ (by decide)]

theorem vpack16 (o : FR) : Statement (.vpack16 o) := by
  intro w e
  obtain rfl := Option.some.inj e
  show decodeGroup (0x3C000000#32 ||| o.enc) = .ok (.vpack16 o)
  have m : (0x3C000000#32 ||| o.enc) &&& 0xFE000000#32 = 0x3C000000#32 := FR.enc_and o _ _ (by decide) (by decide)
  rw [decodeGroup_own m (by decide) (by decide) (by decide), decodeDefined_1E _ (major_of_own _ m (by decide) (by decide)), FR.dec_enc o _ (by decide)]

theorem vshfl (o : FR) : Statement (.vshfl o) := by
  intro w e
  obtain rfl := Option.some.inj e
  show decodeGroup (0x3E000000#32 ||| o.enc) = .ok (.vshfl o)
  have m : (0x3E000000#32 ||| o.enc) &&& 0xFE000000#32 = 0x3E000000#32 := FR.enc_and o _ _ (by decide) (by decide)
  rw [decodeGroup_own m (by decide) (by decide) (by decide), decodeDefined_1F _ (major_of_own _ m (by decide) (by decide)), FR.dec_enc o _ (by decide)]

theorem vaddF32 (o : FR) : Statement (.vaddF32 o) := by
  intro w e
  obtain rfl := Option.some.inj e
  show decodeGroup (0x40000000#32 ||| o.enc) = .ok (.vaddF32 o)
  have m : (0x40000000#32 ||| o.enc) &&& 0xFE000000#32 = 0x40000000#32 := FR.enc_and o _ _ (by decide) (by decide)
  rw [decodeGroup_own m (by decide) (by decide) (by decide), decodeDefined_20 _ (major_of_own _ m (by decide) (by decide)), FR.dec_enc o _ (by decide)]

theorem vsubF32 (o : FR) : Statement (.vsubF32 o) := by
  intro w e
  obtain rfl := Option.some.inj e
  show decodeGroup (0x42000000#32 ||| o.enc) = .ok (.vsubF32 o)
  have m : (0x42000000#32 ||| o.enc) &&& 0xFE000000#32 = 0x42000000#32 := FR.enc_and o _ _ (by decide) (by decide)
  rw [decodeGroup_own m (by decide) (by decide) (by decide), decodeDefined_21 _ (major_of_own _ m (by decide) (by decide)), FR.dec_enc o _ (by decide)]

theorem vmulF32 (o : FR) : Statement (.vmulF32 o) := by
  intro w e
  obtain rfl := Option.some.inj e
  show decodeGroup (0x44000000#32 ||| o.enc) = .ok (.vmulF32 o)
  have m : (0x44000000#32 ||| o.enc) &&& 0xFE000000#32 = 0x44000000#32 := FR.enc_and o _ _ (by decide) (by decide)
  rw [decodeGroup_own m (by decide) (by decide) (by decide), decodeDefined_22 _ (major_of_own _ m (by decide) (by decide)), FR.dec_enc o _ (by decide)]

theorem vfmaF32 (o : FR) : Statement (.vfmaF32 o) := by
  intro w e
  obtain rfl := Option.some.inj e
  show decodeGroup (0x46000000#32 ||| o.enc) = .ok (.vfmaF32 o)
  have m : (0x46000000#32 ||| o.enc) &&& 0xFE000000#32 = 0x46000000#32 := FR.enc_and o _ _ (by decide) (by decide)
  rw [decodeGroup_own m (by decide) (by decide) (by decide), decodeDefined_23 _ (major_of_own _ m (by decide) (by decide)), FR.dec_enc o _ (by decide)]

theorem vminF32 (o : FR) : Statement (.vminF32 o) := by
  intro w e
  obtain rfl := Option.some.inj e
  show decodeGroup (0x48000000#32 ||| o.enc) = .ok (.vminF32 o)
  have m : (0x48000000#32 ||| o.enc) &&& 0xFE000000#32 = 0x48000000#32 := FR.enc_and o _ _ (by decide) (by decide)
  rw [decodeGroup_own m (by decide) (by decide) (by decide), decodeDefined_24 _ (major_of_own _ m (by decide) (by decide)), FR.dec_enc o _ (by decide)]

theorem vmaxF32 (o : FR) : Statement (.vmaxF32 o) := by
  intro w e
  obtain rfl := Option.some.inj e
  show decodeGroup (0x4A000000#32 ||| o.enc) = .ok (.vmaxF32 o)
  have m : (0x4A000000#32 ||| o.enc) &&& 0xFE000000#32 = 0x4A000000#32 := FR.enc_and o _ _ (by decide) (by decide)
  rw [decodeGroup_own m (by decide) (by decide) (by decide), decodeDefined_25 _ (major_of_own _ m (by decide) (by decide)), FR.dec_enc o _ (by decide)]

theorem vaddF16x2 (o : FR) : Statement (.vaddF16x2 o) := by
  intro w e
  obtain rfl := Option.some.inj e
  show decodeGroup (0x4C000000#32 ||| o.enc) = .ok (.vaddF16x2 o)
  have m : (0x4C000000#32 ||| o.enc) &&& 0xFE000000#32 = 0x4C000000#32 := FR.enc_and o _ _ (by decide) (by decide)
  rw [decodeGroup_own m (by decide) (by decide) (by decide), decodeDefined_26 _ (major_of_own _ m (by decide) (by decide)), FR.dec_enc o _ (by decide)]

theorem vmulF16x2 (o : FR) : Statement (.vmulF16x2 o) := by
  intro w e
  obtain rfl := Option.some.inj e
  show decodeGroup (0x4E000000#32 ||| o.enc) = .ok (.vmulF16x2 o)
  have m : (0x4E000000#32 ||| o.enc) &&& 0xFE000000#32 = 0x4E000000#32 := FR.enc_and o _ _ (by decide) (by decide)
  rw [decodeGroup_own m (by decide) (by decide) (by decide), decodeDefined_27 _ (major_of_own _ m (by decide) (by decide)), FR.dec_enc o _ (by decide)]

theorem vfmaF16x2 (o : FR) : Statement (.vfmaF16x2 o) := by
  intro w e
  obtain rfl := Option.some.inj e
  show decodeGroup (0x50000000#32 ||| o.enc) = .ok (.vfmaF16x2 o)
  have m : (0x50000000#32 ||| o.enc) &&& 0xFE000000#32 = 0x50000000#32 := FR.enc_and o _ _ (by decide) (by decide)
  rw [decodeGroup_own m (by decide) (by decide) (by decide), decodeDefined_28 _ (major_of_own _ m (by decide) (by decide)), FR.dec_enc o _ (by decide)]

theorem vaddBf16x2 (o : FR) : Statement (.vaddBf16x2 o) := by
  intro w e
  obtain rfl := Option.some.inj e
  show decodeGroup (0x52000000#32 ||| o.enc) = .ok (.vaddBf16x2 o)
  have m : (0x52000000#32 ||| o.enc) &&& 0xFE000000#32 = 0x52000000#32 := FR.enc_and o _ _ (by decide) (by decide)
  rw [decodeGroup_own m (by decide) (by decide) (by decide), decodeDefined_29 _ (major_of_own _ m (by decide) (by decide)), FR.dec_enc o _ (by decide)]

theorem vmulBf16x2 (o : FR) : Statement (.vmulBf16x2 o) := by
  intro w e
  obtain rfl := Option.some.inj e
  show decodeGroup (0x54000000#32 ||| o.enc) = .ok (.vmulBf16x2 o)
  have m : (0x54000000#32 ||| o.enc) &&& 0xFE000000#32 = 0x54000000#32 := FR.enc_and o _ _ (by decide) (by decide)
  rw [decodeGroup_own m (by decide) (by decide) (by decide), decodeDefined_2A _ (major_of_own _ m (by decide) (by decide)), FR.dec_enc o _ (by decide)]

theorem vfmaBf16x2 (o : FR) : Statement (.vfmaBf16x2 o) := by
  intro w e
  obtain rfl := Option.some.inj e
  show decodeGroup (0x56000000#32 ||| o.enc) = .ok (.vfmaBf16x2 o)
  have m : (0x56000000#32 ||| o.enc) &&& 0xFE000000#32 = 0x56000000#32 := FR.enc_and o _ _ (by decide) (by decide)
  rw [decodeGroup_own m (by decide) (by decide) (by decide), decodeDefined_2B _ (major_of_own _ m (by decide) (by decide)), FR.dec_enc o _ (by decide)]

theorem vldexpF32 (o : FR) : Statement (.vldexpF32 o) := by
  intro w e
  obtain rfl := Option.some.inj e
  show decodeGroup (0x58000000#32 ||| o.enc) = .ok (.vldexpF32 o)
  have m : (0x58000000#32 ||| o.enc) &&& 0xFE000000#32 = 0x58000000#32 := FR.enc_and o _ _ (by decide) (by decide)
  rw [decodeGroup_own m (by decide) (by decide) (by decide), decodeDefined_2C _ (major_of_own _ m (by decide) (by decide)), FR.dec_enc o _ (by decide)]

theorem vcopysignF32 (o : FR) : Statement (.vcopysignF32 o) := by
  intro w e
  obtain rfl := Option.some.inj e
  show decodeGroup (0x5A000000#32 ||| o.enc) = .ok (.vcopysignF32 o)
  have m : (0x5A000000#32 ||| o.enc) &&& 0xFE000000#32 = 0x5A000000#32 := FR.enc_and o _ _ (by decide) (by decide)
  rw [decodeGroup_own m (by decide) (by decide) (by decide), decodeDefined_2D _ (major_of_own _ m (by decide) (by decide)), FR.dec_enc o _ (by decide)]

theorem vminF16x2 (o : FR) : Statement (.vminF16x2 o) := by
  intro w e
  obtain rfl := Option.some.inj e
  show decodeGroup (0x5C000000#32 ||| o.enc) = .ok (.vminF16x2 o)
  have m : (0x5C000000#32 ||| o.enc) &&& 0xFE000000#32 = 0x5C000000#32 := FR.enc_and o _ _ (by decide) (by decide)
  rw [decodeGroup_own m (by decide) (by decide) (by decide), decodeDefined_2E _ (major_of_own _ m (by decide) (by decide)), FR.dec_enc o _ (by decide)]

theorem vmaxF16x2 (o : FR) : Statement (.vmaxF16x2 o) := by
  intro w e
  obtain rfl := Option.some.inj e
  show decodeGroup (0x5E000000#32 ||| o.enc) = .ok (.vmaxF16x2 o)
  have m : (0x5E000000#32 ||| o.enc) &&& 0xFE000000#32 = 0x5E000000#32 := FR.enc_and o _ _ (by decide) (by decide)
  rw [decodeGroup_own m (by decide) (by decide) (by decide), decodeDefined_2F _ (major_of_own _ m (by decide) (by decide)), FR.dec_enc o _ (by decide)]

theorem vdot4E4m3 (o : FR) : Statement (.vdot4E4m3 o) := by
  intro w e
  obtain rfl := Option.some.inj e
  show decodeGroup (0x60000000#32 ||| o.enc) = .ok (.vdot4E4m3 o)
  have m : (0x60000000#32 ||| o.enc) &&& 0xFE000000#32 = 0x60000000#32 := FR.enc_and o _ _ (by decide) (by decide)
  rw [decodeGroup_own m (by decide) (by decide) (by decide), decodeDefined_30 _ (major_of_own _ m (by decide) (by decide)), FR.dec_enc o _ (by decide)]

theorem vdot4E5m2 (o : FR) : Statement (.vdot4E5m2 o) := by
  intro w e
  obtain rfl := Option.some.inj e
  show decodeGroup (0x62000000#32 ||| o.enc) = .ok (.vdot4E5m2 o)
  have m : (0x62000000#32 ||| o.enc) &&& 0xFE000000#32 = 0x62000000#32 := FR.enc_and o _ _ (by decide) (by decide)
  rw [decodeGroup_own m (by decide) (by decide) (by decide), decodeDefined_31 _ (major_of_own _ m (by decide) (by decide)), FR.dec_enc o _ (by decide)]

theorem vdot4I8 (o : FR) : Statement (.vdot4I8 o) := by
  intro w e
  obtain rfl := Option.some.inj e
  show decodeGroup (0x64000000#32 ||| o.enc) = .ok (.vdot4I8 o)
  have m : (0x64000000#32 ||| o.enc) &&& 0xFE000000#32 = 0x64000000#32 := FR.enc_and o _ _ (by decide) (by decide)
  rw [decodeGroup_own m (by decide) (by decide) (by decide), decodeDefined_32 _ (major_of_own _ m (by decide) (by decide)), FR.dec_enc o _ (by decide)]

theorem vdot4N8 (o : FR) : Statement (.vdot4N8 o) := by
  intro w e
  obtain rfl := Option.some.inj e
  show decodeGroup (0x66000000#32 ||| o.enc) = .ok (.vdot4N8 o)
  have m : (0x66000000#32 ||| o.enc) &&& 0xFE000000#32 = 0x66000000#32 := FR.enc_and o _ _ (by decide) (by decide)
  rw [decodeGroup_own m (by decide) (by decide) (by decide), decodeDefined_33 _ (major_of_own _ m (by decide) (by decide)), FR.dec_enc o _ (by decide)]

theorem vdot8E2m1 (o : FR) : Statement (.vdot8E2m1 o) := by
  intro w e
  obtain rfl := Option.some.inj e
  show decodeGroup (0x68000000#32 ||| o.enc) = .ok (.vdot8E2m1 o)
  have m : (0x68000000#32 ||| o.enc) &&& 0xFE000000#32 = 0x68000000#32 := FR.enc_and o _ _ (by decide) (by decide)
  rw [decodeGroup_own m (by decide) (by decide) (by decide), decodeDefined_34 _ (major_of_own _ m (by decide) (by decide)), FR.dec_enc o _ (by decide)]

theorem vdot8I4 (o : FR) : Statement (.vdot8I4 o) := by
  intro w e
  obtain rfl := Option.some.inj e
  show decodeGroup (0x6A000000#32 ||| o.enc) = .ok (.vdot8I4 o)
  have m : (0x6A000000#32 ||| o.enc) &&& 0xFE000000#32 = 0x6A000000#32 := FR.enc_and o _ _ (by decide) (by decide)
  rw [decodeGroup_own m (by decide) (by decide) (by decide), decodeDefined_35 _ (major_of_own _ m (by decide) (by decide)), FR.dec_enc o _ (by decide)]

theorem vdot2Bf16 (o : FR) : Statement (.vdot2Bf16 o) := by
  intro w e
  obtain rfl := Option.some.inj e
  show decodeGroup (0x6C000000#32 ||| o.enc) = .ok (.vdot2Bf16 o)
  have m : (0x6C000000#32 ||| o.enc) &&& 0xFE000000#32 = 0x6C000000#32 := FR.enc_and o _ _ (by decide) (by decide)
  rw [decodeGroup_own m (by decide) (by decide) (by decide), decodeDefined_36 _ (major_of_own _ m (by decide) (by decide)), FR.dec_enc o _ (by decide)]

theorem vdot2F16 (o : FR) : Statement (.vdot2F16 o) := by
  intro w e
  obtain rfl := Option.some.inj e
  show decodeGroup (0x6E000000#32 ||| o.enc) = .ok (.vdot2F16 o)
  have m : (0x6E000000#32 ||| o.enc) &&& 0xFE000000#32 = 0x6E000000#32 := FR.enc_and o _ _ (by decide) (by decide)
  rw [decodeGroup_own m (by decide) (by decide) (by decide), decodeDefined_37 _ (major_of_own _ m (by decide) (by decide)), FR.dec_enc o _ (by decide)]

theorem vcvtI32F32 (o : FUm) : Statement (.vcvtI32F32 o) := by
  intro w e
  obtain rfl := Option.some.inj e
  show decodeGroup (0x70000000#32 ||| o.enc) = .ok (.vcvtI32F32 o)
  have m : (0x70000000#32 ||| o.enc) &&& 0xFE000F88#32 = 0x70000000#32 := FUm.enc_and o _ _ (by decide) (by decide)
  rw [decodeGroup_own m (by decide) (by decide) (by decide), decodeDefined_38 _ (major_of_own _ m (by decide) (by decide)), if_pos m, FUm.dec_enc o _ (by decide)]

theorem vcvtN32F32 (o : FUm) : Statement (.vcvtN32F32 o) := by
  intro w e
  obtain rfl := Option.some.inj e
  show decodeGroup (0x70000080#32 ||| o.enc) = .ok (.vcvtN32F32 o)
  have m : (0x70000080#32 ||| o.enc) &&& 0xFE000F88#32 = 0x70000080#32 := FUm.enc_and o _ _ (by decide) (by decide)
  rw [decodeGroup_own m (by decide) (by decide) (by decide), decodeDefined_38 _ (major_of_own _ m (by decide) (by decide)), if_neg (not_arm m (by decide)), if_pos m, FUm.dec_enc o _ (by decide)]

theorem vcvtF32I32 (o : FU) : Statement (.vcvtF32I32 o) := by
  intro w e
  obtain rfl := Option.some.inj e
  show decodeGroup (0x70000100#32 ||| o.enc) = .ok (.vcvtF32I32 o)
  have m : (0x70000100#32 ||| o.enc) &&& 0xFE000FE8#32 = 0x70000100#32 := FU.enc_and o _ _ (by decide) (by decide)
  rw [decodeGroup_own m (by decide) (by decide) (by decide), decodeDefined_38 _ (major_of_own _ m (by decide) (by decide)), if_neg (not_arm m (by decide)), if_neg (not_arm m (by decide)), if_pos m, FU.dec_enc o _ (by decide)]

theorem vcvtF32N32 (o : FU) : Statement (.vcvtF32N32 o) := by
  intro w e
  obtain rfl := Option.some.inj e
  show decodeGroup (0x70000120#32 ||| o.enc) = .ok (.vcvtF32N32 o)
  have m : (0x70000120#32 ||| o.enc) &&& 0xFE000FE8#32 = 0x70000120#32 := FU.enc_and o _ _ (by decide) (by decide)
  rw [decodeGroup_own m (by decide) (by decide) (by decide), decodeDefined_38 _ (major_of_own _ m (by decide) (by decide)), if_neg (not_arm m (by decide)), if_neg (not_arm m (by decide)), if_neg (not_arm m (by decide)), if_pos m, FU.dec_enc o _ (by decide)]

theorem vcvtF16F32 (o : FU) : Statement (.vcvtF16F32 o) := by
  intro w e
  obtain rfl := Option.some.inj e
  show decodeGroup (0x70000140#32 ||| o.enc) = .ok (.vcvtF16F32 o)
  have m : (0x70000140#32 ||| o.enc) &&& 0xFE000FE8#32 = 0x70000140#32 := FU.enc_and o _ _ (by decide) (by decide)
  rw [decodeGroup_own m (by decide) (by decide) (by decide), decodeDefined_38 _ (major_of_own _ m (by decide) (by decide)), if_neg (not_arm m (by decide)), if_neg (not_arm m (by decide)), if_neg (not_arm m (by decide)), if_neg (not_arm m (by decide)), if_pos m, FU.dec_enc o _ (by decide)]

theorem vcvtBf16F32 (o : FU) : Statement (.vcvtBf16F32 o) := by
  intro w e
  obtain rfl := Option.some.inj e
  show decodeGroup (0x70000160#32 ||| o.enc) = .ok (.vcvtBf16F32 o)
  have m : (0x70000160#32 ||| o.enc) &&& 0xFE000FE8#32 = 0x70000160#32 := FU.enc_and o _ _ (by decide) (by decide)
  rw [decodeGroup_own m (by decide) (by decide) (by decide), decodeDefined_38 _ (major_of_own _ m (by decide) (by decide)), if_neg (not_arm m (by decide)), if_neg (not_arm m (by decide)), if_neg (not_arm m (by decide)), if_neg (not_arm m (by decide)), if_neg (not_arm m (by decide)), if_pos m, FU.dec_enc o _ (by decide)]

theorem vcvtF32F16 (o : FU) : Statement (.vcvtF32F16 o) := by
  intro w e
  obtain rfl := Option.some.inj e
  show decodeGroup (0x70000180#32 ||| o.enc) = .ok (.vcvtF32F16 o)
  have m : (0x70000180#32 ||| o.enc) &&& 0xFE000FE8#32 = 0x70000180#32 := FU.enc_and o _ _ (by decide) (by decide)
  rw [decodeGroup_own m (by decide) (by decide) (by decide), decodeDefined_38 _ (major_of_own _ m (by decide) (by decide)), if_neg (not_arm m (by decide)), if_neg (not_arm m (by decide)), if_neg (not_arm m (by decide)), if_neg (not_arm m (by decide)), if_neg (not_arm m (by decide)), if_neg (not_arm m (by decide)), if_pos m, FU.dec_enc o _ (by decide)]

theorem vcvtF32Bf16 (o : FU) : Statement (.vcvtF32Bf16 o) := by
  intro w e
  obtain rfl := Option.some.inj e
  show decodeGroup (0x700001A0#32 ||| o.enc) = .ok (.vcvtF32Bf16 o)
  have m : (0x700001A0#32 ||| o.enc) &&& 0xFE000FE8#32 = 0x700001A0#32 := FU.enc_and o _ _ (by decide) (by decide)
  rw [decodeGroup_own m (by decide) (by decide) (by decide), decodeDefined_38 _ (major_of_own _ m (by decide) (by decide)), if_neg (not_arm m (by decide)), if_neg (not_arm m (by decide)), if_neg (not_arm m (by decide)), if_neg (not_arm m (by decide)), if_neg (not_arm m (by decide)), if_neg (not_arm m (by decide)), if_neg (not_arm m (by decide)), if_pos m, FU.dec_enc o _ (by decide)]

theorem vcvtE4m3F32 (o : FUrb) : Statement (.vcvtE4m3F32 o) := by
  intro w e
  obtain rfl := Option.some.inj e
  show decodeGroup (0x70000200#32 ||| o.enc) = .ok (.vcvtE4m3F32 o)
  have m : (0x70000200#32 ||| o.enc) &&& 0xFE000B88#32 = 0x70000200#32 := FUrb.enc_and o _ _ (by decide) (by decide)
  rw [decodeGroup_own m (by decide) (by decide) (by decide), decodeDefined_38 _ (major_of_own _ m (by decide) (by decide)), if_neg (not_arm m (by decide)), if_neg (not_arm m (by decide)), if_neg (not_arm m (by decide)), if_neg (not_arm m (by decide)), if_neg (not_arm m (by decide)), if_neg (not_arm m (by decide)), if_neg (not_arm m (by decide)), if_neg (not_arm m (by decide)), if_pos m, FUrb.dec_enc o _ (by decide)]

theorem vcvtE5m2F32 (o : FUrb) : Statement (.vcvtE5m2F32 o) := by
  intro w e
  obtain rfl := Option.some.inj e
  show decodeGroup (0x70000280#32 ||| o.enc) = .ok (.vcvtE5m2F32 o)
  have m : (0x70000280#32 ||| o.enc) &&& 0xFE000B88#32 = 0x70000280#32 := FUrb.enc_and o _ _ (by decide) (by decide)
  rw [decodeGroup_own m (by decide) (by decide) (by decide), decodeDefined_38 _ (major_of_own _ m (by decide) (by decide)), if_neg (not_arm m (by decide)), if_neg (not_arm m (by decide)), if_neg (not_arm m (by decide)), if_neg (not_arm m (by decide)), if_neg (not_arm m (by decide)), if_neg (not_arm m (by decide)), if_neg (not_arm m (by decide)), if_neg (not_arm m (by decide)), if_neg (not_arm m (by decide)), if_pos m, FUrb.dec_enc o _ (by decide)]

theorem vcvtE2m1F32 (o : FUrn) : Statement (.vcvtE2m1F32 o) := by
  intro w e
  obtain rfl := Option.some.inj e
  show decodeGroup (0x70000300#32 ||| o.enc) = .ok (.vcvtE2m1F32 o)
  have m : (0x70000300#32 ||| o.enc) &&& 0xFE000B08#32 = 0x70000300#32 := FUrn.enc_and o _ _ (by decide) (by decide)
  rw [decodeGroup_own m (by decide) (by decide) (by decide), decodeDefined_38 _ (major_of_own _ m (by decide) (by decide)), if_neg (not_arm m (by decide)), if_neg (not_arm m (by decide)), if_neg (not_arm m (by decide)), if_neg (not_arm m (by decide)), if_neg (not_arm m (by decide)), if_neg (not_arm m (by decide)), if_neg (not_arm m (by decide)), if_neg (not_arm m (by decide)), if_neg (not_arm m (by decide)), if_neg (not_arm m (by decide)), if_pos m, FUrn.dec_enc o _ (by decide)]

theorem vcvtF32E4m3 (o : FUb) : Statement (.vcvtF32E4m3 o) := by
  intro w e
  obtain rfl := Option.some.inj e
  show decodeGroup (0x70000400#32 ||| o.enc) = .ok (.vcvtF32E4m3 o)
  have m : (0x70000400#32 ||| o.enc) &&& 0xFE000F88#32 = 0x70000400#32 := FUb.enc_and o _ _ (by decide) (by decide)
  rw [decodeGroup_own m (by decide) (by decide) (by decide), decodeDefined_38 _ (major_of_own _ m (by decide) (by decide)), if_neg (not_arm m (by decide)), if_neg (not_arm m (by decide)), if_neg (not_arm m (by decide)), if_neg (not_arm m (by decide)), if_neg (not_arm m (by decide)), if_neg (not_arm m (by decide)), if_neg (not_arm m (by decide)), if_neg (not_arm m (by decide)), if_neg (not_arm m (by decide)), if_neg (not_arm m (by decide)), if_neg (not_arm m (by decide)), if_pos m, FUb.dec_enc o _ (by decide)]

theorem vcvtF32E5m2 (o : FUb) : Statement (.vcvtF32E5m2 o) := by
  intro w e
  obtain rfl := Option.some.inj e
  show decodeGroup (0x70000480#32 ||| o.enc) = .ok (.vcvtF32E5m2 o)
  have m : (0x70000480#32 ||| o.enc) &&& 0xFE000F88#32 = 0x70000480#32 := FUb.enc_and o _ _ (by decide) (by decide)
  rw [decodeGroup_own m (by decide) (by decide) (by decide), decodeDefined_38 _ (major_of_own _ m (by decide) (by decide)), if_neg (not_arm m (by decide)), if_neg (not_arm m (by decide)), if_neg (not_arm m (by decide)), if_neg (not_arm m (by decide)), if_neg (not_arm m (by decide)), if_neg (not_arm m (by decide)), if_neg (not_arm m (by decide)), if_neg (not_arm m (by decide)), if_neg (not_arm m (by decide)), if_neg (not_arm m (by decide)), if_neg (not_arm m (by decide)), if_neg (not_arm m (by decide)), if_pos m, FUb.dec_enc o _ (by decide)]

theorem vcvtF32E2m1 (o : FUn) : Statement (.vcvtF32E2m1 o) := by
  intro w e
  obtain rfl := Option.some.inj e
  show decodeGroup (0x70000500#32 ||| o.enc) = .ok (.vcvtF32E2m1 o)
  have m : (0x70000500#32 ||| o.enc) &&& 0xFE000F08#32 = 0x70000500#32 := FUn.enc_and o _ _ (by decide) (by decide)
  rw [decodeGroup_own m (by decide) (by decide) (by decide), decodeDefined_38 _ (major_of_own _ m (by decide) (by decide)), if_neg (not_arm m (by decide)), if_neg (not_arm m (by decide)), if_neg (not_arm m (by decide)), if_neg (not_arm m (by decide)), if_neg (not_arm m (by decide)), if_neg (not_arm m (by decide)), if_neg (not_arm m (by decide)), if_neg (not_arm m (by decide)), if_neg (not_arm m (by decide)), if_neg (not_arm m (by decide)), if_neg (not_arm m (by decide)), if_neg (not_arm m (by decide)), if_neg (not_arm m (by decide)), if_pos m, FUn.dec_enc o _ (by decide)]

theorem vsfuRcp (o : FU) : Statement (.vsfuRcp o) := by
  intro w e
  obtain rfl := Option.some.inj e
  show decodeGroup (0x72000000#32 ||| o.enc) = .ok (.vsfuRcp o)
  have m : (0x72000000#32 ||| o.enc) &&& 0xFE000FE8#32 = 0x72000000#32 := FU.enc_and o _ _ (by decide) (by decide)
  rw [decodeGroup_own m (by decide) (by decide) (by decide), decodeDefined_39 _ (major_of_own _ m (by decide) (by decide)), if_pos m, FU.dec_enc o _ (by decide)]

theorem vsfuRsq (o : FU) : Statement (.vsfuRsq o) := by
  intro w e
  obtain rfl := Option.some.inj e
  show decodeGroup (0x72000020#32 ||| o.enc) = .ok (.vsfuRsq o)
  have m : (0x72000020#32 ||| o.enc) &&& 0xFE000FE8#32 = 0x72000020#32 := FU.enc_and o _ _ (by decide) (by decide)
  rw [decodeGroup_own m (by decide) (by decide) (by decide), decodeDefined_39 _ (major_of_own _ m (by decide) (by decide)), if_neg (not_arm m (by decide)), if_pos m, FU.dec_enc o _ (by decide)]

theorem vsfuSqrt (o : FU) : Statement (.vsfuSqrt o) := by
  intro w e
  obtain rfl := Option.some.inj e
  show decodeGroup (0x72000040#32 ||| o.enc) = .ok (.vsfuSqrt o)
  have m : (0x72000040#32 ||| o.enc) &&& 0xFE000FE8#32 = 0x72000040#32 := FU.enc_and o _ _ (by decide) (by decide)
  rw [decodeGroup_own m (by decide) (by decide) (by decide), decodeDefined_39 _ (major_of_own _ m (by decide) (by decide)), if_neg (not_arm m (by decide)), if_neg (not_arm m (by decide)), if_pos m, FU.dec_enc o _ (by decide)]

theorem vsfuExp2 (o : FU) : Statement (.vsfuExp2 o) := by
  intro w e
  obtain rfl := Option.some.inj e
  show decodeGroup (0x72000060#32 ||| o.enc) = .ok (.vsfuExp2 o)
  have m : (0x72000060#32 ||| o.enc) &&& 0xFE000FE8#32 = 0x72000060#32 := FU.enc_and o _ _ (by decide) (by decide)
  rw [decodeGroup_own m (by decide) (by decide) (by decide), decodeDefined_39 _ (major_of_own _ m (by decide) (by decide)), if_neg (not_arm m (by decide)), if_neg (not_arm m (by decide)), if_neg (not_arm m (by decide)), if_pos m, FU.dec_enc o _ (by decide)]

theorem vsfuLog2 (o : FU) : Statement (.vsfuLog2 o) := by
  intro w e
  obtain rfl := Option.some.inj e
  show decodeGroup (0x72000080#32 ||| o.enc) = .ok (.vsfuLog2 o)
  have m : (0x72000080#32 ||| o.enc) &&& 0xFE000FE8#32 = 0x72000080#32 := FU.enc_and o _ _ (by decide) (by decide)
  rw [decodeGroup_own m (by decide) (by decide) (by decide), decodeDefined_39 _ (major_of_own _ m (by decide) (by decide)), if_neg (not_arm m (by decide)), if_neg (not_arm m (by decide)), if_neg (not_arm m (by decide)), if_neg (not_arm m (by decide)), if_pos m, FU.dec_enc o _ (by decide)]

theorem vsfuSin2pi (o : FU) : Statement (.vsfuSin2pi o) := by
  intro w e
  obtain rfl := Option.some.inj e
  show decodeGroup (0x720000A0#32 ||| o.enc) = .ok (.vsfuSin2pi o)
  have m : (0x720000A0#32 ||| o.enc) &&& 0xFE000FE8#32 = 0x720000A0#32 := FU.enc_and o _ _ (by decide) (by decide)
  rw [decodeGroup_own m (by decide) (by decide) (by decide), decodeDefined_39 _ (major_of_own _ m (by decide) (by decide)), if_neg (not_arm m (by decide)), if_neg (not_arm m (by decide)), if_neg (not_arm m (by decide)), if_neg (not_arm m (by decide)), if_neg (not_arm m (by decide)), if_pos m, FU.dec_enc o _ (by decide)]

theorem vsfuCos2pi (o : FU) : Statement (.vsfuCos2pi o) := by
  intro w e
  obtain rfl := Option.some.inj e
  show decodeGroup (0x720000C0#32 ||| o.enc) = .ok (.vsfuCos2pi o)
  have m : (0x720000C0#32 ||| o.enc) &&& 0xFE000FE8#32 = 0x720000C0#32 := FU.enc_and o _ _ (by decide) (by decide)
  rw [decodeGroup_own m (by decide) (by decide) (by decide), decodeDefined_39 _ (major_of_own _ m (by decide) (by decide)), if_neg (not_arm m (by decide)), if_neg (not_arm m (by decide)), if_neg (not_arm m (by decide)), if_neg (not_arm m (by decide)), if_neg (not_arm m (by decide)), if_neg (not_arm m (by decide)), if_pos m, FU.dec_enc o _ (by decide)]

theorem vsfuTanh (o : FU) : Statement (.vsfuTanh o) := by
  intro w e
  obtain rfl := Option.some.inj e
  show decodeGroup (0x720000E0#32 ||| o.enc) = .ok (.vsfuTanh o)
  have m : (0x720000E0#32 ||| o.enc) &&& 0xFE000FE8#32 = 0x720000E0#32 := FU.enc_and o _ _ (by decide) (by decide)
  rw [decodeGroup_own m (by decide) (by decide) (by decide), decodeDefined_39 _ (major_of_own _ m (by decide) (by decide)), if_neg (not_arm m (by decide)), if_neg (not_arm m (by decide)), if_neg (not_arm m (by decide)), if_neg (not_arm m (by decide)), if_neg (not_arm m (by decide)), if_neg (not_arm m (by decide)), if_neg (not_arm m (by decide)), if_pos m, FU.dec_enc o _ (by decide)]

theorem vsfuSigm (o : FU) : Statement (.vsfuSigm o) := by
  intro w e
  obtain rfl := Option.some.inj e
  show decodeGroup (0x72000100#32 ||| o.enc) = .ok (.vsfuSigm o)
  have m : (0x72000100#32 ||| o.enc) &&& 0xFE000FE8#32 = 0x72000100#32 := FU.enc_and o _ _ (by decide) (by decide)
  rw [decodeGroup_own m (by decide) (by decide) (by decide), decodeDefined_39 _ (major_of_own _ m (by decide) (by decide)), if_neg (not_arm m (by decide)), if_neg (not_arm m (by decide)), if_neg (not_arm m (by decide)), if_neg (not_arm m (by decide)), if_neg (not_arm m (by decide)), if_neg (not_arm m (by decide)), if_neg (not_arm m (by decide)), if_neg (not_arm m (by decide)), if_pos m, FU.dec_enc o _ (by decide)]

theorem vmov (o : FU) : Statement (.vmov o) := by
  intro w e
  obtain rfl := Option.some.inj e
  show decodeGroup (0x74000000#32 ||| o.enc) = .ok (.vmov o)
  have m : (0x74000000#32 ||| o.enc) &&& 0xFE000FE8#32 = 0x74000000#32 := FU.enc_and o _ _ (by decide) (by decide)
  rw [decodeGroup_own m (by decide) (by decide) (by decide), decodeDefined_3A _ (major_of_own _ m (by decide) (by decide)), if_pos m, FU.dec_enc o _ (by decide)]

theorem vmovPortPush (o : FU) : Statement (.vmovPortPush o) := by
  intro w e
  obtain rfl := Option.some.inj e
  show decodeGroup (0x74000008#32 ||| o.enc) = .ok (.vmovPortPush o)
  have m : (0x74000008#32 ||| o.enc) &&& 0xFE000FE8#32 = 0x74000008#32 := FU.enc_and o _ _ (by decide) (by decide)
  rw [decodeGroup_own m (by decide) (by decide) (by decide), decodeDefined_3A _ (major_of_own _ m (by decide) (by decide)), if_neg (not_arm m (by decide)), if_pos m, FU.dec_enc o _ (by decide)]

theorem vbitNot (o : FU) : Statement (.vbitNot o) := by
  intro w e
  obtain rfl := Option.some.inj e
  show decodeGroup (0x74000020#32 ||| o.enc) = .ok (.vbitNot o)
  have m : (0x74000020#32 ||| o.enc) &&& 0xFE000FE8#32 = 0x74000020#32 := FU.enc_and o _ _ (by decide) (by decide)
  rw [decodeGroup_own m (by decide) (by decide) (by decide), decodeDefined_3A _ (major_of_own _ m (by decide) (by decide)), if_neg (not_arm m (by decide)), if_neg (not_arm m (by decide)), if_pos m, FU.dec_enc o _ (by decide)]

theorem vbitPopc (o : FU) : Statement (.vbitPopc o) := by
  intro w e
  obtain rfl := Option.some.inj e
  show decodeGroup (0x74000040#32 ||| o.enc) = .ok (.vbitPopc o)
  have m : (0x74000040#32 ||| o.enc) &&& 0xFE000FE8#32 = 0x74000040#32 := FU.enc_and o _ _ (by decide) (by decide)
  rw [decodeGroup_own m (by decide) (by decide) (by decide), decodeDefined_3A _ (major_of_own _ m (by decide) (by decide)), if_neg (not_arm m (by decide)), if_neg (not_arm m (by decide)), if_neg (not_arm m (by decide)), if_pos m, FU.dec_enc o _ (by decide)]

theorem vbitClz (o : FU) : Statement (.vbitClz o) := by
  intro w e
  obtain rfl := Option.some.inj e
  show decodeGroup (0x74000060#32 ||| o.enc) = .ok (.vbitClz o)
  have m : (0x74000060#32 ||| o.enc) &&& 0xFE000FE8#32 = 0x74000060#32 := FU.enc_and o _ _ (by decide) (by decide)
  rw [decodeGroup_own m (by decide) (by decide) (by decide), decodeDefined_3A _ (major_of_own _ m (by decide) (by decide)), if_neg (not_arm m (by decide)), if_neg (not_arm m (by decide)), if_neg (not_arm m (by decide)), if_neg (not_arm m (by decide)), if_pos m, FU.dec_enc o _ (by decide)]

theorem vbitCtz (o : FU) : Statement (.vbitCtz o) := by
  intro w e
  obtain rfl := Option.some.inj e
  show decodeGroup (0x74000080#32 ||| o.enc) = .ok (.vbitCtz o)
  have m : (0x74000080#32 ||| o.enc) &&& 0xFE000FE8#32 = 0x74000080#32 := FU.enc_and o _ _ (by decide) (by decide)
  rw [decodeGroup_own m (by decide) (by decide) (by decide), decodeDefined_3A _ (major_of_own _ m (by decide) (by decide)), if_neg (not_arm m (by decide)), if_neg (not_arm m (by decide)), if_neg (not_arm m (by decide)), if_neg (not_arm m (by decide)), if_neg (not_arm m (by decide)), if_pos m, FU.dec_enc o _ (by decide)]

theorem vbitBrev (o : FU) : Statement (.vbitBrev o) := by
  intro w e
  obtain rfl := Option.some.inj e
  show decodeGroup (0x740000A0#32 ||| o.enc) = .ok (.vbitBrev o)
  have m : (0x740000A0#32 ||| o.enc) &&& 0xFE000FE8#32 = 0x740000A0#32 := FU.enc_and o _ _ (by decide) (by decide)
  rw [decodeGroup_own m (by decide) (by decide) (by decide), decodeDefined_3A _ (major_of_own _ m (by decide) (by decide)), if_neg (not_arm m (by decide)), if_neg (not_arm m (by decide)), if_neg (not_arm m (by decide)), if_neg (not_arm m (by decide)), if_neg (not_arm m (by decide)), if_neg (not_arm m (by decide)), if_pos m, FU.dec_enc o _ (by decide)]

theorem vbitAbsI32 (o : FU) : Statement (.vbitAbsI32 o) := by
  intro w e
  obtain rfl := Option.some.inj e
  show decodeGroup (0x740000C0#32 ||| o.enc) = .ok (.vbitAbsI32 o)
  have m : (0x740000C0#32 ||| o.enc) &&& 0xFE000FE8#32 = 0x740000C0#32 := FU.enc_and o _ _ (by decide) (by decide)
  rw [decodeGroup_own m (by decide) (by decide) (by decide), decodeDefined_3A _ (major_of_own _ m (by decide) (by decide)), if_neg (not_arm m (by decide)), if_neg (not_arm m (by decide)), if_neg (not_arm m (by decide)), if_neg (not_arm m (by decide)), if_neg (not_arm m (by decide)), if_neg (not_arm m (by decide)), if_neg (not_arm m (by decide)), if_pos m, FU.dec_enc o _ (by decide)]

theorem vbitNegI32 (o : FU) : Statement (.vbitNegI32 o) := by
  intro w e
  obtain rfl := Option.some.inj e
  show decodeGroup (0x740000E0#32 ||| o.enc) = .ok (.vbitNegI32 o)
  have m : (0x740000E0#32 ||| o.enc) &&& 0xFE000FE8#32 = 0x740000E0#32 := FU.enc_and o _ _ (by decide) (by decide)
  rw [decodeGroup_own m (by decide) (by decide) (by decide), decodeDefined_3A _ (major_of_own _ m (by decide) (by decide)), if_neg (not_arm m (by decide)), if_neg (not_arm m (by decide)), if_neg (not_arm m (by decide)), if_neg (not_arm m (by decide)), if_neg (not_arm m (by decide)), if_neg (not_arm m (by decide)), if_neg (not_arm m (by decide)), if_neg (not_arm m (by decide)), if_pos m, FU.dec_enc o _ (by decide)]

theorem vbitAbsF32 (o : FU) : Statement (.vbitAbsF32 o) := by
  intro w e
  obtain rfl := Option.some.inj e
  show decodeGroup (0x74000100#32 ||| o.enc) = .ok (.vbitAbsF32 o)
  have m : (0x74000100#32 ||| o.enc) &&& 0xFE000FE8#32 = 0x74000100#32 := FU.enc_and o _ _ (by decide) (by decide)
  rw [decodeGroup_own m (by decide) (by decide) (by decide), decodeDefined_3A _ (major_of_own _ m (by decide) (by decide)), if_neg (not_arm m (by decide)), if_neg (not_arm m (by decide)), if_neg (not_arm m (by decide)), if_neg (not_arm m (by decide)), if_neg (not_arm m (by decide)), if_neg (not_arm m (by decide)), if_neg (not_arm m (by decide)), if_neg (not_arm m (by decide)), if_neg (not_arm m (by decide)), if_pos m, FU.dec_enc o _ (by decide)]

theorem vbitNegF32 (o : FU) : Statement (.vbitNegF32 o) := by
  intro w e
  obtain rfl := Option.some.inj e
  show decodeGroup (0x74000120#32 ||| o.enc) = .ok (.vbitNegF32 o)
  have m : (0x74000120#32 ||| o.enc) &&& 0xFE000FE8#32 = 0x74000120#32 := FU.enc_and o _ _ (by decide) (by decide)
  rw [decodeGroup_own m (by decide) (by decide) (by decide), decodeDefined_3A _ (major_of_own _ m (by decide) (by decide)), if_neg (not_arm m (by decide)), if_neg (not_arm m (by decide)), if_neg (not_arm m (by decide)), if_neg (not_arm m (by decide)), if_neg (not_arm m (by decide)), if_neg (not_arm m (by decide)), if_neg (not_arm m (by decide)), if_neg (not_arm m (by decide)), if_neg (not_arm m (by decide)), if_neg (not_arm m (by decide)), if_pos m, FU.dec_enc o _ (by decide)]

theorem vscanAddI32 (o : FUx) : Statement (.vscanAddI32 o) := by
  intro w e
  obtain rfl := Option.some.inj e
  show decodeGroup (0x76000000#32 ||| o.enc) = .ok (.vscanAddI32 o)
  have m : (0x76000000#32 ||| o.enc) &&& 0xFE0007E8#32 = 0x76000000#32 := FUx.enc_and o _ _ (by decide) (by decide)
  rw [decodeGroup_own m (by decide) (by decide) (by decide), decodeDefined_3B _ (major_of_own _ m (by decide) (by decide)), if_pos m, FUx.dec_enc o _ (by decide)]

theorem vscanAddF32 (o : FUx) : Statement (.vscanAddF32 o) := by
  intro w e
  obtain rfl := Option.some.inj e
  show decodeGroup (0x76000020#32 ||| o.enc) = .ok (.vscanAddF32 o)
  have m : (0x76000020#32 ||| o.enc) &&& 0xFE0007E8#32 = 0x76000020#32 := FUx.enc_and o _ _ (by decide) (by decide)
  rw [decodeGroup_own m (by decide) (by decide) (by decide), decodeDefined_3B _ (major_of_own _ m (by decide) (by decide)), if_neg (not_arm m (by decide)), if_pos m, FUx.dec_enc o _ (by decide)]

theorem vscanMinI32 (o : FUx) : Statement (.vscanMinI32 o) := by
  intro w e
  obtain rfl := Option.some.inj e
  show decodeGroup (0x76000040#32 ||| o.enc) = .ok (.vscanMinI32 o)
  have m : (0x76000040#32 ||| o.enc) &&& 0xFE0007E8#32 = 0x76000040#32 := FUx.enc_and o _ _ (by decide) (by decide)
  rw [decodeGroup_own m (by decide) (by decide) (by decide), decodeDefined_3B _ (major_of_own _ m (by decide) (by decide)), if_neg (not_arm m (by decide)), if_neg (not_arm m (by decide)), if_pos m, FUx.dec_enc o _ (by decide)]

theorem vscanMaxI32 (o : FUx) : Statement (.vscanMaxI32 o) := by
  intro w e
  obtain rfl := Option.some.inj e
  show decodeGroup (0x76000060#32 ||| o.enc) = .ok (.vscanMaxI32 o)
  have m : (0x76000060#32 ||| o.enc) &&& 0xFE0007E8#32 = 0x76000060#32 := FUx.enc_and o _ _ (by decide) (by decide)
  rw [decodeGroup_own m (by decide) (by decide) (by decide), decodeDefined_3B _ (major_of_own _ m (by decide) (by decide)), if_neg (not_arm m (by decide)), if_neg (not_arm m (by decide)), if_neg (not_arm m (by decide)), if_pos m, FUx.dec_enc o _ (by decide)]

theorem vscanMinN32 (o : FUx) : Statement (.vscanMinN32 o) := by
  intro w e
  obtain rfl := Option.some.inj e
  show decodeGroup (0x76000080#32 ||| o.enc) = .ok (.vscanMinN32 o)
  have m : (0x76000080#32 ||| o.enc) &&& 0xFE0007E8#32 = 0x76000080#32 := FUx.enc_and o _ _ (by decide) (by decide)
  rw [decodeGroup_own m (by decide) (by decide) (by decide), decodeDefined_3B _ (major_of_own _ m (by decide) (by decide)), if_neg (not_arm m (by decide)), if_neg (not_arm m (by decide)), if_neg (not_arm m (by decide)), if_neg (not_arm m (by decide)), if_pos m, FUx.dec_enc o _ (by decide)]

theorem vscanMaxN32 (o : FUx) : Statement (.vscanMaxN32 o) := by
  intro w e
  obtain rfl := Option.some.inj e
  show decodeGroup (0x760000A0#32 ||| o.enc) = .ok (.vscanMaxN32 o)
  have m : (0x760000A0#32 ||| o.enc) &&& 0xFE0007E8#32 = 0x760000A0#32 := FUx.enc_and o _ _ (by decide) (by decide)
  rw [decodeGroup_own m (by decide) (by decide) (by decide), decodeDefined_3B _ (major_of_own _ m (by decide) (by decide)), if_neg (not_arm m (by decide)), if_neg (not_arm m (by decide)), if_neg (not_arm m (by decide)), if_neg (not_arm m (by decide)), if_neg (not_arm m (by decide)), if_pos m, FUx.dec_enc o _ (by decide)]

theorem vscanAnd (o : FUx) : Statement (.vscanAnd o) := by
  intro w e
  obtain rfl := Option.some.inj e
  show decodeGroup (0x760000C0#32 ||| o.enc) = .ok (.vscanAnd o)
  have m : (0x760000C0#32 ||| o.enc) &&& 0xFE0007E8#32 = 0x760000C0#32 := FUx.enc_and o _ _ (by decide) (by decide)
  rw [decodeGroup_own m (by decide) (by decide) (by decide), decodeDefined_3B _ (major_of_own _ m (by decide) (by decide)), if_neg (not_arm m (by decide)), if_neg (not_arm m (by decide)), if_neg (not_arm m (by decide)), if_neg (not_arm m (by decide)), if_neg (not_arm m (by decide)), if_neg (not_arm m (by decide)), if_pos m, FUx.dec_enc o _ (by decide)]

theorem vscanOr (o : FUx) : Statement (.vscanOr o) := by
  intro w e
  obtain rfl := Option.some.inj e
  show decodeGroup (0x760000E0#32 ||| o.enc) = .ok (.vscanOr o)
  have m : (0x760000E0#32 ||| o.enc) &&& 0xFE0007E8#32 = 0x760000E0#32 := FUx.enc_and o _ _ (by decide) (by decide)
  rw [decodeGroup_own m (by decide) (by decide) (by decide), decodeDefined_3B _ (major_of_own _ m (by decide) (by decide)), if_neg (not_arm m (by decide)), if_neg (not_arm m (by decide)), if_neg (not_arm m (by decide)), if_neg (not_arm m (by decide)), if_neg (not_arm m (by decide)), if_neg (not_arm m (by decide)), if_neg (not_arm m (by decide)), if_pos m, FUx.dec_enc o _ (by decide)]

theorem vscanXor (o : FUx) : Statement (.vscanXor o) := by
  intro w e
  obtain rfl := Option.some.inj e
  show decodeGroup (0x76000100#32 ||| o.enc) = .ok (.vscanXor o)
  have m : (0x76000100#32 ||| o.enc) &&& 0xFE0007E8#32 = 0x76000100#32 := FUx.enc_and o _ _ (by decide) (by decide)
  rw [decodeGroup_own m (by decide) (by decide) (by decide), decodeDefined_3B _ (major_of_own _ m (by decide) (by decide)), if_neg (not_arm m (by decide)), if_neg (not_arm m (by decide)), if_neg (not_arm m (by decide)), if_neg (not_arm m (by decide)), if_neg (not_arm m (by decide)), if_neg (not_arm m (by decide)), if_neg (not_arm m (by decide)), if_neg (not_arm m (by decide)), if_pos m, FUx.dec_enc o _ (by decide)]

theorem vvoteAny (o : FD) : Statement (.vvoteAny o) := by
  intro w e
  obtain rfl := Option.some.inj e
  show decodeGroup (0x78000000#32 ||| o.enc) = .ok (.vvoteAny o)
  have m : (0x78000000#32 ||| o.enc) &&& 0xFE000FF8#32 = 0x78000000#32 := FD.enc_and o _ _ (by decide) (by decide)
  rw [decodeGroup_own m (by decide) (by decide) (by decide), decodeDefined_3C _ (major_of_own _ m (by decide) (by decide)), if_pos m, FD.dec_enc o _ (by decide)]

theorem vvoteAll (o : FD) : Statement (.vvoteAll o) := by
  intro w e
  obtain rfl := Option.some.inj e
  show decodeGroup (0x78000020#32 ||| o.enc) = .ok (.vvoteAll o)
  have m : (0x78000020#32 ||| o.enc) &&& 0xFE000FF8#32 = 0x78000020#32 := FD.enc_and o _ _ (by decide) (by decide)
  rw [decodeGroup_own m (by decide) (by decide) (by decide), decodeDefined_3C _ (major_of_own _ m (by decide) (by decide)), if_neg (not_arm m (by decide)), if_pos m, FD.dec_enc o _ (by decide)]

theorem vvoteBallot (o : FD) : Statement (.vvoteBallot o) := by
  intro w e
  obtain rfl := Option.some.inj e
  show decodeGroup (0x78000040#32 ||| o.enc) = .ok (.vvoteBallot o)
  have m : (0x78000040#32 ||| o.enc) &&& 0xFE000FF8#32 = 0x78000040#32 := FD.enc_and o _ _ (by decide) (by decide)
  rw [decodeGroup_own m (by decide) (by decide) (by decide), decodeDefined_3C _ (major_of_own _ m (by decide) (by decide)), if_neg (not_arm m (by decide)), if_neg (not_arm m (by decide)), if_pos m, FD.dec_enc o _ (by decide)]

theorem vvoteCount (o : FD) : Statement (.vvoteCount o) := by
  intro w e
  obtain rfl := Option.some.inj e
  show decodeGroup (0x78000060#32 ||| o.enc) = .ok (.vvoteCount o)
  have m : (0x78000060#32 ||| o.enc) &&& 0xFE000FF8#32 = 0x78000060#32 := FD.enc_and o _ _ (by decide) (by decide)
  rw [decodeGroup_own m (by decide) (by decide) (by decide), decodeDefined_3C _ (major_of_own _ m (by decide) (by decide)), if_neg (not_arm m (by decide)), if_neg (not_arm m (by decide)), if_neg (not_arm m (by decide)), if_pos m, FD.dec_enc o _ (by decide)]

theorem vvoteFirst (o : FD) : Statement (.vvoteFirst o) := by
  intro w e
  obtain rfl := Option.some.inj e
  show decodeGroup (0x78000080#32 ||| o.enc) = .ok (.vvoteFirst o)
  have m : (0x78000080#32 ||| o.enc) &&& 0xFE000FF8#32 = 0x78000080#32 := FD.enc_and o _ _ (by decide) (by decide)
  rw [decodeGroup_own m (by decide) (by decide) (by decide), decodeDefined_3C _ (major_of_own _ m (by decide) (by decide)), if_neg (not_arm m (by decide)), if_neg (not_arm m (by decide)), if_neg (not_arm m (by decide)), if_neg (not_arm m (by decide)), if_pos m, FD.dec_enc o _ (by decide)]

theorem vquantE4m3 (o : FUq) : Statement (.vquantE4m3 o) := by
  intro w e
  obtain rfl := Option.some.inj e
  show decodeGroup (0x7A000000#32 ||| o.enc) = .ok (.vquantE4m3 o)
  have m : (0x7A000000#32 ||| o.enc) &&& 0xFE000EE8#32 = 0x7A000000#32 := FUq.enc_and o _ _ (by decide) (by decide)
  rw [decodeGroup_own m (by decide) (by decide) (by decide), decodeDefined_3D _ (major_of_own _ m (by decide) (by decide)), if_pos m, FUq.dec_enc o _ (by decide)]

theorem vquantE5m2 (o : FUq) : Statement (.vquantE5m2 o) := by
  intro w e
  obtain rfl := Option.some.inj e
  show decodeGroup (0x7A000020#32 ||| o.enc) = .ok (.vquantE5m2 o)
  have m : (0x7A000020#32 ||| o.enc) &&& 0xFE000EE8#32 = 0x7A000020#32 := FUq.enc_and o _ _ (by decide) (by decide)
  rw [decodeGroup_own m (by decide) (by decide) (by decide), decodeDefined_3D _ (major_of_own _ m (by decide) (by decide)), if_neg (not_arm m (by decide)), if_pos m, FUq.dec_enc o _ (by decide)]

theorem vquantE2m1 (o : FUq) : Statement (.vquantE2m1 o) := by
  intro w e
  obtain rfl := Option.some.inj e
  show decodeGroup (0x7A000040#32 ||| o.enc) = .ok (.vquantE2m1 o)
  have m : (0x7A000040#32 ||| o.enc) &&& 0xFE000EE8#32 = 0x7A000040#32 := FUq.enc_and o _ _ (by decide) (by decide)
  rw [decodeGroup_own m (by decide) (by decide) (by decide), decodeDefined_3D _ (major_of_own _ m (by decide) (by decide)), if_neg (not_arm m (by decide)), if_neg (not_arm m (by decide)), if_pos m, FUq.dec_enc o _ (by decide)]

theorem vquantI8 (o : FUq) : Statement (.vquantI8 o) := by
  intro w e
  obtain rfl := Option.some.inj e
  show decodeGroup (0x7A000060#32 ||| o.enc) = .ok (.vquantI8 o)
  have m : (0x7A000060#32 ||| o.enc) &&& 0xFE000EE8#32 = 0x7A000060#32 := FUq.enc_and o _ _ (by decide) (by decide)
  rw [decodeGroup_own m (by decide) (by decide) (by decide), decodeDefined_3D _ (major_of_own _ m (by decide) (by decide)), if_neg (not_arm m (by decide)), if_neg (not_arm m (by decide)), if_neg (not_arm m (by decide)), if_pos m, FUq.dec_enc o _ (by decide)]

theorem vquantI4 (o : FUq) : Statement (.vquantI4 o) := by
  intro w e
  obtain rfl := Option.some.inj e
  show decodeGroup (0x7A000080#32 ||| o.enc) = .ok (.vquantI4 o)
  have m : (0x7A000080#32 ||| o.enc) &&& 0xFE000EE8#32 = 0x7A000080#32 := FUq.enc_and o _ _ (by decide) (by decide)
  rw [decodeGroup_own m (by decide) (by decide) (by decide), decodeDefined_3D _ (major_of_own _ m (by decide) (by decide)), if_neg (not_arm m (by decide)), if_neg (not_arm m (by decide)), if_neg (not_arm m (by decide)), if_neg (not_arm m (by decide)), if_pos m, FUq.dec_enc o _ (by decide)]

theorem vredAddI32 (o : FD) : Statement (.vredAddI32 o) := by
  intro w e
  obtain rfl := Option.some.inj e
  show decodeGroup (0x7C000000#32 ||| o.enc) = .ok (.vredAddI32 o)
  have m : (0x7C000000#32 ||| o.enc) &&& 0xFE000FF8#32 = 0x7C000000#32 := FD.enc_and o _ _ (by decide) (by decide)
  rw [decodeGroup_own m (by decide) (by decide) (by decide), decodeDefined_3E _ (major_of_own _ m (by decide) (by decide)), if_pos m, FD.dec_enc o _ (by decide)]

theorem vredAddF32 (o : FD) : Statement (.vredAddF32 o) := by
  intro w e
  obtain rfl := Option.some.inj e
  show decodeGroup (0x7C000020#32 ||| o.enc) = .ok (.vredAddF32 o)
  have m : (0x7C000020#32 ||| o.enc) &&& 0xFE000FF8#32 = 0x7C000020#32 := FD.enc_and o _ _ (by decide) (by decide)
  rw [decodeGroup_own m (by decide) (by decide) (by decide), decodeDefined_3E _ (major_of_own _ m (by decide) (by decide)), if_neg (not_arm m (by decide)), if_pos m, FD.dec_enc o _ (by decide)]

theorem vredMinI32 (o : FD) : Statement (.vredMinI32 o) := by
  intro w e
  obtain rfl := Option.some.inj e
  show decodeGroup (0x7C000040#32 ||| o.enc) = .ok (.vredMinI32 o)
  have m : (0x7C000040#32 ||| o.enc) &&& 0xFE000FF8#32 = 0x7C000040#32 := FD.enc_and o _ _ (by decide) (by decide)
  rw [decodeGroup_own m (by decide) (by decide) (by decide), decodeDefined_3E _ (major_of_own _ m (by decide) (by decide)), if_neg (not_arm m (by decide)), if_neg (not_arm m (by decide)), if_pos m, FD.dec_enc o _ (by decide)]

theorem vredMaxI32 (o : FD) : Statement (.vredMaxI32 o) := by
  intro w e
  obtain rfl := Option.some.inj e
  show decodeGroup (0x7C000060#32 ||| o.enc) = .ok (.vredMaxI32 o)
  have m : (0x7C000060#32 ||| o.enc) &&& 0xFE000FF8#32 = 0x7C000060#32 := FD.enc_and o _ _ (by decide) (by decide)
  rw [decodeGroup_own m (by decide) (by decide) (by decide), decodeDefined_3E _ (major_of_own _ m (by decide) (by decide)), if_neg (not_arm m (by decide)), if_neg (not_arm m (by decide)), if_neg (not_arm m (by decide)), if_pos m, FD.dec_enc o _ (by decide)]

theorem vredMinN32 (o : FD) : Statement (.vredMinN32 o) := by
  intro w e
  obtain rfl := Option.some.inj e
  show decodeGroup (0x7C000080#32 ||| o.enc) = .ok (.vredMinN32 o)
  have m : (0x7C000080#32 ||| o.enc) &&& 0xFE000FF8#32 = 0x7C000080#32 := FD.enc_and o _ _ (by decide) (by decide)
  rw [decodeGroup_own m (by decide) (by decide) (by decide), decodeDefined_3E _ (major_of_own _ m (by decide) (by decide)), if_neg (not_arm m (by decide)), if_neg (not_arm m (by decide)), if_neg (not_arm m (by decide)), if_neg (not_arm m (by decide)), if_pos m, FD.dec_enc o _ (by decide)]

theorem vredMaxN32 (o : FD) : Statement (.vredMaxN32 o) := by
  intro w e
  obtain rfl := Option.some.inj e
  show decodeGroup (0x7C0000A0#32 ||| o.enc) = .ok (.vredMaxN32 o)
  have m : (0x7C0000A0#32 ||| o.enc) &&& 0xFE000FF8#32 = 0x7C0000A0#32 := FD.enc_and o _ _ (by decide) (by decide)
  rw [decodeGroup_own m (by decide) (by decide) (by decide), decodeDefined_3E _ (major_of_own _ m (by decide) (by decide)), if_neg (not_arm m (by decide)), if_neg (not_arm m (by decide)), if_neg (not_arm m (by decide)), if_neg (not_arm m (by decide)), if_neg (not_arm m (by decide)), if_pos m, FD.dec_enc o _ (by decide)]

theorem vredAnd (o : FD) : Statement (.vredAnd o) := by
  intro w e
  obtain rfl := Option.some.inj e
  show decodeGroup (0x7C0000C0#32 ||| o.enc) = .ok (.vredAnd o)
  have m : (0x7C0000C0#32 ||| o.enc) &&& 0xFE000FF8#32 = 0x7C0000C0#32 := FD.enc_and o _ _ (by decide) (by decide)
  rw [decodeGroup_own m (by decide) (by decide) (by decide), decodeDefined_3E _ (major_of_own _ m (by decide) (by decide)), if_neg (not_arm m (by decide)), if_neg (not_arm m (by decide)), if_neg (not_arm m (by decide)), if_neg (not_arm m (by decide)), if_neg (not_arm m (by decide)), if_neg (not_arm m (by decide)), if_pos m, FD.dec_enc o _ (by decide)]

theorem vredOr (o : FD) : Statement (.vredOr o) := by
  intro w e
  obtain rfl := Option.some.inj e
  show decodeGroup (0x7C0000E0#32 ||| o.enc) = .ok (.vredOr o)
  have m : (0x7C0000E0#32 ||| o.enc) &&& 0xFE000FF8#32 = 0x7C0000E0#32 := FD.enc_and o _ _ (by decide) (by decide)
  rw [decodeGroup_own m (by decide) (by decide) (by decide), decodeDefined_3E _ (major_of_own _ m (by decide) (by decide)), if_neg (not_arm m (by decide)), if_neg (not_arm m (by decide)), if_neg (not_arm m (by decide)), if_neg (not_arm m (by decide)), if_neg (not_arm m (by decide)), if_neg (not_arm m (by decide)), if_neg (not_arm m (by decide)), if_pos m, FD.dec_enc o _ (by decide)]

theorem vredXor (o : FD) : Statement (.vredXor o) := by
  intro w e
  obtain rfl := Option.some.inj e
  show decodeGroup (0x7C000100#32 ||| o.enc) = .ok (.vredXor o)
  have m : (0x7C000100#32 ||| o.enc) &&& 0xFE000FF8#32 = 0x7C000100#32 := FD.enc_and o _ _ (by decide) (by decide)
  rw [decodeGroup_own m (by decide) (by decide) (by decide), decodeDefined_3E _ (major_of_own _ m (by decide) (by decide)), if_neg (not_arm m (by decide)), if_neg (not_arm m (by decide)), if_neg (not_arm m (by decide)), if_neg (not_arm m (by decide)), if_neg (not_arm m (by decide)), if_neg (not_arm m (by decide)), if_neg (not_arm m (by decide)), if_neg (not_arm m (by decide)), if_pos m, FD.dec_enc o _ (by decide)]

theorem vdropm (o : FS) : Statement (.vdropm o) := by
  intro w e
  obtain rfl := Option.some.inj e
  show decodeGroup (0x7E000008#32 ||| o.enc) = .ok (.vdropm o)
  have m : (0x7E000008#32 ||| o.enc) &&& 0xFE000018#32 = 0x7E000008#32 := FS.enc_and o _ _ (by decide) (by decide)
  rw [decodeGroup_own m (by decide) (by decide) (by decide), decodeDefined_3F _ (major_of_own _ m (by decide) (by decide)), if_pos m, FS.dec_enc o _ (by decide)]

theorem sadd (o : FS) : Statement (.sadd o) := by
  intro w e
  obtain rfl := Option.some.inj e
  show decodeGroup (0x80000000#32 ||| o.enc) = .ok (.sadd o)
  have m : (0x80000000#32 ||| o.enc) &&& 0xFE000018#32 = 0x80000000#32 := FS.enc_and o _ _ (by decide) (by decide)
  rw [decodeGroup_own m (by decide) (by decide) (by decide), decodeDefined_40 _ (major_of_own _ m (by decide) (by decide)), if_pos m, FS.dec_enc o _ (by decide)]

theorem ssub (o : FS) : Statement (.ssub o) := by
  intro w e
  obtain rfl := Option.some.inj e
  show decodeGroup (0x82000000#32 ||| o.enc) = .ok (.ssub o)
  have m : (0x82000000#32 ||| o.enc) &&& 0xFE000018#32 = 0x82000000#32 := FS.enc_and o _ _ (by decide) (by decide)
  rw [decodeGroup_own m (by decide) (by decide) (by decide), decodeDefined_41 _ (major_of_own _ m (by decide) (by decide)), if_pos m, FS.dec_enc o _ (by decide)]

theorem smul (o : FS) : Statement (.smul o) := by
  intro w e
  obtain rfl := Option.some.inj e
  show decodeGroup (0x84000000#32 ||| o.enc) = .ok (.smul o)
  have m : (0x84000000#32 ||| o.enc) &&& 0xFE000018#32 = 0x84000000#32 := FS.enc_and o _ _ (by decide) (by decide)
  rw [decodeGroup_own m (by decide) (by decide) (by decide), decodeDefined_42 _ (major_of_own _ m (by decide) (by decide)), if_pos m, FS.dec_enc o _ (by decide)]

theorem smulhiN32 (o : FS) : Statement (.smulhiN32 o) := by
  intro w e
  obtain rfl := Option.some.inj e
  show decodeGroup (0x86000000#32 ||| o.enc) = .ok (.smulhiN32 o)
  have m : (0x86000000#32 ||| o.enc) &&& 0xFE000018#32 = 0x86000000#32 := FS.enc_and o _ _ (by decide) (by decide)
  rw [decodeGroup_own m (by decide) (by decide) (by decide), decodeDefined_43 _ (major_of_own _ m (by decide) (by decide)), if_pos m, FS.dec_enc o _ (by decide)]

theorem sand (o : FS) : Statement (.sand o) := by
  intro w e
  obtain rfl := Option.some.inj e
  show decodeGroup (0x88000000#32 ||| o.enc) = .ok (.sand o)
  have m : (0x88000000#32 ||| o.enc) &&& 0xFE000018#32 = 0x88000000#32 := FS.enc_and o _ _ (by decide) (by decide)
  rw [decodeGroup_own m (by decide) (by decide) (by decide), decodeDefined_44 _ (major_of_own _ m (by decide) (by decide)), if_pos m, FS.dec_enc o _ (by decide)]

theorem sor (o : FS) : Statement (.sor o) := by
  intro w e
  obtain rfl := Option.some.inj e
  show decodeGroup (0x8A000000#32 ||| o.enc) = .ok (.sor o)
  have m : (0x8A000000#32 ||| o.enc) &&& 0xFE000018#32 = 0x8A000000#32 := FS.enc_and o _ _ (by decide) (by decide)
  rw [decodeGroup_own m (by decide) (by decide) (by decide), decodeDefined_45 _ (major_of_own _ m (by decide) (by decide)), if_pos m, FS.dec_enc o _ (by decide)]

theorem sxor (o : FS) : Statement (.sxor o) := by
  intro w e
  obtain rfl := Option.some.inj e
  show decodeGroup (0x8C000000#32 ||| o.enc) = .ok (.sxor o)
  have m : (0x8C000000#32 ||| o.enc) &&& 0xFE000018#32 = 0x8C000000#32 := FS.enc_and o _ _ (by decide) (by decide)
  rw [decodeGroup_own m (by decide) (by decide) (by decide), decodeDefined_46 _ (major_of_own _ m (by decide) (by decide)), if_pos m, FS.dec_enc o _ (by decide)]

theorem sshl (o : FS) : Statement (.sshl o) := by
  intro w e
  obtain rfl := Option.some.inj e
  show decodeGroup (0x8E000000#32 ||| o.enc) = .ok (.sshl o)
  have m : (0x8E000000#32 ||| o.enc) &&& 0xFE000018#32 = 0x8E000000#32 := FS.enc_and o _ _ (by decide) (by decide)
  rw [decodeGroup_own m (by decide) (by decide) (by decide), decodeDefined_47 _ (major_of_own _ m (by decide) (by decide)), if_pos m, FS.dec_enc o _ (by decide)]

theorem sshrN32 (o : FS) : Statement (.sshrN32 o) := by
  intro w e
  obtain rfl := Option.some.inj e
  show decodeGroup (0x90000000#32 ||| o.enc) = .ok (.sshrN32 o)
  have m : (0x90000000#32 ||| o.enc) &&& 0xFE000018#32 = 0x90000000#32 := FS.enc_and o _ _ (by decide) (by decide)
  rw [decodeGroup_own m (by decide) (by decide) (by decide), decodeDefined_48 _ (major_of_own _ m (by decide) (by decide)), if_pos m, FS.dec_enc o _ (by decide)]

theorem sshrI32 (o : FS) : Statement (.sshrI32 o) := by
  intro w e
  obtain rfl := Option.some.inj e
  show decodeGroup (0x92000000#32 ||| o.enc) = .ok (.sshrI32 o)
  have m : (0x92000000#32 ||| o.enc) &&& 0xFE000018#32 = 0x92000000#32 := FS.enc_and o _ _ (by decide) (by decide)
  rw [decodeGroup_own m (by decide) (by decide) (by decide), decodeDefined_49 _ (major_of_own _ m (by decide) (by decide)), if_pos m, FS.dec_enc o _ (by decide)]

theorem sminI32 (o : FS) : Statement (.sminI32 o) := by
  intro w e
  obtain rfl := Option.some.inj e
  show decodeGroup (0x94000000#32 ||| o.enc) = .ok (.sminI32 o)
  have m : (0x94000000#32 ||| o.enc) &&& 0xFE000018#32 = 0x94000000#32 := FS.enc_and o _ _ (by decide) (by decide)
  rw [decodeGroup_own m (by decide) (by decide) (by decide), decodeDefined_4A _ (major_of_own _ m (by decide) (by decide)), if_pos m, FS.dec_enc o _ (by decide)]

theorem smaxI32 (o : FS) : Statement (.smaxI32 o) := by
  intro w e
  obtain rfl := Option.some.inj e
  show decodeGroup (0x96000000#32 ||| o.enc) = .ok (.smaxI32 o)
  have m : (0x96000000#32 ||| o.enc) &&& 0xFE000018#32 = 0x96000000#32 := FS.enc_and o _ _ (by decide) (by decide)
  rw [decodeGroup_own m (by decide) (by decide) (by decide), decodeDefined_4B _ (major_of_own _ m (by decide) (by decide)), if_pos m, FS.dec_enc o _ (by decide)]

theorem sminN32 (o : FS) : Statement (.sminN32 o) := by
  intro w e
  obtain rfl := Option.some.inj e
  show decodeGroup (0x98000000#32 ||| o.enc) = .ok (.sminN32 o)
  have m : (0x98000000#32 ||| o.enc) &&& 0xFE000018#32 = 0x98000000#32 := FS.enc_and o _ _ (by decide) (by decide)
  rw [decodeGroup_own m (by decide) (by decide) (by decide), decodeDefined_4C _ (major_of_own _ m (by decide) (by decide)), if_pos m, FS.dec_enc o _ (by decide)]

theorem smaxN32 (o : FS) : Statement (.smaxN32 o) := by
  intro w e
  obtain rfl := Option.some.inj e
  show decodeGroup (0x9A000000#32 ||| o.enc) = .ok (.smaxN32 o)
  have m : (0x9A000000#32 ||| o.enc) &&& 0xFE000018#32 = 0x9A000000#32 := FS.enc_and o _ _ (by decide) (by decide)
  rw [decodeGroup_own m (by decide) (by decide) (by decide), decodeDefined_4D _ (major_of_own _ m (by decide) (by decide)), if_pos m, FS.dec_enc o _ (by decide)]

theorem scltI32 (o : FS) : Statement (.scltI32 o) := by
  intro w e
  obtain rfl := Option.some.inj e
  show decodeGroup (0x9C000000#32 ||| o.enc) = .ok (.scltI32 o)
  have m : (0x9C000000#32 ||| o.enc) &&& 0xFE000018#32 = 0x9C000000#32 := FS.enc_and o _ _ (by decide) (by decide)
  rw [decodeGroup_own m (by decide) (by decide) (by decide), decodeDefined_4E _ (major_of_own _ m (by decide) (by decide)), if_pos m, FS.dec_enc o _ (by decide)]

theorem scltN32 (o : FS) : Statement (.scltN32 o) := by
  intro w e
  obtain rfl := Option.some.inj e
  show decodeGroup (0x9E000000#32 ||| o.enc) = .ok (.scltN32 o)
  have m : (0x9E000000#32 ||| o.enc) &&& 0xFE000018#32 = 0x9E000000#32 := FS.enc_and o _ _ (by decide) (by decide)
  rw [decodeGroup_own m (by decide) (by decide) (by decide), decodeDefined_4F _ (major_of_own _ m (by decide) (by decide)), if_pos m, FS.dec_enc o _ (by decide)]

theorem vaddi (o : FI) : Statement (.vaddi o) := by
  intro w e
  obtain rfl := Option.some.inj e
  show decodeGroup (0xA0000000#32 ||| o.enc) = .ok (.vaddi o)
  have m : (0xA0000000#32 ||| o.enc) &&& 0xFE000000#32 = 0xA0000000#32 := FI.enc_and o _ _ (by decide) (by decide)
  rw [decodeGroup_own m (by decide) (by decide) (by decide), decodeDefined_50 _ (major_of_own _ m (by decide) (by decide)), FI.dec_enc o _ (by decide)]

theorem vshli (o : FI) : Statement (.vshli o) := by
  intro w e
  obtain rfl := Option.some.inj e
  show decodeGroup (0xA2000000#32 ||| o.enc) = .ok (.vshli o)
  have m : (0xA2000000#32 ||| o.enc) &&& 0xFE000000#32 = 0xA2000000#32 := FI.enc_and o _ _ (by decide) (by decide)
  rw [decodeGroup_own m (by decide) (by decide) (by decide), decodeDefined_51 _ (major_of_own _ m (by decide) (by decide)), FI.dec_enc o _ (by decide)]

theorem vmovi (o : FIm) : Statement (.vmovi o) := by
  intro w e
  obtain rfl := Option.some.inj e
  show decodeGroup (0xA4000000#32 ||| o.enc) = .ok (.vmovi o)
  have m : (0xA4000000#32 ||| o.enc) &&& 0xFE07F000#32 = 0xA4000000#32 := FIm.enc_and o _ _ (by decide) (by decide)
  rw [decodeGroup_own m (by decide) (by decide) (by decide), decodeDefined_52 _ (major_of_own _ m (by decide) (by decide)), if_pos m, FIm.dec_enc o _ (by decide)]

theorem saddi (o : FI) : Statement (.saddi o) := by
  intro w e
  obtain rfl := Option.some.inj e
  show decodeGroup (0xA6000000#32 ||| o.enc) = .ok (.saddi o)
  have m : (0xA6000000#32 ||| o.enc) &&& 0xFE000000#32 = 0xA6000000#32 := FI.enc_and o _ _ (by decide) (by decide)
  rw [decodeGroup_own m (by decide) (by decide) (by decide), decodeDefined_53 _ (major_of_own _ m (by decide) (by decide)), FI.dec_enc o _ (by decide)]

theorem sandi (o : FI) : Statement (.sandi o) := by
  intro w e
  obtain rfl := Option.some.inj e
  show decodeGroup (0xA8000000#32 ||| o.enc) = .ok (.sandi o)
  have m : (0xA8000000#32 ||| o.enc) &&& 0xFE000000#32 = 0xA8000000#32 := FI.enc_and o _ _ (by decide) (by decide)
  rw [decodeGroup_own m (by decide) (by decide) (by decide), decodeDefined_54 _ (major_of_own _ m (by decide) (by decide)), FI.dec_enc o _ (by decide)]

theorem sori (o : FI) : Statement (.sori o) := by
  intro w e
  obtain rfl := Option.some.inj e
  show decodeGroup (0xAA000000#32 ||| o.enc) = .ok (.sori o)
  have m : (0xAA000000#32 ||| o.enc) &&& 0xFE000000#32 = 0xAA000000#32 := FI.enc_and o _ _ (by decide) (by decide)
  rw [decodeGroup_own m (by decide) (by decide) (by decide), decodeDefined_55 _ (major_of_own _ m (by decide) (by decide)), FI.dec_enc o _ (by decide)]

theorem smovi (o : FIm) : Statement (.smovi o) := by
  intro w e
  obtain rfl := Option.some.inj e
  show decodeGroup (0xAC000000#32 ||| o.enc) = .ok (.smovi o)
  have m : (0xAC000000#32 ||| o.enc) &&& 0xFE07F000#32 = 0xAC000000#32 := FIm.enc_and o _ _ (by decide) (by decide)
  rw [decodeGroup_own m (by decide) (by decide) (by decide), decodeDefined_56 _ (major_of_own _ m (by decide) (by decide)), if_pos m, FIm.dec_enc o _ (by decide)]

theorem smov (o : FD) : Statement (.smov o) := by
  intro w e
  obtain rfl := Option.some.inj e
  show decodeGroup (0xAE000000#32 ||| o.enc) = .ok (.smov o)
  have m : (0xAE000000#32 ||| o.enc) &&& 0xFE000FF8#32 = 0xAE000000#32 := FD.enc_and o _ _ (by decide) (by decide)
  rw [decodeGroup_own m (by decide) (by decide) (by decide), decodeDefined_57 _ (major_of_own _ m (by decide) (by decide)), if_pos m, FD.dec_enc o _ (by decide)]

theorem sbitNot (o : FD) : Statement (.sbitNot o) := by
  intro w e
  obtain rfl := Option.some.inj e
  show decodeGroup (0xAE000020#32 ||| o.enc) = .ok (.sbitNot o)
  have m : (0xAE000020#32 ||| o.enc) &&& 0xFE000FF8#32 = 0xAE000020#32 := FD.enc_and o _ _ (by decide) (by decide)
  rw [decodeGroup_own m (by decide) (by decide) (by decide), decodeDefined_57 _ (major_of_own _ m (by decide) (by decide)), if_neg (not_arm m (by decide)), if_pos m, FD.dec_enc o _ (by decide)]

theorem sbitPopc (o : FD) : Statement (.sbitPopc o) := by
  intro w e
  obtain rfl := Option.some.inj e
  show decodeGroup (0xAE000040#32 ||| o.enc) = .ok (.sbitPopc o)
  have m : (0xAE000040#32 ||| o.enc) &&& 0xFE000FF8#32 = 0xAE000040#32 := FD.enc_and o _ _ (by decide) (by decide)
  rw [decodeGroup_own m (by decide) (by decide) (by decide), decodeDefined_57 _ (major_of_own _ m (by decide) (by decide)), if_neg (not_arm m (by decide)), if_neg (not_arm m (by decide)), if_pos m, FD.dec_enc o _ (by decide)]

theorem sbitClz (o : FD) : Statement (.sbitClz o) := by
  intro w e
  obtain rfl := Option.some.inj e
  show decodeGroup (0xAE000060#32 ||| o.enc) = .ok (.sbitClz o)
  have m : (0xAE000060#32 ||| o.enc) &&& 0xFE000FF8#32 = 0xAE000060#32 := FD.enc_and o _ _ (by decide) (by decide)
  rw [decodeGroup_own m (by decide) (by decide) (by decide), decodeDefined_57 _ (major_of_own _ m (by decide) (by decide)), if_neg (not_arm m (by decide)), if_neg (not_arm m (by decide)), if_neg (not_arm m (by decide)), if_pos m, FD.dec_enc o _ (by decide)]

theorem sbitCtz (o : FD) : Statement (.sbitCtz o) := by
  intro w e
  obtain rfl := Option.some.inj e
  show decodeGroup (0xAE000080#32 ||| o.enc) = .ok (.sbitCtz o)
  have m : (0xAE000080#32 ||| o.enc) &&& 0xFE000FF8#32 = 0xAE000080#32 := FD.enc_and o _ _ (by decide) (by decide)
  rw [decodeGroup_own m (by decide) (by decide) (by decide), decodeDefined_57 _ (major_of_own _ m (by decide) (by decide)), if_neg (not_arm m (by decide)), if_neg (not_arm m (by decide)), if_neg (not_arm m (by decide)), if_neg (not_arm m (by decide)), if_pos m, FD.dec_enc o _ (by decide)]

theorem sbitBrev (o : FD) : Statement (.sbitBrev o) := by
  intro w e
  obtain rfl := Option.some.inj e
  show decodeGroup (0xAE0000A0#32 ||| o.enc) = .ok (.sbitBrev o)
  have m : (0xAE0000A0#32 ||| o.enc) &&& 0xFE000FF8#32 = 0xAE0000A0#32 := FD.enc_and o _ _ (by decide) (by decide)
  rw [decodeGroup_own m (by decide) (by decide) (by decide), decodeDefined_57 _ (major_of_own _ m (by decide) (by decide)), if_neg (not_arm m (by decide)), if_neg (not_arm m (by decide)), if_neg (not_arm m (by decide)), if_neg (not_arm m (by decide)), if_neg (not_arm m (by decide)), if_pos m, FD.dec_enc o _ (by decide)]

theorem sbitSeqz (o : FD) : Statement (.sbitSeqz o) := by
  intro w e
  obtain rfl := Option.some.inj e
  show decodeGroup (0xAE0000C0#32 ||| o.enc) = .ok (.sbitSeqz o)
  have m : (0xAE0000C0#32 ||| o.enc) &&& 0xFE000FF8#32 = 0xAE0000C0#32 := FD.enc_and o _ _ (by decide) (by decide)
  rw [decodeGroup_own m (by decide) (by decide) (by decide), decodeDefined_57 _ (major_of_own _ m (by decide) (by decide)), if_neg (not_arm m (by decide)), if_neg (not_arm m (by decide)), if_neg (not_arm m (by decide)), if_neg (not_arm m (by decide)), if_neg (not_arm m (by decide)), if_neg (not_arm m (by decide)), if_pos m, FD.dec_enc o _ (by decide)]

theorem br (o : FB) : Statement (.br o) := by
  intro w e
  obtain rfl := Option.some.inj e
  show decodeGroup (0xB0000000#32 ||| o.enc) = .ok (.br o)
  have m : (0xB0000000#32 ||| o.enc) &&& 0xFE000000#32 = 0xB0000000#32 := FB.enc_and o _ _ (by decide) (by decide)
  rw [decodeGroup_own m (by decide) (by decide) (by decide), decodeDefined_58 _ (major_of_own _ m (by decide) (by decide)), FB.dec_enc o _ (by decide)]

theorem brz (o : FBS) : Statement (.brz o) := by
  intro w e
  obtain rfl := Option.some.inj e
  show decodeGroup (0xB2000000#32 ||| o.enc) = .ok (.brz o)
  have m : (0xB2000000#32 ||| o.enc) &&& 0xFE000000#32 = 0xB2000000#32 := FBS.enc_and o _ _ (by decide) (by decide)
  rw [decodeGroup_own m (by decide) (by decide) (by decide), decodeDefined_59 _ (major_of_own _ m (by decide) (by decide)), FBS.dec_enc o _ (by decide)]

theorem brnz (o : FBS) : Statement (.brnz o) := by
  intro w e
  obtain rfl := Option.some.inj e
  show decodeGroup (0xB4000000#32 ||| o.enc) = .ok (.brnz o)
  have m : (0xB4000000#32 ||| o.enc) &&& 0xFE000000#32 = 0xB4000000#32 := FBS.enc_and o _ _ (by decide) (by decide)
  rw [decodeGroup_own m (by decide) (by decide) (by decide), decodeDefined_5A _ (major_of_own _ m (by decide) (by decide)), FBS.dec_enc o _ (by decide)]

theorem brd (o : FBD) : Statement (.brd o) := by
  intro w e
  obtain rfl := Option.some.inj e
  show decodeGroup (0xB6000000#32 ||| o.enc) = .ok (.brd o)
  have m : (0xB6000000#32 ||| o.enc) &&& 0xFE000000#32 = 0xB6000000#32 := FBD.enc_and o _ _ (by decide) (by decide)
  rw [decodeGroup_own m (by decide) (by decide) (by decide), decodeDefined_5B _ (major_of_own _ m (by decide) (by decide)), FBD.dec_enc o _ (by decide)]

theorem mark (o : FB) : Statement (.mark o) := by
  intro w e
  obtain rfl := Option.some.inj e
  show decodeGroup (0xB8000000#32 ||| o.enc) = .ok (.mark o)
  have m : (0xB8000000#32 ||| o.enc) &&& 0xFE000000#32 = 0xB8000000#32 := FB.enc_and o _ _ (by decide) (by decide)
  rw [decodeGroup_own m (by decide) (by decide) (by decide), decodeDefined_5C _ (major_of_own _ m (by decide) (by decide)), FB.dec_enc o _ (by decide)]

theorem join (o : F0) : Statement (.join o) := by
  intro w e
  obtain rfl := Option.some.inj e
  show decodeGroup (0xBA000000#32 ||| o.enc) = .ok (.join o)
  have m : (0xBA000000#32 ||| o.enc) &&& 0xFFFFFFF8#32 = 0xBA000000#32 := F0.enc_and o _ _ (by decide) (by decide)
  rw [decodeGroup_own m (by decide) (by decide) (by decide), decodeDefined_5D _ (major_of_own _ m (by decide) (by decide)), if_pos m, F0.dec_enc o _ (by decide)]

theorem call (o : FBS) : Statement (.call o) := by
  intro w e
  obtain rfl := Option.some.inj e
  show decodeGroup (0xBC000000#32 ||| o.enc) = .ok (.call o)
  have m : (0xBC000000#32 ||| o.enc) &&& 0xFE000000#32 = 0xBC000000#32 := FBS.enc_and o _ _ (by decide) (by decide)
  rw [decodeGroup_own m (by decide) (by decide) (by decide), decodeDefined_5E _ (major_of_own _ m (by decide) (by decide)), FBS.dec_enc o _ (by decide)]

theorem jr (o : Fd) : Statement (.jr o) := by
  intro w e
  obtain rfl := Option.some.inj e
  show decodeGroup (0xBE000000#32 ||| o.enc) = .ok (.jr o)
  have m : (0xBE000000#32 ||| o.enc) &&& 0xFE07FFF8#32 = 0xBE000000#32 := Fd.enc_and o _ _ (by decide) (by decide)
  rw [decodeGroup_own m (by decide) (by decide) (by decide), decodeDefined_5F _ (major_of_own _ m (by decide) (by decide)), if_pos m, Fd.dec_enc o _ (by decide)]

theorem ld (o : FM) : Statement (.ld o) := by
  intro w e
  obtain rfl := Option.some.inj e
  show decodeGroup (0xC0000000#32 ||| o.enc) = .ok (.ld o)
  have m : (0xC0000000#32 ||| o.enc) &&& 0xFE000008#32 = 0xC0000000#32 := FM.enc_and o _ _ (by decide) (by decide)
  rw [decodeGroup_own m (by decide) (by decide) (by decide), decodeDefined_60 _ (major_of_own _ m (by decide) (by decide)), if_pos m, FM.dec_enc o _ (by decide)]

theorem st (o : FM) : Statement (.st o) := by
  intro w e
  obtain rfl := Option.some.inj e
  show decodeGroup (0xC2000000#32 ||| o.enc) = .ok (.st o)
  have m : (0xC2000000#32 ||| o.enc) &&& 0xFE000008#32 = 0xC2000000#32 := FM.enc_and o _ _ (by decide) (by decide)
  rw [decodeGroup_own m (by decide) (by decide) (by decide), decodeDefined_61 _ (major_of_own _ m (by decide) (by decide)), if_pos m, FM.dec_enc o _ (by decide)]

theorem ldp (o : FMp) : Statement (.ldp o) := by
  intro w e
  obtain rfl := Option.some.inj e
  show decodeGroup (0xC4000000#32 ||| o.enc) = .ok (.ldp o)
  have m : (0xC4000000#32 ||| o.enc) &&& 0xFE000F88#32 = 0xC4000000#32 := FMp.enc_and o _ _ (by decide) (by decide)
  rw [decodeGroup_own m (by decide) (by decide) (by decide), decodeDefined_62 _ (major_of_own _ m (by decide) (by decide)), if_pos m, FMp.dec_enc o _ (by decide)]

theorem stp (o : FMp) : Statement (.stp o) := by
  intro w e
  obtain rfl := Option.some.inj e
  show decodeGroup (0xC6000000#32 ||| o.enc) = .ok (.stp o)
  have m : (0xC6000000#32 ||| o.enc) &&& 0xFE000F88#32 = 0xC6000000#32 := FMp.enc_and o _ _ (by decide) (by decide)
  rw [decodeGroup_own m (by decide) (by decide) (by decide), decodeDefined_63 _ (major_of_own _ m (by decide) (by decide)), if_pos m, FMp.dec_enc o _ (by decide)]

theorem ldx (o : FM) : Statement (.ldx o) := by
  intro w e
  obtain rfl := Option.some.inj e
  show decodeGroup (0xC8000000#32 ||| o.enc) = .ok (.ldx o)
  have m : (0xC8000000#32 ||| o.enc) &&& 0xFE000008#32 = 0xC8000000#32 := FM.enc_and o _ _ (by decide) (by decide)
  rw [decodeGroup_own m (by decide) (by decide) (by decide), decodeDefined_64 _ (major_of_own _ m (by decide) (by decide)), if_pos m, FM.dec_enc o _ (by decide)]

theorem stx (o : FM) : Statement (.stx o) := by
  intro w e
  obtain rfl := Option.some.inj e
  show decodeGroup (0xCA000000#32 ||| o.enc) = .ok (.stx o)
  have m : (0xCA000000#32 ||| o.enc) &&& 0xFE000008#32 = 0xCA000000#32 := FM.enc_and o _ _ (by decide) (by decide)
  rw [decodeGroup_own m (by decide) (by decide) (by decide), decodeDefined_65 _ (major_of_own _ m (by decide) (by decide)), if_pos m, FM.dec_enc o _ (by decide)]

theorem sld (o : FM) : Statement (.sld o) := by
  intro w e
  obtain rfl := Option.some.inj e
  show decodeGroup (0xCC000000#32 ||| o.enc) = .ok (.sld o)
  have m : (0xCC000000#32 ||| o.enc) &&& 0xFE000008#32 = 0xCC000000#32 := FM.enc_and o _ _ (by decide) (by decide)
  rw [decodeGroup_own m (by decide) (by decide) (by decide), decodeDefined_66 _ (major_of_own _ m (by decide) (by decide)), if_pos m, FM.dec_enc o _ (by decide)]

theorem sst (o : FM) : Statement (.sst o) := by
  intro w e
  obtain rfl := Option.some.inj e
  show decodeGroup (0xCE000000#32 ||| o.enc) = .ok (.sst o)
  have m : (0xCE000000#32 ||| o.enc) &&& 0xFE000008#32 = 0xCE000000#32 := FM.enc_and o _ _ (by decide) (by decide)
  rw [decodeGroup_own m (by decide) (by decide) (by decide), decodeDefined_67 _ (major_of_own _ m (by decide) (by decide)), if_pos m, FM.dec_enc o _ (by decide)]

theorem atom (o : FA) : Statement (.atom o) := by
  intro w e
  obtain rfl := Option.some.inj e
  show decodeGroup (0xD0000000#32 ||| o.enc) = .ok (.atom o)
  have m : (0xD0000000#32 ||| o.enc) &&& 0xFE000000#32 = 0xD0000000#32 := FA.enc_and o _ _ (by decide) (by decide)
  rw [decodeGroup_own m (by decide) (by decide) (by decide), decodeDefined_68 _ (major_of_own _ m (by decide) (by decide)), FA.dec_enc o _ (by decide)]

theorem red (o : FA) : Statement (.red o) := by
  intro w e
  obtain rfl := Option.some.inj e
  show decodeGroup (0xD2000000#32 ||| o.enc) = .ok (.red o)
  have m : (0xD2000000#32 ||| o.enc) &&& 0xFE000000#32 = 0xD2000000#32 := FA.enc_and o _ _ (by decide) (by decide)
  rw [decodeGroup_own m (by decide) (by decide) (by decide), decodeDefined_69 _ (major_of_own _ m (by decide) (by decide)), FA.dec_enc o _ (by decide)]

theorem atomx (o : FA) : Statement (.atomx o) := by
  intro w e
  obtain rfl := Option.some.inj e
  show decodeGroup (0xD4000000#32 ||| o.enc) = .ok (.atomx o)
  have m : (0xD4000000#32 ||| o.enc) &&& 0xFE000000#32 = 0xD4000000#32 := FA.enc_and o _ _ (by decide) (by decide)
  rw [decodeGroup_own m (by decide) (by decide) (by decide), decodeDefined_6A _ (major_of_own _ m (by decide) (by decide)), FA.dec_enc o _ (by decide)]

theorem npost (o : FAn) : Statement (.npost o) := by
  intro w e
  obtain rfl := Option.some.inj e
  show decodeGroup (0xD6000000#32 ||| o.enc) = .ok (.npost o)
  have m : (0xD6000000#32 ||| o.enc) &&& 0xFE000078#32 = 0xD6000000#32 := FAn.enc_and o _ _ (by decide) (by decide)
  rw [decodeGroup_own m (by decide) (by decide) (by decide), decodeDefined_6B _ (major_of_own _ m (by decide) (by decide)), if_pos m, FAn.dec_enc o _ (by decide)]

theorem ndone (o : FAn) : Statement (.ndone o) := by
  intro w e
  obtain rfl := Option.some.inj e
  show decodeGroup (0xD8000000#32 ||| o.enc) = .ok (.ndone o)
  have m : (0xD8000000#32 ||| o.enc) &&& 0xFE000078#32 = 0xD8000000#32 := FAn.enc_and o _ _ (by decide) (by decide)
  rw [decodeGroup_own m (by decide) (by decide) (by decide), decodeDefined_6C _ (major_of_own _ m (by decide) (by decide)), if_pos m, FAn.dec_enc o _ (by decide)]

theorem nread (o : FAr) : Statement (.nread o) := by
  intro w e
  obtain rfl := Option.some.inj e
  show decodeGroup (0xDA000000#32 ||| o.enc) = .ok (.nread o)
  have m : (0xDA000000#32 ||| o.enc) &&& 0xFE07F078#32 = 0xDA000000#32 := FAr.enc_and o _ _ (by decide) (by decide)
  rw [decodeGroup_own m (by decide) (by decide) (by decide), decodeDefined_6D _ (major_of_own _ m (by decide) (by decide)), if_pos m, FAr.dec_enc o _ (by decide)]

theorem cpy (o : Fa) : Statement (.cpy o) := by
  intro w e
  obtain rfl := Option.some.inj e
  show decodeGroup (0xDC000000#32 ||| o.enc) = .ok (.cpy o)
  have m : (0xDC000000#32 ||| o.enc) &&& 0xFFF80FF8#32 = 0xDC000000#32 := Fa.enc_and o _ _ (by decide) (by decide)
  rw [decodeGroup_own m (by decide) (by decide) (by decide), decodeDefined_6E _ (major_of_own _ m (by decide) (by decide)), if_pos m, Fa.dec_enc o _ (by decide)]

theorem cpyx (o : Fab) : Statement (.cpyx o) := by
  intro w e
  obtain rfl := Option.some.inj e
  show decodeGroup (0xDE000008#32 ||| o.enc) = .ok (.cpyx o)
  have m : (0xDE000008#32 ||| o.enc) &&& 0xFFF80018#32 = 0xDE000008#32 := Fab.enc_and o _ _ (by decide) (by decide)
  rw [decodeGroup_own m (by decide) (by decide) (by decide), decodeDefined_6F _ (major_of_own _ m (by decide) (by decide)), if_pos m, Fab.dec_enc o _ (by decide)]

theorem bseal (o : Fd) : Statement (.bseal o) := by
  intro w e
  obtain rfl := Option.some.inj e
  show decodeGroup (0xE0000000#32 ||| o.enc) = .ok (.bseal o)
  have m : (0xE0000000#32 ||| o.enc) &&& 0xFE07FFF8#32 = 0xE0000000#32 := Fd.enc_and o _ _ (by decide) (by decide)
  rw [decodeGroup_own m (by decide) (by decide) (by decide), decodeDefined_70 _ (major_of_own _ m (by decide) (by decide)), if_pos m, Fd.dec_enc o _ (by decide)]

theorem mpost (o : FD) : Statement (.mpost o) := by
  intro w e
  obtain rfl := Option.some.inj e
  show decodeGroup (0xE2000000#32 ||| o.enc) = .ok (.mpost o)
  have m : (0xE2000000#32 ||| o.enc) &&& 0xFE000FF8#32 = 0xE2000000#32 := FD.enc_and o _ _ (by decide) (by decide)
  rw [decodeGroup_own m (by decide) (by decide) (by decide), decodeDefined_71 _ (major_of_own _ m (by decide) (by decide)), if_pos m, FD.dec_enc o _ (by decide)]

theorem sqLd (o : FD) : Statement (.sqLd o) := by
  intro w e
  obtain rfl := Option.some.inj e
  show decodeGroup (0xE4000000#32 ||| o.enc) = .ok (.sqLd o)
  have m : (0xE4000000#32 ||| o.enc) &&& 0xFE000FF8#32 = 0xE4000000#32 := FD.enc_and o _ _ (by decide) (by decide)
  rw [decodeGroup_own m (by decide) (by decide) (by decide), decodeDefined_72 _ (major_of_own _ m (by decide) (by decide)), if_pos m, FD.dec_enc o _ (by decide)]

theorem sqSt (o : FD) : Statement (.sqSt o) := by
  intro w e
  obtain rfl := Option.some.inj e
  show decodeGroup (0xE4000020#32 ||| o.enc) = .ok (.sqSt o)
  have m : (0xE4000020#32 ||| o.enc) &&& 0xFE000FF8#32 = 0xE4000020#32 := FD.enc_and o _ _ (by decide) (by decide)
  rw [decodeGroup_own m (by decide) (by decide) (by decide), decodeDefined_72 _ (major_of_own _ m (by decide) (by decide)), if_neg (not_arm m (by decide)), if_pos m, FD.dec_enc o _ (by decide)]

theorem sqMark (o : FD) : Statement (.sqMark o) := by
  intro w e
  obtain rfl := Option.some.inj e
  show decodeGroup (0xE4000040#32 ||| o.enc) = .ok (.sqMark o)
  have m : (0xE4000040#32 ||| o.enc) &&& 0xFE000FF8#32 = 0xE4000040#32 := FD.enc_and o _ _ (by decide) (by decide)
  rw [decodeGroup_own m (by decide) (by decide) (by decide), decodeDefined_72 _ (major_of_own _ m (by decide) (by decide)), if_neg (not_arm m (by decide)), if_neg (not_arm m (by decide)), if_pos m, FD.dec_enc o _ (by decide)]

theorem sqBack (o : FD) : Statement (.sqBack o) := by
  intro w e
  obtain rfl := Option.some.inj e
  show decodeGroup (0xE4000060#32 ||| o.enc) = .ok (.sqBack o)
  have m : (0xE4000060#32 ||| o.enc) &&& 0xFE000FF8#32 = 0xE4000060#32 := FD.enc_and o _ _ (by decide) (by decide)
  rw [decodeGroup_own m (by decide) (by decide) (by decide), decodeDefined_72 _ (major_of_own _ m (by decide) (by decide)), if_neg (not_arm m (by decide)), if_neg (not_arm m (by decide)), if_neg (not_arm m (by decide)), if_pos m, FD.dec_enc o _ (by decide)]

theorem sqFork (o : FD) : Statement (.sqFork o) := by
  intro w e
  obtain rfl := Option.some.inj e
  show decodeGroup (0xE4000080#32 ||| o.enc) = .ok (.sqFork o)
  have m : (0xE4000080#32 ||| o.enc) &&& 0xFE000FF8#32 = 0xE4000080#32 := FD.enc_and o _ _ (by decide) (by decide)
  rw [decodeGroup_own m (by decide) (by decide) (by decide), decodeDefined_72 _ (major_of_own _ m (by decide) (by decide)), if_neg (not_arm m (by decide)), if_neg (not_arm m (by decide)), if_neg (not_arm m (by decide)), if_neg (not_arm m (by decide)), if_pos m, FD.dec_enc o _ (by decide)]

theorem sqDrop (o : FD) : Statement (.sqDrop o) := by
  intro w e
  obtain rfl := Option.some.inj e
  show decodeGroup (0xE40000A0#32 ||| o.enc) = .ok (.sqDrop o)
  have m : (0xE40000A0#32 ||| o.enc) &&& 0xFE000FF8#32 = 0xE40000A0#32 := FD.enc_and o _ _ (by decide) (by decide)
  rw [decodeGroup_own m (by decide) (by decide) (by decide), decodeDefined_72 _ (major_of_own _ m (by decide) (by decide)), if_neg (not_arm m (by decide)), if_neg (not_arm m (by decide)), if_neg (not_arm m (by decide)), if_neg (not_arm m (by decide)), if_neg (not_arm m (by decide)), if_pos m, FD.dec_enc o _ (by decide)]

theorem sqInfo (o : FD) : Statement (.sqInfo o) := by
  intro w e
  obtain rfl := Option.some.inj e
  show decodeGroup (0xE40000C0#32 ||| o.enc) = .ok (.sqInfo o)
  have m : (0xE40000C0#32 ||| o.enc) &&& 0xFE000FF8#32 = 0xE40000C0#32 := FD.enc_and o _ _ (by decide) (by decide)
  rw [decodeGroup_own m (by decide) (by decide) (by decide), decodeDefined_72 _ (major_of_own _ m (by decide) (by decide)), if_neg (not_arm m (by decide)), if_neg (not_arm m (by decide)), if_neg (not_arm m (by decide)), if_neg (not_arm m (by decide)), if_neg (not_arm m (by decide)), if_neg (not_arm m (by decide)), if_pos m, FD.dec_enc o _ (by decide)]

theorem spawn (o : FD) : Statement (.spawn o) := by
  intro w e
  obtain rfl := Option.some.inj e
  show decodeGroup (0xE6000000#32 ||| o.enc) = .ok (.spawn o)
  have m : (0xE6000000#32 ||| o.enc) &&& 0xFE000FF8#32 = 0xE6000000#32 := FD.enc_and o _ _ (by decide) (by decide)
  rw [decodeGroup_own m (by decide) (by decide) (by decide), decodeDefined_73 _ (major_of_own _ m (by decide) (by decide)), if_pos m, FD.dec_enc o _ (by decide)]

theorem launch (o : FD) : Statement (.launch o) := by
  intro w e
  obtain rfl := Option.some.inj e
  show decodeGroup (0xE8000000#32 ||| o.enc) = .ok (.launch o)
  have m : (0xE8000000#32 ||| o.enc) &&& 0xFE000FF8#32 = 0xE8000000#32 := FD.enc_and o _ _ (by decide) (by decide)
  rw [decodeGroup_own m (by decide) (by decide) (by decide), decodeDefined_74 _ (major_of_own _ m (by decide) (by decide)), if_pos m, FD.dec_enc o _ (by decide)]

theorem chainFix (o : F0) : Statement (.chainFix o) := by
  intro w e
  obtain rfl := Option.some.inj e
  show decodeGroup (0xEA000000#32 ||| o.enc) = .ok (.chainFix o)
  have m : (0xEA000000#32 ||| o.enc) &&& 0xFFFFFFF8#32 = 0xEA000000#32 := F0.enc_and o _ _ (by decide) (by decide)
  rw [decodeGroup_own m (by decide) (by decide) (by decide), decodeDefined_75 _ (major_of_own _ m (by decide) (by decide)), if_pos m, F0.dec_enc o _ (by decide)]

theorem chainForm (o : Fa) : Statement (.chainForm o) := by
  intro w e
  obtain rfl := Option.some.inj e
  show decodeGroup (0xEA000020#32 ||| o.enc) = .ok (.chainForm o)
  have m : (0xEA000020#32 ||| o.enc) &&& 0xFFF80FF8#32 = 0xEA000020#32 := Fa.enc_and o _ _ (by decide) (by decide)
  rw [decodeGroup_own m (by decide) (by decide) (by decide), decodeDefined_75 _ (major_of_own _ m (by decide) (by decide)), if_neg (not_arm m (by decide)), if_pos m, Fa.dec_enc o _ (by decide)]

theorem chainQuery (o : Fd) : Statement (.chainQuery o) := by
  intro w e
  obtain rfl := Option.some.inj e
  show decodeGroup (0xEA000040#32 ||| o.enc) = .ok (.chainQuery o)
  have m : (0xEA000040#32 ||| o.enc) &&& 0xFE07FFF8#32 = 0xEA000040#32 := Fd.enc_and o _ _ (by decide) (by decide)
  rw [decodeGroup_own m (by decide) (by decide) (by decide), decodeDefined_75 _ (major_of_own _ m (by decide) (by decide)), if_neg (not_arm m (by decide)), if_neg (not_arm m (by decide)), if_pos m, Fd.dec_enc o _ (by decide)]

theorem cacheL1wb (o : FD) : Statement (.cacheL1wb o) := by
  intro w e
  obtain rfl := Option.some.inj e
  show decodeGroup (0xEC000000#32 ||| o.enc) = .ok (.cacheL1wb o)
  have m : (0xEC000000#32 ||| o.enc) &&& 0xFE000FF8#32 = 0xEC000000#32 := FD.enc_and o _ _ (by decide) (by decide)
  rw [decodeGroup_own m (by decide) (by decide) (by decide), decodeDefined_76 _ (major_of_own _ m (by decide) (by decide)), if_pos m, FD.dec_enc o _ (by decide)]

theorem cacheL1inv (o : FD) : Statement (.cacheL1inv o) := by
  intro w e
  obtain rfl := Option.some.inj e
  show decodeGroup (0xEC000020#32 ||| o.enc) = .ok (.cacheL1inv o)
  have m : (0xEC000020#32 ||| o.enc) &&& 0xFE000FF8#32 = 0xEC000020#32 := FD.enc_and o _ _ (by decide) (by decide)
  rw [decodeGroup_own m (by decide) (by decide) (by decide), decodeDefined_76 _ (major_of_own _ m (by decide) (by decide)), if_neg (not_arm m (by decide)), if_pos m, FD.dec_enc o _ (by decide)]

theorem cacheL1wbinv (o : FD) : Statement (.cacheL1wbinv o) := by
  intro w e
  obtain rfl := Option.some.inj e
  show decodeGroup (0xEC000040#32 ||| o.enc) = .ok (.cacheL1wbinv o)
  have m : (0xEC000040#32 ||| o.enc) &&& 0xFE000FF8#32 = 0xEC000040#32 := FD.enc_and o _ _ (by decide) (by decide)
  rw [decodeGroup_own m (by decide) (by decide) (by decide), decodeDefined_76 _ (major_of_own _ m (by decide) (by decide)), if_neg (not_arm m (by decide)), if_neg (not_arm m (by decide)), if_pos m, FD.dec_enc o _ (by decide)]

theorem cacheIcinv (o : FD) : Statement (.cacheIcinv o) := by
  intro w e
  obtain rfl := Option.some.inj e
  show decodeGroup (0xEC000060#32 ||| o.enc) = .ok (.cacheIcinv o)
  have m : (0xEC000060#32 ||| o.enc) &&& 0xFE000FF8#32 = 0xEC000060#32 := FD.enc_and o _ _ (by decide) (by decide)
  rw [decodeGroup_own m (by decide) (by decide) (by decide), decodeDefined_76 _ (major_of_own _ m (by decide) (by decide)), if_neg (not_arm m (by decide)), if_neg (not_arm m (by decide)), if_neg (not_arm m (by decide)), if_pos m, FD.dec_enc o _ (by decide)]

theorem cacheFetchbar (o : F0) : Statement (.cacheFetchbar o) := by
  intro w e
  obtain rfl := Option.some.inj e
  show decodeGroup (0xEC000080#32 ||| o.enc) = .ok (.cacheFetchbar o)
  have m : (0xEC000080#32 ||| o.enc) &&& 0xFFFFFFF8#32 = 0xEC000080#32 := F0.enc_and o _ _ (by decide) (by decide)
  rw [decodeGroup_own m (by decide) (by decide) (by decide), decodeDefined_76 _ (major_of_own _ m (by decide) (by decide)), if_neg (not_arm m (by decide)), if_neg (not_arm m (by decide)), if_neg (not_arm m (by decide)), if_neg (not_arm m (by decide)), if_pos m, F0.dec_enc o _ (by decide)]

theorem cachePref (o : FD) : Statement (.cachePref o) := by
  intro w e
  obtain rfl := Option.some.inj e
  show decodeGroup (0xEC0000A0#32 ||| o.enc) = .ok (.cachePref o)
  have m : (0xEC0000A0#32 ||| o.enc) &&& 0xFE000FF8#32 = 0xEC0000A0#32 := FD.enc_and o _ _ (by decide) (by decide)
  rw [decodeGroup_own m (by decide) (by decide) (by decide), decodeDefined_76 _ (major_of_own _ m (by decide) (by decide)), if_neg (not_arm m (by decide)), if_neg (not_arm m (by decide)), if_neg (not_arm m (by decide)), if_neg (not_arm m (by decide)), if_neg (not_arm m (by decide)), if_pos m, FD.dec_enc o _ (by decide)]

theorem regroup (o : FD) : Statement (.regroup o) := by
  intro w e
  obtain rfl := Option.some.inj e
  show decodeGroup (0xEE000000#32 ||| o.enc) = .ok (.regroup o)
  have m : (0xEE000000#32 ||| o.enc) &&& 0xFE000FF8#32 = 0xEE000000#32 := FD.enc_and o _ _ (by decide) (by decide)
  rw [decodeGroup_own m (by decide) (by decide) (by decide), decodeDefined_77 _ (major_of_own _ m (by decide) (by decide)), if_pos m, FD.dec_enc o _ (by decide)]

theorem barInit (o : FDc) : Statement (.barInit o) := by
  intro w e
  obtain rfl := Option.some.inj e
  show decodeGroup (0xF0000000#32 ||| o.enc) = .ok (.barInit o)
  have m : (0xF0000000#32 ||| o.enc) &&& 0xFE0009F8#32 = 0xF0000000#32 := FDc.enc_and o _ _ (by decide) (by decide)
  rw [decodeGroup_own m (by decide) (by decide) (by decide), decodeDefined_78 _ (major_of_own _ m (by decide) (by decide)), if_pos m, FDc.dec_enc o _ (by decide)]

theorem barArrive (o : FD) : Statement (.barArrive o) := by
  intro w e
  obtain rfl := Option.some.inj e
  show decodeGroup (0xF0000020#32 ||| o.enc) = .ok (.barArrive o)
  have m : (0xF0000020#32 ||| o.enc) &&& 0xFE000FF8#32 = 0xF0000020#32 := FD.enc_and o _ _ (by decide) (by decide)
  rw [decodeGroup_own m (by decide) (by decide) (by decide), decodeDefined_78 _ (major_of_own _ m (by decide) (by decide)), if_neg (not_arm m (by decide)), if_pos m, FD.dec_enc o _ (by decide)]

theorem barDrop (o : Fa) : Statement (.barDrop o) := by
  intro w e
  obtain rfl := Option.some.inj e
  show decodeGroup (0xF0000040#32 ||| o.enc) = .ok (.barDrop o)
  have m : (0xF0000040#32 ||| o.enc) &&& 0xFFF80FF8#32 = 0xF0000040#32 := Fa.enc_and o _ _ (by decide) (by decide)
  rw [decodeGroup_own m (by decide) (by decide) (by decide), decodeDefined_78 _ (major_of_own _ m (by decide) (by decide)), if_neg (not_arm m (by decide)), if_neg (not_arm m (by decide)), if_pos m, Fa.dec_enc o _ (by decide)]

theorem barQuery (o : FD) : Statement (.barQuery o) := by
  intro w e
  obtain rfl := Option.some.inj e
  show decodeGroup (0xF0000060#32 ||| o.enc) = .ok (.barQuery o)
  have m : (0xF0000060#32 ||| o.enc) &&& 0xFE000FF8#32 = 0xF0000060#32 := FD.enc_and o _ _ (by decide) (by decide)
  rw [decodeGroup_own m (by decide) (by decide) (by decide), decodeDefined_78 _ (major_of_own _ m (by decide) (by decide)), if_neg (not_arm m (by decide)), if_neg (not_arm m (by decide)), if_neg (not_arm m (by decide)), if_pos m, FD.dec_enc o _ (by decide)]

theorem parkWaitc (o : Fap) : Statement (.parkWaitc o) := by
  intro w e
  obtain rfl := Option.some.inj e
  show decodeGroup (0xF2000000#32 ||| o.enc) = .ok (.parkWaitc o)
  have m : (0xF2000000#32 ||| o.enc) &&& 0xFFF809F8#32 = 0xF2000000#32 := Fap.enc_and o _ _ (by decide) (by decide)
  rw [decodeGroup_own m (by decide) (by decide) (by decide), decodeDefined_79 _ (major_of_own _ m (by decide) (by decide)), if_pos m, Fap.dec_enc o _ (by decide)]

theorem parkBwait (o : Fa) : Statement (.parkBwait o) := by
  intro w e
  obtain rfl := Option.some.inj e
  show decodeGroup (0xF2000020#32 ||| o.enc) = .ok (.parkBwait o)
  have m : (0xF2000020#32 ||| o.enc) &&& 0xFFF80FF8#32 = 0xF2000020#32 := Fa.enc_and o _ _ (by decide) (by decide)
  rw [decodeGroup_own m (by decide) (by decide) (by decide), decodeDefined_79 _ (major_of_own _ m (by decide) (by decide)), if_neg (not_arm m (by decide)), if_pos m, Fa.dec_enc o _ (by decide)]

theorem parkWbar (o : Fa) : Statement (.parkWbar o) := by
  intro w e
  obtain rfl := Option.some.inj e
  show decodeGroup (0xF2000040#32 ||| o.enc) = .ok (.parkWbar o)
  have m : (0xF2000040#32 ||| o.enc) &&& 0xFFF80FF8#32 = 0xF2000040#32 := Fa.enc_and o _ _ (by decide) (by decide)
  rw [decodeGroup_own m (by decide) (by decide) (by decide), decodeDefined_79 _ (major_of_own _ m (by decide) (by decide)), if_neg (not_arm m (by decide)), if_neg (not_arm m (by decide)), if_pos m, Fa.dec_enc o _ (by decide)]

theorem parkWaitm (o : FDc) : Statement (.parkWaitm o) := by
  intro w e
  obtain rfl := Option.some.inj e
  show decodeGroup (0xF2000060#32 ||| o.enc) = .ok (.parkWaitm o)
  have m : (0xF2000060#32 ||| o.enc) &&& 0xFE0009F8#32 = 0xF2000060#32 := FDc.enc_and o _ _ (by decide) (by decide)
  rw [decodeGroup_own m (by decide) (by decide) (by decide), decodeDefined_79 _ (major_of_own _ m (by decide) (by decide)), if_neg (not_arm m (by decide)), if_neg (not_arm m (by decide)), if_neg (not_arm m (by decide)), if_pos m, FDc.dec_enc o _ (by decide)]

theorem parkYield (o : F0) : Statement (.parkYield o) := by
  intro w e
  obtain rfl := Option.some.inj e
  show decodeGroup (0xF2000080#32 ||| o.enc) = .ok (.parkYield o)
  have m : (0xF2000080#32 ||| o.enc) &&& 0xFFFFFFF8#32 = 0xF2000080#32 := F0.enc_and o _ _ (by decide) (by decide)
  rw [decodeGroup_own m (by decide) (by decide) (by decide), decodeDefined_79 _ (major_of_own _ m (by decide) (by decide)), if_neg (not_arm m (by decide)), if_neg (not_arm m (by decide)), if_neg (not_arm m (by decide)), if_neg (not_arm m (by decide)), if_pos m, F0.dec_enc o _ (by decide)]

theorem fence (o : FF) : Statement (.fence o) := by
  intro w e
  obtain rfl := Option.some.inj e
  show decodeGroup (0xF4000000#32 ||| o.enc) = .ok (.fence o)
  have m : (0xF4000000#32 ||| o.enc) &&& 0xFE0FFFF8#32 = 0xF4000000#32 := FF.enc_and o _ _ (by decide) (by decide)
  rw [decodeGroup_own m (by decide) (by decide) (by decide), decodeDefined_7A _ (major_of_own _ m (by decide) (by decide)), if_pos m, FF.dec_enc o _ (by decide)]

theorem nop (o : F0) : Statement (.nop o) := by
  intro w e
  obtain rfl := Option.some.inj e
  show decodeGroup (0xF6000000#32 ||| o.enc) = .ok (.nop o)
  have m : (0xF6000000#32 ||| o.enc) &&& 0xFFFFFFF8#32 = 0xF6000000#32 := F0.enc_and o _ _ (by decide) (by decide)
  rw [decodeGroup_own m (by decide) (by decide) (by decide), decodeDefined_7B _ (major_of_own _ m (by decide) (by decide)), if_pos m, F0.dec_enc o _ (by decide)]

theorem sysTrap (o : FT) : Statement (.sysTrap o) := by
  intro w e
  obtain rfl := Option.some.inj e
  show decodeGroup (0xF6000020#32 ||| o.enc) = .ok (.sysTrap o)
  have m : (0xF6000020#32 ||| o.enc) &&& 0xFE000FF8#32 = 0xF6000020#32 := FT.enc_and o _ _ (by decide) (by decide)
  rw [decodeGroup_own m (by decide) (by decide) (by decide), decodeDefined_7B _ (major_of_own _ m (by decide) (by decide)), if_neg (not_arm m (by decide)), if_pos m, FT.dec_enc o _ (by decide)]

theorem sysTret : Statement .sysTret := by
  intro w e
  obtain rfl := Option.some.inj e
  show decodeGroup 0xF6000040#32 = .ok .sysTret
  have m : 0xF6000040#32 &&& 0xFFFFFFF8#32 = 0xF6000040#32 := by decide
  rw [decodeGroup_own m (by decide) (by decide) (by decide), decodeDefined_7B _ (major_of_own _ m (by decide) (by decide)), if_neg (not_arm m (by decide)), if_neg (not_arm m (by decide)), if_pos m]

theorem sysExit : Statement .sysExit := by
  intro w e
  obtain rfl := Option.some.inj e
  show decodeGroup 0xF6000060#32 = .ok .sysExit
  have m : 0xF6000060#32 &&& 0xFFFFFFF8#32 = 0xF6000060#32 := by decide
  rw [decodeGroup_own m (by decide) (by decide) (by decide), decodeDefined_7B _ (major_of_own _ m (by decide) (by decide)), if_neg (not_arm m (by decide)), if_neg (not_arm m (by decide)), if_neg (not_arm m (by decide)), if_pos m]

theorem sysGetst (o : Fd) : Statement (.sysGetst o) := by
  intro w e
  obtain rfl := Option.some.inj e
  show decodeGroup (0xF6000080#32 ||| o.enc) = .ok (.sysGetst o)
  have m : (0xF6000080#32 ||| o.enc) &&& 0xFE07FFF8#32 = 0xF6000080#32 := Fd.enc_and o _ _ (by decide) (by decide)
  rw [decodeGroup_own m (by decide) (by decide) (by decide), decodeDefined_7B _ (major_of_own _ m (by decide) (by decide)), if_neg (not_arm m (by decide)), if_neg (not_arm m (by decide)), if_neg (not_arm m (by decide)), if_neg (not_arm m (by decide)), if_pos m, Fd.dec_enc o _ (by decide)]

theorem sysSetst (o : Fa) : Statement (.sysSetst o) := by
  intro w e
  obtain rfl := Option.some.inj e
  show decodeGroup (0xF60000A0#32 ||| o.enc) = .ok (.sysSetst o)
  have m : (0xF60000A0#32 ||| o.enc) &&& 0xFFF80FF8#32 = 0xF60000A0#32 := Fa.enc_and o _ _ (by decide) (by decide)
  rw [decodeGroup_own m (by decide) (by decide) (by decide), decodeDefined_7B _ (major_of_own _ m (by decide) (by decide)), if_neg (not_arm m (by decide)), if_neg (not_arm m (by decide)), if_neg (not_arm m (by decide)), if_neg (not_arm m (by decide)), if_neg (not_arm m (by decide)), if_pos m, Fa.dec_enc o _ (by decide)]

theorem sysDcommit (o : F0) : Statement (.sysDcommit o) := by
  intro w e
  obtain rfl := Option.some.inj e
  show decodeGroup (0xF60000C0#32 ||| o.enc) = .ok (.sysDcommit o)
  have m : (0xF60000C0#32 ||| o.enc) &&& 0xFFFFFFF8#32 = 0xF60000C0#32 := F0.enc_and o _ _ (by decide) (by decide)
  rw [decodeGroup_own m (by decide) (by decide) (by decide), decodeDefined_7B _ (major_of_own _ m (by decide) (by decide)), if_neg (not_arm m (by decide)), if_neg (not_arm m (by decide)), if_neg (not_arm m (by decide)), if_neg (not_arm m (by decide)), if_neg (not_arm m (by decide)), if_neg (not_arm m (by decide)), if_pos m, F0.dec_enc o _ (by decide)]

theorem sysDabort : Statement .sysDabort := by
  intro w e
  obtain rfl := Option.some.inj e
  show decodeGroup 0xF60000E0#32 = .ok .sysDabort
  have m : 0xF60000E0#32 &&& 0xFFFFFFF8#32 = 0xF60000E0#32 := by decide
  rw [decodeGroup_own m (by decide) (by decide) (by decide), decodeDefined_7B _ (major_of_own _ m (by decide) (by decide)), if_neg (not_arm m (by decide)), if_neg (not_arm m (by decide)), if_neg (not_arm m (by decide)), if_neg (not_arm m (by decide)), if_neg (not_arm m (by decide)), if_neg (not_arm m (by decide)), if_neg (not_arm m (by decide)), if_pos m]

theorem sysRseed (o : Fa) : Statement (.sysRseed o) := by
  intro w e
  obtain rfl := Option.some.inj e
  show decodeGroup (0xF6000100#32 ||| o.enc) = .ok (.sysRseed o)
  have m : (0xF6000100#32 ||| o.enc) &&& 0xFFF80FF8#32 = 0xF6000100#32 := Fa.enc_and o _ _ (by decide) (by decide)
  rw [decodeGroup_own m (by decide) (by decide) (by decide), decodeDefined_7B _ (major_of_own _ m (by decide) (by decide)), if_neg (not_arm m (by decide)), if_neg (not_arm m (by decide)), if_neg (not_arm m (by decide)), if_neg (not_arm m (by decide)), if_neg (not_arm m (by decide)), if_neg (not_arm m (by decide)), if_neg (not_arm m (by decide)), if_neg (not_arm m (by decide)), if_pos m, Fa.dec_enc o _ (by decide)]

theorem gimm (o : GImm) : Statement (.gimm o) := by
  intro w e
  obtain rfl := Option.some.inj e
  show decodeGroup (0xF8000000#32 ||| o.enc) = .ok (.gimm o)
  have m : (0xF8000000#32 ||| o.enc) &&& 0xFF800000#32 = 0xF8000000#32 := GImm.enc_and o _ _ (by decide) (by decide)
  rw [decodeGroup_own m (by decide) (by decide) (by decide), decodeDefined_7C _ (major_of_own _ m (by decide) (by decide)), if_pos m, GImm.dec_enc o _ (by decide)]

theorem grep (o : GRep) : Statement (.grep o) := by
  intro w e
  obtain rfl := Option.some.inj e
  show decodeGroup (0xF8800000#32 ||| o.enc) = .ok (.grep o)
  have m : (0xF8800000#32 ||| o.enc) &&& 0xFF800FFF#32 = 0xF8800000#32 := GRep.enc_and o _ _ (by decide) (by decide)
  rw [decodeGroup_own m (by decide) (by decide) (by decide), decodeDefined_7C _ (major_of_own _ m (by decide) (by decide)), if_neg (not_arm m (by decide)), if_pos m, GRep.dec_enc o _ (by decide)]

theorem gmod (o : GMod) : Statement (.gmod o) := by
  intro w e
  obtain rfl := Option.some.inj e
  show decodeGroup (0xF9000000#32 ||| o.enc) = .ok (.gmod o)
  have m : (0xF9000000#32 ||| o.enc) &&& 0xFF8007FF#32 = 0xF9000000#32 := GMod.enc_and o _ _ (by decide) (by decide)
  rw [decodeGroup_own m (by decide) (by decide) (by decide), decodeDefined_7C _ (major_of_own _ m (by decide) (by decide)), if_neg (not_arm m (by decide)), if_neg (not_arm m (by decide)), if_pos m, GMod.dec_enc o _ (by decide)]

theorem gext (o : GExt) : Statement (.gext o) := by
  intro w e
  obtain rfl := Option.some.inj e
  show decodeGroup (0xF9800000#32 ||| o.enc) = .ok (.gext o)
  have m : (0xF9800000#32 ||| o.enc) &&& 0xFF800FFF#32 = 0xF9800000#32 := GExt.enc_and o _ _ (by decide) (by decide)
  rw [decodeGroup_own m (by decide) (by decide) (by decide), decodeDefined_7C _ (major_of_own _ m (by decide) (by decide)), if_neg (not_arm m (by decide)), if_neg (not_arm m (by decide)), if_neg (not_arm m (by decide)), if_pos m, GExt.dec_enc o _ (by decide)]

theorem gstall (o : GStall) : Statement (.gstall o) := by
  intro w e
  obtain rfl := Option.some.inj e
  show decodeGroup (0xFA000000#32 ||| o.enc) = .ok (.gstall o)
  have m : (0xFA000000#32 ||| o.enc) &&& 0xFF807FFF#32 = 0xFA000000#32 := GStall.enc_and o _ _ (by decide) (by decide)
  rw [decodeGroup_own m (by decide) (by decide) (by decide), decodeDefined_7D _ (major_of_own _ m (by decide) (by decide)), if_pos m, GStall.dec_enc o _ (by decide)]

theorem gscale (o : GScale) : Statement (.gscale o) := by
  intro w e
  obtain rfl := Option.some.inj e
  show decodeGroup (0xFA800000#32 ||| o.enc) = .ok (.gscale o)
  have m : (0xFA800000#32 ||| o.enc) &&& 0xFF80007F#32 = 0xFA800000#32 := GScale.enc_and o _ _ (by decide) (by decide)
  rw [decodeGroup_own m (by decide) (by decide) (by decide), decodeDefined_7D _ (major_of_own _ m (by decide) (by decide)), if_neg (not_arm m (by decide)), if_pos m, GScale.dec_enc o _ (by decide)]

theorem hmovi (o : HI) : Statement (.hmovi o) := by
  intro w e
  obtain rfl := Option.some.inj e
  show decodeHelm (0x08000000#32 ||| o.enc) = .ok (.hmovi o)
  have m : (0x08000000#32 ||| o.enc) &&& 0xF8200000#32 = 0x08000000#32 := HI.enc_and o _ _ (by decide) (by decide)
  rw [decodeHelm_01 _ (op_of_own _ m (by decide) (by decide)), if_pos m, HI.dec_enc o _ (by decide)]

theorem hmoviHi (o : HIh) : Statement (.hmoviHi o) := by
  intro w e
  obtain rfl := Option.some.inj e
  show decodeHelm (0x08200000#32 ||| o.enc) = .ok (.hmoviHi o)
  have m : (0x08200000#32 ||| o.enc) &&& 0xF83F0000#32 = 0x08200000#32 := HIh.enc_and o _ _ (by decide) (by decide)
  rw [decodeHelm_01 _ (op_of_own _ m (by decide) (by decide)), if_neg (not_arm m (by decide)), if_pos m, HIh.dec_enc o _ (by decide)]

theorem hadd (o : HR) : Statement (.hadd o) := by
  intro w e
  obtain rfl := Option.some.inj e
  show decodeHelm (0x10000000#32 ||| o.enc) = .ok (.hadd o)
  have m : (0x10000000#32 ||| o.enc) &&& 0xF8000000#32 = 0x10000000#32 := HR.enc_and o _ _ (by decide) (by decide)
  rw [decodeHelm_02 _ (op_of_own _ m (by decide) (by decide)), HR.dec_enc o _ (by decide)]

theorem hsub (o : HR) : Statement (.hsub o) := by
  intro w e
  obtain rfl := Option.some.inj e
  show decodeHelm (0x18000000#32 ||| o.enc) = .ok (.hsub o)
  have m : (0x18000000#32 ||| o.enc) &&& 0xF8000000#32 = 0x18000000#32 := HR.enc_and o _ _ (by decide) (by decide)
  rw [decodeHelm_03 _ (op_of_own _ m (by decide) (by decide)), HR.dec_enc o _ (by decide)]

theorem hshl (o : HR) : Statement (.hshl o) := by
  intro w e
  obtain rfl := Option.some.inj e
  show decodeHelm (0x20000000#32 ||| o.enc) = .ok (.hshl o)
  have m : (0x20000000#32 ||| o.enc) &&& 0xF8000000#32 = 0x20000000#32 := HR.enc_and o _ _ (by decide) (by decide)
  rw [decodeHelm_04 _ (op_of_own _ m (by decide) (by decide)), HR.dec_enc o _ (by decide)]

theorem hand (o : HR) : Statement (.hand o) := by
  intro w e
  obtain rfl := Option.some.inj e
  show decodeHelm (0x28000000#32 ||| o.enc) = .ok (.hand o)
  have m : (0x28000000#32 ||| o.enc) &&& 0xF8000000#32 = 0x28000000#32 := HR.enc_and o _ _ (by decide) (by decide)
  rw [decodeHelm_05 _ (op_of_own _ m (by decide) (by decide)), HR.dec_enc o _ (by decide)]

theorem hbr (o : HJ) : Statement (.hbr o) := by
  intro w e
  obtain rfl := Option.some.inj e
  show decodeHelm (0x30000000#32 ||| o.enc) = .ok (.hbr o)
  have m : (0x30000000#32 ||| o.enc) &&& 0xFFFFF000#32 = 0x30000000#32 := HJ.enc_and o _ _ (by decide) (by decide)
  rw [decodeHelm_06 _ (op_of_own _ m (by decide) (by decide)), if_pos m, HJ.dec_enc o _ (by decide)]

theorem hbrnz (o : HJa) : Statement (.hbrnz o) := by
  intro w e
  obtain rfl := Option.some.inj e
  show decodeHelm (0x38000000#32 ||| o.enc) = .ok (.hbrnz o)
  have m : (0x38000000#32 ||| o.enc) &&& 0xF83FF000#32 = 0x38000000#32 := HJa.enc_and o _ _ (by decide) (by decide)
  rw [decodeHelm_07 _ (op_of_own _ m (by decide) (by decide)), if_pos m, HJa.dec_enc o _ (by decide)]

theorem hloop (o : HJa) : Statement (.hloop o) := by
  intro w e
  obtain rfl := Option.some.inj e
  show decodeHelm (0x40000000#32 ||| o.enc) = .ok (.hloop o)
  have m : (0x40000000#32 ||| o.enc) &&& 0xF83FF000#32 = 0x40000000#32 := HJa.enc_and o _ _ (by decide) (by decide)
  rw [decodeHelm_08 _ (op_of_own _ m (by decide) (by decide)), if_pos m, HJa.dec_enc o _ (by decide)]

theorem hcall (o : HJ) : Statement (.hcall o) := by
  intro w e
  obtain rfl := Option.some.inj e
  show decodeHelm (0x48000000#32 ||| o.enc) = .ok (.hcall o)
  have m : (0x48000000#32 ||| o.enc) &&& 0xFFFFF000#32 = 0x48000000#32 := HJ.enc_and o _ _ (by decide) (by decide)
  rw [decodeHelm_09 _ (op_of_own _ m (by decide) (by decide)), if_pos m, HJ.dec_enc o _ (by decide)]

theorem hret : Statement .hret := by
  intro w e
  obtain rfl := Option.some.inj e
  show decodeHelm 0x50000000#32 = .ok .hret
  have m : 0x50000000#32 &&& 0xFFFFFFFF#32 = 0x50000000#32 := by decide
  rw [decodeHelm_0A _ (op_of_own _ m (by decide) (by decide)), if_pos m]

theorem mpop (o : HRd) : Statement (.mpop o) := by
  intro w e
  obtain rfl := Option.some.inj e
  show decodeHelm (0x58000000#32 ||| o.enc) = .ok (.mpop o)
  have m : (0x58000000#32 ||| o.enc) &&& 0xF83FFFFF#32 = 0x58000000#32 := HRd.enc_and o _ _ (by decide) (by decide)
  rw [decodeHelm_0B _ (op_of_own _ m (by decide) (by decide)), if_pos m, HRd.dec_enc o _ (by decide)]

theorem marrive (o : HRa) : Statement (.marrive o) := by
  intro w e
  obtain rfl := Option.some.inj e
  show decodeHelm (0x60000000#32 ||| o.enc) = .ok (.marrive o)
  have m : (0x60000000#32 ||| o.enc) &&& 0xFFC1FFFF#32 = 0x60000000#32 := HRa.enc_and o _ _ (by decide) (by decide)
  rw [decodeHelm_0C _ (op_of_own _ m (by decide) (by decide)), if_pos m, HRa.dec_enc o _ (by decide)]

theorem mwbar (o : HRa) : Statement (.mwbar o) := by
  intro w e
  obtain rfl := Option.some.inj e
  show decodeHelm (0x68000000#32 ||| o.enc) = .ok (.mwbar o)
  have m : (0x68000000#32 ||| o.enc) &&& 0xFFC1FFFF#32 = 0x68000000#32 := HRa.enc_and o _ _ (by decide) (by decide)
  rw [decodeHelm_0D _ (op_of_own _ m (by decide) (by decide)), if_pos m, HRa.dec_enc o _ (by decide)]

theorem mcopy (o : HRa) : Statement (.mcopy o) := by
  intro w e
  obtain rfl := Option.some.inj e
  show decodeHelm (0x70000000#32 ||| o.enc) = .ok (.mcopy o)
  have m : (0x70000000#32 ||| o.enc) &&& 0xFFC1FFFF#32 = 0x70000000#32 := HRa.enc_and o _ _ (by decide) (by decide)
  rw [decodeHelm_0E _ (op_of_own _ m (by decide) (by decide)), if_pos m, HRa.dec_enc o _ (by decide)]

theorem mcwait (o : HRa) : Statement (.mcwait o) := by
  intro w e
  obtain rfl := Option.some.inj e
  show decodeHelm (0x78000000#32 ||| o.enc) = .ok (.mcwait o)
  have m : (0x78000000#32 ||| o.enc) &&& 0xFFC1FFFF#32 = 0x78000000#32 := HRa.enc_and o _ _ (by decide) (by decide)
  rw [decodeHelm_0F _ (op_of_own _ m (by decide) (by decide)), if_pos m, HRa.dec_enc o _ (by decide)]

theorem mzero (o : HT1) : Statement (.mzero o) := by
  intro w e
  obtain rfl := Option.some.inj e
  show decodeHelm (0x80000000#32 ||| o.enc) = .ok (.mzero o)
  have m : (0x80000000#32 ||| o.enc) &&& 0xF9FFFFFF#32 = 0x80000000#32 := HT1.enc_and o _ _ (by decide) (by decide)
  rw [decodeHelm_10 _ (op_of_own _ m (by decide) (by decide)), if_pos m, HT1.dec_enc o _ (by decide)]

theorem mma (o : HTm) : Statement (.mma o) := by
  intro w e
  obtain rfl := Option.some.inj e
  show decodeHelm (0x88000000#32 ||| o.enc) = .ok (.mma o)
  have m : (0x88000000#32 ||| o.enc) &&& 0xF800001F#32 = 0x88000000#32 := HTm.enc_and o _ _ (by decide) (by decide)
  rw [decodeHelm_11 _ (op_of_own _ m (by decide) (by decide)), if_pos m, HTm.dec_enc o _ (by decide)]

theorem mexp (o : HTa) : Statement (.mexp o) := by
  intro w e
  obtain rfl := Option.some.inj e
  show decodeHelm (0x90000000#32 ||| o.enc) = .ok (.mexp o)
  have m : (0x90000000#32 ||| o.enc) &&& 0xF80FFFFF#32 = 0x90000000#32 := HTa.enc_and o _ _ (by decide) (by decide)
  rw [decodeHelm_12 _ (op_of_own _ m (by decide) (by decide)), if_pos m, HTa.dec_enc o _ (by decide)]

theorem mexpVdiff (o : HTab) : Statement (.mexpVdiff o) := by
  intro w e
  obtain rfl := Option.some.inj e
  show decodeHelm (0x90000001#32 ||| o.enc) = .ok (.mexpVdiff o)
  have m : (0x90000001#32 ||| o.enc) &&& 0xFE007FFF#32 = 0x90000001#32 := HTab.enc_and o _ _ (by decide) (by decide)
  rw [decodeHelm_12 _ (op_of_own _ m (by decide) (by decide)), if_neg (not_arm m (by decide)), if_pos m, HTab.dec_enc o _ (by decide)]

theorem mexpRcp (o : HTv) : Statement (.mexpRcp o) := by
  intro w e
  obtain rfl := Option.some.inj e
  show decodeHelm (0x90000002#32 ||| o.enc) = .ok (.mexpRcp o)
  have m : (0x90000002#32 ||| o.enc) &&& 0xFE0FFFFF#32 = 0x90000002#32 := HTv.enc_and o _ _ (by decide) (by decide)
  rw [decodeHelm_12 _ (op_of_own _ m (by decide) (by decide)), if_neg (not_arm m (by decide)), if_neg (not_arm m (by decide)), if_pos m, HTv.dec_enc o _ (by decide)]

theorem mrmax (o : HTa) : Statement (.mrmax o) := by
  intro w e
  obtain rfl := Option.some.inj e
  show decodeHelm (0x98000000#32 ||| o.enc) = .ok (.mrmax o)
  have m : (0x98000000#32 ||| o.enc) &&& 0xF80FFFFF#32 = 0x98000000#32 := HTa.enc_and o _ _ (by decide) (by decide)
  rw [decodeHelm_13 _ (op_of_own _ m (by decide) (by decide)), if_pos m, HTa.dec_enc o _ (by decide)]

theorem mrmaxKeep (o : HTtab) : Statement (.mrmaxKeep o) := by
  intro w e
  obtain rfl := Option.some.inj e
  show decodeHelm (0x98000001#32 ||| o.enc) = .ok (.mrmaxKeep o)
  have m : (0x98000001#32 ||| o.enc) &&& 0xF8007FFF#32 = 0x98000001#32 := HTtab.enc_and o _ _ (by decide) (by decide)
  rw [decodeHelm_13 _ (op_of_own _ m (by decide) (by decide)), if_neg (not_arm m (by decide)), if_pos m, HTtab.dec_enc o _ (by decide)]

theorem mrsum (o : HTa) : Statement (.mrsum o) := by
  intro w e
  obtain rfl := Option.some.inj e
  show decodeHelm (0xA0000000#32 ||| o.enc) = .ok (.mrsum o)
  have m : (0xA0000000#32 ||| o.enc) &&& 0xF80FFFFF#32 = 0xA0000000#32 := HTa.enc_and o _ _ (by decide) (by decide)
  rw [decodeHelm_14 _ (op_of_own _ m (by decide) (by decide)), if_pos m, HTa.dec_enc o _ (by decide)]

theorem mrsumDecay (o : HTtab) : Statement (.mrsumDecay o) := by
  intro w e
  obtain rfl := Option.some.inj e
  show decodeHelm (0xA0000001#32 ||| o.enc) = .ok (.mrsumDecay o)
  have m : (0xA0000001#32 ||| o.enc) &&& 0xF8007FFF#32 = 0xA0000001#32 := HTtab.enc_and o _ _ (by decide) (by decide)
  rw [decodeHelm_14 _ (op_of_own _ m (by decide) (by decide)), if_neg (not_arm m (by decide)), if_pos m, HTtab.dec_enc o _ (by decide)]

theorem mscale (o : HTa) : Statement (.mscale o) := by
  intro w e
  obtain rfl := Option.some.inj e
  show decodeHelm (0xA8000000#32 ||| o.enc) = .ok (.mscale o)
  have m : (0xA8000000#32 ||| o.enc) &&& 0xF80FFFFF#32 = 0xA8000000#32 := HTa.enc_and o _ _ (by decide) (by decide)
  rw [decodeHelm_15 _ (op_of_own _ m (by decide) (by decide)), if_pos m, HTa.dec_enc o _ (by decide)]

theorem mstore (o : HTf) : Statement (.mstore o) := by
  intro w e
  obtain rfl := Option.some.inj e
  show decodeHelm (0xB0000000#32 ||| o.enc) = .ok (.mstore o)
  have m : (0xB0000000#32 ||| o.enc) &&& 0xF8007FFC#32 = 0xB0000000#32 := HTf.enc_and o _ _ (by decide) (by decide)
  rw [decodeHelm_16 _ (op_of_own _ m (by decide) (by decide)), if_pos m, HTf.dec_enc o _ (by decide)]

theorem mplane (o : HTp) : Statement (.mplane o) := by
  intro w e
  obtain rfl := Option.some.inj e
  show decodeHelm (0xB8000000#32 ||| o.enc) = .ok (.mplane o)
  have m : (0xB8000000#32 ||| o.enc) &&& 0xF8000010#32 = 0xB8000000#32 := HTp.enc_and o _ _ (by decide) (by decide)
  rw [decodeHelm_17 _ (op_of_own _ m (by decide) (by decide)), if_pos m, HTp.dec_enc o _ (by decide)]

theorem mload (o : HTf) : Statement (.mload o) := by
  intro w e
  obtain rfl := Option.some.inj e
  show decodeHelm (0xC0000000#32 ||| o.enc) = .ok (.mload o)
  have m : (0xC0000000#32 ||| o.enc) &&& 0xF8007FFC#32 = 0xC0000000#32 := HTf.enc_and o _ _ (by decide) (by decide)
  rw [decodeHelm_18 _ (op_of_own _ m (by decide) (by decide)), if_pos m, HTf.dec_enc o _ (by decide)]

theorem mfence : Statement .mfence := by
  intro w e
  obtain rfl := Option.some.inj e
  show decodeHelm 0xC8000000#32 = .ok .mfence
  have m : 0xC8000000#32 &&& 0xFFFFFFFF#32 = 0xC8000000#32 := by decide
  rw [decodeHelm_19 _ (op_of_own _ m (by decide) (by decide)), if_pos m]

theorem mdone (o : HRa) : Statement (.mdone o) := by
  intro w e
  obtain rfl := Option.some.inj e
  show decodeHelm (0xD0000000#32 ||| o.enc) = .ok (.mdone o)
  have m : (0xD0000000#32 ||| o.enc) &&& 0xFFC1FFFF#32 = 0xD0000000#32 := HRa.enc_and o _ _ (by decide) (by decide)
  rw [decodeHelm_1A _ (op_of_own _ m (by decide) (by decide)), if_pos m, HRa.dec_enc o _ (by decide)]

theorem hnop : Statement .hnop := by
  intro w e
  obtain rfl := Option.some.inj e
  show decodeHelm 0xD8000000#32 = .ok .hnop
  have m : 0xD8000000#32 &&& 0xFFFFFFFF#32 = 0xD8000000#32 := by decide
  rw [decodeHelm_1B _ (op_of_own _ m (by decide) (by decide)), if_pos m]

theorem hhalt : Statement .hhalt := by
  intro w e
  obtain rfl := Option.some.inj e
  show decodeHelm 0xE0000000#32 = .ok .hhalt
  have m : 0xE0000000#32 &&& 0xFFFFFFFF#32 = 0xE0000000#32 := by decide
  rw [decodeHelm_1C _ (op_of_own _ m (by decide) (by decide)), if_pos m]

theorem inFlightComplete x0 x1 : Statement (.inFlightComplete x0 x1) := by
  intro w e
  cases e

theorem missEntryGrant x0 : Statement (.missEntryGrant x0) := by
  intro w e
  cases e

theorem refillComplete x0 : Statement (.refillComplete x0) := by
  intro w e
  cases e

theorem activeSetEnter x0 : Statement (.activeSetEnter x0) := by
  intro w e
  cases e

theorem displace x0 : Statement (.displace x0) := by
  intro w e
  cases e

theorem boostRise x0 : Statement (.boostRise x0) := by
  intro w e
  cases e

theorem quantumExpiry x0 : Statement (.quantumExpiry x0) := by
  intro w e
  cases e

theorem wBlockSave x0 : Statement (.wBlockSave x0) := by
  intro w e
  cases e

theorem gangPreempt x0 : Statement (.gangPreempt x0) := by
  intro w e
  cases e

theorem launchRecordCheck x0 : Statement (.launchRecordCheck x0) := by
  intro w e
  cases e

theorem blockPlace x0 : Statement (.blockPlace x0) := by
  intro w e
  cases e

theorem taskPlace x0 x1 : Statement (.taskPlace x0 x1) := by
  intro w e
  cases e

theorem swapOut x0 : Statement (.swapOut x0) := by
  intro w e
  cases e

theorem starveTimerExpiry x0 : Statement (.starveTimerExpiry x0) := by
  intro w e
  cases e

theorem workCompletionWord x0 : Statement (.workCompletionWord x0) := by
  intro w e
  cases e

theorem migrateUnit x0 x1 : Statement (.migrateUnit x0 x1) := by
  intro w e
  cases e

theorem forwardEntryRelease x0 x1 : Statement (.forwardEntryRelease x0 x1) := by
  intro w e
  cases e

theorem chainSwitchRequest x0 : Statement (.chainSwitchRequest x0) := by
  intro w e
  cases e

theorem chainFormSwitch x0 x1 : Statement (.chainFormSwitch x0 x1) := by
  intro w e
  cases e

theorem streamLoadItem x0 x1 : Statement (.streamLoadItem x0 x1) := by
  intro w e
  cases e

theorem streamStoreItem x0 x1 : Statement (.streamStoreItem x0 x1) := by
  intro w e
  cases e

theorem barrierArrivalEffect x0 : Statement (.barrierArrivalEffect x0) := by
  intro w e
  cases e

theorem copyChunk x0 : Statement (.copyChunk x0) := by
  intro w e
  cases e

theorem copyComplete x0 : Statement (.copyComplete x0) := by
  intro w e
  cases e

theorem mpostVisible x0 x1 : Statement (.mpostVisible x0 x1) := by
  intro w e
  cases e

theorem helmStartRequest x0 : Statement (.helmStartRequest x0) := by
  intro w e
  cases e

theorem helmLoadRequest x0 : Statement (.helmLoadRequest x0) := by
  intro w e
  cases e

theorem helmContextSwitch x0 : Statement (.helmContextSwitch x0) := by
  intro w e
  cases e

theorem tileOpComplete x0 : Statement (.tileOpComplete x0) := by
  intro w e
  cases e

theorem marriveEffect x0 : Statement (.marriveEffect x0) := by
  intro w e
  cases e

theorem mdoneEffect x0 : Statement (.mdoneEffect x0) := by
  intro w e
  cases e

theorem helmMwbarStarve x0 : Statement (.helmMwbarStarve x0) := by
  intro w e
  cases e

theorem homeRead x0 x1 : Statement (.homeRead x0 x1) := by
  intro w e
  cases e

theorem homeWritePerform x0 : Statement (.homeWritePerform x0) := by
  intro w e
  cases e

theorem spanClaim x0 x1 : Statement (.spanClaim x0 x1) := by
  intro w e
  cases e

theorem homeAtomic x0 x1 : Statement (.homeAtomic x0 x1) := by
  intro w e
  cases e

theorem updateOnlyEvict x0 x1 : Statement (.updateOnlyEvict x0 x1) := by
  intro w e
  cases e

theorem noticeCommit x0 : Statement (.noticeCommit x0) := by
  intro w e
  cases e

theorem noticeClaim x0 : Statement (.noticeClaim x0) := by
  intro w e
  cases e

theorem noticeRelease x0 : Statement (.noticeRelease x0) := by
  intro w e
  cases e

theorem draftEntryFree x0 x1 : Statement (.draftEntryFree x0 x1) := by
  intro w e
  cases e

theorem draftReplay x0 : Statement (.draftReplay x0) := by
  intro w e
  cases e

theorem l2DataError x0 x1 : Statement (.l2DataError x0 x1) := by
  intro w e
  cases e

theorem l2TagError x0 x1 : Statement (.l2TagError x0 x1) := by
  intro w e
  cases e

theorem sqEngineRequest x0 : Statement (.sqEngineRequest x0) := by
  intro w e
  cases e

theorem sqTransferComplete x0 : Statement (.sqTransferComplete x0) := by
  intro w e
  cases e

theorem statePageError x0 x1 : Statement (.statePageError x0 x1) := by
  intro w e
  cases e

theorem pageWalk x0 x1 x2 x3 : Statement (.pageWalk x0 x1 x2 x3) := by
  intro w e
  cases e

theorem tlbInv x0 x1 x2 : Statement (.tlbInv x0 x1 x2) := by
  intro w e
  cases e

theorem tlbInvComplete x0 : Statement (.tlbInvComplete x0) := by
  intro w e
  cases e

theorem fqBaseWrite x0 x1 x2 : Statement (.fqBaseWrite x0 x1 x2) := by
  intro w e
  cases e

theorem fqPtrHeadWrite x0 x1 x2 : Statement (.fqPtrHeadWrite x0 x1 x2) := by
  intro w e
  cases e

theorem fqResolve x0 x1 x2 x3 : Statement (.fqResolve x0 x1 x2 x3) := by
  intro w e
  cases e

theorem fqResolveFatal x0 x1 x2 x3 : Statement (.fqResolveFatal x0 x1 x2 x3) := by
  intro w e
  cases e

theorem ttqMove x0 x1 x2 : Statement (.ttqMove x0 x1 x2) := by
  intro w e
  cases e

theorem ttqDemote x0 x1 x2 : Statement (.ttqDemote x0 x1 x2) := by
  intro w e
  cases e

theorem ttqPromote x0 x1 x2 : Statement (.ttqPromote x0 x1 x2) := by
  intro w e
  cases e

theorem ttqCommandComplete x0 : Statement (.ttqCommandComplete x0) := by
  intro w e
  cases e

theorem blockHandlerEntry x0 : Statement (.blockHandlerEntry x0) := by
  intro w e
  cases e

theorem contextTrap x0 : Statement (.contextTrap x0) := by
  intro w e
  cases e

theorem partitionTrap x0 : Statement (.partitionTrap x0) := by
  intro w e
  cases e

theorem deviceTrap x0 : Statement (.deviceTrap x0) := by
  intro w e
  cases e

theorem handlertimeout x0 : Statement (.handlertimeout x0) := by
  intro w e
  cases e

theorem deviceRungTimeout x0 : Statement (.deviceRungTimeout x0) := by
  intro w e
  cases e

theorem pmtPreempt x0 x1 x2 : Statement (.pmtPreempt x0 x1 x2) := by
  intro w e
  cases e

theorem pmtResume x0 x1 x2 : Statement (.pmtResume x0 x1 x2) := by
  intro w e
  cases e

theorem preemptClassAck x0 x1 : Statement (.preemptClassAck x0 x1) := by
  intro w e
  cases e

theorem unitFence x0 x1 : Statement (.unitFence x0 x1) := by
  intro w e
  cases e

theorem devSemRead x0 : Statement (.devSemRead x0) := by
  intro w e
  cases e

theorem devSemWrite x0 x1 : Statement (.devSemWrite x0 x1) := by
  intro w e
  cases e

theorem devCtlFwu x0 x1 : Statement (.devCtlFwu x0 x1) := by
  intro w e
  cases e

theorem devCtlRst x0 x1 : Statement (.devCtlRst x0 x1) := by
  intro w e
  cases e

theorem coldReset : Statement .coldReset := by
  intro w e
  cases e

theorem bootVerify x0 x1 x2 : Statement (.bootVerify x0 x1 x2) := by
  intro w e
  cases e

theorem hostLinkReset x0 : Statement (.hostLinkReset x0) := by
  intro w e
  cases e

theorem partTblWrite x0 x1 x2 : Statement (.partTblWrite x0 x1 x2) := by
  intro w e
  cases e

theorem quarterWipeDone x0 : Statement (.quarterWipeDone x0) := by
  intro w e
  cases e

theorem hostBar2Read x0 x1 x2 : Statement (.hostBar2Read x0 x1 x2) := by
  intro w e
  cases e

theorem hostBar2Write x0 x1 x2 : Statement (.hostBar2Write x0 x1 x2) := by
  intro w e
  cases e

theorem nvIntWrite x0 x1 : Statement (.nvIntWrite x0 x1) := by
  intro w e
  cases e

theorem cqBaseWrite x0 x1 x2 : Statement (.cqBaseWrite x0 x1 x2) := by
  intro w e
  cases e

theorem cqKick x0 x1 x2 : Statement (.cqKick x0 x1 x2) := by
  intro w e
  cases e

theorem cqStampReread x0 : Statement (.cqStampReread x0) := by
  intro w e
  cases e

theorem cqNop x0 : Statement (.cqNop x0) := by
  intro w e
  cases e

theorem cqLaunch x0 : Statement (.cqLaunch x0) := by
  intro w e
  cases e

theorem cqWait x0 : Statement (.cqWait x0) := by
  intro w e
  cases e

theorem cqWaitSatisfied x0 : Statement (.cqWaitSatisfied x0) := by
  intro w e
  cases e

theorem cqSignal x0 : Statement (.cqSignal x0) := by
  intro w e
  cases e

theorem cqSignalWrite x0 : Statement (.cqSignalWrite x0) := by
  intro w e
  cases e

theorem sqPoolWrite x0 x1 x2 : Statement (.sqPoolWrite x0 x1 x2) := by
  intro w e
  cases e

theorem powerCapStep x0 : Statement (.powerCapStep x0) := by
  intro w e
  cases e

theorem registerWrite x0 x1 x2 : Statement (.registerWrite x0 x1 x2) := by
  intro w e
  cases e

theorem flitReceive x0 x1 x2 x3 : Statement (.flitReceive x0 x1 x2 x3) := by
  intro w e
  cases e

theorem flitReplay x0 x1 x2 : Statement (.flitReplay x0 x1 x2) := by
  intro w e
  cases e

theorem portRetrain x0 x1 : Statement (.portRetrain x0 x1) := by
  intro w e
  cases e

theorem portTrained x0 x1 x2 : Statement (.portTrained x0 x1 x2) := by
  intro w e
  cases e

theorem portDownTimeout x0 x1 : Statement (.portDownTimeout x0 x1) := by
  intro w e
  cases e

theorem remoteRequest x0 : Statement (.remoteRequest x0) := by
  intro w e
  cases e

theorem endpointLost x0 x1 : Statement (.endpointLost x0 x1) := by
  intro w e
  cases e

theorem wordNotAnInstruction : Statement .wordNotAnInstruction := by
  intro w e
  cases e

theorem helmReservedMajor : Statement .helmReservedMajor := by
  intro w e
  cases e

theorem firmwareAcknowledge x0 : Statement (.firmwareAcknowledge x0) := by
  intro w e
  cases e

theorem contextDestroy x0 x1 : Statement (.contextDestroy x0 x1) := by
  intro w e
  cases e

theorem lifeCycleChange x0 : Statement (.lifeCycleChange x0) := by
  intro w e
  cases e

theorem attestationRequest x0 x1 : Statement (.attestationRequest x0 x1) := by
  intro w e
  cases e

end Sys2Proof.Laws.EncodingRoundTrip
end

