-- ==== Sys2Proof/Safety.lean ====
section
/-!
DEFINITION. Sys2Proof/Safety.lean: the terms in which claims are stated: when a word of a group passes its checks, what its
completion leaves, and which parts of the machine it leaves alone.
-/
namespace Sys2Proof.Machine

/-! ## A word of a group about to act -/

/-- The state in which the word of the current group issues: an rpi left by a handler's return is 0 (R367). -/
def State.issuing (s : State) : State := s.modGrp s.cur Group.dropRpi

/-- What that word knows as it issues: its group, its glosses, its repeat, its issue cycle. -/
def State.ix (s : State) (vec : Bool) : IX := s.issuing.ixOf vec

/-- The current group is in the machine, no fence holds its access, and its word and glosses pass the checks of R38. -/
def Passes (cls : Option Nat) (vec : Bool) (i : Instr) (s : State) : Prop :=
  (s.groups.find? s.cur).isSome = true ∧ (s.ix vec).g.fenced cls = false ∧
    chainFault (s.ix vec).g.chain i s.iw (s.ix vec).g.regs (s.ix vec).g.beats (s.ix vec).g.pc (s.ix vec).rep = none

/-! ## What a completed word leaves -/

/-- The state differs from s at most in the record of group gid and that of core c. -/
def OnlyGroup (gid c : Nat) (s t : State) : Prop :=
  t = { s with groups := t.groups, cores := t.cores } ∧
    (∀ g, g ≠ gid → t.groups.find? g = s.groups.find? g) ∧ (∀ k, k ≠ c → t.cores.find? k = s.cores.find? k)

/-- The clock of the core after a word whose last beat is in cycle last (R61, R160); its generator is rnd. -/
def CoreAfter (x : IX) (vec : Bool) (last : Nat) (rnd : Word) (s t : State) : Prop :=
  t.core x.g.core = { s.core x.g.core with cycle := x.t + 1, vbusy := if vec then last + 1 else (s.core x.g.core).vbusy, rnd := rnd }

/-- Whether more repeats of the word follow (R28). -/
def IX.more (x : IX) : Bool := x.gl.grep.isSome && decide (x.rep + 1 < x.gl.count)

/-- The completion of a word or of one repeat of it: the next PC, the glosses used up, the cycle from which the next word
may issue and that from which a gloss may, the flags of beats complete by now entered, rpi stepped, the registers it named used
last in its issue cycle (R10, R15, R22, R28, R30, R53, R58, R62, R159); fp holds the flags pending. -/
def Retires (x : IX) (sf last : Nat) (tgt : Option Nat) (fp : List (Nat × Nat)) (h : Group) : Prop :=
  h.pc = (if x.more then x.g.pc else tgt.getD (nextPc x.g.pc)) ∧
  h.chain = (if x.more then x.g.chain else []) ∧
  h.nextIssue = last + max (x.gl.stallOf sf) 1 ∧ h.glossAt = last + 1 ∧ h.mid = false ∧
  h.readySince = h.nextIssue ∧ h.boost = 0 ∧ h.boostAt = h.nextIssue ∧ h.lru = x.g.useRegs x.w x.t x.named ∧
  h.flagPend = fp.filter (fun p => x.t < p.1) ∧
  h.gst = (let w := ({ x.g with flagPend := fp } : Group).gstAt x.t
           if x.gl.grep.isSome then withRpi w (if x.more then x.rep + 1 else 0) else w)

/-- The operations in flight, without the marks of the cells written since. -/
def Group.inFlight (g : Group) : List Op := g.ops.map fun o => { o with newer := [] }

/-- The group h is g but for registers, results pending, status, flags, PC, glosses and timing: every exception register,
bank, the divergence stack, the operations and fences in flight, the park state and every other field are as before. -/
def GroupKept (g h : Group) : Prop :=
  h = { g with sr := h.sr, vr := h.vr, pend := h.pend, ops := h.ops, gst := h.gst, flagPend := h.flagPend, pc := h.pc,
               chain := h.chain, mid := h.mid, nextIssue := h.nextIssue, glossAt := h.glossAt, readySince := h.readySince
               boost := h.boost, boostAt := h.boostAt, lru := h.lru } ∧
    h.inFlight = g.inFlight

/-- The scalar registers of h are those of g, but for v at d where d is a register; zr and the ports hold nothing (R12). -/
def ScalarsSet (g h : Group) (d : Nat) (v : Word) : Prop :=
  h.sr = (if d < 48 then g.sr.set d v else g.sr)

/-- A completed word that writes scalar d with latency lat and nothing else. -/
def ScalarDone (x : IX) (vec : Bool) (sf last lat d : Nat) (v : Word) (s t : State) : Prop :=
  OnlyGroup x.gid x.g.core s t ∧ CoreAfter x vec last (s.core x.g.core).rnd s t ∧
    GroupKept x.g (t.grp x.gid) ∧ Retires x sf last none x.g.flagPend (t.grp x.gid) ∧
    (t.grp x.gid).vr = x.g.vr ∧ ScalarsSet x.g (t.grp x.gid) d v ∧
    (t.grp x.gid).pend = (if d < 48 then x.g.pend ++ [⟨.scal d, last + lat, [wAt x.g.sr d]⟩] else x.g.pend).filter (fun p => x.t < p.ready)

/-- The lanes cell (n, b) of a group holds once the registers in dry are released: 0 where it is one of them (R57). -/
def Group.cellDry (g : Group) (dry : List Nat) (n b : Nat) : Lanes := if dry.contains n then zeroLanes else g.cellNow (.vec n b)

/-- The lanes of cell (n, b) after a vector word: in the rows of d the active lanes take val, every other lane and cell
keeps what it held or was released to (R46, R56, R57). -/
def vecAfter (g : Group) (dry : List Nat) (d : Nat) (rows : List Row) (val : Row → Nat → Word) (n b : Nat) : Lanes :=
  match rows.find? fun r => r.b = b with
  | some r =>
    if n = d then (g.cellDry dry n b).zipIdx.map fun q => if r.act.getLsbD q.2 then val r q.2 else q.1 else g.cellDry dry n b
  | none => g.cellDry dry n b

/-- The keys of a table rise: it holds one entry for each key (Word.lean). -/
def keysRise {α : Type} : Tbl α → Bool
  | [] => true
  | [_] => true
  | p :: q :: t => decide (p.1 < q.1) && keysRise (q :: t)

/-- Whether the core has free physical entries for a register (R55), so that none is spilled. -/
def Roomy (s : State) (c : Nat) : Prop := keysRise s.groups = true ∧ s.entriesUsed c + 3 ≤ Config.coreEntries

/-- The results pending after a vector word (R61, R64): those of its rows of d, and those of before. -/
def PendAfter (g : Group) (dry : List Nat) (d lat t : Nat) (rows : List Row) (h : Group) : Prop :=
  (∀ r ∈ rows, t < r.cyc + lat → (⟨.vec d r.b, r.cyc + lat, g.cellDry dry d r.b⟩ : PendW) ∈ h.pend) ∧
    ∀ p ∈ h.pend, (∃ r ∈ rows, p = ⟨.vec d r.b, r.cyc + lat, g.cellDry dry d r.b⟩) ∨
      ∃ o ∈ g.pend, p.cell = o.cell ∧ p.ready = o.ready

/-- A completed vector word that writes register d in its rows, with latency lat, and whose beats raise the flags fl: q
holds the operands and the state with the items of its port operands popped. -/
def VectorDone (x : IX) (sf lat d : Nat) (dry : List Nat) (q : Gath) (rows : List Row) (val : Row → Nat → Word)
    (fl : List (Nat × Nat)) (rnd : Word) (t : State) : Prop :=
  OnlyGroup x.gid x.g.core q.s t ∧ CoreAfter x true q.last rnd q.s t ∧
    GroupKept x.g (t.grp x.gid) ∧ Retires x sf q.last none (x.g.flagPend ++ fl) (t.grp x.gid) ∧ (t.grp x.gid).sr = x.g.sr ∧
    (∀ n b, b < x.g.beats → (t.grp x.gid).cellNow (.vec n b) = vecAfter x.g dry d rows val n b) ∧
    PendAfter x.g dry d lat x.t rows (t.grp x.gid)

/-- A completed vector word that writes scalars (a triple, a reduction, a vote): ws lists each with its value and the cycle
it is written in. -/
def VScalarDone (x : IX) (sf lat : Nat) (dry : List Nat) (q : Gath) (ws : List (Nat × Word × Nat)) (fl : List (Nat × Nat))
    (t : State) : Prop :=
  OnlyGroup x.gid x.g.core q.s t ∧ CoreAfter x true q.last (q.s.core x.g.core).rnd q.s t ∧
    GroupKept x.g (t.grp x.gid) ∧ Retires x sf q.last none (x.g.flagPend ++ fl) (t.grp x.gid) ∧
    (∀ n b, b < x.g.beats → (t.grp x.gid).cellNow (.vec n b) = x.g.cellDry dry n b) ∧
    (t.grp x.gid).sr = ws.foldl (fun r w => if w.1 < 48 then r.set w.1 w.2.1 else r) x.g.sr ∧
    (∀ w ∈ ws, w.1 < 48 → x.t < w.2.2 + lat →
      ∃ p ∈ (t.grp x.gid).pend, p.cell = .scal w.1 ∧ p.ready = w.2.2 + lat)

/-- The flags of the beats of a form that raise any, with the cycle their results are readable (R53). -/
def flagsOf (lat : Nat) (fs : List (Row × Nat)) : List (Nat × Nat) :=
  (fs.filter fun p => p.2 != 0).map fun p => (p.1.cyc + lat, p.2)

/-- The values of a lane of a row, in the order of the sources. -/
def Row.args (r : Row) (n l : Nat) : List Word := (List.range n).map fun i => r.at i l

/-- The flags a beat of a float form raises: those of its active lanes (R53, R110). -/
def beatFlags (f : Row → Nat → Word × Nat) (r : Row) : Nat := r.lanes.foldl (fun m l => m ||| (f r l).2) 0

/-! ## Shapes of a rule: what an instruction does whenever its word passes and its operands are readable -/

/-- A scalar form: scalar d takes f of the sources, readable two cycles later (R61, R82); the sources and d break no rule of
the scoreboard (R63). -/
def ScalarRule (i : Instr) (sf : BitVec 3) (srcs : IX → List Nat) (d : IX → Nat) (f : IX → List Word → Word) (s : State) : Prop :=
  let x := s.ix false
  Passes none false i s → x.g.scoreboard (scalarUses x (srcs x) [d x]) = none →
    ∃ t, exec i s = .next t ∧
      ScalarDone x false sf.toNat x.t 2 (d x) (f x ((srcs x).map fun n => scalarVal s.issuing x.g n x.t)) s.issuing t

/-- A vector form without flags: each active lane of each issued beat of d takes f of the lane's sources, readable lat
cycles after the beat (R46, R61, R71). -/
def VectorRule (i : Instr) (sf : BitVec 3) (lat : Nat) (srcs : IX → List Src) (dry : IX → List Nat) (d : IX → Nat)
    (f : IX → List Word → Word) (s : State) : Prop :=
  let x := s.ix true
  ∀ q, Passes none true i s → gather x s.issuing false (srcs x) [d x] [] = .ok q → Roomy q.s x.g.core →
    ∃ t, exec i s = .next t ∧
      VectorDone x sf.toNat lat (d x) (dry x) q q.rows (fun r l => f x (r.args (srcs x).length l)) [] (q.s.core x.g.core).rnd t

/-- The generator's draws for the issued beats of a form, and the generator after them: none for a form that does not round
stochastically (R112). -/
def drawsOf (stoch : Bool) (q : Gath) (rnd : Word) : List Word × Word := if stoch then draws q.rows.length rnd else ([], rnd)

/-- A float form: each active lane takes f of the beat's draw, the lane and its sources, and its beat raises the lane's
flags; no beat raises an exception that is enabled (R53, R70, R110, R112). -/
def FloatRule (i : Instr) (sf : BitVec 3) (lat : Nat) (stoch : IX → Bool) (srcs : IX → List Src) (dry : IX → List Nat)
    (d : IX → Nat) (f : IX → Word → Nat → List Word → Word × Nat) (s : State) : Prop :=
  let x := s.ix true
  ∀ q, Passes none true i s → gather x s.issuing false (srcs x) [d x] [] = .ok q → Roomy q.s x.g.core →
    let dr := drawsOf (stoch x) q (q.s.core x.g.core).rnd
    let val := fun (r : Row) (l : Nat) =>
      f x (dr.1.getD (q.rows.findIdx fun p => p.b = r.b) 0#32) l (r.args (srcs x).length l)
    fpxOf (gstEn x.g.gst) (q.rows.map fun r => (r.b, beatFlags val r)) = none →
    ∃ t, exec i s = .next t ∧
      VectorDone x sf.toNat lat (d x) (dry x) q q.rows (fun r l => (val r l).1)
        (flagsOf lat (q.rows.map fun r => (r, beatFlags val r))) dr.2 t

/-- The words of a condition triple: in an issued beat the active lanes that pass, 0 in every other beat (R73, R80). -/
def tripleWords (t last : Nat) (rows : List Row) (f : Row → Nat → Bool) : List (Nat × Word × Nat) :=
  if rows = [] then []
  else (List.range 3).map fun b =>
    match rows.find? fun r => r.b = b with
    | some r => (3 * t + b, (maskOf fun l => f r l) &&& r.act, r.cyc)
    | none => (3 * t + b, 0#32, last)

/-- A form that writes condition triple t from its active lanes, with flags (R73, R80). -/
def TripleRule (i : Instr) (sf : BitVec 3) (lat : Nat) (srcs : IX → List Src) (dry : IX → List Nat) (t : IX → Nat)
    (f : IX → List Word → Bool × Nat) (s : State) : Prop :=
  let x := s.ix true
  ∀ q, Passes none true i s → gather x s.issuing false (srcs x) [] (tripDst (t x)) = .ok q →
    let val := fun (r : Row) (l : Nat) => f x (r.args (srcs x).length l)
    let fl := q.rows.map fun r => (r, r.lanes.foldl (fun m l => m ||| (val r l).2) 0)
    fpxOf (gstEn x.g.gst) (fl.map fun p => (p.1.b, p.2)) = none →
    ∃ u, exec i s = .next u ∧
      VScalarDone x sf.toNat lat (dry x) q (tripleWords (t x) q.last q.rows fun r l => (val r l).1) (flagsOf lat fl) u

/-! ## Lane exchange (R86-R91) -/

/-- The active lane positions at or below p, or below p (R88). -/
def Gath.upTo (q : Gath) (incl : Bool) (p : Nat) : List Nat := q.active.filter fun k => if incl then k ≤ p else k < p

/-- Values combined left to right, with the flags of the last combination; the identity where there is none (R88, R90). -/
def Comb.fold (c : Comb) : List Word → Word × Nat
  | [] => (c.ident, 0)
  | v :: t => t.foldl (fun a v => c.step a.1 v) (c.first v)

/-- Whether a scan excludes the lane itself: bit 6 of FN, or the exclusive bit of gmod (R88). -/
def IX.exclusive (x : IX) (o : FUx) : Bool :=
  o.x = 1#1 || (match x.gl.gmod with
    | some m => m.x = 1#1
    | none => false)

/-- The flags of the combinations that end in a lane of a row (R90). -/
def exchFlags (c : Comb) (q : Gath) (r : Row) : Nat :=
  r.lanes.foldl (fun m l => m ||| (c.fold ((q.upTo true (32 * r.b + l)).map (q.lane 0))).2) 0

/-- A scan: each active lane takes the combination over the active lanes at or below it, or below it (R88, R90). -/
def ScanRule (i : Instr) (o : FUx) (c : Word → Comb) (s : State) : Prop :=
  let x := s.ix true
  ∀ q, Passes none true i s → gather x s.issuing true [x.srcA o.a o.fa] [x.d o.d] [] = .ok q → Roomy q.s x.g.core →
    let k := c x.g.gst
    let fl := q.late.map fun r => (r, exchFlags k q r)
    fpxOf (gstEn x.g.gst) (fl.map fun p => (p.1.b, p.2)) = none →
    ∃ t, exec i s = .next t ∧
      VectorDone x o.s.toNat 6 (x.d o.d) (dryOf (x.a o.a) o.a o.fa) q q.late
        (fun r l => (k.fold ((q.upTo (!x.exclusive o) (32 * r.b + l)).map (q.lane 0))).1) (flagsOf 6 fl) (q.s.core x.g.core).rnd t

/-- A reduction: d takes the combination over all active lanes where a beat issues (R89, R90). -/
def ReduceRule (i : Instr) (o : FD) (c : Word → Comb) (s : State) : Prop :=
  let x := s.ix true
  ∀ q, Passes none true i s → gather x s.issuing true [.vec (x.a o.a)] [] [(x.d o.d, none)] = .ok q →
    let k := c x.g.gst
    let fl := q.late.map fun r => (r, exchFlags k q r)
    fpxOf (gstEn x.g.gst) (fl.map fun p => (p.1.b, p.2)) = none →
    ∃ t, exec i s = .next t ∧
      VScalarDone x o.s.toNat 6 (dryOf (x.a o.a) o.a 0#1) q
        (if q.rows = [] then [] else [(x.d o.d, (k.fold (q.active.map (q.lane 0))).1, q.last)]) (flagsOf 6 fl) t

/-- A vote: n scalars from d on take the words f gives of the active lanes and of those whose value is not 0; zr discards
them (R91). -/
def VoteRule (i : Instr) (o : FD) (n : IX → Nat) (f : List Nat → List Nat → List Word) (s : State) : Prop :=
  let x := s.ix true
  let ds := if x.d o.d = 56 then [56] else (List.range (n x)).map fun j => x.d o.d + j
  ∀ q, Passes none true i s → gather x s.issuing true [.vec (x.a o.a)] [] (ds.map (·, none)) = .ok q →
    let vs := f q.active (q.active.filter fun l => q.lane 0 l != 0#32)
    ∃ t, exec i s = .next t ∧
      VScalarDone x o.s.toNat 6 (dryOf (x.a o.a) o.a 0#1) q
        (if q.rows = [] then [] else ds.zipIdx.map fun p => (p.1, vs.getD p.2 0#32, q.last)) [] t

/-! ## Words that take one cycle and leave a changed group (control flow, status, system) -/

/-- A completed one-cycle word after which the group is g' but for status, flags, PC, glosses and timing, at the target to
or at the next word; nothing else of the machine differs from s. -/
def PlainDone (x : IX) (vec : Bool) (sf : Nat) (tgt : Option Nat) (g' : Group) (s t : State) : Prop :=
  OnlyGroup x.gid x.g.core s t ∧ CoreAfter x vec x.t (s.core x.g.core).rnd s t ∧
    GroupKept g' (t.grp x.gid) ∧ Retires x sf x.t tgt x.g.flagPend (t.grp x.gid) ∧
    (t.grp x.gid).vr = g'.vr ∧ (t.grp x.gid).sr = g'.sr ∧ (t.grp x.gid).pend = g'.pend.filter fun p => x.t < p.ready

/-- The mask words of the beats that exist written, readable at once (R61, R94, R96). -/
def Group.withMask (g : Group) (m : List Word) : Group :=
  { g with
    sr := (List.range g.beats).foldl (fun r b => r.set b (wAt m b)) g.sr
    pend := g.pend.filter fun p => (List.range g.beats).all fun b => p.cell != .scal b }

/-- A one-cycle word: whenever it passes its checks, its scalars are readable and the further conditions hold, it completes
at the target with the group as given. -/
def PlainRule (i : Instr) (sf : BitVec 3) (reads writes : IX → List Nat) (cond : IX → State → Prop)
    (tgt : IX → Option Nat) (g' : IX → Group) (s : State) : Prop :=
  let x := s.ix false
  Passes none false i s → x.g.scoreboard (scalarUses x (reads x) []) = none → x.g.scoreboard (scalarUses x [] (writes x)) = none →
    cond x s.issuing → ∃ t, exec i s = .next t ∧ PlainDone x false sf.toNat (tgt x) (g' x) s.issuing t

/-- A transfer to pc: whenever its word passes its checks, its scalars are readable, the further conditions hold and the target
passes the checks of R10 and R27, it completes at the target with the group as given; the check has read the word before the target,
as an instruction fetch does (R311). -/
def TransferRule (i : Instr) (sf : BitVec 3) (reads writes : IX → List Nat) (cond : IX → State → Prop)
    (pc : IX → Nat) (g' : IX → Group) (s : State) : Prop :=
  let x := s.ix false
  let u := targetRead x s.issuing (pc x)
  Passes none false i s → x.g.scoreboard (scalarUses x (reads x) []) = none → x.g.scoreboard (scalarUses x [] (writes x)) = none →
    cond x s.issuing → checkTarget x s.issuing (pc x) = none →
    ∃ t, exec i s = .next t ∧
      PlainDone x false sf.toNat (some (pc x)) { g' x with fences := (u.grp x.gid).fences } u t

/-! ## Exceptions (R355-R361, R367) -/

/-- The group rung has a handler for group gid (R355, R358): it is no draft and no handler task, no save of its partition is under
way or stuck, it is in no handler, and the trap block of its context, whose words are b, names a vector. -/
def GroupRungOpen (s : State) (gid : Nat) (b : List Word) : Prop :=
  (s.grp gid).draft = none ∧ (s.grp gid).rung = 0 ∧ (∀ c, (s.workOf (s.grp gid)).src ≠ .handler c) ∧
    s.saving (s.keyOf (s.grp gid)) = false ∧ s.stuckSave (s.grp gid).unit = false ∧
    (∃ a, s.trapBlock (s.keyOf (s.grp gid)) = some (b, a)) ∧ goodVec (pair48 (wAt b 0) (wAt b 1)) = true

/-- The group h is g in the handler of the group rung (R359): s44-s47 hold the saved PC, the status, the cause word and the
information; s40-s43 hold the handler area and 0; the values of s40-s47 are set aside; the status keeps flags, class and
draft bit and gains hdl; the PC is gvec. Earlier results stand (R69). Nothing else of the group changes but its glosses, fetched words and waits. -/
def InHandler (g : Group) (b : List Word) (cause : Nat) (word info : Word) (pc : Nat) (h : Group) : Prop :=
  h = { g with sr := h.sr, bank := h.bank, gst := h.gst, hiPc := h.hiPc, pc := h.pc, rung := 1, served := cause, flagPend := [],
               chain := [], pend := [], pf := [], wait := none, notice := none, sqReq := none, trapPend := none, service := 0,
               serviceAt := h.serviceAt, st := h.st } ∧
    h.sr = g.sr.take 40 ++ [wAt b 6, wAt b 7 &&& 0xFFFF#32, 0#32, 0#32, toW pc, g.fullGst, word, info] ∧
    h.bank = g.sr.drop 40 ∧ h.gst = (g.fullGst &&& 0xE0001F00#32) ||| 0x10000000#32 ∧
    h.hiPc = pc / 4294967296 ∧ h.pc = pair48 (wAt b 0) (wAt b 1) ∧ (h.st = .active ∨ h.st = .pending)

/-- Group gid of s takes a trap at the group rung (R356, R359): in t it is in the handler, with its PC saved as pc. The trap block has
been read through its mapping, whose flags say so (R311, R314); no other group and no unit has changed, nor anything else. -/
def Trapped (g : Group) (b : List Word) (cause : Nat) (info : Word) (pc : Nat) (gid : Nat) (s t : State) : Prop :=
  let u := s.useTrap (s.keyOf (s.grp gid)) false
  OnlyGroup gid (s.grp gid).core u t ∧
    InHandler { g with fences := (u.grp gid).fences } b cause (toW cause) info pc (t.grp gid)

/-! ## Memory instructions (R128-R147, R183, R184, R270, R272) -/

/-- What an instruction that asks for memory has once its checks have passed (askAll): the state, the accesses with their physical
addresses, and the miss entries of its first beat. -/
abbrev Grant := State × List Acc × List (Nat × Nat)

/-- The checks of R135 and R144 passed over what an instruction asks for, and the miss entries of its first beat granted (R146). -/
def AskedNew (x : IX) (s : State) (c : Ctr) (align scope : Nat) (a : Access) (kind : Nat) (q : List Ask) (r : Grant) : Prop :=
  let m := s.translateAll (s.keyOf x.g) x.g.core a kind q
  s.askedBefore x q = none ∧
    (∀ e ∈ q, e.reg = 0 → e.va % align = 0) ∧ s.scopeDenied (s.keyOf x.g / 65536) scope = false ∧
    (∀ p ∈ m.2, ∃ pa vfa, p.2 = .ok pa vfa) ∧ r.2.1 = m.2.map accOf ∧ draftSide x.g r.2.1 = none ∧
    (needW a = true → m.1.draftStop x.g r.2.1 = none) ∧ x.g.count c < 63 ∧
    m.1.missGate x.gid x.g.core x.g.pc r.2.1 = .ok (r.1, r.2.2)

/-- The same of an instruction whose first beat had been rejected: it goes on with the accesses checked then (R147), its scope is judged
as it issues (R331). -/
def AskedAgain (x : IX) (s : State) (scope : Nat) (q : List Ask) (r : Grant) : Prop :=
  ∃ j, s.askedBefore x q = some j ∧ s.scopeDenied (s.keyOf x.g / 65536) scope = false ∧ r.2.1 = j.again q ∧ s.missGate x.gid x.g.core x.g.pc r.2.1 = .ok (r.1, r.2.2)

/-- What an instruction asks for is granted. -/
def Asked (x : IX) (s : State) (c : Ctr) (align scope : Nat) (a : Access) (kind : Nat) (q : List Ask) (r : Grant) : Prop :=
  AskedNew x s c align scope a kind q r ∨ AskedAgain x s scope q r

/-- The checks of R183 passed over what a scratch access asks for. -/
def ScratchAsked (x : IX) (s : State) (align : Nat) (write : Bool) (q : List Ask) : Prop :=
  (∀ e ∈ q, (e.reg = 0 → e.va % align = 0) ∧ e.va + e.n ≤ (s.unit x.g.unit).foot) ∧
    (write = true → ∀ e ∈ q, (s.unit x.g.unit).barIn? e.va (e.va + e.n) = none ∧
      (s.unit x.g.unit).claimed e.va (e.va + e.n) = false) ∧ x.g.count .x < 63

/-- The accesses of the scratchpad an instruction asks for (R183): its addresses are the unit's own. -/
def scratchAccs (q : List Ask) : List Acc := q.map fun e => ⟨e.lane, e.va, e.va, 0, e.n, e.reg, e.data, [], false, false, false, none⟩

/-- Operation p is o as it pends (R140, R147): of its beats, in their order, some are accepted, the first of them always. -/
def Entered (hdl : Bool) (stall : Nat) (o p : Op) : Prop :=
  p = { o with accs := p.accs, todo := p.todo, ents := p.ents, hdl := hdl, stall := stall } ∧
    p.accs ++ p.todo.flatten = (beatsOf o.accs).flatten ∧ (beatsOf o.accs).headD [] <+: p.accs

/-- A completed issue of a memory instruction: the operation o is pending on its counter (R140), as far as its beats have miss entries,
the next of the others being rejected (R146, R147); the registers in dry are released, and nothing else of the machine differs from s;
the accesses themselves come later. -/
def MemIssued (x : IX) (sf last : Nat) (dry : List Nat) (o : Op) (s t : State) : Prop :=
  let g := s.grp x.gid
  let h := t.grp x.gid
  OnlyGroup x.gid x.g.core s t ∧
    t.core x.g.core = { s.core x.g.core with cycle := x.t + 1, rejected := (t.core x.g.core).rejected } ∧
    (∃ p, Entered (gstHdl g.gst) (x.gl.stallOf sf) o p ∧
      (p.todo = [] → (t.core x.g.core).rejected = (s.core x.g.core).rejected) ∧
      (∀ b bs, p.todo = b :: bs → ∃ l n, (t.core x.g.core).rejected = l ++ [⟨x.gid, g.pc, false, b, [], n⟩]) ∧
      h = { g with vr := h.vr, pend := h.pend, ops := g.ops ++ [p], gst := h.gst, flagPend := h.flagPend, pc := h.pc
                   chain := h.chain, mid := h.mid, nextIssue := h.nextIssue, glossAt := h.glossAt, readySince := h.readySince
                   boost := h.boost, boostAt := h.boostAt, lru := h.lru }) ∧
    Retires { x with g := g } sf last none g.flagPend h ∧ (∀ n b, b < g.beats → h.cellNow (.vec n b) = g.cellDry dry n b)

/-- The same of an access that needs no miss entry: all of it is pending. -/
def OpIssued (x : IX) (sf last : Nat) (dry : List Nat) (o : Op) (s t : State) : Prop :=
  let g := s.grp x.gid
  let h := t.grp x.gid
  OnlyGroup x.gid x.g.core s t ∧ CoreAfter x false last (s.core x.g.core).rnd s t ∧
    h = { g with vr := h.vr, pend := h.pend, ops := g.ops ++ [{ o with hdl := gstHdl g.gst }], gst := h.gst, flagPend := h.flagPend
                 pc := h.pc, chain := h.chain, mid := h.mid, nextIssue := h.nextIssue, glossAt := h.glossAt
                 readySince := h.readySince, boost := h.boost, boostAt := h.boostAt, lru := h.lru } ∧
    Retires { x with g := g } sf last none g.flagPend h ∧ (∀ n b, b < g.beats → h.cellNow (.vec n b) = g.cellDry dry n b)

/-- No page of any VF is logged when written (R392). -/
def NoLog (s : State) : Prop := ∀ v, (s.vf v).dlog.getLsbD 0 = false

/-- An L1 line has 128 bytes, and its deltas are of its 32 words. -/
def L1Line.ok (l : L1Line) : Prop := l.bytes.length = 128 ∧ ∀ e ∈ l.upd, e.1 < 32

/-- The L1 lines are a table: one line for an L1 and a line number. -/
def L1Ok (s : State) : Prop := s.l1.Pairwise (fun a b => ¬ (a.core = b.core ∧ a.line = b.line)) ∧ ∀ l ∈ s.l1, l.ok

/-- L1 o has room for a line: it is not full, or holds the line (R215); no other line need leave it. -/
def L1Free (s : State) (o line : Nat) : Prop :=
  (s.l1.filter fun l => l.core = o).length < Config.l1Lines ∨ ∃ l ∈ s.l1, l.core = o ∧ l.line = line

/-- No L1 holds an update-only copy of a line (R272). -/
def NoUpdates (s : State) (line : Nat) : Prop := ∀ l ∈ s.l1, l.line = line → l.upd = []

/-- No L1 holds anything of a line. -/
def Uncached (s : State) (line : Nat) : Prop := ∀ l ∈ s.l1, l.line ≠ line

/-- Operation i of a group of the machine, with a single access that is not performed and that no earlier access of the group
to the same bytes holds back (R138); the access lies in one line. -/
def SoleAccess (s : State) (gid i : Nat) (o : Op) (a : Acc) : Prop :=
  (s.groups.find? gid).isSome = true ∧ (s.grp gid).ops[i]? = some o ∧ o.accs = [a] ∧ a.fin = false ∧ 0 < a.n ∧
    a.pa % 128 + a.n ≤ 128 ∧ (s.grp gid).blocked i o a = false

/-- In t the access of operation i of group gid is a. -/
def AccessIs (t : State) (gid i : Nat) (a : Acc) : Prop := ((t.grp gid).ops[i]?.map (·.accs)) = some [a]

/-- A completed word that leaves no operation pending and no result but the registers in dry released: nothing else of the
machine differs from s. -/
def WordDone (x : IX) (sf last : Nat) (dry : List Nat) (s t : State) : Prop :=
  let g := s.grp x.gid
  let h := t.grp x.gid
  OnlyGroup x.gid x.g.core s t ∧ CoreAfter x false last (s.core x.g.core).rnd s t ∧
    h = { g with vr := h.vr, pend := h.pend, gst := h.gst, flagPend := h.flagPend, pc := h.pc, chain := h.chain, mid := h.mid
                 nextIssue := h.nextIssue, glossAt := h.glossAt, readySince := h.readySince, boost := h.boost
                 boostAt := h.boostAt, lru := h.lru } ∧
    Retires { x with g := g } sf last none g.flagPend h ∧ (∀ n b, b < g.beats → h.cellNow (.vec n b) = g.cellDry dry n b)

/-- A completed one-cycle word that writes scalar d, readable two cycles later; nothing else of the machine differs from s. -/
def ScalarTaken (x : IX) (sf d : Nat) (v : Word) (s t : State) : Prop :=
  let g := s.grp x.gid
  let h := t.grp x.gid
  OnlyGroup x.gid x.g.core s t ∧ CoreAfter x false x.t (s.core x.g.core).rnd s t ∧
    GroupKept g h ∧ Retires { x with g := g } sf x.t none g.flagPend h ∧ h.vr = g.vr ∧ ScalarsSet g h d v ∧
    h.pend = (if d < 48 then g.pend ++ [⟨.scal d, x.t + 2, [wAt g.sr d]⟩] else g.pend).filter fun p => x.t < p.ready

/-- Group gid of t is parked with a reason code on a wait at a PC (R167); of the machine s only that group and the clock of its
core have changed. -/
def Parked (x : IX) (code : Nat) (w : WaitOn) (pc : Nat) (s t : State) : Prop :=
  let h := t.grp x.gid
  OnlyGroup x.gid x.g.core s t ∧ h.st = .parked ∧ h.wait = some (code, w) ∧ h.pc = pc ∧ h.chain = [] ∧ h.boost = 0 ∧
    h.starve = 0 ∧ h.sr = x.g.sr ∧ h.vr = x.g.vr ∧ h.ops = x.g.ops ∧ h.stk = x.g.stk ∧ h.bank = x.g.bank

/-! ## The helm (R243-R252) -/

/-- The helm of the current cluster serves context key, runs or re-runs its word, and the word's operands are within their
limits (R243, R248, R252). -/
def HelmRuns (i : Instr) (key : Nat) (s : State) : Prop :=
  (s.cluster s.curCl).serve = some key ∧ (s.helm key s.curCl).run ≠ .halted ∧ s.frozen key 1 = false ∧
    (∀ u, (s.helm key s.curCl).bind = some u → s.unitAway u = false) ∧ i.wf = true

/-- A completed helm word: the helm state of the context is h but for its PC, at the target or the next word, and its run
state; the helm's clock has advanced; nothing else of the machine differs from s. -/
def HelmDone (key : Nat) (h : HelmSt) (tgt : Option Nat) (s t : State) : Prop :=
  let cl := s.curCl
  t = { s with helms := t.helms, clusters := t.clusters } ∧
    t.helm key cl = { h with pc := tgt.getD (h.pc + 1), run := if h.run = .halted then .halted else .running } ∧
    (∀ k, k ≠ helmKey key cl → t.helms.find? k = s.helms.find? k) ∧
    t.cluster cl = { s.cluster cl with hcycle := (s.cluster cl).hcycle + (if tgt.isSome then 2 else 1) } ∧
    ∀ c, c ≠ cl → t.clusters.find? c = s.clusters.find? c

/-- A helm word that waits: the helm holds the wait and its PC stays; nothing else changes. -/
def HelmWaits (key : Nat) (w : HWait) (s t : State) : Prop :=
  t = s.setHelm key s.curCl { s.helm key s.curCl with run := .waiting w }

/-- A helm word that faults (R258): the helm halts, and the context rung is to receive the cause, with the word's index and
major. -/
def HelmFaults (key cause : Nat) (hi : Word) (s t : State) : Prop :=
  let h := s.helm key s.curCl
  t = s.helmFault key s.curCl cause (helmInfo h.pc s.iw) (min h.pc 4095) hi false

/-- The tile operation of a helm word is queued with the values of its registers, and the spans it reads are claimed (R241,
R253). -/
def TileQueued (key : Nat) (a b c e : Word) (spans : List (Nat × Nat)) (s t : State) : Prop :=
  let h := s.helm key s.curCl
  let u := h.bind.getD 0
  let s1 := s.modUnit u fun x => { x with claims := x.claims ++ spans.map fun p => ⟨p.1, p.2, 1, tileOwner h.nextTile s.curCl⟩ }
  HelmDone key { h with tiles := h.tiles ++ [⟨u, h.pc, s.iw, a, b, c, e, h.nextTile, (s.cluster s.curCl).hcycle, 0, [], none⟩], nextTile := h.nextTile + 1 } none s1 t

/-! ## The canonical form of the state (an invariant of every step) -/

/-- Memory and the tables of groups and cores hold one entry for each key in rising order, memory no zero byte, and each L1 at
most one entry for a line, of 128 bytes. -/
def Canonical (s : State) : Prop :=
  Memory.wf s.mem = true ∧ keysRise s.groups = true ∧ keysRise s.cores = true ∧ L1Ok s

end Sys2Proof.Machine
end

