-- ==== Sys2Proof/Certificates/Slice0/Obligations.lean ====
section
/-!
DEFINITION. Sys2Proof/Certificates/Slice0/Obligations.lean: what is claimed of the model; each statement formalises rules
of the spec, named in its docstring.
-/
open Sys2Proof Sys2Proof.Machine

/-! ## Scalar and vector results -/

/-- The scalar forms (R82): d takes its function of a and b, and the frame of a scalar word holds. The scalar forms of one source
(R83) and the scalar immediate forms (R84): the immediate is that of R19. -/
def Obligations.ScalarResults : Prop :=
  (∀ p ∈ ([(.sadd, fun a b => a + b), (.ssub, fun a b => a - b), (.smul, fun a b => a * b),
      (.smulhiN32, fun a b => ((a.setWidth 64 * b.setWidth 64) >>> 32).setWidth 32),
      (.sand, fun a b => a &&& b), (.sor, fun a b => a ||| b), (.sxor, fun a b => a ^^^ b),
      (.sshl, fun a b => a <<< (b.setWidth 8).toNat), (.sshrN32, fun a b => a >>> (b.setWidth 8).toNat),
      (.sshrI32, fun a b => a.sshiftRight (b.setWidth 8).toNat),
      (.sminI32, fun a b => if a.slt b then a else b), (.smaxI32, fun a b => if a.slt b then b else a),
      (.sminN32, fun a b => if a.ult b then a else b), (.smaxN32, fun a b => if a.ult b then b else a),
      (.scltI32, fun a b => if a.slt b then 1#32 else 0#32), (.scltN32, fun a b => if a.ult b then 1#32 else 0#32)] :
      List ((FS → Instr) × (Word → Word → Word))),
    ∀ (o : FS) (s : State),
      ScalarRule (p.1 o) o.s (fun x => [x.a o.a, x.b o.b]) (fun x => x.d o.d) (fun _ v => p.2 (v0 v) (v1 v)) s) ∧
  ((∀ p ∈ ([(.smov, fun a => a), (.sbitNot, fun a => ~~~a),
      (.sbitPopc, fun a => BitVec.ofNat 32 ((List.range 32).countP fun i => a.getLsbD i)),
      (.sbitClz, fun a => BitVec.ofNat 32 ((List.range 32).findIdx fun i => a.getLsbD (31 - i))),
      (.sbitCtz, fun a => BitVec.ofNat 32 ((List.range 32).findIdx fun i => a.getLsbD i)),
      (.sbitBrev, fun a => a.reverse), (.sbitSeqz, fun a => if a = 0#32 then 1#32 else 0#32)] :
      List ((FD → Instr) × (Word → Word))),
    ∀ (o : FD) (s : State),
      ScalarRule (p.1 o) o.s (fun x => [x.a o.a]) (fun x => x.d o.d) (fun _ v => p.2 (v0 v)) s) ∧
  (∀ p ∈ ([(.saddi, fun a i => a + i), (.sandi, fun a i => a &&& i), (.sori, fun a i => a ||| i)] :
      List ((FI → Instr) × (Word → Word → Word))),
    ∀ (o : FI) (s : State),
      ScalarRule (p.1 o) o.s (fun x => [x.a o.a]) (fun x => x.d o.d) (fun x v => p.2 (v0 v) (immOf x.gl o.i)) s) ∧
  ∀ (o : FIm) (s : State), ScalarRule (.smovi o) o.s (fun _ => []) (fun x => x.d o.d) (fun x _ => immOf x.gl o.i) s)

/-- The two-source integer and bit forms of the vector datapath (R74-R76). The one-source bit forms and the vector immediates
(R79, R84). The three-source integer forms (R29, R74, R76-R78, R118): the addend of a fused form is d, or operand c of gext; the
condition of vsel is triple 1, or the triple of gext. -/
def Obligations.VectorIntegerResults : Prop :=
  (∀ p ∈ ([(.vaddI32, fun a b => a + b), (.vsubI32, fun a b => a - b), (.vmulI32, fun a b => a * b),
      (.vmulhiI32, fun a b => ((a.signExtend 64 * b.signExtend 64) >>> 32).setWidth 32),
      (.vmulhiN32, fun a b => ((a.setWidth 64 * b.setWidth 64) >>> 32).setWidth 32),
      (.vminI32, fun a b => if a.slt b then a else b), (.vmaxI32, fun a b => if a.slt b then b else a),
      (.vminN32, fun a b => if a.ult b then a else b), (.vmaxN32, fun a b => if a.ult b then b else a),
      (.vand, fun a b => a &&& b), (.vor, fun a b => a ||| b), (.vxor, fun a b => a ^^^ b), (.vandn, fun a b => a &&& ~~~b),
      (.vshl, fun a b => a <<< (b.setWidth 8).toNat), (.vshrN32, fun a b => a >>> (b.setWidth 8).toNat),
      (.vshrI32, fun a b => a.sshiftRight (b.setWidth 8).toNat), (.vrotl, fun a b => a.rotateLeft (b.setWidth 5).toNat),
      (.vbfxN32, bfxN), (.vbfxI32, bfxI),
      (.vaddsatI32, fun a b => BitVec.ofInt 32 (max (-2147483648) (min 2147483647 (a.toInt + b.toInt)))),
      (.vsubsatI32, fun a b => BitVec.ofInt 32 (max (-2147483648) (min 2147483647 (a.toInt - b.toInt)))),
      (.vpack16, fun a b => (b.setWidth 16 ++ a.setWidth 16 : BitVec 32))] :
      List ((FR → Instr) × (Word → Word → Word))),
    ∀ (o : FR) (s : State),
      VectorRule (p.1 o) o.s 4 (fun x => [x.srcA o.a o.fa, x.srcB o.b o.fb]) (fun x => x.dryAB o.a o.b o.fa o.fb)
        (fun x => x.d o.d) (fun _ v => p.2 (v0 v) (v1 v)) s) ∧
  ((∀ p ∈ ([(.vmov, fun a => a), (.vbitNot, fun a => ~~~a),
      (.vbitPopc, fun a => BitVec.ofNat 32 ((List.range 32).countP fun i => a.getLsbD i)),
      (.vbitClz, fun a => BitVec.ofNat 32 ((List.range 32).findIdx fun i => a.getLsbD (31 - i))),
      (.vbitCtz, fun a => BitVec.ofNat 32 ((List.range 32).findIdx fun i => a.getLsbD i)),
      (.vbitBrev, fun a => a.reverse), (.vbitAbsI32, fun a => if a.msb then -a else a), (.vbitNegI32, fun a => -a),
      (.vbitAbsF32, fun a => a &&& 0x7FFFFFFF#32), (.vbitNegF32, fun a => a ^^^ 0x80000000#32)] :
      List ((FU → Instr) × (Word → Word))),
    ∀ (o : FU) (s : State),
      VectorRule (p.1 o) o.s 4 (fun x => [x.srcA o.a o.fa]) (fun x => dryOf (x.a o.a) o.a o.fa) (fun x => x.d o.d)
        (fun _ v => p.2 (v0 v)) s) ∧
  (∀ p ∈ ([(.vaddi, fun a i => a + i), (.vshli, fun a i => a <<< i.toNat)] : List ((FI → Instr) × (Word → Word → Word))),
    ∀ (o : FI) (s : State),
      VectorRule (p.1 o) o.s 4 (fun x => [.vec (x.a o.a)]) (fun x => dryOf (x.a o.a) o.a 0#1) (fun x => x.d o.d)
        (fun x v => p.2 (v0 v) (immOf x.gl o.i)) s) ∧
  ∀ (o : FIm) (s : State), VectorRule (.vmovi o) o.s 4 (fun _ => []) (fun _ => []) (fun x => x.d o.d) (fun x _ => immOf x.gl o.i) s) ∧
  ((∀ (o : FR) (s : State), VectorRule (.vmadI32 o) o.s 4 (fun x => [(x.addend o.d).1, x.srcA o.a o.fa, x.srcB o.b o.fb])
    (fun x => x.dryAB o.a o.b o.fa o.fb ++ (x.addend o.d).2) (fun x => x.d o.d) (fun _ v => v1 v * v2 v + v0 v) s) ∧
  (∀ p ∈ ([(.vbfi, bfi), (.vperm, permW)] : List ((FR → Instr) × (Word → Word → Word → Word))),
    ∀ (o : FR) (s : State), VectorRule (p.1 o) o.s 4 (fun x => [.vec (x.d o.d), x.srcA o.a o.fa, x.srcB o.b o.fb])
      (fun x => x.dryAB o.a o.b o.fa o.fb) (fun x => x.d o.d) (fun _ v => p.2 (v0 v) (v1 v) (v2 v)) s) ∧
  (∀ (o : FR) (s : State),
    let x := s.ix true
    let t := match x.gl.gext with
      | some p => p.t.toNat
      | none => 1
    ∀ q, Passes none true (.vsel o) s →
      gather x s.issuing false [x.srcA o.a o.fa, x.srcB o.b o.fb, .trip t] [x.d o.d] [] = .ok q → Roomy q.s x.g.core →
      ∃ u, exec (.vsel o) s = .next u ∧
        VectorDone x o.s.toNat 4 (x.d o.d) (x.dryAB o.a o.b o.fa o.fb) q q.rows
          (fun r l => if (r.at 2 l).getLsbD l then r.at 0 l else r.at 1 l) [] (q.s.core x.g.core).rnd u) ∧
  ∀ p ∈ ([(.vdot4I8, true, 8, 4), (.vdot4N8, false, 8, 4), (.vdot8I4, true, 4, 8)] :
      List ((FR → Instr) × Bool × Nat × Nat)),
    ∀ (o : FR) (s : State), VectorRule (p.1 o) o.s 6 (fun x => [x.srcA o.a o.fa, x.srcB o.b o.fb, (x.addend o.d).1])
      (fun x => x.dryAB o.a o.b o.fa o.fb ++ (x.addend o.d).2) (fun x => x.d o.d)
      (fun _ v => BitVec.ofInt 32 ((v2 v).toInt + ((List.range p.2.2.2).map fun j =>
        intElem p.2.1 p.2.2.1 (p.2.2.1 * j) (v0 v).toNat * intElem p.2.1 p.2.2.1 (p.2.2.1 * j) (v1 v).toNat).sum)) s)

/-- The compares and the dropout mask write a whole condition triple: the lanes that pass, 0 elsewhere (R73, R80, R81, R126). -/
def Obligations.CompareResults : Prop :=
  (∀ (o : FC) (s : State), TripleRule (.vcmpI32 o) o.s 4 (fun x => [x.srcA o.a o.fa, x.srcB o.b o.fb])
    (fun x => x.dryAB o.a o.b o.fa o.fb) (fun _ => o.t.toNat)
    (fun _ v => (intCond o.c.toNat (v0 v == v1 v) ((v0 v).slt (v1 v)), 0)) s) ∧
  (∀ (o : FC) (s : State), TripleRule (.vcmpN32 o) o.s 4 (fun x => [x.srcA o.a o.fa, x.srcB o.b o.fb])
    (fun x => x.dryAB o.a o.b o.fa o.fb) (fun _ => o.t.toNat)
    (fun _ v => (intCond o.c.toNat (v0 v == v1 v) ((v0 v).ult (v1 v)), 0)) s) ∧
  (∀ (o : FC) (s : State), TripleRule (.vcmpF32 o) o.s 4 (fun x => [x.srcA o.a o.fa, x.srcB o.b o.fb])
    (fun x => x.dryAB o.a o.b o.fa o.fb) (fun _ => o.t.toNat)
    (fun x v => fmt32.cmp (gstDn x.g.gst) o.c.toNat (v0 v).toNat (v1 v).toNat) s) ∧
  (∀ (o : FC) (s : State), TripleRule (.vcmpF16 o) o.s 4 (fun x => [x.srcA o.a o.fa, x.srcB o.b o.fb])
    (fun x => x.dryAB o.a o.b o.fa o.fb) (fun _ => o.t.toNat)
    (fun x v => fmt16.cmp (gstDn x.g.gst) o.c.toNat ((v0 v).setWidth 16).toNat ((v1 v).setWidth 16).toNat) s) ∧
  ∀ (o : FS) (s : State), TripleRule (.vdropm o) o.s 5 (fun x => [.vec (x.a o.a), .sc (x.b o.b)])
    (fun x => dryOf (x.a o.a) o.a 0#1) (fun x => o.d.toNat + x.gl.off .d x.rep)
    (fun x v => (((dropHash (v0 v) x.g.key) >>> 16).ult ((v1 v) &&& 0xFFFF#32), 0)) s

/-- The binary32 forms (R106, R115), vcopysign a bit operation without flags. The packed forms work on both halves; where gst.sr
holds and no override applies, they round stochastically, the high half by the complement of the lane's draw (R106, R112, R115). -/
def Obligations.FloatResults : Prop :=
  ((∀ p ∈ ([(.vaddF32, fun x a b => fmt32.add (x.env x.rm false) a b), (.vsubF32, fun x a b => fmt32.sub (x.env x.rm false) a b),
      (.vmulF32, fun x a b => fmt32.mul (x.env x.rm false) a b), (.vminF32, fun x a b => fmt32.minmax false (gstDn x.g.gst) a b),
      (.vmaxF32, fun x a b => fmt32.minmax true (gstDn x.g.gst) a b),
      (.vldexpF32, fun x a b => ldexp32 (x.env x.rm false) a (BitVec.ofNat 32 b).toInt)] :
      List ((FR → Instr) × (IX → Nat → Nat → Nat × Nat))),
    ∀ (o : FR) (s : State), FloatRule (p.1 o) o.s 5 (fun _ => false) (fun x => [x.srcA o.a o.fa, x.srcB o.b o.fb])
      (fun x => x.dryAB o.a o.b o.fa o.fb) (fun x => x.d o.d) (fun x _ _ v => asW (p.2 x (v0 v).toNat (v1 v).toNat)) s) ∧
  (∀ (o : FR) (s : State), FloatRule (.vfmaF32 o) o.s 5 (fun _ => false)
    (fun x => [x.srcA o.a o.fa, x.srcB o.b o.fb, (x.addend o.d).1])
    (fun x => x.dryAB o.a o.b o.fa o.fb ++ (x.addend o.d).2) (fun x => x.d o.d)
    (fun x _ _ v => asW (fmt32.fma (x.env x.rm false) (v0 v).toNat (v1 v).toNat (v2 v).toNat)) s) ∧
  ∀ (o : FR) (s : State), VectorRule (.vcopysignF32 o) o.s 5 (fun x => [x.srcA o.a o.fa, x.srcB o.b o.fb])
    (fun x => x.dryAB o.a o.b o.fa o.fb) (fun x => x.d o.d)
    (fun _ v => ((v1 v).extractLsb' 31 1 ++ (v0 v).extractLsb' 0 31 : BitVec 32)) s) ∧
  ((∀ p ∈ ([(.vaddF16x2, 13, fmt16.add), (.vmulF16x2, 13, fmt16.mul), (.vaddBf16x2, 16, fmtB16.add), (.vmulBf16x2, 16, fmtB16.mul)] :
      List ((FR → Instr) × Nat × (FEnv → Nat → Nat → Nat × Nat))),
    ∀ (o : FR) (s : State), FloatRule (p.1 o) o.s 5 IX.stoch (fun x => [x.srcA o.a o.fa, x.srcB o.b o.fb])
      (fun x => x.dryAB o.a o.b o.fa o.fb) (fun x => x.d o.d)
      (fun x r l v => packed x p.2.1 r l fun e lo => p.2.2 e (bits (v0 v).toNat lo 16) (bits (v1 v).toNat lo 16)) s) ∧
  (∀ p ∈ ([(.vfmaF16x2, 13, fmt16.fma), (.vfmaBf16x2, 16, fmtB16.fma)] :
      List ((FR → Instr) × Nat × (FEnv → Nat → Nat → Nat → Nat × Nat))),
    ∀ (o : FR) (s : State), FloatRule (p.1 o) o.s 5 IX.stoch (fun x => [x.srcA o.a o.fa, x.srcB o.b o.fb, (x.addend o.d).1])
      (fun x => x.dryAB o.a o.b o.fa o.fb ++ (x.addend o.d).2) (fun x => x.d o.d)
      (fun x r l v => packed x p.2.1 r l fun e lo =>
        p.2.2 e (bits (v0 v).toNat lo 16) (bits (v1 v).toNat lo 16) (bits (v2 v).toNat lo 16)) s) ∧
  ∀ p ∈ ([(.vminF16x2, false), (.vmaxF16x2, true)] : List ((FR → Instr) × Bool)),
    ∀ (o : FR) (s : State), FloatRule (p.1 o) o.s 5 (fun _ => false) (fun x => [x.srcA o.a o.fa, x.srcB o.b o.fb])
      (fun x => x.dryAB o.a o.b o.fa o.fb) (fun x => x.d o.d)
      (fun x _ _ v =>
        let h := fun lo => fmt16.minmax p.2 (gstDn x.g.gst) (bits (v0 v).toNat lo 16) (bits (v1 v).toNat lo 16)
        (toW ((h 0).1 + (h 16).1 * 65536), fOr (h 0).2 (h 16).2)) s)

/-- The conversions between binary32 and the integers, the half formats and the 8-bit and 4-bit formats (R121-R123). A
quantisation: each issued beat is one block (R125): a NaN or an infinity among its active lanes gives 0x0000FF00 and fnv, a block
of zeros 0x00007F00, and any other block one scale byte over the elements rounded. -/
def Obligations.ConversionResults : Prop :=
  ((∀ p ∈ ([(.vcvtI32F32, -2147483648, 2147483647), (.vcvtN32F32, 0, 4294967295)] : List ((FUm → Instr) × Int × Int)),
    ∀ (o : FUm) (s : State), FloatRule (p.1 o) o.s 5 (fun _ => false) (fun x => [x.srcA o.a o.fa])
      (fun x => dryOf (x.a o.a) o.a o.fa) (fun x => x.d o.d)
      (fun x _ _ v => toInt32 (x.env (RM.ofCode o.m.toNat) x.sat) p.2.1 p.2.2 (v0 v).toNat) s) ∧
  (∀ p ∈ ([(.vcvtF32I32, fun x a => ofInt32 (x.env x.rm false) a.toInt), (.vcvtF32N32, fun x a => ofInt32 (x.env x.rm false) a.toNat),
      (.vcvtF32F16, fun x a => fmt16.widen (gstDn x.g.gst) (a.setWidth 16).toNat),
      (.vcvtF32Bf16, fun x a => fmtB16.widen (gstDn x.g.gst) (a.setWidth 16).toNat)] :
      List ((FU → Instr) × (IX → Word → Nat × Nat))),
    ∀ (o : FU) (s : State), FloatRule (p.1 o) o.s 5 (fun _ => false) (fun x => [x.srcA o.a o.fa])
      (fun x => dryOf (x.a o.a) o.a o.fa) (fun x => x.d o.d) (fun x _ _ v => asW (p.2 x (v0 v))) s) ∧
  (∀ p ∈ ([(.vcvtF16F32, fmt16, 13), (.vcvtBf16F32, fmtB16, 16)] : List ((FU → Instr) × Fmt × Nat)),
    ∀ (o : FU) (s : State), FloatRule (p.1 o) o.s 5 IX.stoch (fun x => [x.srcA o.a o.fa])
      (fun x => dryOf (x.a o.a) o.a o.fa) (fun x => x.d o.d)
      (fun x r l v => asW (p.2.1.narrow (x.env (x.srMode (r.rotateLeft l) p.2.2) x.sat) (v0 v).toNat)) s) ∧
  (∀ p ∈ ([(.vcvtE4m3F32, fmtE4, 20), (.vcvtE5m2F32, fmtE5, 21)] : List ((FUrb → Instr) × Fmt × Nat)),
    ∀ (o : FUrb) (s : State), FloatRule (p.1 o) o.s 5 (fun _ => o.r = 1#1) (fun x => [x.srcA o.a o.fa, .vec (x.d o.d)])
      (fun x => dryOf (x.a o.a) o.a o.fa) (fun x => x.d o.d)
      (fun x r l v =>
        let c := p.2.1.narrow (x.env (if o.r = 1#1 then .sr (r.rotateLeft l).toNat p.2.2 else x.mode 0) x.sat) (v0 v).toNat
        (insBits (v1 v).toNat (8 * o.n.toNat) 8 c.1, c.2)) s) ∧
  (∀ (o : FUrn) (s : State), FloatRule (.vcvtE2m1F32 o) o.s 5 (fun _ => o.r = 1#1) (fun x => [x.srcA o.a o.fa, .vec (x.d o.d)])
      (fun x => dryOf (x.a o.a) o.a o.fa) (fun x => x.d o.d)
      (fun x r l v =>
        let c := fmtE2.narrow (x.env (if o.r = 1#1 then .sr (r.rotateLeft l).toNat 22 else x.mode 0) x.sat) (v0 v).toNat
        (insBits (v1 v).toNat (4 * o.n.toNat) 4 c.1, c.2)) s) ∧
  (∀ p ∈ ([(.vcvtF32E4m3, fmtE4), (.vcvtF32E5m2, fmtE5)] : List ((FUb → Instr) × Fmt)),
    ∀ (o : FUb) (s : State), FloatRule (p.1 o) o.s 5 (fun _ => false) (fun x => [x.srcA o.a o.fa])
      (fun x => dryOf (x.a o.a) o.a o.fa) (fun x => x.d o.d)
      (fun _ _ _ v => asW (p.2.widen false (bits (v0 v).toNat (8 * o.n.toNat) 8))) s) ∧
  ∀ (o : FUn) (s : State), FloatRule (.vcvtF32E2m1 o) o.s 5 (fun _ => false) (fun x => [x.srcA o.a o.fa])
    (fun x => dryOf (x.a o.a) o.a o.fa) (fun x => x.d o.d)
    (fun _ _ _ v => asW (fmtE2.widen false (bits (v0 v).toNat (4 * o.n.toNat) 4))) s) ∧
  (∀ p ∈ ([(.vquantE4m3, 448, 20, quantF fmtE4), (.vquantE5m2, 57344, 21, quantF fmtE5), (.vquantE2m1, 6, 22, quantF fmtE2),
      (.vquantI8, 127, 16, quantI 8 127), (.vquantI4, 7, 16, quantI 4 7)] :
      List ((FUq → Instr) × Nat × Nat × (RM → FVal → Int → Nat × Bool))),
    ∀ (o : FUq) (s : State),
      let x := s.ix true
      ∀ q, Passes none true (p.1 o) s → gather x s.issuing false [x.srcA o.a o.fa] [x.d o.d] [] = .ok q → Roomy q.s x.g.core →
        let dr := drawsOf (o.r = 1#1) q (q.s.core x.g.core).rnd
        let val := fun (r : Row) (l : Nat) => fmt32.read (gstDn x.g.gst) (r.at 0 l).toNat
        let bad := fun (r : Row) => (r.lanes.map (val r)).any fun v => match v with
          | .fin _ _ _ => false
          | _ => true
        let zero := fun (r : Row) => (r.lanes.map (val r)).all FVal.isZero
        let elem := fun (r : Row) (l : Nat) =>
          p.2.2.2 (if o.r = 1#1 then .sr ((dr.1.getD (q.rows.findIdx fun p => p.b = r.b) 0#32).rotateLeft l).toNat p.2.2.1 else .rne)
            (val r l) (blockScale p.2.1 (r.lanes.map (val r))).2
        let fl := q.rows.map fun r =>
          (r, if bad r then fNV else if zero r then 0 else if r.lanes.any fun l => (elem r l).2 then fNX else 0)
        fpxOf (gstEn x.g.gst) (fl.map fun p => (p.1.b, p.2)) = none →
        ∃ t, exec (p.1 o) s = .next t ∧
          VectorDone x o.s.toNat 5 (x.d o.d) (dryOf (x.a o.a) o.a o.fa) q q.rows
            (fun r l => if bad r then 0x0000FF00#32 else if zero r then 0x00007F00#32
              else toW ((blockScale p.2.1 (r.lanes.map (val r))).1 * 256 + (elem r l).1))
            (flagsOf 5 fl) dr.2 t)

/-- The special functions, latency 10 (R124). The float dot products (R119, R120): the scales of gscale enter, the addend is d or
operand c of gext. -/
def Obligations.FunctionAndDotResults : Prop :=
  (∀ p ∈ ([(.vsfuRcp, sfuRcp), (.vsfuRsq, sfuRsq), (.vsfuSqrt, sfuSqrt), (.vsfuExp2, sfuExp2), (.vsfuLog2, sfuLog2),
      (.vsfuSin2pi, sfuTrig 0), (.vsfuCos2pi, sfuTrig 1), (.vsfuTanh, sfuTanh), (.vsfuSigm, sfuSigm)] :
      List ((FU → Instr) × (Bool → Nat → Nat × Nat))),
    ∀ (o : FU) (s : State), FloatRule (p.1 o) o.s 10 (fun _ => false) (fun x => [x.srcA o.a o.fa])
      (fun x => dryOf (x.a o.a) o.a o.fa) (fun x => x.d o.d) (fun x _ _ v => asW (p.2 (gstDn x.g.gst) (v0 v).toNat)) s) ∧
  (∀ p ∈ ([(.vdot4E4m3, fmtE4, 8, 4, false), (.vdot4E5m2, fmtE5, 8, 4, false), (.vdot8E2m1, fmtE2, 4, 8, false),
      (.vdot2Bf16, fmtB16, 16, 2, true), (.vdot2F16, fmt16, 16, 2, true)] : List ((FR → Instr) × Fmt × Nat × Nat × Bool)),
    ∀ (o : FR) (s : State), FloatRule (p.1 o) o.s 6 (fun _ => false)
      (fun x => [x.srcA o.a o.fa, x.srcB o.b o.fb, (x.addend o.d).1] ++ (match x.gl.scale with
        | some g => [.vec g.a.toNat, .vec g.b.toNat]
        | none => []))
      (fun x => x.dryAB o.a o.b o.fa o.fb ++ (x.addend o.d).2) (fun x => x.d o.d)
      (fun x _ _ v =>
        let e := match x.gl.scale with
          | some g => (bits (v.getD 3 0#32).toNat (8 * g.p.toNat) 8, bits (v.getD 4 0#32).toNat (8 * g.q.toNat) 8)
          | none => (127, 127)
        if e.1 = 255 ∨ e.2 = 255 then (toW fmt32.nan, 0)
        else
          let el := fun (w : Word) (j : Nat) => p.2.1.read (p.2.2.2.2 && gstDn x.g.gst) (bits w.toNat (p.2.2.1 * j) p.2.2.1)
          asW (fmt32.fused (x.env (x.mode 0) false) ((e.1 : Int) + e.2 - 254)
            ((List.range p.2.2.2.1).map fun j => (el (v0 v) j, el (v1 v) j)) (fmt32.read (gstDn x.g.gst) (v2 v).toNat))) s)

/-! ## Lane exchange -/

/-- The shuffle (R86, R87): an active lane takes a of the lane its index names, whether or not that lane is active, and its own a
where the index is not below the width. -/
def Obligations.ShuffleResult : Prop :=
  ∀ (o : FR) (s : State),
    let x := s.ix true
    ∀ q, Passes none true (.vshfl o) s →
      gather x s.issuing true [x.srcA o.a o.fa, x.srcB o.b o.fb] [x.d o.d] [] = .ok q → Roomy q.s x.g.core →
      ∃ t, exec (.vshfl o) s = .next t ∧
        VectorDone x o.s.toNat 6 (x.d o.d) (x.dryAB o.a o.b o.fa o.fb) q q.late
          (fun r l => if (r.at 1 l).toNat < 32 * x.g.beats then q.lane 0 (r.at 1 l).toNat else r.at 0 l) []
          (q.s.core x.g.core).rnd t

/-- The scans (R88, R90): strictly left to right over the active lanes, inclusive or exclusive. The reductions (R89, R90): the
same combination over all active lanes into scalar d, its identity where no lane is active. The votes (R91): any, all, count and
first of the active lanes whose value is not 0, and the ballot words. -/
def Obligations.ScanReduceVoteResults : Prop :=
  (∀ p ∈ ([(.vscanAddI32, fun _ => combI 0#32 fun a b => a + b), (.vscanAddF32, combF),
      (.vscanMinI32, fun _ => combI 0x7FFFFFFF#32 fun a b => if a.slt b then a else b),
      (.vscanMaxI32, fun _ => combI 0x80000000#32 fun a b => if a.slt b then b else a),
      (.vscanMinN32, fun _ => combI 0xFFFFFFFF#32 fun a b => if a.ult b then a else b),
      (.vscanMaxN32, fun _ => combI 0#32 fun a b => if a.ult b then b else a),
      (.vscanAnd, fun _ => combI 0xFFFFFFFF#32 fun a b => a &&& b), (.vscanOr, fun _ => combI 0#32 fun a b => a ||| b),
      (.vscanXor, fun _ => combI 0#32 fun a b => a ^^^ b)] : List ((FUx → Instr) × (Word → Comb))),
    ∀ (o : FUx) (s : State), ScanRule (p.1 o) o p.2 s) ∧
  (∀ p ∈ ([(.vredAddI32, fun _ => combI 0#32 fun a b => a + b), (.vredAddF32, combF),
      (.vredMinI32, fun _ => combI 0x7FFFFFFF#32 fun a b => if a.slt b then a else b),
      (.vredMaxI32, fun _ => combI 0x80000000#32 fun a b => if a.slt b then b else a),
      (.vredMinN32, fun _ => combI 0xFFFFFFFF#32 fun a b => if a.ult b then a else b),
      (.vredMaxN32, fun _ => combI 0#32 fun a b => if a.ult b then b else a),
      (.vredAnd, fun _ => combI 0xFFFFFFFF#32 fun a b => a &&& b), (.vredOr, fun _ => combI 0#32 fun a b => a ||| b),
      (.vredXor, fun _ => combI 0#32 fun a b => a ^^^ b)] : List ((FD → Instr) × (Word → Comb))),
    ∀ (o : FD) (s : State), ReduceRule (p.1 o) o p.2 s) ∧
  (∀ p ∈ ([(.vvoteAny, fun _ => 1, fun _ y => [if y = [] then 0#32 else 1#32]),
      (.vvoteAll, fun _ => 1, fun a y => [if a.length = y.length then 1#32 else 0#32]),
      (.vvoteBallot, fun x => x.g.beats, fun _ y => (List.range 3).map fun b => maskOf fun l => y.contains (32 * b + l)),
      (.vvoteCount, fun _ => 1, fun _ y => [BitVec.ofNat 32 y.length]),
      (.vvoteFirst, fun _ => 1, fun _ y => [match y with
        | [] => 0xFFFFFFFF#32
        | l :: _ => BitVec.ofNat 32 l])] : List ((FD → Instr) × (IX → Nat) × (List Nat → List Nat → List Word))),
    ∀ (o : FD) (s : State), VoteRule (p.1 o) o p.2.1 p.2.2 s)

/-- A push to a port (R197, R198, R202, R333): a word that passes its checks and whose operand is gathered completes wherever it pushes
nothing (to zr, or with every beat skipped), and wherever its port is bound, its stream has not ended, the port has room and no fence
holds a signalling access of the group, which is no draft. The item holds the active lanes' values, 0 in the others, and the mask
words; in a folded chain the consumer stage runs next. (R197 has the pusher's mask words recorded; that a push which pops a port itself
records the words of the lanes it acts in, those of its own mask and of the item's, is the model's choice, log 115.) -/
def Obligations.PortPush : Prop :=
  ∀ (o : FU) (s : State) (q : Gath),
    let x := s.ix true
    let n := o.d.toNat + x.gl.off .d x.rep
    let row := fun (b : Nat) => q.rows.find? fun r => r.b = b
    let it : Item := ⟨(List.range x.g.beats).map fun b => match row b with
        | some r => (List.range 32).map fun l => if r.act.getLsbD l then r.at 0 l else 0#32
        | none => zeroLanes,
      (List.range 3).map fun b => match row b with
        | some r => r.act
        | none => 0#32⟩
    let dry := dryOf (x.a o.a) o.a o.fa
    Passes none true (.vmovPortPush o) s → gather x s.issuing false [x.srcA o.a o.fa] [] [] = .ok q →
    ((q.rows = [] ∨ n = 56) → ∃ t, exec (.vmovPortPush o) s = .next t ∧ VScalarDone x o.s.toNat 4 dry q [] [] t) ∧
    (∀ k l, q.rows ≠ [] → n ≠ 56 → x.g.fenced (some 3) = false → x.g.draft = none →
      q.s.linkOf x.g (n - 48) false = some (k, l) → portTrap q.s x.g (n - 48) false = none →
      l.items.length < (if (q.s.unit x.g.unit).foldedChain then 1 else 8) →
      ∃ t, exec (.vmovPortPush o) s = .next t ∧ ∃ u,
        VScalarDone x o.s.toNat 4 dry { q with s := q.s.setLink x.g.unit k { l with items := l.items ++ [it] } } [] [] u ∧
        t = if (q.s.unit x.g.unit).foldedChain ∧ l.kind = 0 then u.giveTo x.g.unit l.cs (x.g.st = .active) else u)

/-! ## Control flow, glosses and the system forms -/

/-- The uniform transfers (R20, R92, R93): br, brz, brnz, call and jr, where the target passes the checks of R10 and R27. The
divergence forms (R94-R97): mark pushes a rejoin entry, brd splits the active lanes, join pops. Where the stack is full, mark and brd
spill its oldest entry into the group's spill area first (R66); a join that leaves spilled entries behind refills, and at its end the
newest spilled entry is the oldest one held. -/
def Obligations.ControlTransfers : Prop :=
  (∀ (s : State),
    (∀ (o : FB), TransferRule (.br o) o.s (fun _ => []) (fun _ => []) (fun _ _ => True)
      (fun x => target x.g.pc o.o.toInt) (fun x => x.g) s) ∧
    (∀ p ∈ ([(.brz, true), (.brnz, false)] : List ((FBS → Instr) × Bool)), ∀ (o : FBS),
      TransferRule (p.1 o) o.s (fun _ => [o.d.toNat]) (fun _ => []) (fun x s => (scalarVal s x.g o.d.toNat x.t == 0#32) = p.2)
        (fun x => target x.g.pc o.o.toInt) (fun x => x.g) s ∧
      PlainRule (p.1 o) o.s (fun _ => [o.d.toNat]) (fun _ => [])
        (fun x s => (scalarVal s x.g o.d.toNat x.t == 0#32) ≠ p.2) (fun _ => none) (fun x => x.g) s) ∧
    (∀ (o : FBS), TransferRule (.call o) o.s (fun _ => []) (fun _ => [o.d.toNat]) (fun _ _ => True)
      (fun x => target x.g.pc o.o.toInt)
      (fun x => if o.d.toNat < 48 then { x.g with
          sr := x.g.sr.set o.d.toNat (toW (nextPc x.g.pc))
          pend := x.g.pend ++ [⟨.scal o.d.toNat, x.t + 2, [wAt x.g.sr o.d.toNat]⟩] } else x.g) s) ∧
    (∀ (o : Fd), ∀ v, TransferRule (.jr o) o.s (fun _ => [o.d.toNat]) (fun _ => [])
      (fun x s => v = x.g.pc / 4294967296 * 4294967296 + (scalarVal s x.g o.d.toNat x.t).toNat) (fun _ => v) (fun x => x.g) s)) ∧
  (∀ (s : State),
    let x := s.ix false
    let mk := (List.range x.g.beats).map fun b => scalarVal s.issuing x.g b x.t
    let spills := fun (u : State) (i : Instr) (e : DivEntry) (pc : Nat) => ∀ old w,
      x.g.stk.length = 16 → x.g.stk.getLast? = some old → x.g.stkSp < x.g.dspill →
      u.privPut x.gid (x.g.plim + 64 + x.g.stkSp) 0 (old.words.flatMap fun w => leBytes 4 w.toNat) = (w, true) →
      ∃ t, exec i s = .next t ∧ (t.grp x.gid).stk = e :: x.g.stk.dropLast ∧ (t.grp x.gid).stkSp = x.g.stkSp + 1 ∧
        (t.grp x.gid).pc = (if x.more then x.g.pc else pc) ∧ t.mem = w.mem ∧ t.l1 = w.l1 ∧ (t.grp x.gid).vr = (w.grp x.gid).vr
    (∀ (o : FB),
      let e : DivEntry := ⟨toW (target x.g.pc o.o.toInt), wAt mk 0, wAt mk 1, wAt mk 2⟩
      PlainRule (.mark o) o.s (fun x => List.range x.g.beats) (fun _ => []) (fun x _ => x.g.stk.length < 16)
        (fun _ => none) (fun x => { x.g with stk := e :: x.g.stk }) s ∧
      (Passes none false (.mark o) s → x.g.scoreboard (scalarUses x (List.range x.g.beats) []) = none →
        spills s.issuing (.mark o) e (nextPc x.g.pc))) ∧
    (∀ (o : FBD),
      let tr := (List.range x.g.beats).map fun b => scalarVal s.issuing x.g (3 * o.t.toNat + b) x.t
      let T := (List.range x.g.beats).map fun b => wAt tr b &&& wAt mk b
      let N := (List.range x.g.beats).map fun b => wAt mk b &&& ~~~(wAt tr b)
      let reads := fun (x : IX) => ((List.range x.g.beats).map fun b => 3 * o.t.toNat + b) ++ List.range x.g.beats
      let dest := fun (x : IX) => target x.g.pc o.o.toInt
      let e : DivEntry := ⟨toW (nextPc x.g.pc % 4294967296 + 1), wAt N 0, wAt N 1, wAt N 2⟩
      PlainRule (.brd o) o.s reads (fun _ => []) (fun _ _ => T.all (· = 0#32) = true) (fun _ => none) (fun x => x.g) s ∧
      TransferRule (.brd o) o.s reads (fun _ => []) (fun _ _ => T.all (· = 0#32) = false ∧ N.all (· = 0#32) = true) dest
        (fun x => x.g) s ∧
      TransferRule (.brd o) o.s reads (fun _ => [])
        (fun x _ => T.all (· = 0#32) = false ∧ N.all (· = 0#32) = false ∧ x.g.stk.length < 16) dest
        (fun x => Group.withMask { x.g with stk := e :: x.g.stk } T) s ∧
      (Passes none false (.brd o) s → x.g.scoreboard (scalarUses x (reads x) []) = none → T.all (· = 0#32) = false →
        N.all (· = 0#32) = false → checkTarget x s.issuing (dest x) = none →
        spills (targetRead x s.issuing (dest x)) (.brd o) e (dest x))) ∧
    (∀ (o : F0) (e : DivEntry) (rest : List DivEntry),
      TransferRule (.join o) o.s (fun _ => []) (fun x => List.range x.g.beats)
        (fun x _ => x.g.stk = e :: rest ∧ e.kind < 2) (fun x => e.pc x.g.pc)
        (fun x => Group.withMask { x.g with stk := rest, st := if x.g.stkSp = 0 then x.g.st else .refilling }
          [e.m0, e.m1, e.m2]) s)) ∧
  ∀ (s : State) (gid : Nat) (s1 : State) (b : List Byte),
    let g := s.grp gid
    (s.groups.find? gid).isSome = true → g.st = .refilling → g.refill = [] → g.stkSp ≠ 0 → g.stk.length < 16 →
    (s.unit g.unit).chain = none → s.privGet gid (g.plim + 64 + (g.stkSp - 1)) 0 16 = (s1, some b) →
    ∃ t, exec (.refillComplete gid) s = .next t ∧ (t.grp gid).st = .pending ∧ (t.grp gid).stkSp = g.stkSp - 1 ∧
      (t.grp gid).stk = g.stk ++ [⟨leWord (b.take 4), leWord ((b.drop 4).take 4), leWord ((b.drop 8).take 4), leWord ((b.drop 12).take 4)⟩] ∧
      (t.grp gid).sr = g.sr ∧ (t.grp gid).pc = g.pc ∧ t.mem = s1.mem

/-- A gloss word takes an issue slot of its own and joins the chain of its group; nothing else changes (R22, R26). The forms that
read and write status, seed and drafts (R53, R54, R113, R287, R365): nop, sys.getst, sys.setst, sys.rseed, sys.dcommit. -/
def Obligations.GlossAndStatusWords : Prop :=
  (∀ (s : State) (i : Instr), (∃ o, i = .gimm o) ∨ (∃ o, i = .grep o) ∨ (∃ o, i = .gmod o) ∨ (∃ o, i = .gext o) ∨
      (∃ o, i = .gstall o) ∨ (∃ o, i = .gscale o) ∨ (i = .wordNotAnInstruction ∧ isGloss s.iw = true) →
    let g := s.grp s.cur
    ∃ t, exec i s = .next t ∧ OnlyGroup s.cur g.core s t ∧
      t.grp s.cur = { g with chain := g.chain ++ [s.iw], mid := true, pc := (g.pc + 4) % 2 ^ 48 } ∧
      t.core g.core = { s.core g.core with cycle := (s.core g.core).cycle + 1 }) ∧
  (∀ (s : State),
    (∀ (o : F0), PlainRule (.nop o) o.s (fun _ => []) (fun _ => []) (fun _ _ => True) (fun _ => none) (fun x => x.g) s) ∧
    (∀ (o : Fd), PlainRule (.sysGetst o) o.s (fun _ => []) (fun _ => [o.d.toNat]) (fun _ _ => True) (fun _ => none)
      (fun x => if o.d.toNat < 48 then { x.g with
          sr := x.g.sr.set o.d.toNat x.g.fullGst
          pend := x.g.pend ++ [⟨.scal o.d.toNat, x.t + 2, [wAt x.g.sr o.d.toNat]⟩] } else x.g) s) ∧
    (∀ (o : Fa), let x := s.ix false
      let v := scalarVal s.issuing x.g (x.a o.a) x.t
      Passes none false (.sysSetst o) s → x.g.scoreboard (scalarUses x [x.a o.a] []) = none → v &&& 0x0001E0E0#32 = 0#32 →
      ∃ t, exec (.sysSetst o) s = .next t ∧ OnlyGroup x.gid x.g.core s.issuing t ∧ GroupKept x.g (t.grp x.gid) ∧
        (t.grp x.gid).sr = x.g.sr ∧ (t.grp x.gid).vr = x.g.vr ∧
        (t.grp x.gid).gst = ((x.g.gstAt x.t &&& ~~~0x0F80001F#32) ||| (v &&& 0x0F80001F#32)) &&& ~~~(v &&& 0x00001F00#32) ∧
        (t.grp x.gid).pc = nextPc x.g.pc) ∧
    (∀ (o : Fa), let x := s.ix false
      let v := scalarVal s.issuing x.g (x.a o.a) x.t
      Passes none false (.sysRseed o) s → x.g.scoreboard (scalarUses x [x.a o.a] []) = none →
      ∃ t, exec (.sysRseed o) s = .next t ∧ OnlyGroup x.gid x.g.core s.issuing t ∧
        CoreAfter x false x.t (if v = 0#32 then 0x9E3779B9#32 else v) s.issuing t ∧
        GroupKept { x.g with key := v } (t.grp x.gid) ∧ Retires x o.s.toNat x.t none x.g.flagPend (t.grp x.gid) ∧
        (t.grp x.gid).sr = x.g.sr ∧ (t.grp x.gid).vr = x.g.vr) ∧
    (∀ (o : F0), PlainRule (.sysDcommit o) o.s (fun _ => []) (fun _ => []) (fun x _ => x.g.draft = none) (fun _ => none)
      (fun x => x.g) s) ∧
    (∀ (o : F0), let x := s.ix false
      ∀ d, Passes none false (.sysDcommit o) s → x.g.draft = some d → s.issuing.copying x.gid = false → x.g.ops = [] →
      ∃ t, exec (.sysDcommit o) s = .next t ∧ (t.grp x.gid).draft = none ∧ (t.grp x.gid).gst.getLsbD 29 = false ∧
        (t.grp x.gid).pc = nextPc x.g.pc ∧ (t.grp x.gid).sr = x.g.sr ∧ (t.grp x.gid).vr = x.g.vr ∧
        t.mem = (s.issuing.draftCommit d).mem ∧ (t.die d.1).drafts.find? d.2 = some .committed))

/-! ## Exceptions, returns and ends -/

/-- A trap whose cause is first raised at the group rung, where that rung has a handler (R356, R359, R360): one step saves PC,
status, cause and information, and the group is at gvec; nothing else of the machine changes but for the flags of the trap block's
mapping. A trap that cannot be taken at the
group rung passes up (R355, R361, R362, R363): without a vector, or in a handler of the group rung, the group is held and its
trap waits at the block rung with psd set; POISON and PAGEFATAL wait at the context rung; a trap of a group in a block handler
goes to the context rung. -/
def Obligations.TrapEntry : Prop :=
  (∀ (s : State) (gid cause : Nat) (info : Word) (pc : Nat) (b : List Word),
    causeRung cause = 0 → (s.groups.find? gid).isSome = true → GroupRungOpen s gid b →
    Trapped (s.grp gid) b cause info pc gid s (s.trapAt gid cause info pc)) ∧
  (∀ (s : State) (gid cause : Nat) (info : Word) (pc : Nat),
    let g := s.grp gid
    let t := s.trapAt gid cause info pc
    let held := fun (u : State) => (t.grp gid).held = true ∧ (t.grp gid).pc = pc ∧ (t.grp gid).sr = g.sr ∧ (t.grp gid).vr = g.vr ∧
      (t.grp gid).gst = g.fullGst ∧ (t.grp gid).pend = [] ∧ t.mem = u.mem
    (s.groups.find? gid).isSome = true → (s.units.find? g.unit).isSome = true → g.draft = none →
    (∀ c, (s.workOf g).src ≠ .handler c) → s.saving (s.keyOf g) = false → s.stuckSave g.unit = false →
    (causeRung cause = 0 → g.rung = 1 →
      held s ∧ (t.unit g.unit).btraps = (s.unit g.unit).btraps ++ [(some gid, ⟨cause, info, pc, 0, true⟩)] ∧ t.trapQ = s.trapQ) ∧
    (causeRung cause = 0 → g.rung = 0 → (∀ b a, s.trapBlock (s.keyOf g) = some (b, a) → goodVec (pair48 (wAt b 0) (wAt b 1)) = false) →
      let u := s.useTrap (s.keyOf g) false
      held u ∧ (t.unit g.unit).btraps = (s.unit g.unit).btraps ++ [(some gid, ⟨cause, info, pc, 0, true⟩)] ∧ t.trapQ = u.trapQ) ∧
    (causeRung cause = 0 → g.rung = 2 →
      held s ∧ t.trapQ = s.trapQ ++ [s.trapRec gid 2 ⟨cause, info, pc, 0, true⟩]) ∧
    (causeRung cause = 2 → held s ∧ t.trapQ = s.trapQ ++ [s.trapRec gid 2 ⟨cause, info, pc, 2, false⟩]))

/-- sys.trap (R366): USER with the information n; the saved PC is the next word. sys.tret (R367): status, s40-s47 and PC are
restored; at the block rung the disposition 0 lets the trapped group go on. -/
def Obligations.SysTrapAndReturn : Prop :=
  (∀ (o : FT) (s : State) (b : List Word),
    let x := s.ix false
    let u := s.issuing.setGrp x.gid (x.g.retire x (Eff.plain x s.issuing) o.s.toNat)
    Passes none false (.sysTrap o) s → GroupRungOpen u x.gid b →
    ∃ t, exec (.sysTrap o) s = .next t ∧ Trapped (u.grp x.gid) b 0x16 (o.n.setWidth 32) (nextPc x.g.pc) x.gid u t ∧
      (u.grp x.gid).sr = x.g.sr ∧ (u.grp x.gid).vr = x.g.vr) ∧
  (∀ (s : State),
    let x := s.ix false
    let v := fun n => scalarVal s.issuing x.g n x.t
    let pc := x.g.hiPc * 4294967296 + (v 44).toNat
    let u := targetRead x s.issuing pc
    Passes none false .sysTret s → x.g.chain = [] →
    x.g.scoreboard (scalarUses x ([44, 45] ++ if x.g.rung = 2 then [43] else []) []) = none →
    gstHdl x.g.gst = true → tretBad (v 45) x.g.gst = false → checkTarget x s.issuing pc = none →
    let back := fun (h : Group) => h.pc = pc ∧ h.gst = v 45 ∧ h.sr = x.g.sr.take 40 ++ x.g.bank ∧ h.xsv = x.g.sr.drop 44 ∧
      h.rung = 0 ∧ h.vr = x.g.vr ∧ h.ops = x.g.ops ∧ h.stk = x.g.stk
    (x.g.rung ≠ 2 → ∃ t, exec .sysTret s = .next t ∧ OnlyGroup x.gid x.g.core u t ∧ back (t.grp x.gid)) ∧
    (∀ p tr, x.g.rung = 2 → (s.units.find? x.g.unit).isSome = true → (s.unit x.g.unit).bserve = some (some p, tr) →
      (s.unit x.g.unit).chain = none → (s.groups.find? p).isSome = true → p ≠ x.gid → v 43 = 0#32 →
      ∃ t, exec .sysTret s = .next t ∧ back (t.grp x.gid) ∧ (t.unit x.g.unit).bserve = none ∧ (t.grp p).held = false ∧
        (t.grp p).st = .pending ∧ (t.grp p).pc = (s.grp p).pc ∧ t.mem = u.mem))

/-- sys.exit and sys.dabort (R154, R287, R288, R368): the group ends and frees its rename entries; where it is the last of its
unit, the unit is done; a draft commits before it exits, and is discarded with its copies by an abort. -/
def Obligations.GroupEnds : Prop :=
  ∀ (s : State),
    let x := s.ix false
    let gone := fun (t : State) => (t.grp x.gid).st = .exited ∧ (t.grp x.gid).vr = [] ∧ (t.grp x.gid).ops = [] ∧
      (t.grp x.gid).sr = x.g.sr
    (Passes none false .sysExit s → x.g.ops = [] → x.g.rung ≠ 2 → x.g.draft = none →
      ∃ t, exec .sysExit s = .next t ∧ gone t ∧ t.mem = s.mem ∧
        (keysRise s.groups = true → (s.units.find? x.g.unit).isSome = true → (s.unit x.g.unit).done = false →
          (∀ p ∈ s.groups, p.1 ≠ x.gid → p.2.unit = x.g.unit → p.2.st = .exited) →
          (t.unit x.g.unit).done = true ∧ (t.work (s.unit x.g.unit).work).gone = (s.work (s.unit x.g.unit).work).gone + 1)) ∧
    (∀ d, Passes none false .sysExit s → x.g.ops = [] → x.g.rung ≠ 2 → x.g.draft = some d → s.issuing.copying x.gid = false →
      ∃ t, exec .sysExit s = .next t ∧ gone t ∧ t.mem = (s.issuing.draftCommit d).mem ∧
        (t.die d.1).drafts.find? d.2 = some .committed) ∧
    (∀ d, Passes none false .sysDabort s → x.g.draft = some d →
      ∃ t, exec .sysDabort s = .next t ∧ gone t ∧ t.mem = s.mem ∧ (∀ l ∈ t.drafts, ¬ (l.die = d.1 ∧ l.ent = d.2)) ∧
        (t.die d.1).drafts.find? d.2 = some .discarded ∧ ∀ c ∈ t.copies, c.2.gid ≠ some x.gid)

/-- Every group instruction whose word or glosses break a rule of R38 traps ILLOP with that word, before it changes anything
else; a word that is no instruction traps with the cause of its value (R37, R38, R356, R359). Faults that arise in execution
(R63, R66, R54, R131, R133, R135, R367): an early read of a scalar, a misaligned lane address, a private word at or above plim, a
mark onto a full stack without spill room, a reserved status bit, sys.tret outside a handler. Each traps with its cause and
information at the word at fault. -/
def Obligations.RefusedWordsAndFaults : Prop :=
  ((∀ (i : Instr) (s : State) (w : Word) (b : List Word),
    let x := s.ix false
    (encode i).isSome = true → helmWord i = false →
    (∀ o, i ≠ .gimm o) → (∀ o, i ≠ .grep o) → (∀ o, i ≠ .gmod o) → (∀ o, i ≠ .gext o) → (∀ o, i ≠ .gstall o) →
    (∀ o, i ≠ .gscale o) → (s.groups.find? s.cur).isSome = true → x.g.fences = [] → x.g.notice = none →
    chainFault x.g.chain i s.iw x.g.regs x.g.beats x.g.pc x.rep = some w → GroupRungOpen s.issuing s.cur b →
    ∃ t, exec i s = .next t ∧ Trapped x.g b 0x01 w x.g.firstPc s.cur s.issuing t) ∧
  ∀ (s : State) (b : List Word), let x := s.ixOf false
    isGloss s.iw = false → (s.groups.find? s.cur).isSome = true → x.g.chain = [] → GroupRungOpen s s.cur b →
    ∃ t, exec .wordNotAnInstruction s = .next t ∧
      Trapped x.g b (if s.iw = 0#32 then 0x02 else if s.iw = 0xFFFFFFFF#32 then 0x03 else 0x01) s.iw x.g.firstPc s.cur s t) ∧
  (∀ (s : State) (b : List Word),
    let x := s.ix false
    let traps := fun (i : Instr) (cause : Nat) (info : Word) =>
      ∃ t, exec i s = .next t ∧ Trapped x.g b cause info x.g.firstPc x.gid s.issuing t
    GroupRungOpen s.issuing x.gid b →
    (∀ (o : FS) (p : PendW), Passes none false (.sadd o) s → gstChk x.g.gst = true → x.a o.a < 48 →
      p ∈ x.g.pend → p.cell = .scal (x.a o.a) → x.t < p.ready → x.g.varPending (.scal (x.a o.a)) = false →
      traps (.sadd o) 0x04 (stallInfo (.scal (x.a o.a)) 0 false)) ∧
    (∀ (o : FM) (q : Gath) (e : Ask) (l r : List Ask), Passes (some 0) false (.ld o) s →
      gather x s.issuing false [.vec (x.a o.a), .sc (2 * o.k.toNat), .sc (2 * o.k.toNat + 1)]
        ((List.range (sizeRegs o.z)).map fun j => x.d o.d + j) [] = .ok q →
      laneAsks q (fun r l => addOff48 (pair48 (r.at 1 l) (r.at 2 l)) (r.at 0 l)) o.z.toNat (fun _ _ => []) = l ++ e :: r →
      s.issuing.askedBefore x (l ++ e :: r) = none → (∀ f ∈ l, f.reg = 0 → f.va % sizeBytes o.z = 0) → e.reg = 0 → e.va % sizeBytes o.z ≠ 0 → traps (.ld o) 0x06 (toW e.va)) ∧
    (∀ (o : FMp) (q : Gath) (r : Row) (l : Nat) (u v : List (Row × Nat)), Passes (some 0) false (.ldp o) s →
      gather x s.issuing false [.vec (x.a o.a)] ((List.range (sizeRegs o.z)).map fun j => x.d o.d + j) [] = .ok q →
      (q.rows.flatMap fun r => r.lanes.map fun l => (r, l)) = u ++ (r, l) :: v →
      (∀ f ∈ u, (f.1.at 0 f.2).toNat + sizeRegs o.z - 1 < x.g.plim) → x.g.plim ≤ (r.at 0 l).toNat + sizeRegs o.z - 1 →
      traps (.ldp o) 0x05 (r.at 0 l)) ∧
    (∀ (o : FB), Passes none false (.mark o) s → x.g.scoreboard (scalarUses x (List.range x.g.beats) []) = none →
      16 ≤ x.g.stk.length → x.g.dspill ≤ x.g.stkSp → traps (.mark o) 0x05 0xFFFFFFFF#32) ∧
    (∀ (o : Fa), Passes none false (.sysSetst o) s → x.g.scoreboard (scalarUses x [x.a o.a] []) = none →
      scalarVal s.issuing x.g (x.a o.a) x.t &&& 0x0001E0E0#32 ≠ 0#32 → traps (.sysSetst o) 0x01 s.iw) ∧
    (Passes none false .sysTret s → gstHdl x.g.gst = false → traps .sysTret 0x13 0#32))

/-! ## Memory -/

/-- ld and st (R133, R135-R137, R140): each active lane asks for the bytes at the 48-bit base, as its beat reads it, plus its signed offset; once every
lane has passed its checks and the first beat has its miss entries, the operation is pending on g or w with every lane's access, beat
by beat as there are entries (R146, R147), and a store holds its data. sld and sst
(R134): one access at the base plus the scalar offset; data registers of zr are none. -/
def Obligations.GlobalAccess : Prop :=
  (∀ p ∈ ([(.ld, false), (.st, true)] : List ((FM → Instr) × Bool)), ∀ (o : FM) (s : State),
    let x := s.ix false
    let regs := (List.range (sizeRegs o.z)).map fun j => x.d o.d + j
    let srcs := Src.vec (x.a o.a) :: (if p.2 then regs.map Src.vec else [])
    let k := srcs.length
    let c : Ctr := if p.2 then .w else .g
    ∀ q r, Passes (some (if p.2 then 1 else 0)) false (p.1 o) s →
      gather x s.issuing false (srcs ++ [.sc (2 * o.k.toNat), .sc (2 * o.k.toNat + 1)]) (if p.2 then [] else regs) [] = .ok q →
      Asked x q.s c (sizeBytes o.z) x.scope (if p.2 then .write else .read) (if p.2 then 1 else 0)
        (laneAsks q (fun r l => addOff48 (pair48 (r.at k l) (r.at (k + 1) l)) (r.at 0 l)) o.z.toNat fun r l =>
          if p.2 then storeData o.z.toNat ((List.range (sizeRegs o.z)).map fun j => r.at (j + 1) l) else []) r →
      ∃ t, exec (p.1 o) s = .next t ∧ MemIssued x o.s.toNat q.last (dryOf (x.a o.a) o.a 0#1)
        (.new c (if p.2 then .store else .load) x.scope x.pol 0 o.z.toNat (x.d o.d) true r.2.1) r.1 t) ∧
  (∀ p ∈ ([(.sld, false), (.sst, true)] : List ((FM → Instr) × Bool)), ∀ (o : FM) (s : State),
    let x := s.ix false
    let regs := if x.d o.d = 56 then [] else (List.range (sizeRegs o.z)).map fun j => x.d o.d + j
    let v := fun n => scalarVal s.issuing x.g n x.t
    let va := addOff48 (pair48 (v (2 * o.k.toNat)) (v (2 * o.k.toNat + 1))) (v (x.a o.a))
    let c : Ctr := if p.2 then .w else .g
    ∀ r, Passes (some (if p.2 then 1 else 0)) false (p.1 o) s →
      x.g.scoreboard (scalarUses x (pairRegs o.k ++ [x.a o.a] ++ (if p.2 then regs else [])) (if p.2 then [] else regs)) = none →
      Asked x s.issuing c (sizeBytes o.z) x.scope (if p.2 then .write else .read) (if p.2 then 1 else 0)
        (asksOf 0 va o.z.toNat (if p.2 then storeData o.z.toNat (regs.map v) else [])) r →
      ∃ t, exec (p.1 o) s = .next t ∧ MemIssued x o.s.toNat x.t []
        (.new c (if p.2 then .store else .load) x.scope x.pol 0 o.z.toNat (x.d o.d) false r.2.1) r.1 t)

/-- ldp and stp (R129, R131): word i + j of each active lane, where every word lies below plim, pending on p. ldx, stx and atomx
(R183, R184): the lane's address is base plus offset modulo 2^32 in the unit's scratchpad, pending on x. -/
def Obligations.PrivateAndScratchAccess : Prop :=
  (∀ p ∈ ([(.ldp, false), (.stp, true)] : List ((FMp → Instr) × Bool)), ∀ (o : FMp) (s : State),
    let x := s.ix false
    let regs := (List.range (sizeRegs o.z)).map fun j => x.d o.d + j
    ∀ q r, Passes (some (if p.2 then 1 else 0)) false (p.1 o) s →
      gather x s.issuing false (.vec (x.a o.a) :: (if p.2 then regs.map Src.vec else [])) (if p.2 then [] else regs) [] = .ok q →
      (∀ w ∈ q.rows, ∀ l ∈ w.lanes, (w.at 0 l).toNat + sizeRegs o.z - 1 < x.g.plim) →
      Asked x q.s .p 1 2 (if p.2 then .write else .read) (if p.2 then 1 else 0)
        (q.rows.flatMap fun w => w.lanes.flatMap fun l => (List.range (sizeRegs o.z)).map fun j =>
          ⟨32 * w.b + l, x.g.win + (((w.at 0 l).toNat + j) * x.g.beats * 32 + (32 * w.b + l)) * 4, 4, j,
            if p.2 then leBytes 4 (w.at (j + 1) l).toNat else []⟩) r →
      ∃ t, exec (p.1 o) s = .next t ∧ MemIssued x o.s.toNat q.last (dryOf (x.a o.a) o.a 0#1)
        (.new .p (if p.2 then .stp else .ldp) 2 x.pol 0 o.z.toNat (x.d o.d) true r.2.1) r.1 t) ∧
  ((∀ p ∈ ([(.ldx, false), (.stx, true)] : List ((FM → Instr) × Bool)), ∀ (o : FM) (s : State),
    let x := s.ix false
    let regs := (List.range (sizeRegs o.z)).map fun j => x.d o.d + j
    let srcs := Src.vec (x.a o.a) :: (if p.2 then regs.map Src.vec else [])
    ∀ q, Passes (some (if p.2 then 1 else 0)) false (p.1 o) s →
      gather x s.issuing false (srcs ++ [.sc (2 * o.k.toNat)]) (if p.2 then [] else regs) [] = .ok q →
      let asks := laneAsks q (fun r l => (r.at srcs.length l + r.at 0 l).toNat) o.z.toNat fun r l =>
        if p.2 then storeData o.z.toNat ((List.range (sizeRegs o.z)).map fun j => r.at (j + 1) l) else []
      ScratchAsked x q.s (sizeBytes o.z) p.2 asks →
      ∃ t, exec (p.1 o) s = .next t ∧ OpIssued x o.s.toNat q.last (dryOf (x.a o.a) o.a 0#1)
        (.new .x (if p.2 then .stx else .ldx) 2 0 0 o.z.toNat (x.d o.d) true (scratchAccs asks)) q.s t) ∧
  ∀ (o : FA) (s : State),
    let x := s.ix false
    ∀ q, Passes (some 2) false (.atomx o) s →
      gather x s.issuing false ((.vec (x.a o.a) :: ((List.range (aopRegs o.o)).map fun j => Src.vec (x.d o.d + j))) ++
        [.sc (2 * o.k.toNat)]) [x.d o.d] [] = .ok q →
      let asks : List Ask := q.rows.flatMap fun r => r.lanes.map fun l =>
        ⟨32 * r.b + l, (r.at (aopRegs o.o + 1) l + r.at 0 l).toNat, 4, 0, atomData o.o r l⟩
      ScratchAsked x q.s 4 true asks →
      ∃ t, exec (.atomx o) s = .next t ∧ OpIssued x o.s.toNat q.last (dryOf (x.a o.a) o.a 0#1)
        (.new .x .atomx 2 0 o.o.toNat 4 (x.d o.d) true (scratchAccs asks)) q.s t)

/-- atom and red (R270, R272): one word of each active lane at an address that is a multiple of 4, outside drafts. -/
def Obligations.AtomicAccess : Prop :=
  ∀ p ∈ ([(.atom, true), (.red, false)] : List ((FA → Instr) × Bool)), ∀ (o : FA) (s : State),
    let x := s.ix false
    let c : Ctr := if p.2 then .g else .w
    let k := aopRegs o.o + 1
    ∀ q r, Passes (some (if p.2 then 2 else 1)) false (p.1 o) s → x.g.draft = none →
      gather x s.issuing false ((.vec (x.a o.a) :: ((List.range (aopRegs o.o)).map fun j => Src.vec (x.d o.d + j))) ++
        [.sc (2 * o.k.toNat), .sc (2 * o.k.toNat + 1)]) (if p.2 then [x.d o.d] else []) [] = .ok q →
      Asked x q.s c 4 2 (if p.2 then .readWrite else .write) (if p.2 then 2 else 1)
        (q.rows.flatMap fun w => w.lanes.map fun l =>
          ⟨32 * w.b + l, addOff48 (pair48 (w.at k l) (w.at (k + 1) l)) (w.at 0 l), 4, 0, atomData o.o w l⟩) r →
      ∃ t, exec (p.1 o) s = .next t ∧ MemIssued x o.s.toNat q.last (dryOf (x.a o.a) o.a 0#1)
        (.new c (if p.2 then .atom else .red) 2 0 o.o.toNat 4 (x.d o.d) true r.2.1) r.1 t

/-- A load's access served (R137, R138, R183, R215, R268): from the home where no L1 holds the line, from its cluster's L1s where
they hold every byte, with the error an L1's byte came with (R139), from the scratchpad on the scratch path. Nothing changes but the
access, the line in the reading L1, the L2, the directory, and the marks of the dirty bytes the group has observed, for its fences
(R334). -/
def Obligations.LoadsAreServed : Prop :=
  ∀ (s : State) (gid i : Nat) (o : Op) (a : Acc), SoleAccess s gid i o a →
    let else? := fun (l : L1Line) => !(l.core = s.l1For (s.grp gid).core a.pa && l.line = a.pa / 128)
    let served := fun (b : List Byte) (bad : Bool) => ∃ t, exec (.homeRead gid i) s = .next t ∧
      t = { s with groups := t.groups, l1 := t.l1, l2 := t.l2, dir := t.dir } ∧
      t.groups.find? gid = some { s.grp gid with
        ops := (s.grp gid).ops.set i { o with accs := [{ a with fin := true, new := b, bad := bad }] }
        fences := (t.grp gid).fences } ∧
      (∀ g, g ≠ gid → t.groups.find? g = s.groups.find? g) ∧ (∀ n, n ≠ a.pa / 128 → t.dirOf n = s.dirOf n) ∧
      (t.l1.filter else?).map (fun l => { l with seen := [] }) = (s.l1.filter else?).map (fun l => { l with seen := [] })
    (o.kind = .load ∨ o.kind = .ldp → o.ctr ≠ .x → windowPa a.pa = false → (s.grp gid).draft = none →
      (Uncached s (a.pa / 128) → (s.inL1 (s.grp gid) o a.pa = true → L1Free s (s.l1For (s.grp gid).core a.pa) (a.pa / 128)) →
        served (s.mem.bytes a.pa a.n) (s.poisoned a.pa a.n)) ∧
      (s.inL1 (s.grp gid) o a.pa = true → NoUpdates s (a.pa / 128) → ∀ b : List Byte, b.length = a.n →
        (∀ k, k < a.n → s.l1Byte? (s.grp gid).core (a.pa + k) = some (b.getD k 0#8)) →
        served b ((List.range a.n).any fun k => s.l1Bad (s.grp gid).core (a.pa + k)))) ∧
    (o.kind = .ldx → o.ctr = .x → served ((s.unit (s.grp gid).unit).scrRead a.pa a.n) a.bad)

/-- A store's access performed (R137, R182, R191, R215, R267, R282): its bytes are in memory where it is made at the home, in the
storing core's L1 at cluster scope, in the scratchpad on the scratch path but for an armed barrier's bytes; bytes of other lines
are as before. At a helped line with a slot in use nothing is written, and the access is marked for the trap. A write-back (R214,
R267): the dirty bytes of an L1 line reach memory, whatever other clusters held of them, and are clean afterwards; bytes of other
lines are as before. -/
def Obligations.StoresAndWriteBacks : Prop :=
  (∀ (s : State) (gid i : Nat) (o : Op) (a : Acc), SoleAccess s gid i o a → a.data.length = a.n → L1Ok s →
    let g := s.grp gid
    (o.kind = .store ∨ o.kind = .stp → o.ctr ≠ .x → windowPa a.pa = false → g.draft = none → NoLog s → Memory.wf s.mem = true →
      (s.suppresses (a.pa / 128) = false → s.inL1 g o a.pa = false →
        ∃ t, exec (.homeWritePerform (.op gid i)) s = .next t ∧ AccessIs t gid i { a with fin := true, bad := false } ∧
          (∀ k, k < a.n → t.mem.read (a.pa + k) = a.data.getD k 0#8) ∧
          ∀ b, b / 128 ≠ a.pa / 128 → t.mem.read b = s.mem.read b) ∧
      (s.suppresses (a.pa / 128) = false → s.inL1 g o a.pa = true → L1Free s (s.l1For g.core a.pa) (a.pa / 128) →
        ∃ t, exec (.homeWritePerform (.op gid i)) s = .next t ∧ AccessIs t gid i { a with fin := true, bad := false } ∧
          (∀ k, k < a.n → t.l1Byte? g.core (a.pa + k) = some (a.data.getD k 0#8)) ∧
          ∀ b, b / 128 ≠ a.pa / 128 → t.mem.read b = s.mem.read b) ∧
      (s.suppresses (a.pa / 128) = true →
        ∃ t, exec (.homeWritePerform (.op gid i)) s = .next t ∧ AccessIs t gid i { a with fin := true, bad := true } ∧
          t.mem = s.mem ∧ t.l1 = s.l1)) ∧
    (o.kind = .stx → o.ctr = .x → (s.units.find? g.unit).isSome = true → a.pa + a.n ≤ (s.unit g.unit).scr.length →
      ∃ t, exec (.homeWritePerform (.op gid i)) s = .next t ∧ AccessIs t gid i { a with fin := true } ∧ t.mem = s.mem ∧
        t.l1 = s.l1 ∧ ∀ b, (t.unit g.unit).scr.getD b 0#8 =
          if a.pa ≤ b ∧ b < a.pa + a.n ∧ (s.unit g.unit).barIn? b (b + 1) = none then a.data.getD (b - a.pa) 0#8
          else (s.unit g.unit).scr.getD b 0#8)) ∧
  (∀ (s : State) (l1 line : Nat), NoLog s → Memory.wf s.mem = true → L1Ok s → s.helped.contains line = false →
    NoUpdates s line → (s.l1At l1 line).dirty ≠ 0#128 →
    ∃ t, exec (.homeWritePerform (.writeBack l1 line)) s = .next t ∧ (t.l1At l1 line).dirty = 0#128 ∧
      (∀ k, k < 128 → (s.l1At l1 line).dirty.getLsbD k = true →
        t.mem.read (line * 128 + k) = (s.l1At l1 line).bytes.getD k 0#8) ∧
      ∀ b, b / 128 ≠ line → t.mem.read b = s.mem.read b)

/-- An atomic's access performed as one read-modify-write (R184, R270, R272): an atom returns the old word, a red none, the new word is
stored, no other byte changes. A poisoned word is not changed (R291). -/
def Obligations.AtomicsArePerformed : Prop :=
  ∀ (s : State) (gid i : Nat) (o : Op) (a : Acc), SoleAccess s gid i o a → a.n = 4 →
    let g := s.grp gid
    (o.kind = .atom ∨ (o.kind = .red ∧ (o.aop = 9 ∨ o.aop = 10)) → o.ctr ≠ .x → windowPa a.pa = false → NoLog s →
      s.suppresses (a.pa / 128) = false → s.helped.contains (a.pa / 128) = false → Uncached s (a.pa / 128) →
      (s.poisoned a.pa 4 = false →
        ∃ t, exec (.homeAtomic gid i) s = .next t ∧
          AccessIs t gid i { a with fin := true, new := if o.kind = .atom then leBytes 4 (s.memWord a.pa).toNat else [] } ∧
          t.mem = s.mem.store a.pa (leBytes 4 (aopApply o.aop (s.memWord a.pa) a.x a.y).toNat) ∧ t.l1 = s.l1) ∧
      (s.poisoned a.pa 4 = true → g.draft = none →
        ∃ t, exec (.homeAtomic gid i) s = .next t ∧ AccessIs t gid i { a with fin := true } ∧ t.mem = s.mem ∧
          (t.grp gid).trapPend = some ⟨0x15, toW a.va, g.firstPc, 2, false⟩)) ∧
    (o.kind = .atomx → o.ctr = .x → (s.units.find? g.unit).isSome = true →
      let old := leWord ((s.unit g.unit).scrRead a.pa 4)
      ∃ t, exec (.homeAtomic gid i) s = .next t ∧ AccessIs t gid i { a with fin := true, new := leBytes 4 old.toNat } ∧
        t.mem = s.mem ∧
        t.unit g.unit = (s.unit g.unit).scrWrite a.pa (leBytes 4 (aopApply o.aop old a.x a.y).toNat))

/-- Update-only lines (R272-R274): a red of codes 0-8 or 11 leaves memory as it is and its operand as the word's delta in the
issuing L1; the eviction of such a line combines each delta into the word at the home. The directory and the miss entries (R146,
R147, R266): while a pending store lacks its span, a claim reaches the home: it is recorded as one of a dirty sharer with the span that
store needs, which may then be performed, a fifth copy overflowing the line; freed entries go to the oldest rejected beat, and a later beat of an instruction that has
all of its entries is accepted. -/
def Obligations.UpdateOnlyAndClaims : Prop :=
  (∀ (s : State),
    (∀ (gid i : Nat) (o : Op) (a : Acc), SoleAccess s gid i o a → o.kind = .red → o.aop ≠ 9 → o.aop ≠ 10 → o.ctr ≠ .x →
      windowPa a.pa = false → s.drafted (a.pa / 128) = false → Uncached s (a.pa / 128) →
      L1Free s (s.l1For (s.grp gid).core a.pa) (a.pa / 128) →
      ∃ t, exec (.homeWritePerform (.op gid i)) s = .next t ∧ AccessIs t gid i { a with fin := true } ∧ t.mem = s.mem ∧
        (t.l1At (s.l1For (s.grp gid).core a.pa) (a.pa / 128)).upd =
          [(a.pa % 128 / 4, o.aop, aopEnter o.aop a.x, s.keyOf (s.grp gid))]) ∧
    ∀ (l1 line w aop key : Nat) (d : Word), NoLog s → s.helped.contains line = false → w < 32 →
      (s.l1At l1 line).upd = [(w, aop, d, key)] → s.poison.any (fun p => p / 4 = line * 32 + w) = false →
      (∀ l ∈ s.l1, l.line = line → l.dirty &&& spanMask 128 (4 * w) 4 = 0#128) →
      ∃ t, exec (.updateOnlyEvict l1 line) s = .next t ∧ (t.l1At l1 line).upd = [] ∧
        t.mem = s.mem.store (line * 128 + w * 4) (leBytes 4 (aopApply aop (s.memWord (line * 128 + w * 4)) d 0#32).toNat)) ∧
  (∀ (s : State),
    (∀ (l1 line : Nat),
      let want := (s.groups.flatMap fun p => s.wantedSpans p.2 l1 line).head?
      (∀ (gid : Nat) (o : Op) (a : Acc), (s.groups.find? gid).isSome = true → o ∈ (s.grp gid).ops →
        o.kind = .store ∨ o.kind = .stp → a ∈ o.accs → a.fin = false → a.pa / 128 = line → s.l1For (s.grp gid).core a.pa = l1 →
        s.inL1 (s.grp gid) o a.pa = true → s.mayStore (s.grp gid).core a.pa a.n = false → want.isSome = true) ∧
      (want = none → exec (.spanClaim l1 line) s = .next s) ∧
      ∀ sp, want = some sp → NoUpdates s line → ∃ t, exec (.spanClaim l1 line) s = .next t ∧ t = { s with dir := t.dir } ∧
        (t.dirOf line).claims = (s.dirOf line).claims ++ [(l1, sp)] ∧ (∀ n, n ≠ line → t.dirOf n = s.dirOf n) ∧
        (∀ core pa n, s.l1For core pa = l1 → pa / 128 = line → 0 < n → pa % 128 + n ≤ 128 → spanOfBytes (pa % 128) n = sp →
          t.mayStore core pa n = true) ∧
        (let d := s.dirOf line
         if (d.recs.any fun r => r.core = l1) = true ∨ d.recs.length < Config.sharers
         then ∃ r ∈ (t.dirOf line).recs, r.core = l1 ∧ r.dirty = true
         else (t.dirOf line).ovf = true)) ∧
    (∀ (c : Nat) (r : Machine.Reject) (l : List Machine.Reject), s.rejects c = r :: l → (∀ q ∈ r :: l, q.first = true) →
      (∀ e ∈ r.lacks, s.missUsed e.1 + r.lacks.length ≤ Config.missMax) →
      ∃ l', l'.length = l.length ∧
        exec (.missEntryGrant c) s = .next (s.setRejects c ({ r with got := r.got ++ r.lacks, lacks := [] } :: l'))) ∧
    ∀ (c i : Nat) (r : Machine.Reject) (o : Op) (b : List Acc), s.rejects c = [r] → r.first = false →
      (∀ e ∈ r.lacks, s.missUsed e.1 + r.lacks.length ≤ Config.missMax) →
      (s.grp r.gid).ops.findIdx? (fun o => o.todo != []) = some i → (s.grp r.gid).ops[i]? = some o → o.todo = [b] →
      ∃ t, exec (.missEntryGrant c) s = .next t ∧ (t.core c).rejected = [] ∧
        (t.grp r.gid).ops[i]? = some (o.accept (r.got ++ r.lacks)))

/-- Completion (R133, R139-R142): the oldest operation of a counter whose accesses have all been performed leaves it; a load's
words enter its registers (those of s40-s47 in the bank it was issued in, R359), a load of poisoned bytes writes none and leaves POISON for the next issue boundary, a refused store
leaves PROT. Spills and refills (R55, R56, R58, R59): a vector write that needs an entry where the core has none free spills the least
recently used one of a group that is not active into its line of the backing region, and writes the new entry; at the end of a refill
the group is pending, and a spilled register holds the bytes of its line. -/
def Obligations.OperationsComplete : Prop :=
  (∀ (s : State) (gid i : Nat) (o : Op),
    let g := s.grp gid
    (s.groups.find? gid).isSome = true → g.oldest o.ctr = some i → g.ops[i]? = some o → o.todo = [] →
    (∀ a ∈ o.accs, a.fin = true) →
    let ends := fun (t : State) => exec (.inFlightComplete gid o.ctr) s = .next t ∧ (t.grp gid).ops = g.ops.eraseIdx i ∧
      t.mem = s.mem ∧ (t.grp gid).pc = g.pc ∧ (t.grp gid).gst = g.gst ∧ ∀ k, k ≠ gid → t.groups.find? k = s.groups.find? k
    (∀ a, o.kind = .load → o.vec = false → o.newer = [] → o.accs = [a] → a.bad = false → a.told = false → a.reg = 0 → a.new ≠ [] →
      o.d + (loadWords o.z a.new).length ≤ 48 → (o.d + (loadWords o.z a.new).length ≤ 40 ∨ o.hdl = gstHdl g.gst) →
      ∃ t, ends t ∧ (t.grp gid).sr = ((loadWords o.z a.new).zipIdx.foldl (fun r w => r.set (o.d + w.2) w.1) g.sr) ∧
        (t.grp gid).vr = g.vr) ∧
    (∀ f : Acc → Word, o.kind = .load ∨ o.kind = .ldp ∨ o.kind = .ldx ∨ o.kind = .atom ∨ o.kind = .atomx → o.vec = true →
      o.newer = [] → (∀ a ∈ o.accs, a.bad = false ∧ a.told = false ∧ a.reg = 0 ∧ a.lane < 96 ∧ loadWords o.z a.new = [f a] ∧ a.new ≠ []) →
      o.accs.Pairwise (fun a b => a.lane ≠ b.lane) →
      (∀ c ∈ o.cells, ∀ n b, c = .vec n b → ∃ v u, g.vr.find? (3 * n + b) = some (.mapped v u) ∧ v.length = 32) →
      ∃ t, ends t ∧ (t.grp gid).sr = g.sr ∧ ∀ n b l, b < 3 → l < 32 →
        ((t.grp gid).cellNow (.vec n b)).getD l 0#32 =
          match o.accs.find? fun a => n = o.d ∧ a.lane = 32 * b + l with
          | some a => f a
          | none => (g.cellNow (.vec n b)).getD l 0#32) ∧
    (o.kind = .store ∨ o.kind = .stp ∨ o.kind = .stx ∨ o.kind = .red → (∀ a ∈ o.accs, a.new = []) →
      (∀ a ∈ o.accs, a.bad = false) → ∃ t, ends t ∧ (t.grp gid).sr = g.sr ∧ (t.grp gid).vr = g.vr ∧
        (t.grp gid).trapPend = g.trapPend) ∧
    (∀ a, o.kind = .load ∨ o.kind = .ldp → o.accs = [a] → a.bad = true → a.told = false → g.draft = none →
      ∃ t, ends t ∧ (t.grp gid).sr = g.sr ∧ (t.grp gid).vr = g.vr ∧
        (t.grp gid).trapPend = some ⟨0x15, toW a.va, g.firstPc, 2, false⟩) ∧
    (∀ a, o.kind = .store ∨ o.kind = .stp → o.accs = [a] → a.bad = true → a.told = false → g.trapPend = none → a.new = [] →
      ∃ t, ends t ∧ (t.grp gid).trapPend = some ⟨0x07, toW a.va, 0, 0, false⟩)) ∧
  (∀ (o : FIm) (s : State) (q : Gath) (r : Row) (g k : Nat) (v : Lanes) (w : State),
    let x := s.ix true
    let d := x.d o.d
    Passes none true (.vmovi o) s → gather x s.issuing false [] [d] [] = .ok q → q.rows = [r] →
    x.g.vr.find? (3 * d + r.b) = none → Config.coreEntries ≤ q.s.entriesUsed x.g.core → q.s.victim x.g.core = some (g, k, v) →
    g ≠ x.gid → q.s.privPut g ((q.s.grp g).plim + k / 3) (32 * (k % 3)) (v.flatMap fun w => leBytes 4 w.toNat) = (w, true) →
    ∃ t, exec (.vmovi o) s = .next t ∧ (t.grp g).vr = (w.grp g).vr.set k .spilled ∧ t.mem = w.mem ∧ t.l1 = w.l1 ∧
      (t.grp x.gid).cellNow (.vec d r.b) = (List.range 32).map fun l => if r.act.getLsbD l then immOf x.gl o.i else 0#32) ∧
  (∀ (s : State) (gid n b : Nat) (bs : List Byte) (s1 : State),
    let g := s.grp gid
    (s.groups.find? gid).isSome = true → g.st = .refilling → g.refill = [.vec n b] → g.stkSp = 0 →
    g.vr.find? (3 * n + b) = some .spilled → (s.unit g.unit).chain = none → s.entriesUsed g.core < Config.coreEntries →
    s.privGet gid (g.plim + n) (32 * b) 128 = (s1, some bs) →
    ∃ t, exec (.refillComplete gid) s = .next t ∧ (t.grp gid).st = .pending ∧ (t.grp gid).refill = [] ∧
      (t.grp gid).vr.find? (3 * n + b) = some (.mapped (leWords bs 32) (s1.core (s1.grp gid).core).cycle) ∧ t.mem = s1.mem)

/-- The cache forms (R148, R149): the range forms count on w and act when they complete, on lines up to 2^48 and on from 0 (the model's
choice, log 115), fetchbar drops the words fetched and not
issued, pref only fills; none of them changes a register or traps. -/
def Obligations.CacheForms : Prop :=
  (∀ p ∈ ([(.cacheL1wb, 0), (.cacheL1inv, 1), (.cacheL1wbinv, 2), (.cacheIcinv, 3)] : List ((FD → Instr) × Nat)),
    ∀ (o : FD) (s : State),
      let x := s.ix false
      let v := fun n => scalarVal s.issuing x.g n x.t
      Passes (some 1) false (p.1 o) s → x.g.scoreboard (scalarUses x [o.d.toNat, x.a o.a, x.a o.a + 1] []) = none →
      x.g.count .w < 63 →
      ∃ t, exec (p.1 o) s = .next t ∧ OpIssued x o.s.toNat x.t []
        (.new .w (.cache p.2 (pair48 (v (x.a o.a)) (v (x.a o.a + 1))) (v o.d.toNat).toNat) 2 0 0 4 0 false []) s.issuing t) ∧
  (∀ (o : F0) (s : State), PlainRule (.cacheFetchbar o) o.s (fun _ => []) (fun _ => []) (fun _ _ => True) (fun _ => none)
    (fun x => { x.g with pf := [] }) s) ∧
  (∀ (o : FD) (s : State),
    let x := s.ix false
    let v := fun n => scalarVal s.issuing x.g n x.t
    Passes none false (.cachePref o) s → x.g.scoreboard (scalarUses x [o.d.toNat, x.a o.a, x.a o.a + 1] []) = none →
    let r := s.issuing.rangeLines (s.keyOf x.g) (pair48 (v (x.a o.a)) (v (x.a o.a + 1))) (min (v o.d.toNat).toNat 8192)
    ∃ t, exec (.cachePref o) s = .next t ∧ GroupKept { x.g with fences := (t.grp x.gid).fences } (t.grp x.gid) ∧
      Retires x o.s.toNat x.t none x.g.flagPend (t.grp x.gid) ∧ (t.grp x.gid).sr = x.g.sr ∧ (t.grp x.gid).vr = x.g.vr ∧
      (x.g.draft.isSome = true → t.mem = r.1.mem ∧ t.l1 = r.1.l1) ∧
      ((∀ l ∈ r.1.l1, l.upd = []) → (∀ k, (r.1.l1.filter fun l => l.core = k).length + 64 ≤ Config.l1Lines) → t.mem = r.1.mem ∧
        (x.g.draft = none → ∀ p ∈ r.2.take 64, s.drafted p.2 = false → windowPa (p.2 * 128) = false →
          (t.l1At (s.l1For x.g.core (p.2 * 128)) p.2).valid = BitVec.allOnes 32))) ∧
  ∀ (s : State) (gid i lo len : Nat) (o : Op), (s.groups.find? gid).isSome = true → (s.grp gid).oldest .w = some i →
    (s.grp gid).ops[i]? = some o → o.ctr = .w →
    (o.kind = .cache 3 lo len → 0 < len →
      ∃ t, exec (.inFlightComplete gid .w) s = .next t ∧ (t.grp gid).ops = (s.grp gid).ops.eraseIdx i ∧ t.mem = s.mem ∧
        ∀ c ∈ t.cores, ∀ e ∈ c.2.ic, ¬ (e.1 * 65536 + e.2.1 = s.keyOf (s.grp gid) ∧ e.2.1 < 65536 ∧ e.2.2.1 < 2 ^ 48 ∧
          ((lo / 128 ≤ e.2.2.1 / 128 ∧ e.2.2.1 / 128 ≤ (lo + len - 1) / 128) ∨ e.2.2.1 / 128 + 2 ^ 41 ≤ (lo + len - 1) / 128))) ∧
    (∀ l p, let r := s.rangeLines (s.keyOf (s.grp gid)) lo len
      o.kind = .cache 0 lo len → r.1.l1 = [l] → s.myL1 (s.grp gid).core l.core = true → l.upd = [] → l.dirty ≠ 0#128 →
      p ∈ r.2 → p.2 = l.line → r.1.helped.contains l.line = false → NoLog r.1 → Memory.wf r.1.mem = true →
      ∃ t, exec (.inFlightComplete gid .w) s = .next t ∧ (t.grp gid).ops = (s.grp gid).ops.eraseIdx i ∧
        ∀ k, k < 128 → l.dirty.getLsbD k = true → t.mem.read (l.line * 128 + k) = l.bytes.getD k 0#8)

/-! ## Copies -/

/-- cpy, cpyx and bseal (R220, R221, R223, R226): a copy enters the engine with its rows, its scratch source claimed; the active
lanes of cpyx name their blocks; bseal numbers the group's unsealed copies. The copy engine (R217, R219, R222, R225, R229): a
chunk from memory into the scratchpad writes the bytes of its rows, in one step some of them and the others later (which ones is the
model's free value, log 31); a copy with no chunk left is complete, releases its claims,
and pushes its task record. -/
def Obligations.Copies : Prop :=
  (∀ (s : State),
    let x := s.ix false
    let n := s.copies.fresh
    (∀ (o : Fa), let v := (List.range 8).map fun i => scalarVal s.issuing x.g (x.a o.a + i) x.t
      let dir := ctlDir (wAt v 6)
      let rows := (List.range (hi16 (wAt v 1))).map fun i =>
        (rowAddr (dir = 2) (pair48 (wAt v 0) (wAt v 1)) i (wAt v 4), rowAddr (dir = 1) (pair48 (wAt v 2) (wAt v 3)) i (wAt v 5))
      let c := groupCopy x s v rows dir (ctlPl (wAt v 6)) (hi16 (wAt v 3) * 16) (wAt v 7)
      Passes (some 3) false (.cpy o) s → x.g.scoreboard (scalarUses x ((List.range 8).map fun i => x.a o.a + i) []) = none →
      cpyCheck v (s.unit x.g.unit).foot = none →
      copyStop x s.issuing (wAt v 7) dir (rowOut (ctlPl (wAt v 6)) (hi16 (wAt v 3) * 16)) rows = none →
      ∃ t, exec (.cpy o) s = .next t ∧ t.copies.find? n = some c ∧ (∀ k, k ≠ n → t.copies.find? k = s.copies.find? k) ∧
        t.mem = s.mem ∧ WordDone x o.s.toNat x.t [] { s.issuing with copies := t.copies, units := t.units } t ∧
        t.units = (if dir = 2 then (s.modUnit x.g.unit fun u => { u with
          claims := u.claims ++ rows.map fun r => ⟨r.1, r.1 + hi16 (wAt v 3) * 16, 0, n⟩ }).units else s.units)) ∧
    (∀ (o : Fab) (v : List Word) (q : Gath), Passes (some 3) false (.cpyx o) s →
      cpyxDesc x s.issuing ((List.range 8).map fun i => x.b o.b + i) = .ok v →
      gather x s.issuing true [.vec (x.a o.a)] [] [] = .ok q →
      let dry := dryOf (x.a o.a) o.a 0#1
      let lanes := laneList q.rows
      (lanes = [] → ∃ t, exec (.cpyx o) s = .next t ∧ WordDone x o.s.toNat q.last dry s.issuing t) ∧
      (let len := hi16 (wAt v 3) * 16
       let out := rowOut (ctlPl (wAt v 6)) len
       let h := lo16 (wAt v 3)
       cpyxBad v = none →
        misaligned [(wAt v 0, 16), (wAt v 2, 16), (wAt v 4, 16), (wAt v 7, 128)] = none →
        let at_ := fun r => ((wAt v 2).toNat + r * out) % 4294967296
        (∀ r, r < lanes.length * h → rowOutside (s.unit x.g.unit).foot (at_ r) out = none) →
        copyStop x s.issuing (wAt v 7) 1 out ((List.range (lanes.length * h)).map fun r => (0, at_ r)) = none →
        lanes ≠ [] → (∀ l ∈ lanes, l.2.toNat < (wAt v 5).toNat) →
        ∃ t, exec (.cpyx o) s = .next t ∧ t.mem = s.mem ∧ t.units = s.units ∧
          WordDone x o.s.toNat q.last dry { s.issuing with copies := t.copies } t ∧
          t.copies.find? n = some (groupCopy x s (v ++ lanes.flatMap fun l => [toW l.1, l.2]) (lanes.zipIdx.flatMap fun p => (List.range h).map fun i =>
            ((pair48 (wAt v 0) (wAt v 1) + p.1.2.toNat * (wAt v 4).toNat + i * len) % 281474976710656,
              at_ (if ctlIl (wAt v 6) then i * lanes.length + p.2 else p.2 * h + i))) 1 (ctlPl (wAt v 6)) len (wAt v 7)))) ∧
    ∀ (o : Fd), Passes (some 3) false (.bseal o) s → x.g.scoreboard (scalarUses x [] [o.d.toNat]) = none →
      let b := if x.g.sealed = 0xFFFFFFFF#32 then 1#32 else x.g.sealed + 1#32
      ∃ t, exec (.bseal o) s = .next t ∧ (t.grp x.gid).sealed = b ∧ ScalarsSet x.g (t.grp x.gid) o.d.toNat b ∧
        (t.grp x.gid).vr = x.g.vr ∧ (t.grp x.gid).pc = (if x.more then x.g.pc else nextPc x.g.pc) ∧ t.mem = s.mem ∧
        t.copies = s.copies.map fun c =>
          if c.2.gid = some x.gid ∧ c.2.batch = 0#32 then (c.1, { c.2 with batch := b }) else c) ∧
  (∀ (s : State) (k : Nat) (c : Copy), s.copy? k = some c → c.kind = 0 → c.fin = false → s.frozen c.key 3 = false →
    c.failed = none →
    (∀ src dst, c.rows = [(src, dst)] → c.dir = 1 → c.pl = 0 → 0 < c.len → c.len ≤ 4096 → c.chunk = 0 → c.keys = [] →
      s.unitAway c.unit = false → s.copyBehind k c = false → s.draftOf c = none → dst + c.len ≤ (s.unit c.unit).scr.length →
      dst + c.len ≤ 4294967296 → src + c.len ≤ 281474976710656 → (s.unit c.unit).bars = [] →
      (s.units.find? c.unit).isSome = true →
      let m := s.mapAll c.key c.cl .read 4 ((List.range c.len).map (src + ·))
      c.left = none → m.fail = none → (∀ i, i < c.len → windowPa (m.at (src + i)).1 = false) → m.s.l1 = [] → m.s.poison = [] →
      ∃ (t : State) (w : Nat → Bool), exec (.copyChunk k) s = .next t ∧ t.mem = m.s.mem ∧ (∃ i, i < c.len ∧ w i = true) ∧
        (let l := (List.range c.len).filter fun i => !w i
         ((t.copy? k).map fun c => (c.chunk, c.left)) = some (if l = [] then (1, none) else (0, some l))) ∧
        ∀ b, (t.unit c.unit).scr.getD b 0#8 =
          if dst ≤ b ∧ b < dst + c.len ∧ w (b - dst) = true then m.s.mem.read (m.at (src + (b - dst))).1 else (s.unit c.unit).scr.getD b 0#8) ∧
    (c.chunks ≤ c.chunk → c.task = 0 → s.unitAway c.unit = false →
      ∃ t, exec (.copyComplete k) s = .next t ∧ t.copies = s.copies.del k ∧ t.mem = s.mem ∧ t.groups = s.groups ∧
        ((s.units.find? c.unit).isSome = true → ∀ q ∈ (t.unit c.unit).claims, ¬ (q.kind = 0 ∧ q.own = k))) ∧
    (c.chunks ≤ c.chunk → c.task ≠ 0 → s.unitAway c.unit = false → (s.cluster c.cl).taskQ.length < Config.taskMax →
      ∃ t, exec (.copyComplete k) s = .next t ∧ t.copies = s.copies.del k ∧ t.mem = s.mem ∧
        (t.cluster c.cl).taskQ = (s.cluster c.cl).taskQ ++ [s.works.fresh] ∧
        (t.work s.works.fresh).addr = c.task ∧ (t.work s.works.fresh).phase = .queued ∧
        (t.work s.works.fresh).serial = (s.ctx c.key).serial))

/-! ## Barriers, parks, fences, regroup -/

/-- The barrier forms (R187-R190): init arms, an arrival counts into the lowest phase in which the group has not arrived and
answers its token, a query answers the state word, a deferred arrival takes effect (that an arrival whose group's earlier writes are
complete takes effect with its word is the model's reading, log 47). What an
arrival does to a barrier (R189, R190): one that fills phase K completes it: K rises by one, a phase with the base count opens;
one that does not fill it only counts. A drop also lowers the base count and the counts of the phases after the one it counts into; one
that lowers the base count to 0 marks the barrier, which disarms when the last phase with a count completes. -/
def Obligations.Barriers : Prop :=
  (∀ (s : State),
    let x := s.ix false
    let u := s.unit x.g.unit
    (s.units.find? x.g.unit).isSome = true →
    (∀ (o : FDc), let n := (scalarVal s.issuing x.g o.d.toNat x.t).toNat
      let a := (scalarVal s.issuing x.g (x.a o.a) x.t).toNat
      Passes (some 3) false (.barInit o) s → x.g.scoreboard (scalarUses x [o.d.toNat, x.a o.a] []) = none →
      a % 16 = 0 → a + 16 ≤ u.foot → 0 < n → n ≤ 255 → u.bar? a = none →
      ∃ t, exec (.barInit o) s = .next t ∧ WordDone x o.s.toNat x.t [] { s.issuing with units := t.units } t ∧
        (∀ k, k ≠ x.g.unit → t.units.find? k = s.units.find? k) ∧
        t.unit x.g.unit = { u with
          bars := u.bars ++ [⟨a, o.c.toNat, n, 0, [⟨n, 0, []⟩, ⟨n, 0, []⟩, ⟨n, 0, []⟩], 0, false⟩]
          scr := u.scr.take a ++ List.replicate 16 0#8 ++ u.scr.drop (a + 16) }) ∧
    (∀ (o : FD) (b : Bar) (i : Nat), let a := (scalarVal s.issuing x.g (x.a o.a) x.t).toNat
      Passes (some 3) false (.barArrive o) s → x.g.scoreboard (scalarUses x [x.a o.a] [x.d o.d]) = none →
      a % 16 = 0 → a + 16 ≤ u.foot → u.bar? a = some b → b.phaseOf x.gid = some i →
      let w := u.setBar { b with ph := b.ph.modify i fun p => { p with who := x.gid :: p.who } }
      ∃ t, exec (.barArrive o) s = .next t ∧
        ScalarTaken x o.s.toNat (x.d o.d) (toW (a / 16 * 65536 + (b.k + i) % 8)) { s.issuing with units := t.units } t ∧
        t.unit x.g.unit =
          if x.g.storeDeps.all (· = 0) = true ∧ (∀ r ∈ u.arrs, r.gid ≠ x.gid) then w.arriveAt a (b.k + i) false
          else { w with arrs := w.arrs ++ [⟨a, b.k + i, x.gid, false, x.g.storeDeps⟩] }) ∧
    (∀ (o : Fa) (b : Bar) (i : Nat), let a := (scalarVal s.issuing x.g (x.a o.a) x.t).toNat
      Passes (some 3) false (.barDrop o) s → x.g.scoreboard (scalarUses x [x.a o.a] []) = none →
      a % 16 = 0 → a + 16 ≤ u.foot → u.bar? a = some b → b.phaseOf x.gid = some i → x.g.storeDeps.all (· = 0) = true →
      (∀ r ∈ u.arrs, r.gid ≠ x.gid) →
      ∃ t, exec (.barDrop o) s = .next t ∧ WordDone x o.s.toNat x.t [] { s.issuing with units := t.units } t ∧
        t.unit x.g.unit =
          (u.setBar { b with ph := b.ph.modify i fun p => { p with who := x.gid :: p.who } }).arriveAt a (b.k + i) true) ∧
    (∀ (o : FD), let a := (scalarVal s.issuing x.g (x.a o.a) x.t).toNat
      Passes none false (.barQuery o) s → x.g.scoreboard (scalarUses x [x.a o.a] [x.d o.d]) = none →
      a % 16 = 0 → a + 16 ≤ u.foot →
      ∃ t, exec (.barQuery o) s = .next t ∧ ScalarTaken x o.s.toNat (x.d o.d)
        (match u.bar? a with
         | some b => match b.ph with
           | p :: _ => toW (p.arr % 256 * 16777216 + p.cnt % 256 * 65536 + b.cls * 16384 + 8192 + b.k % 8)
           | [] => 0#32
         | none => 0#32) s.issuing t) ∧
    (∀ k a r, (s.unit k).arrs = a :: r → a.deps.all (· = 0) = true →
      exec (.barrierArrivalEffect k) s =
        .next (s.setUnit k ({ s.unit k with arrs := r }.arriveAt a.addr a.phase a.drop)))) ∧
  (∀ (u : UnitSt) (a : Nat) (b : Bar) (p q r : Phase),
    u.bar? a = some b → b.addr = a → b.ph = [p, q, r] → b.held = 0 → b.disarm = false → q.arr < q.cnt →
    (p.arr + 1 < p.cnt → (u.arriveAt a b.k false).bar? a = some { b with ph := [{ p with arr := p.arr + 1 }, q, r] }) ∧
    (p.arr + 1 = p.cnt →
      (u.arriveAt a b.k false).bar? a = some { b with k := b.k + 1, ph := [q, r, ⟨b.base, 0, []⟩] }) ∧
    (p.arr + 1 < p.cnt → (u.engineArrive a).bar? a = some { b with ph := [{ p with arr := p.arr + 1 }, q, r] }) ∧
    (p.arr + 1 = p.cnt →
      (u.engineArrive a).bar? a = some { b with k := b.k + 1, ph := [q, r, ⟨b.base, 0, []⟩] })) ∧
  (∀ (u : UnitSt) (a : Nat) (b : Bar) (p q r : Phase),
    u.bar? a = some b → b.addr = a → b.ph = [p, q, r] → b.held = 0 → b.disarm = false →
    (1 < b.base → p.arr + 1 < p.cnt → (u.arriveAt a b.k true).bar? a =
      some { b with base := b.base - 1
                    ph := [{ p with arr := p.arr + 1 }, { q with cnt := q.cnt - 1 }, { r with cnt := r.cnt - 1 }] }) ∧
    (1 < b.base → p.arr < p.cnt → (u.arriveAt a (b.k + 1) true).bar? a =
      some { b with base := b.base - 1, ph := [p, { q with arr := q.arr + 1 }, { r with cnt := r.cnt - 1 }] }) ∧
    (1 < b.base → p.arr + 1 = p.cnt → q.arr + 1 < q.cnt → (u.arriveAt a b.k true).bar? a =
      some { b with base := b.base - 1, k := b.k + 1
                    ph := [{ q with cnt := q.cnt - 1 }, { r with cnt := r.cnt - 1 }, ⟨b.base - 1, 0, []⟩] }) ∧
    (b.base = 1 → p.arr + 1 < p.cnt → (u.arriveAt a b.k true).bar? a =
      some { b with base := 0, disarm := true
                    ph := [{ p with arr := p.arr + 1 }, { q with cnt := q.cnt - 1 }, { r with cnt := r.cnt - 1 }] }) ∧
    (b.base = 1 → p.arr + 1 = p.cnt → q.cnt = 1 → r.cnt = 1 → (u.arriveAt a b.k true).bar? a = none))

/-- The park forms (R143, R193-R195, R227): each completes at once where its condition holds, and else parks under its reason
code at the instruction; park.yield leaves the group pending at the next word. A wake (R167, R143, R203): at the end of any turn, a
parked group whose condition holds is pending, after park.waitc and chain.fix at the next word, else at the instruction; one whose
condition does not hold stays parked. -/
def Obligations.Parking : Prop :=
  (∀ (s : State),
    let x := s.ix false
    let v := fun n => scalarVal s.issuing x.g n x.t
    (s.unit x.g.unit).foldedChain = false →
    (∀ (o : Fap), PlainRule (.parkWaitc o) o.s (fun x => [x.a o.a]) (fun _ => [])
        (fun x s => x.g.count (ctrOf o.p) ≤ (scalarVal s x.g (x.a o.a) x.t).toNat) (fun _ => none) (fun x => x.g) s ∧
      (Passes none false (.parkWaitc o) s → x.g.scoreboard (scalarUses x [x.a o.a] []) = none →
        (v (x.a o.a)).toNat < x.g.count (ctrOf o.p) →
        ∃ t, exec (.parkWaitc o) s = .next t ∧
          Parked x 0 (.waitc (ctrOf o.p) (v (x.a o.a)).toNat (nextPc x.g.pc)) x.g.firstPc s.issuing t)) ∧
    (∀ (o : Fa), PlainRule (.parkBwait o) o.s (fun x => [x.a o.a]) (fun _ => [])
        (fun x s => let n := scalarVal s x.g (x.a o.a) x.t
          n = 0#32 ∨ ((x.g.sealed - n).toNat < 2147483648 ∧ s.batchDone x.gid n = true ∧ s.failedCopy x.gid n = none))
        (fun _ => none) (fun x => x.g) s ∧
      (Passes none false (.parkBwait o) s → x.g.scoreboard (scalarUses x [x.a o.a] []) = none → v (x.a o.a) ≠ 0#32 →
        (x.g.sealed - v (x.a o.a)).toNat < 2147483648 → s.issuing.batchDone x.gid (v (x.a o.a)) = false →
        ∃ t, exec (.parkBwait o) s = .next t ∧ Parked x 2 (.batch (v (x.a o.a))) x.g.firstPc s.issuing t)) ∧
    (∀ (o : Fa), let a := (v (x.a o.a)).toNat / 65536 * 16
      PlainRule (.parkWbar o) o.s (fun x => [x.a o.a]) (fun _ => [])
        (fun x s => let n := scalarVal s x.g (x.a o.a) x.t
          bits n.toNat 3 13 = 0 ∧ (s.unit x.g.unit).phaseLeft (n.toNat / 65536 * 16) n = true)
        (fun _ => none) (fun x => x.g) s ∧
      (∀ b, Passes none false (.parkWbar o) s → x.g.scoreboard (scalarUses x [x.a o.a] []) = none →
        bits (v (x.a o.a)).toNat 3 13 = 0 → (s.unit x.g.unit).bar? a = some b → b.cls ≠ 2 →
        (bits (v (x.a o.a)).toNat 0 3 + 8 - b.k % 8) % 8 ≤ 2 →
        ∃ t, exec (.parkWbar o) s = .next t ∧ Parked x 3 (.barPhase a (v (x.a o.a))) x.g.firstPc s.issuing t)) ∧
    (∀ (o : FDc) (s1 : State) (pa vfa : Nat), let va := pair48 (v (x.a o.a)) (v (x.a o.a + 1))
      Passes (some 0) false (.parkWaitm o) s → x.g.scoreboard (scalarUses x [o.d.toNat, x.a o.a, x.a o.a + 1] []) = none →
      va % 4 = 0 → s.issuing.access (s.keyOf x.g) va .read 0 x.g.core = (s1, .ok pa vfa) → windowPa pa = false →
      x.g.draft = none → x.g.wordHeld pa 4 = false → Uncached s1 (pa / 128) → s1.poisoned pa 4 = false →
      (s1.memWord pa = v o.d.toNat → ∃ t, exec (.parkWaitm o) s = .next t ∧ WordDone x o.s.toNat x.t [] { s1 with l2 := t.l2 } t) ∧
      (s1.memWord pa ≠ v o.d.toNat → o.c.toNat ≠ 2 →
        ∃ t, exec (.parkWaitm o) s = .next t ∧ Parked x 5 (.word pa (v o.d.toNat)) x.g.firstPc { s1 with l2 := t.l2 } t)) ∧
    (∀ (o : F0), Passes none false (.parkYield o) s →
      ∃ t, exec (.parkYield o) s = .next t ∧ PlainDone x false o.s.toNat none { x.g with st := .pending }
        (s.issuing.leave x.g.core x.t) t)) ∧
  (∀ (s : State) (g : Nat) (c : Nat) (w : WaitOn), (s.groups.find? g).isSome = true → (s.grp g).st = .parked →
    (s.grp g).wait = some (c, w) → (s.grp g).held = false → (s.unit (s.grp g).unit).chain = none →
    (s.holds g w = true → ((s.wake g).grp g).st = .pending ∧ ((s.wake g).grp g).wait = none ∧
      ((s.wake g).grp g).pc = (match w with
        | .formSwitch n | .waitc _ _ n => n
        | _ => (s.grp g).pc)) ∧
    (s.holds g w = false → s.wake g = s))

/-- fence (R331, R332, R334): every form of it completes, whatever else is in flight, where its scope is granted. Its record stands over
the group's operations in flight and, from tenant scope on, over the dirty bytes of the group's cluster that the group has observed or
written. It holds a later access of the kinds it names for as long as one of them is left: an operation that completes leaves it, the
last one ends it, and so do bytes that are written back. A scope that is not granted traps SCOPEDENY. An access that a fence holds
does not issue. (That the record keeps which dirty bytes an L1 holds for a group as marks of their line is the model's form, log 33.) -/
def Obligations.FenceForms : Prop :=
  (∀ (o : FF) (s : State), Passes none false (.fence o) s →
    s.scopeDenied (s.keyOf (s.ix false).g / 65536) o.c.toNat = false → ∃ t, exec (.fence o) s = .next t ∧
      (let x := s.ix false
       let f := fenceOf s.issuing x.gid x.g o.k.toNat o.c.toNat
       PlainDone x false o.s.toNat none (if f.spent then x.g else { x.g with fences := x.g.fences ++ [f] }) s.issuing t)) ∧
  (∀ (s : State) (gid : Nat) (g : Group) (k c : Nat), k < 4 →
    let f := fenceOf s gid g k c
    let reading := ∃ o ∈ g.ops, o.kind.reads = true
    (∀ cls, f.holds cls = true ↔ ((k = 0 ∨ k = 2) ∧ reading) ∨
      ((k = 3 ∨ (k ≠ 0 ∧ cls ≠ 0)) ∧ (if c = 0 then reading else g.ops ≠ [] ∨ f.dirty ≠ []))) ∧
    ∀ line m, (line, m) ∈ f.dirty ↔ 3 ≤ c ∧ k ≠ 0 ∧ ∃ l ∈ s.l1, l.core / 4 = coreCl g.core ∧ l.line = line ∧
      m = l.dirty &&& l.seen.getD gid 0#128 ∧ m ≠ 0#128) ∧
  (∀ (s : State) (gid i : Nat) (o : Op) (r : FenceRec),
    let g := s.grp gid
    (s.groups.find? gid).isSome = true → g.oldest o.ctr = some i → g.ops[i]? = some o → o.todo = [] →
    (∀ a ∈ o.accs, a.fin = true ∧ a.bad = false ∧ a.new = []) → o.kind = .store ∨ o.kind = .stp ∨ o.kind = .stx ∨ o.kind = .red →
    g.fences = [r] → r.dirty = [] → r.reads = 0 → r.count o.ctr = 1 → r.g + r.w + r.p + r.x = 1 →
    ∃ t, exec (.inFlightComplete gid o.ctr) s = .next t ∧ (t.grp gid).fences = []) ∧
  (∀ (s : State) (l1 line gid : Nat), NoLog s → Memory.wf s.mem = true → L1Ok s → s.helped.contains line = false →
    NoUpdates s line → (s.l1At l1 line).dirty ≠ 0#128 → (s.groups.find? gid).isSome = true → coreCl (s.grp gid).core = l1 / 4 →
    ∃ t, exec (.homeWritePerform (.writeBack l1 line)) s = .next t ∧
      ∀ r ∈ (t.grp gid).fences, ∀ e ∈ r.dirty, e.1 = line → e.2 &&& (s.l1At l1 line).dirty = 0#128) ∧
  (∀ (o : FF) (s : State) (b : List Word), let x := s.ix false
    Passes none false (.fence o) s → GroupRungOpen s.issuing x.gid b →
    s.scopeDenied (s.keyOf x.g / 65536) o.c.toNat = true →
    ∃ t, exec (.fence o) s = .next t ∧ Trapped x.g b 0x08 (o.c.setWidth 32) x.g.firstPc x.gid s.issuing t) ∧
  ∀ (p : FM) (s : State), (s.groups.find? s.cur).isSome = true →
    ((∃ r ∈ (s.ix false).g.fences, r.holds 0 = true) → exec (.ld p) s = .next s.issuing ∧ exec (.sld p) s = .next s.issuing) ∧
    ((∃ r ∈ (s.ix false).g.fences, r.holds 1 = true) → exec (.st p) s = .next s.issuing ∧ exec (.sst p) s = .next s.issuing)

/-- regroup (R207): it answers 0 where the partner has exited or waits in a regroup on another group, parks with code 0xD where
the partner has not come, and where both meet, the lower gix takes the other's lanes and vector registers with answers 1 and 2, or both
go on with 0 for a divergence entry or too many active lanes. (That d is written after the masks, where it is s0, s1 or s2, is the
model's choice, log 48.) -/
def Obligations.RegroupForms : Prop :=
  ∀ (o : FD) (s : State) (pid : Nat) (p : Group),
    let x := s.ix false
    let k := (scalarVal s.issuing x.g (x.a o.a) x.t).toNat
    let mask := (List.range x.g.beats).map fun b => scalarVal s.issuing x.g b x.t
    Passes none false (.regroup o) s → x.g.scoreboard (scalarUses x (x.a o.a :: List.range x.g.beats) [o.d.toNat]) = none →
    (s.unit x.g.unit).chain = none → k < x.g.gpb → k ≠ x.g.gix → x.g.ops = [] → keysRise s.groups = true →
    (∀ q ∈ s.groups, q.2.unit = x.g.unit → (q.2.gix = k ↔ q.1 = pid)) → s.groups.find? pid = some p → p.unit = x.g.unit →
    pid ≠ x.gid →
    (∀ q ∈ s.groups, q.2.unit = x.g.unit → q.1 ≠ pid → ∀ c w, q.2.wait = some (c, w) → ∀ a b d e m, w ≠ .partner a b d e m) →
    (p.st = .exited → ∃ t, exec (.regroup o) s = .next t ∧ ScalarTaken x o.s.toNat o.d.toNat 0#32 s.issuing t) ∧
    (∀ c j pd pn ps pm, p.st = .parked → p.wait = some (c, .partner j pd pn ps pm) → j ≠ x.g.gix →
      ∃ t, exec (.regroup o) s = .next t ∧ ScalarTaken x o.s.toNat o.d.toNat 0#32 s.issuing t) ∧
    (p.st = .active → ∃ t, exec (.regroup o) s = .next t ∧
      Parked x 0xD (.partner k o.d.toNat (nextPc x.g.pc) (x.gl.stallOf o.s.toNat) mask) x.g.firstPc s.issuing t) ∧
    (∀ c pd pn ps pm, p.st = .parked → p.wait = some (c, .partner x.g.gix pd pn ps pm) → x.g.stk ≠ [] →
      ∃ t, exec (.regroup o) s = .next t ∧ ScalarsSet x.g (t.grp x.gid) o.d.toNat 0#32 ∧
        ScalarsSet p (t.grp pid) pd 0#32 ∧ (t.grp pid).st = .pending ∧ (t.grp pid).pc = pn ∧
        (t.grp x.gid).vr = x.g.vr ∧ (t.grp pid).vr = p.vr ∧ t.mem = s.mem) ∧
    (∀ c pd pn ps pm, p.st = .parked → p.wait = some (c, .partner x.g.gix pd pn ps pm) → x.g.stk = [] → p.stk = [] →
      x.g.stkSp = 0 → p.stkSp = 0 → x.g.gix < k →
      let free := posOf mask x.g.beats false
      let on := posOf pm x.g.beats true
      free.length < on.length →
      ∃ t, exec (.regroup o) s = .next t ∧ ScalarsSet x.g (t.grp x.gid) o.d.toNat 0#32 ∧
        ScalarsSet p (t.grp pid) pd 0#32 ∧ (t.grp pid).st = .pending ∧ (t.grp pid).pc = pn ∧
        (t.grp x.gid).vr = x.g.vr ∧ (t.grp pid).vr = p.vr ∧ t.mem = s.mem) ∧
    (∀ c pd pn ps pm, p.st = .parked → p.wait = some (c, .partner x.g.gix pd pn ps pm) → x.g.stk = [] → p.stk = [] →
      x.g.stkSp = 0 → p.stkSp = 0 → x.g.gix < k → p.regs = x.g.regs → p.beats = x.g.beats → x.g.beats ≤ 3 →
      (∀ c, x.g.vr.find? c ≠ some .spilled) → (∀ c, p.vr.find? c ≠ some .spilled) →
      (∀ c v u, x.g.vr.find? c = some (.mapped v u) → v.length = 32) →
      s.entriesUsed x.g.core + 3 * x.g.regs ≤ Config.coreEntries →
      let free := posOf mask x.g.beats false
      let on := posOf pm x.g.beats true
      on.length ≤ free.length →
      ∃ t, exec (.regroup o) s = .next t ∧
        ScalarsSet { x.g with sr := (free.zip on).foldl (fun l m =>
          l.set (m.1 / 32) (wAt l (m.1 / 32) ||| (1#32 <<< (m.1 % 32)))) x.g.sr } (t.grp x.gid) o.d.toNat 1#32 ∧
        ScalarsSet { p with sr := [0#32, 0#32, 0#32] ++ p.sr.drop 3 } (t.grp pid) pd 2#32 ∧ (t.grp pid).vr = [] ∧
        (∀ n b l, n < x.g.regs → b < x.g.beats → l < 32 → ((t.grp x.gid).cellNow (.vec n b)).getD l 0#32 =
          match (free.zip on).find? fun m => m.1 = 32 * b + l with
          | some m => (p.cellNow (.vec n (m.2 / 32))).getD (m.2 % 32) 0#32
          | none => (x.g.cellNow (.vec n b)).getD l 0#32) ∧
        (t.grp pid).st = .pending ∧ (t.grp pid).pc = pn ∧ t.mem = s.mem)

/-! ## Chains -/

/-- The chain forms and the controller (R203-R206): fix completes or parks with code 0xE, form sets the setting and asks a spread
chain to fold, query answers the chain's state; a switch is asked for, taken at a fix point, where in folded form the stage of the most
downstream item goes on, and withdrawn at one where it no longer fits.
Streams (R200): the next item of a load stream holds the words at its base plus item and lane strides; the oldest item of a store
stream is stored in the lanes of its mask; either way the stream advances by one item. -/
def Obligations.ChainsAndStreams : Prop :=
  (∀ (s : State) (c : ChainSt),
    let x := s.ix false
    (s.unit x.g.unit).chain = some c → (s.units.find? x.g.unit).isSome = true →
    (∀ (o : F0), Passes none false (.chainFix o) s →
      (c.pending = false → ∃ t, exec (.chainFix o) s = .next t ∧ PlainDone x false o.s.toNat none x.g s.issuing t) ∧
      (c.pending = true → c.folded = false →
        ∃ t, exec (.chainFix o) s = .next t ∧ Parked x 0xE (.formSwitch (nextPc x.g.pc)) x.g.firstPc s.issuing t)) ∧
    (∀ (o : Fa), let v := scalarVal s.issuing x.g (x.a o.a) x.t
      Passes none false (.chainForm o) s → x.g.scoreboard (scalarUses x [x.a o.a] []) = none → v.toNat ≤ 2 →
      ∃ t, exec (.chainForm o) s = .next t ∧ WordDone x o.s.toNat x.t [] { s.issuing with units := t.units } t ∧
        t.unit x.g.unit = { s.unit x.g.unit with
          chain := some { c with setting := v.toNat, pending := if v = 2#32 then !c.folded else c.pending } }) ∧
    (∀ (o : Fd), Passes none false (.chainQuery o) s → x.g.scoreboard (scalarUses x [] [o.d.toNat]) = none →
      ∃ t, exec (.chainQuery o) s = .next t ∧ ScalarTaken x o.s.toNat o.d.toNat
        (toW (x.g.stage % 4 * 16 + (if c.pending then 8 else 0) + c.setting % 4 * 2 + (if c.folded then 1 else 0)))
        s.issuing t) ∧
    (∀ u p, (s.unit u).chain = some c → s.ctxPart (s.work (s.unit u).work).vf (s.work (s.unit u).work).ctx = some p →
      c.pending = false → (s.unit u).done = false → c.folded = false → c.setting = 2 →
      exec (.chainSwitchRequest u) s = .next (s.setUnit u { s.unit u with chain := some { c with pending := true } })) ∧
    (∀ u p l, (s.unit u).chain = some c → s.ctxPart (s.work (s.unit u).work).vf (s.work (s.unit u).work).ctx = some p →
      c.pending = true → s.unitHere u = true → s.fixPoint u c = true → c.folded = true →
      (s.without u).spreadOn p (s.work (s.unit u).work) = none →
      exec (.chainFormSwitch u l) s = .next (s.setUnit u { s.unit u with chain := some { c with pending := false } })) ∧
    (∀ u p k s1, (s.unit u).chain = some c → s.ctxPart (s.work (s.unit u).work).vf (s.work (s.unit u).work).ctx = some p →
      c.pending = true → s.unitHere u = true → s.fixPoint u c = true → c.folded = false → (s.unit u).cores.contains k = true →
      (s.without u).roomAt p (s.work (s.unit u).work) k 1 (s.work (s.unit u).work).foot = true → s.restUnit u = .next s1 →
      s1.quiet u = true →
      let d := { c with folded := true, pending := false, run := c.resumeAt }
      (s.leaving u d [k]).all (fun j => (s.core j).fwd.length < 16) = true →
      (s1.switchForm u d [k]).2 = true → (s1.units.find? u).isSome = true →
      ∃ t e, exec (.chainFormSwitch u [k]) s = .next t ∧ (t.unit u).chain = some { d with run := e } ∧ (t.unit u).cores = [k] ∧
        (t.unit u).swapped = false ∧
        ∀ g x cd n, keysRise s1.groups = true → s1.groups.find? g = some x → x.unit = u → x.stage = c.resumeAt → x.st = .parked →
          x.wait = some (cd, .formSwitch n) → x.held = false → (∀ q ∈ s1.groupsOf u, q.2.stage = c.resumeAt → q.1 = g) →
          e = c.resumeAt ∧ (t.grp g).st = .pending ∧ (t.grp g).pc = n)) ∧
  (∀ (s : State) (u k : Nat) (c : ChainSt) (l : Link),
    let w := s.work (s.unit u).work
    let cl := s.chainCl u
    (s.units.find? u).isSome = true → (s.unit u).chain = some c → c.links[k]? = some l → l.next < l.cnt → l.ended = false →
    s.unitHere u = true ∨ (l.kind = 2 ∧ (s.unit u).done = true ∧ s.moves w = true) → l.keys = [] → c.pending = false →
    (l.kind = 1 → l.items.length < (if c.folded then 1 else 8) →
      let m := s.mapAll (ctxKey w.vf w.ctx) cl .read 6 ((List.range (32 * w.beats)).map l.addr)
      m.fail = none → m.s.l1 = [] → m.s.poison = [] → (∀ i, i < 32 * w.beats → l.addr i % 4 = 0 ∧ windowPa (m.at (l.addr i)).1 = false) →
      ∃ t it, exec (.streamLoadItem u k) s = .next t ∧ t.mem = m.s.mem ∧
        ((t.unit u).chain.bind fun c => c.links[k]?) = some { l with items := l.items ++ [it], next := l.next + 1 } ∧
        it.mask = List.replicate w.beats 0xFFFFFFFF#32 ∧ ∀ i, i < 32 * w.beats →
          (it.vals.getD (i / 32) zeroLanes).getD (i % 32) 0#32 = m.s.memWord (m.at (l.addr i)).1) ∧
    (∀ it r, l.kind = 2 → l.items = it :: r → it.mask = [] →
      ∃ t, exec (.streamStoreItem u k) s = .next t ∧ t.mem = s.mem ∧
        ((t.unit u).chain.bind fun c => c.links[k]?) = some { l with items := r, next := l.next + 1 }) ∧
    (∀ it r i, l.kind = 2 → l.items = it :: r → i < 32 → it.mask = [1#32 <<< i] → 0 < w.beats →
      let m := s.mapAll (ctxKey w.vf w.ctx) cl .write 6 [l.addr i]
      let pa := (m.at (l.addr i)).1
      m.fail = none → windowPa pa = false → m.s.helped = [] → m.s.l1 = [] → NoLog m.s →
      ∃ t, exec (.streamStoreItem u k) s = .next t ∧
        ((t.unit u).chain.bind fun c => c.links[k]?) = some { l with items := r, next := l.next + 1 } ∧
        t.mem = m.s.mem.store pa (leBytes 4 (((it.vals.getD 0 zeroLanes).getD i 0#32).toNat))))

/-! ## Work and its scheduling -/

/-- launch and spawn (R176, R177, R208, R209): the record is queued as new work of the context, and d takes its serial number; a
full launch queue parks the group with code 0x9. -/
def Obligations.LaunchAndSpawn : Prop :=
  ∀ (o : FD) (s : State),
    let x := s.ix false
    let a := pair48 (scalarVal s.issuing x.g (x.a o.a) x.t) (scalarVal s.issuing x.g (x.a o.a + 1) x.t)
    let k := s.core x.g.core
    let cl := coreCl x.g.core
    let id := s.works.fresh
    let queued := fun (w : Work) (depth : Nat) (src : WSrc) => w.phase = .queued ∧ w.addr = a ∧ w.depth = depth ∧ w.src = src ∧
      ctxKey w.vf w.ctx = s.keyOf x.g ∧ w.serial = (s.ctx (s.keyOf x.g)).serial
    x.g.scoreboard (scalarUses x [x.a o.a, x.a o.a + 1] [o.d.toNat]) = none → x.g.draft = none → a % 128 = 0 →
    (Passes (some 3) false (.launch o) s → k.launchQ.length < 4 →
      ∃ t, exec (.launch o) s = .next t ∧ queued (t.work id) 0 (.launch x.g.core) ∧ t.mem = s.mem ∧
        (t.core x.g.core).launchQ = k.launchQ ++ [id] ∧ ScalarsSet x.g (t.grp x.gid) o.d.toNat (toW (s.ctx (s.keyOf x.g)).serial) ∧
        (t.ctx (s.keyOf x.g)).serial = (s.ctx (s.keyOf x.g)).serial + 1 ∧ GroupKept x.g (t.grp x.gid) ∧
        Retires x o.s.toNat x.t none x.g.flagPend (t.grp x.gid)) ∧
    (Passes (some 3) false (.launch o) s → 4 ≤ k.launchQ.length → (s.unit x.g.unit).foldedChain = false →
      ∃ t, exec (.launch o) s = .next t ∧ Parked x 9 .launchRoom x.g.firstPc s.issuing t) ∧
    (Passes (some 3) false (.spawn o) s → x.g.depth < 4 → (s.cluster cl).taskQ.length < Config.taskMax →
      ∃ t, exec (.spawn o) s = .next t ∧ queued (t.work id) (x.g.depth + 1) (.task cl) ∧ t.mem = s.mem ∧
        (t.cluster cl).taskQ = (s.cluster cl).taskQ ++ [id] ∧
        ScalarsSet x.g (t.grp x.gid) o.d.toNat (toW (s.ctx (s.keyOf x.g)).serial) ∧
        (t.ctx (s.keyOf x.g)).serial = (s.ctx (s.keyOf x.g)).serial + 1 ∧ GroupKept x.g (t.grp x.gid) ∧
        Retires x o.s.toNat x.t none x.g.flagPend (t.grp x.gid))

/-- Records and completion words (R153, R154): a record whose words keep their limits and whose pages translate is accepted, one
that breaks a limit is refused and reported; the completion word of a work whose groups have exited rises by one. -/
def Obligations.RecordsAndCompletion : Prop :=
  ∀ (s : State) (k : Nat),
    let w := s.work k
    (∀ s1 w1, s.checkable k = true → s.checkRecord w = (s1, .ok w1) →
      ∃ t, exec (.launchRecordCheck k) s = .next t ∧ (t.work k).phase = .accepted ∧ (t.work k).words = w1.words ∧
        (t.work k).keys = [] ∧ t.mem = s1.mem) ∧
    (∀ s0 s1 r p c, s.checkable k = true → ((s.ctxAddr w.vf w.ctx).map fun a => s.useAddr w.vf a false).getD s = s0 →
      s0.ctxPart w.vf w.ctx = some p → w.fatal = false → w.addr % 128 = 0 →
      s0.recWords w w.addr 32 = (s1, .ok r) → Work.recordOk { w with words := r } = false → w.src = .launch c →
      ∃ t, exec (.launchRecordCheck k) s = .next t ∧ (t.work k).phase = .refused ∧ k ∉ (t.core c).launchQ ∧
        ∃ q, t.trapQ = s1.trapQ ++ [q] ∧ q.rung = (if s1.saving (ctxKey w.vf w.ctx) = true then 3 else 2) ∧ q.key = ctxKey w.vf w.ctx ∧ q.trap.cause = 0x01 ∧ q.trap.info = toW w.serial) ∧
    (∀ s1 pa vfa, w.phase = .accepted → w.total ≤ w.next → w.live = 0 → (∀ p ∈ s.units, p.2.work = k → p.2.drained = true) →
      w.keys = [] → w.fatal = false → w.ccnt ≠ 0 → s.l1 = [] → s.helped = [] → NoLog s →
      s.translate w.vf w.ctx w.ccnt .write 9 (s.workCl w) none (coreCid (s.workCl w * 4)) = (s1, .ok pa vfa) → windowPa pa = false →
      s1.helped = [] → s1.l1 = [] → NoLog s1 →
      ∃ t, exec (.workCompletionWord k) s = .next t ∧ (t.work k).phase = .complete ∧
        t.mem = s1.mem.store pa (leBytes 4 (s1.memWord pa + 1#32).toNat))

/-- Placement (R47, R130, R155, R161, R176): where everything fits and the pages it pins are mapped, a block takes its slots, its footprint is zeroed, and each of its
groups starts with the state of R47; a task also leaves its cluster's queue. -/
def Obligations.Placement : Prop :=
  ∀ (s : State) (k c p : Nat),
    let w := s.work k
    let u := s.units.fresh
    let started := fun (t : State) (gpb : Nat) => (t.work k).next = w.next + 1 ∧ (t.work k).live = w.live + 1 ∧
      (t.unit u).work = k ∧ (t.unit u).bix = w.next ∧ (t.unit u).foot = w.foot ∧ (t.unit u).scr = List.replicate w.foot 0#8 ∧
      (t.unit u).cores = [c] ∧ ∀ i, i < gpb → ∃ q ∈ t.groups, q.2.unit = u ∧ q.2.gix = i ∧ q.2.core = c ∧ q.2.st = .pending ∧
        q.2.pc = w.entry ∧ q.2.regs = w.regs ∧ q.2.vr = [] ∧ q.2.gst = toW (w.cls * 1073741824) ∧
        q.2.sr = (List.range 48).map fun j => if j < q.2.beats then 0xFFFFFFFF#32 else 0#32
    s.placeable k = some p → w.chn = false → w.pair = false → w.drf = false → w.handler = false →
    (w.isTask = false → w.cls ≠ 0 ∨ w.blocks = 1 → s.roomAt p w c w.gpb w.foot = true →
      (State.pinWindows (ctxKey w.vf w.ctx) c w (w.nextWindows 1 0) s).2.isSome = true →
      ∃ t, exec (.blockPlace (.block k c)) s = .next t ∧ started t w.gpb) ∧
    (∀ cl j, w.src = .task cl → coreCl c = cl → (s.cluster cl).taskQ.contains k = true → s.roomAt p w c 1 w.foot = true →
      s.entriesUsed c + s.asideOn c + w.regs * w.beats ≤ Config.coreEntries → s.taskSlot w = some j → w.gpb = 1 →
      (State.pinWindows (ctxKey w.vf w.ctx) c w (w.nextWindows 1 j) s).2.isSome = true →
      ∃ t, exec (.taskPlace k c) s = .next t ∧ started t 1 ∧ k ∉ (t.cluster cl).taskQ)

/-- The active set and the boosts (R157-R159): the pending group ready longest enters a free place; after 2,048 cycles it takes
that of the active group that entered earliest, where that one is not inside an issue unit (R26); a group not chosen for 256 cycles gains a
level. -/
def Obligations.ActiveSet : Prop :=
  ∀ (s : State) (c : Nat), keysRise s.groups = true →
    (∀ p ∈ s.contenders c, (s.actives c).length < Config.activeMax → p.2.st = .pending → p.2.readySince ≤ (s.core c).cycle →
      (∀ q ∈ s.contenders c, q.2.st = .pending → q ≠ p → p.2.readySince < q.2.readySince) →
      exec (.activeSetEnter c) s = .next (s.setGrp p.1 { p.2 with
        st := .active, entered := max (s.core p.2.core).cycle ((s.core p.2.core).left + 1), aside := 0 })) ∧
    (∀ p q, Config.activeMax ≤ (s.actives c).length → s.nextIn c = some p → p.2.readySince + 2048 ≤ (s.core c).cycle →
      q ∈ s.actives c → (∀ r ∈ s.actives c, r ≠ q → q.2.entered < r.2.entered) → q.2.midUnit = false →
      ∃ t, exec (.displace c) s = .next t ∧ (t.grp p.1).st = .active ∧ (t.grp q.1).st = .pending ∧
        ∀ g, g ≠ p.1 → g ≠ q.1 → t.groups.find? g = s.groups.find? g) ∧
    (∀ g x, s.groups.find? g = some x → x.st = .active ∨ x.st = .pending → s.onStage x = true → x.boost < 3 →
      x.boostAt + 256 ≤ (s.core x.core).cycle →
      exec (.boostRise g) s = .next (s.setGrp g { x with boost := x.boost + 1, boostAt := x.boostAt + 256 }))

/-- Saves by the scheduler (R163-R165, R172): at the end of its quantum a P block gives way to waiting P work of its priority or
above, or runs another; a W block, a C gang, and parked work give their slots up to waiting work. -/
def Obligations.SchedulerSaves : Prop :=
  ∀ (s : State) (u : Nat),
    let x := s.unit u
    let w := s.work x.work
    let now := (s.core (x.cores.headD 0)).cycle
    let saved := fun (i : Instr) (back : Bool) => ∀ s1 s2, s.restUnit u = .next s1 → s1.quiet u = true → s1.saveUnit u true = (s2, .ok) →
      ∃ t, exec i s = .next t ∧ (t.unit u).swapped = true ∧ (t.unit u).cores = [] ∧ (t.unit u).back = back ∧ t.mem = s2.mem
    s.unitHere u = true → w.chn = false →
    (w.cls = 1 → x.quantum + 1700000 ≤ now → s.waitsFor w (fun c p => c = 1 && w.prio ≤ p) = false →
      exec (.quantumExpiry u) s = .next (s.setUnit u { x with quantum := now })) ∧
    (w.cls = 1 → x.quantum + 1700000 ≤ now → s.waitsFor w (fun c p => c = 1 && w.prio ≤ p) = true → saved (.quantumExpiry u) true) ∧
    (w.cls = 2 → s.waitsFor w (fun c _ => c != 2) = true → saved (.wBlockSave u) true) ∧
    (w.cls = 0 → (s.units.filter fun p => p.2.work = x.work && !p.2.done).map (·.1) = [u] → x.chain = none → w.next = w.total →
      s.waitsFor w (fun _ p => w.prio < p) = true → saved (.gangPreempt x.work) true) ∧
    (s.gangOf u = [u] → s.allParked u w.cls = true → x.chain = none → s.waitsFor w (fun _ _ => true) = true →
      saved (.swapOut u) false)

/-- Starvation and migration (R174, R179, R180): a parked group whose timer reaches its limit traps STARVE at the block rung; a
unit at rest moves to a core with room with its groups, which keep their registers, words and stacks, but for registers that room had to
be made for, and leaves a forwarding entry until it is released. -/
def Obligations.StarvationAndMigration : Prop :=
  ∀ (s : State),
    (∀ g x c w n, s.groups.find? g = some x → x.st = .parked → x.wait = some (c, w) → x.held = false →
      s.starveLimit (s.partOf x) (gstCls x.gst) = some n → n ≤ s.starved x → s.holds g w = false → s.frozen (s.keyOf x) 0 = false →
      s.unitAway x.unit = false → (s.unit x.unit).chain = none → x.draft = none → (∀ c, (s.workOf x).src ≠ .handler c) → x.rung ≠ 2 →
      s.saving (s.keyOf x) = false → s.stuckSave x.unit = false →
      (s.units.find? x.unit).isSome = true →
      ∃ t, exec (.starveTimerExpiry g) s = .next t ∧ (t.grp g).held = true ∧ (t.grp g).pc = x.pc ∧ (t.grp g).sr = x.sr ∧
        t.mem = s.mem ∧ (t.unit x.unit).btraps = (s.unit x.unit).btraps ++ [(some g, ⟨0x0A, toW c, x.pc, 1, false⟩)]) ∧
    (∀ u core p s1, let x := s.unit u
      let w := s.work x.work
      let old := x.cores.headD 0
      s.ctxPart w.vf w.ctx = some p → s.unitHere u = true → x.chain = none → (∀ c ∈ x.cores, c ∉ w.spanOf core) →
      (s.core old).fwd.length < 16 → s.roomAt p w core (s.liveGroups u).length x.foot = true → s.restUnit u = .next s1 →
      s1.quiet u = true → (s1.moveUnit u core).2 = true →
      ∃ t, exec (.migrateUnit u core) s = .next t ∧ u ∈ (t.core ((s1.unit u).cores.headD 0)).fwd ∧
        t.unit u = { s1.unit u with cores := (s1.work (s1.unit u).work).spanOf core, quantum := (t.unit u).quantum } ∧
        ∀ i g, keysRise s1.groups = true → ((s1.liveGroups u).map (·.1))[i]? = some g → keysRise (s1.grp g).vr = true →
          let x := s1.grp g
          let y := t.grp g
          y.core = (if i < Config.coreSlots - s1.slotsUsed core then core else core + 1) ∧ y.unit = x.unit ∧ y.gix = x.gix ∧
            y.pc = x.pc ∧ y.gst = x.gst ∧ y.sr = x.sr ∧ y.xsv = x.xsv ∧ y.bank = x.bank ∧ y.stk = x.stk ∧ y.stkSp = x.stkSp ∧
            y.ops = x.ops ∧ y.wait = x.wait ∧ y.held = x.held ∧
            ∀ k, y.vr.find? k = some .spilled ∨ y.cellNow (.vec (k / 3) (k % 3)) = x.cellNow (.vec (k / 3) (k % 3))) ∧
    (∀ c u, exec (.forwardEntryRelease c u) s = .next (s.setCore c { s.core c with fwd := (s.core c).fwd.erase u }))

/-! ## Sequences -/

/-- The sq forms at issue (R297-R299): a request whose fields keep their limits is sent to the engine, and the group waits at its
word for the answer; nothing else changes. -/
def Obligations.SqRequests : Prop :=
  ∀ p ∈ ([(.sqLd, 0), (.sqSt, 1), (.sqMark, 2), (.sqBack, 3), (.sqFork, 4), (.sqDrop, 5), (.sqInfo, 6)] :
      List ((FD → Instr) × Nat)), ∀ (o : FD) (s : State),
    let x := s.ix false
    let u := s.unit x.g.unit
    let q := (List.range 4).map fun i => scalarVal s.issuing x.g (x.a o.a + i) x.t
    let a := (wAt q 2).toNat
    Passes (some 2) false (p.1 o) s → x.g.scoreboard (scalarUses x ((List.range 4).map fun i => x.a o.a + i) [o.d.toNat]) = none →
    x.g.sqReq = none → sqBad p.2 q = none → x.g.draft = none → (p.2 ≤ 1 ∨ p.2 = 6 → a % 16 = 0) →
    (p.2 = 6 → a + 64 ≤ u.foot ∧ a + 64 ≤ 4294967296 ∧ u.barIn? a (a + 64) = none ∧ u.claimed a (a + 64) = false) →
    exec (p.1 o) s = .next (s.issuing.modGrp x.gid fun g => { g with sqReq := some ⟨p.2, o.d.toNat, q, o.s.toNat⟩ })

/-- The engine's answers (R293-R302): stale handles answer 2; create makes a sequence of zero states; drop ends one and moves the
slot's generation; mark keeps a waypoint, back returns to one; info writes its record; ld and st start transfers; a transfer that
completes moves the bytes; a damaged page is marked. The transfers of the state store (R303, R305) and its pool (R412): an sq.ld
fills the scratchpad from its page set, an sq.st fills the set from the scratchpad, in one step or some bytes of it and the others later
(which ones is the model's free value, log 31); an uncorrectable error marks the set. -/
def Obligations.SqAnswersAndTransfers : Prop :=
  (∀ (s : State) (gid : Nat) (r : SqReq),
    let g := s.grp gid
    let key := s.keyOf g
    let h := wAt r.q 0
    let die := hDie h
    let slot := hSlot h
    let j := bits (wAt r.q 1).toNat 0 8
    let a := (wAt r.q 2).toNat
    let answers := fun (v : Word) (t : State) => exec (.sqEngineRequest gid) s = .next t ∧ (t.grp gid).sqReq = none ∧
      ScalarsSet g (t.grp gid) r.d v ∧ (t.grp gid).vr = g.vr ∧ (t.grp gid).pc = nextPc g.pc ∧ t.mem = s.mem
    (s.groups.find? gid).isSome = true → g.sqReq = some r → g.chain = [] → s.frozen key 4 = false → s.frozen key 0 = false →
    s.unitAway g.unit = false → g.held = false → (s.unit g.unit).resting = false →
    (h ≠ 0#32 ∨ r.form ≠ 4 → s.seqOf h = none → ∃ t, answers 2#32 t ∧ t.dies = s.dies) ∧
    (∀ k, r.form = 4 → h = 0#32 → s.freeSlot (coreDie g.core) = some k →
      ∃ t, answers (handle (coreDie g.core) ((s.die (coreDie g.core)).gen k) k) t ∧
        (t.die (coreDie g.core)).seqs.find? k =
          some ⟨key, bits (wAt r.q 1).toNat 8 4 + 1, List.replicate (j + 1) ⟨0#32, 0, []⟩⟩) ∧
    (∀ q, h ≠ 0#32 → s.seqOf h = some q → q.key = key →
      (r.form = 5 → s.storing die slot (List.range q.layers.length) = false →
        ∃ t, answers 0#32 t ∧ (t.die die).seqs = (s.die die).seqs.del slot ∧
          (t.die die).gen slot = (if hGen h = 131071 then 1 else hGen h + 1)) ∧
      (r.form = 2 → j < q.layers.length → j ≠ 255 → s.storing die slot [j] = false →
        let l := q.layer j
        ∃ t q2, answers (if (l.ring.any fun w => w.1 = l.cur) = false ∧ 8 ≤ l.ring.length then 0x100#32 else 0#32) t ∧
          (t.die die).seqs.find? slot = some q2 ∧ (q2.layer j).cur = l.cur ∧
          (q2.layer j).ring = (if l.ring.any fun w => w.1 = l.cur then l.ring
            else (if 8 ≤ l.ring.length then l.ring.drop 1 else l.ring) ++ [(l.cur, l.set)])) ∧
      (∀ w, r.form = 3 → j < q.layers.length → j ≠ 255 → s.storing die slot [j] = false → (q.layer j).ring.find? (fun w => w.1 = wAt r.q 2) = some w →
        ∃ t q2, answers 0#32 t ∧ (t.die die).seqs.find? slot = some q2 ∧ (q2.layer j).cur = wAt r.q 2 ∧ (q2.layer j).set = w.2) ∧
      (r.form = 6 → j < q.layers.length → s.storing die slot [j] = false → (s.unit g.unit).barIn? a (a + 64) = none →
        (s.units.find? g.unit).isSome = true →
        ∃ t, answers 0#32 t ∧ t.unit g.unit = (s.unit g.unit).scrWrite a ((sqRecord q (q.layer j)).flatMap fun w => leBytes 4 w.toNat)) ∧
      (r.form = 0 → j < q.layers.length → s.storing die slot [j] = false → a + q.n * 4096 ≤ (s.unit g.unit).foot →
        a + q.n * 4096 ≤ 4294967296 → (s.unit g.unit).claimed a (a + q.n * 4096) = false →
        (∀ p, (s.die die).sets.find? (q.layer j).set = some p → p.bad = false) →
        ∃ t c, answers 0#32 t ∧ t.copies.find? s.copies.fresh = some c ∧ c.kind = 1 ∧ c.rows = [(0, a)] ∧ c.len = q.n * 4096 ∧
          c.sq = [die, slot, j, (q.layer j).set] ∧ c.gid = some gid) ∧
      (r.form = 1 → j < q.layers.length → s.storing die slot [j] = false → a + q.n * 4096 ≤ (s.unit g.unit).foot →
        a + q.n * 4096 ≤ 4294967296 → wAt r.q 3 = (q.layer j).cur + 1#32 → s.pagesFit key die q.n = true → (q.layer j).set = 0 →
        ∃ t c q2, answers 0#32 t ∧ t.copies.find? s.copies.fresh = some c ∧ c.kind = 2 ∧ c.rows = [(a, 0)] ∧
          (t.die die).seqs.find? slot = some q2 ∧ (q2.layer j).cur = (q.layer j).cur + 1#32 ∧
          (q2.layer j).ring = ringBehind ((q.layer j).cur + 1#32) (q.layer j).ring ∧
          (q2.layer j).set = (s.die die).sets.fresh) ∧
      (∀ w, r.form = 4 → q.layers.length = 1 → (q.layer 0).ring.find? (fun w => w.1 = wAt r.q 2) = some w →
        s.storing die slot [0] = false → (∀ p, (s.die die).sets.find? w.2 = some p → p.bad = false) →
        ∀ k, s.freeSlot die = some k → k ≠ slot →
        ∃ t, answers (handle die ((s.die die).gen k) k) t ∧
          (t.die die).seqs.find? k = some { q with layers := [⟨wAt r.q 2, w.2, [(wAt r.q 2, w.2)]⟩] }))) ∧
  (∀ (s : State) (k die slot j ps : Nat) (c : Copy), s.copy? k = some c → c.sq = [die, slot, j, ps] → c.fin = false →
    s.unitAway c.unit = false → s.frozen c.key 4 = false → c.failed = none → (s.units.find? c.unit).isSome = true →
    let a := c.rows.headD (0, 0)
    let moved := fun (t : State) (w : Nat → Bool) => exec (.sqTransferComplete k) s = .next t ∧ t.mem = s.mem ∧ t.groups = s.groups ∧
      (∃ i, i < c.len ∧ w i = true) ∧
      let l := (List.range c.len).filter fun i => !w i
      (l = [] → t.copies = s.copies.del k) ∧ (l ≠ [] → t.copies.find? k = some { c with left := some l })
    (∀ p, c.kind = 1 → c.left = none → c.keys = [] → 0 < c.len → (s.die die).sets.find? ps = some p → p.bad = false →
      c.len ≤ p.bytes.length → a.2 + c.len ≤ (s.unit c.unit).scr.length → (s.unit c.unit).barIn? a.2 (a.2 + c.len) = none →
      ∃ t w, moved t w ∧ ∀ b, (t.unit c.unit).scr.getD b 0#8 =
        if a.2 ≤ b ∧ b < a.2 + c.len ∧ w (b - a.2) = true then p.bytes.getD (b - a.2) 0#8 else (s.unit c.unit).scr.getD b 0#8) ∧
    (∀ p, c.kind = 2 → c.left = none → c.keys = [] → 0 < c.len → (s.die die).sets.find? ps = some p → c.len ≤ p.bytes.length →
      ps ∈ (s.die die).seqs.flatMap (fun q => q.2.sets) →
      (∀ e ∈ s.copies, ¬ (e.1 < k ∧ e.2.kind = 1 ∧ e.2.fin = false ∧ e.2.sq.getD 0 8 = die ∧ e.2.sq.getD 3 0 = ps)) →
      ∃ t w q, moved t w ∧ (t.die die).sets.find? ps = some q ∧ q.key = p.key ∧ q.n = p.n ∧
        q.bad = (p.bad && (List.range c.len).any fun i => !w i) ∧
        ∀ i, i < c.len → q.bytes.getD i 0#8 = if w i = true then ((s.unit c.unit).scrRead a.1 c.len).getD i 0#8 else p.bytes.getD i 0#8) ∧
    (∀ p, (s.die die).sets.find? ps = some p →
      ∃ t, exec (.statePageError die ps) s = .next t ∧ (t.die die).sets.find? ps = some { p with bad := true } ∧ t.mem = s.mem))

/-! ## The helm -/

/-- The helm's scalar words (R251). The helm's control words (R251, R258): branches, the loop, calls and returns on the stack of
eight, hnop; a ninth call, a return without an entry and a reserved major are helm faults. -/
def Obligations.HelmScalarAndControl : Prop :=
  (∀ (s : State) (key : Nat),
    let h := s.helm key s.curCl
    let r := fun (n : BitVec 5) => wAt h.h n.toNat
    (∀ p ∈ ([(.hadd, fun a b => a + b), (.hsub, fun a b => a - b), (.hshl, fun a b => a <<< (b.setWidth 8).toNat),
        (.hand, fun a b => a &&& b)] : List ((HR → Instr) × (Word → Word → Word))), ∀ (o : HR), HelmRuns (p.1 o) key s →
      ∃ t, exec (p.1 o) s = .next t ∧
        HelmDone key { h with h := h.h.set o.d.toNat (p.2 (r o.a) (if o.i = 1#1 then o.k.signExtend 32 else r o.b)) } none s t) ∧
    (∀ (o : HI), HelmRuns (.hmovi o) key s →
      ∃ t, exec (.hmovi o) s = .next t ∧ HelmDone key { h with h := h.h.set o.d.toNat (o.i.signExtend 32) } none s t) ∧
    (∀ (o : HIh), HelmRuns (.hmoviHi o) key s →
      ∃ t, exec (.hmoviHi o) s = .next t ∧
        HelmDone key { h with h := h.h.set o.d.toNat ((r o.d &&& 0x0000FFFF#32) ||| (o.i.setWidth 32 <<< 16)) } none s t)) ∧
  (∀ (s : State) (key : Nat),
    let h := s.helm key s.curCl
    let r := fun (n : BitVec 5) => wAt h.h n.toNat
    (∀ (o : HJ), HelmRuns (.hbr o) key s → ∃ t, exec (.hbr o) s = .next t ∧ HelmDone key h (some o.t.toNat) s t) ∧
    (∀ (o : HJa), HelmRuns (.hbrnz o) key s →
      ∃ t, exec (.hbrnz o) s = .next t ∧ HelmDone key h (if r o.a = 0#32 then none else some o.t.toNat) s t) ∧
    (∀ (o : HJa), HelmRuns (.hloop o) key s →
      ∃ t, exec (.hloop o) s = .next t ∧ HelmDone key { h with h := h.h.set o.a.toNat (r o.a - 1#32) }
        (if r o.a - 1#32 = 0#32 then none else some o.t.toNat) s t) ∧
    (∀ (o : HJ), HelmRuns (.hcall o) key s →
      (h.stack.length < 8 → h.pc < 4095 →
        ∃ t, exec (.hcall o) s = .next t ∧ HelmDone key { h with stack := (h.pc + 1) :: h.stack } (some o.t.toNat) s t) ∧
      (8 ≤ h.stack.length → ∃ t, exec (.hcall o) s = .next t ∧ HelmFaults key 0x01 0#32 s t)) ∧
    (HelmRuns .hret key s →
      (∀ p q, h.stack = p :: q → ∃ t, exec .hret s = .next t ∧ HelmDone key { h with stack := q } (some p) s t) ∧
      (h.stack = [] → ∃ t, exec .hret s = .next t ∧ HelmFaults key 0x01 0#32 s t)) ∧
    (HelmRuns .hnop key s → ∃ t, exec .hnop s = .next t ∧ HelmDone key h none s t) ∧
    (HelmRuns .helmReservedMajor key s → ∃ t, exec .helmReservedMajor s = .next t ∧ HelmFaults key 0x01 0#32 s t))

/-- Requests (R242-R247, R252): mpost queues one for its cluster's helm; it becomes visible once its poster's stores are
complete; a start sets PC, h0-h3 and the bound block; a load fills the control store; a message reaches mpop in its turn, and a start
or load that has become the oldest request of its context halts the program there; a helm takes up another context, whose state it restores where it has been saved. -/
def Obligations.HelmRequests : Prop :=
  ∀ (s : State),
    (∀ (o : FD), let x := s.ix false
      let cl := coreCl x.g.core
      let q := (List.range 4).map fun i => scalarVal s.issuing x.g (x.a o.a + i) x.t
      Passes (some 3) false (.mpost o) s → x.g.scoreboard (scalarUses x ((List.range 4).map fun i => x.a o.a + i) [o.d.toNat]) = none →
      reqBad q = false → x.g.draft = none →
      ((s.cluster cl).fifo.length < Config.fifoMax → ∃ t, exec (.mpost o) s = .next t ∧
        ScalarTaken x o.s.toNat o.d.toNat 0#32 (s.issuing.setCluster cl { s.cluster cl with
          fifo := (s.cluster cl).fifo ++ [⟨q, s.keyOf x.g, x.g.unit, x.gid, x.g.postDeps.all (· = 0), x.g.postDeps, 0⟩] }) t) ∧
      (Config.fifoMax ≤ (s.cluster cl).fifo.length →
        ∃ t, exec (.mpost o) s = .next t ∧ ScalarTaken x o.s.toNat o.d.toNat 1#32 s.issuing t)) ∧
    (∀ cl i r, (s.cluster cl).fifo[i]? = some r → r.deps.all (· = 0) = true → r.vis = false →
      exec (.mpostVisible cl i) s =
        .next (s.setCluster cl { s.cluster cl with fifo := (s.cluster cl).fifo.set i { r with vis := true } })) ∧
    (∀ cl i r, let s1 := s.cleanFifo cl
      s1.servable cl = some (i, r) → (s.cluster cl).serve = some r.key →
      (r.kind = 1 → (s.helm r.key cl).run = .halted → ∃ t, exec (.helmStartRequest cl) s = .next t ∧ (t.helm r.key cl).run = .running ∧
        (t.helm r.key cl).pc = bits (wAt r.q 0).toNat 0 12 ∧ (t.helm r.key cl).bind = some r.unit ∧
        (t.helm r.key cl).h = r.q.take 4 ++ (s.helm r.key cl).h.drop 4 ∧
        (t.cluster cl).fifo = (s1.cluster cl).fifo.eraseIdx i ∧ t.mem = s.mem) ∧
      (∀ s2 pa vfa, r.kind = 2 → (s.helm r.key cl).run = .halted → r.got = 0 → bits (wAt r.q 0).toNat 12 13 = 1 →
        s1.access r.key (pair48 (wAt r.q 1) (wAt r.q 2) % 281474976710656) .read 5 (cl * 4) = (s2, .ok pa vfa) →
        pa % 4 = 0 → windowPa pa = false → s2.l1 = [] → s2.poison = [] →
        ∃ t, exec (.helmLoadRequest cl) s = .next t ∧ (t.helm r.key cl).run = .halted ∧
          (t.helm r.key cl).store = (s.helm r.key cl).store.set (bits (wAt r.q 0).toNat 0 12) (s2.memWord pa) ∧
          (t.cluster cl).fifo = (s1.cluster cl).fifo.eraseIdx i)) ∧
    (∀ cl key, let s1 := s.cleanFifo cl
      let c := s1.cluster cl
      s1.nextServe cl = some key → c.serve ≠ some key →
      (∀ k, c.serve = some k → (s1.helm k cl).run = .halted ∨ ∃ d, (s1.helm k cl).run = .waiting (.mpop d)) →
      (∀ k, c.bankVictim key = some k → (s1.helm k cl).tiles = [] ∨ s1.frozen k 2 = true) →
      let u := (c.serve.map fun k => s1.helmLeave k cl).getD s1
      let w := ((c.bankVictim key).map fun k => u.bankOut k cl).getD u
      (∀ s2, w.getHelm key cl = (s2, true) →
        ∃ t, exec (.helmContextSwitch cl) s = .next t ∧ (t.cluster cl).serve = some key ∧ t.helm key cl = s2.helm key cl ∧
          (t.cluster cl).banks = (key :: c.banks.filter (· != key)).take 2 ∧ t.mem = s2.mem) ∧
      ((∀ f ∈ (s1.ctx key).frames, f.2 ≠ helmOwner cl) → c.bankVictim key = none →
        ∃ t, exec (.helmContextSwitch cl) s = .next t ∧ (t.cluster cl).serve = some key ∧ t.helm key cl = s1.helm key cl ∧
          (t.cluster cl).fifo = c.fifo)) ∧
    (∀ (o : HRd) (key : Nat), let s1 := s.cleanFifo s.curCl
      let h := s.helm key s.curCl
      let waits := s1.setHelm key s.curCl { h with run := .waiting (.mpop o.d.toNat) }
      HelmRuns (.mpop o) key s →
      (s1.oldestReq s.curCl key = none → ∃ t, exec (.mpop o) s = .next t ∧ HelmWaits key (.mpop o.d.toNat) s1 t) ∧
      (∀ i r, s1.oldestReq s.curCl key = some (i, r) → r.kind = 0 → r.vis = true →
        (waits.servable s.curCl = some (i, r) → ∃ t, exec (.mpop o) s = .next t ∧ HelmDone key { h with
          h := h.h.take o.d.toNat ++ r.q.take 4 ++ h.h.drop (o.d.toNat + 4), bind := some r.unit } none (s1.takeReq s.curCl i) t) ∧
        (∀ j q, waits.servable s.curCl = some (j, q) → j ≠ i →
          ∃ t, exec (.mpop o) s = .next t ∧ HelmWaits key (.mpop o.d.toNat) s1 t)) ∧
      (∀ i r, s1.oldestReq s.curCl key = some (i, r) → r.kind ≠ 0 → r.vis = true → h.tiles = [] → h.defers = [] →
        s.helmCopies key s.curCl = [] → s.helmFailed key s.curCl = none →
        ∃ t, exec (.mpop o) s = .next t ∧ HelmDone key { h with run := .halted } none s1 t))

/-- Waits and deferred effects of the helm (R193, R252, R361, R410): mwbar, mcwait, mfence and hhalt wait for what they name and
then go on; marrive and mdone are deferred behind the operations and copies before them, and then take effect; mcopy starts a
copy; a wait in mwbar of 2^30 cycles raises STARVE at the block rung. -/
def Obligations.HelmEngineWords : Prop :=
  ∀ (s : State) (key : Nat),
    let cl := s.curCl
    let h := s.helm key cl
    let r := fun (n : BitVec 5) => wAt h.h n.toNat
    let u := h.bind.getD 0
    let foot := match h.bind with
      | some u => (s.unit u).foot
      | none => 0
    let quiet := h.tiles = [] ∧ h.defers = [] ∧ s.helmCopies key cl = []
    (∀ (o : HRa), let tok := r o.a
      HelmRuns (.mwbar o) key s → bits tok.toNat 3 13 = 0 →
      ((s.unit u).phaseLeft (tok.toNat / 65536 * 16) tok = true → h.run ≠ .waiting (.mwbar tok none) →
        ∃ t, exec (.mwbar o) s = .next t ∧ HelmDone key h none s t) ∧
      (h.run = .waiting (.mwbar tok none) → ∃ t, exec (.mwbar o) s = .next t ∧ HelmWaits key (.mwbar tok none) s t) ∧
      ((s.unit u).phaseLeft (tok.toNat / 65536 * 16) tok = false → h.run = .running →
        ∃ t, exec (.mwbar o) s = .next t ∧ HelmWaits key (.mwbar tok (some (s.cluster cl).hcycle)) s t)) ∧
    (∀ (o : HRa), HelmRuns (.mcwait o) key s →
      ((s.helmCopies key cl).length ≤ (r o.a).toNat → s.helmFailed key cl = none →
        ∃ t, exec (.mcwait o) s = .next t ∧ HelmDone key h none s t) ∧
      ((r o.a).toNat < (s.helmCopies key cl).length → ∃ t, exec (.mcwait o) s = .next t ∧ HelmWaits key (.mcwait (r o.a)) s t)) ∧
    (HelmRuns .mfence key s →
      (quiet → s.helmFailed key cl = none → ∃ t, exec .mfence s = .next t ∧ HelmDone key h none s t) ∧
      (¬ quiet → ∃ t, exec .mfence s = .next t ∧ HelmWaits key .fence s t)) ∧
    (HelmRuns .hhalt key s →
      (quiet → s.helmFailed key cl = none → ∃ t, exec .hhalt s = .next t ∧ HelmDone key { h with run := .halted } none s t) ∧
      (¬ quiet → ∃ t, exec .hhalt s = .next t ∧ HelmWaits key .halt s t)) ∧
    (∀ (o : HRa), let a := (r o.a).toNat
      HelmRuns (.marrive o) key s → a % 16 = 0 → a + 16 ≤ foot → ((s.unit u).bar? a).isSome = true →
      ∃ t, exec (.marrive o) s = .next t ∧ HelmDone key { h with
        defers := h.defers ++ [⟨false, u, a, h.tiles.map (·.id), (s.helmCopies key cl).map (·.1), h.pc, []⟩] } none s t) ∧
    (∀ (o : HRa), let va := pair48 (r o.a) (wAt h.h (o.a.toNat + 1))
      HelmRuns (.mdone o) key s → va % 4 = 0 →
      ∃ t, exec (.mdone o) s = .next t ∧ HelmDone key { h with
        defers := h.defers ++ [⟨true, u, va, h.tiles.map (·.id), (s.helmCopies key cl).map (·.1), h.pc, []⟩] } none s t) ∧
    (∀ (o : HRa), let a := (r o.a).toNat
      let v := leWords ((s.unit u).scrRead a 32) 8
      let dir := ctlDir (wAt v 6)
      let c : Copy := ⟨0, cl, u, key, none, cpyRows v, dir, ctlPl (wAt v 6), hi16 (wAt v 3) * 16, 0, 0, v, 0, none, [],
        0#32, false, none, [], false⟩
      HelmRuns (.mcopy o) key s → a % 32 = 0 → a + 32 ≤ foot → cpyCheck v foot = none → wAt v 7 = 0#32 →
      (dir = 1 → (s.unit u).rowClaimed (cpyRows v) (rowOut (ctlPl (wAt v 6)) (hi16 (wAt v 3) * 16)) = false) →
      s.copiesIn cl < Config.copyMax → (s.helmCopies key cl).length < 63 →
      ∃ t, exec (.mcopy o) s = .next t ∧ t.copies.find? s.copies.fresh = some c ∧
        HelmDone key h none { s with copies := t.copies, units := t.units } t) ∧
    (∀ cl key h d, s.deferReady cl false = some (key, h, d) →
      exec (.marriveEffect cl) s =
        .next ((s.setHelm key cl { h with defers := h.defers.drop 1 }).modUnit d.unit fun u => u.engineArrive d.addr)) ∧
    (∀ cl key h d s1 pa vfa, s.deferReady cl true = some (key, h, d) →
      s.access key d.addr .write 5 (cl * 4) = (s1, .ok pa vfa) → windowPa pa = false → s1.l1 = [] → s1.helped = [] → NoLog s1 →
      ∃ t, exec (.mdoneEffect cl) s = .next t ∧ (t.helm key cl).defers = h.defers.drop 1 ∧
        t.mem = s1.mem.store pa (leBytes 4 (s1.memWord pa + 1#32).toNat)) ∧
    (∀ cl key h d s1 pa vfa, s.deferReady cl true = some (key, h, d) →
      s.access key d.addr .write 5 (cl * 4) = (s1, .ok pa vfa) → windowPa pa = true → s1.sends key = false →
      exec (.mdoneEffect cl) s = .next s1) ∧
    (∀ cl key tok n u, (s.cluster cl).serve = some key → (s.helm key cl).run = .waiting (.mwbar tok (some n)) →
      (s.helm key cl).bind = some u → n + 1073741824 ≤ (s.cluster cl).hcycle → s.frozen key 1 = false →
      (s.units.find? u).isSome = true →
      ∃ t p, exec (.helmMwbarStarve cl) s = .next t ∧ (t.unit u).btraps = (s.unit u).btraps ++ [(none, p)] ∧ p.cause = 0x0A ∧
        p.pc = (s.helm key cl).pc ∧ p.rung = 1 ∧ t.mem = s.mem)

/-- Tile words at issue (R241, R253-R257): aligned operands and regions within the footprint queue the operation with the values
of its registers; the spans it reads are claimed. Tile operations not begun, at completion (R239, R253-R256, R260): each element of the tile, or
each word of the scratch vector, takes the value of its form, mstore and mplane write the rows of the scratchpad (R255: planeBlock
and planeBytes are that rule's blocks and layouts), mrmax.keep keeps the old vector; the claims of the operation are released. Model's
choices: row addresses are sums modulo 2^32 (log 54), the reading of korg and of reserved header bits is that of log 55, and one
completion takes all the steps that are left (log 110). -/
def Obligations.TileOperations : Prop :=
  (∀ (s : State) (key : Nat),
    let h := s.helm key s.curCl
    let r := fun (n : BitVec 5) => wAt h.h n.toNat
    let ub := s.unit (h.bind.getD 0)
    let foot := match h.bind with
      | some u => (s.unit u).foot
      | none => 0
    let free := fun (sp : List (Nat × Nat)) => ∀ p ∈ sp, s.pendingStx (h.bind.getD 0) p.1 p.2 = false
    let v := fun (w : Word) => (w.toNat, w.toNat + 256)
    let queues := fun (i : Instr) (rs : List Region) (a b c e : Word) (sp : List (Nat × Nat)) =>
      HelmRuns i key s → regionFault ub foot rs = none → free sp → ∃ t, exec i s = .next t ∧ TileQueued key a b c e sp s t
    (∀ (o : HT1), queues (.mzero o) [] 0#32 0#32 0#32 0#32 []) ∧
    (∀ (o : HTf), (r o.a).toNat % 16 = 0 → (r o.b).toNat % 16 = 0 →
      queues (.mload o) [⟨rows64 (r o.a) (r o.b), 64 * elemBytes o.f, false⟩] (r o.a) (r o.b) 0#32 0#32
        [spanOf (rows64 (r o.a) (r o.b)) (64 * elemBytes o.f)] ∧
      queues (.mstore o) [⟨rows64 (r o.a) (r o.b), 64 * elemBytes o.f, true⟩] (r o.a) (r o.b) 0#32 0#32 []) ∧
    (∀ (o : HTp), queues (.mplane o) [⟨rows64 (r o.a) (r o.c), planeRow o, true⟩, ⟨rows64 (r o.b) (r o.e), 2, true⟩]
      (r o.a) (r o.b) (r o.c) (r o.e) []) ∧
    (∀ (o : HTa), (r o.a).toNat % 16 = 0 →
      queues (.mexp o) [⟨[(r o.a).toNat], 256, false⟩] (r o.a) 0#32 0#32 0#32 [v (r o.a)] ∧
      queues (.mscale o) [⟨[(r o.a).toNat], 256, false⟩] (r o.a) 0#32 0#32 0#32 [v (r o.a)] ∧
      queues (.mrmax o) [⟨[(r o.a).toNat], 256, false⟩, ⟨[(r o.a).toNat], 256, true⟩] (r o.a) 0#32 0#32 0#32 [v (r o.a)] ∧
      queues (.mrsum o) [⟨[(r o.a).toNat], 256, false⟩, ⟨[(r o.a).toNat], 256, true⟩] (r o.a) 0#32 0#32 0#32 [v (r o.a)]) ∧
    (∀ (o : HTab), (r o.a).toNat % 16 = 0 → (r o.b).toNat % 16 = 0 →
      queues (.mexpVdiff o) [⟨[(r o.a).toNat], 256, false⟩, ⟨[(r o.b).toNat], 256, false⟩, ⟨[(r o.a).toNat], 256, true⟩]
        (r o.a) (r o.b) 0#32 0#32 [v (r o.a), v (r o.b)]) ∧
    (∀ (o : HTv), (r o.a).toNat % 16 = 0 →
      queues (.mexpRcp o) [⟨[(r o.a).toNat], 256, false⟩, ⟨[(r o.a).toNat], 256, true⟩] (r o.a) 0#32 0#32 0#32 [v (r o.a)]) ∧
    (∀ (o : HTtab), (r o.a).toNat % 16 = 0 → (r o.b).toNat % 16 = 0 →
      queues (.mrmaxKeep o) [⟨[(r o.a).toNat], 256, false⟩, ⟨[(r o.a).toNat], 256, true⟩, ⟨[(r o.b).toNat], 256, true⟩]
        (r o.a) (r o.b) 0#32 0#32 [v (r o.a)] ∧
      queues (.mrsumDecay o) [⟨[(r o.a).toNat], 256, false⟩, ⟨[(r o.b).toNat], 256, false⟩, ⟨[(r o.a).toNat], 256, true⟩]
        (r o.a) (r o.b) 0#32 0#32 [v (r o.a), v (r o.b)]) ∧
    ∀ (o : HTm), let ha := r o.a
      let hb := r o.b
      let a := leWords (ub.scrRead ha.toNat 32) 8
      let b := leWords (ub.scrRead hb.toNat 32) 8
      let k := (r o.c).toNat
      let ko := (r o.e).toNat
      ha.toNat % 32 = 0 → hb.toNat % 32 = 0 → ha.toNat + 32 ≤ foot → hb.toNat + 32 ≤ foot → hdMis a true = false →
      hdMis b false = false → hdFmt a = 3 ∨ hdFmt a = 5 → hdSp a = false → 0 < hdFmt b → hdFmt b ≤ 5 → hdRsv a = false →
      hdRsv b = false → 32 ≤ k → k ≤ 512 → k % 32 = 0 → ko % 32 = 0 → (wAt b 6).toNat % 4 = 0 →
      queues (.mma o) (mmaRegions ha hb a b ko k) ha hb (r o.c) (r o.e)
        ((mmaRegions ha hb a b ko k).map fun q => spanOf q.rows q.len)) ∧
  (∀ (s : State) (cl key : Nat) (h : HelmSt) (op : TileOp) (ops : List TileOp),
    let u := s.unit op.unit
    let v := leWords (u.scrRead op.a.toNat 256) 64
    let w := leWords (u.scrRead op.b.toNat 256) 64
    s.tileHead cl = some (key, h) → h.tiles = op :: ops → op.step = 0 → op.part = [] → op.hit = none →
    s.unitAway op.unit = false → u.bars = [] → (s.units.find? op.unit).isSome = true →
    let ends := fun (t : State) => exec (.tileOpComplete cl) s = .next t ∧ (t.helm key cl).tiles = ops ∧ t.mem = s.mem ∧
      ∀ c ∈ (t.unit op.unit).claims, ¬ (c.kind = 1 ∧ c.own = tileOwner op.id cl)
    let tile := fun (n : Nat) (f : Nat → Nat → Word) => ∃ t, ends t ∧ (t.unit op.unit).scr = u.scr ∧
      (∀ i j, i < 64 → j < 64 → (t.helm key cl).tile n i j = f i j) ∧
      ∀ m i j, m < 4 → m ≠ n → i < 64 → j < 64 → (t.helm key cl).tile m i j = h.tile m i j
    let vec := fun (f : Nat → Word) => op.a.toNat + 256 ≤ u.scr.length → ∃ t, ends t ∧ (t.helm key cl).acc = h.acc ∧
      ∀ i, i < 64 → leWord ((t.unit op.unit).scrRead (op.a.toNat + 4 * i) 4) = f i
    (∀ o, decodeHelm op.word = .ok (.mzero o) → tile o.t.toNat fun _ _ => 0#32) ∧
    (∀ o, decodeHelm op.word = .ok (.mload o) → tile o.t.toNat fun i j =>
      let b := fun n => leNat (u.scrRead ((op.a + toW i * op.b).toNat + n * j) n)
      nan32 (match o.f.toNat with
        | 0 => toW (b 4)
        | 1 => toW (fmt16.widen false (b 2)).1
        | _ => toW (fmtB16.widen false (b 2)).1)) ∧
    (∀ o, decodeHelm op.word = .ok (.mexp o) → tile o.t.toNat fun i j =>
      toW (sfuExp2 false (subPlain32 (h.tile o.t.toNat i j) (wAt v i)).toNat).1) ∧
    (∀ o, decodeHelm op.word = .ok (.mscale o) → tile o.t.toNat fun i j => mulPlain32 (h.tile o.t.toNat i j) (wAt v i)) ∧
    (∀ o, decodeHelm op.word = .ok (.mma o) →
      let a := leWords (u.scrRead op.a.toNat 32) 8
      let b := leWords (u.scrRead op.b.toNat 32) 8
      0 < plPlanes (hdFmt b) → tile o.t.toNat fun m n => (List.range (op.c.toNat / 32)).foldl (fun acc q =>
        mmaStep (blockSum u a b m n (op.e.toNat + 32 * q)) (scaleByte u a m (op.e.toNat + 32 * q))
          (scaleByte u b n (op.e.toNat + 32 * q)) acc) (h.tile o.t.toNat m n)) ∧
    (∀ o, decodeHelm op.word = .ok (.mexpRcp o) → vec fun i => toW (sfuRcp false (wAt v i).toNat).1) ∧
    (∀ o, decodeHelm op.word = .ok (.mexpVdiff o) → vec fun i =>
      toW (sfuExp2 false (subPlain32 (wAt v i) (wAt w i)).toNat).1) ∧
    (∀ o, decodeHelm op.word = .ok (.mrmax o) → vec fun i =>
      (List.range 64).foldl (fun m j => maxPlain32 m (h.tile o.t.toNat i j)) (wAt v i)) ∧
    (∀ o, decodeHelm op.word = .ok (.mrsum o) → vec fun i =>
      (List.range 64).foldl (fun m j => addPlain32 m (h.tile o.t.toNat i j)) (wAt v i)) ∧
    (∀ o, decodeHelm op.word = .ok (.mrsumDecay o) →
      op.a = op.b ∨ op.a.toNat + 256 ≤ op.b.toNat ∨ op.b.toNat + 256 ≤ op.a.toNat → vec fun i =>
      (List.range 64).foldl (fun m j => addPlain32 m (h.tile o.t.toNat i j)) (mulPlain32 (wAt v i) (wAt w i))) ∧
    (∀ o, decodeHelm op.word = .ok (.mrmaxKeep o) →
      op.a = op.b ∨ op.a.toNat + 256 ≤ op.b.toNat ∨ op.b.toNat + 256 ≤ op.a.toNat →
      op.a.toNat + 256 ≤ u.scr.length → op.b.toNat + 256 ≤ u.scr.length → ∃ t, ends t ∧ (t.helm key cl).acc = h.acc ∧
        ∀ i, i < 64 →
          leWord ((t.unit op.unit).scrRead (op.a.toNat + 4 * i) 4) =
            (List.range 64).foldl (fun m j => maxPlain32 m (h.tile o.t.toNat i j)) (wAt v i) ∧
          (op.a ≠ op.b → leWord ((t.unit op.unit).scrRead (op.b.toNat + 4 * i) 4) = wAt v i)) ∧
    (∀ o, decodeHelm op.word = .ok (.mstore o) →
      let row := fun (i : Nat) => (op.a + toW i * op.b).toNat
      let n := if o.f = 0#2 then 4 else 2
      (∀ i, i < 64 → row i + 64 * n ≤ u.scr.length) →
      (∀ i k, i < k → k < 64 → row i + 64 * n ≤ row k ∨ row k + 64 * n ≤ row i) →
      ∃ t, ends t ∧ (t.helm key cl).acc = h.acc ∧ ∀ i j, i < 64 → j < 64 →
        let e := h.tile o.t.toNat i j
        (t.unit op.unit).scrRead (row i + n * j) n = leBytes n (match o.f.toNat with
          | 0 => (nan32 e).toNat
          | 1 => (fmt16.narrow ⟨.rne, false, false⟩ e.toNat).1
          | _ => (fmtB16.narrow ⟨.rne, false, false⟩ e.toNat).1)) ∧
    ∀ o, decodeHelm op.word = .ok (.mplane o) →
      let row := fun (i : Nat) => (op.a + toW i * op.c).toNat
      let sc := fun (i : Nat) => (op.b + toW i * op.e).toNat
      let z := planeRow o
      (∀ i, i < 64 → row i + z ≤ u.scr.length ∧ sc i + 2 ≤ u.scr.length) →
      (∀ i k, i < 64 → k < 64 → (i ≠ k → (row i + z ≤ row k ∨ row k + z ≤ row i) ∧ (sc i + 2 ≤ sc k ∨ sc k + 2 ≤ sc i)) ∧
        (row i + z ≤ sc k ∨ sc k + 2 ≤ row i)) →
      ∃ t, ends t ∧ (t.helm key cl).acc = h.acc ∧ ∀ i, i < 64 →
        let b := fun c => planeBlock (plPlanes o.f.toNat) (fmtMax o.f.toNat) ((List.range 32).map fun j => h.tile o.t.toNat i (32 * c + j))
        (t.unit op.unit).scrRead (row i) z = planeBytes o ((b 0).1 ++ (b 1).1) ∧
        (t.unit op.unit).scrRead (sc i) 2 = [BitVec.ofNat 8 (b 0).2, BitVec.ofNat 8 (b 1).2])

/-! ## Notices, drafts, errors -/

/-- The notice forms (R279, R281, R283): where the line translates, belongs to the context and every earlier access is complete,
the line is initialised if it was plain, its value kept, and the group holds the snapshot of its POSTED slots; while its messages
are under way the group waits; an nread whose notices are applied then takes the value at the home. The messages at a line's home
(R280, R281, R283): a COMMIT applies the notice of a slot that is the earliest POSTED one and carries the sequence, once, and
answers the old value into the slot; another is stale and changes nothing. A CLAIM posts a slot with the next sequence, or
answers 0; a RELEASE frees the applied slot and answers its result. (Three things are the model's choices: the group stays at its word
while its messages are under way, log 62; a COMMIT and the read of its record are one step, log 120; a CLAIM waits while an nread of the
line stands between its snapshot and its read, log 134.) -/
def Obligations.Notices : Prop :=
  (∀ (s : State),
    let x := s.ix false
    let key := s.keyOf x.g
    let rd := fun (l : List Nat) => l.map fun n => scalarVal s.issuing x.g n x.t
    let starts := fun (i : Instr) (form sf d va : Nat) (seq : Word) (raddr : Nat) (reads writes : List Nat) =>
      ∀ s1 pa vfa,
        let line := pa / 128
        Passes (some 2) false i s → (s.grp s.cur).notice = none → x.g.scoreboard (scalarUses x reads writes) = none →
        x.g.draft = none → va % 128 = 0 → raddr % 32 = 0 →
        s.issuing.access key va .readWrite 2 x.g.core = (s1, .ok pa vfa) → windowPa pa = false →
        s1.foreign line (key % 65536) = false → x.g.count .g < 63 → (noticeRelease s1 x.gid x.g).spent = true → x.g.fences = [] →
        s1.l1 = [] → s1.poison = [] → NoLog s1 → Memory.wf s1.mem = true →
        (form = 1 → s1.helped.contains line = true ∧
          ∃ p ∈ s1.mem.slots line, (p.2.st = 1 ∨ p.2.st = 2) ∧ p.2.seq = seq ∧ p.2.own = x.g.owner) →
        ∃ t, exec i s = .next t ∧ t.helped.contains line = true ∧ t.mem.hVal line = s1.mem.hVal line ∧
          (∀ a, a / 128 ≠ line → t.mem.read a = s1.mem.read a) ∧
          (if s1.helped.contains line then t.mem = s1.mem
           else t.mem.hSeq line = 1#32 ∧ t.mem.hCtx line = key % 65536 ∧ ∀ i, 1 ≤ i → i < 8 → (t.mem.slot line i).st = 0) ∧
          (t.grp x.gid).notice = some ⟨form, va, vfa, line, d, sf, seq, raddr, true,
            if s1.helped.contains line then (s1.mem.posted line).map fun p => (p.1, p.2.seq, p.2.pay % 281474976710656) else []⟩ ∧
          (t.grp x.gid).sr = x.g.sr ∧ (t.grp x.gid).pc = x.g.pc
    (∀ (o : FAn), let l := pairRegs o.k ++ [x.a o.a, x.a o.a + 1]
      let v := rd l
      starts (.npost o) 0 o.s.toNat o.d.toNat (pair48 (v0 v) (v1 v)) 0#32 (pair48 (v2 v) (wAt v 3)) l [o.d.toNat]) ∧
    (∀ (o : FAr), let v := rd (pairRegs o.k)
      starts (.nread o) 2 o.s.toNat o.d.toNat (pair48 (v0 v) (v1 v)) 0#32 0 (pairRegs o.k)
        (if o.d = 56#6 then [] else [o.d.toNat, o.d.toNat + 1])) ∧
    (∀ (o : FAn), let l := pairRegs o.k ++ [x.a o.a]
      let v := rd l
      starts (.ndone o) 1 o.s.toNat o.d.toNat (pair48 (v0 v) (v1 v)) (v2 v) 0 l
        (if o.d = 56#6 then [] else [o.d.toNat, o.d.toNat + 1])) ∧
    ∀ (o : FAr) (n : Notice), (s.groups.find? s.cur).isSome = true → (s.grp s.cur).notice = some n → n.snap = true →
      let g := s.grp s.cur
      (n.form = 2 → n.todo = [] → g.chain = [] → s.l1 = [] → s.poison = [] →
        ∃ t op, exec (.nread o) s = .next t ∧ t.mem = s.mem ∧ (t.grp s.cur).notice = none ∧ (t.grp s.cur).pc = nextPc g.pc ∧
          (t.grp s.cur).ops = g.ops ++ [op] ∧ op.ctr = .g ∧ op.kind = .notice ∧ op.d = n.d ∧
          op.accs.map (·.new) = [leBytes 8 (s.mem.hVal n.line)]) ∧
      (n.form ≠ 2 ∨ n.todo ≠ [] → exec (.nread o) s = .next s)) ∧
  (∀ (s : State) (gid : Nat) (n : Notice), s.noticeOf gid = some n → (s.groups.find? gid).isSome = true →
    let g := s.grp gid
    let key := s.keyOf g
    let ends := fun (b : List Byte) (t : State) => (t.grp gid).notice = none ∧ (t.grp gid).pc = nextPc g.pc ∧
      ∃ op, (t.grp gid).ops = g.ops ++ [op] ∧ op.ctr = .g ∧ op.kind = .notice ∧ op.d = n.d ∧ op.accs.map (·.new) = [b]
    let others := fun (m m' : Mem) (i : Nat) => ∀ j, 1 ≤ j → j < 8 → j ≠ i → m'.slot n.line j = m.slot n.line j
    (∀ i q r rest s1 b, n.todo = (i, q, r) :: rest → s.recordRead g r 16 = (s1, .ok b) → s1.l1 = [] → s1.poison = [] → NoLog s1 →
      Memory.wf s1.mem = true →
      let p := s1.mem.slot n.line i
      let old := s1.mem.hVal n.line
      let acts := s1.helped.contains n.line = true ∧ p.st = 1 ∧ p.seq = q ∧ (s1.mem.posted n.line).head?.map (·.1) = some i
      ∃ t, exec (.noticeCommit gid) s = .next t ∧ (t.grp gid).notice = some { n with todo := rest } ∧
        (acts → t.mem.hVal n.line = (noticeOp p.op (BitVec.ofNat 64 old) (BitVec.ofNat 64 (leNat (b.take 8)))
            (BitVec.ofNat 64 (leNat (b.drop 8)))).toNat ∧
          t.mem.slot n.line i = { p with st := 2, pay := old } ∧ others s1.mem t.mem i) ∧
        (¬ acts → t.mem = s1.mem)) ∧
    (∀ s1 b, n.form = 0 → n.todo = [] → g.chain = [] → s.recordRead g ((n.raddr + 28) % 281474976710656) 4 = (s1, .ok b) →
      (leWord b).toNat < 10 → s1.l1 = [] → s1.poison = [] → NoLog s1 → Memory.wf s1.mem = true → s1.helped.contains n.line = true →
      s1.mem.hCtx n.line = key % 65536 → g.owner < 16777216 → n.raddr < 281474976710656 →
      let seq := s1.mem.hSeq n.line
      (∀ i, s.readUnder gid n.line = false → s1.claimSlot key n.line = some i →
        ∃ t, exec (.noticeClaim gid) s = .next t ∧ ends (leBytes 4 seq.toNat) t ∧
          t.mem.slot n.line i = ⟨1, (leWord b).toNat, g.owner, seq, n.raddr⟩ ∧ others s1.mem t.mem i ∧
          t.mem.hSeq n.line = (if seq + 1#32 = 0#32 then 1#32 else seq + 1#32) ∧ t.mem.hVal n.line = s1.mem.hVal n.line) ∧
      (s.readUnder gid n.line = false → s1.claimSlot key n.line = none →
        ∃ t, exec (.noticeClaim gid) s = .next t ∧ ends (leBytes 4 0) t ∧ t.mem = s1.mem) ∧
      (s.readUnder gid n.line = true → exec (.noticeClaim gid) s = .next s)) ∧
    (n.form = 1 → n.todo = [] → g.chain = [] → s.l1 = [] → s.poison = [] → NoLog s → Memory.wf s.mem = true →
      let mine := (s.mem.slots n.line).find? fun p => p.2.seq = n.seq && p.2.own = g.owner && p.2.st = 2
      (∀ i p, mine = some (i, p) →
        ∃ t, exec (.noticeRelease gid) s = .next t ∧ ends (leBytes 8 p.pay) t ∧ (t.mem.slot n.line i).st = 0 ∧
          others s.mem t.mem i ∧ t.mem.hVal n.line = s.mem.hVal n.line) ∧
      (mine = none → exec (.noticeRelease gid) s = .next (s.modGrp gid fun g => { g with notice := none }))))

/-- Draft entries and errors in the package (R60, R284, R290-R292): a used entry becomes free; a draft whose state is lost runs
again from its entry with another table entry, its own where no other is free, its copies dropped, and another group traps POISON next. A
commit (R287) makes each draft copy of an entry its line's bytes, and leaves every other line. An L2 data error poisons bytes; a damaged
L2 tag loses no line that was clean, and otherwise the way it names, which may be one of a draft copy of the line, is discarded, and the
device rung and each context of a VF with dirty lines there are told, the context rung by a record with rung 8 that the end of the step
places there or above. -/
def Obligations.DraftsAndErrors : Prop :=
  ∀ (s : State),
    (∀ die e, (s.die die).drafts.find? e = some .committed ∨ (s.die die).drafts.find? e = some .discarded →
      exec (.draftEntryFree die e) s = .next (s.setDraft (die, e) .free)) ∧
    (∀ gid x d, s.groups.find? gid = some x → x.draft = some d → x.st ≠ .exited → x.replays < 3 →
      let e := ((((s.draftDrop d).setDraft d .discarded).freeDraft (coreDie x.core)).map fun e => (coreDie x.core, e)).getD d
      ∃ t, exec (.draftReplay gid) s = .next t ∧ t.mem = s.mem ∧ (t.grp gid).pc = x.entry ∧ (t.grp gid).ops = [] ∧
        (t.grp gid).draft = some e ∧ (t.grp gid).replays = x.replays + 1 ∧ (t.grp gid).vr = [] ∧
        (t.grp gid).sr = ((List.range 48).map fun i => if i < x.beats then 0xFFFFFFFF#32 else 0#32) ∧
        t.drafts = (s.drafts.filter fun l => !(l.die = d.1 && l.ent = d.2)) ∧
        (t.die e.1).drafts.find? e.2 = some .opened ∧ ∀ c ∈ t.copies, c.2.gid ≠ some gid) ∧
    (∀ d, let mine := s.drafts.filter fun x => x.die = d.1 && x.ent = d.2
      s.l1 = [] → s.helped = [] → NoLog s → Memory.wf s.mem = true → (mine.map (·.line)).Nodup →
      (∀ x ∈ mine, x.bytes.length = 128 ∧ windowPa (x.line * 128) = false) →
      let t := s.draftCommit d
      (∀ x ∈ mine, ∀ i, i < 128 → t.mem.read (x.line * 128 + i) = x.bytes.getD i 0#8) ∧
        (∀ a, (∀ x ∈ mine, a / 128 ≠ x.line) → t.mem.read a = s.mem.read a) ∧
        t.drafts = s.drafts.filter fun x => !(x.die = d.1 && x.ent = d.2)) ∧
    (∀ gid x, s.groups.find? gid = some x → x.draft = none → x.st ≠ .exited → x.trapPend = none →
      ∃ w, exec (.draftReplay gid) s = .next (s.setGrp gid { x with trapPend := some ⟨0x15, w, x.firstPc, 2, false⟩ })) ∧
    (∀ pa n, ∃ t, exec (.l2DataError pa n) s = .next t ∧ t = { s with poison := t.poison } ∧
      ∀ a, a ∈ t.poison ↔ (a ∈ s.poison ∨ (pa ≤ a ∧ a < pa + min n (128 - pa % 128)))) ∧
    (∀ line, s.drafted line = false → (∀ x ∈ s.l2, x.line = line → x.dirty = false) → exec (.l2TagError line true) s = .next (s.l2Drop line)) ∧
    ∀ line clean, clean = false ∨ s.drafted line = true ∨ (∃ x ∈ s.l2, x.line = line ∧ x.dirty = true) → Memory.wf s.mem = true →
      let k := homeDie (line * 128) * 64 + homeSlice (line * 128)
      ∃ t, exec (.l2TagError line clean) s = .next t ∧ (∀ a, a / 128 ≠ line → t.mem.read a = s.mem.read a) ∧
        ((∀ x ∈ t.l2, x.line ≠ line) ∨ (s.drafted line = true ∧ ∀ x ∈ t.drafts, x.line ≠ line)) ∧
        (∃ r ∈ t.trapQ, r.rung = 4 ∧ r.party = 6 ∧ r.trap.cause = 0x15 ∧ r.trap.info = toW k) ∧
        ∀ v, v < 64 → s.sliceDirty k v = true → ∀ c ∈ s.ctxs, c.1 / 65536 = v →
          ∃ r ∈ t.trapQ, r.rung = 8 ∧ r.key = c.1 ∧ r.party = 6 ∧ r.trap.cause = 0x15

/-! ## Translation and its owners -/

/-- Walks and invalidations (R310, R313, R318, R319): a walk that ends in a page leaves a translation of it in the TLB of the
cluster; an invalidation by an owner of the stage names its region, after the stores its writer has made, and completes once no access
that used it is under way: every translation of the region is gone from the TLBs, the micro-TLBs and the walk caches, and no other, and
no instruction that has not issued, and no command queue that waits, keeps one. -/
def Obligations.WalksAndInvalidations : Prop :=
  ∀ (s : State),
    (∀ vf ctx va a kind s1 pa vfa, kind = (match a with
        | .read => 0
        | .write => 1
        | .readWrite => 2
        | .fetch => 3) →
      s.pageWalk vf ctx va a kind s.curCl none (coreCid (s.curCl * 4)) = (s1, .ok pa vfa) →
      exec (.pageWalk vf ctx va a) s = .next s1 ∧
        ∃ e ∈ s1.tlb, e.serves s.curCl vf ctx va a = true ∧ (e.out + (va / 4096 - e.page)) * 4096 + va % 4096 = pa) ∧
    (∀ (m : Master) (die : Nat) (v : BitVec 64),
      let vf := bits v.toNat 57 6
      (∀ k, regionPages (bits v.toNat 38 3) = some k → bits v.toNat 36 2 = 0 →
        m = .hypervisor ∨ (v.getLsbD 63 = false ∧ s.osOf m vf = true) →
        let u := s.sysDrain s.curSys
        exec (.tlbInv m die v) s = .next { u with
          invs := u.invs ++ [⟨s.curSys, v.getLsbD 63, vf, bits v.toNat 41 16, bits v.toNat 0 36 / k * k, k⟩] }) ∧
      (m ≠ .hypervisor → v.getLsbD 63 = true ∨ s.osOf m vf = false → exec (.tlbInv m die v) s = .next s)) ∧
    ∀ k i, s.invs[k]? = some i →
      (s.invBusy i = true → exec (.tlbInvComplete k) s = .next s) ∧
      (s.invBusy i = false → ∃ t, exec (.tlbInvComplete k) s = .next t ∧ t.mem = s.mem ∧ t.invs = s.invs.eraseIdx k ∧
        (∀ e, e ∈ t.tlb ↔ (e ∈ s.tlb ∧ i.covers e = false)) ∧ (∀ e, e ∈ t.utlb ↔ (e ∈ s.utlb ∧ i.covers e = false)) ∧
        (∀ w, w ∈ t.wcache ↔ (w ∈ s.wcache ∧ i.leads w = false)) ∧ (t.vf i.vf).waiting = none ∧
        ∀ c, ∀ r ∈ (t.core c).rejected, r.first = true → ∀ a ∈ r.accs, i.hits (s.keyOf (s.grp r.gid)) a.va a.vfa = false)

/-- Fault queues (R322, R323, R354, R385): a base write by the owner enables an empty ring; a head within 4,096 records is taken, and
of the partition trap ring it ends the service of the records it passes; a resolution, after the stores its writer has made, clears
the keys of its region and the records held for them, and no copy, work or command queue waits on one any more; a resolution as fatal
ends a group that waits on such a key with PAGEFATAL at the context rung. (That the partition trap ring lies at a VF address, so that its
base is taken with the mask 0x0000FFFFFFFE0001, is the model's choice, log 70.) -/
def Obligations.FaultQueues : Prop :=
  ∀ (s : State),
    (∀ (m : Master) (v : BitVec 64), s.frecs = [] → v.getLsbD 0 = true →
      (∀ vf, s.osOf m vf = true → exec (.fqBaseWrite m (.guest vf) v) s =
        .next (s.setVf vf { s.vf vf with gq := ⟨v &&& 0x0000FFFFFFFE0001#64, 0, 0, 0⟩ })) ∧
      (∀ vf, m = .hypervisor → exec (.fqBaseWrite m (.provider vf) v) s =
        .next (s.setVf vf { s.vf vf with pq := ⟨v &&& 0x000FFFFFFFFE0001#64, 0, 0, 0⟩ })) ∧
      ∀ p, m = .partitionOS p → exec (.fqBaseWrite m (.ptr p) v) s =
        .next (s.setPart p { s.part p with tq := ⟨v &&& 0x0000FFFFFFFE0001#64, 0, 0, 0⟩, serv := [] })) ∧
    (∀ (m : Master) (q : Ring) (v : BitVec 64), s.ringBy m q = false → exec (.fqBaseWrite m q v) s = .next s) ∧
    (∀ (m : Master) (vf : Nat) (v : BitVec 32),
      let h := bits v.toNat 0 13
      let g := (s.vf vf).gq
      let p := (s.vf vf).pq
      s.frecs = [] →
      (s.osOf m vf = true → (g.tail + 8192 - h) % 8192 ≤ 4096 →
        exec (.fqPtrHeadWrite m (.guest vf) v) s = .next (s.setVf vf { s.vf vf with gq := { g with head := h } })) ∧
      (m = .hypervisor → (p.tail + 8192 - h) % 8192 ≤ 4096 →
        exec (.fqPtrHeadWrite m (.provider vf) v) s = .next (s.setVf vf { s.vf vf with pq := { p with head := h } })) ∧
      (4096 < (g.tail + 8192 - h) % 8192 → exec (.fqPtrHeadWrite m (.guest vf) v) s = .next s) ∧
      ∀ p, m = .partitionOS p → ((s.part p).tq.tail + 8192 - h) % 8192 ≤ 4096 →
        ∃ t, exec (.fqPtrHeadWrite m (.ptr p) v) s = .next t ∧ t.parts.find? p = some { s.part p with
          tq := { (s.part p).tq with head := h }
          serv := (s.part p).serv.filter fun r => (r.1 + 8192 - h) % 8192 < ((s.part p).tq.tail + 8192 - h) % 8192 } ∧
          (∀ q, q ≠ p → t.part q = s.part q) ∧ t = { s with parts := t.parts }) ∧
    ∀ (m : Master) (vf : Nat) (stg2 : Bool) (v : BitVec 64) (k : Nat), regionPages (bits v.toNat 9 3) = some k →
      bits v.toNat 2 7 = 0 → (if stg2 then m = .hypervisor else s.osOf m vf = true) →
      let p := bits v.toNat 12 36 / k * k
      let hit := fun (f : FKey) => f.vf = vf ∧ f.stg2 = stg2 ∧ (stg2 = true ∨ f.ctx = bits v.toNat 48 16) ∧ p ≤ f.page ∧ f.page < p + k
      let u := s.sysDrain s.curSys
      let gone := fun (f : FKey) => f ∈ u.fkeys ∧ hit f
      (v.getLsbD 1 = false → (∀ r ∈ u.frecs, gone r.key) → ∃ t, exec (.fqResolve m vf stg2 v) s = .next t ∧
        t = { u with fkeys := t.fkeys, frecs := [], copies := t.copies, units := t.units, helms := t.helms, works := t.works, vfs := t.vfs } ∧
        (∀ f, f ∈ t.fkeys ↔ (f ∈ u.fkeys ∧ ¬ hit f)) ∧ (∀ c ∈ t.copies, ∀ f ∈ c.2.keys, ¬ gone f) ∧
        (∀ w ∈ t.works, ∀ f ∈ w.2.keys, ¬ gone f) ∧ ∀ w ∈ t.vfs, ∀ f ∈ w.2.keys, ¬ gone f) ∧
      (∀ g x c mine f, v.getLsbD 1 = true → keysRise u.groups = true → u.groups.find? g = some x → x.st = .parked →
        x.wait = some (c, .keys mine) → x.draft = none → (∀ q ∈ u.groups, q.1 ≠ g → q.2.st ≠ .parked) →
        (∀ q ∈ u.units, q.2.chain = none) → u.copies = [] → u.helms = [] →
        mine.find? (fun f => u.fkeys.contains f && decide (hit f)) = some f →
        ∃ t r, exec (.fqResolveFatal m vf stg2 v) s = .next t ∧ (t.grp g).held = true ∧ (t.grp g).pc = x.pc ∧
          t.trapQ = u.trapQ ++ [r] ∧ r.gid = some g ∧ r.trap.cause = 0x1B ∧ r.trap.info = toW (f.page * 4096) ∧
          2 ≤ r.rung ∧ t.mem = u.mem ∧ f ∉ t.fkeys)

/-- The tier transfer queue (R325-R327): the hypervisor enters commands; the oldest one moves a page, demotes it under the key
stream of its VF with a new version and tag, or promotes it where the tag agrees; else the page is poisoned. -/
def Obligations.TierTransfers : Prop :=
  ∀ (s : State) (die : Nat) (c : TtqCmd),
    let d := s.die die
    let op := ttqOp c
    let src := ttqSrc c
    let dst := ttqDst c
    let ver := ttqVer c
    let pushed := s.setDie die { d with ttq := d.ttq ++ [c] }
    let page := fun (m : Mem) (a : Nat) => (List.range 4096).map fun i => m.read (a + i)
    (op = 0 ∨ op = 3 → exec (.ttqMove .hypervisor die c) s = .next pushed) ∧
    (op = 1 → exec (.ttqDemote .hypervisor die c) s = .next pushed) ∧
    (op = 2 → exec (.ttqPromote .hypervisor die c) s = .next pushed) ∧
    (∀ m, m ≠ .hypervisor → exec (.ttqMove m die c) s = .next s ∧ exec (.ttqDemote m die c) s = .next s ∧
      exec (.ttqPromote m die c) s = .next s) ∧
    ∀ cs, d.ttq = c :: cs → s.l1 = [] → s.helped = [] → s.poison = [] → Memory.wf s.mem = true → ttqClean c = true → s.placed c = true →
      let run := fun (t : State) => exec (.ttqCommandComplete die) s = .next t ∧ (t.die die).ttq = cs ∧
        (t.die die).ttqDone = d.ttqDone + 1#32
      let v := leNat ((s.mem.bytes ver 32).take 6)
      let tag := leNat (((s.mem.bytes ver 32).drop 8).take 16)
      (op = 0 → ∃ t, run t ∧ page t.mem dst = page s.mem src ∧ ∀ a, a / 4096 ≠ dst / 4096 → t.mem.read a = s.mem.read a) ∧
      (op = 1 → v ≠ 2 ^ 48 - 1 →
        let iv := ttqIv ver (v + 1)
        let ct := gcmPage (ttqVf c) iv (page s.mem src)
        ∃ t, run t ∧ page t.mem dst = ct ∧
          t.mem.bytes ver 32 = leBytes 8 (v + 1) ++ leBytes 16 (Config.gcmTag (ttqVf c) iv ct).toNat ++ leBytes 8 0) ∧
      (op = 1 → v = 2 ^ 48 - 1 → ∃ t, run t ∧ leNat (t.mem.bytes (ver + 24) 4) = 2 ∧ page t.mem dst = page s.mem dst) ∧
      (op = 2 → ver / 4096 ≠ dst / 4096 →
        let iv := ttqIv ver v
        ((Config.gcmTag (ttqVf c) iv (page s.mem src)).toNat = tag →
          ∃ t, run t ∧ page t.mem dst = gcmPage (ttqVf c) iv (page s.mem src) ∧ leNat (t.mem.bytes (ver + 24) 4) = 0) ∧
        ((Config.gcmTag (ttqVf c) iv (page s.mem src)).toNat ≠ tag →
          ∃ t, run t ∧ leNat (t.mem.bytes (ver + 24) 4) = 1 ∧ ∀ i, i < 4096 → dst + i ∈ t.poison))

/-! ## The upper rungs -/

/-- The block, context, partition and device rungs (R361-R364): the oldest block-rung trap enters a handler group of its unit, or
passes up; a context-rung trap is written into the context's ring and its handler task is queued, or passes up where there is no
handler or no room; a partition-rung trap is written into the partition's ring once its context is held at its boundaries; a device-rung record
reaches firmware. (That the partition's ring lies at a VF address, and that a context is held though its record waits for room, are the
model's choices, log 70; the clock in a device-rung record is that of die 0, log 43.) -/
def Obligations.UpperRungs : Prop :=
  ∀ (s : State),
    (∀ u p tr rest, let x := s.unit u
      let w := s.work x.work
      let key := ctxKey w.vf w.ctx
      (s.units.find? u).isSome = true → x.chain = none → x.bserve = none → x.btraps = (p, tr) :: rest → s.unitAway u = false →
      s.frozen key 0 = false →
      let s1 := (s.setUnit u { x with btraps := rest }).useTrap key false
      (∀ hid h b a, s1.blockHandler u p = some (hid, h) → s1.trapBlock key = some (b, a) →
        goodVec (pair48 (wAt b 2) (wAt b 3)) = true →
        let who : Word := match p with
          | some g => toW (s1.grp g).gix
          | none => 0xFFFFFFFF#32
        ∃ t, exec (.blockHandlerEntry u) s = .next t ∧ t.mem = s1.mem ∧ (t.unit u).bserve = some (p, tr) ∧ (t.unit u).btraps = rest ∧
          (t.grp hid).rung = 2 ∧ (t.grp hid).pc = pair48 (wAt b 2) (wAt b 3) ∧ (t.grp hid).bank = h.sr.drop 40 ∧
          (t.grp hid).sr = h.sr.take 40 ++ [wAt b 6, wAt b 7 &&& 0xFFFF#32, who, 0#32, toW h.firstPc, h.fullGst, tr.word, tr.info] ∧
          (t.grp hid).gst = ((h.fullGst &&& 0xE0001F00#32) ||| 0x10000000#32) ∧
          ∀ g, g ≠ hid → t.groups.find? g = s1.groups.find? g) ∧
      (∀ g, p = some g → s1.blockHandler u p = none →
        ∃ t r, exec (.blockHandlerEntry u) s = .next t ∧ t.trapQ = s1.trapQ ++ [r] ∧ r.rung = 2 ∧ r.gid = some g ∧
          r.trap = { tr with psd := true } ∧ (t.unit u).btraps = rest ∧ t.mem = s1.mem)) ∧
    (∀ i r, let s0 := (({ s with trapQ := s.trapQ.eraseIdx i } : State).useTrap r.key false).dropPassed r.key
      let up := fun (q : State) => Host.Outcome.next (φ := Fault) (ρ := Refusal)
        { q with trapQ := q.trapQ ++ [{ r with rung := 3, trap := { r.trap with psd := true } }] }
      s.trapQ[i]? = some r → r.rung = 2 → s.frozen r.key 0 = false →
      (s0.trapBlock r.key = none → exec (.contextTrap i) s = up s0) ∧
      ∀ b tb, s0.trapBlock r.key = some (b, tb) →
        let head := (wAt b 10).toNat % 256
        let tail := (wAt b 11).toNat % 256
        let hrec := pair48 (wAt b 4) (wAt b 5)
        (hrec = 0 ∨ (tail + 256 - head) % 256 = 128 → exec (.contextTrap i) s = up s0) ∧
        (∀ s1 pa vfa, let out := r.bytes (tail / 128 % 2 = 0)
          let s3 := (s1.homeWrite (some (r.key / 65536, vfa)) pa out).useTrap r.key true
          hrec ≠ 0 → (tail + 256 - head) % 256 ≠ 128 → r.party ≠ 0 → (s.ctx r.key).handler = none →
          s0.translate (r.key / 65536) (r.key % 65536) ((pair48 (wAt b 8) (wAt b 9) + tail % 128 * 32) % 281474976710656) .write 1
            (cidCl r.cid) none r.cid = (s1, .ok pa vfa) →
          s1.l1 = [] → s1.helped = [] → NoLog s1 → Memory.wf s1.mem = true → windowPa pa = false → windowPa (tb + 44) = false →
          ∃ t k cl, exec (.contextTrap i) s = .next t ∧ t.trapQ = s1.trapQ ∧
            (s1.homeWrite (some (r.key / 65536, vfa)) pa out).mem = s1.mem.store pa out ∧
            t.mem = s3.mem.store (tb + 44) [BitVec.ofNat 8 (tail + 1)] ∧ (t.ctx r.key).handler = some k ∧
            (t.work k).phase = .queued ∧ (t.work k).addr = hrec ∧ (t.work k).src = .handler cl ∧ k ∈ (t.cluster cl).taskQ)) ∧
    (∀ i r l, let p := s.recPart r
      let q := (s.part p).tq
      let vf := (s.vfOf p).getD (r.key / 65536)
      s.trapQ[i]? = some r → r.rung = 3 →
      let keys := if r.key = noCtx then [] else [r.key]
      (∀ s1, q.room = false → s.holdCtxs keys = .next (s1, true) →
        exec (.partitionTrap i) s = .next { s1 with trapQ := s1.trapQ.set i { r with rung := 6 } }) ∧
      (∀ s1, s.holdCtxs keys = .next (s1, false) → (q.room = true → s.stage2 vf q.addr false true false = .ok l) →
        exec (.partitionTrap i) s = .next s1) ∧
      (q.room = true → s.stage2 vf q.addr false true false = .ok l → r.key = noCtx → s.l1 = [] → s.helped = [] → NoLog s →
        Memory.wf s.mem = true → windowPa (l.out q.addr) = false →
        ∃ t, exec (.partitionTrap i) s = .next t ∧ t.trapQ = s.trapQ.eraseIdx i ∧
          (∀ j, j < 32 → t.mem.read (l.out q.addr + j) = (r.bytes (q.tail / 4096 % 2 = 0)).getD j 0#8) ∧
          (t.part p).tq.tail = (q.tail + 1) % 8192 ∧ (q.count = 0 → (t.part p).intp = (s.part p).intp ||| 2#32)) ∧
      (∀ s1, q.room = true → s.stage2 vf q.addr false true false = .ok l → r.key ≠ noCtx → s.holdCtxs [r.key] = .next (s1, true) →
        ∃ t, exec (.partitionTrap i) s = .next t ∧ (t.ctx r.key).held = true ∧ (t.ctx r.key).preempted = true)) ∧
    ∀ i r, let tell := fun (u : State) => ({ u with
        trapQ := u.trapQ.eraseIdx i
        dev := { u.dev with reports := u.dev.reports ++ [.record (r.words ++ [toW (r.gix % 32)]) (s.recPart r) (u.die 0).sclk false] } } : State)
      s.trapQ[i]? = some r → r.rung = 4 →
      (r.party = 6 ∨ r.party = 7 → exec (.deviceTrap i) s = .next (tell s)) ∧
      (r.party ≠ 6 → r.party ≠ 7 → s.ctxsIn (s.recPart r) = [] →
        exec (.deviceTrap i) s = .next (tell (s.setPart (s.recPart r) { s.part (s.recPart r) with held := true })))

/-- Service timeouts (R354, R355): a handler of the group rung that has run 65,536 cycles, or of the block rung 262,144, raises
HANDLERTIMEOUT with the cause it serves at the next rung; a partition record not taken for 2^24 cycles of the partition's system core
raises it at the device rung; a device record not acknowledged for 2^28 cycles resets the package (the core counted: log 43). -/
def Obligations.ServiceTimeouts : Prop :=
  ∀ (s : State),
    (∀ g x rung limit i, s.groups.find? g = some x → x.rung = rung → gstHdl x.gst = true → x.held = false → x.st ≠ .exited →
      limit ≤ x.service + ((s.core x.core).cycle - x.serviceAt) → s.unitAway x.unit = false → s.frozen (s.keyOf x) 0 = false →
      x.draft = none → (∀ c, (s.workOf x).src ≠ .handler c) → (s.unit x.unit).chain = none → (s.units.find? x.unit).isSome = true →
      s.saving (s.keyOf x) = false → s.stuckSave x.unit = false →
      (rung = 1 → limit = 65536 → i = .handlertimeout (.group g) →
        ∃ t q, exec i s = .next t ∧ (t.grp g).held = true ∧ (t.grp g).pc = x.firstPc ∧
          (t.unit x.unit).btraps = (s.unit x.unit).btraps ++ [(some g, q)] ∧ q.cause = 0x19 ∧ q.info = toW x.served ∧ t.mem = s.mem) ∧
      (rung = 2 → limit = 262144 → i = .handlertimeout (.block x.unit) →
        (∀ p ∈ s.groups, p.1 ≠ g → ¬ (p.2.unit = x.unit ∧ p.2.rung = 2)) → keysRise s.groups = true →
        ∃ t q, exec i s = .next t ∧ (t.grp g).held = true ∧ t.trapQ = s.trapQ ++ [q] ∧ q.rung = 2 ∧ q.gid = some g ∧
          q.trap.cause = 0x19 ∧ q.trap.info = toW x.served ∧ t.mem = s.mem)) ∧
    (∀ p k c from_, (s.part p).serv.find? (fun r => r.1 = k) = some (k, c, from_) →
      from_ + 16777216 ≤ (s.die (s.partDie p)).sclk →
      ∃ t q, exec (.handlertimeout (.partition p k)) s = .next t ∧ t.trapQ = s.trapQ ++ [q] ∧ q.rung = 4 ∧ q.part = p ∧
        q.trap.cause = 0x19 ∧ q.trap.info = toW c ∧ (t.part p).serv = (s.part p).serv.filter fun r => r.1 != k) ∧
    (∀ i w p n, s.dev.reports[i]? = some (.record w p n false) →
      exec (.deviceRungTimeout i) s = .next (if (s.die 0).sclk < n + 268435456 then s else s.cold) ∧
      exec (.firmwareAcknowledge i) s = .next { s with dev := { s.dev with reports := s.dev.reports.set i (.record w p n true) } }) ∧
    ∀ i w p n, s.dev.reports[i]? = some (.record w p n true) → exec (.deviceRungTimeout i) s = .next s

/-- Pre-emption, fencing and the end of a context (R247, R369-R372, R376, R377): PMT_CTL starts an operation, each class
acknowledges once it has stopped at its boundary and not before, and the last one ends it; a resumed context runs again, and is no longer held (the last the
model's choice, log 71); a fenced core, cluster or system core takes no work and the device rung is told; a destroyed context leaves
nothing. -/
def Obligations.PreemptionAndFencing : Prop :=
  ∀ (s : State),
    (∀ p (v : BitVec 32), let x := s.part p
      v.getLsbD 31 = true → x.busy = false →
      (v.getLsbD 16 = true ∨ ∃ f, s.vfOf p = some f ∧ s.ctxPart f (bits v.toNat 0 16) = some p) →
      (v.getLsbD 29 = false → exec (.pmtPreempt .hypervisor p v) s = .next (s.setPart p { x with
        busy := true, err := false, ack := 0#6, res := false, all := v.getLsbD 16, ctx := bits v.toNat 0 16 })) ∧
      (v.getLsbD 29 = true →
        ∃ t, exec (.pmtResume .hypervisor p v) s = .next t ∧
          ∀ k, (if v.getLsbD 16 then k ∈ s.ctxsIn p else ∃ f, s.vfOf p = some f ∧ k = ctxKey f (bits v.toNat 0 16)) →
             (t.ctx k).preempted = false ∧ (t.ctx k).held = false ∧ (t.ctx k).stops = 0) ∧
      ∀ m, m ≠ .hypervisor → exec (.pmtPreempt m p v) s = .next s ∧ exec (.pmtResume m p v) s = .next s) ∧
    (∀ p cls s1 ok, let x := s.part p
      x.busy = true → x.res = false → cls < 6 → x.ack.getLsbD cls = false →
      State.stopAll ((s.pmtKeys p).map fun k => (k, cls)) .saved s = .next (s1, ok) →
      (ok = .notYet → exec (.preemptClassAck p cls) s = .next s1) ∧
      (ok ≠ .notYet → ∃ t, exec (.preemptClassAck p cls) s = .next t ∧ (t.part p).ack = (x.ack ||| (1#6 <<< cls)) ∧
        (t.part p).busy = decide ((x.ack ||| (1#6 <<< cls)) ≠ 0x3F#6) ∧ (t.part p).err = (x.err || decide (ok = .unsaved)) ∧
        ((x.ack ||| (1#6 <<< cls)) = 0x3F#6 → ∀ k ∈ s.pmtKeys p, (t.ctx k).preempted = true))) ∧
    (∀ n, (∀ u ∈ s.units, n ∈ u.2.cores → u.2.done = true) →
      ∃ t r, exec (.unitFence .core n) s = .next t ∧ (t.core n).fenced = true ∧ r ∈ t.trapQ ∧ r.rung = 4 ∧ r.party = 7 ∧
        r.cid = coreCid n ∧ ((∀ w ∈ s.works, w.2.phase ≠ .accepted ∨ w.2.next ≠ 0) → t.mem = s.mem)) ∧
    (∀ n, (∀ u ∈ s.units, (∃ i, i < 4 ∧ n * 4 + i ∈ u.2.cores) → u.2.done = true) →
      ∃ t r, exec (.unitFence .cluster n) s = .next t ∧ (∀ i, i < 4 → (t.core (n * 4 + i)).fenced = true) ∧
        (t.cluster n).fenced = true ∧ r ∈ t.trapQ ∧ r.rung = 4 ∧ r.party = 7 ∧ r.cid = coreCid (n * 4)) ∧
    (∀ n, ∃ t r, exec (.unitFence .sysCore n) s = .next t ∧ (t.syscore n).fenced = true ∧ r ∈ t.trapQ ∧ r.rung = 4 ∧ r.party = 7 ∧
      r.cid = toW n) ∧
    ∀ vf ctx, let key := ctxKey vf ctx
      ∃ t, exec (.contextDestroy vf ctx) s = .next t ∧ t.ctx key = { CtxSt.init with destroyed := true } ∧
        (∀ c ∈ t.copies, c.2.key ≠ key) ∧ (∀ r ∈ t.trapQ, r.key ≠ key) ∧ (∀ h ∈ t.helms, h.1 / 1024 ≠ key) ∧
        (∀ e ∈ t.tlb, ¬ (e.vf = vf ∧ e.ctx = ctx)) ∧ (∀ e ∈ t.utlb, ¬ (e.vf = vf ∧ e.ctx = ctx)) ∧
        (∀ c ∈ t.clusters, ∀ r ∈ c.2.fifo, r.key ≠ key) ∧
        ∀ u ∈ s.unitsOf key, (t.unit u).done = true ∧ (t.unit u).cores = []

/-! ## The device -/

/-- The device semaphore and what it guards (R381, R382, R389, R390): a read by a port or firmware takes it where it is free, a
write by its owner or a reset of the owner's link frees it; DEV_CTL resets the package or starts an update; an entry of the
partition table changes only by its owner, within the table's limits, and a valid entry that changes is wiped first: the units of the
quarter-die are at their reset values, and of the VF it leaves no byte is left in the quarter-die's channels nor in a cache. (That the
number of the owner stays readable while the semaphore is free is the model's choice, log 75; that a write of both bits of DEV_CTL acts
as a reset, log 76; what a wipe takes in, log 78.) -/
def Obligations.DeviceControl : Prop :=
  ∀ (s : State),
    (∀ m n, semNum m = some n →
      (s.dev.semHeld = false → exec (.devSemRead m) s = .next { s with dev := { s.dev with
        semHeld := true, semOwn := n, reports := s.dev.reports ++ [.semRead m (toW s.dev.semOwn)] } }) ∧
      (s.dev.semHeld = true → exec (.devSemRead m) s = .next { s with dev := { s.dev with
        reports := s.dev.reports ++ [.semRead m (toW (2147483648 + s.dev.semOwn))] } })) ∧
    (∀ m v, let freed : State := { s with dev := { s.dev with semHeld := false } }
      (s.semBy m = true → exec (.devSemWrite m v) s = .next freed) ∧ (s.semBy m = false → exec (.devSemWrite m v) s = .next s) ∧
      (∀ p, m = .host p → exec (.hostLinkReset p) s = .next (if s.semBy m then freed else s))) ∧
    (∀ m (v : BitVec 32),
      (s.semBy m = true → bits v.toNat 2 30 = 0 →
        (v.getLsbD 0 = true → exec (.devCtlRst m v) s = .next s.cold) ∧
        (v.getLsbD 0 = false → v.getLsbD 1 = true → exec (.devCtlFwu m v) s = .next { s with dev := { s.dev with fwu := true } })) ∧
      (s.semBy m = false ∨ bits v.toNat 2 30 ≠ 0 → exec (.devCtlRst m v) s = .next s ∧ exec (.devCtlFwu m v) s = .next s)) ∧
    (∀ m q (v : BitVec 32),
      let old := s.dev.partTbl.getD q 0#32
      let new := v &&& 0x9F3F#32
      let part := fun (w : Word) => bits w.toNat 8 5
      let vf := fun (w : Word) => bits w.toNat 0 6
      let good := s.semBy m = true ∧ q < 32 ∧ bits v.toNat 17 15 = 0 ∧ bits v.toNat 13 2 = 0 ∧ bits v.toNat 6 2 = 0 ∧
        old.getLsbD 16 = false ∧ ∀ e ∈ s.dev.partTbl, e.1 ≠ q → e.2.getLsbD 15 = true → part e.2 = part v → vf e.2 = vf v
      (¬ good → exec (.partTblWrite m q v) s = .next s) ∧
      (good → old.getLsbD 15 = false →
        exec (.partTblWrite m q v) s = .next { s with dev := { s.dev with partTbl := s.dev.partTbl.set q new } }) ∧
      (∀ s1, good → old.getLsbD 15 = true → part old ≠ part new ∨ vf old ≠ vf new ∨ new.getLsbD 15 = false →
        State.clearUnits ((s.units.filter fun p => p.2.cores.any fun c => c / 96 = q).map (·.1)) s = .next s1 →
        ∃ t, exec (.partTblWrite m q v) s = .next t ∧ t.dev.partTbl.find? q = some (new ||| 0x10000#32) ∧
          (∀ c ∈ t.cores, c.1 / 96 = q → c.2 = { CoreSt.init with fenced := true }) ∧
          (∀ c ∈ t.clusters, c.1 / 24 = q → c.2 = { ClusterSt.init with fenced := true }) ∧
          (∀ c ∈ t.sys, c.1 / 4 = q → c.2 = { SysSt.init with fenced := true }) ∧ (∀ e ∈ t.utlb, e.cl / 96 ≠ q) ∧
          (∀ e ∈ t.tlb, e.cl / 24 ≠ q) ∧ (∀ l ∈ t.l2, vf old ∉ l.vfs) ∧
          let u := (((s1.helms.filter fun h => h.1 % 1024 / 24 = q && !h.2.preempted).map (·.1)).foldl
            (fun s h => (s.preemptHelm (h / 1024) (h % 1024)).1) s1).wipeUnits q
          let gone := fun (a : Nat) => inChannels q a = true ∧ ∃ r ∈ u.vfRanges (vf old), r.1 ≤ a ∧ a < r.1 + r.2
          (∀ a, gone a → t.mem.read a = 0#8 ∧ a ∉ t.poison) ∧ (∀ l ∈ t.l1, ¬ gone (l.line * 128)) ∧
            (∀ l ∈ t.l2, ¬ gone (l.line * 128)) ∧ ∀ l ∈ t.helped, ¬ gone (l * 128))) ∧
    ∀ q, (s.dev.partTbl.getD q 0#32).getLsbD 16 = true → exec (.quarterWipeDone q) s =
      .next { s with dev := { s.dev with partTbl := s.dev.partTbl.set q (s.dev.partTbl.getD q 0#32 &&& 0xFFFF#32) } }

/-- Boot, reset, power and attestation (R389-R391): firmware that fails halts the package, a partition image that fails leaves
its partition held; a cold reset leaves every part of the state at its reset value but the life-cycle state, the fences and outer
memory; the arithmetic clock steps by 10 MHz between 500 and 850 MHz; a report carries the nonce, the state and the fences. (What a cold reset
keeps, log 72, how an update is verified, log 77, and the length of the signature, log 22, are the model's choices.) -/
def Obligations.BootAndReset : Prop :=
  ∀ (s : State),
    (s.dev.fwu = true → ∀ a b l, exec (.bootVerify a b l) s = .next { s with dev := { s.dev with fwu := false } }) ∧
    (s.dev.fwu = false → s.dev.bootDone = false → s.dev.halted = false →
      (∀ b l, exec (.bootVerify false b l) s = .next { s with dev := { s.dev with halted := true, bootBad := 1 } }) ∧
      exec (.bootVerify true true []) s = .next { s with dev := { s.dev with bootDone := true, bootBad := 0 } } ∧
      exec (.bootVerify true false []) s = .next { s with dev := { s.dev with bootDone := true, bootBad := 2 } } ∧
      ∀ b l, ∃ t, exec (.bootVerify true b l) s = .next t ∧ t.dev.bootDone = true ∧
        ∀ p ∈ l, p < 32 → (t.part p).held = true ∧ (t.part p).bad = true) ∧
    (Memory.wf s.mem = true → keysRise s.cores = true → keysRise s.clusters = true → keysRise s.sys = true →
      ∃ t, exec .coldReset s = .next t ∧
        t = { State.reset with mem := t.mem, cores := t.cores, clusters := t.clusters, sys := t.sys
                               dev := { DevSt.init with life := s.dev.life }
                               agenda := s.agenda, free := s.free } ∧
        (∀ a, t.mem.read a = if outerPa a then s.mem.read a else 0#8) ∧
        (∀ c, t.core c = { CoreSt.init with fenced := (s.core c).fenced }) ∧
        (∀ c, t.cluster c = { ClusterSt.init with fenced := (s.cluster c).fenced }) ∧
        (∀ c, t.syscore c = { SysSt.init with fenced := (s.syscore c).fenced }) ∧
        ∀ v, exec (.lifeCycleChange v) s = .next { t with dev := { DevSt.init with life := v } }) ∧
    exec (.powerCapStep true) s = .next { s with dev := { s.dev with clk := max 50 (s.dev.clk - 1), cap := true } } ∧
    exec (.powerCapStep false) s = .next { s with dev := { s.dev with
      clk := min 85 (s.dev.clk + 1), cap := decide (s.dev.clk + 1 < 85) } } ∧
    ∀ m nonce, ∃ sig, sig.length = 344 ∧ exec (.attestationRequest m nonce) s = .next { s with dev := { s.dev with
      reports := s.dev.reports ++
        [.attestation nonce s.dev.life ((s.cores.filter fun c => c.2.fenced && !(s.cluster (c.1 / 4)).fenced).length +
          (s.clusters.filter fun c => c.2.fenced).length + (s.sys.filter fun c => c.2.fenced).length) sig] } }

/-- Register writes (R175, R309, R330, R380, R385, R386, R392, R401, R412): each register takes its fields from the master that
owns it; a starvation exponent is 0 or 20 to 40; interrupt and status bits clear where 1 is written; a host port's writes are
ignored. Every write of a register, and of the size of a state page pool, by any master and of any value completes: it changes the
block it names alone; the size is taken from the hypervisor, within the pool's limit and while the engine holds no page.
(The write through a VF that is not enabled ignored, log 82, and the bits of CTX_TBL above 47 dropped, log 83, are the model's choices.) -/
def Obligations.RegisterWrites : Prop :=
  ∀ (s : State),
    (∀ p (v : BitVec 64), p < 32 →
      let w := v.setWidth 32
      let x := s.part p
      let at_ := fun (off : Nat) => 0x20001000000 + p * 65536 + off
      (bits w.toNat 24 8 = 0 → bits w.toNat 0 6 = 0 →
        ∃ n : Word, exec (.registerWrite (.partitionOS p) (at_ 0) v) s = .next (s.setPart p { x with starve := n }) ∧
          bits n.toNat 0 6 = 0 ∧ bits n.toNat 24 8 = 0 ∧ ∀ lo ∈ [6, 12, 18], let e := bits w.toNat lo 6
            bits n.toNat lo 6 = if e = 0 ∨ (20 ≤ e ∧ e ≤ 40) then e else bits x.starve.toNat lo 6) ∧
      exec (.registerWrite (.partitionOS p) (at_ 0x28) v) s =
        .next (s.setPart p { x with intp := (x.intp &&& 7#32 &&& ~~~w) ||| (w &&& 0x70000#32) }) ∧
      (bits w.toNat 10 21 = 0 → exec (.registerWrite .hypervisor (at_ 0x30) v) s = .next (s.setPart p { x with eid := w })) ∧
      (bits w.toNat 10 21 ≠ 0 → exec (.registerWrite .hypervisor (at_ 0x30) v) s = .next s)) ∧
    (∀ vf (v : BitVec 64), vf < 64 →
      let w := v.setWidth 32
      let f := s.vf vf
      let at_ := fun (off : Nat) => 0x20002000000 + vf * 65536 + off
      exec (.registerWrite .hypervisor (at_ 0) v) s = .next (s.setVf vf { f with s2 := v &&& 0x000FFFFFFFFFF001#64 }) ∧
      (bits v.toNat 4 28 = 0 → exec (.registerWrite .hypervisor (at_ 8) v) s =
        .next (s.setVf vf { f with pol := toW (bits v.toNat 1 3 * 2 + 1) })) ∧
      (∀ port, exec (.registerWrite (.hostVf port vf) (at_ 0x4C) v) s =
        .next (if s.partsOf vf = [] then s else s.setVf vf { f with ks := f.ks && !w.getLsbD 31, rf := f.rf && !w.getLsbD 30 })) ∧
      exec (.registerWrite .hypervisor (at_ 0x50) v) s =
        .next (s.setVf vf { f with dlog := (v &&& 0x000FFFFFFFFFF001#64) ||| (f.dlog &&& 2#64 &&& ~~~v) }) ∧
      ∀ m, s.osOf m vf = true → exec (.registerWrite m (at_ 0x60) v) s =
        .next (s.setVf vf { f with ctxTbl := v &&& 0x0000FFFFFFFFF001#64 })) ∧
    (∀ port pa v, exec (.registerWrite (.host port) pa v) s = .next s) ∧
    (∀ m pa v, ∃ t, exec (.registerWrite m pa v) s = .next t ∧ t = { s with vfs := t.vfs, parts := t.parts } ∧
      (pa < 0x20001000000 ∨ (0x20001200000 ≤ pa ∧ pa < 0x20002000000) ∨ 0x20002400000 ≤ pa → t = s) ∧
      (∀ p, pa < 0x20001000000 + p * 65536 ∨ 0x20001010000 + p * 65536 ≤ pa → t.part p = s.part p) ∧
      ∀ vf, pa < 0x20002000000 + vf * 65536 ∨ 0x20002010000 + vf * 65536 ≤ pa → t.vf vf = s.vf vf) ∧
    ∀ m die (v : BitVec 32), ∃ t, exec (.sqPoolWrite m die v) s = .next t ∧ t = { s with dies := t.dies } ∧
      (∀ d, d ≠ die → t.die d = s.die d) ∧
      t.die die = { s.die die with
        pool := if m = .hypervisor ∧ die < 8 ∧ bits v.toNat 11 21 = 0 ∧ v.toNat ≤ (if die = 0 then 992 else 1024) ∧ (s.die die).pages = 0
          then v.toNat else (s.die die).pool }

/-! ## Hosts, command queues, the fabric -/

/-- Requests of a host (R383, R384, R386-R388): BAR2 reads and writes act at the homes of the pages that stage 2 maps, else they
abort; NV_INT sets an interrupt bit. The registers of a command queue are written by a host through an enabled VF alone. A command
queue executes the packet after H once its stamp matches: H rises by one with each; a launch enters a checked record, a wait holds until its word is large enough, a signal waits for the queue's launches; a
stamp that does not match in sixteen reads, 1,024 cycles apart, stops the queue (the cycles counted: log 43). P14 of a launch is 1 where
it is accepted and 2 where it is refused. -/
def Obligations.HostRequests : Prop :=
  ∀ (s : State) (vf : Nat),
    (∀ off n, s.partsOf vf = [] ∨ 2 ^ 40 < off + n ∨ State.outside vf true false (pageStarts off n) s = none →
      exec (.hostBar2Read vf off n) s = .next (s.tell (.hostAbort vf))) ∧
    (∀ off b, s.partsOf vf = [] ∨ 2 ^ 40 < off + b.length ∨ State.outside vf false true (pageStarts off b.length) s = none →
      exec (.hostBar2Write vf off b) s = .next (s.tell (.hostAbort vf))) ∧
    (∀ slot v l u, s.use2 none vf (slot + 56) false true false = (u, .ok l) → u.l1 = [] → u.helped = [] → NoLog u →
      windowPa (l.out (slot + 56)) = false →
      (s.packetStatus vf slot v).mem = u.mem.store (l.out (slot + 56)) (leBytes 4 v.toNat)) ∧
    (∀ off n s1 m, s.partsOf vf ≠ [] → off + n ≤ 2 ^ 40 → State.outside vf true false (pageStarts off n) s = some (s1, m) →
      s1.l1 = [] → s1.dir = [] → s1.poison = [] → (∀ i, i < n → windowPa (pageAt m (off + i)) = false) →
      exec (.hostBar2Read vf off n) s =
        .next (s1.tell (.hostRead vf ((List.range n).map fun i => s1.mem.read (pageAt m (off + i)))))) ∧
    (∀ off b s1 m, s.partsOf vf ≠ [] → off + b.length ≤ 2 ^ 40 → 0 < b.length → off % 128 + b.length ≤ 128 →
      State.outside vf false true (pageStarts off b.length) s = some (s1, m) → s1.l1 = [] → s1.dir = [] → s1.helped = [] → NoLog s1 →
      windowPa (pageAt m off) = false →
      ∃ t, exec (.hostBar2Write vf off b) s = .next t ∧ t.mem = s1.mem.store (pageAt m off) b ∧ t.groups = s1.groups) ∧
    (∀ v : BitVec 32, exec (.nvIntWrite vf v) s =
      .next (if bits v.toNat 0 5 ∈ s.partsOf vf then s.setPart (bits v.toNat 0 5) { s.part (bits v.toNat 0 5) with
        intp := (s.part (bits v.toNat 0 5)).intp ||| 4#32 } else s)) ∧
    (∀ m v w, s.hostOf m vf = false → exec (.cqBaseWrite m vf v) s = .next s ∧ exec (.cqKick m vf w) s = .next s) ∧
    (∀ port (v : BitVec 64), s.partsOf vf ≠ [] → v.getLsbD 0 = true → exec (.cqBaseWrite (.hostVf port vf) vf v) s =
      .next (s.setVf vf { s.vf vf with cqBase := v &&& 0x0000FFFFFFFE0001#64, done := 0#32, kick := 0#32, kicked := false,
                                       reread := 0, waiting := none, signal := false, keys := [], fatal := false })) ∧
    (∀ port (v : BitVec 32), s.partsOf vf ≠ [] →
      ((v - (s.vf vf).done).toNat ≤ 2048 → exec (.cqKick (.hostVf port vf) vf v) s =
        .next (s.setVf vf { s.vf vf with kick := v, kickPort := port, kicked := true, reread := 0, readAt := s.queueClock vf })) ∧
      (2048 < (v - (s.vf vf).done).toNat → exec (.cqKick (.hostVf port vf) vf v) s = .next s)) ∧
    (∀ s1 p, s.cqRuns vf = true → s.cqRead vf = some (s1, p) → wAt p 15 ≠ (s1.vf vf).done + 1#32 →
      (s1.queueClock vf < (s1.vf vf).readAt + 1024 → exec (.cqStampReread vf) s = .next s1) ∧
      ((s1.vf vf).readAt + 1024 ≤ s1.queueClock vf → (s1.vf vf).reread < 15 → exec (.cqStampReread vf) s =
        .next (s1.setVf vf { s1.vf vf with reread := (s1.vf vf).reread + 1, readAt := s1.queueClock vf })) ∧
      ((s1.vf vf).readAt + 1024 ≤ s1.queueClock vf → 15 ≤ (s1.vf vf).reread → exec (.cqStampReread vf) s =
        .next ((s1.setVf vf { s1.vf vf with reread := 16, ks := true, kicked := false }).tell
          (.kickStale vf (s1.vf vf).kickPort)))) ∧
    (∀ pa v, (s.vf vf).waiting = some (pa, v) → s.l1 = [] → s.poison = [] → windowPa pa = false → pa % 4 = 0 →
      (v.toNat ≤ (s.memWord pa).toNat → ∃ t, exec (.cqWaitSatisfied vf) s = .next t ∧ (t.vf vf).waiting = none ∧
        (t.vf vf).done = (s.vf vf).done + 1#32) ∧
      ((s.memWord pa).toNat < v.toNat → exec (.cqWaitSatisfied vf) s = .next s)) ∧
    ∀ s1 p, s.cqPacket vf = some (s1, p) →
      let advanced := fun (t : State) => (t.vf vf).done = (s.vf vf).done + 1#32
      (cqOp p = 0 → ∃ t, exec (.cqNop vf) s = .next t ∧ advanced t ∧ t.mem = s1.mem ∧ (t.vf vf).rf = (s1.vf vf).rf) ∧
      (3 < cqOp p → ∃ t, exec (.cqNop vf) s = .next t ∧ advanced t ∧ (t.vf vf).rf = true) ∧
      (∀ s2, cqOp p = 1 → s.frozen (ctxKey vf (cqCtx p)) 5 = false →
        (∀ w, s1.checkRecord { Work.blank with vf := vf, ctx := cqCtx p, addr := cqAddr p, fatal := (s1.vf vf).fatal } =
            (s2, .ok w) →
          ∃ t k, exec (.cqLaunch vf) s = .next t ∧ advanced t ∧ (t.work k).phase = .accepted ∧ (t.work k).words = w.words ∧
            (t.work k).src = .host ∧ ctxKey (t.work k).vf (t.work k).ctx = ctxKey vf (cqCtx p) ∧ k ∈ (t.vf vf).launches ∧
            ∃ s3 : State, s3 = { s2 with works := s3.works, ctxs := s3.ctxs } ∧
              t.mem = (s3.packetStatus vf (s2.vf vf).slotAt 1#32).mem) ∧
        (s1.checkRecord { Work.blank with vf := vf, ctx := cqCtx p, addr := cqAddr p, fatal := (s1.vf vf).fatal } =
            (s2, .refused) →
          ∃ t, exec (.cqLaunch vf) s = .next t ∧ advanced t ∧ (t.vf vf).rf = true ∧
            t.mem = (s2.packetStatus vf (s2.vf vf).slotAt 2#32).mem)) ∧
      (∀ s2 pa vfa, cqOp p = 2 → s1.cqWord vf p .read 0 = (s2, some (pa, vfa)) → s2.l1 = [] → s2.poison = [] →
        windowPa pa = false → pa % 4 = 0 →
        ((wAt p 3).toNat ≤ (s2.memWord pa).toNat → ∃ t, exec (.cqWait vf) s = .next t ∧ advanced t) ∧
        ((s2.memWord pa).toNat < (wAt p 3).toNat →
          exec (.cqWait vf) s = .next (s2.setVf vf { s2.vf vf with waiting := some (pa, wAt p 3) }))) ∧
      (cqOp p = 3 → exec (.cqSignal vf) s = .next (s1.setVf vf { s1.vf vf with signal := true })) ∧
      (∀ s2 pa vfa, cqOp p = 3 → (s.vf vf).signal = true → (s.vf vf).launches = [] →
        s1.cqWord vf p .write 1 = (s2, some (pa, vfa)) → s2.l1 = [] → s2.helped = [] → NoLog s2 → windowPa pa = false →
        ∃ t, exec (.cqSignalWrite vf) s = .next t ∧ advanced t ∧ t.mem = s2.mem.store pa (leBytes 4 (wAt p 3).toNat))

/-- The fabric (R399, R400, R403, R404, R407): a flit in sequence with a good CRC is accepted, any other asks for a replay; a flit sent
stays in the replay buffer until it is acknowledged, and is replayed from there; eight replays of one flit retrain the port; a trained
port serves on its lanes, one that does not return is down. A request of another device is refused without the grants, else performed at
its home and answered, poison told. A lost endpoint is reported at the partition rung; each group with an outstanding access to it traps
POISON, and the access ends. (The port the record names, log 135, and the pages of a request one by one are the model's choices.) -/
def Obligations.FabricTraffic : Prop :=
  ∀ (s : State),
    (∀ die port, die < 8 → port < 12 →
      let x := s.port die port
      (∀ (seq : BitVec 12) ok,
        (2 ≤ x.st → ok = true → seq.toNat = x.rx →
          exec (.flitReceive die port seq ok) s = .next (s.setPort die port { x with rx := (x.rx + 1) % 4096, ask := false })) ∧
        (2 ≤ x.st → ok = false ∨ seq.toNat ≠ x.rx →
          exec (.flitReceive die port seq ok) s = .next (s.setPort die port { x with ask := true })) ∧
        (x.st < 2 → exec (.flitReceive die port seq ok) s = .next s ∧ exec (.flitReplay die port seq) s = .next s) ∧
        (2 ≤ x.st → x.row < 8 → x.holds seq.toNat = true → ∃ y, exec (.flitReplay die port seq) s = .next (s.setPort die port y) ∧
          y = { x with rty := min 0xFFFF (x.rty + 1), last := seq.toNat, row := y.row } ∧
          (x.row ≠ 0 → x.last = seq.toNat → y.row = x.row + 1) ∧ (x.row = 0 ∨ x.last ≠ seq.toNat → y.row = 1)) ∧
        (8 ≤ x.row ∨ x.holds seq.toNat = false → exec (.flitReplay die port seq) s = .next s)) ∧
      (2 ≤ x.st → x.unacked < 256 → s.flitSend die port = s.setPort die port { x with tx := (x.tx + 1) % 4096 }) ∧
      (256 ≤ x.unacked → s.flitSend die port = s) ∧
      (∀ seq, 2 ≤ x.st → x.holds seq = true →
        s.flitAck die port seq = s.setPort die port { x with una := (seq + 1) % 4096, row := 0 }) ∧
      (2 ≤ x.st → 8 ≤ x.row → exec (.portRetrain die port) s = .next (s.setPort die port { x with st := 1, row := 0 })) ∧
      (x.st < 2 → ∀ n, n = 1 ∨ n = 2 →
        exec (.portTrained die port n) s = .next (s.setPort die port { x with st := n + 1, row := 0 })) ∧
      (x.st = 1 → exec (.portDownTimeout die port) s = .next (s.setPort die port { x with st := 0 }))) ∧
    (∀ (r : RemoteReq), let s0 : State := { s with dev := { s.dev with remotes := s.dev.remotes.filter (· != r) } }
      (s.vfOf r.part = none → exec (.remoteRequest r) s = .next (s0.tell .remoteRefused)) ∧
      ∀ vf, s.vfOf r.part = some vf →
        ((s.part r.part).eid.getLsbD 31 = false ∨ (s.vf vf).pol.getLsbD 3 = false →
          exec (.remoteRequest r) s = .next (s0.tell .remoteRefused)) ∧
        ((s.part r.part).eid.getLsbD 31 = true → (s.vf vf).pol.getLsbD 3 = true →
          (∀ n s1 m, r.kind = .load n → State.remotePages vf true false (pageStarts r.off n) s0 = (s1, .ok m) → s1.l1 = [] →
            (s1.poison = [] → (∀ i, i < n → windowPa (pageAt m (r.off + i)) = false) → exec (.remoteRequest r) s =
              .next (s1.tell (.remote ((List.range n).map fun i => s1.mem.read (pageAt m (r.off + i)))))) ∧
            ((∃ i, i < n ∧ pageAt m (r.off + i) ∈ s1.poison) → exec (.remoteRequest r) s = .next (s1.tell .remotePoison))) ∧
          (∀ b s1 m, r.kind = .store b → State.remotePages vf false true (pageStarts r.off b.length) s0 = (s1, .ok m) →
            0 < b.length → r.off % 128 + b.length ≤ 128 → s1.l1 = [] → s1.helped = [] → NoLog s1 →
            windowPa (pageAt m r.off) = false →
            ∃ t, exec (.remoteRequest r) s = .next t ∧ t.mem = s1.mem.store (pageAt m r.off) b ∧
              t.dev.reports = s1.dev.reports ++ [.remote []]) ∧
          (∀ aop a b s1 m, let pa := pageAt m r.off
            s1.l1 = [] → s1.helped = [] → s1.poison = [] → NoLog s1 → windowPa pa = false →
            let done := fun (ans : List Byte) => ∃ t, exec (.remoteRequest r) s = .next t ∧
              t.mem = s1.mem.store pa (leBytes 4 (aopApply aop (s1.memWord pa) a b).toNat) ∧
              t.dev.reports = s1.dev.reports ++ [.remote ans]
            (r.kind = .atomic aop a b → State.remotePages vf true true (pageStarts r.off 4) s0 = (s1, .ok m) →
              done (leBytes 4 (s1.memWord pa).toNat)) ∧
            (r.kind = .red aop a b → State.remotePages vf false true (pageStarts r.off 4) s0 = (s1, .ok m) → done [])) ∧
          (∀ a lvl s1, let n := remoteNeeds r.kind
            State.remotePages vf n.1 n.2.1 (pageStarts r.off (remoteSize r.kind)) s0 = (s1, .fault a lvl) →
            ∃ t, exec (.remoteRequest r) s = .next t ∧ r ∈ t.dev.remotes))) ∧
    ∀ part eid, ∃ t r, exec (.endpointLost part eid) s = .next t ∧ t.trapQ.getLast? = some r ∧ r.rung = 3 ∧ r.part = part ∧
      r.party = 7 ∧ r.trap.cause = 0x15 ∧ r.trap.info = toW eid ∧
      (∀ port, port ∈ s.portsOf part → (∀ q ∈ s.portsOf part, port ≤ q) → r.cid = toW (port / 12 * 536870912 + port % 12)) ∧
      t.mem = s.mem ∧
      (keysRise s.groups = true → (∀ p ∈ s.groups, p.2.draft = none) → ∀ g x, s.groups.find? g = some x → x.st ≠ .exited →
        s.ctxPart (s.keyOf x / 65536) (s.keyOf x % 65536) = some part →
        let hit := fun (o : Op) (a : Acc) => o.ctr ≠ .x ∧ a ∈ o.accs ∧ a.fin = false ∧ toEndpoint eid a.pa = true
        (∃ o ∈ x.ops, ∃ a, hit o a) →
        (∃ q, (t.grp g).trapPend = some q ∧ q.cause = 0x15 ∧ q.rung = 2 ∧ ∃ o ∈ x.ops, ∃ a, hit o a ∧ q.info = toW a.va) ∧
          let ended := fun (o : Op) (a : Acc) =>
            if !a.fin && toEndpoint eid a.pa then { a with fin := true, bad := !o.kind.isStore, told := true } else a
          (t.grp g).ops = x.ops.map fun o => if o.ctr = .x then o else { o with accs := o.accs.map (ended o) })

/-! ## Decoding, the step, the state as a whole -/

/-- Words of the spec's examples decode to the instructions written beside them (R31-R36, R248, R249): one of each format. -/
def Obligations.DecodeWords : Prop :=
  decodeGroup 0x4080828D#32 = .ok (.vaddF32 ⟨16#6, 8#7, 20#7, 0#1, 1#1, 5#3⟩) ∧
  decodeGroup 0x2C88212D#32 = .ok (.vcmpF32 ⟨2#3, 1#3, 2#7, 9#7, 0#1, 1#1, 5#3⟩) ∧
  decodeGroup 0xA0345FEC#32 = .ok (.vaddi ⟨6#6, 0x45#7, 0x1FD#9, 4#3⟩) ∧
  decodeGroup 0xC04421D0#32 = .ok (.ld ⟨8#6, 0x42#7, 3#5, 5#3, 0#3⟩) ∧
  decodeGroup 0xD2184288#32 = .ok (.red ⟨3#6, 4#7, 5#5, 1#4, 0#3⟩) ∧
  decodeGroup 0xF4D00000#32 = .ok (.fence ⟨3#3, 1#2, 0#3⟩) ∧
  decodeGroup 0xB0000010#32 = .ok (.br ⟨2#22, 0#3⟩) ∧
  decodeGroup 0xAC48000A#32 = .ok (.smovi ⟨9#6, 1#9, 2#3⟩) ∧
  decodeGroup 0xF9500000#32 = .ok (.gmod ⟨1#1, 1#2, 0#1, 0#3, 0#1, 0#3, 0#1⟩) ∧
  decodeHelm 0x884298E0#32 = .ok (.mma ⟨0#2, 4#5, 5#5, 6#5, 7#5⟩) ∧
  decodeHelm 0x11080880#32 = .ok (.hadd ⟨4#5, 4#5, 0#5, 1#1, 128#11⟩) ∧
  decodeGroup 0#32 = .error .zeroWord ∧ decodeGroup 0xFFFFFFFF#32 = .error .badWord

/-- Every instruction, at every value of its operands that its word admits, is what the decoder reads from the word the encoder
writes for it; the decoder is the group's or the helm's, as the instruction is (R31-R36, R248). -/
def Obligations.DecodeEncodeAgree : Prop :=
  (∀ i : Instr, helmWord i = true ∨ groupWord i = true → (encode i).isSome = true) ∧
  ∀ (i : Instr) (w : BitVec 32), encode i = some w → (if helmWord i then decodeHelm w = .ok i else decodeGroup w = .ok i)

/-- A step runs the decoded instruction (R10, R26, R159, R167, R243; DESIGN CHOICE, log 1): a core's turn fetches the word at the PC of the
group that goes first, a helm's turn the word at its PC, and runs what the word decodes to; another agent's turn runs its step, a
system core's its write of a register where it acts as the master that makes it, a matrix engine's the next step of its oldest
operation. After it follows the turn's end: parked groups whose condition holds wake, and the bookkeeping of Sys2Proof.Machine.State.endTurn. -/
def Obligations.StepRunsDecoded : Prop :=
  ∀ (s : State) (ts : List Turn),
    let s0 : State := { s with agenda := ts }
    let after := fun (r : Host.Outcome State Fault Refusal) =>
      match r with
      | .next t => Host.Outcome.next t.endTurn
      | .fault f => .fault f
      | .refused q => .refused q
    s.dev.halted = false →
    (∀ c gid g rest s1 w i, s.agenda = .core c :: ts →
      rotateTies (s0.free * 65536 + 65524) (sortBy firstOf (s0.readyOn c)) = (gid, g) :: rest →
      (s0.grp gid).trapPend = none → s0.fetch gid (s0.grp gid).pc = (s1, .word w) → decodeGroup w = .ok i →
      (∀ t, exec i { s1 with cur := gid, iw := w } = .next t → rest = [] ∨ (t.core c).cycle ≠ (s0.core c).cycle ∨ t.grp gid ≠ s0.grp gid) →
      step s = after (exec i { s1 with cur := gid, iw := w })) ∧
    (∀ cl key w i, s.agenda = .helm cl :: ts → (s.cluster cl).serve = some key → (s.helm key cl).run = .running →
      w = (if (s.helm key cl).pc < 4096 then (s.helm key cl).store.getD (s.helm key cl).pc 0#32 else 0#32) →
      decodeHelm w = .ok i → step s = after (exec i { s0 with curCl := cl, iw := w })) ∧
    (∀ i, s.agenda = .event i :: ts → Instr.isStep i = true → step s = after (exec i s0)) ∧
    (∀ k i m, s.agenda = .sysEvent k i :: ts → Instr.writer i = some m →
      step s = if s0.actsAs k m then after (exec i { s0 with curSys := k }) else .next s0.endTurn) ∧
    (∀ cl, s.agenda = .tile cl :: ts → step s = .next (s0.matrixStep cl).endTurn) ∧
    (s.agenda = [] → step s = .next s.endTurn)

/-- No step leaves the canonical form of the state. -/
def Obligations.StepKeepsCanonical : Prop :=
  ∀ s t : State, Canonical s → step s = .next t → Canonical t

/-- The machine right after reset is in canonical form; no group runs, memory reads 0 (for outer memory the model's DESIGN CHOICE,
log 4), and the fields that the spec gives a value hold it (R113, R175, R294, R330, R370, R381, R385, R386, R389-R391, R400, R412). -/
def Obligations.ResetState : Prop :=
  let s := State.reset
  Canonical s ∧ s.groups = [] ∧ s.units = [] ∧ s.works = [] ∧ (∀ a, s.mem.read a = 0#8) ∧
    (∀ c, (s.core c).rnd = 0x9E3779B9#32 ∧ (s.core c).fenced = false) ∧ (∀ k, (s.syscore k).fenced = false) ∧
    (∀ p, (∀ lo ∈ [6, 12, 18], bits (s.part p).starve.toNat lo 6 = 30) ∧ (s.part p).busy = false ∧ (s.part p).intp = 0#32) ∧
    (∀ v, (s.vf v).pol = 1#32 ∧ (s.vf v).s2 = 0#64 ∧ (s.vf v).cqBase = 0#64 ∧ (s.vf v).done = 0#32) ∧
    (∀ d, (s.die d).pool = 0 ∧ (s.die d).ttqDone = 0#32 ∧ (∀ k, (s.die d).gen k = 1) ∧ ∀ p, (s.port d p).st = 0) ∧
    s.dev.semHeld = false ∧ s.dev.clk = 85 ∧ s.dev.partTbl = []
end

