-- ==== Sys2Proof/Laws/Dispatch.lean ====
section
/-!
SUPPORT. Sys2Proof/Laws/Dispatch.lean: exec of each constructor is its meaning.
-/
namespace Sys2Proof.Machine

theorem exec_vaddI32 o (s : State) : exec (.vaddI32 o) s = execVaddI32 o s := rfl
theorem exec_vsubI32 o (s : State) : exec (.vsubI32 o) s = execVsubI32 o s := rfl
theorem exec_vmulI32 o (s : State) : exec (.vmulI32 o) s = execVmulI32 o s := rfl
theorem exec_vmulhiI32 o (s : State) : exec (.vmulhiI32 o) s = execVmulhiI32 o s := rfl
theorem exec_vmulhiN32 o (s : State) : exec (.vmulhiN32 o) s = execVmulhiN32 o s := rfl
theorem exec_vmadI32 o (s : State) : exec (.vmadI32 o) s = execVmadI32 o s := rfl
theorem exec_vminI32 o (s : State) : exec (.vminI32 o) s = execVminI32 o s := rfl
theorem exec_vmaxI32 o (s : State) : exec (.vmaxI32 o) s = execVmaxI32 o s := rfl
theorem exec_vminN32 o (s : State) : exec (.vminN32 o) s = execVminN32 o s := rfl
theorem exec_vmaxN32 o (s : State) : exec (.vmaxN32 o) s = execVmaxN32 o s := rfl
theorem exec_vand o (s : State) : exec (.vand o) s = execVand o s := rfl
theorem exec_vor o (s : State) : exec (.vor o) s = execVor o s := rfl
theorem exec_vxor o (s : State) : exec (.vxor o) s = execVxor o s := rfl
theorem exec_vandn o (s : State) : exec (.vandn o) s = execVandn o s := rfl
theorem exec_vshl o (s : State) : exec (.vshl o) s = execVshl o s := rfl
theorem exec_vshrN32 o (s : State) : exec (.vshrN32 o) s = execVshrN32 o s := rfl
theorem exec_vshrI32 o (s : State) : exec (.vshrI32 o) s = execVshrI32 o s := rfl
theorem exec_vrotl o (s : State) : exec (.vrotl o) s = execVrotl o s := rfl
theorem exec_vsel o (s : State) : exec (.vsel o) s = execVsel o s := rfl
theorem exec_vcmpI32 o (s : State) : exec (.vcmpI32 o) s = execVcmpI32 o s := rfl
theorem exec_vcmpN32 o (s : State) : exec (.vcmpN32 o) s = execVcmpN32 o s := rfl
theorem exec_vcmpF32 o (s : State) : exec (.vcmpF32 o) s = execVcmpF32 o s := rfl
theorem exec_vcmpF16 o (s : State) : exec (.vcmpF16 o) s = execVcmpF16 o s := rfl
theorem exec_vbfxN32 o (s : State) : exec (.vbfxN32 o) s = execVbfxN32 o s := rfl
theorem exec_vbfxI32 o (s : State) : exec (.vbfxI32 o) s = execVbfxI32 o s := rfl
theorem exec_vbfi o (s : State) : exec (.vbfi o) s = execVbfi o s := rfl
theorem exec_vperm o (s : State) : exec (.vperm o) s = execVperm o s := rfl
theorem exec_vaddsatI32 o (s : State) : exec (.vaddsatI32 o) s = execVaddsatI32 o s := rfl
theorem exec_vsubsatI32 o (s : State) : exec (.vsubsatI32 o) s = execVsubsatI32 o s := rfl
theorem exec_vpack16 o (s : State) : exec (.vpack16 o) s = execVpack16 o s := rfl
theorem exec_vshfl o (s : State) : exec (.vshfl o) s = execVshfl o s := rfl
theorem exec_vaddF32 o (s : State) : exec (.vaddF32 o) s = execVaddF32 o s := rfl
theorem exec_vsubF32 o (s : State) : exec (.vsubF32 o) s = execVsubF32 o s := rfl
theorem exec_vmulF32 o (s : State) : exec (.vmulF32 o) s = execVmulF32 o s := rfl
theorem exec_vfmaF32 o (s : State) : exec (.vfmaF32 o) s = execVfmaF32 o s := rfl
theorem exec_vminF32 o (s : State) : exec (.vminF32 o) s = execVminF32 o s := rfl
theorem exec_vmaxF32 o (s : State) : exec (.vmaxF32 o) s = execVmaxF32 o s := rfl
theorem exec_vaddF16x2 o (s : State) : exec (.vaddF16x2 o) s = execVaddF16x2 o s := rfl
theorem exec_vmulF16x2 o (s : State) : exec (.vmulF16x2 o) s = execVmulF16x2 o s := rfl
theorem exec_vfmaF16x2 o (s : State) : exec (.vfmaF16x2 o) s = execVfmaF16x2 o s := rfl
theorem exec_vaddBf16x2 o (s : State) : exec (.vaddBf16x2 o) s = execVaddBf16x2 o s := rfl
theorem exec_vmulBf16x2 o (s : State) : exec (.vmulBf16x2 o) s = execVmulBf16x2 o s := rfl
theorem exec_vfmaBf16x2 o (s : State) : exec (.vfmaBf16x2 o) s = execVfmaBf16x2 o s := rfl
theorem exec_vldexpF32 o (s : State) : exec (.vldexpF32 o) s = execVldexpF32 o s := rfl
theorem exec_vcopysignF32 o (s : State) : exec (.vcopysignF32 o) s = execVcopysignF32 o s := rfl
theorem exec_vminF16x2 o (s : State) : exec (.vminF16x2 o) s = execVminF16x2 o s := rfl
theorem exec_vmaxF16x2 o (s : State) : exec (.vmaxF16x2 o) s = execVmaxF16x2 o s := rfl
theorem exec_vdot4E4m3 o (s : State) : exec (.vdot4E4m3 o) s = execVdot4E4m3 o s := rfl
theorem exec_vdot4E5m2 o (s : State) : exec (.vdot4E5m2 o) s = execVdot4E5m2 o s := rfl
theorem exec_vdot4I8 o (s : State) : exec (.vdot4I8 o) s = execVdot4I8 o s := rfl
theorem exec_vdot4N8 o (s : State) : exec (.vdot4N8 o) s = execVdot4N8 o s := rfl
theorem exec_vdot8E2m1 o (s : State) : exec (.vdot8E2m1 o) s = execVdot8E2m1 o s := rfl
theorem exec_vdot8I4 o (s : State) : exec (.vdot8I4 o) s = execVdot8I4 o s := rfl
theorem exec_vdot2Bf16 o (s : State) : exec (.vdot2Bf16 o) s = execVdot2Bf16 o s := rfl
theorem exec_vdot2F16 o (s : State) : exec (.vdot2F16 o) s = execVdot2F16 o s := rfl
theorem exec_vcvtI32F32 o (s : State) : exec (.vcvtI32F32 o) s = execVcvtI32F32 o s := rfl
theorem exec_vcvtN32F32 o (s : State) : exec (.vcvtN32F32 o) s = execVcvtN32F32 o s := rfl
theorem exec_vcvtF32I32 o (s : State) : exec (.vcvtF32I32 o) s = execVcvtF32I32 o s := rfl
theorem exec_vcvtF32N32 o (s : State) : exec (.vcvtF32N32 o) s = execVcvtF32N32 o s := rfl
theorem exec_vcvtF16F32 o (s : State) : exec (.vcvtF16F32 o) s = execVcvtF16F32 o s := rfl
theorem exec_vcvtBf16F32 o (s : State) : exec (.vcvtBf16F32 o) s = execVcvtBf16F32 o s := rfl
theorem exec_vcvtF32F16 o (s : State) : exec (.vcvtF32F16 o) s = execVcvtF32F16 o s := rfl
theorem exec_vcvtF32Bf16 o (s : State) : exec (.vcvtF32Bf16 o) s = execVcvtF32Bf16 o s := rfl
theorem exec_vcvtE4m3F32 o (s : State) : exec (.vcvtE4m3F32 o) s = execVcvtE4m3F32 o s := rfl
theorem exec_vcvtE5m2F32 o (s : State) : exec (.vcvtE5m2F32 o) s = execVcvtE5m2F32 o s := rfl
theorem exec_vcvtE2m1F32 o (s : State) : exec (.vcvtE2m1F32 o) s = execVcvtE2m1F32 o s := rfl
theorem exec_vcvtF32E4m3 o (s : State) : exec (.vcvtF32E4m3 o) s = execVcvtF32E4m3 o s := rfl
theorem exec_vcvtF32E5m2 o (s : State) : exec (.vcvtF32E5m2 o) s = execVcvtF32E5m2 o s := rfl
theorem exec_vcvtF32E2m1 o (s : State) : exec (.vcvtF32E2m1 o) s = execVcvtF32E2m1 o s := rfl
theorem exec_vsfuRcp o (s : State) : exec (.vsfuRcp o) s = execVsfuRcp o s := rfl
theorem exec_vsfuRsq o (s : State) : exec (.vsfuRsq o) s = execVsfuRsq o s := rfl
theorem exec_vsfuSqrt o (s : State) : exec (.vsfuSqrt o) s = execVsfuSqrt o s := rfl
theorem exec_vsfuExp2 o (s : State) : exec (.vsfuExp2 o) s = execVsfuExp2 o s := rfl
theorem exec_vsfuLog2 o (s : State) : exec (.vsfuLog2 o) s = execVsfuLog2 o s := rfl
theorem exec_vsfuSin2pi o (s : State) : exec (.vsfuSin2pi o) s = execVsfuSin2pi o s := rfl
theorem exec_vsfuCos2pi o (s : State) : exec (.vsfuCos2pi o) s = execVsfuCos2pi o s := rfl
theorem exec_vsfuTanh o (s : State) : exec (.vsfuTanh o) s = execVsfuTanh o s := rfl
theorem exec_vsfuSigm o (s : State) : exec (.vsfuSigm o) s = execVsfuSigm o s := rfl
theorem exec_vmov o (s : State) : exec (.vmov o) s = execVmov o s := rfl
theorem exec_vmovPortPush o (s : State) : exec (.vmovPortPush o) s = execVmovPortPush o s := rfl
theorem exec_vbitNot o (s : State) : exec (.vbitNot o) s = execVbitNot o s := rfl
theorem exec_vbitPopc o (s : State) : exec (.vbitPopc o) s = execVbitPopc o s := rfl
theorem exec_vbitClz o (s : State) : exec (.vbitClz o) s = execVbitClz o s := rfl
theorem exec_vbitCtz o (s : State) : exec (.vbitCtz o) s = execVbitCtz o s := rfl
theorem exec_vbitBrev o (s : State) : exec (.vbitBrev o) s = execVbitBrev o s := rfl
theorem exec_vbitAbsI32 o (s : State) : exec (.vbitAbsI32 o) s = execVbitAbsI32 o s := rfl
theorem exec_vbitNegI32 o (s : State) : exec (.vbitNegI32 o) s = execVbitNegI32 o s := rfl
theorem exec_vbitAbsF32 o (s : State) : exec (.vbitAbsF32 o) s = execVbitAbsF32 o s := rfl
theorem exec_vbitNegF32 o (s : State) : exec (.vbitNegF32 o) s = execVbitNegF32 o s := rfl
theorem exec_vscanAddI32 o (s : State) : exec (.vscanAddI32 o) s = execVscanAddI32 o s := rfl
theorem exec_vscanAddF32 o (s : State) : exec (.vscanAddF32 o) s = execVscanAddF32 o s := rfl
theorem exec_vscanMinI32 o (s : State) : exec (.vscanMinI32 o) s = execVscanMinI32 o s := rfl
theorem exec_vscanMaxI32 o (s : State) : exec (.vscanMaxI32 o) s = execVscanMaxI32 o s := rfl
theorem exec_vscanMinN32 o (s : State) : exec (.vscanMinN32 o) s = execVscanMinN32 o s := rfl
theorem exec_vscanMaxN32 o (s : State) : exec (.vscanMaxN32 o) s = execVscanMaxN32 o s := rfl
theorem exec_vscanAnd o (s : State) : exec (.vscanAnd o) s = execVscanAnd o s := rfl
theorem exec_vscanOr o (s : State) : exec (.vscanOr o) s = execVscanOr o s := rfl
theorem exec_vscanXor o (s : State) : exec (.vscanXor o) s = execVscanXor o s := rfl
theorem exec_vvoteAny o (s : State) : exec (.vvoteAny o) s = execVvoteAny o s := rfl
theorem exec_vvoteAll o (s : State) : exec (.vvoteAll o) s = execVvoteAll o s := rfl
theorem exec_vvoteBallot o (s : State) : exec (.vvoteBallot o) s = execVvoteBallot o s := rfl
theorem exec_vvoteCount o (s : State) : exec (.vvoteCount o) s = execVvoteCount o s := rfl
theorem exec_vvoteFirst o (s : State) : exec (.vvoteFirst o) s = execVvoteFirst o s := rfl
theorem exec_vquantE4m3 o (s : State) : exec (.vquantE4m3 o) s = execVquantE4m3 o s := rfl
theorem exec_vquantE5m2 o (s : State) : exec (.vquantE5m2 o) s = execVquantE5m2 o s := rfl
theorem exec_vquantE2m1 o (s : State) : exec (.vquantE2m1 o) s = execVquantE2m1 o s := rfl
theorem exec_vquantI8 o (s : State) : exec (.vquantI8 o) s = execVquantI8 o s := rfl
theorem exec_vquantI4 o (s : State) : exec (.vquantI4 o) s = execVquantI4 o s := rfl
theorem exec_vredAddI32 o (s : State) : exec (.vredAddI32 o) s = execVredAddI32 o s := rfl
theorem exec_vredAddF32 o (s : State) : exec (.vredAddF32 o) s = execVredAddF32 o s := rfl
theorem exec_vredMinI32 o (s : State) : exec (.vredMinI32 o) s = execVredMinI32 o s := rfl
theorem exec_vredMaxI32 o (s : State) : exec (.vredMaxI32 o) s = execVredMaxI32 o s := rfl
theorem exec_vredMinN32 o (s : State) : exec (.vredMinN32 o) s = execVredMinN32 o s := rfl
theorem exec_vredMaxN32 o (s : State) : exec (.vredMaxN32 o) s = execVredMaxN32 o s := rfl
theorem exec_vredAnd o (s : State) : exec (.vredAnd o) s = execVredAnd o s := rfl
theorem exec_vredOr o (s : State) : exec (.vredOr o) s = execVredOr o s := rfl
theorem exec_vredXor o (s : State) : exec (.vredXor o) s = execVredXor o s := rfl
theorem exec_vdropm o (s : State) : exec (.vdropm o) s = execVdropm o s := rfl
theorem exec_sadd o (s : State) : exec (.sadd o) s = execSadd o s := rfl
theorem exec_ssub o (s : State) : exec (.ssub o) s = execSsub o s := rfl
theorem exec_smul o (s : State) : exec (.smul o) s = execSmul o s := rfl
theorem exec_smulhiN32 o (s : State) : exec (.smulhiN32 o) s = execSmulhiN32 o s := rfl
theorem exec_sand o (s : State) : exec (.sand o) s = execSand o s := rfl
theorem exec_sor o (s : State) : exec (.sor o) s = execSor o s := rfl
theorem exec_sxor o (s : State) : exec (.sxor o) s = execSxor o s := rfl
theorem exec_sshl o (s : State) : exec (.sshl o) s = execSshl o s := rfl
theorem exec_sshrN32 o (s : State) : exec (.sshrN32 o) s = execSshrN32 o s := rfl
theorem exec_sshrI32 o (s : State) : exec (.sshrI32 o) s = execSshrI32 o s := rfl
theorem exec_sminI32 o (s : State) : exec (.sminI32 o) s = execSminI32 o s := rfl
theorem exec_smaxI32 o (s : State) : exec (.smaxI32 o) s = execSmaxI32 o s := rfl
theorem exec_sminN32 o (s : State) : exec (.sminN32 o) s = execSminN32 o s := rfl
theorem exec_smaxN32 o (s : State) : exec (.smaxN32 o) s = execSmaxN32 o s := rfl
theorem exec_scltI32 o (s : State) : exec (.scltI32 o) s = execScltI32 o s := rfl
theorem exec_scltN32 o (s : State) : exec (.scltN32 o) s = execScltN32 o s := rfl
theorem exec_vaddi o (s : State) : exec (.vaddi o) s = execVaddi o s := rfl
theorem exec_vshli o (s : State) : exec (.vshli o) s = execVshli o s := rfl
theorem exec_vmovi o (s : State) : exec (.vmovi o) s = execVmovi o s := rfl
theorem exec_saddi o (s : State) : exec (.saddi o) s = execSaddi o s := rfl
theorem exec_sandi o (s : State) : exec (.sandi o) s = execSandi o s := rfl
theorem exec_sori o (s : State) : exec (.sori o) s = execSori o s := rfl
theorem exec_smovi o (s : State) : exec (.smovi o) s = execSmovi o s := rfl
theorem exec_smov o (s : State) : exec (.smov o) s = execSmov o s := rfl
theorem exec_sbitNot o (s : State) : exec (.sbitNot o) s = execSbitNot o s := rfl
theorem exec_sbitPopc o (s : State) : exec (.sbitPopc o) s = execSbitPopc o s := rfl
theorem exec_sbitClz o (s : State) : exec (.sbitClz o) s = execSbitClz o s := rfl
theorem exec_sbitCtz o (s : State) : exec (.sbitCtz o) s = execSbitCtz o s := rfl
theorem exec_sbitBrev o (s : State) : exec (.sbitBrev o) s = execSbitBrev o s := rfl
theorem exec_sbitSeqz o (s : State) : exec (.sbitSeqz o) s = execSbitSeqz o s := rfl
theorem exec_br o (s : State) : exec (.br o) s = execBr o s := rfl
theorem exec_brz o (s : State) : exec (.brz o) s = execBrz o s := rfl
theorem exec_brnz o (s : State) : exec (.brnz o) s = execBrnz o s := rfl
theorem exec_brd o (s : State) : exec (.brd o) s = execBrd o s := rfl
theorem exec_mark o (s : State) : exec (.mark o) s = execMark o s := rfl
theorem exec_join o (s : State) : exec (.join o) s = execJoin o s := rfl
theorem exec_call o (s : State) : exec (.call o) s = execCall o s := rfl
theorem exec_jr o (s : State) : exec (.jr o) s = execJr o s := rfl
theorem exec_ld o (s : State) : exec (.ld o) s = execLd o s := rfl
theorem exec_st o (s : State) : exec (.st o) s = execSt o s := rfl
theorem exec_ldp o (s : State) : exec (.ldp o) s = execLdp o s := rfl
theorem exec_stp o (s : State) : exec (.stp o) s = execStp o s := rfl
theorem exec_ldx o (s : State) : exec (.ldx o) s = execLdx o s := rfl
theorem exec_stx o (s : State) : exec (.stx o) s = execStx o s := rfl
theorem exec_sld o (s : State) : exec (.sld o) s = execSld o s := rfl
theorem exec_sst o (s : State) : exec (.sst o) s = execSst o s := rfl
theorem exec_atom o (s : State) : exec (.atom o) s = execAtom o s := rfl
theorem exec_red o (s : State) : exec (.red o) s = execRed o s := rfl
theorem exec_atomx o (s : State) : exec (.atomx o) s = execAtomx o s := rfl
theorem exec_npost o (s : State) : exec (.npost o) s = execNpost o s := rfl
theorem exec_ndone o (s : State) : exec (.ndone o) s = execNdone o s := rfl
theorem exec_nread o (s : State) : exec (.nread o) s = execNread o s := rfl
theorem exec_cpy o (s : State) : exec (.cpy o) s = execCpy o s := rfl
theorem exec_cpyx o (s : State) : exec (.cpyx o) s = execCpyx o s := rfl
theorem exec_bseal o (s : State) : exec (.bseal o) s = execBseal o s := rfl
theorem exec_mpost o (s : State) : exec (.mpost o) s = execMpost o s := rfl
theorem exec_sqLd o (s : State) : exec (.sqLd o) s = execSqLd o s := rfl
theorem exec_sqSt o (s : State) : exec (.sqSt o) s = execSqSt o s := rfl
theorem exec_sqMark o (s : State) : exec (.sqMark o) s = execSqMark o s := rfl
theorem exec_sqBack o (s : State) : exec (.sqBack o) s = execSqBack o s := rfl
theorem exec_sqFork o (s : State) : exec (.sqFork o) s = execSqFork o s := rfl
theorem exec_sqDrop o (s : State) : exec (.sqDrop o) s = execSqDrop o s := rfl
theorem exec_sqInfo o (s : State) : exec (.sqInfo o) s = execSqInfo o s := rfl
theorem exec_spawn o (s : State) : exec (.spawn o) s = execSpawn o s := rfl
theorem exec_launch o (s : State) : exec (.launch o) s = execLaunch o s := rfl
theorem exec_chainFix o (s : State) : exec (.chainFix o) s = execChainFix o s := rfl
theorem exec_chainForm o (s : State) : exec (.chainForm o) s = execChainForm o s := rfl
theorem exec_chainQuery o (s : State) : exec (.chainQuery o) s = execChainQuery o s := rfl
theorem exec_cacheL1wb o (s : State) : exec (.cacheL1wb o) s = execCacheL1wb o s := rfl
theorem exec_cacheL1inv o (s : State) : exec (.cacheL1inv o) s = execCacheL1inv o s := rfl
theorem exec_cacheL1wbinv o (s : State) : exec (.cacheL1wbinv o) s = execCacheL1wbinv o s := rfl
theorem exec_cacheIcinv o (s : State) : exec (.cacheIcinv o) s = execCacheIcinv o s := rfl
theorem exec_cacheFetchbar o (s : State) : exec (.cacheFetchbar o) s = execCacheFetchbar o s := rfl
theorem exec_cachePref o (s : State) : exec (.cachePref o) s = execCachePref o s := rfl
theorem exec_regroup o (s : State) : exec (.regroup o) s = execRegroup o s := rfl
theorem exec_barInit o (s : State) : exec (.barInit o) s = execBarInit o s := rfl
theorem exec_barArrive o (s : State) : exec (.barArrive o) s = execBarArrive o s := rfl
theorem exec_barDrop o (s : State) : exec (.barDrop o) s = execBarDrop o s := rfl
theorem exec_barQuery o (s : State) : exec (.barQuery o) s = execBarQuery o s := rfl
theorem exec_parkWaitc o (s : State) : exec (.parkWaitc o) s = execParkWaitc o s := rfl
theorem exec_parkBwait o (s : State) : exec (.parkBwait o) s = execParkBwait o s := rfl
theorem exec_parkWbar o (s : State) : exec (.parkWbar o) s = execParkWbar o s := rfl
theorem exec_parkWaitm o (s : State) : exec (.parkWaitm o) s = execParkWaitm o s := rfl
theorem exec_parkYield o (s : State) : exec (.parkYield o) s = execParkYield o s := rfl
theorem exec_fence o (s : State) : exec (.fence o) s = execFence o s := rfl
theorem exec_nop o (s : State) : exec (.nop o) s = execNop o s := rfl
theorem exec_sysTrap o (s : State) : exec (.sysTrap o) s = execSysTrap o s := rfl
theorem exec_sysGetst o (s : State) : exec (.sysGetst o) s = execSysGetst o s := rfl
theorem exec_sysSetst o (s : State) : exec (.sysSetst o) s = execSysSetst o s := rfl
theorem exec_sysDcommit o (s : State) : exec (.sysDcommit o) s = execSysDcommit o s := rfl
theorem exec_sysRseed o (s : State) : exec (.sysRseed o) s = execSysRseed o s := rfl
theorem exec_gimm o (s : State) : exec (.gimm o) s = execGimm o s := rfl
theorem exec_grep o (s : State) : exec (.grep o) s = execGrep o s := rfl
theorem exec_gmod o (s : State) : exec (.gmod o) s = execGmod o s := rfl
theorem exec_gext o (s : State) : exec (.gext o) s = execGext o s := rfl
theorem exec_gstall o (s : State) : exec (.gstall o) s = execGstall o s := rfl
theorem exec_gscale o (s : State) : exec (.gscale o) s = execGscale o s := rfl
theorem exec_hmovi o (s : State) : exec (.hmovi o) s = execHmovi o s := rfl
theorem exec_hmoviHi o (s : State) : exec (.hmoviHi o) s = execHmoviHi o s := rfl
theorem exec_hadd o (s : State) : exec (.hadd o) s = execHadd o s := rfl
theorem exec_hsub o (s : State) : exec (.hsub o) s = execHsub o s := rfl
theorem exec_hshl o (s : State) : exec (.hshl o) s = execHshl o s := rfl
theorem exec_hand o (s : State) : exec (.hand o) s = execHand o s := rfl
theorem exec_hbr o (s : State) : exec (.hbr o) s = execHbr o s := rfl
theorem exec_hbrnz o (s : State) : exec (.hbrnz o) s = execHbrnz o s := rfl
theorem exec_hloop o (s : State) : exec (.hloop o) s = execHloop o s := rfl
theorem exec_hcall o (s : State) : exec (.hcall o) s = execHcall o s := rfl
theorem exec_mpop o (s : State) : exec (.mpop o) s = execMpop o s := rfl
theorem exec_marrive o (s : State) : exec (.marrive o) s = execMarrive o s := rfl
theorem exec_mwbar o (s : State) : exec (.mwbar o) s = execMwbar o s := rfl
theorem exec_mcopy o (s : State) : exec (.mcopy o) s = execMcopy o s := rfl
theorem exec_mcwait o (s : State) : exec (.mcwait o) s = execMcwait o s := rfl
theorem exec_mzero o (s : State) : exec (.mzero o) s = execMzero o s := rfl
theorem exec_mma o (s : State) : exec (.mma o) s = execMma o s := rfl
theorem exec_mexp o (s : State) : exec (.mexp o) s = execMexp o s := rfl
theorem exec_mexpVdiff o (s : State) : exec (.mexpVdiff o) s = execMexpVdiff o s := rfl
theorem exec_mexpRcp o (s : State) : exec (.mexpRcp o) s = execMexpRcp o s := rfl
theorem exec_mrmax o (s : State) : exec (.mrmax o) s = execMrmax o s := rfl
theorem exec_mrmaxKeep o (s : State) : exec (.mrmaxKeep o) s = execMrmaxKeep o s := rfl
theorem exec_mrsum o (s : State) : exec (.mrsum o) s = execMrsum o s := rfl
theorem exec_mrsumDecay o (s : State) : exec (.mrsumDecay o) s = execMrsumDecay o s := rfl
theorem exec_mscale o (s : State) : exec (.mscale o) s = execMscale o s := rfl
theorem exec_mstore o (s : State) : exec (.mstore o) s = execMstore o s := rfl
theorem exec_mplane o (s : State) : exec (.mplane o) s = execMplane o s := rfl
theorem exec_mload o (s : State) : exec (.mload o) s = execMload o s := rfl
theorem exec_mdone o (s : State) : exec (.mdone o) s = execMdone o s := rfl
theorem exec_inFlightComplete g c (s : State) : exec (.inFlightComplete g c) s = execInFlightComplete g c s := rfl
theorem exec_missEntryGrant core (s : State) : exec (.missEntryGrant core) s = execMissEntryGrant core s := rfl
theorem exec_refillComplete g (s : State) : exec (.refillComplete g) s = execRefillComplete g s := rfl
theorem exec_activeSetEnter core (s : State) : exec (.activeSetEnter core) s = execActiveSetEnter core s := rfl
theorem exec_displace core (s : State) : exec (.displace core) s = execDisplace core s := rfl
theorem exec_boostRise g (s : State) : exec (.boostRise g) s = execBoostRise g s := rfl
theorem exec_quantumExpiry u (s : State) : exec (.quantumExpiry u) s = execQuantumExpiry u s := rfl
theorem exec_wBlockSave u (s : State) : exec (.wBlockSave u) s = execWBlockSave u s := rfl
theorem exec_gangPreempt w (s : State) : exec (.gangPreempt w) s = execGangPreempt w s := rfl
theorem exec_launchRecordCheck w (s : State) : exec (.launchRecordCheck w) s = execLaunchRecordCheck w s := rfl
theorem exec_blockPlace p (s : State) : exec (.blockPlace p) s = execBlockPlace p s := rfl
theorem exec_taskPlace w core (s : State) : exec (.taskPlace w core) s = execTaskPlace w core s := rfl
theorem exec_swapOut u (s : State) : exec (.swapOut u) s = execSwapOut u s := rfl
theorem exec_starveTimerExpiry g (s : State) : exec (.starveTimerExpiry g) s = execStarveTimerExpiry g s := rfl
theorem exec_workCompletionWord w (s : State) : exec (.workCompletionWord w) s = execWorkCompletionWord w s := rfl
theorem exec_migrateUnit u core (s : State) : exec (.migrateUnit u core) s = execMigrateUnit u core s := rfl
theorem exec_forwardEntryRelease core u (s : State) : exec (.forwardEntryRelease core u) s = execForwardEntryRelease core u s := rfl
theorem exec_chainSwitchRequest u (s : State) : exec (.chainSwitchRequest u) s = execChainSwitchRequest u s := rfl
theorem exec_chainFormSwitch u cores (s : State) : exec (.chainFormSwitch u cores) s = execChainFormSwitch u cores s := rfl
theorem exec_streamLoadItem u link (s : State) : exec (.streamLoadItem u link) s = execStreamLoadItem u link s := rfl
theorem exec_streamStoreItem u link (s : State) : exec (.streamStoreItem u link) s = execStreamStoreItem u link s := rfl
theorem exec_barrierArrivalEffect u (s : State) : exec (.barrierArrivalEffect u) s = execBarrierArrivalEffect u s := rfl
theorem exec_copyChunk k (s : State) : exec (.copyChunk k) s = execCopyChunk k s := rfl
theorem exec_copyComplete k (s : State) : exec (.copyComplete k) s = execCopyComplete k s := rfl
theorem exec_mpostVisible cl i0 (s : State) : exec (.mpostVisible cl i0) s = execMpostVisible cl i0 s := rfl
theorem exec_helmStartRequest cl (s : State) : exec (.helmStartRequest cl) s = execHelmStartRequest cl s := rfl
theorem exec_helmLoadRequest cl (s : State) : exec (.helmLoadRequest cl) s = execHelmLoadRequest cl s := rfl
theorem exec_helmContextSwitch cl (s : State) : exec (.helmContextSwitch cl) s = execHelmContextSwitch cl s := rfl
theorem exec_tileOpComplete cl (s : State) : exec (.tileOpComplete cl) s = execTileOpComplete cl s := rfl
theorem exec_marriveEffect cl (s : State) : exec (.marriveEffect cl) s = execMarriveEffect cl s := rfl
theorem exec_mdoneEffect cl (s : State) : exec (.mdoneEffect cl) s = execMdoneEffect cl s := rfl
theorem exec_helmMwbarStarve cl (s : State) : exec (.helmMwbarStarve cl) s = execHelmMwbarStarve cl s := rfl
theorem exec_homeRead g i0 (s : State) : exec (.homeRead g i0) s = execHomeRead g i0 s := rfl
theorem exec_homeWritePerform w (s : State) : exec (.homeWritePerform w) s = execHomeWritePerform w s := rfl
theorem exec_spanClaim l1 line (s : State) : exec (.spanClaim l1 line) s = execSpanClaim l1 line s := rfl
theorem exec_homeAtomic g i0 (s : State) : exec (.homeAtomic g i0) s = execHomeAtomic g i0 s := rfl
theorem exec_updateOnlyEvict l1 line (s : State) : exec (.updateOnlyEvict l1 line) s = execUpdateOnlyEvict l1 line s := rfl
theorem exec_noticeCommit g (s : State) : exec (.noticeCommit g) s = execNoticeCommit g s := rfl
theorem exec_noticeClaim g (s : State) : exec (.noticeClaim g) s = execNoticeClaim g s := rfl
theorem exec_noticeRelease g (s : State) : exec (.noticeRelease g) s = execNoticeRelease g s := rfl
theorem exec_draftEntryFree die e (s : State) : exec (.draftEntryFree die e) s = execDraftEntryFree die e s := rfl
theorem exec_draftReplay g (s : State) : exec (.draftReplay g) s = execDraftReplay g s := rfl
theorem exec_l2DataError pa n (s : State) : exec (.l2DataError pa n) s = execL2DataError pa n s := rfl
theorem exec_l2TagError line clean (s : State) : exec (.l2TagError line clean) s = execL2TagError line clean s := rfl
theorem exec_sqEngineRequest g (s : State) : exec (.sqEngineRequest g) s = execSqEngineRequest g s := rfl
theorem exec_sqTransferComplete k (s : State) : exec (.sqTransferComplete k) s = execSqTransferComplete k s := rfl
theorem exec_statePageError die ps (s : State) : exec (.statePageError die ps) s = execStatePageError die ps s := rfl
theorem exec_pageWalk vf ctx va acc (s : State) : exec (.pageWalk vf ctx va acc) s = execPageWalk vf ctx va acc s := rfl
theorem exec_tlbInv m die v (s : State) : exec (.tlbInv m die v) s = execTlbInv m die v s := rfl
theorem exec_tlbInvComplete i0 (s : State) : exec (.tlbInvComplete i0) s = execTlbInvComplete i0 s := rfl
theorem exec_fqBaseWrite m q v (s : State) : exec (.fqBaseWrite m q v) s = execFqBaseWrite m q v s := rfl
theorem exec_fqPtrHeadWrite m q v (s : State) : exec (.fqPtrHeadWrite m q v) s = execFqPtrHeadWrite m q v s := rfl
theorem exec_fqResolve m vf stage2 v (s : State) : exec (.fqResolve m vf stage2 v) s = execFqResolve m vf stage2 v s := rfl
theorem exec_fqResolveFatal m vf stage2 v (s : State) : exec (.fqResolveFatal m vf stage2 v) s = execFqResolveFatal m vf stage2 v s := rfl
theorem exec_ttqMove m die c (s : State) : exec (.ttqMove m die c) s = execTtqMove m die c s := rfl
theorem exec_ttqDemote m die c (s : State) : exec (.ttqDemote m die c) s = execTtqDemote m die c s := rfl
theorem exec_ttqPromote m die c (s : State) : exec (.ttqPromote m die c) s = execTtqPromote m die c s := rfl
theorem exec_ttqCommandComplete die (s : State) : exec (.ttqCommandComplete die) s = execTtqCommandComplete die s := rfl
theorem exec_blockHandlerEntry u (s : State) : exec (.blockHandlerEntry u) s = execBlockHandlerEntry u s := rfl
theorem exec_contextTrap i0 (s : State) : exec (.contextTrap i0) s = execContextTrap i0 s := rfl
theorem exec_partitionTrap i0 (s : State) : exec (.partitionTrap i0) s = execPartitionTrap i0 s := rfl
theorem exec_deviceTrap i0 (s : State) : exec (.deviceTrap i0) s = execDeviceTrap i0 s := rfl
theorem exec_handlertimeout h (s : State) : exec (.handlertimeout h) s = execHandlertimeout h s := rfl
theorem exec_deviceRungTimeout i0 (s : State) : exec (.deviceRungTimeout i0) s = execDeviceRungTimeout i0 s := rfl
theorem exec_pmtPreempt m p v (s : State) : exec (.pmtPreempt m p v) s = execPmtPreempt m p v s := rfl
theorem exec_pmtResume m p v (s : State) : exec (.pmtResume m p v) s = execPmtResume m p v s := rfl
theorem exec_preemptClassAck p cls (s : State) : exec (.preemptClassAck p cls) s = execPreemptClassAck p cls s := rfl
theorem exec_unitFence k n (s : State) : exec (.unitFence k n) s = execUnitFence k n s := rfl
theorem exec_devSemRead m (s : State) : exec (.devSemRead m) s = execDevSemRead m s := rfl
theorem exec_devSemWrite m v (s : State) : exec (.devSemWrite m v) s = execDevSemWrite m v s := rfl
theorem exec_devCtlFwu m v (s : State) : exec (.devCtlFwu m v) s = execDevCtlFwu m v s := rfl
theorem exec_devCtlRst m v (s : State) : exec (.devCtlRst m v) s = execDevCtlRst m v s := rfl
theorem exec_bootVerify firmwareOk hypervisorOk badParts (s : State) : exec (.bootVerify firmwareOk hypervisorOk badParts) s = execBootVerify firmwareOk hypervisorOk badParts s := rfl
theorem exec_hostLinkReset port (s : State) : exec (.hostLinkReset port) s = execHostLinkReset port s := rfl
theorem exec_partTblWrite m q v (s : State) : exec (.partTblWrite m q v) s = execPartTblWrite m q v s := rfl
theorem exec_quarterWipeDone q (s : State) : exec (.quarterWipeDone q) s = execQuarterWipeDone q s := rfl
theorem exec_hostBar2Read vf off n (s : State) : exec (.hostBar2Read vf off n) s = execHostBar2Read vf off n s := rfl
theorem exec_hostBar2Write vf off bytes (s : State) : exec (.hostBar2Write vf off bytes) s = execHostBar2Write vf off bytes s := rfl
theorem exec_nvIntWrite vf v (s : State) : exec (.nvIntWrite vf v) s = execNvIntWrite vf v s := rfl
theorem exec_cqBaseWrite m vf v (s : State) : exec (.cqBaseWrite m vf v) s = execCqBaseWrite m vf v s := rfl
theorem exec_cqKick m vf v (s : State) : exec (.cqKick m vf v) s = execCqKick m vf v s := rfl
theorem exec_cqStampReread vf (s : State) : exec (.cqStampReread vf) s = execCqStampReread vf s := rfl
theorem exec_cqNop vf (s : State) : exec (.cqNop vf) s = execCqNop vf s := rfl
theorem exec_cqLaunch vf (s : State) : exec (.cqLaunch vf) s = execCqLaunch vf s := rfl
theorem exec_cqWait vf (s : State) : exec (.cqWait vf) s = execCqWait vf s := rfl
theorem exec_cqWaitSatisfied vf (s : State) : exec (.cqWaitSatisfied vf) s = execCqWaitSatisfied vf s := rfl
theorem exec_cqSignal vf (s : State) : exec (.cqSignal vf) s = execCqSignal vf s := rfl
theorem exec_cqSignalWrite vf (s : State) : exec (.cqSignalWrite vf) s = execCqSignalWrite vf s := rfl
theorem exec_sqPoolWrite m die v (s : State) : exec (.sqPoolWrite m die v) s = execSqPoolWrite m die v s := rfl
theorem exec_powerCapStep lower (s : State) : exec (.powerCapStep lower) s = execPowerCapStep lower s := rfl
theorem exec_registerWrite m pa v (s : State) : exec (.registerWrite m pa v) s = execRegisterWrite m pa v s := rfl
theorem exec_flitReceive die port seq crcOk (s : State) : exec (.flitReceive die port seq crcOk) s = execFlitReceive die port seq crcOk s := rfl
theorem exec_flitReplay die port seq (s : State) : exec (.flitReplay die port seq) s = execFlitReplay die port seq s := rfl
theorem exec_portRetrain die port (s : State) : exec (.portRetrain die port) s = execPortRetrain die port s := rfl
theorem exec_portTrained die port lanes (s : State) : exec (.portTrained die port lanes) s = execPortTrained die port lanes s := rfl
theorem exec_portDownTimeout die port (s : State) : exec (.portDownTimeout die port) s = execPortDownTimeout die port s := rfl
theorem exec_remoteRequest r (s : State) : exec (.remoteRequest r) s = execRemoteRequest r s := rfl
theorem exec_endpointLost part eid (s : State) : exec (.endpointLost part eid) s = execEndpointLost part eid s := rfl
theorem exec_firmwareAcknowledge i0 (s : State) : exec (.firmwareAcknowledge i0) s = execFirmwareAcknowledge i0 s := rfl
theorem exec_contextDestroy vf ctx (s : State) : exec (.contextDestroy vf ctx) s = execContextDestroy vf ctx s := rfl
theorem exec_lifeCycleChange v (s : State) : exec (.lifeCycleChange v) s = execLifeCycleChange v s := rfl
theorem exec_attestationRequest m nonce (s : State) : exec (.attestationRequest m nonce) s = execAttestationRequest m nonce s := rfl
theorem exec_sysTret (s : State) : exec (.sysTret) s = execSysTret s := rfl
theorem exec_sysExit (s : State) : exec (.sysExit) s = execSysExit s := rfl
theorem exec_sysDabort (s : State) : exec (.sysDabort) s = execSysDabort s := rfl
theorem exec_hret (s : State) : exec (.hret) s = execHret s := rfl
theorem exec_mfence (s : State) : exec (.mfence) s = execMfence s := rfl
theorem exec_hnop (s : State) : exec (.hnop) s = execHnop s := rfl
theorem exec_hhalt (s : State) : exec (.hhalt) s = execHhalt s := rfl
theorem exec_coldReset (s : State) : exec (.coldReset) s = execColdReset s := rfl
theorem exec_wordNotAnInstruction (s : State) : exec (.wordNotAnInstruction) s = execWordNotAnInstruction s := rfl
theorem exec_helmReservedMajor (s : State) : exec (.helmReservedMajor) s = execHelmReservedMajor s := rfl

end Sys2Proof.Machine
end

