-- ==== Sys2Proof/Laws/Memory.lean ====
section
/-!
SUPPORT. Sys2Proof/Laws/Memory.lean: reads after writes, and the canonical form that every operation over memory keeps; the
tables of the state keep their keys rising.
-/
namespace Sys2Proof.Machine

/-! ## The canonical form -/

theorem Mem.wfFrom_cons (lo a : Nat) (v : Byte) (t : Mem) :
    Mem.wfFrom lo ((a, v) :: t) = true ↔ lo ≤ a ∧ v ≠ 0#8 ∧ Mem.wfFrom (a + 1) t = true := by
  simp [Mem.wfFrom, and_assoc]

theorem Mem.wfFrom_mono (m : Mem) (lo hi : Nat) (h : lo ≤ hi) (w : Mem.wfFrom hi m = true) : Mem.wfFrom lo m = true := by
  cases m with
  | nil => rfl
  | cons p t =>
    obtain ⟨k, u⟩ := p
    rw [Mem.wfFrom_cons] at w ⊢
    exact ⟨by omega, w.2⟩

/-- An address below every listed one reads 0. -/
theorem Mem.read_below (m : Mem) (lo a : Nat) (w : Mem.wfFrom lo m = true) (h : a < lo) : m.read a = 0#8 := by
  cases m with
  | nil => rfl
  | cons p t =>
    obtain ⟨k, u⟩ := p
    rw [Mem.wfFrom_cons] at w
    rw [Mem.read, if_neg (by omega), if_pos (by omega)]

theorem Mem.wfFrom_consv (lo a : Nat) (v : Byte) (t : Mem) (h : lo ≤ a) (w : Mem.wfFrom (a + 1) t = true) :
    Mem.wfFrom lo (Mem.cons a v t) = true := by
  unfold Mem.cons
  split
  · exact Mem.wfFrom_mono t lo (a + 1) (by omega) w
  · rw [Mem.wfFrom_cons]
    exact ⟨h, ‹_›, w⟩

theorem Mem.wfFrom_write (m : Mem) (lo a : Nat) (v : Byte) (h : lo ≤ a) (w : Mem.wfFrom lo m = true) :
    Mem.wfFrom lo (m.write a v) = true := by
  induction m generalizing lo with
  | nil => exact Mem.wfFrom_consv lo a v [] h rfl
  | cons p t ih =>
    obtain ⟨k, u⟩ := p
    rw [Mem.wfFrom_cons] at w
    simp only [Mem.write]
    split
    · exact Mem.wfFrom_consv lo a v t h (by rename_i e; rw [← e]; exact w.2.2)
    · split
      · refine Mem.wfFrom_consv lo a v _ h ?_
        rw [Mem.wfFrom_cons]
        exact ⟨by omega, w.2⟩
      · rw [Mem.wfFrom_cons]
        exact ⟨w.1, w.2.1, ih (k + 1) (by omega) w.2.2⟩

/-- Writing one byte keeps the canonical form. -/
theorem Mem.wf_write (m : Mem) (a : Nat) (v : Byte) (w : Memory.wf m = true) : Memory.wf (m.write a v) = true :=
  Mem.wfFrom_write m 0 a v (Nat.zero_le a) w

/-- Storing bytes keeps the canonical form. -/
theorem Mem.wf_store (m : Mem) (a : Nat) (b : List Byte) (w : Memory.wf m = true) : Memory.wf (m.store a b) = true := by
  induction b generalizing m a with
  | nil => exact w
  | cons v t ih => exact ih (m.write a v) (a + 1) (Mem.wf_write m a v w)

theorem Mem.wfFrom_filter (m : Mem) (f : Host.Cell → Bool) (lo : Nat) (w : Mem.wfFrom lo m = true) :
    Mem.wfFrom lo (m.filter f) = true := by
  induction m generalizing lo with
  | nil => rfl
  | cons p t ih =>
    obtain ⟨k, u⟩ := p
    rw [Mem.wfFrom_cons] at w
    rw [List.filter_cons]
    split
    · rw [Mem.wfFrom_cons]
      exact ⟨w.1, w.2.1, ih (k + 1) w.2.2⟩
    · exact Mem.wfFrom_mono _ lo (k + 1) (by omega) (ih (k + 1) w.2.2)

/-- Removing listed bytes (a wipe, a cold reset) keeps the canonical form. -/
theorem Mem.wf_filter (m : Mem) (f : Host.Cell → Bool) (w : Memory.wf m = true) : Memory.wf (m.filter f) = true :=
  Mem.wfFrom_filter m f 0 w

/-! ## Reads after writes -/

theorem Mem.read_consv (a b : Nat) (v : Byte) (t : Mem) (w : Mem.wfFrom (a + 1) t = true) :
    (Mem.cons a v t).read b = if a = b then v else t.read b := by
  unfold Mem.cons
  split
  · rename_i e
    split
    · rename_i g
      subst e g
      exact Mem.read_below t (a + 1) a w (by omega)
    · rfl
  · by_cases e : a = b
    · rw [Mem.read, if_pos e, if_pos e]
    · rw [Mem.read, if_neg e, if_neg e]
      split
      · rename_i g
        exact (Mem.read_below t (a + 1) b w (by omega)).symm
      · rfl

theorem Mem.read_write_from (m : Mem) (lo a b : Nat) (v : Byte) (w : Mem.wfFrom lo m = true) :
    (m.write a v).read b = if a = b then v else m.read b := by
  induction m generalizing lo with
  | nil => exact Mem.read_consv a b v [] rfl
  | cons p t ih =>
    obtain ⟨k, u⟩ := p
    rw [Mem.wfFrom_cons] at w
    simp only [Mem.write]
    split
    · rename_i e
      subst e
      rw [Mem.read_consv k b v t w.2.2]
      by_cases g : k = b
      · rw [if_pos g, if_pos g]
      · rw [if_neg g, if_neg g, Mem.read, if_neg g]
        split
        · exact Mem.read_below t (k + 1) b w.2.2 (by omega)
        · rfl
    · split
      · exact Mem.read_consv a b v _ (by rw [Mem.wfFrom_cons]; exact ⟨by omega, w.2⟩)
      · simp only [Mem.read]
        rw [ih (k + 1) w.2.2]
        by_cases g : k = b
        · rw [if_pos g, if_pos g, if_neg (by omega)]
        · rw [if_neg g, if_neg g]
          split
          · rw [if_neg (by omega)]
          · rfl

/-- A byte read after a byte is written. -/
theorem Mem.read_write (m : Mem) (a b : Nat) (v : Byte) (w : Memory.wf m = true) :
    (m.write a v).read b = if a = b then v else m.read b := Mem.read_write_from m 0 a b v w

/-- A byte read after bytes are stored: the byte stored there, else the byte of before. -/
theorem Mem.read_store (m : Mem) (a b : Nat) (l : List Byte) (w : Memory.wf m = true) :
    (m.store a l).read b = if a ≤ b ∧ b < a + l.length then l.getD (b - a) 0#8 else m.read b := by
  induction l generalizing m a with
  | nil => rw [Mem.store, if_neg (by simp)]
  | cons v t ih =>
    rw [Mem.store, ih (m.write a v) (a + 1) (Mem.wf_write m a v w), Mem.read_write m a b v w]
    by_cases h : a = b
    · subst h
      rw [if_neg (by omega), if_pos rfl, if_pos (by simp)]
      simp
    · by_cases g : a + 1 ≤ b ∧ b < a + 1 + t.length
      · obtain ⟨n, hn⟩ : ∃ n, b - a = n + 1 := ⟨b - a - 1, by omega⟩
        rw [if_pos g, if_pos (by simp; omega), hn, show b - (a + 1) = n by omega, List.getD_cons_succ]
      · rw [if_neg g, if_neg h, if_neg (by simp; omega)]

/-- Bytes read where they were stored. -/
theorem Mem.bytes_store_same (m : Mem) (a : Nat) (l : List Byte) (w : Memory.wf m = true) :
    (m.store a l).bytes a l.length = l := by
  apply List.ext_getElem (by simp [Mem.bytes])
  intro i h1 h2
  simp only [Mem.bytes, List.getElem_map, List.getElem_range]
  rw [Mem.read_store m a (a + i) l w, if_pos ⟨by omega, by omega⟩, Nat.add_sub_cancel_left,
    List.getD_eq_getElem?_getD, List.getElem?_eq_getElem h2, Option.getD_some]

/-- Bytes read apart from where bytes were stored. -/
theorem Mem.bytes_store_apart (m : Mem) (a b n : Nat) (l : List Byte) (w : Memory.wf m = true)
    (h : b + n ≤ a ∨ a + l.length ≤ b) : (m.store a l).bytes b n = m.bytes b n := by
  simp only [Mem.bytes]
  apply List.map_congr_left
  intro i hi
  rw [List.mem_range] at hi
  rw [Mem.read_store m a (b + i) l w, if_neg (by omega)]

theorem Mem.ext_from (m n : Mem) (lo : Nat) (w : Mem.wfFrom lo m = true) (v : Mem.wfFrom lo n = true)
    (h : ∀ a, m.read a = n.read a) : m = n := by
  induction m generalizing lo n with
  | nil =>
    cases n with
    | nil => rfl
    | cons p t =>
      obtain ⟨k, u⟩ := p
      rw [Mem.wfFrom_cons] at v
      have := h k
      simp only [Mem.read, if_true] at this
      exact absurd this.symm v.2.1
  | cons q s ih =>
    obtain ⟨j, x⟩ := q
    rw [Mem.wfFrom_cons] at w
    cases n with
    | nil =>
      have := h j
      simp only [Mem.read, if_true] at this
      exact absurd this w.2.1
    | cons p t =>
      obtain ⟨k, u⟩ := p
      rw [Mem.wfFrom_cons] at v
      have hj := h j
      have hk := h k
      simp only [Mem.read, if_true] at hj hk
      by_cases e : j = k
      · subst e
        rw [if_pos rfl] at hj
        subst hj
        refine congrArg _ (ih t (j + 1) w.2.2 v.2.2 fun a => ?_)
        by_cases g : a ≤ j
        · rw [Mem.read_below s (j + 1) a w.2.2 (by omega), Mem.read_below t (j + 1) a v.2.2 (by omega)]
        · have := h a
          simp only [Mem.read] at this
          rwa [if_neg (by omega), if_neg (by omega), if_neg (by omega), if_neg (by omega)] at this
      · rw [if_neg (Ne.symm e)] at hj
        rw [if_neg e] at hk
        by_cases g : j < k
        · rw [if_pos g] at hj
          exact absurd hj w.2.1
        · rw [if_pos (show k < j by omega)] at hk
          exact absurd hk.symm v.2.1

/-- Memories in canonical form that read alike are equal. -/
theorem Mem.ext (m n : Mem) (w : Memory.wf m = true) (v : Memory.wf n = true) (h : ∀ a, m.read a = n.read a) : m = n :=
  Mem.ext_from m n 0 w v h

/-- The memory after reset is in canonical form. -/
theorem reset_wf : Memory.wf State.reset.mem = true := rfl

/-! ## Tables whose keys rise -/

theorem keysRise_cons {α : Type} (k : Nat) (x : α) (t : Tbl α) (h : keysRise ((k, x) :: t) = true) : keysRise t = true := by
  cases t with
  | nil => rfl
  | cons q t =>
    simp only [keysRise, Bool.and_eq_true] at h
    exact h.2

theorem keysRise_head {α : Type} (k : Nat) (x : α) (t : Tbl α) :
    keysRise ((k, x) :: t) = true ↔ keysRise t = true ∧ ∀ p, t.head? = some p → k < p.1 := by
  cases t with
  | nil => simp [keysRise]
  | cons q t => simp [keysRise, and_comm]

theorem Tbl.head_set {α : Type} (t : Tbl α) (k : Nat) (x : α) (p : Nat × α) (h : (Tbl.set t k x).head? = some p) :
    p.1 = k ∨ t.head? = some p := by
  cases t with
  | nil =>
    simp only [Tbl.set, List.head?_cons, Option.some.injEq] at h
    exact .inl (by rw [← h])
  | cons q t =>
    obtain ⟨j, y⟩ := q
    simp only [Tbl.set] at h
    split at h
    · simp only [List.head?_cons, Option.some.injEq] at h
      exact .inl (by rw [← h])
    · split at h
      · simp only [List.head?_cons, Option.some.injEq] at h
        exact .inl (by rw [← h])
      · exact .inr h

/-- Setting an entry keeps the keys rising. -/
theorem keysRise_set {α : Type} (t : Tbl α) (k : Nat) (x : α) (h : keysRise t = true) : keysRise (Tbl.set t k x) = true := by
  induction t with
  | nil => rfl
  | cons q t ih =>
    obtain ⟨j, y⟩ := q
    have hd := (keysRise_head j y t).1 h
    simp only [Tbl.set]
    split
    · rename_i e
      subst e
      exact (keysRise_head k x t).2 hd
    · split
      · refine (keysRise_head k x _).2 ⟨h, fun p hp => ?_⟩
        simp only [List.head?_cons, Option.some.injEq] at hp
        rw [← hp]
        assumption
      · refine (keysRise_head j y _).2 ⟨ih hd.1, fun p hp => ?_⟩
        rcases Tbl.head_set t k x p hp with e | e
        · omega
        · exact hd.2 p e

end Sys2Proof.Machine
end

