-- ==== Sys2Proof/Laws/Tables.lean ====
section
/-!
SUPPORT. Sys2Proof/Laws/Tables.lean: what reading a table after setting or deleting an entry gives.
-/
namespace Sys2Proof

/-- Reading a table after setting an entry. -/
theorem Tbl.find?_set {α : Type} (t : Tbl α) (k j : Nat) (x : α) :
    Tbl.find? (Tbl.set t k x) j = if k = j then some x else Tbl.find? t j := by
  induction t with
  | nil => simp [Tbl.set, Tbl.find?]
  | cons p t ih =>
    obtain ⟨i, y⟩ := p
    simp only [Tbl.set]
    split
    · rename_i h
      subst h
      simp only [Tbl.find?]
      split <;> rfl
    · split
      · simp only [Tbl.find?]
      · simp only [Tbl.find?, ih]
        rename_i h _
        split
        · rename_i e
          subst e
          rw [if_neg h]
        · rfl

@[simp] theorem Tbl.find?_set_same {α : Type} (t : Tbl α) (k : Nat) (x : α) : Tbl.find? (Tbl.set t k x) k = some x := by
  rw [Tbl.find?_set, if_pos rfl]

theorem Tbl.find?_set_ne {α : Type} (t : Tbl α) (k j : Nat) (x : α) (h : k ≠ j) :
    Tbl.find? (Tbl.set t k x) j = Tbl.find? t j := by
  rw [Tbl.find?_set, if_neg h]

@[simp] theorem Tbl.getD_set_same {α : Type} (t : Tbl α) (k : Nat) (x d : α) : Tbl.getD (Tbl.set t k x) k d = x := by
  simp [Tbl.getD]

theorem Tbl.getD_set_ne {α : Type} (t : Tbl α) (k j : Nat) (x d : α) (h : k ≠ j) :
    Tbl.getD (Tbl.set t k x) j d = Tbl.getD t j d := by
  simp [Tbl.getD, Tbl.find?_set_ne _ _ _ _ h]

/-- An entry of a table after setting one is that one or an entry of before. -/
theorem Tbl.mem_set {α : Type} (t : Tbl α) (k : Nat) (x : α) (e : Nat × α) (h : e ∈ Tbl.set t k x) : e = (k, x) ∨ e ∈ t := by
  induction t with
  | nil => exact .inl (by simpa [Tbl.set] using h)
  | cons p t ih =>
    obtain ⟨i, y⟩ := p
    simp only [Tbl.set] at h
    split at h
    · rcases List.mem_cons.1 h with g | g
      · exact .inl g
      · exact .inr (List.mem_cons_of_mem _ g)
    · split at h
      · exact (List.mem_cons.1 h).imp id id
      · rcases List.mem_cons.1 h with g | g
        · exact .inr (g ▸ List.mem_cons_self ..)
        · exact (ih g).imp id (List.mem_cons_of_mem _)

/-- Setting an entry twice leaves the last. -/
theorem Tbl.set_set {α : Type} (t : Tbl α) (k : Nat) (x y : α) : Tbl.set (Tbl.set t k x) k y = Tbl.set t k y := by
  induction t with
  | nil => simp [Tbl.set]
  | cons p t ih =>
    obtain ⟨i, z⟩ := p
    by_cases h : k = i
    · simp [Tbl.set, h]
    · by_cases g : k < i
      · simp [Tbl.set, h, g]
      · simp [Tbl.set, h, g, ih]

end Sys2Proof

namespace Sys2Proof.Machine

/-- A word of a list after a word of it is set. -/
theorem wAt_set (l : List Word) (d n : Nat) (v : Word) (h : n < l.length) :
    wAt (l.set d v) n = if d = n then v else wAt l n := by
  unfold wAt
  by_cases e : d = n
  · subst e
    simp [List.getD_eq_getElem?_getD, h]
  · simp [List.getD_eq_getElem?_getD, List.getElem?_set_ne e, e]

end Sys2Proof.Machine
end

