-- ==== Sys2Proof/Laws/Home.lean ====
section
/-!
SUPPORT. Sys2Proof/Laws/Home.lean: what the operations over homes, L1s and translations can change, said once: a step over
memory. The provers cite it and unfold none of them.
-/
namespace Sys2Proof.Machine

/-- All that an operation over homes, L1s, fault records and translations can do: memory, poison, the L1s and L2s, the directory,
helped lines, what VFs and partitions hold, translations, fault records, reports of other parties and the hypervisor's interrupts may
differ, and of a group its fences alone. Memory keeps its canonical form, and the L1s stay a table. -/
structure MemStep (s t : State) : Prop where
  rest : t = { s with
    mem := t.mem, poison := t.poison, l1 := t.l1, l2 := t.l2, dir := t.dir, helped := t.helped, vfs := t.vfs, parts := t.parts
    trapQ := t.trapQ, tlb := t.tlb, utlb := t.utlb, wcache := t.wcache, free := t.free, fkeys := t.fkeys, frecs := t.frecs
    groups := t.groups, rmem := t.rmem, dev := { s.dev with prov := t.dev.prov } }
  groups : ∃ f : Nat × Group → List FenceRec, t.groups = s.groups.map fun p => (p.1, { p.2 with fences := f p })
  wf : Memory.wf s.mem = true → Memory.wf t.mem = true
  l1 : L1Ok s → L1Ok t

namespace MemStep

theorem refl (s : State) : MemStep s s :=
  ⟨rfl, ⟨fun p => p.2.fences, by simp⟩, id, id⟩

theorem trans {s t u : State} (h : MemStep s t) (k : MemStep t u) : MemStep s u := by
  refine ⟨?_, ?_, k.wf ∘ h.wf, k.l1 ∘ h.l1⟩
  · have hr := h.rest
    have kr := k.rest
    rw [hr] at kr
    exact kr
  · obtain ⟨f, hf⟩ := h.groups
    obtain ⟨g, hg⟩ := k.groups
    exact ⟨fun p => g (p.1, { p.2 with fences := f p }), by rw [hg, hf, List.map_map]; rfl⟩

/-- Many of them, one after another. -/
theorem foldl {α : Type} (f : State → α → State) (h : ∀ s a, MemStep s (f s a)) (l : List α) (s : State) :
    MemStep s (l.foldl f s) := by
  induction l generalizing s with
  | nil => exact refl s
  | cons a t ih => exact (h s a).trans (ih (f s a))

theorem ite {s t u : State} (c : Prop) [Decidable c] (h : MemStep s t) (k : MemStep s u) : MemStep s (if c then t else u) := by
  split
  · exact h
  · exact k

/-- A change of fields that are neither memory nor the L1s nor the groups. -/
theorem side {s t : State} (hm : t.mem = s.mem) (hl : t.l1 = s.l1) (hg : t.groups = s.groups)
    (h : t = { s with poison := t.poison, l2 := t.l2, dir := t.dir, helped := t.helped, vfs := t.vfs, parts := t.parts
                      trapQ := t.trapQ, tlb := t.tlb, utlb := t.utlb, wcache := t.wcache, free := t.free, fkeys := t.fkeys
                      frecs := t.frecs, rmem := t.rmem, dev := { s.dev with prov := t.dev.prov } }) : MemStep s t := by
  refine ⟨?_, ⟨fun p => p.2.fences, by rw [hg]; simp⟩, fun w => by rwa [hm], fun w => ?_⟩
  · rw [hm, hl, hg]
    exact h
  · unfold L1Ok at *
    rwa [hl]

/-! ### What follows -/

theorem find (k : Nat) {s t : State} (h : MemStep s t) :
    ∃ f : Nat × Group → List FenceRec, t.groups.find? k = (s.groups.find? k).map fun g => { g with fences := f (k, g) } := by
  obtain ⟨f, hf⟩ := h.groups
  refine ⟨f, ?_⟩
  rw [hf]
  generalize s.groups = l
  induction l with
  | nil => rfl
  | cons p l ih =>
    obtain ⟨j, y⟩ := p
    simp only [List.map_cons, Tbl.find?]
    split
    · rename_i e
      subst e
      rfl
    · exact ih

/-- A group is as before but for its fences. -/
theorem grp {s t : State} (h : MemStep s t) (k : Nat) : t.grp k = { s.grp k with fences := (t.grp k).fences } := by
  obtain ⟨f, hf⟩ := h.find k
  unfold State.grp Tbl.getD
  rw [hf]
  cases s.groups.find? k <;> rfl

theorem isSome {s t : State} (h : MemStep s t) (k : Nat) : (t.groups.find? k).isSome = (s.groups.find? k).isSome := by
  obtain ⟨f, hf⟩ := h.find k
  rw [hf, Option.isSome_map]

theorem keys {s t : State} (h : MemStep s t) (w : keysRise s.groups = true) : keysRise t.groups = true := by
  obtain ⟨f, hf⟩ := h.groups
  rw [hf]
  clear hf h
  generalize s.groups = l at *
  induction l with
  | nil => rfl
  | cons p l ih =>
    obtain ⟨k, x⟩ := p
    rw [keysRise_head] at w
    simp only [List.map_cons]
    rw [keysRise_head]
    refine ⟨ih w.1, fun q hq => ?_⟩
    rw [List.head?_map] at hq
    cases hl : l.head? with
    | none => simp [hl] at hq
    | some r =>
      rw [hl] at hq
      simp only [Option.map_some, Option.some.injEq] at hq
      rw [← hq]
      exact w.2 r hl

theorem units {s t : State} (h : MemStep s t) : t.units = s.units := by rw [h.rest]
theorem works {s t : State} (h : MemStep s t) : t.works = s.works := by rw [h.rest]
theorem cores {s t : State} (h : MemStep s t) : t.cores = s.cores := by rw [h.rest]
theorem clusters {s t : State} (h : MemStep s t) : t.clusters = s.clusters := by rw [h.rest]
theorem helms {s t : State} (h : MemStep s t) : t.helms = s.helms := by rw [h.rest]
theorem dies {s t : State} (h : MemStep s t) : t.dies = s.dies := by rw [h.rest]
theorem ctxs {s t : State} (h : MemStep s t) : t.ctxs = s.ctxs := by rw [h.rest]
theorem copies {s t : State} (h : MemStep s t) : t.copies = s.copies := by rw [h.rest]
theorem drafts {s t : State} (h : MemStep s t) : t.drafts = s.drafts := by rw [h.rest]
theorem dev {s t : State} (h : MemStep s t) : t.dev = { s.dev with prov := t.dev.prov } := by rw [h.rest]
theorem sys {s t : State} (h : MemStep s t) : t.sys = s.sys := by rw [h.rest]
theorem cur {s t : State} (h : MemStep s t) : t.cur = s.cur := by rw [h.rest]
theorem iw {s t : State} (h : MemStep s t) : t.iw = s.iw := by rw [h.rest]

/-- The canonical form of the state is kept. -/
theorem canonical {s t : State} (h : MemStep s t) (c : Canonical s) : Canonical t :=
  ⟨h.wf c.1, h.keys c.2.1, by rw [h.cores]; exact c.2.2.1, h.l1 c.2.2.2⟩

end MemStep

/-! ## The L1s -/

theorem L1At_ok (s : State) (core line : Nat) (h : L1Ok s) : (s.l1At core line).ok := by
  unfold State.l1At
  cases e : s.l1.find? fun l => l.core = core && l.line = line with
  | none => simp [L1Line.blank, L1Line.ok]
  | some l => exact h.2 l (List.mem_of_find?_eq_some e)

theorem L1At_core (s : State) (core line : Nat) : (s.l1At core line).core = core ∧ (s.l1At core line).line = line := by
  unfold State.l1At
  cases e : s.l1.find? fun l => l.core = core && l.line = line with
  | none => exact ⟨rfl, rfl⟩
  | some l => simpa using List.find?_some e

/-- A line put into the L1s keeps them a table. -/
theorem L1Ok_putL1 (s : State) (x : L1Line) (w : L1Ok s) (hx : x.ok) : L1Ok (s.putL1 x) := by
  refine ⟨?_, ?_⟩
  · unfold State.putL1
    simp only
    split
    · rw [List.pairwise_append]
      refine ⟨w.1.filter _, by simp, fun a ha b hb => ?_⟩
      simp only [List.mem_singleton] at hb
      subst hb
      simp only [List.mem_filter, Bool.not_eq_true', Bool.and_eq_false_iff, decide_eq_false_iff_not] at ha
      intro hc
      rcases ha.2 with g | g
      · exact g hc.1
      · exact g hc.2
    · exact w.1.filter _
  · intro l hl
    unfold State.putL1 at hl
    simp only at hl
    split at hl
    · rcases List.mem_append.1 hl with g | g
      · exact w.2 l (List.mem_filter.1 g).1
      · rw [List.mem_singleton.1 g]
        exact hx
    · exact w.2 l (List.mem_filter.1 hl).1

/-- A line put into the L1s after a step over memory; its form may rest on the L1s of before. -/
theorem MemStep.putL1 {s u : State} (h : MemStep s u) (x : L1Line) (hx : L1Ok s → x.ok) :
    MemStep s (u.putL1 x) := by
  obtain ⟨f, hf⟩ := h.groups
  refine ⟨?_, ⟨f, hf⟩, h.wf, fun w => L1Ok_putL1 u x (h.l1 w) (hx w)⟩
  have hr := h.rest
  unfold State.putL1
  rw [hr]

/-- An entry of an L1 changed but for its bytes and with no further deltas, put back. -/
theorem MemStep.reL1 (s : State) (c line : Nat) (x : L1Line) (hx : x.bytes = (s.l1At c line).bytes)
    (hu : x.upd ⊆ (s.l1At c line).upd) : MemStep s (s.putL1 x) :=
  (MemStep.refl s).putL1 x fun w => ⟨by rw [hx]; exact (L1At_ok s c line w).1, fun e he => (L1At_ok s c line w).2 e (hu he)⟩

/-! ## The directory and logs -/

theorem MemStep.putDir (s : State) (line : Nat) (d : DirLine) : MemStep s (s.putDir line d) := by
  unfold State.putDir
  split <;> exact .side rfl rfl rfl rfl

theorem MemStep.record (s : State) (core line : Nat) (sp : Nat × Nat) (d : Bool) : MemStep s (s.record core line sp d) :=
  .putDir ..

theorem MemStep.unrecord (s : State) (core line : Nat) (w : BitVec 32) : MemStep s (s.unrecord core line w) := .putDir ..

theorem MemStep.setVf (s : State) (v : Nat) (x : VfSt) : MemStep s (s.setVf v x) := .side rfl rfl rfl rfl

theorem MemStep.setPart (s : State) (p : Nat) (x : PartSt) : MemStep s (s.setPart p x) := .side rfl rfl rfl rfl

theorem MemStep.tick (s : State) : MemStep s s.tick := .side rfl rfl rfl rfl

/-- A change of memory, poison and helped lines alone that keeps the canonical form. -/
theorem MemStep.memory {s t : State} (h : t = { s with mem := t.mem, poison := t.poison, helped := t.helped })
    (w : Memory.wf s.mem = true → Memory.wf t.mem = true) : MemStep s t := by
  have hg : t.groups = s.groups := by rw [h]
  have hl : t.l1 = s.l1 := by rw [h]
  refine ⟨?_, ⟨fun p => p.2.fences, by rw [hg]; simp⟩, w, fun k => ?_⟩
  · rw [h]
  · unfold L1Ok at *
    rwa [hl]

/-- The L2 of a line touched. -/
theorem MemStep.l2Touch (s : State) (line : Nat) (w : Bool) (v : Option Nat) : MemStep s (s.l2Touch line w v) :=
  .side rfl rfl rfl rfl

theorem MemStep.l2Writes (s : State) (line : Nat) (vs : List (Nat × Nat)) : MemStep s (s.l2Writes line vs) :=
  (MemStep.l2Touch s ..).trans (.foldl _ (fun s _ => .l2Touch s ..) vs _)

/-! ## Homes -/

/-- Spans invalidated. -/
theorem MemStep.invalidate (s : State) (line : Nat) (w : BitVec 32) (except : Nat → Bool) :
    MemStep s (s.invalidate line w except) := by
  unfold State.invalidate
  refine .foldl _ (fun s c => ?_) _ s
  exact .ite _ (.refl s) ((MemStep.reL1 s c line _ (by rfl) (by simp)).trans (.unrecord ..))

/-- Fences count fewer bytes. -/
theorem MemStep.fenceDone (s : State) (cl line : Nat) (d : BitVec 128) : MemStep s (s.fenceDone cl line d) := by
  refine ⟨rfl, ⟨fun p => if coreCl p.2.core = cl then p.2.fences.map fun f => f.reached line d else p.2.fences, ?_⟩, id, id⟩
  refine List.map_congr_left fun p _ => ?_
  by_cases h : coreCl p.2.core = cl <;> simp [h]

theorem Mem.wf_mask (m : Mem) (f : Nat → Bool) (a : Nat → Nat) (b : Nat → Byte) (l : List Nat) (w : Memory.wf m = true) :
    Memory.wf (l.foldl (fun mm i => if f i then mm.write (a i) (b i) else mm) m) = true := by
  induction l generalizing m with
  | nil => exact w
  | cons i t ih =>
    refine ih _ ?_
    by_cases h : f i = true
    · simpa [h] using Mem.wf_write m _ _ w
    · simpa [h] using w

/-- Bytes under a mask stored, their poison gone, and a line put into the L1s. -/
theorem MemStep.mask {s u : State} (h : MemStep s u) (f : Nat → Bool) (a : Nat → Nat) (b : Nat → Byte) (p : List Nat)
    (core line : Nat) (x : L1Line) (w : BitVec 32) (hx : L1Ok s → x.ok) :
    MemStep s (({ u with
      mem := (List.range 128).foldl (fun mm i => if f i then mm.write (a i) (b i) else mm) u.mem
      poison := p }.putL1 x).unrecord core line w) :=
  ((h.trans (.memory rfl (Mem.wf_mask _ f a b _))).putL1 x hx).trans (.unrecord ..)

/-! What follows rests on a log that is itself a step over memory. -/

/-- A log of writes that is a step over memory. -/
abbrev Logs (log : State → Nat × Nat → State) : Prop := ∀ s v, MemStep s (log s v)

theorem MemStep.mergeWith {log : State → Nat × Nat → State} (hl : Logs log) (s : State) (core line : Nat) (m : BitVec 128) :
    MemStep s (s.mergeWith log core line m) := by
  unfold State.mergeWith
  refine .ite _ (.refl s) ?_
  extract_lets l u l2 d v w mem
  have hu : MemStep s u := .foldl _ (fun s _ => hl s _) _ _
  have hx : L1Ok s → l2.ok := fun k => L1At_ok u core line (hu.l1 k)
  clear_value u l2
  have hv : MemStep s v := hu.trans (.invalidate ..)
  clear_value v
  have hw : MemStep s w := hv.trans (.l2Writes ..)
  clear_value w d
  refine MemStep.trans ?_ (.fenceDone ..)
  exact hw.mask _ _ _ _ _ _ _ _ hx

theorem MemStep.recallWith {log : State → Nat × Nat → State} (hl : Logs log) (s : State) (line : Nat) (m : BitVec 128)
    (which : Nat → Bool) : MemStep s (s.recallWith log line m which) := by
  have k : ∀ l s, MemStep s (recallClaims log line m which l s) := by
    intro l
    induction l with
    | nil => exact .refl
    | cons c cs ih => exact fun s => MemStep.trans (.ite _ (.mergeWith hl ..) (.refl s)) (ih _)
  unfold State.recallWith
  exact (k _ s).trans (.foldl _ (fun s c => .ite _ (.mergeWith hl ..) (.refl s)) _ _)

theorem MemStep.clearHm (s : State) (line : Nat) : MemStep s (s.clearHm line) := by
  unfold State.clearHm
  exact .ite _ (.memory rfl (Mem.wf_write _ _ _)) (.refl s)

theorem MemStep.report (s : State) (rung key party cause : Nat) (info : Word) : MemStep s (s.report rung key party cause info) :=
  .side rfl rfl rfl rfl

theorem MemStep.putWith {log : State → Nat × Nat → State} (hl : Logs log) (s : State) (vs : List (Nat × Nat)) (pa : Nat)
    (b : List Byte) : MemStep s (s.putWith log vs pa b) :=
  ((MemStep.foldl log hl vs s).trans (.l2Writes ..)).trans (.memory rfl (Mem.wf_store _ _ _))

/-- One delta combined at the home, dropped and reported where the line is helped or the word poisoned. -/
theorem MemStep.deltaWith {log : State → Nat × Nat → State} (hl : Logs log) (s : State) (l : L1Line)
    (e : Nat × Nat × Word × Nat) : MemStep s (s.deltaWith log l e) := by
  unfold State.deltaWith
  refine .ite _ (.report ..) ((MemStep.recallWith hl ..).trans (.ite _ (.report ..) ?_))
  exact ((MemStep.invalidate ..).trans (.clearHm ..)).trans (.putWith hl ..)

theorem MemStep.combineOneWith {log : State → Nat × Nat → State} (hl : Logs log) (s : State) (l : L1Line) :
    MemStep s (s.combineOneWith log l) := by
  unfold State.combineOneWith
  refine (MemStep.foldl (fun s e => s.deltaWith log l e) (fun s e => .deltaWith hl s l e) l.upd s).trans ?_
  generalize l.upd.foldl (fun s e => s.deltaWith log l e) s = u
  exact (MemStep.reL1 u l.core l.line _ (by rfl) (by simp)).trans (.unrecord ..)

theorem MemStep.combineWith {log : State → Nat × Nat → State} (hl : Logs log) (s : State) (line : Nat) :
    MemStep s (s.combineWith log line) :=
  MemStep.foldl (fun s l => s.combineOneWith log l) (MemStep.combineOneWith hl) _ s

/-- A bitmap's byte made ready for a write, and its bit set. -/
theorem MemStep.dlogReady {log : State → Nat × Nat → State} (hl : Logs log) (s : State) (a : Nat) :
    MemStep s (s.dlogReady log a) :=
  (((MemStep.combineWith hl s _).trans (.recallWith hl ..)).trans (.invalidate ..)).trans (.l2Touch ..)

theorem MemStep.dlogBit {ready : State → Nat → State} (hr : ∀ s a, MemStep s (ready s a)) : Logs (State.dlogBit ready) := by
  intro s v
  unfold State.dlogBit
  exact .ite _ (.ite _ ((hr ..).trans (.memory rfl (Mem.wf_write _ _ _))) (.setVf ..)) (.refl s)

/-- The dirty log is a step over memory. -/
theorem MemStep.dlogSet : Logs State.dlogSet :=
  .dlogBit fun s a => .dlogReady (.dlogBit fun s a => .dlogReady (.dlogBit fun s _ => .refl s) s a) s a

theorem MemStep.mergeDirty (s : State) (core line : Nat) (m : BitVec 128) : MemStep s (s.mergeDirty core line m) :=
  .mergeWith .dlogSet ..

theorem MemStep.recallDirty (s : State) (line : Nat) (m : BitVec 128) (which : Nat → Bool) :
    MemStep s (s.recallDirty line m which) := .recallWith .dlogSet ..

theorem MemStep.putHome (s : State) (v : Option (Nat × Nat)) (pa : Nat) (b : List Byte) : MemStep s (s.putHome v pa b) :=
  .putWith .dlogSet ..

theorem MemStep.combineOne (s : State) (l : L1Line) : MemStep s (s.combineOne l) := .combineOneWith .dlogSet ..

theorem MemStep.combine (s : State) (line : Nat) : MemStep s (s.combine line) := .combineWith .dlogSet ..

theorem MemStep.remoteKeep (s : State) (pa : Nat) (b : List Byte) : MemStep s (s.remoteKeep pa b) := .side rfl rfl rfl rfl

/-- A write performed at its home. -/
theorem MemStep.homeWrites (s : State) (vs : List (Nat × Nat)) (pa : Nat) (b : List Byte) : MemStep s (s.homeWrites vs pa b) := by
  unfold State.homeWrites
  refine .ite _ (.remoteKeep ..) ?_
  exact ((((MemStep.combine s _).trans (.recallDirty ..)).trans (.invalidate ..)).trans (.clearHm ..)).trans (.putWith .dlogSet ..)

theorem MemStep.homeWrite (s : State) (v : Option (Nat × Nat)) (pa : Nat) (b : List Byte) : MemStep s (s.homeWrite v pa b) :=
  .homeWrites ..

/-- A read at a home. -/
theorem MemStep.homeRead (s : State) (pa n : Nat) : MemStep s (s.homeRead pa n).1 := by
  unfold State.homeRead
  split
  · exact .remoteKeep ..
  · exact (MemStep.combine s (pa / 128)).trans (.l2Touch (s.combine (pa / 128)) (pa / 128) false none)

/-- An L1 line written back. -/
theorem MemStep.writeBack (s : State) (core line : Nat) : MemStep s (s.writeBack core line) := by
  unfold State.writeBack
  have hb := L1At_ok s core line
  generalize s.l1At core line = l at hb ⊢
  have k : MemStep s (((s.putL1 (l.clean l.dirty)).unrecord core line (wordsOf l.dirty)).fenceDone (core / 4) line l.dirty) :=
    ((MemStep.putL1 (.refl s) (l.clean l.dirty) fun w => hb w).trans (.unrecord ..)).trans (.fenceDone ..)
  refine .ite _ (.refl s) (.ite _ k ?_)
  exact (((MemStep.combine s line).trans (.recallDirty ..)).trans (.clearHm ..)).trans (.mergeDirty ..)

theorem MemStep.flushCluster (s : State) (cl pa : Nat) : MemStep s (s.flushCluster cl pa) := 
  MemStep.foldl (fun s c => s.writeBack c (pa / 128)) (fun s c => .writeBack s c _) _ s

/-! ## Translation -/

/-- The compare-and-swap of a table entry. -/
theorem MemStep.swapEntry (s : State) (v : Option (Nat × Nat)) (at_ old new : Nat) : MemStep s (s.swapEntry v at_ old new).1 := by
  unfold State.swapEntry
  extract_lets r
  have h : MemStep s r.1 := ((MemStep.combine ..).trans (.recallDirty ..)).trans (.homeRead ..)
  split
  · exact h.trans (.homeWrite ..)
  · exact h

theorem MemStep.touch (s : State) (v : Option (Nat × Nat)) (l : Leaf) (w : Bool) : MemStep s (s.touch v l w).1 := by
  unfold State.touch
  split
  · exact .refl s
  · exact .swapEntry ..

/-- A read of a table entry, and the walk of stage 2. -/
theorem MemStep.readHome (s : State) (cl : Option Nat) (pa : Nat) : MemStep s (s.readHome cl pa) := by
  unfold State.readHome
  cases cl with
  | none => exact .homeRead ..
  | some c => exact (MemStep.flushCluster ..).trans (.homeRead ..)

theorem MemStep.keepEntry (s : State) (cl : Option Nat) (vf : Nat) (g : Bool) (ctx at_ e l a : Nat) :
    MemStep s (s.keepEntry cl vf g ctx at_ e l a) := by
  unfold State.keepEntry
  split
  · exact .refl s
  · exact .side rfl rfl rfl rfl

theorem MemStep.walked2 (cl : Option Nat) (vf a : Nat) (ls : List Nat) (tbl : Nat) (s : State) :
    MemStep s (Machine.walked2 cl vf a ls tbl s) := by
  induction ls generalizing tbl s with
  | nil => exact .refl s
  | cons l ls ih =>
    unfold Machine.walked2
    exact (MemStep.readHome ..).trans (.ite _ ((MemStep.keepEntry ..).trans (ih _ _)) (.refl _))

theorem MemStep.walked (s : State) (cl : Option Nat) (vf a : Nat) : MemStep s (s.walked cl vf a) :=
  .ite _ (.walked2 ..) (.refl s)

/-- A use of a VF address, for a cluster or by the machine's own units, and of a trap block. -/
theorem MemStep.useFrom (cl : Option Nat) (vf a : Nat) (r w x : Bool) (n : Nat) (s : State) :
    MemStep s (Machine.useFrom cl vf a r w x n s).1 := by
  induction n generalizing s with
  | zero =>
    unfold Machine.useFrom
    dsimp only
    split
    · exact (MemStep.walked ..).trans (.touch ..)
    · exact .walked ..
  | succ n ih =>
    unfold Machine.useFrom
    dsimp only
    split
    · have h : ∀ l, MemStep s ((s.walked cl vf a).touch none l w).1 := fun l => (MemStep.walked ..).trans (.touch ..)
      split
      · exact h _
      · exact (h _).trans (ih _)
    · exact .walked ..

theorem MemStep.use2 (s : State) (cl : Option Nat) (vf a : Nat) (r w x : Bool) : MemStep s (s.use2 cl vf a r w x).1 := .useFrom ..

theorem MemStep.useAddr (s : State) (vf a : Nat) (w : Bool) : MemStep s (s.useAddr vf a w) := .use2 ..

theorem MemStep.useTrap (s : State) (key : Nat) (w : Bool) : MemStep s (s.useTrap key w) := by
  unfold State.useTrap
  split
  · exact .refl s
  · dsimp only
    split
    · exact (MemStep.useAddr ..).trans (.useAddr ..)
    · exact .useAddr ..

theorem MemStep.interrupt (s : State) (ps : List Nat) (b : Nat) : MemStep s (s.interrupt ps b) :=
  .foldl _ (fun _ _ => .setPart ..) ps s

theorem MemStep.putProv (s : State) (vf : Nat) (w : List Word) : MemStep s (s.putProv vf w) := by
  have h : ∀ b : List Byte, ∀ q, MemStep s ((s.homeWrite none (s.vf vf).pq.addr b).setVf vf q) := fun b q =>
    (MemStep.homeWrite s _ _ _).trans (.setVf ..)
  have k : ∀ u : State, MemStep u { u with dev := { u.dev with prov := u.dev.prov ++ [vf] } } := fun u => .side rfl rfl rfl rfl
  unfold State.putProv
  dsimp only
  split
  · exact (h _ _).trans (k _)
  · exact h _ _

theorem MemStep.frecs (s : State) (f : List HeldRec) : MemStep s { s with frecs := f } := .side rfl rfl rfl rfl

theorem MemStep.fkeys (s : State) (f : List FKey) : MemStep s { s with fkeys := f } := .side rfl rfl rfl rfl

theorem MemStep.postProv (s : State) (vf : Nat) (w : List Word) (k : FKey) : MemStep s (s.postProv vf w k) := by
  unfold State.postProv
  exact .ite _ (.putProv ..) (.frecs ..)

/-- A stage-2 fault recorded. -/
theorem MemStep.fault2 (s : State) (vf a kind lvl : Nat) (pm mf : Bool) (va ctx : Nat) (cid : Word) :
    MemStep s (s.fault2 vf a kind lvl pm mf va ctx cid).1 := by
  have k : ∀ u w k, MemStep s u → MemStep s (u.postProv vf w k) := fun u w k h => h.trans (.postProv ..)
  unfold State.fault2
  dsimp only
  split
  · exact .refl s
  · refine k _ _ _ ?_
    exact .ite _ (.refl s) (.fkeys ..)

theorem MemStep.putGuest (s : State) (vf : Nat) (w : List Word) (k : FKey) : MemStep s (s.putGuest vf w k) := by
  have hw := MemStep.use2 s none vf (s.vf vf).gq.addr false true false
  have held : ∀ u : State, ∀ lvl pm mf va ctx cid, MemStep s u →
      MemStep s { (u.fault2 vf (s.vf vf).gq.addr 8 lvl pm mf va ctx cid).1 with
        frecs := (u.fault2 vf (s.vf vf).gq.addr 8 lvl pm mf va ctx cid).1.frecs ++ [⟨false, vf, w, k⟩] } :=
    fun u lvl pm mf va ctx cid h => (h.trans (.fault2 ..)).trans (.frecs ..)
  unfold State.putGuest
  dsimp only
  generalize s.use2 none vf (s.vf vf).gq.addr false true false = u at hw ⊢
  split
  · have h : ∀ a : Nat, ∀ b : List Byte, ∀ f, MemStep s ((u.1.homeWrite (some (vf, (s.vf vf).gq.addr)) a b).setVf vf f) :=
      fun a b f => (hw.trans (.homeWrite ..)).trans (.setVf ..)
    exact .ite _ ((h _ _ _).trans (.interrupt ..)) (h _ _ _)
  all_goals exact held _ _ _ _ _ _ _ hw

theorem MemStep.postGuest (s : State) (vf : Nat) (w : List Word) (k : FKey) : MemStep s (s.postGuest vf w k) := by
  unfold State.postGuest
  exact .ite _ (.putGuest ..) (.frecs ..)

/-- A stage-1 fault recorded. -/
theorem MemStep.fault1 (s : State) (vf ctx va kind lvl : Nat) (mf : Bool) (cid : Word) :
    MemStep s (s.fault1 vf ctx va kind lvl mf cid).1 := by
  have k : ∀ u w k, MemStep s u → MemStep s (u.postGuest vf w k) := fun u w k h => h.trans (.postGuest ..)
  unfold State.fault1
  dsimp only
  split
  · exact .refl s
  · refine k _ _ _ ?_
    exact .ite _ (.refl s) (.fkeys ..)

theorem MemStep.walk1 (s : State) (cl : Option Nat) (vf ctx va kind : Nat) (cid : Word) (ls : List Nat) (tbl : Nat) :
    MemStep s (s.walk1 cl vf ctx va kind cid ls tbl).1 := by
  induction ls generalizing s tbl with
  | nil => exact .refl s
  | cons l ls ih =>
    unfold State.walk1
    dsimp only
    have hw := MemStep.use2 s cl vf (tbl + bits va (lvlShift l) 9 * 8) true false false
    generalize s.use2 cl vf (tbl + bits va (lvlShift l) 9 * 8) true false false = r at hw ⊢
    obtain ⟨u, o⟩ := r
    cases o with
    | bad k => exact hw.trans (.fault2 ..)
    | sec k => exact hw
    | fault k pm => exact hw.trans (.fault2 ..)
    | ok f =>
      dsimp only
      have h : MemStep s (u.readHome cl (f.out (tbl + bits va (lvlShift l) 9 * 8))) := hw.trans (.readHome ..)
      split
      · exact hw
      · split
        · exact h
        · split
          · exact h
          · split
            · exact h
            · exact (h.trans (.keepEntry ..)).trans (ih _ _)

theorem MemStep.touch1 (s : State) (cl : Option Nat) (vf ctx va : Nat) (cid : Word) (l : Leaf) (w : Bool) :
    MemStep s (s.touch1 cl vf ctx va cid l w).1 := by
  unfold State.touch1
  split
  · exact .refl s
  · have hw := MemStep.use2 s cl vf l.at_ true true false
    generalize s.use2 cl vf l.at_ true true false = r at hw ⊢
    obtain ⟨u, o⟩ := r
    cases o with
    | bad k => exact hw.trans (.fault2 ..)
    | sec k => exact hw
    | fault k pm => exact hw.trans (.fault2 ..)
    | ok f => exact hw.trans (.swapEntry ..)

theorem MemStep.tlbFill (s : State) (e : TlbE) (core : Option Nat) : MemStep s (s.tlbFill e core) := .side rfl rfl rfl rfl

/-- One walk of an access. -/
theorem MemStep.walkOnce (s : State) (last : Bool) (vf ctx va : Nat) (a : Access) (kind cl : Nat) (core : Option Nat) (cid : Word) :
    MemStep s (s.walkOnce last vf ctx va a kind cl core cid).1 := by
  unfold State.walkOnce
  split
  · exact .fault1 ..
  · rename_i da _
    have h0 := MemStep.use2 s (some cl) vf da true false false
    generalize s.use2 (some cl) vf da true false false = r at h0 ⊢
    obtain ⟨s0, o⟩ := r
    cases o with
    | bad k => exact h0.trans (.fault2 ..)
    | sec k => exact h0
    | fault k pm => exact h0.trans (.fault2 ..)
    | ok f =>
      dsimp only
      have h1 : MemStep s (s0.readHome (some cl) (f.out da)) := h0.trans (.readHome ..)
      generalize s0.readHome (some cl) (f.out da) = s1 at h1 ⊢
      generalize leWords (s1.homeView (f.out da) 64) 16 = d
      generalize (wAt d 0).toNat + (wAt d 1).toNat * 4294967296 = root
      split
      · exact h1.trans (.fault1 ..)
      · have hw := h1.trans (.walk1 s1 (some cl) vf ctx va kind cid [1, 2, 3, 4] (peOa root))
        generalize s1.walk1 (some cl) vf ctx va kind cid [1, 2, 3, 4] (peOa root) = r at hw ⊢
        obtain ⟨u, o⟩ := r
        cases o with
        | error t => exact hw
        | ok o =>
          cases o with
          | bad l => exact hw.trans (.fault1 ..)
          | invalid l => exact hw.trans (.fault1 ..)
          | leaf l =>
            dsimp only
            split
            · exact hw
            · have g2 : MemStep s (u.walked (some cl) vf (l.out va)) := hw.trans (.walked ..)
              generalize u.walked (some cl) vf (l.out va) = u2 at g2 ⊢
              cases u2.stage2For (some cl) vf (l.out va) (needR a) (needW a) (needX a) with
              | bad k => exact g2.trans (.fault2 ..)
              | sec => exact g2
              | fault k pm => exact g2.trans (.fault2 ..)
              | ok f =>
                dsimp only
                split
                · exact g2
                · have ht := g2.trans (.touch1 u2 (some cl) vf ctx va cid l (needW a))
                  generalize u2.touch1 (some cl) vf ctx va cid l (needW a) = r at ht ⊢
                  obtain ⟨v, x⟩ := r
                  cases x with
                  | error t => exact ht
                  | ok x =>
                    dsimp only
                    have hl : MemStep s (v.touch none f (needW a)).1 := ht.trans (.touch ..)
                    split
                    · exact ht
                    · split
                      · exact hl
                      · exact hl.trans (.tlbFill ..)

/-- The walk of an access, with its restarts. -/
theorem MemStep.walkFrom (vf ctx va : Nat) (a : Access) (kind cl : Nat) (core : Option Nat) (cid : Word) (n : Nat) (s : State) :
    MemStep s (Machine.walkFrom vf ctx va a kind cl core cid n s).1 := by
  induction n generalizing s with
  | zero => exact .walkOnce ..
  | succ n ih =>
    unfold Machine.walkFrom
    have h := MemStep.walkOnce s false vf ctx va a kind cl core cid
    generalize s.walkOnce false vf ctx va a kind cl core cid = r at h ⊢
    obtain ⟨u, o⟩ := r
    cases o with
    | some t => exact h
    | none => exact h.trans (ih _)

theorem MemStep.pageWalk (s : State) (vf ctx va : Nat) (a : Access) (kind cl : Nat) (core : Option Nat) (cid : Word) :
    MemStep s (s.pageWalk vf ctx va a kind cl core cid).1 := .walkFrom ..

/-- The translation of an access. -/
theorem MemStep.translate (s : State) (vf ctx va : Nat) (a : Access) (kind cl : Nat) (core : Option Nat) (cid : Word) :
    MemStep s (s.translate vf ctx va a kind cl core cid).1 := by
  unfold State.translate
  split
  · exact .pageWalk ..
  · dsimp only
    split
    · exact (MemStep.tick s).trans (.pageWalk ..)
    · split
      · exact .refl s
      · split
        · split
          · exact .refl s
          · exact .side rfl rfl rfl rfl
        · exact .refl s

/-- The access of a context to an address. -/
theorem MemStep.access (s : State) (key va : Nat) (a : Access) (kind core : Nat) : MemStep s (s.access key va a kind core).1 := by
  unfold State.access
  split
  · exact .refl s
  · exact .translate ..

/-! ## The L1 of a core -/

/-- A line evicted, and room made. -/
theorem MemStep.l1Evict (s : State) (c line : Nat) : MemStep s (s.l1Evict c line) := by
  unfold State.l1Evict
  extract_lets u v
  have hu : MemStep s u := by
    show MemStep s (if (s.l1At c line).upd = [] then s else s.combineOne (s.l1At c line))
    exact .ite _ (.refl s) (.combineOne ..)
  have hv : MemStep s v := hu.trans (.writeBack ..)
  clear_value v
  exact (hv.trans (.reL1 v c line _ (by rfl) (by exact fun _ h => h))).trans (.unrecord ..)

theorem MemStep.l1Room (s : State) (o line : Nat) : MemStep s (s.l1Room o line) := by
  unfold State.l1Room
  refine .ite _ (.refl s) ?_
  split
  · exact .l1Evict ..
  · exact .refl s

/-- A span filled into an L1. -/
theorem MemStep.l1Fill (s : State) (core pa n : Nat) : MemStep s (s.l1Fill core pa n) := by
  unfold State.l1Fill
  extract_lets o line u w l new b bad v sp
  have hb : b.length = 128 := by simp [b]
  have hu : MemStep s u := MemStep.l1Room ..
  have hl : L1Ok s → l.ok := fun h => L1At_ok u o line (hu.l1 h)
  have hv : MemStep s v := hu.trans (.l2Touch ..)
  clear_value b bad l v
  exact (hv.putL1 _ (by exact fun h => ⟨hb, (hl h).2⟩)).trans (.record ..)

theorem MemStep.claim (s : State) (o line : Nat) (sp : Nat × Nat) : MemStep s (s.claim o line sp) :=
  (MemStep.combine ..).trans (.record ..)

theorem length_setBytes (b : List (Byte × Nat)) (k : Nat) (l : List Byte) :
    (b.foldl (fun a p => a.set (k + p.2) p.1) l).length = l.length := by
  induction b generalizing l with
  | nil => rfl
  | cons p t ih => simp [ih]

/-- A store of cluster scope into an L1. -/
theorem MemStep.l1Store (s : State) (core : Nat) (v : Nat × Nat) (pa : Nat) (b : List Byte) : MemStep s (s.l1Store core v pa b) := by
  unfold State.l1Store
  extract_lets o line s1 s2 m l mates s3
  have h1 : MemStep s s1 := by
    show MemStep s (if (s.l1At o line).upd != [] then s.combine line else s)
    exact .ite _ (.combine ..) (.refl s)
  have h2 : MemStep s s2 := h1.trans (.l1Room ..)
  clear_value s2
  have h3 : MemStep s s3 := h2.trans (.putL1 (.refl s2) _ fun w => by
    have hl := L1At_ok s2 o line w
    exact ⟨(length_setBytes b.zipIdx (pa % 128) l.bytes).trans hl.1, hl.2⟩)
  clear_value s3 mates
  exact h3.trans (.foldl _ (fun s c => (MemStep.reL1 s c line _ (by rfl) (by exact fun _ h => h)).trans (.unrecord ..)) _ _)

/-- Dirty bytes marked as observed. -/
theorem MemStep.markSeen (s : State) (gid cl pa n : Nat) : MemStep s (s.markSeen gid cl pa n) := by
  refine ⟨rfl, ⟨fun p => p.2.fences, by simp [State.markSeen]⟩, id, fun w => ⟨?_, fun l hl => ?_⟩⟩
  · refine List.pairwise_map.2 (w.1.imp ?_)
    intro a b hab
    split <;> split <;> exact hab
  · obtain ⟨k, hk, rfl⟩ := List.mem_map.1 hl
    have := w.2 k hk
    split
    · exact this
    · exact this

/-- A reduction entering an update-only line. -/
theorem MemStep.redEnter (s : State) (core key : Nat) (v : Nat × Nat) (aop pa : Nat) (x : Word) :
    MemStep s (s.redEnter core key v aop pa x) := by
  unfold State.redEnter
  extract_lets o line s1 l s2 w s3 l3 d
  have h1 : MemStep s s1 := (MemStep.writeBack s o line).trans (.l1Room (s.writeBack o line) o line)
  clear_value s1
  have h2 : MemStep s s2 := h1.trans (.reL1 s1 o line _ (by rfl) (List.Subset.refl _))
  clear_value s2
  have h3 : MemStep s s3 := by
    refine h2.trans ?_
    show MemStep s2 (match (s2.l1At o line).upd.find? w with
      | some e => if e.1 = aop then s2 else s2.combine line
      | none => s2)
    split
    · exact .ite _ (.refl _) (.combine ..)
    · exact .refl _
  have hl : L1Ok s → l3.ok := fun h => L1At_ok s3 o line (h3.l1 h)
  have hw : w < 32 := by
    show pa % 128 / 4 < 32
    omega
  clear_value s3 d l3 w
  refine (h3.putL1 _ (by
    refine fun h => ⟨(hl h).1, fun e he => ?_⟩
    rcases Tbl.mem_set _ _ _ _ he with g | g
    · rw [g]
      exact hw
    · exact (hl h).2 e g)).trans (.record ..)

end Sys2Proof.Machine
end

