-- ==== Sys2Proof/Laws/State.lean ====
section
/-!
SUPPORT. Sys2Proof/Laws/State.lean: what each named update of the state leaves in each field, and what the accessors read
after it.
-/
namespace Sys2Proof.Machine

@[simp] theorem State.setGrp_groups (s : State) (g : Nat) (x : Group) : (s.setGrp g x).groups = s.groups.set g x := rfl
@[simp] theorem State.setGrp_units (s : State) (g : Nat) (x : Group) : (s.setGrp g x).units = s.units := rfl
@[simp] theorem State.setGrp_works (s : State) (g : Nat) (x : Group) : (s.setGrp g x).works = s.works := rfl
@[simp] theorem State.setGrp_cores (s : State) (g : Nat) (x : Group) : (s.setGrp g x).cores = s.cores := rfl
@[simp] theorem State.setGrp_clusters (s : State) (g : Nat) (x : Group) : (s.setGrp g x).clusters = s.clusters := rfl
@[simp] theorem State.setGrp_dies (s : State) (g : Nat) (x : Group) : (s.setGrp g x).dies = s.dies := rfl
@[simp] theorem State.setGrp_sys (s : State) (g : Nat) (x : Group) : (s.setGrp g x).sys = s.sys := rfl
@[simp] theorem State.setGrp_vfs (s : State) (g : Nat) (x : Group) : (s.setGrp g x).vfs = s.vfs := rfl
@[simp] theorem State.setGrp_parts (s : State) (g : Nat) (x : Group) : (s.setGrp g x).parts = s.parts := rfl
@[simp] theorem State.setGrp_ctxs (s : State) (g : Nat) (x : Group) : (s.setGrp g x).ctxs = s.ctxs := rfl
@[simp] theorem State.setGrp_helms (s : State) (g : Nat) (x : Group) : (s.setGrp g x).helms = s.helms := rfl
@[simp] theorem State.setGrp_copies (s : State) (g : Nat) (x : Group) : (s.setGrp g x).copies = s.copies := rfl
@[simp] theorem State.setGrp_dev (s : State) (g : Nat) (x : Group) : (s.setGrp g x).dev = s.dev := rfl
@[simp] theorem State.setGrp_mem (s : State) (g : Nat) (x : Group) : (s.setGrp g x).mem = s.mem := rfl
@[simp] theorem State.setGrp_poison (s : State) (g : Nat) (x : Group) : (s.setGrp g x).poison = s.poison := rfl
@[simp] theorem State.setGrp_helped (s : State) (g : Nat) (x : Group) : (s.setGrp g x).helped = s.helped := rfl
@[simp] theorem State.setGrp_l1 (s : State) (g : Nat) (x : Group) : (s.setGrp g x).l1 = s.l1 := rfl
@[simp] theorem State.setGrp_l2 (s : State) (g : Nat) (x : Group) : (s.setGrp g x).l2 = s.l2 := rfl
@[simp] theorem State.setGrp_dir (s : State) (g : Nat) (x : Group) : (s.setGrp g x).dir = s.dir := rfl
@[simp] theorem State.setGrp_drafts (s : State) (g : Nat) (x : Group) : (s.setGrp g x).drafts = s.drafts := rfl
@[simp] theorem State.setGrp_tlb (s : State) (g : Nat) (x : Group) : (s.setGrp g x).tlb = s.tlb := rfl
@[simp] theorem State.setGrp_utlb (s : State) (g : Nat) (x : Group) : (s.setGrp g x).utlb = s.utlb := rfl
@[simp] theorem State.setGrp_wcache (s : State) (g : Nat) (x : Group) : (s.setGrp g x).wcache = s.wcache := rfl
@[simp] theorem State.setGrp_invs (s : State) (g : Nat) (x : Group) : (s.setGrp g x).invs = s.invs := rfl
@[simp] theorem State.setGrp_fkeys (s : State) (g : Nat) (x : Group) : (s.setGrp g x).fkeys = s.fkeys := rfl
@[simp] theorem State.setGrp_frecs (s : State) (g : Nat) (x : Group) : (s.setGrp g x).frecs = s.frecs := rfl
@[simp] theorem State.setGrp_rmem (s : State) (g : Nat) (x : Group) : (s.setGrp g x).rmem = s.rmem := rfl
@[simp] theorem State.setGrp_trapQ (s : State) (g : Nat) (x : Group) : (s.setGrp g x).trapQ = s.trapQ := rfl
@[simp] theorem State.setGrp_iw (s : State) (g : Nat) (x : Group) : (s.setGrp g x).iw = s.iw := rfl
@[simp] theorem State.setGrp_cur (s : State) (g : Nat) (x : Group) : (s.setGrp g x).cur = s.cur := rfl
@[simp] theorem State.setGrp_curCl (s : State) (g : Nat) (x : Group) : (s.setGrp g x).curCl = s.curCl := rfl
@[simp] theorem State.setGrp_curSys (s : State) (g : Nat) (x : Group) : (s.setGrp g x).curSys = s.curSys := rfl
@[simp] theorem State.setGrp_agenda (s : State) (g : Nat) (x : Group) : (s.setGrp g x).agenda = s.agenda := rfl
@[simp] theorem State.setGrp_free (s : State) (g : Nat) (x : Group) : (s.setGrp g x).free = s.free := rfl
@[simp] theorem State.setGrp_grp_same (s : State) (g : Nat) (x : Group) : (s.setGrp g x).grp g = x := by simp [State.grp]
theorem State.setGrp_grp_ne (s : State) (g : Nat) (x : Group) (j : Nat) (h : g ≠ j) : (s.setGrp g x).grp j = s.grp j := by simp [State.grp, Tbl.getD_set_ne _ _ _ _ _ h]
@[simp] theorem State.setGrp_unit (s : State) (g : Nat) (x : Group) (j : Nat) : (s.setGrp g x).unit j = s.unit j := rfl
@[simp] theorem State.setGrp_work (s : State) (g : Nat) (x : Group) (j : Nat) : (s.setGrp g x).work j = s.work j := rfl
@[simp] theorem State.setGrp_core (s : State) (g : Nat) (x : Group) (j : Nat) : (s.setGrp g x).core j = s.core j := rfl
@[simp] theorem State.setGrp_cluster (s : State) (g : Nat) (x : Group) (j : Nat) : (s.setGrp g x).cluster j = s.cluster j := rfl
@[simp] theorem State.setGrp_die (s : State) (g : Nat) (x : Group) (j : Nat) : (s.setGrp g x).die j = s.die j := rfl
@[simp] theorem State.setGrp_vf (s : State) (g : Nat) (x : Group) (j : Nat) : (s.setGrp g x).vf j = s.vf j := rfl
@[simp] theorem State.setGrp_part (s : State) (g : Nat) (x : Group) (j : Nat) : (s.setGrp g x).part j = s.part j := rfl
@[simp] theorem State.setGrp_ctx (s : State) (g : Nat) (x : Group) (j : Nat) : (s.setGrp g x).ctx j = s.ctx j := rfl
@[simp] theorem State.setGrp_helm (s : State) (g : Nat) (x : Group) (i j : Nat) : (s.setGrp g x).helm i j = s.helm i j := rfl
@[simp] theorem State.setGrp_copy? (s : State) (g : Nat) (x : Group) (i : Nat) : (s.setGrp g x).copy? i = s.copy? i := rfl
@[simp] theorem State.setGrp_syscore (s : State) (g : Nat) (x : Group) (j : Nat) : (s.setGrp g x).syscore j = s.syscore j := rfl

@[simp] theorem State.setUnit_groups (s : State) (u : Nat) (x : UnitSt) : (s.setUnit u x).groups = s.groups := rfl
@[simp] theorem State.setUnit_units (s : State) (u : Nat) (x : UnitSt) : (s.setUnit u x).units = s.units.set u x := rfl
@[simp] theorem State.setUnit_works (s : State) (u : Nat) (x : UnitSt) : (s.setUnit u x).works = s.works := rfl
@[simp] theorem State.setUnit_cores (s : State) (u : Nat) (x : UnitSt) : (s.setUnit u x).cores = s.cores := rfl
@[simp] theorem State.setUnit_clusters (s : State) (u : Nat) (x : UnitSt) : (s.setUnit u x).clusters = s.clusters := rfl
@[simp] theorem State.setUnit_dies (s : State) (u : Nat) (x : UnitSt) : (s.setUnit u x).dies = s.dies := rfl
@[simp] theorem State.setUnit_sys (s : State) (u : Nat) (x : UnitSt) : (s.setUnit u x).sys = s.sys := rfl
@[simp] theorem State.setUnit_vfs (s : State) (u : Nat) (x : UnitSt) : (s.setUnit u x).vfs = s.vfs := rfl
@[simp] theorem State.setUnit_parts (s : State) (u : Nat) (x : UnitSt) : (s.setUnit u x).parts = s.parts := rfl
@[simp] theorem State.setUnit_ctxs (s : State) (u : Nat) (x : UnitSt) : (s.setUnit u x).ctxs = s.ctxs := rfl
@[simp] theorem State.setUnit_helms (s : State) (u : Nat) (x : UnitSt) : (s.setUnit u x).helms = s.helms := rfl
@[simp] theorem State.setUnit_copies (s : State) (u : Nat) (x : UnitSt) : (s.setUnit u x).copies = s.copies := rfl
@[simp] theorem State.setUnit_dev (s : State) (u : Nat) (x : UnitSt) : (s.setUnit u x).dev = s.dev := rfl
@[simp] theorem State.setUnit_mem (s : State) (u : Nat) (x : UnitSt) : (s.setUnit u x).mem = s.mem := rfl
@[simp] theorem State.setUnit_poison (s : State) (u : Nat) (x : UnitSt) : (s.setUnit u x).poison = s.poison := rfl
@[simp] theorem State.setUnit_helped (s : State) (u : Nat) (x : UnitSt) : (s.setUnit u x).helped = s.helped := rfl
@[simp] theorem State.setUnit_l1 (s : State) (u : Nat) (x : UnitSt) : (s.setUnit u x).l1 = s.l1 := rfl
@[simp] theorem State.setUnit_l2 (s : State) (u : Nat) (x : UnitSt) : (s.setUnit u x).l2 = s.l2 := rfl
@[simp] theorem State.setUnit_dir (s : State) (u : Nat) (x : UnitSt) : (s.setUnit u x).dir = s.dir := rfl
@[simp] theorem State.setUnit_drafts (s : State) (u : Nat) (x : UnitSt) : (s.setUnit u x).drafts = s.drafts := rfl
@[simp] theorem State.setUnit_tlb (s : State) (u : Nat) (x : UnitSt) : (s.setUnit u x).tlb = s.tlb := rfl
@[simp] theorem State.setUnit_utlb (s : State) (u : Nat) (x : UnitSt) : (s.setUnit u x).utlb = s.utlb := rfl
@[simp] theorem State.setUnit_wcache (s : State) (u : Nat) (x : UnitSt) : (s.setUnit u x).wcache = s.wcache := rfl
@[simp] theorem State.setUnit_invs (s : State) (u : Nat) (x : UnitSt) : (s.setUnit u x).invs = s.invs := rfl
@[simp] theorem State.setUnit_fkeys (s : State) (u : Nat) (x : UnitSt) : (s.setUnit u x).fkeys = s.fkeys := rfl
@[simp] theorem State.setUnit_frecs (s : State) (u : Nat) (x : UnitSt) : (s.setUnit u x).frecs = s.frecs := rfl
@[simp] theorem State.setUnit_rmem (s : State) (u : Nat) (x : UnitSt) : (s.setUnit u x).rmem = s.rmem := rfl
@[simp] theorem State.setUnit_trapQ (s : State) (u : Nat) (x : UnitSt) : (s.setUnit u x).trapQ = s.trapQ := rfl
@[simp] theorem State.setUnit_iw (s : State) (u : Nat) (x : UnitSt) : (s.setUnit u x).iw = s.iw := rfl
@[simp] theorem State.setUnit_cur (s : State) (u : Nat) (x : UnitSt) : (s.setUnit u x).cur = s.cur := rfl
@[simp] theorem State.setUnit_curCl (s : State) (u : Nat) (x : UnitSt) : (s.setUnit u x).curCl = s.curCl := rfl
@[simp] theorem State.setUnit_curSys (s : State) (u : Nat) (x : UnitSt) : (s.setUnit u x).curSys = s.curSys := rfl
@[simp] theorem State.setUnit_agenda (s : State) (u : Nat) (x : UnitSt) : (s.setUnit u x).agenda = s.agenda := rfl
@[simp] theorem State.setUnit_free (s : State) (u : Nat) (x : UnitSt) : (s.setUnit u x).free = s.free := rfl
@[simp] theorem State.setUnit_grp (s : State) (u : Nat) (x : UnitSt) (j : Nat) : (s.setUnit u x).grp j = s.grp j := rfl
@[simp] theorem State.setUnit_unit_same (s : State) (u : Nat) (x : UnitSt) : (s.setUnit u x).unit u = x := by simp [State.unit]
theorem State.setUnit_unit_ne (s : State) (u : Nat) (x : UnitSt) (j : Nat) (h : u ≠ j) : (s.setUnit u x).unit j = s.unit j := by simp [State.unit, Tbl.getD_set_ne _ _ _ _ _ h]
@[simp] theorem State.setUnit_work (s : State) (u : Nat) (x : UnitSt) (j : Nat) : (s.setUnit u x).work j = s.work j := rfl
@[simp] theorem State.setUnit_core (s : State) (u : Nat) (x : UnitSt) (j : Nat) : (s.setUnit u x).core j = s.core j := rfl
@[simp] theorem State.setUnit_cluster (s : State) (u : Nat) (x : UnitSt) (j : Nat) : (s.setUnit u x).cluster j = s.cluster j := rfl
@[simp] theorem State.setUnit_die (s : State) (u : Nat) (x : UnitSt) (j : Nat) : (s.setUnit u x).die j = s.die j := rfl
@[simp] theorem State.setUnit_vf (s : State) (u : Nat) (x : UnitSt) (j : Nat) : (s.setUnit u x).vf j = s.vf j := rfl
@[simp] theorem State.setUnit_part (s : State) (u : Nat) (x : UnitSt) (j : Nat) : (s.setUnit u x).part j = s.part j := rfl
@[simp] theorem State.setUnit_ctx (s : State) (u : Nat) (x : UnitSt) (j : Nat) : (s.setUnit u x).ctx j = s.ctx j := rfl
@[simp] theorem State.setUnit_helm (s : State) (u : Nat) (x : UnitSt) (i j : Nat) : (s.setUnit u x).helm i j = s.helm i j := rfl
@[simp] theorem State.setUnit_copy? (s : State) (u : Nat) (x : UnitSt) (i : Nat) : (s.setUnit u x).copy? i = s.copy? i := rfl
@[simp] theorem State.setUnit_syscore (s : State) (u : Nat) (x : UnitSt) (j : Nat) : (s.setUnit u x).syscore j = s.syscore j := rfl

@[simp] theorem State.setWork_groups (s : State) (w : Nat) (x : Work) : (s.setWork w x).groups = s.groups := rfl
@[simp] theorem State.setWork_units (s : State) (w : Nat) (x : Work) : (s.setWork w x).units = s.units := rfl
@[simp] theorem State.setWork_works (s : State) (w : Nat) (x : Work) : (s.setWork w x).works = s.works.set w x := rfl
@[simp] theorem State.setWork_cores (s : State) (w : Nat) (x : Work) : (s.setWork w x).cores = s.cores := rfl
@[simp] theorem State.setWork_clusters (s : State) (w : Nat) (x : Work) : (s.setWork w x).clusters = s.clusters := rfl
@[simp] theorem State.setWork_dies (s : State) (w : Nat) (x : Work) : (s.setWork w x).dies = s.dies := rfl
@[simp] theorem State.setWork_sys (s : State) (w : Nat) (x : Work) : (s.setWork w x).sys = s.sys := rfl
@[simp] theorem State.setWork_vfs (s : State) (w : Nat) (x : Work) : (s.setWork w x).vfs = s.vfs := rfl
@[simp] theorem State.setWork_parts (s : State) (w : Nat) (x : Work) : (s.setWork w x).parts = s.parts := rfl
@[simp] theorem State.setWork_ctxs (s : State) (w : Nat) (x : Work) : (s.setWork w x).ctxs = s.ctxs := rfl
@[simp] theorem State.setWork_helms (s : State) (w : Nat) (x : Work) : (s.setWork w x).helms = s.helms := rfl
@[simp] theorem State.setWork_copies (s : State) (w : Nat) (x : Work) : (s.setWork w x).copies = s.copies := rfl
@[simp] theorem State.setWork_dev (s : State) (w : Nat) (x : Work) : (s.setWork w x).dev = s.dev := rfl
@[simp] theorem State.setWork_mem (s : State) (w : Nat) (x : Work) : (s.setWork w x).mem = s.mem := rfl
@[simp] theorem State.setWork_poison (s : State) (w : Nat) (x : Work) : (s.setWork w x).poison = s.poison := rfl
@[simp] theorem State.setWork_helped (s : State) (w : Nat) (x : Work) : (s.setWork w x).helped = s.helped := rfl
@[simp] theorem State.setWork_l1 (s : State) (w : Nat) (x : Work) : (s.setWork w x).l1 = s.l1 := rfl
@[simp] theorem State.setWork_l2 (s : State) (w : Nat) (x : Work) : (s.setWork w x).l2 = s.l2 := rfl
@[simp] theorem State.setWork_dir (s : State) (w : Nat) (x : Work) : (s.setWork w x).dir = s.dir := rfl
@[simp] theorem State.setWork_drafts (s : State) (w : Nat) (x : Work) : (s.setWork w x).drafts = s.drafts := rfl
@[simp] theorem State.setWork_tlb (s : State) (w : Nat) (x : Work) : (s.setWork w x).tlb = s.tlb := rfl
@[simp] theorem State.setWork_utlb (s : State) (w : Nat) (x : Work) : (s.setWork w x).utlb = s.utlb := rfl
@[simp] theorem State.setWork_wcache (s : State) (w : Nat) (x : Work) : (s.setWork w x).wcache = s.wcache := rfl
@[simp] theorem State.setWork_invs (s : State) (w : Nat) (x : Work) : (s.setWork w x).invs = s.invs := rfl
@[simp] theorem State.setWork_fkeys (s : State) (w : Nat) (x : Work) : (s.setWork w x).fkeys = s.fkeys := rfl
@[simp] theorem State.setWork_frecs (s : State) (w : Nat) (x : Work) : (s.setWork w x).frecs = s.frecs := rfl
@[simp] theorem State.setWork_rmem (s : State) (w : Nat) (x : Work) : (s.setWork w x).rmem = s.rmem := rfl
@[simp] theorem State.setWork_trapQ (s : State) (w : Nat) (x : Work) : (s.setWork w x).trapQ = s.trapQ := rfl
@[simp] theorem State.setWork_iw (s : State) (w : Nat) (x : Work) : (s.setWork w x).iw = s.iw := rfl
@[simp] theorem State.setWork_cur (s : State) (w : Nat) (x : Work) : (s.setWork w x).cur = s.cur := rfl
@[simp] theorem State.setWork_curCl (s : State) (w : Nat) (x : Work) : (s.setWork w x).curCl = s.curCl := rfl
@[simp] theorem State.setWork_curSys (s : State) (w : Nat) (x : Work) : (s.setWork w x).curSys = s.curSys := rfl
@[simp] theorem State.setWork_agenda (s : State) (w : Nat) (x : Work) : (s.setWork w x).agenda = s.agenda := rfl
@[simp] theorem State.setWork_free (s : State) (w : Nat) (x : Work) : (s.setWork w x).free = s.free := rfl
@[simp] theorem State.setWork_grp (s : State) (w : Nat) (x : Work) (j : Nat) : (s.setWork w x).grp j = s.grp j := rfl
@[simp] theorem State.setWork_unit (s : State) (w : Nat) (x : Work) (j : Nat) : (s.setWork w x).unit j = s.unit j := rfl
@[simp] theorem State.setWork_work_same (s : State) (w : Nat) (x : Work) : (s.setWork w x).work w = x := by simp [State.work]
theorem State.setWork_work_ne (s : State) (w : Nat) (x : Work) (j : Nat) (h : w ≠ j) : (s.setWork w x).work j = s.work j := by simp [State.work, Tbl.getD_set_ne _ _ _ _ _ h]
@[simp] theorem State.setWork_core (s : State) (w : Nat) (x : Work) (j : Nat) : (s.setWork w x).core j = s.core j := rfl
@[simp] theorem State.setWork_cluster (s : State) (w : Nat) (x : Work) (j : Nat) : (s.setWork w x).cluster j = s.cluster j := rfl
@[simp] theorem State.setWork_die (s : State) (w : Nat) (x : Work) (j : Nat) : (s.setWork w x).die j = s.die j := rfl
@[simp] theorem State.setWork_vf (s : State) (w : Nat) (x : Work) (j : Nat) : (s.setWork w x).vf j = s.vf j := rfl
@[simp] theorem State.setWork_part (s : State) (w : Nat) (x : Work) (j : Nat) : (s.setWork w x).part j = s.part j := rfl
@[simp] theorem State.setWork_ctx (s : State) (w : Nat) (x : Work) (j : Nat) : (s.setWork w x).ctx j = s.ctx j := rfl
@[simp] theorem State.setWork_helm (s : State) (w : Nat) (x : Work) (i j : Nat) : (s.setWork w x).helm i j = s.helm i j := rfl
@[simp] theorem State.setWork_copy? (s : State) (w : Nat) (x : Work) (i : Nat) : (s.setWork w x).copy? i = s.copy? i := rfl
@[simp] theorem State.setWork_syscore (s : State) (w : Nat) (x : Work) (j : Nat) : (s.setWork w x).syscore j = s.syscore j := rfl

@[simp] theorem State.setCore_groups (s : State) (c : Nat) (x : CoreSt) : (s.setCore c x).groups = s.groups := rfl
@[simp] theorem State.setCore_units (s : State) (c : Nat) (x : CoreSt) : (s.setCore c x).units = s.units := rfl
@[simp] theorem State.setCore_works (s : State) (c : Nat) (x : CoreSt) : (s.setCore c x).works = s.works := rfl
@[simp] theorem State.setCore_cores (s : State) (c : Nat) (x : CoreSt) : (s.setCore c x).cores = s.cores.set c x := rfl
@[simp] theorem State.setCore_clusters (s : State) (c : Nat) (x : CoreSt) : (s.setCore c x).clusters = s.clusters := rfl
@[simp] theorem State.setCore_dies (s : State) (c : Nat) (x : CoreSt) : (s.setCore c x).dies = s.dies := rfl
@[simp] theorem State.setCore_sys (s : State) (c : Nat) (x : CoreSt) : (s.setCore c x).sys = s.sys := rfl
@[simp] theorem State.setCore_vfs (s : State) (c : Nat) (x : CoreSt) : (s.setCore c x).vfs = s.vfs := rfl
@[simp] theorem State.setCore_parts (s : State) (c : Nat) (x : CoreSt) : (s.setCore c x).parts = s.parts := rfl
@[simp] theorem State.setCore_ctxs (s : State) (c : Nat) (x : CoreSt) : (s.setCore c x).ctxs = s.ctxs := rfl
@[simp] theorem State.setCore_helms (s : State) (c : Nat) (x : CoreSt) : (s.setCore c x).helms = s.helms := rfl
@[simp] theorem State.setCore_copies (s : State) (c : Nat) (x : CoreSt) : (s.setCore c x).copies = s.copies := rfl
@[simp] theorem State.setCore_dev (s : State) (c : Nat) (x : CoreSt) : (s.setCore c x).dev = s.dev := rfl
@[simp] theorem State.setCore_mem (s : State) (c : Nat) (x : CoreSt) : (s.setCore c x).mem = s.mem := rfl
@[simp] theorem State.setCore_poison (s : State) (c : Nat) (x : CoreSt) : (s.setCore c x).poison = s.poison := rfl
@[simp] theorem State.setCore_helped (s : State) (c : Nat) (x : CoreSt) : (s.setCore c x).helped = s.helped := rfl
@[simp] theorem State.setCore_l1 (s : State) (c : Nat) (x : CoreSt) : (s.setCore c x).l1 = s.l1 := rfl
@[simp] theorem State.setCore_l2 (s : State) (c : Nat) (x : CoreSt) : (s.setCore c x).l2 = s.l2 := rfl
@[simp] theorem State.setCore_dir (s : State) (c : Nat) (x : CoreSt) : (s.setCore c x).dir = s.dir := rfl
@[simp] theorem State.setCore_drafts (s : State) (c : Nat) (x : CoreSt) : (s.setCore c x).drafts = s.drafts := rfl
@[simp] theorem State.setCore_tlb (s : State) (c : Nat) (x : CoreSt) : (s.setCore c x).tlb = s.tlb := rfl
@[simp] theorem State.setCore_utlb (s : State) (c : Nat) (x : CoreSt) : (s.setCore c x).utlb = s.utlb := rfl
@[simp] theorem State.setCore_wcache (s : State) (c : Nat) (x : CoreSt) : (s.setCore c x).wcache = s.wcache := rfl
@[simp] theorem State.setCore_invs (s : State) (c : Nat) (x : CoreSt) : (s.setCore c x).invs = s.invs := rfl
@[simp] theorem State.setCore_fkeys (s : State) (c : Nat) (x : CoreSt) : (s.setCore c x).fkeys = s.fkeys := rfl
@[simp] theorem State.setCore_frecs (s : State) (c : Nat) (x : CoreSt) : (s.setCore c x).frecs = s.frecs := rfl
@[simp] theorem State.setCore_rmem (s : State) (c : Nat) (x : CoreSt) : (s.setCore c x).rmem = s.rmem := rfl
@[simp] theorem State.setCore_trapQ (s : State) (c : Nat) (x : CoreSt) : (s.setCore c x).trapQ = s.trapQ := rfl
@[simp] theorem State.setCore_iw (s : State) (c : Nat) (x : CoreSt) : (s.setCore c x).iw = s.iw := rfl
@[simp] theorem State.setCore_cur (s : State) (c : Nat) (x : CoreSt) : (s.setCore c x).cur = s.cur := rfl
@[simp] theorem State.setCore_curCl (s : State) (c : Nat) (x : CoreSt) : (s.setCore c x).curCl = s.curCl := rfl
@[simp] theorem State.setCore_curSys (s : State) (c : Nat) (x : CoreSt) : (s.setCore c x).curSys = s.curSys := rfl
@[simp] theorem State.setCore_agenda (s : State) (c : Nat) (x : CoreSt) : (s.setCore c x).agenda = s.agenda := rfl
@[simp] theorem State.setCore_free (s : State) (c : Nat) (x : CoreSt) : (s.setCore c x).free = s.free := rfl
@[simp] theorem State.setCore_grp (s : State) (c : Nat) (x : CoreSt) (j : Nat) : (s.setCore c x).grp j = s.grp j := rfl
@[simp] theorem State.setCore_unit (s : State) (c : Nat) (x : CoreSt) (j : Nat) : (s.setCore c x).unit j = s.unit j := rfl
@[simp] theorem State.setCore_work (s : State) (c : Nat) (x : CoreSt) (j : Nat) : (s.setCore c x).work j = s.work j := rfl
@[simp] theorem State.setCore_core_same (s : State) (c : Nat) (x : CoreSt) : (s.setCore c x).core c = x := by simp [State.core]
theorem State.setCore_core_ne (s : State) (c : Nat) (x : CoreSt) (j : Nat) (h : c ≠ j) : (s.setCore c x).core j = s.core j := by simp [State.core, Tbl.getD_set_ne _ _ _ _ _ h]
@[simp] theorem State.setCore_cluster (s : State) (c : Nat) (x : CoreSt) (j : Nat) : (s.setCore c x).cluster j = s.cluster j := rfl
@[simp] theorem State.setCore_die (s : State) (c : Nat) (x : CoreSt) (j : Nat) : (s.setCore c x).die j = s.die j := rfl
@[simp] theorem State.setCore_vf (s : State) (c : Nat) (x : CoreSt) (j : Nat) : (s.setCore c x).vf j = s.vf j := rfl
@[simp] theorem State.setCore_part (s : State) (c : Nat) (x : CoreSt) (j : Nat) : (s.setCore c x).part j = s.part j := rfl
@[simp] theorem State.setCore_ctx (s : State) (c : Nat) (x : CoreSt) (j : Nat) : (s.setCore c x).ctx j = s.ctx j := rfl
@[simp] theorem State.setCore_helm (s : State) (c : Nat) (x : CoreSt) (i j : Nat) : (s.setCore c x).helm i j = s.helm i j := rfl
@[simp] theorem State.setCore_copy? (s : State) (c : Nat) (x : CoreSt) (i : Nat) : (s.setCore c x).copy? i = s.copy? i := rfl
@[simp] theorem State.setCore_syscore (s : State) (c : Nat) (x : CoreSt) (j : Nat) : (s.setCore c x).syscore j = s.syscore j := rfl

@[simp] theorem State.setCluster_groups (s : State) (c : Nat) (x : ClusterSt) : (s.setCluster c x).groups = s.groups := rfl
@[simp] theorem State.setCluster_units (s : State) (c : Nat) (x : ClusterSt) : (s.setCluster c x).units = s.units := rfl
@[simp] theorem State.setCluster_works (s : State) (c : Nat) (x : ClusterSt) : (s.setCluster c x).works = s.works := rfl
@[simp] theorem State.setCluster_cores (s : State) (c : Nat) (x : ClusterSt) : (s.setCluster c x).cores = s.cores := rfl
@[simp] theorem State.setCluster_clusters (s : State) (c : Nat) (x : ClusterSt) : (s.setCluster c x).clusters = s.clusters.set c x := rfl
@[simp] theorem State.setCluster_dies (s : State) (c : Nat) (x : ClusterSt) : (s.setCluster c x).dies = s.dies := rfl
@[simp] theorem State.setCluster_sys (s : State) (c : Nat) (x : ClusterSt) : (s.setCluster c x).sys = s.sys := rfl
@[simp] theorem State.setCluster_vfs (s : State) (c : Nat) (x : ClusterSt) : (s.setCluster c x).vfs = s.vfs := rfl
@[simp] theorem State.setCluster_parts (s : State) (c : Nat) (x : ClusterSt) : (s.setCluster c x).parts = s.parts := rfl
@[simp] theorem State.setCluster_ctxs (s : State) (c : Nat) (x : ClusterSt) : (s.setCluster c x).ctxs = s.ctxs := rfl
@[simp] theorem State.setCluster_helms (s : State) (c : Nat) (x : ClusterSt) : (s.setCluster c x).helms = s.helms := rfl
@[simp] theorem State.setCluster_copies (s : State) (c : Nat) (x : ClusterSt) : (s.setCluster c x).copies = s.copies := rfl
@[simp] theorem State.setCluster_dev (s : State) (c : Nat) (x : ClusterSt) : (s.setCluster c x).dev = s.dev := rfl
@[simp] theorem State.setCluster_mem (s : State) (c : Nat) (x : ClusterSt) : (s.setCluster c x).mem = s.mem := rfl
@[simp] theorem State.setCluster_poison (s : State) (c : Nat) (x : ClusterSt) : (s.setCluster c x).poison = s.poison := rfl
@[simp] theorem State.setCluster_helped (s : State) (c : Nat) (x : ClusterSt) : (s.setCluster c x).helped = s.helped := rfl
@[simp] theorem State.setCluster_l1 (s : State) (c : Nat) (x : ClusterSt) : (s.setCluster c x).l1 = s.l1 := rfl
@[simp] theorem State.setCluster_l2 (s : State) (c : Nat) (x : ClusterSt) : (s.setCluster c x).l2 = s.l2 := rfl
@[simp] theorem State.setCluster_dir (s : State) (c : Nat) (x : ClusterSt) : (s.setCluster c x).dir = s.dir := rfl
@[simp] theorem State.setCluster_drafts (s : State) (c : Nat) (x : ClusterSt) : (s.setCluster c x).drafts = s.drafts := rfl
@[simp] theorem State.setCluster_tlb (s : State) (c : Nat) (x : ClusterSt) : (s.setCluster c x).tlb = s.tlb := rfl
@[simp] theorem State.setCluster_utlb (s : State) (c : Nat) (x : ClusterSt) : (s.setCluster c x).utlb = s.utlb := rfl
@[simp] theorem State.setCluster_wcache (s : State) (c : Nat) (x : ClusterSt) : (s.setCluster c x).wcache = s.wcache := rfl
@[simp] theorem State.setCluster_invs (s : State) (c : Nat) (x : ClusterSt) : (s.setCluster c x).invs = s.invs := rfl
@[simp] theorem State.setCluster_fkeys (s : State) (c : Nat) (x : ClusterSt) : (s.setCluster c x).fkeys = s.fkeys := rfl
@[simp] theorem State.setCluster_frecs (s : State) (c : Nat) (x : ClusterSt) : (s.setCluster c x).frecs = s.frecs := rfl
@[simp] theorem State.setCluster_rmem (s : State) (c : Nat) (x : ClusterSt) : (s.setCluster c x).rmem = s.rmem := rfl
@[simp] theorem State.setCluster_trapQ (s : State) (c : Nat) (x : ClusterSt) : (s.setCluster c x).trapQ = s.trapQ := rfl
@[simp] theorem State.setCluster_iw (s : State) (c : Nat) (x : ClusterSt) : (s.setCluster c x).iw = s.iw := rfl
@[simp] theorem State.setCluster_cur (s : State) (c : Nat) (x : ClusterSt) : (s.setCluster c x).cur = s.cur := rfl
@[simp] theorem State.setCluster_curCl (s : State) (c : Nat) (x : ClusterSt) : (s.setCluster c x).curCl = s.curCl := rfl
@[simp] theorem State.setCluster_curSys (s : State) (c : Nat) (x : ClusterSt) : (s.setCluster c x).curSys = s.curSys := rfl
@[simp] theorem State.setCluster_agenda (s : State) (c : Nat) (x : ClusterSt) : (s.setCluster c x).agenda = s.agenda := rfl
@[simp] theorem State.setCluster_free (s : State) (c : Nat) (x : ClusterSt) : (s.setCluster c x).free = s.free := rfl
@[simp] theorem State.setCluster_grp (s : State) (c : Nat) (x : ClusterSt) (j : Nat) : (s.setCluster c x).grp j = s.grp j := rfl
@[simp] theorem State.setCluster_unit (s : State) (c : Nat) (x : ClusterSt) (j : Nat) : (s.setCluster c x).unit j = s.unit j := rfl
@[simp] theorem State.setCluster_work (s : State) (c : Nat) (x : ClusterSt) (j : Nat) : (s.setCluster c x).work j = s.work j := rfl
@[simp] theorem State.setCluster_core (s : State) (c : Nat) (x : ClusterSt) (j : Nat) : (s.setCluster c x).core j = s.core j := rfl
@[simp] theorem State.setCluster_cluster_same (s : State) (c : Nat) (x : ClusterSt) : (s.setCluster c x).cluster c = x := by simp [State.cluster]
theorem State.setCluster_cluster_ne (s : State) (c : Nat) (x : ClusterSt) (j : Nat) (h : c ≠ j) : (s.setCluster c x).cluster j = s.cluster j := by simp [State.cluster, Tbl.getD_set_ne _ _ _ _ _ h]
@[simp] theorem State.setCluster_die (s : State) (c : Nat) (x : ClusterSt) (j : Nat) : (s.setCluster c x).die j = s.die j := rfl
@[simp] theorem State.setCluster_vf (s : State) (c : Nat) (x : ClusterSt) (j : Nat) : (s.setCluster c x).vf j = s.vf j := rfl
@[simp] theorem State.setCluster_part (s : State) (c : Nat) (x : ClusterSt) (j : Nat) : (s.setCluster c x).part j = s.part j := rfl
@[simp] theorem State.setCluster_ctx (s : State) (c : Nat) (x : ClusterSt) (j : Nat) : (s.setCluster c x).ctx j = s.ctx j := rfl
@[simp] theorem State.setCluster_helm (s : State) (c : Nat) (x : ClusterSt) (i j : Nat) : (s.setCluster c x).helm i j = s.helm i j := rfl
@[simp] theorem State.setCluster_copy? (s : State) (c : Nat) (x : ClusterSt) (i : Nat) : (s.setCluster c x).copy? i = s.copy? i := rfl
@[simp] theorem State.setCluster_syscore (s : State) (c : Nat) (x : ClusterSt) (j : Nat) : (s.setCluster c x).syscore j = s.syscore j := rfl

@[simp] theorem State.setDie_groups (s : State) (d : Nat) (x : DieSt) : (s.setDie d x).groups = s.groups := rfl
@[simp] theorem State.setDie_units (s : State) (d : Nat) (x : DieSt) : (s.setDie d x).units = s.units := rfl
@[simp] theorem State.setDie_works (s : State) (d : Nat) (x : DieSt) : (s.setDie d x).works = s.works := rfl
@[simp] theorem State.setDie_cores (s : State) (d : Nat) (x : DieSt) : (s.setDie d x).cores = s.cores := rfl
@[simp] theorem State.setDie_clusters (s : State) (d : Nat) (x : DieSt) : (s.setDie d x).clusters = s.clusters := rfl
@[simp] theorem State.setDie_dies (s : State) (d : Nat) (x : DieSt) : (s.setDie d x).dies = s.dies.set d x := rfl
@[simp] theorem State.setDie_sys (s : State) (d : Nat) (x : DieSt) : (s.setDie d x).sys = s.sys := rfl
@[simp] theorem State.setDie_vfs (s : State) (d : Nat) (x : DieSt) : (s.setDie d x).vfs = s.vfs := rfl
@[simp] theorem State.setDie_parts (s : State) (d : Nat) (x : DieSt) : (s.setDie d x).parts = s.parts := rfl
@[simp] theorem State.setDie_ctxs (s : State) (d : Nat) (x : DieSt) : (s.setDie d x).ctxs = s.ctxs := rfl
@[simp] theorem State.setDie_helms (s : State) (d : Nat) (x : DieSt) : (s.setDie d x).helms = s.helms := rfl
@[simp] theorem State.setDie_copies (s : State) (d : Nat) (x : DieSt) : (s.setDie d x).copies = s.copies := rfl
@[simp] theorem State.setDie_dev (s : State) (d : Nat) (x : DieSt) : (s.setDie d x).dev = s.dev := rfl
@[simp] theorem State.setDie_mem (s : State) (d : Nat) (x : DieSt) : (s.setDie d x).mem = s.mem := rfl
@[simp] theorem State.setDie_poison (s : State) (d : Nat) (x : DieSt) : (s.setDie d x).poison = s.poison := rfl
@[simp] theorem State.setDie_helped (s : State) (d : Nat) (x : DieSt) : (s.setDie d x).helped = s.helped := rfl
@[simp] theorem State.setDie_l1 (s : State) (d : Nat) (x : DieSt) : (s.setDie d x).l1 = s.l1 := rfl
@[simp] theorem State.setDie_l2 (s : State) (d : Nat) (x : DieSt) : (s.setDie d x).l2 = s.l2 := rfl
@[simp] theorem State.setDie_dir (s : State) (d : Nat) (x : DieSt) : (s.setDie d x).dir = s.dir := rfl
@[simp] theorem State.setDie_drafts (s : State) (d : Nat) (x : DieSt) : (s.setDie d x).drafts = s.drafts := rfl
@[simp] theorem State.setDie_tlb (s : State) (d : Nat) (x : DieSt) : (s.setDie d x).tlb = s.tlb := rfl
@[simp] theorem State.setDie_utlb (s : State) (d : Nat) (x : DieSt) : (s.setDie d x).utlb = s.utlb := rfl
@[simp] theorem State.setDie_wcache (s : State) (d : Nat) (x : DieSt) : (s.setDie d x).wcache = s.wcache := rfl
@[simp] theorem State.setDie_invs (s : State) (d : Nat) (x : DieSt) : (s.setDie d x).invs = s.invs := rfl
@[simp] theorem State.setDie_fkeys (s : State) (d : Nat) (x : DieSt) : (s.setDie d x).fkeys = s.fkeys := rfl
@[simp] theorem State.setDie_frecs (s : State) (d : Nat) (x : DieSt) : (s.setDie d x).frecs = s.frecs := rfl
@[simp] theorem State.setDie_rmem (s : State) (d : Nat) (x : DieSt) : (s.setDie d x).rmem = s.rmem := rfl
@[simp] theorem State.setDie_trapQ (s : State) (d : Nat) (x : DieSt) : (s.setDie d x).trapQ = s.trapQ := rfl
@[simp] theorem State.setDie_iw (s : State) (d : Nat) (x : DieSt) : (s.setDie d x).iw = s.iw := rfl
@[simp] theorem State.setDie_cur (s : State) (d : Nat) (x : DieSt) : (s.setDie d x).cur = s.cur := rfl
@[simp] theorem State.setDie_curCl (s : State) (d : Nat) (x : DieSt) : (s.setDie d x).curCl = s.curCl := rfl
@[simp] theorem State.setDie_curSys (s : State) (d : Nat) (x : DieSt) : (s.setDie d x).curSys = s.curSys := rfl
@[simp] theorem State.setDie_agenda (s : State) (d : Nat) (x : DieSt) : (s.setDie d x).agenda = s.agenda := rfl
@[simp] theorem State.setDie_free (s : State) (d : Nat) (x : DieSt) : (s.setDie d x).free = s.free := rfl
@[simp] theorem State.setDie_grp (s : State) (d : Nat) (x : DieSt) (j : Nat) : (s.setDie d x).grp j = s.grp j := rfl
@[simp] theorem State.setDie_unit (s : State) (d : Nat) (x : DieSt) (j : Nat) : (s.setDie d x).unit j = s.unit j := rfl
@[simp] theorem State.setDie_work (s : State) (d : Nat) (x : DieSt) (j : Nat) : (s.setDie d x).work j = s.work j := rfl
@[simp] theorem State.setDie_core (s : State) (d : Nat) (x : DieSt) (j : Nat) : (s.setDie d x).core j = s.core j := rfl
@[simp] theorem State.setDie_cluster (s : State) (d : Nat) (x : DieSt) (j : Nat) : (s.setDie d x).cluster j = s.cluster j := rfl
@[simp] theorem State.setDie_die_same (s : State) (d : Nat) (x : DieSt) : (s.setDie d x).die d = x := by simp [State.die]
theorem State.setDie_die_ne (s : State) (d : Nat) (x : DieSt) (j : Nat) (h : d ≠ j) : (s.setDie d x).die j = s.die j := by simp [State.die, Tbl.getD_set_ne _ _ _ _ _ h]
@[simp] theorem State.setDie_vf (s : State) (d : Nat) (x : DieSt) (j : Nat) : (s.setDie d x).vf j = s.vf j := rfl
@[simp] theorem State.setDie_part (s : State) (d : Nat) (x : DieSt) (j : Nat) : (s.setDie d x).part j = s.part j := rfl
@[simp] theorem State.setDie_ctx (s : State) (d : Nat) (x : DieSt) (j : Nat) : (s.setDie d x).ctx j = s.ctx j := rfl
@[simp] theorem State.setDie_helm (s : State) (d : Nat) (x : DieSt) (i j : Nat) : (s.setDie d x).helm i j = s.helm i j := rfl
@[simp] theorem State.setDie_copy? (s : State) (d : Nat) (x : DieSt) (i : Nat) : (s.setDie d x).copy? i = s.copy? i := rfl
@[simp] theorem State.setDie_syscore (s : State) (d : Nat) (x : DieSt) (j : Nat) : (s.setDie d x).syscore j = s.syscore j := rfl

@[simp] theorem State.setSys_groups (s : State) (k : Nat) (x : SysSt) : (s.setSys k x).groups = s.groups := rfl
@[simp] theorem State.setSys_units (s : State) (k : Nat) (x : SysSt) : (s.setSys k x).units = s.units := rfl
@[simp] theorem State.setSys_works (s : State) (k : Nat) (x : SysSt) : (s.setSys k x).works = s.works := rfl
@[simp] theorem State.setSys_cores (s : State) (k : Nat) (x : SysSt) : (s.setSys k x).cores = s.cores := rfl
@[simp] theorem State.setSys_clusters (s : State) (k : Nat) (x : SysSt) : (s.setSys k x).clusters = s.clusters := rfl
@[simp] theorem State.setSys_dies (s : State) (k : Nat) (x : SysSt) : (s.setSys k x).dies = s.dies := rfl
@[simp] theorem State.setSys_sys (s : State) (k : Nat) (x : SysSt) : (s.setSys k x).sys = s.sys.set k x := rfl
@[simp] theorem State.setSys_vfs (s : State) (k : Nat) (x : SysSt) : (s.setSys k x).vfs = s.vfs := rfl
@[simp] theorem State.setSys_parts (s : State) (k : Nat) (x : SysSt) : (s.setSys k x).parts = s.parts := rfl
@[simp] theorem State.setSys_ctxs (s : State) (k : Nat) (x : SysSt) : (s.setSys k x).ctxs = s.ctxs := rfl
@[simp] theorem State.setSys_helms (s : State) (k : Nat) (x : SysSt) : (s.setSys k x).helms = s.helms := rfl
@[simp] theorem State.setSys_copies (s : State) (k : Nat) (x : SysSt) : (s.setSys k x).copies = s.copies := rfl
@[simp] theorem State.setSys_dev (s : State) (k : Nat) (x : SysSt) : (s.setSys k x).dev = s.dev := rfl
@[simp] theorem State.setSys_mem (s : State) (k : Nat) (x : SysSt) : (s.setSys k x).mem = s.mem := rfl
@[simp] theorem State.setSys_poison (s : State) (k : Nat) (x : SysSt) : (s.setSys k x).poison = s.poison := rfl
@[simp] theorem State.setSys_helped (s : State) (k : Nat) (x : SysSt) : (s.setSys k x).helped = s.helped := rfl
@[simp] theorem State.setSys_l1 (s : State) (k : Nat) (x : SysSt) : (s.setSys k x).l1 = s.l1 := rfl
@[simp] theorem State.setSys_l2 (s : State) (k : Nat) (x : SysSt) : (s.setSys k x).l2 = s.l2 := rfl
@[simp] theorem State.setSys_dir (s : State) (k : Nat) (x : SysSt) : (s.setSys k x).dir = s.dir := rfl
@[simp] theorem State.setSys_drafts (s : State) (k : Nat) (x : SysSt) : (s.setSys k x).drafts = s.drafts := rfl
@[simp] theorem State.setSys_tlb (s : State) (k : Nat) (x : SysSt) : (s.setSys k x).tlb = s.tlb := rfl
@[simp] theorem State.setSys_utlb (s : State) (k : Nat) (x : SysSt) : (s.setSys k x).utlb = s.utlb := rfl
@[simp] theorem State.setSys_wcache (s : State) (k : Nat) (x : SysSt) : (s.setSys k x).wcache = s.wcache := rfl
@[simp] theorem State.setSys_invs (s : State) (k : Nat) (x : SysSt) : (s.setSys k x).invs = s.invs := rfl
@[simp] theorem State.setSys_fkeys (s : State) (k : Nat) (x : SysSt) : (s.setSys k x).fkeys = s.fkeys := rfl
@[simp] theorem State.setSys_frecs (s : State) (k : Nat) (x : SysSt) : (s.setSys k x).frecs = s.frecs := rfl
@[simp] theorem State.setSys_rmem (s : State) (k : Nat) (x : SysSt) : (s.setSys k x).rmem = s.rmem := rfl
@[simp] theorem State.setSys_trapQ (s : State) (k : Nat) (x : SysSt) : (s.setSys k x).trapQ = s.trapQ := rfl
@[simp] theorem State.setSys_iw (s : State) (k : Nat) (x : SysSt) : (s.setSys k x).iw = s.iw := rfl
@[simp] theorem State.setSys_cur (s : State) (k : Nat) (x : SysSt) : (s.setSys k x).cur = s.cur := rfl
@[simp] theorem State.setSys_curCl (s : State) (k : Nat) (x : SysSt) : (s.setSys k x).curCl = s.curCl := rfl
@[simp] theorem State.setSys_curSys (s : State) (k : Nat) (x : SysSt) : (s.setSys k x).curSys = s.curSys := rfl
@[simp] theorem State.setSys_agenda (s : State) (k : Nat) (x : SysSt) : (s.setSys k x).agenda = s.agenda := rfl
@[simp] theorem State.setSys_free (s : State) (k : Nat) (x : SysSt) : (s.setSys k x).free = s.free := rfl
@[simp] theorem State.setSys_grp (s : State) (k : Nat) (x : SysSt) (j : Nat) : (s.setSys k x).grp j = s.grp j := rfl
@[simp] theorem State.setSys_unit (s : State) (k : Nat) (x : SysSt) (j : Nat) : (s.setSys k x).unit j = s.unit j := rfl
@[simp] theorem State.setSys_work (s : State) (k : Nat) (x : SysSt) (j : Nat) : (s.setSys k x).work j = s.work j := rfl
@[simp] theorem State.setSys_core (s : State) (k : Nat) (x : SysSt) (j : Nat) : (s.setSys k x).core j = s.core j := rfl
@[simp] theorem State.setSys_cluster (s : State) (k : Nat) (x : SysSt) (j : Nat) : (s.setSys k x).cluster j = s.cluster j := rfl
@[simp] theorem State.setSys_die (s : State) (k : Nat) (x : SysSt) (j : Nat) : (s.setSys k x).die j = s.die j := rfl
@[simp] theorem State.setSys_vf (s : State) (k : Nat) (x : SysSt) (j : Nat) : (s.setSys k x).vf j = s.vf j := rfl
@[simp] theorem State.setSys_part (s : State) (k : Nat) (x : SysSt) (j : Nat) : (s.setSys k x).part j = s.part j := rfl
@[simp] theorem State.setSys_ctx (s : State) (k : Nat) (x : SysSt) (j : Nat) : (s.setSys k x).ctx j = s.ctx j := rfl
@[simp] theorem State.setSys_helm (s : State) (k : Nat) (x : SysSt) (i j : Nat) : (s.setSys k x).helm i j = s.helm i j := rfl
@[simp] theorem State.setSys_copy? (s : State) (k : Nat) (x : SysSt) (i : Nat) : (s.setSys k x).copy? i = s.copy? i := rfl
@[simp] theorem State.setSys_syscore_same (s : State) (k : Nat) (x : SysSt) : (s.setSys k x).syscore k = x := by simp [State.syscore]
theorem State.setSys_syscore_ne (s : State) (k : Nat) (x : SysSt) (j : Nat) (h : k ≠ j) : (s.setSys k x).syscore j = s.syscore j := by
  simp [State.syscore, Tbl.getD_set_ne _ _ _ _ _ h]

@[simp] theorem State.setVf_groups (s : State) (v : Nat) (x : VfSt) : (s.setVf v x).groups = s.groups := rfl
@[simp] theorem State.setVf_units (s : State) (v : Nat) (x : VfSt) : (s.setVf v x).units = s.units := rfl
@[simp] theorem State.setVf_works (s : State) (v : Nat) (x : VfSt) : (s.setVf v x).works = s.works := rfl
@[simp] theorem State.setVf_cores (s : State) (v : Nat) (x : VfSt) : (s.setVf v x).cores = s.cores := rfl
@[simp] theorem State.setVf_clusters (s : State) (v : Nat) (x : VfSt) : (s.setVf v x).clusters = s.clusters := rfl
@[simp] theorem State.setVf_dies (s : State) (v : Nat) (x : VfSt) : (s.setVf v x).dies = s.dies := rfl
@[simp] theorem State.setVf_sys (s : State) (v : Nat) (x : VfSt) : (s.setVf v x).sys = s.sys := rfl
@[simp] theorem State.setVf_vfs (s : State) (v : Nat) (x : VfSt) : (s.setVf v x).vfs = s.vfs.set v x := rfl
@[simp] theorem State.setVf_parts (s : State) (v : Nat) (x : VfSt) : (s.setVf v x).parts = s.parts := rfl
@[simp] theorem State.setVf_ctxs (s : State) (v : Nat) (x : VfSt) : (s.setVf v x).ctxs = s.ctxs := rfl
@[simp] theorem State.setVf_helms (s : State) (v : Nat) (x : VfSt) : (s.setVf v x).helms = s.helms := rfl
@[simp] theorem State.setVf_copies (s : State) (v : Nat) (x : VfSt) : (s.setVf v x).copies = s.copies := rfl
@[simp] theorem State.setVf_dev (s : State) (v : Nat) (x : VfSt) : (s.setVf v x).dev = s.dev := rfl
@[simp] theorem State.setVf_mem (s : State) (v : Nat) (x : VfSt) : (s.setVf v x).mem = s.mem := rfl
@[simp] theorem State.setVf_poison (s : State) (v : Nat) (x : VfSt) : (s.setVf v x).poison = s.poison := rfl
@[simp] theorem State.setVf_helped (s : State) (v : Nat) (x : VfSt) : (s.setVf v x).helped = s.helped := rfl
@[simp] theorem State.setVf_l1 (s : State) (v : Nat) (x : VfSt) : (s.setVf v x).l1 = s.l1 := rfl
@[simp] theorem State.setVf_l2 (s : State) (v : Nat) (x : VfSt) : (s.setVf v x).l2 = s.l2 := rfl
@[simp] theorem State.setVf_dir (s : State) (v : Nat) (x : VfSt) : (s.setVf v x).dir = s.dir := rfl
@[simp] theorem State.setVf_drafts (s : State) (v : Nat) (x : VfSt) : (s.setVf v x).drafts = s.drafts := rfl
@[simp] theorem State.setVf_tlb (s : State) (v : Nat) (x : VfSt) : (s.setVf v x).tlb = s.tlb := rfl
@[simp] theorem State.setVf_utlb (s : State) (v : Nat) (x : VfSt) : (s.setVf v x).utlb = s.utlb := rfl
@[simp] theorem State.setVf_wcache (s : State) (v : Nat) (x : VfSt) : (s.setVf v x).wcache = s.wcache := rfl
@[simp] theorem State.setVf_invs (s : State) (v : Nat) (x : VfSt) : (s.setVf v x).invs = s.invs := rfl
@[simp] theorem State.setVf_fkeys (s : State) (v : Nat) (x : VfSt) : (s.setVf v x).fkeys = s.fkeys := rfl
@[simp] theorem State.setVf_frecs (s : State) (v : Nat) (x : VfSt) : (s.setVf v x).frecs = s.frecs := rfl
@[simp] theorem State.setVf_rmem (s : State) (v : Nat) (x : VfSt) : (s.setVf v x).rmem = s.rmem := rfl
@[simp] theorem State.setVf_trapQ (s : State) (v : Nat) (x : VfSt) : (s.setVf v x).trapQ = s.trapQ := rfl
@[simp] theorem State.setVf_iw (s : State) (v : Nat) (x : VfSt) : (s.setVf v x).iw = s.iw := rfl
@[simp] theorem State.setVf_cur (s : State) (v : Nat) (x : VfSt) : (s.setVf v x).cur = s.cur := rfl
@[simp] theorem State.setVf_curCl (s : State) (v : Nat) (x : VfSt) : (s.setVf v x).curCl = s.curCl := rfl
@[simp] theorem State.setVf_curSys (s : State) (v : Nat) (x : VfSt) : (s.setVf v x).curSys = s.curSys := rfl
@[simp] theorem State.setVf_agenda (s : State) (v : Nat) (x : VfSt) : (s.setVf v x).agenda = s.agenda := rfl
@[simp] theorem State.setVf_free (s : State) (v : Nat) (x : VfSt) : (s.setVf v x).free = s.free := rfl
@[simp] theorem State.setVf_grp (s : State) (v : Nat) (x : VfSt) (j : Nat) : (s.setVf v x).grp j = s.grp j := rfl
@[simp] theorem State.setVf_unit (s : State) (v : Nat) (x : VfSt) (j : Nat) : (s.setVf v x).unit j = s.unit j := rfl
@[simp] theorem State.setVf_work (s : State) (v : Nat) (x : VfSt) (j : Nat) : (s.setVf v x).work j = s.work j := rfl
@[simp] theorem State.setVf_core (s : State) (v : Nat) (x : VfSt) (j : Nat) : (s.setVf v x).core j = s.core j := rfl
@[simp] theorem State.setVf_cluster (s : State) (v : Nat) (x : VfSt) (j : Nat) : (s.setVf v x).cluster j = s.cluster j := rfl
@[simp] theorem State.setVf_die (s : State) (v : Nat) (x : VfSt) (j : Nat) : (s.setVf v x).die j = s.die j := rfl
@[simp] theorem State.setVf_vf_same (s : State) (v : Nat) (x : VfSt) : (s.setVf v x).vf v = x := by simp [State.vf]
theorem State.setVf_vf_ne (s : State) (v : Nat) (x : VfSt) (j : Nat) (h : v ≠ j) : (s.setVf v x).vf j = s.vf j := by simp [State.vf, Tbl.getD_set_ne _ _ _ _ _ h]
@[simp] theorem State.setVf_part (s : State) (v : Nat) (x : VfSt) (j : Nat) : (s.setVf v x).part j = s.part j := rfl
@[simp] theorem State.setVf_ctx (s : State) (v : Nat) (x : VfSt) (j : Nat) : (s.setVf v x).ctx j = s.ctx j := rfl
@[simp] theorem State.setVf_helm (s : State) (v : Nat) (x : VfSt) (i j : Nat) : (s.setVf v x).helm i j = s.helm i j := rfl
@[simp] theorem State.setVf_copy? (s : State) (v : Nat) (x : VfSt) (i : Nat) : (s.setVf v x).copy? i = s.copy? i := rfl
@[simp] theorem State.setVf_syscore (s : State) (v : Nat) (x : VfSt) (j : Nat) : (s.setVf v x).syscore j = s.syscore j := rfl

@[simp] theorem State.setPart_groups (s : State) (p : Nat) (x : PartSt) : (s.setPart p x).groups = s.groups := rfl
@[simp] theorem State.setPart_units (s : State) (p : Nat) (x : PartSt) : (s.setPart p x).units = s.units := rfl
@[simp] theorem State.setPart_works (s : State) (p : Nat) (x : PartSt) : (s.setPart p x).works = s.works := rfl
@[simp] theorem State.setPart_cores (s : State) (p : Nat) (x : PartSt) : (s.setPart p x).cores = s.cores := rfl
@[simp] theorem State.setPart_clusters (s : State) (p : Nat) (x : PartSt) : (s.setPart p x).clusters = s.clusters := rfl
@[simp] theorem State.setPart_dies (s : State) (p : Nat) (x : PartSt) : (s.setPart p x).dies = s.dies := rfl
@[simp] theorem State.setPart_sys (s : State) (p : Nat) (x : PartSt) : (s.setPart p x).sys = s.sys := rfl
@[simp] theorem State.setPart_vfs (s : State) (p : Nat) (x : PartSt) : (s.setPart p x).vfs = s.vfs := rfl
@[simp] theorem State.setPart_parts (s : State) (p : Nat) (x : PartSt) : (s.setPart p x).parts = s.parts.set p x := rfl
@[simp] theorem State.setPart_ctxs (s : State) (p : Nat) (x : PartSt) : (s.setPart p x).ctxs = s.ctxs := rfl
@[simp] theorem State.setPart_helms (s : State) (p : Nat) (x : PartSt) : (s.setPart p x).helms = s.helms := rfl
@[simp] theorem State.setPart_copies (s : State) (p : Nat) (x : PartSt) : (s.setPart p x).copies = s.copies := rfl
@[simp] theorem State.setPart_dev (s : State) (p : Nat) (x : PartSt) : (s.setPart p x).dev = s.dev := rfl
@[simp] theorem State.setPart_mem (s : State) (p : Nat) (x : PartSt) : (s.setPart p x).mem = s.mem := rfl
@[simp] theorem State.setPart_poison (s : State) (p : Nat) (x : PartSt) : (s.setPart p x).poison = s.poison := rfl
@[simp] theorem State.setPart_helped (s : State) (p : Nat) (x : PartSt) : (s.setPart p x).helped = s.helped := rfl
@[simp] theorem State.setPart_l1 (s : State) (p : Nat) (x : PartSt) : (s.setPart p x).l1 = s.l1 := rfl
@[simp] theorem State.setPart_l2 (s : State) (p : Nat) (x : PartSt) : (s.setPart p x).l2 = s.l2 := rfl
@[simp] theorem State.setPart_dir (s : State) (p : Nat) (x : PartSt) : (s.setPart p x).dir = s.dir := rfl
@[simp] theorem State.setPart_drafts (s : State) (p : Nat) (x : PartSt) : (s.setPart p x).drafts = s.drafts := rfl
@[simp] theorem State.setPart_tlb (s : State) (p : Nat) (x : PartSt) : (s.setPart p x).tlb = s.tlb := rfl
@[simp] theorem State.setPart_utlb (s : State) (p : Nat) (x : PartSt) : (s.setPart p x).utlb = s.utlb := rfl
@[simp] theorem State.setPart_wcache (s : State) (p : Nat) (x : PartSt) : (s.setPart p x).wcache = s.wcache := rfl
@[simp] theorem State.setPart_invs (s : State) (p : Nat) (x : PartSt) : (s.setPart p x).invs = s.invs := rfl
@[simp] theorem State.setPart_fkeys (s : State) (p : Nat) (x : PartSt) : (s.setPart p x).fkeys = s.fkeys := rfl
@[simp] theorem State.setPart_frecs (s : State) (p : Nat) (x : PartSt) : (s.setPart p x).frecs = s.frecs := rfl
@[simp] theorem State.setPart_rmem (s : State) (p : Nat) (x : PartSt) : (s.setPart p x).rmem = s.rmem := rfl
@[simp] theorem State.setPart_trapQ (s : State) (p : Nat) (x : PartSt) : (s.setPart p x).trapQ = s.trapQ := rfl
@[simp] theorem State.setPart_iw (s : State) (p : Nat) (x : PartSt) : (s.setPart p x).iw = s.iw := rfl
@[simp] theorem State.setPart_cur (s : State) (p : Nat) (x : PartSt) : (s.setPart p x).cur = s.cur := rfl
@[simp] theorem State.setPart_curCl (s : State) (p : Nat) (x : PartSt) : (s.setPart p x).curCl = s.curCl := rfl
@[simp] theorem State.setPart_curSys (s : State) (p : Nat) (x : PartSt) : (s.setPart p x).curSys = s.curSys := rfl
@[simp] theorem State.setPart_agenda (s : State) (p : Nat) (x : PartSt) : (s.setPart p x).agenda = s.agenda := rfl
@[simp] theorem State.setPart_free (s : State) (p : Nat) (x : PartSt) : (s.setPart p x).free = s.free := rfl
@[simp] theorem State.setPart_grp (s : State) (p : Nat) (x : PartSt) (j : Nat) : (s.setPart p x).grp j = s.grp j := rfl
@[simp] theorem State.setPart_unit (s : State) (p : Nat) (x : PartSt) (j : Nat) : (s.setPart p x).unit j = s.unit j := rfl
@[simp] theorem State.setPart_work (s : State) (p : Nat) (x : PartSt) (j : Nat) : (s.setPart p x).work j = s.work j := rfl
@[simp] theorem State.setPart_core (s : State) (p : Nat) (x : PartSt) (j : Nat) : (s.setPart p x).core j = s.core j := rfl
@[simp] theorem State.setPart_cluster (s : State) (p : Nat) (x : PartSt) (j : Nat) : (s.setPart p x).cluster j = s.cluster j := rfl
@[simp] theorem State.setPart_die (s : State) (p : Nat) (x : PartSt) (j : Nat) : (s.setPart p x).die j = s.die j := rfl
@[simp] theorem State.setPart_vf (s : State) (p : Nat) (x : PartSt) (j : Nat) : (s.setPart p x).vf j = s.vf j := rfl
@[simp] theorem State.setPart_part_same (s : State) (p : Nat) (x : PartSt) : (s.setPart p x).part p = x := by simp [State.part]
theorem State.setPart_part_ne (s : State) (p : Nat) (x : PartSt) (j : Nat) (h : p ≠ j) : (s.setPart p x).part j = s.part j := by simp [State.part, Tbl.getD_set_ne _ _ _ _ _ h]
@[simp] theorem State.setPart_ctx (s : State) (p : Nat) (x : PartSt) (j : Nat) : (s.setPart p x).ctx j = s.ctx j := rfl
@[simp] theorem State.setPart_helm (s : State) (p : Nat) (x : PartSt) (i j : Nat) : (s.setPart p x).helm i j = s.helm i j := rfl
@[simp] theorem State.setPart_copy? (s : State) (p : Nat) (x : PartSt) (i : Nat) : (s.setPart p x).copy? i = s.copy? i := rfl
@[simp] theorem State.setPart_syscore (s : State) (p : Nat) (x : PartSt) (j : Nat) : (s.setPart p x).syscore j = s.syscore j := rfl

@[simp] theorem State.setCtx_groups (s : State) (k : Nat) (x : CtxSt) : (s.setCtx k x).groups = s.groups := rfl
@[simp] theorem State.setCtx_units (s : State) (k : Nat) (x : CtxSt) : (s.setCtx k x).units = s.units := rfl
@[simp] theorem State.setCtx_works (s : State) (k : Nat) (x : CtxSt) : (s.setCtx k x).works = s.works := rfl
@[simp] theorem State.setCtx_cores (s : State) (k : Nat) (x : CtxSt) : (s.setCtx k x).cores = s.cores := rfl
@[simp] theorem State.setCtx_clusters (s : State) (k : Nat) (x : CtxSt) : (s.setCtx k x).clusters = s.clusters := rfl
@[simp] theorem State.setCtx_dies (s : State) (k : Nat) (x : CtxSt) : (s.setCtx k x).dies = s.dies := rfl
@[simp] theorem State.setCtx_sys (s : State) (k : Nat) (x : CtxSt) : (s.setCtx k x).sys = s.sys := rfl
@[simp] theorem State.setCtx_vfs (s : State) (k : Nat) (x : CtxSt) : (s.setCtx k x).vfs = s.vfs := rfl
@[simp] theorem State.setCtx_parts (s : State) (k : Nat) (x : CtxSt) : (s.setCtx k x).parts = s.parts := rfl
@[simp] theorem State.setCtx_ctxs (s : State) (k : Nat) (x : CtxSt) : (s.setCtx k x).ctxs = s.ctxs.set k x := rfl
@[simp] theorem State.setCtx_helms (s : State) (k : Nat) (x : CtxSt) : (s.setCtx k x).helms = s.helms := rfl
@[simp] theorem State.setCtx_copies (s : State) (k : Nat) (x : CtxSt) : (s.setCtx k x).copies = s.copies := rfl
@[simp] theorem State.setCtx_dev (s : State) (k : Nat) (x : CtxSt) : (s.setCtx k x).dev = s.dev := rfl
@[simp] theorem State.setCtx_mem (s : State) (k : Nat) (x : CtxSt) : (s.setCtx k x).mem = s.mem := rfl
@[simp] theorem State.setCtx_poison (s : State) (k : Nat) (x : CtxSt) : (s.setCtx k x).poison = s.poison := rfl
@[simp] theorem State.setCtx_helped (s : State) (k : Nat) (x : CtxSt) : (s.setCtx k x).helped = s.helped := rfl
@[simp] theorem State.setCtx_l1 (s : State) (k : Nat) (x : CtxSt) : (s.setCtx k x).l1 = s.l1 := rfl
@[simp] theorem State.setCtx_l2 (s : State) (k : Nat) (x : CtxSt) : (s.setCtx k x).l2 = s.l2 := rfl
@[simp] theorem State.setCtx_dir (s : State) (k : Nat) (x : CtxSt) : (s.setCtx k x).dir = s.dir := rfl
@[simp] theorem State.setCtx_drafts (s : State) (k : Nat) (x : CtxSt) : (s.setCtx k x).drafts = s.drafts := rfl
@[simp] theorem State.setCtx_tlb (s : State) (k : Nat) (x : CtxSt) : (s.setCtx k x).tlb = s.tlb := rfl
@[simp] theorem State.setCtx_utlb (s : State) (k : Nat) (x : CtxSt) : (s.setCtx k x).utlb = s.utlb := rfl
@[simp] theorem State.setCtx_wcache (s : State) (k : Nat) (x : CtxSt) : (s.setCtx k x).wcache = s.wcache := rfl
@[simp] theorem State.setCtx_invs (s : State) (k : Nat) (x : CtxSt) : (s.setCtx k x).invs = s.invs := rfl
@[simp] theorem State.setCtx_fkeys (s : State) (k : Nat) (x : CtxSt) : (s.setCtx k x).fkeys = s.fkeys := rfl
@[simp] theorem State.setCtx_frecs (s : State) (k : Nat) (x : CtxSt) : (s.setCtx k x).frecs = s.frecs := rfl
@[simp] theorem State.setCtx_rmem (s : State) (k : Nat) (x : CtxSt) : (s.setCtx k x).rmem = s.rmem := rfl
@[simp] theorem State.setCtx_trapQ (s : State) (k : Nat) (x : CtxSt) : (s.setCtx k x).trapQ = s.trapQ := rfl
@[simp] theorem State.setCtx_iw (s : State) (k : Nat) (x : CtxSt) : (s.setCtx k x).iw = s.iw := rfl
@[simp] theorem State.setCtx_cur (s : State) (k : Nat) (x : CtxSt) : (s.setCtx k x).cur = s.cur := rfl
@[simp] theorem State.setCtx_curCl (s : State) (k : Nat) (x : CtxSt) : (s.setCtx k x).curCl = s.curCl := rfl
@[simp] theorem State.setCtx_curSys (s : State) (k : Nat) (x : CtxSt) : (s.setCtx k x).curSys = s.curSys := rfl
@[simp] theorem State.setCtx_agenda (s : State) (k : Nat) (x : CtxSt) : (s.setCtx k x).agenda = s.agenda := rfl
@[simp] theorem State.setCtx_free (s : State) (k : Nat) (x : CtxSt) : (s.setCtx k x).free = s.free := rfl
@[simp] theorem State.setCtx_grp (s : State) (k : Nat) (x : CtxSt) (j : Nat) : (s.setCtx k x).grp j = s.grp j := rfl
@[simp] theorem State.setCtx_unit (s : State) (k : Nat) (x : CtxSt) (j : Nat) : (s.setCtx k x).unit j = s.unit j := rfl
@[simp] theorem State.setCtx_work (s : State) (k : Nat) (x : CtxSt) (j : Nat) : (s.setCtx k x).work j = s.work j := rfl
@[simp] theorem State.setCtx_core (s : State) (k : Nat) (x : CtxSt) (j : Nat) : (s.setCtx k x).core j = s.core j := rfl
@[simp] theorem State.setCtx_cluster (s : State) (k : Nat) (x : CtxSt) (j : Nat) : (s.setCtx k x).cluster j = s.cluster j := rfl
@[simp] theorem State.setCtx_die (s : State) (k : Nat) (x : CtxSt) (j : Nat) : (s.setCtx k x).die j = s.die j := rfl
@[simp] theorem State.setCtx_vf (s : State) (k : Nat) (x : CtxSt) (j : Nat) : (s.setCtx k x).vf j = s.vf j := rfl
@[simp] theorem State.setCtx_part (s : State) (k : Nat) (x : CtxSt) (j : Nat) : (s.setCtx k x).part j = s.part j := rfl
@[simp] theorem State.setCtx_ctx_same (s : State) (k : Nat) (x : CtxSt) : (s.setCtx k x).ctx k = x := by simp [State.ctx]
theorem State.setCtx_ctx_ne (s : State) (k : Nat) (x : CtxSt) (j : Nat) (h : k ≠ j) : (s.setCtx k x).ctx j = s.ctx j := by simp [State.ctx, Tbl.getD_set_ne _ _ _ _ _ h]
@[simp] theorem State.setCtx_helm (s : State) (k : Nat) (x : CtxSt) (i j : Nat) : (s.setCtx k x).helm i j = s.helm i j := rfl
@[simp] theorem State.setCtx_copy? (s : State) (k : Nat) (x : CtxSt) (i : Nat) : (s.setCtx k x).copy? i = s.copy? i := rfl
@[simp] theorem State.setCtx_syscore (s : State) (k : Nat) (x : CtxSt) (j : Nat) : (s.setCtx k x).syscore j = s.syscore j := rfl

@[simp] theorem State.setHelm_groups (s : State) (k cl : Nat) (x : HelmSt) : (s.setHelm k cl x).groups = s.groups := rfl
@[simp] theorem State.setHelm_units (s : State) (k cl : Nat) (x : HelmSt) : (s.setHelm k cl x).units = s.units := rfl
@[simp] theorem State.setHelm_works (s : State) (k cl : Nat) (x : HelmSt) : (s.setHelm k cl x).works = s.works := rfl
@[simp] theorem State.setHelm_cores (s : State) (k cl : Nat) (x : HelmSt) : (s.setHelm k cl x).cores = s.cores := rfl
@[simp] theorem State.setHelm_clusters (s : State) (k cl : Nat) (x : HelmSt) : (s.setHelm k cl x).clusters = s.clusters := rfl
@[simp] theorem State.setHelm_dies (s : State) (k cl : Nat) (x : HelmSt) : (s.setHelm k cl x).dies = s.dies := rfl
@[simp] theorem State.setHelm_sys (s : State) (k cl : Nat) (x : HelmSt) : (s.setHelm k cl x).sys = s.sys := rfl
@[simp] theorem State.setHelm_vfs (s : State) (k cl : Nat) (x : HelmSt) : (s.setHelm k cl x).vfs = s.vfs := rfl
@[simp] theorem State.setHelm_parts (s : State) (k cl : Nat) (x : HelmSt) : (s.setHelm k cl x).parts = s.parts := rfl
@[simp] theorem State.setHelm_ctxs (s : State) (k cl : Nat) (x : HelmSt) : (s.setHelm k cl x).ctxs = s.ctxs := rfl
@[simp] theorem State.setHelm_helms (s : State) (k cl : Nat) (x : HelmSt) : (s.setHelm k cl x).helms = s.helms.set (helmKey k cl) x := rfl
@[simp] theorem State.setHelm_copies (s : State) (k cl : Nat) (x : HelmSt) : (s.setHelm k cl x).copies = s.copies := rfl
@[simp] theorem State.setHelm_dev (s : State) (k cl : Nat) (x : HelmSt) : (s.setHelm k cl x).dev = s.dev := rfl
@[simp] theorem State.setHelm_mem (s : State) (k cl : Nat) (x : HelmSt) : (s.setHelm k cl x).mem = s.mem := rfl
@[simp] theorem State.setHelm_poison (s : State) (k cl : Nat) (x : HelmSt) : (s.setHelm k cl x).poison = s.poison := rfl
@[simp] theorem State.setHelm_helped (s : State) (k cl : Nat) (x : HelmSt) : (s.setHelm k cl x).helped = s.helped := rfl
@[simp] theorem State.setHelm_l1 (s : State) (k cl : Nat) (x : HelmSt) : (s.setHelm k cl x).l1 = s.l1 := rfl
@[simp] theorem State.setHelm_l2 (s : State) (k cl : Nat) (x : HelmSt) : (s.setHelm k cl x).l2 = s.l2 := rfl
@[simp] theorem State.setHelm_dir (s : State) (k cl : Nat) (x : HelmSt) : (s.setHelm k cl x).dir = s.dir := rfl
@[simp] theorem State.setHelm_drafts (s : State) (k cl : Nat) (x : HelmSt) : (s.setHelm k cl x).drafts = s.drafts := rfl
@[simp] theorem State.setHelm_tlb (s : State) (k cl : Nat) (x : HelmSt) : (s.setHelm k cl x).tlb = s.tlb := rfl
@[simp] theorem State.setHelm_utlb (s : State) (k cl : Nat) (x : HelmSt) : (s.setHelm k cl x).utlb = s.utlb := rfl
@[simp] theorem State.setHelm_wcache (s : State) (k cl : Nat) (x : HelmSt) : (s.setHelm k cl x).wcache = s.wcache := rfl
@[simp] theorem State.setHelm_invs (s : State) (k cl : Nat) (x : HelmSt) : (s.setHelm k cl x).invs = s.invs := rfl
@[simp] theorem State.setHelm_fkeys (s : State) (k cl : Nat) (x : HelmSt) : (s.setHelm k cl x).fkeys = s.fkeys := rfl
@[simp] theorem State.setHelm_frecs (s : State) (k cl : Nat) (x : HelmSt) : (s.setHelm k cl x).frecs = s.frecs := rfl
@[simp] theorem State.setHelm_rmem (s : State) (k cl : Nat) (x : HelmSt) : (s.setHelm k cl x).rmem = s.rmem := rfl
@[simp] theorem State.setHelm_trapQ (s : State) (k cl : Nat) (x : HelmSt) : (s.setHelm k cl x).trapQ = s.trapQ := rfl
@[simp] theorem State.setHelm_iw (s : State) (k cl : Nat) (x : HelmSt) : (s.setHelm k cl x).iw = s.iw := rfl
@[simp] theorem State.setHelm_cur (s : State) (k cl : Nat) (x : HelmSt) : (s.setHelm k cl x).cur = s.cur := rfl
@[simp] theorem State.setHelm_curCl (s : State) (k cl : Nat) (x : HelmSt) : (s.setHelm k cl x).curCl = s.curCl := rfl
@[simp] theorem State.setHelm_curSys (s : State) (k cl : Nat) (x : HelmSt) : (s.setHelm k cl x).curSys = s.curSys := rfl
@[simp] theorem State.setHelm_agenda (s : State) (k cl : Nat) (x : HelmSt) : (s.setHelm k cl x).agenda = s.agenda := rfl
@[simp] theorem State.setHelm_free (s : State) (k cl : Nat) (x : HelmSt) : (s.setHelm k cl x).free = s.free := rfl
@[simp] theorem State.setHelm_grp (s : State) (k cl : Nat) (x : HelmSt) (j : Nat) : (s.setHelm k cl x).grp j = s.grp j := rfl
@[simp] theorem State.setHelm_unit (s : State) (k cl : Nat) (x : HelmSt) (j : Nat) : (s.setHelm k cl x).unit j = s.unit j := rfl
@[simp] theorem State.setHelm_work (s : State) (k cl : Nat) (x : HelmSt) (j : Nat) : (s.setHelm k cl x).work j = s.work j := rfl
@[simp] theorem State.setHelm_core (s : State) (k cl : Nat) (x : HelmSt) (j : Nat) : (s.setHelm k cl x).core j = s.core j := rfl
@[simp] theorem State.setHelm_cluster (s : State) (k cl : Nat) (x : HelmSt) (j : Nat) : (s.setHelm k cl x).cluster j = s.cluster j := rfl
@[simp] theorem State.setHelm_die (s : State) (k cl : Nat) (x : HelmSt) (j : Nat) : (s.setHelm k cl x).die j = s.die j := rfl
@[simp] theorem State.setHelm_vf (s : State) (k cl : Nat) (x : HelmSt) (j : Nat) : (s.setHelm k cl x).vf j = s.vf j := rfl
@[simp] theorem State.setHelm_part (s : State) (k cl : Nat) (x : HelmSt) (j : Nat) : (s.setHelm k cl x).part j = s.part j := rfl
@[simp] theorem State.setHelm_ctx (s : State) (k cl : Nat) (x : HelmSt) (j : Nat) : (s.setHelm k cl x).ctx j = s.ctx j := rfl
@[simp] theorem State.setHelm_copy? (s : State) (k cl : Nat) (x : HelmSt) (i : Nat) : (s.setHelm k cl x).copy? i = s.copy? i := rfl
@[simp] theorem State.setHelm_syscore (s : State) (k cl : Nat) (x : HelmSt) (j : Nat) : (s.setHelm k cl x).syscore j = s.syscore j := rfl

@[simp] theorem State.setCopy_groups (s : State) (k : Nat) (x : Copy) : (s.setCopy k x).groups = s.groups := rfl
@[simp] theorem State.setCopy_units (s : State) (k : Nat) (x : Copy) : (s.setCopy k x).units = s.units := rfl
@[simp] theorem State.setCopy_works (s : State) (k : Nat) (x : Copy) : (s.setCopy k x).works = s.works := rfl
@[simp] theorem State.setCopy_cores (s : State) (k : Nat) (x : Copy) : (s.setCopy k x).cores = s.cores := rfl
@[simp] theorem State.setCopy_clusters (s : State) (k : Nat) (x : Copy) : (s.setCopy k x).clusters = s.clusters := rfl
@[simp] theorem State.setCopy_dies (s : State) (k : Nat) (x : Copy) : (s.setCopy k x).dies = s.dies := rfl
@[simp] theorem State.setCopy_sys (s : State) (k : Nat) (x : Copy) : (s.setCopy k x).sys = s.sys := rfl
@[simp] theorem State.setCopy_vfs (s : State) (k : Nat) (x : Copy) : (s.setCopy k x).vfs = s.vfs := rfl
@[simp] theorem State.setCopy_parts (s : State) (k : Nat) (x : Copy) : (s.setCopy k x).parts = s.parts := rfl
@[simp] theorem State.setCopy_ctxs (s : State) (k : Nat) (x : Copy) : (s.setCopy k x).ctxs = s.ctxs := rfl
@[simp] theorem State.setCopy_helms (s : State) (k : Nat) (x : Copy) : (s.setCopy k x).helms = s.helms := rfl
@[simp] theorem State.setCopy_copies (s : State) (k : Nat) (x : Copy) : (s.setCopy k x).copies = s.copies.set k x := rfl
@[simp] theorem State.setCopy_dev (s : State) (k : Nat) (x : Copy) : (s.setCopy k x).dev = s.dev := rfl
@[simp] theorem State.setCopy_mem (s : State) (k : Nat) (x : Copy) : (s.setCopy k x).mem = s.mem := rfl
@[simp] theorem State.setCopy_poison (s : State) (k : Nat) (x : Copy) : (s.setCopy k x).poison = s.poison := rfl
@[simp] theorem State.setCopy_helped (s : State) (k : Nat) (x : Copy) : (s.setCopy k x).helped = s.helped := rfl
@[simp] theorem State.setCopy_l1 (s : State) (k : Nat) (x : Copy) : (s.setCopy k x).l1 = s.l1 := rfl
@[simp] theorem State.setCopy_l2 (s : State) (k : Nat) (x : Copy) : (s.setCopy k x).l2 = s.l2 := rfl
@[simp] theorem State.setCopy_dir (s : State) (k : Nat) (x : Copy) : (s.setCopy k x).dir = s.dir := rfl
@[simp] theorem State.setCopy_drafts (s : State) (k : Nat) (x : Copy) : (s.setCopy k x).drafts = s.drafts := rfl
@[simp] theorem State.setCopy_tlb (s : State) (k : Nat) (x : Copy) : (s.setCopy k x).tlb = s.tlb := rfl
@[simp] theorem State.setCopy_utlb (s : State) (k : Nat) (x : Copy) : (s.setCopy k x).utlb = s.utlb := rfl
@[simp] theorem State.setCopy_wcache (s : State) (k : Nat) (x : Copy) : (s.setCopy k x).wcache = s.wcache := rfl
@[simp] theorem State.setCopy_invs (s : State) (k : Nat) (x : Copy) : (s.setCopy k x).invs = s.invs := rfl
@[simp] theorem State.setCopy_fkeys (s : State) (k : Nat) (x : Copy) : (s.setCopy k x).fkeys = s.fkeys := rfl
@[simp] theorem State.setCopy_frecs (s : State) (k : Nat) (x : Copy) : (s.setCopy k x).frecs = s.frecs := rfl
@[simp] theorem State.setCopy_rmem (s : State) (k : Nat) (x : Copy) : (s.setCopy k x).rmem = s.rmem := rfl
@[simp] theorem State.setCopy_trapQ (s : State) (k : Nat) (x : Copy) : (s.setCopy k x).trapQ = s.trapQ := rfl
@[simp] theorem State.setCopy_iw (s : State) (k : Nat) (x : Copy) : (s.setCopy k x).iw = s.iw := rfl
@[simp] theorem State.setCopy_cur (s : State) (k : Nat) (x : Copy) : (s.setCopy k x).cur = s.cur := rfl
@[simp] theorem State.setCopy_curCl (s : State) (k : Nat) (x : Copy) : (s.setCopy k x).curCl = s.curCl := rfl
@[simp] theorem State.setCopy_curSys (s : State) (k : Nat) (x : Copy) : (s.setCopy k x).curSys = s.curSys := rfl
@[simp] theorem State.setCopy_agenda (s : State) (k : Nat) (x : Copy) : (s.setCopy k x).agenda = s.agenda := rfl
@[simp] theorem State.setCopy_free (s : State) (k : Nat) (x : Copy) : (s.setCopy k x).free = s.free := rfl
@[simp] theorem State.setCopy_grp (s : State) (k : Nat) (x : Copy) (j : Nat) : (s.setCopy k x).grp j = s.grp j := rfl
@[simp] theorem State.setCopy_unit (s : State) (k : Nat) (x : Copy) (j : Nat) : (s.setCopy k x).unit j = s.unit j := rfl
@[simp] theorem State.setCopy_work (s : State) (k : Nat) (x : Copy) (j : Nat) : (s.setCopy k x).work j = s.work j := rfl
@[simp] theorem State.setCopy_core (s : State) (k : Nat) (x : Copy) (j : Nat) : (s.setCopy k x).core j = s.core j := rfl
@[simp] theorem State.setCopy_cluster (s : State) (k : Nat) (x : Copy) (j : Nat) : (s.setCopy k x).cluster j = s.cluster j := rfl
@[simp] theorem State.setCopy_die (s : State) (k : Nat) (x : Copy) (j : Nat) : (s.setCopy k x).die j = s.die j := rfl
@[simp] theorem State.setCopy_vf (s : State) (k : Nat) (x : Copy) (j : Nat) : (s.setCopy k x).vf j = s.vf j := rfl
@[simp] theorem State.setCopy_part (s : State) (k : Nat) (x : Copy) (j : Nat) : (s.setCopy k x).part j = s.part j := rfl
@[simp] theorem State.setCopy_ctx (s : State) (k : Nat) (x : Copy) (j : Nat) : (s.setCopy k x).ctx j = s.ctx j := rfl
@[simp] theorem State.setCopy_syscore (s : State) (k : Nat) (x : Copy) (j : Nat) : (s.setCopy k x).syscore j = s.syscore j := rfl
@[simp] theorem State.setCopy_helm (s : State) (k : Nat) (x : Copy) (i j : Nat) : (s.setCopy k x).helm i j = s.helm i j := rfl

@[simp] theorem State.modGrp_units (s : State) (g : Nat) (f : Group → Group) : (s.modGrp g f).units = s.units := by
  unfold State.modGrp; split <;> rfl
@[simp] theorem State.modGrp_works (s : State) (g : Nat) (f : Group → Group) : (s.modGrp g f).works = s.works := by
  unfold State.modGrp; split <;> rfl
@[simp] theorem State.modGrp_cores (s : State) (g : Nat) (f : Group → Group) : (s.modGrp g f).cores = s.cores := by
  unfold State.modGrp; split <;> rfl
@[simp] theorem State.modGrp_clusters (s : State) (g : Nat) (f : Group → Group) : (s.modGrp g f).clusters = s.clusters := by
  unfold State.modGrp; split <;> rfl
@[simp] theorem State.modGrp_dies (s : State) (g : Nat) (f : Group → Group) : (s.modGrp g f).dies = s.dies := by
  unfold State.modGrp; split <;> rfl
@[simp] theorem State.modGrp_vfs (s : State) (g : Nat) (f : Group → Group) : (s.modGrp g f).vfs = s.vfs := by
  unfold State.modGrp; split <;> rfl
@[simp] theorem State.modGrp_parts (s : State) (g : Nat) (f : Group → Group) : (s.modGrp g f).parts = s.parts := by
  unfold State.modGrp; split <;> rfl
@[simp] theorem State.modGrp_ctxs (s : State) (g : Nat) (f : Group → Group) : (s.modGrp g f).ctxs = s.ctxs := by
  unfold State.modGrp; split <;> rfl
@[simp] theorem State.modGrp_helms (s : State) (g : Nat) (f : Group → Group) : (s.modGrp g f).helms = s.helms := by
  unfold State.modGrp; split <;> rfl
@[simp] theorem State.modGrp_copies (s : State) (g : Nat) (f : Group → Group) : (s.modGrp g f).copies = s.copies := by
  unfold State.modGrp; split <;> rfl
@[simp] theorem State.modGrp_dev (s : State) (g : Nat) (f : Group → Group) : (s.modGrp g f).dev = s.dev := by
  unfold State.modGrp; split <;> rfl
@[simp] theorem State.modGrp_mem (s : State) (g : Nat) (f : Group → Group) : (s.modGrp g f).mem = s.mem := by
  unfold State.modGrp; split <;> rfl
@[simp] theorem State.modGrp_poison (s : State) (g : Nat) (f : Group → Group) : (s.modGrp g f).poison = s.poison := by
  unfold State.modGrp; split <;> rfl
@[simp] theorem State.modGrp_helped (s : State) (g : Nat) (f : Group → Group) : (s.modGrp g f).helped = s.helped := by
  unfold State.modGrp; split <;> rfl
@[simp] theorem State.modGrp_l1 (s : State) (g : Nat) (f : Group → Group) : (s.modGrp g f).l1 = s.l1 := by
  unfold State.modGrp; split <;> rfl
@[simp] theorem State.modGrp_dir (s : State) (g : Nat) (f : Group → Group) : (s.modGrp g f).dir = s.dir := by
  unfold State.modGrp; split <;> rfl
@[simp] theorem State.modGrp_drafts (s : State) (g : Nat) (f : Group → Group) : (s.modGrp g f).drafts = s.drafts := by
  unfold State.modGrp; split <;> rfl
@[simp] theorem State.modGrp_tlb (s : State) (g : Nat) (f : Group → Group) : (s.modGrp g f).tlb = s.tlb := by
  unfold State.modGrp; split <;> rfl
@[simp] theorem State.modGrp_invs (s : State) (g : Nat) (f : Group → Group) : (s.modGrp g f).invs = s.invs := by
  unfold State.modGrp; split <;> rfl
@[simp] theorem State.modGrp_fkeys (s : State) (g : Nat) (f : Group → Group) : (s.modGrp g f).fkeys = s.fkeys := by
  unfold State.modGrp; split <;> rfl
@[simp] theorem State.modGrp_frecs (s : State) (g : Nat) (f : Group → Group) : (s.modGrp g f).frecs = s.frecs := by
  unfold State.modGrp; split <;> rfl
@[simp] theorem State.modGrp_rmem (s : State) (g : Nat) (f : Group → Group) : (s.modGrp g f).rmem = s.rmem := by
  unfold State.modGrp; split <;> rfl
@[simp] theorem State.modGrp_trapQ (s : State) (g : Nat) (f : Group → Group) : (s.modGrp g f).trapQ = s.trapQ := by
  unfold State.modGrp; split <;> rfl
@[simp] theorem State.modGrp_iw (s : State) (g : Nat) (f : Group → Group) : (s.modGrp g f).iw = s.iw := by
  unfold State.modGrp; split <;> rfl
@[simp] theorem State.modGrp_cur (s : State) (g : Nat) (f : Group → Group) : (s.modGrp g f).cur = s.cur := by
  unfold State.modGrp; split <;> rfl
@[simp] theorem State.modGrp_curCl (s : State) (g : Nat) (f : Group → Group) : (s.modGrp g f).curCl = s.curCl := by
  unfold State.modGrp; split <;> rfl
@[simp] theorem State.modGrp_agenda (s : State) (g : Nat) (f : Group → Group) : (s.modGrp g f).agenda = s.agenda := by
  unfold State.modGrp; split <;> rfl
@[simp] theorem State.modGrp_free (s : State) (g : Nat) (f : Group → Group) : (s.modGrp g f).free = s.free := by
  unfold State.modGrp; split <;> rfl
@[simp] theorem State.modGrp_unit (s : State) (g : Nat) (f : Group → Group) (j : Nat) : (s.modGrp g f).unit j = s.unit j := by
  unfold State.modGrp; split <;> rfl
@[simp] theorem State.modGrp_work (s : State) (g : Nat) (f : Group → Group) (j : Nat) : (s.modGrp g f).work j = s.work j := by
  unfold State.modGrp; split <;> rfl
@[simp] theorem State.modGrp_core (s : State) (g : Nat) (f : Group → Group) (j : Nat) : (s.modGrp g f).core j = s.core j := by
  unfold State.modGrp; split <;> rfl
@[simp] theorem State.modGrp_cluster (s : State) (g : Nat) (f : Group → Group) (j : Nat) : (s.modGrp g f).cluster j = s.cluster j := by
  unfold State.modGrp; split <;> rfl
@[simp] theorem State.modGrp_die (s : State) (g : Nat) (f : Group → Group) (j : Nat) : (s.modGrp g f).die j = s.die j := by
  unfold State.modGrp; split <;> rfl
@[simp] theorem State.modGrp_vf (s : State) (g : Nat) (f : Group → Group) (j : Nat) : (s.modGrp g f).vf j = s.vf j := by
  unfold State.modGrp; split <;> rfl
@[simp] theorem State.modGrp_part (s : State) (g : Nat) (f : Group → Group) (j : Nat) : (s.modGrp g f).part j = s.part j := by
  unfold State.modGrp; split <;> rfl
@[simp] theorem State.modGrp_sys (s : State) (g : Nat) (f : Group → Group) : (s.modGrp g f).sys = s.sys := by
  unfold State.modGrp; split <;> rfl
@[simp] theorem State.modGrp_l2 (s : State) (g : Nat) (f : Group → Group) : (s.modGrp g f).l2 = s.l2 := by
  unfold State.modGrp; split <;> rfl
@[simp] theorem State.modGrp_utlb (s : State) (g : Nat) (f : Group → Group) : (s.modGrp g f).utlb = s.utlb := by
  unfold State.modGrp; split <;> rfl
@[simp] theorem State.modGrp_wcache (s : State) (g : Nat) (f : Group → Group) : (s.modGrp g f).wcache = s.wcache := by
  unfold State.modGrp; split <;> rfl
@[simp] theorem State.modGrp_curSys (s : State) (g : Nat) (f : Group → Group) : (s.modGrp g f).curSys = s.curSys := by
  unfold State.modGrp; split <;> rfl
@[simp] theorem State.modGrp_syscore (s : State) (g : Nat) (f : Group → Group) (j : Nat) : (s.modGrp g f).syscore j = s.syscore j := by
  unfold State.modGrp; split <;> rfl
@[simp] theorem State.modGrp_ctx (s : State) (g : Nat) (f : Group → Group) (j : Nat) : (s.modGrp g f).ctx j = s.ctx j := by
  unfold State.modGrp; split <;> rfl

@[simp] theorem State.modUnit_groups (s : State) (g : Nat) (f : UnitSt → UnitSt) : (s.modUnit g f).groups = s.groups := by
  unfold State.modUnit; split <;> rfl
@[simp] theorem State.modUnit_works (s : State) (g : Nat) (f : UnitSt → UnitSt) : (s.modUnit g f).works = s.works := by
  unfold State.modUnit; split <;> rfl
@[simp] theorem State.modUnit_cores (s : State) (g : Nat) (f : UnitSt → UnitSt) : (s.modUnit g f).cores = s.cores := by
  unfold State.modUnit; split <;> rfl
@[simp] theorem State.modUnit_clusters (s : State) (g : Nat) (f : UnitSt → UnitSt) : (s.modUnit g f).clusters = s.clusters := by
  unfold State.modUnit; split <;> rfl
@[simp] theorem State.modUnit_dies (s : State) (g : Nat) (f : UnitSt → UnitSt) : (s.modUnit g f).dies = s.dies := by
  unfold State.modUnit; split <;> rfl
@[simp] theorem State.modUnit_vfs (s : State) (g : Nat) (f : UnitSt → UnitSt) : (s.modUnit g f).vfs = s.vfs := by
  unfold State.modUnit; split <;> rfl
@[simp] theorem State.modUnit_parts (s : State) (g : Nat) (f : UnitSt → UnitSt) : (s.modUnit g f).parts = s.parts := by
  unfold State.modUnit; split <;> rfl
@[simp] theorem State.modUnit_ctxs (s : State) (g : Nat) (f : UnitSt → UnitSt) : (s.modUnit g f).ctxs = s.ctxs := by
  unfold State.modUnit; split <;> rfl
@[simp] theorem State.modUnit_helms (s : State) (g : Nat) (f : UnitSt → UnitSt) : (s.modUnit g f).helms = s.helms := by
  unfold State.modUnit; split <;> rfl
@[simp] theorem State.modUnit_copies (s : State) (g : Nat) (f : UnitSt → UnitSt) : (s.modUnit g f).copies = s.copies := by
  unfold State.modUnit; split <;> rfl
@[simp] theorem State.modUnit_dev (s : State) (g : Nat) (f : UnitSt → UnitSt) : (s.modUnit g f).dev = s.dev := by
  unfold State.modUnit; split <;> rfl
@[simp] theorem State.modUnit_mem (s : State) (g : Nat) (f : UnitSt → UnitSt) : (s.modUnit g f).mem = s.mem := by
  unfold State.modUnit; split <;> rfl
@[simp] theorem State.modUnit_poison (s : State) (g : Nat) (f : UnitSt → UnitSt) : (s.modUnit g f).poison = s.poison := by
  unfold State.modUnit; split <;> rfl
@[simp] theorem State.modUnit_helped (s : State) (g : Nat) (f : UnitSt → UnitSt) : (s.modUnit g f).helped = s.helped := by
  unfold State.modUnit; split <;> rfl
@[simp] theorem State.modUnit_l1 (s : State) (g : Nat) (f : UnitSt → UnitSt) : (s.modUnit g f).l1 = s.l1 := by
  unfold State.modUnit; split <;> rfl
@[simp] theorem State.modUnit_dir (s : State) (g : Nat) (f : UnitSt → UnitSt) : (s.modUnit g f).dir = s.dir := by
  unfold State.modUnit; split <;> rfl
@[simp] theorem State.modUnit_drafts (s : State) (g : Nat) (f : UnitSt → UnitSt) : (s.modUnit g f).drafts = s.drafts := by
  unfold State.modUnit; split <;> rfl
@[simp] theorem State.modUnit_tlb (s : State) (g : Nat) (f : UnitSt → UnitSt) : (s.modUnit g f).tlb = s.tlb := by
  unfold State.modUnit; split <;> rfl
@[simp] theorem State.modUnit_invs (s : State) (g : Nat) (f : UnitSt → UnitSt) : (s.modUnit g f).invs = s.invs := by
  unfold State.modUnit; split <;> rfl
@[simp] theorem State.modUnit_fkeys (s : State) (g : Nat) (f : UnitSt → UnitSt) : (s.modUnit g f).fkeys = s.fkeys := by
  unfold State.modUnit; split <;> rfl
@[simp] theorem State.modUnit_frecs (s : State) (g : Nat) (f : UnitSt → UnitSt) : (s.modUnit g f).frecs = s.frecs := by
  unfold State.modUnit; split <;> rfl
@[simp] theorem State.modUnit_rmem (s : State) (g : Nat) (f : UnitSt → UnitSt) : (s.modUnit g f).rmem = s.rmem := by
  unfold State.modUnit; split <;> rfl
@[simp] theorem State.modUnit_trapQ (s : State) (g : Nat) (f : UnitSt → UnitSt) : (s.modUnit g f).trapQ = s.trapQ := by
  unfold State.modUnit; split <;> rfl
@[simp] theorem State.modUnit_iw (s : State) (g : Nat) (f : UnitSt → UnitSt) : (s.modUnit g f).iw = s.iw := by
  unfold State.modUnit; split <;> rfl
@[simp] theorem State.modUnit_cur (s : State) (g : Nat) (f : UnitSt → UnitSt) : (s.modUnit g f).cur = s.cur := by
  unfold State.modUnit; split <;> rfl
@[simp] theorem State.modUnit_curCl (s : State) (g : Nat) (f : UnitSt → UnitSt) : (s.modUnit g f).curCl = s.curCl := by
  unfold State.modUnit; split <;> rfl
@[simp] theorem State.modUnit_agenda (s : State) (g : Nat) (f : UnitSt → UnitSt) : (s.modUnit g f).agenda = s.agenda := by
  unfold State.modUnit; split <;> rfl
@[simp] theorem State.modUnit_free (s : State) (g : Nat) (f : UnitSt → UnitSt) : (s.modUnit g f).free = s.free := by
  unfold State.modUnit; split <;> rfl
@[simp] theorem State.modUnit_grp (s : State) (g : Nat) (f : UnitSt → UnitSt) (j : Nat) : (s.modUnit g f).grp j = s.grp j := by
  unfold State.modUnit; split <;> rfl
@[simp] theorem State.modUnit_work (s : State) (g : Nat) (f : UnitSt → UnitSt) (j : Nat) : (s.modUnit g f).work j = s.work j := by
  unfold State.modUnit; split <;> rfl
@[simp] theorem State.modUnit_core (s : State) (g : Nat) (f : UnitSt → UnitSt) (j : Nat) : (s.modUnit g f).core j = s.core j := by
  unfold State.modUnit; split <;> rfl
@[simp] theorem State.modUnit_cluster (s : State) (g : Nat) (f : UnitSt → UnitSt) (j : Nat) : (s.modUnit g f).cluster j = s.cluster j := by
  unfold State.modUnit; split <;> rfl
@[simp] theorem State.modUnit_die (s : State) (g : Nat) (f : UnitSt → UnitSt) (j : Nat) : (s.modUnit g f).die j = s.die j := by
  unfold State.modUnit; split <;> rfl
@[simp] theorem State.modUnit_vf (s : State) (g : Nat) (f : UnitSt → UnitSt) (j : Nat) : (s.modUnit g f).vf j = s.vf j := by
  unfold State.modUnit; split <;> rfl
@[simp] theorem State.modUnit_part (s : State) (g : Nat) (f : UnitSt → UnitSt) (j : Nat) : (s.modUnit g f).part j = s.part j := by
  unfold State.modUnit; split <;> rfl
@[simp] theorem State.modUnit_sys (s : State) (g : Nat) (f : UnitSt → UnitSt) : (s.modUnit g f).sys = s.sys := by
  unfold State.modUnit; split <;> rfl
@[simp] theorem State.modUnit_l2 (s : State) (g : Nat) (f : UnitSt → UnitSt) : (s.modUnit g f).l2 = s.l2 := by
  unfold State.modUnit; split <;> rfl
@[simp] theorem State.modUnit_utlb (s : State) (g : Nat) (f : UnitSt → UnitSt) : (s.modUnit g f).utlb = s.utlb := by
  unfold State.modUnit; split <;> rfl
@[simp] theorem State.modUnit_wcache (s : State) (g : Nat) (f : UnitSt → UnitSt) : (s.modUnit g f).wcache = s.wcache := by
  unfold State.modUnit; split <;> rfl
@[simp] theorem State.modUnit_curSys (s : State) (g : Nat) (f : UnitSt → UnitSt) : (s.modUnit g f).curSys = s.curSys := by
  unfold State.modUnit; split <;> rfl
@[simp] theorem State.modUnit_syscore (s : State) (g : Nat) (f : UnitSt → UnitSt) (j : Nat) : (s.modUnit g f).syscore j = s.syscore j := by
  unfold State.modUnit; split <;> rfl
@[simp] theorem State.modUnit_ctx (s : State) (g : Nat) (f : UnitSt → UnitSt) (j : Nat) : (s.modUnit g f).ctx j = s.ctx j := by
  unfold State.modUnit; split <;> rfl

@[simp] theorem State.tick_groups (s : State) : s.tick.groups = s.groups := rfl
@[simp] theorem State.tick_units (s : State) : s.tick.units = s.units := rfl
@[simp] theorem State.tick_works (s : State) : s.tick.works = s.works := rfl
@[simp] theorem State.tick_cores (s : State) : s.tick.cores = s.cores := rfl
@[simp] theorem State.tick_clusters (s : State) : s.tick.clusters = s.clusters := rfl
@[simp] theorem State.tick_dies (s : State) : s.tick.dies = s.dies := rfl
@[simp] theorem State.tick_vfs (s : State) : s.tick.vfs = s.vfs := rfl
@[simp] theorem State.tick_parts (s : State) : s.tick.parts = s.parts := rfl
@[simp] theorem State.tick_ctxs (s : State) : s.tick.ctxs = s.ctxs := rfl
@[simp] theorem State.tick_helms (s : State) : s.tick.helms = s.helms := rfl
@[simp] theorem State.tick_copies (s : State) : s.tick.copies = s.copies := rfl
@[simp] theorem State.tick_dev (s : State) : s.tick.dev = s.dev := rfl
@[simp] theorem State.tick_mem (s : State) : s.tick.mem = s.mem := rfl
@[simp] theorem State.tick_poison (s : State) : s.tick.poison = s.poison := rfl
@[simp] theorem State.tick_helped (s : State) : s.tick.helped = s.helped := rfl
@[simp] theorem State.tick_l1 (s : State) : s.tick.l1 = s.l1 := rfl
@[simp] theorem State.tick_dir (s : State) : s.tick.dir = s.dir := rfl
@[simp] theorem State.tick_drafts (s : State) : s.tick.drafts = s.drafts := rfl
@[simp] theorem State.tick_tlb (s : State) : s.tick.tlb = s.tlb := rfl
@[simp] theorem State.tick_invs (s : State) : s.tick.invs = s.invs := rfl
@[simp] theorem State.tick_fkeys (s : State) : s.tick.fkeys = s.fkeys := rfl
@[simp] theorem State.tick_frecs (s : State) : s.tick.frecs = s.frecs := rfl
@[simp] theorem State.tick_rmem (s : State) : s.tick.rmem = s.rmem := rfl
@[simp] theorem State.tick_trapQ (s : State) : s.tick.trapQ = s.trapQ := rfl
@[simp] theorem State.tick_iw (s : State) : s.tick.iw = s.iw := rfl
@[simp] theorem State.tick_cur (s : State) : s.tick.cur = s.cur := rfl
@[simp] theorem State.tick_curCl (s : State) : s.tick.curCl = s.curCl := rfl
@[simp] theorem State.tick_agenda (s : State) : s.tick.agenda = s.agenda := rfl
@[simp] theorem State.tick_sys (s : State) : s.tick.sys = s.sys := rfl
@[simp] theorem State.tick_l2 (s : State) : s.tick.l2 = s.l2 := rfl
@[simp] theorem State.tick_utlb (s : State) : s.tick.utlb = s.utlb := rfl
@[simp] theorem State.tick_wcache (s : State) : s.tick.wcache = s.wcache := rfl
@[simp] theorem State.tick_curSys (s : State) : s.tick.curSys = s.curSys := rfl
@[simp] theorem State.tick_free (s : State) : s.tick.free = s.free + 1 := rfl

/-- The record of a group that is in the machine, after it is changed. -/
theorem State.modGrp_grp_same (s : State) (g : Nat) (f : Group → Group) (h : (s.groups.find? g).isSome) :
    (s.modGrp g f).grp g = f (s.grp g) := by
  unfold State.modGrp
  obtain ⟨x, hx⟩ := Option.isSome_iff_exists.mp h
  simp [hx, State.grp, Tbl.getD, State.setGrp]

/-- A changed group of the machine is the group set. -/
theorem State.modGrp_eq_setGrp (s : State) (g : Nat) (f : Group → Group) (h : (s.groups.find? g).isSome) :
    s.modGrp g f = s.setGrp g (f (s.grp g)) := by
  unfold State.modGrp
  obtain ⟨x, hx⟩ := Option.isSome_iff_exists.mp h
  simp [hx, State.grp, Tbl.getD]

/-- Setting a group twice leaves the last. -/
theorem State.setGrp_setGrp (s : State) (g : Nat) (x y : Group) : (s.setGrp g x).setGrp g y = s.setGrp g y := by
  simp [State.setGrp, Tbl.set_set]

/-- A group that is set is in the machine. -/
@[simp] theorem State.setGrp_find (s : State) (g : Nat) (x : Group) : (s.setGrp g x).groups.find? g = some x := by
  simp [State.setGrp]

end Sys2Proof.Machine
end

