-- ==== Sys2Proof/Laws/Issue.lean ====
section
/-!
SUPPORT. Sys2Proof/Laws/Issue.lean: what the shared frame of the group instructions does: a word that passes its checks and
whose body succeeds retires; what retirement leaves; scalar writes and scalar forms.
-/
namespace Sys2Proof.Machine
open Host (Outcome)

/-! ## The frame -/

theorem State.issuing_groups_isSome (s : State) (h : (s.groups.find? s.cur).isSome = true) :
    (s.issuing.groups.find? s.cur).isSome = true := by
  unfold State.issuing
  rw [State.modGrp_eq_setGrp _ _ _ h]
  simp

theorem State.ix_gid (s : State) (vec : Bool) : (s.ix vec).gid = s.cur := by
  simp [State.ix, State.ixOf, State.issuing]

theorem State.ix_g (s : State) (vec : Bool) : (s.ix vec).g = s.issuing.grp s.cur := by
  simp [State.ix, State.ixOf, State.issuing]

/-- A word that passes its checks and whose body succeeds retires with the effects of the body. -/
theorem issue_next {cls : Option Nat} {vec : Bool} {i : Instr} {sf : BitVec 3} {body : IX → State → R Eff} {s : State} {e : Eff}
    (h : Passes cls vec i s) (hb : body (s.ix vec) s.issuing = .ok e) :
    issue cls vec i sf body s = .next (State.finish (s.ix vec) sf.toNat vec e) := by
  obtain ⟨-, hf, hc⟩ := h
  have hi : s.issuing.iw = s.iw := by simp [State.issuing]
  simp only [State.ix, State.issuing] at hf hc hi hb ⊢
  unfold issue
  simp only [hf, hi, hc, hb, Bool.false_eq_true, if_false]

/-- A word that passes its checks and whose body stops does what the stop says. -/
theorem issue_stop {cls : Option Nat} {vec : Bool} {i : Instr} {sf : BitVec 3} {body : IX → State → R Eff} {s t : State} {st : Stop}
    (h : Passes cls vec i s) (hb : body (s.ix vec) s.issuing = .error (t, st)) :
    issue cls vec i sf body s = t.stopAt (s.ix vec) sf.toNat vec st := by
  obtain ⟨-, hf, hc⟩ := h
  have hi : s.issuing.iw = s.iw := by simp [State.issuing]
  simp only [State.ix, State.issuing] at hf hc hi hb ⊢
  unfold issue
  simp only [hf, hi, hc, hb, Bool.false_eq_true, if_false]

/-- Retirement of effects that leave the group's run state alone, give no slot away and raise no float exception. -/
theorem finish_plain (x : IX) (sf : Nat) (vec : Bool) (e : Eff) (he : (e.s.groups.find? x.gid).isSome = true)
    (hst : (e.s.grp x.gid).st = x.g.st) (hg : e.give = none) (hf : e.fpx = none) :
    State.finish x sf vec e = (e.s.setGrp x.gid ((e.s.grp x.gid).retire x e sf)).coreTime x.g.core x.t e.last vec := by
  have h2 : ((e.s.grp x.gid).retire x e sf).st = x.g.st := by rw [← hst]; rfl
  unfold State.finish
  rw [State.modGrp_eq_setGrp _ _ _ he, hg, hf]
  simp [State.coreTime, h2]

theorem State.coreTime_core (s : State) (c t last : Nat) (vec : Bool) :
    (s.coreTime c t last vec).core c = { s.core c with cycle := t + 1, vbusy := if vec then last + 1 else (s.core c).vbusy } := by
  simp [State.coreTime]

theorem State.coreTime_grp (s : State) (c t last : Nat) (vec : Bool) (g : Nat) :
    (s.coreTime c t last vec).grp g = s.grp g := by
  simp [State.coreTime]

/-- Setting a group and the clock of its core leaves every other group and core. -/
theorem onlyGroup_of (s s1 : State) (g c t last : Nat) (vec : Bool) (x : Group) (h : OnlyGroup g c s s1) :
    OnlyGroup g c s ((s1.setGrp g x).coreTime c t last vec) := by
  obtain ⟨h0, h1, h2⟩ := h
  refine ⟨?_, ?_, ?_⟩
  · rw [h0]
    rfl
  · intro k hk
    simp only [State.coreTime, State.setCore_groups, State.setGrp_groups]
    rw [Tbl.find?_set_ne _ _ _ _ (Ne.symm hk), h1 k hk]
  · intro k hk
    simp only [State.coreTime, State.setCore_cores, State.setGrp_cores]
    rw [Tbl.find?_set_ne _ _ _ _ (Ne.symm hk), h2 k hk]

/-! ## Scalars -/

/-- A scalar write changes the record of its group only. -/
theorem writeScal_eq (s : State) (gid n : Nat) (v : Word) (cyc lat : Nat) (h : n < 48) (hl : 0 < lat) :
    writeScal s gid n v cyc lat = s.setGrp gid { s.grp gid with
      sr := (s.grp gid).sr.set n v
      pend := (s.grp gid).pend ++ [⟨.scal n, cyc + lat, [wAt (s.grp gid).sr n]⟩]
      ops := (s.grp gid).ops.map fun o => if ((s.grp gid).cellsOf o).contains (.scal n) then { o with newer := (.scal n, 1#32) :: o.newer } else o } := by
  unfold writeScal
  rw [if_neg (by omega)]
  simp only [if_neg (Nat.ne_of_gt hl)]

/-- zr, and every index above 47, discards a scalar write (R12). -/
theorem writeScal_zr (s : State) (gid n : Nat) (v : Word) (cyc lat : Nat) (h : 48 ≤ n) : writeScal s gid n v cyc lat = s := by
  unfold writeScal
  rw [if_pos h]

/-- Marks of cells written since are all that a later write does to an operation in flight. -/
theorem inFlight_newer (l : List Op) (f : Op → Bool) (c : RCell × Word) :
    (l.map fun o => if f o then { o with newer := c :: o.newer } else o).map (fun o : Op => { o with newer := [] }) =
      l.map fun o => { o with newer := [] } := by
  rw [List.map_map]
  apply List.map_congr_left
  intro o _
  simp only [Function.comp]
  split <;> rfl

/-- What retirement leaves in a group that differs from the issuing one only in registers and pending results. -/
theorem retires_retire (x : IX) (sf : Nat) (e : Eff) (g : Group) (hpc : g.pc = x.g.pc) (hch : g.chain = x.g.chain)
    (hgst : g.gst = x.g.gst) : Retires x sf e.last e.pc g.flagPend (g.retire x e sf) := by
  unfold Retires Group.retire IX.more Group.settleFlags Group.gstAt
  simp only [hpc, hch, hgst]
  refine ⟨?_, ?_, ?_, ?_, ?_, ?_, ?_, ?_, ?_, ?_, ?_⟩ <;> first | rfl | trivial

/-- A scalar form whose sources are readable completes. -/
theorem scalarForm_done {i : Instr} {s : State} {rs : List Nat} {d : Nat} {f : List Word → Word} {sf : BitVec 3}
    {rsOf : IX → List Nat} {dOf : IX → Nat} {fOf : IX → List Word → Word}
    (h : Passes none false i s) (hr : rsOf (s.ix false) = rs) (hd : dOf (s.ix false) = d) (hf : fOf (s.ix false) = f)
    (hs : (s.ix false).g.scoreboard (scalarUses (s.ix false) rs [d]) = none) :
    ∃ t, issueS i sf (fun x => scalarForm x (rsOf x) (dOf x) (fOf x)) s = .next t ∧
      ScalarDone (s.ix false) false sf.toNat (s.ix false).t 2 d
        (f (rs.map fun n => scalarVal s.issuing (s.ix false).g n (s.ix false).t)) s.issuing t := by
  subst hr hd hf
  have hb : scalarForm (s.ix false) (rsOf (s.ix false)) (dOf (s.ix false)) (fOf (s.ix false)) s.issuing =
      .ok (Eff.plain (s.ix false) (writeScal s.issuing (s.ix false).gid (dOf (s.ix false)) (fOf (s.ix false)
        ((rsOf (s.ix false)).map fun n => scalarVal s.issuing (s.ix false).g n (s.ix false).t)) (s.ix false).t 2)) := by
    simp only [scalarForm, scalars, hs]
    rfl
  refine ⟨_, issue_next h hb, ?_⟩
  have hg := s.ix_gid false
  have hgg := s.ix_g false
  have hsome := s.issuing_groups_isSome h.1
  generalize s.ix false = x at *
  generalize (fOf x ((rsOf x).map fun n => scalarVal s.issuing x.g n x.t)) = v
  generalize dOf x = d
  by_cases h48 : d < 48
  · rw [writeScal_eq _ _ _ _ _ _ h48 (by decide)]
    rw [finish_plain _ _ _ _ (by simp [Eff.plain]) (by simp [Eff.plain, hgg, hg]) rfl rfl]
    simp only [Eff.plain, State.setGrp_grp_same, State.setGrp_setGrp]
    refine ⟨onlyGroup_of _ _ _ _ _ _ _ _ ⟨rfl, fun _ _ => rfl, fun _ _ => rfl⟩, ?_, ?_, ?_, ?_, ?_, ?_⟩
    · simp [CoreAfter, State.coreTime_core]
    · simp only [State.coreTime_grp, State.setGrp_grp_same, hg, ← hgg]
      exact ⟨rfl, inFlight_newer _ (fun o => (x.g.cellsOf o).contains (.scal d)) _⟩
    · simp only [State.coreTime_grp, State.setGrp_grp_same, hg, ← hgg]
      exact retires_retire x sf.toNat ⟨_, x.t, none, none, none⟩ _ rfl rfl rfl
    · simp only [State.coreTime_grp, State.setGrp_grp_same, hg, ← hgg]
      rfl
    · simp only [State.coreTime_grp, State.setGrp_grp_same, hg, ← hgg, ScalarsSet, h48, if_true]
      rfl
    · simp only [State.coreTime_grp, State.setGrp_grp_same, hg, ← hgg, h48, if_true]
      rfl
  · rw [writeScal_zr _ _ _ _ _ _ (by omega)]
    rw [finish_plain _ _ _ _ (by simpa [Eff.plain, hg] using hsome) (by simp [Eff.plain, hgg, hg]) rfl rfl]
    simp only [Eff.plain]
    refine ⟨onlyGroup_of _ _ _ _ _ _ _ _ ⟨rfl, fun _ _ => rfl, fun _ _ => rfl⟩, ?_, ?_, ?_, ?_, ?_, ?_⟩
    · simp [CoreAfter, State.coreTime_core]
    · simp only [State.coreTime_grp, State.setGrp_grp_same, hg, ← hgg]
      exact ⟨rfl, rfl⟩
    · simp only [State.coreTime_grp, State.setGrp_grp_same, hg, ← hgg]
      exact retires_retire x sf.toNat ⟨_, x.t, none, none, none⟩ _ rfl rfl rfl
    · simp only [State.coreTime_grp, State.setGrp_grp_same, hg, ← hgg]
      rfl
    · simp only [State.coreTime_grp, State.setGrp_grp_same, hg, ← hgg, ScalarsSet, h48, if_false]
      rfl
    · simp only [State.coreTime_grp, State.setGrp_grp_same, hg, ← hgg, h48, if_false]
      rfl

/-! ## One-cycle words -/

/-- Effects that change the issuing group alone, and its retirement. -/
theorem plain_done (x : IX) (vec : Bool) (sf : Nat) (tgt : Option Nat) (s : State) (g' : Group) (e : Eff)
    (hs : OnlyGroup x.gid x.g.core s e.s) (hc : e.s.cores = s.cores) (hf : (e.s.groups.find? x.gid).isSome = true)
    (hl : e.last = x.t) (hp : e.pc = tgt) (hx : e.fpx = none) (hv : e.give = none)
    (hg : GroupKept g' (e.s.grp x.gid)) (hvr : (e.s.grp x.gid).vr = g'.vr) (hsr : (e.s.grp x.gid).sr = g'.sr)
    (hpe : (e.s.grp x.gid).pend = g'.pend) (hst : (e.s.grp x.gid).st = x.g.st) (hpc : (e.s.grp x.gid).pc = x.g.pc)
    (hch : (e.s.grp x.gid).chain = x.g.chain) (hgst : (e.s.grp x.gid).gst = x.g.gst)
    (hfp : (e.s.grp x.gid).flagPend = x.g.flagPend) :
    PlainDone x vec sf tgt g' s (State.finish x sf vec e) := by
  rw [finish_plain x sf vec e hf hst hv hx, hl]
  have hcore : e.s.core x.g.core = s.core x.g.core := by simp [State.core, hc]
  refine ⟨onlyGroup_of _ _ _ _ _ _ _ _ hs, ?_, ?_, ?_, ?_, ?_, ?_⟩
  · simp only [CoreAfter, State.coreTime_core, State.setGrp_core, hcore]
  · simp only [State.coreTime_grp, State.setGrp_grp_same]
    refine ⟨?_, hg.2⟩
    rw [hg.1]
    rfl
  · simp only [State.coreTime_grp, State.setGrp_grp_same]
    have := retires_retire x sf e (e.s.grp x.gid) hpc hch hgst
    rw [hl, hp, hfp] at this
    exact this
  · simp only [State.coreTime_grp, State.setGrp_grp_same]
    exact hvr
  · simp only [State.coreTime_grp, State.setGrp_grp_same]
    exact hsr
  · simp only [State.coreTime_grp, State.setGrp_grp_same]
    rw [← hpe]
    rfl

theorem GroupKept.refl (g : Group) : GroupKept g g := ⟨rfl, rfl⟩

/-- A body that leaves the state alone and goes on at a target. -/
theorem plain_same (x : IX) (vec : Bool) (sf : Nat) (tgt : Option Nat) (s : State) (hf : (s.groups.find? x.gid).isSome = true)
    (hg : s.grp x.gid = x.g) : PlainDone x vec sf tgt x.g s (State.finish x sf vec ⟨s, x.t, tgt, none, none⟩) :=
  plain_done x vec sf tgt s x.g ⟨s, x.t, tgt, none, none⟩ ⟨rfl, fun _ _ => rfl, fun _ _ => rfl⟩ rfl hf rfl rfl rfl rfl
    (by rw [hg]; exact GroupKept.refl _) (by rw [hg]) (by rw [hg]) (by rw [hg]) (by rw [hg]) (by rw [hg]) (by rw [hg])
    (by rw [hg]) (by rw [hg])

/-- A body that replaces the record of the issuing group, keeping its run state, PC, glosses and status. -/
theorem plain_set (x : IX) (vec : Bool) (sf : Nat) (tgt : Option Nat) (s : State) (g' : Group) (hst : g'.st = x.g.st)
    (hpc : g'.pc = x.g.pc) (hch : g'.chain = x.g.chain) (hgst : g'.gst = x.g.gst) (hfp : g'.flagPend = x.g.flagPend) :
    PlainDone x vec sf tgt g' s (State.finish x sf vec ⟨s.setGrp x.gid g', x.t, tgt, none, none⟩) :=
  plain_done x vec sf tgt s g' ⟨s.setGrp x.gid g', x.t, tgt, none, none⟩
    ⟨rfl, fun k hk => by rw [State.setGrp_groups, Tbl.find?_set_ne _ _ _ _ (Ne.symm hk)], fun _ _ => rfl⟩ rfl (by simp) rfl rfl rfl rfl
    (by rw [State.setGrp_grp_same]; exact GroupKept.refl _) (by rw [State.setGrp_grp_same]) (by rw [State.setGrp_grp_same])
    (by rw [State.setGrp_grp_same]) (by rw [State.setGrp_grp_same]; exact hst) (by rw [State.setGrp_grp_same]; exact hpc)
    (by rw [State.setGrp_grp_same]; exact hch) (by rw [State.setGrp_grp_same]; exact hgst) (by rw [State.setGrp_grp_same]; exact hfp)

end Sys2Proof.Machine
end

