-- ==== Sys2Proof/Laws/Vector.lean ====
section
/-!
SUPPORT. Sys2Proof/Laws/Vector.lean: what gathering the operands of a vector instruction and writing its rows do.
-/
namespace Sys2Proof.Machine
open Host (Outcome)

/-! ## Tables with rising keys -/

theorem keysRise_tail {α : Type} (p : Nat × α) (t : Tbl α) (h : keysRise (p :: t) = true) : keysRise t = true := by
  cases t with
  | nil => rfl
  | cons q t =>
    simp only [keysRise, Bool.and_eq_true] at h
    exact h.2

theorem keysRise_lt {α : Type} (p : Nat × α) (t : Tbl α) (h : keysRise (p :: t) = true) : ∀ q ∈ t, p.1 < q.1 := by
  induction t generalizing p with
  | nil => intro q hq; cases hq
  | cons r t ih =>
    simp only [keysRise, Bool.and_eq_true, decide_eq_true_eq] at h
    intro q hq
    rcases List.mem_cons.mp hq with e | e
    · rw [e]; exact h.1
    · exact Nat.lt_trans h.1 (ih r h.2 q e)

/-- In a table of rising keys an entry that is set replaces the one that stood there. -/
theorem tbl_set_split {α : Type} (t : Tbl α) (k : Nat) (y : α) (h : keysRise t = true) (hf : Tbl.find? t k = some y) :
    ∃ a b, t = a ++ (k, y) :: b ∧ ∀ x, Tbl.set t k x = a ++ (k, x) :: b := by
  induction t with
  | nil => cases hf
  | cons p t ih =>
    obtain ⟨j, z⟩ := p
    simp only [Tbl.find?] at hf
    by_cases e : j = k
    · subst e
      rw [if_pos rfl] at hf
      cases hf
      exact ⟨[], t, rfl, fun x => by simp [Tbl.set]⟩
    · rw [if_neg e] at hf
      obtain ⟨a, b, h1, h2⟩ := ih (keysRise_tail _ _ h) hf
      have hlt : j < k := keysRise_lt _ _ h (k, y) (by rw [h1]; simp)
      refine ⟨(j, z) :: a, b, by rw [h1]; rfl, fun x => ?_⟩
      simp only [Tbl.set]
      rw [if_neg (Ne.symm e), if_neg (by omega), h2 x]
      rfl

theorem tbl_set_self {α : Type} (t : Tbl α) (k : Nat) (y : α) (h : keysRise t = true) (hf : Tbl.find? t k = some y) :
    Tbl.set t k y = t := by
  obtain ⟨a, b, h1, h2⟩ := tbl_set_split t k y h hf
  rw [h2 y, ← h1]

/-- Rising keys stay rising when an entry that stands is replaced. -/
theorem keysRise_append {α : Type} (a b : Tbl α) (k : Nat) (x y : α) (h : keysRise (a ++ (k, y) :: b) = true) :
    keysRise (a ++ (k, x) :: b) = true := by
  induction a with
  | nil =>
    cases b with
    | nil => rfl
    | cons q b => simpa [keysRise] using h
  | cons p a ih =>
    cases a with
    | nil =>
      simp only [List.cons_append, List.nil_append, keysRise, Bool.and_eq_true] at h ⊢
      exact ⟨h.1, ih h.2⟩
    | cons q a =>
      simp only [List.cons_append, keysRise, Bool.and_eq_true] at h ⊢
      exact ⟨h.1, ih h.2⟩

/-! ## Physical entries in use -/

/-- The entries of a group as the pool of core c counts them. -/
def poolOf (s : State) (c : Nat) (p : Nat × Group) : Nat :=
  if (p.2.core = c && p.2.st != .exited && !(s.unit p.2.unit).swapped) = true then p.2.mappedCount else 0

theorem entriesUsed_eq (s : State) (c : Nat) : s.entriesUsed c = (s.groups.map (poolOf s c)).sum := by
  unfold State.entriesUsed State.resident
  have key : ∀ (l : List (Nat × Group)) (n : Nat),
      (l.filter fun p => p.2.core = c && p.2.st != .exited && !(s.unit p.2.unit).swapped).foldl (fun n p => n + p.2.mappedCount) n =
        n + (l.map (poolOf s c)).sum := by
    intro l
    induction l with
    | nil => intro n; simp
    | cons p l ih =>
      intro n
      simp only [List.filter_cons, List.map_cons, List.sum_cons, poolOf]
      split
      · rename_i hp
        simp only [List.foldl_cons, ih]
        omega
      · rename_i hp
        simp only [ih]
        simp
  rw [key]
  simp

/-- Entries with a property after one entry is written. -/
theorem filter_set_le {α : Type} (p : Nat × α → Bool) (t : Tbl α) (k : Nat) (e : α) :
    ((Tbl.set t k e).filter p).length ≤ (t.filter p).length + 1 := by
  induction t with
  | nil =>
    simp only [Tbl.set, List.filter_cons, List.filter_nil]
    split <;> simp
  | cons q t ih =>
    obtain ⟨j, y⟩ := q
    simp only [Tbl.set]
    split
    · simp only [List.filter_cons]
      cases p (k, e) <;> cases p (j, y) <;> simp only [Bool.false_eq_true, if_true, if_false, List.length_cons] <;> omega
    · split
      · simp only [List.filter_cons]
        cases p (k, e) <;> cases p (j, y) <;> simp
      · simp only [List.filter_cons]
        cases p (j, y) <;> simp <;> omega

theorem filter_set_le_of_false {α : Type} (p : Nat × α → Bool) (t : Tbl α) (k : Nat) (e : α) (h : p (k, e) = false) :
    ((Tbl.set t k e).filter p).length ≤ (t.filter p).length := by
  induction t with
  | nil => simp [Tbl.set, h]
  | cons q t ih =>
    obtain ⟨j, y⟩ := q
    simp only [Tbl.set]
    split
    · simp only [List.filter_cons, h]
      cases p (j, y) <;> simp
    · split
      · simp only [List.filter_cons, h]
        cases p (j, y) <;> simp
      · simp only [List.filter_cons]
        cases p (j, y) <;> simp <;> omega

/-- Replacing a group that stands by one with at most n more mapped entries raises a core's count by at most n. -/
theorem entriesUsed_setGrp (s : State) (gid c n : Nat) (g h : Group) (hr : keysRise s.groups = true)
    (hf : s.groups.find? gid = some g) (hc : h.core = g.core) (hs : h.st = g.st) (hu : h.unit = g.unit)
    (hm : h.mappedCount ≤ g.mappedCount + n) : (s.setGrp gid h).entriesUsed c ≤ s.entriesUsed c + n := by
  rw [entriesUsed_eq, entriesUsed_eq]
  obtain ⟨a, b, h1, h2⟩ := tbl_set_split s.groups gid g hr hf
  have hp : poolOf (s.setGrp gid h) c = poolOf s c := rfl
  rw [hp, State.setGrp_groups, h2 h, h1]
  simp only [List.map_append, List.map_cons, List.sum_append, List.sum_cons]
  have : poolOf s c (gid, h) ≤ poolOf s c (gid, g) + n := by
    simp only [poolOf, hc, hs, hu]
    split <;> omega
  omega

/-! ## Writing rows -/

/-- A group with one row of register n written in the lanes it acts in (R46, R56, R61). -/
def Group.putRow (n lat : Nat) (g : Group) (r : Row × Lanes) : Group :=
  let old := g.cellNow (.vec n r.1.b)
  { g with
    vr := g.vr.set (3 * n + r.1.b) (.mapped (old.zipIdx.map fun q => if r.1.act.getLsbD q.2 then r.2.getD q.2 0#32 else q.1) r.1.cyc)
    pend := g.pend ++ [⟨.vec n r.1.b, r.1.cyc + lat, old⟩]
    ops := g.ops.map fun o => if o.cells.contains (.vec n r.1.b) then { o with newer := (.vec n r.1.b, r.1.act) :: o.newer } else o }

theorem spill_roomy (s : State) (c : Nat) (h : s.entriesUsed c < Config.coreEntries) : s.spill c = (s, true) := by
  unfold State.spill
  rw [if_pos h]

/-- A row written where the core has a free entry. -/
theorem writeVec_roomy (s : State) (gid n : Nat) (r : Row × Lanes) (lat : Nat)
    (h : s.entriesUsed (s.grp gid).core < Config.coreEntries) :
    writeVec s gid n r.1.b r.1.act r.2 r.1.cyc lat = .ok (s.setGrp gid ((s.grp gid).putRow n lat r)) := by
  unfold writeVec
  simp only
  rw [spill_roomy _ _ h]
  split <;> rfl

theorem putRow_mapped (n lat : Nat) (g : Group) (r : Row × Lanes) : (g.putRow n lat r).mappedCount ≤ g.mappedCount + 1 :=
  filter_set_le _ _ _ _

theorem find_grp (s : State) (gid : Nat) (h : (s.groups.find? gid).isSome = true) : s.groups.find? gid = some (s.grp gid) := by
  obtain ⟨x, hx⟩ := Option.isSome_iff_exists.mp h
  simp [State.grp, Tbl.getD, hx]

theorem keysRise_setGrp (s : State) (gid : Nat) (x : Group) (hr : keysRise s.groups = true)
    (hf : (s.groups.find? gid).isSome = true) : keysRise (s.setGrp gid x).groups = true := by
  obtain ⟨a, b, h1, h2⟩ := tbl_set_split s.groups gid _ hr (find_grp s gid hf)
  rw [State.setGrp_groups, h2 x]
  rw [h1] at hr
  exact keysRise_append a b gid x _ hr

/-- Rows written where the core has free entries. -/
theorem writeRows_roomy (gid n lat : Nat) (rs : List (Row × Lanes)) (s : State) (hr : keysRise s.groups = true)
    (hf : (s.groups.find? gid).isSome = true) (hm : s.entriesUsed (s.grp gid).core + rs.length ≤ Config.coreEntries) :
    writeRows gid n lat rs s = .ok (s.setGrp gid (rs.foldl (Group.putRow n lat) (s.grp gid))) := by
  induction rs generalizing s with
  | nil =>
    simp only [writeRows, List.foldl_nil]
    rw [State.setGrp, tbl_set_self _ _ _ hr (find_grp s gid hf)]
  | cons r rs ih =>
    simp only [writeRows, List.foldl_cons]
    simp only [List.length_cons] at hm
    rw [writeVec_roomy _ _ _ _ _ (by omega)]
    simp only
    have hc : ((s.setGrp gid ((s.grp gid).putRow n lat r)).grp gid).core = (s.grp gid).core := by
      rw [State.setGrp_grp_same]
      rfl
    rw [ih _ (keysRise_setGrp _ _ _ hr hf) (by simp) ?_]
    · rw [State.setGrp_grp_same, State.setGrp_setGrp]
    · have := entriesUsed_setGrp s gid (s.grp gid).core 1 (s.grp gid) ((s.grp gid).putRow n lat r) hr (find_grp s gid hf)
        rfl rfl rfl (putRow_mapped _ _ _ _)
      rw [hc]
      omega

/-! ## What written rows leave in the group -/

theorem putRows_kept (n lat : Nat) (rs : List (Row × Lanes)) (g : Group) :
    let h := rs.foldl (Group.putRow n lat) g
    h = { g with vr := h.vr, pend := h.pend, ops := h.ops } ∧ h.inFlight = g.inFlight := by
  induction rs generalizing g with
  | nil => exact ⟨rfl, rfl⟩
  | cons r rs ih =>
    simp only [List.foldl_cons]
    obtain ⟨h1, h2⟩ := ih (g.putRow n lat r)
    refine ⟨?_, ?_⟩
    · rw [h1]
      rfl
    · rw [h2]
      exact inFlight_newer _ (fun o => o.cells.contains (.vec n r.1.b)) _

theorem cellNow_set (g : Group) (vr : Tbl VEntry) (n m b c : Nat) (v : Lanes) (u : Nat) (hb : b < 3) (hc : c < 3)
    (hv : vr = g.vr.set (3 * n + b) (.mapped v u)) (g' : Group) (hg : g'.vr = vr) :
    g'.cellNow (.vec m c) = if m = n ∧ c = b then v else g.cellNow (.vec m c) := by
  unfold Group.cellNow
  simp only [hg, hv, Tbl.find?_set]
  by_cases e : m = n ∧ c = b
  · rw [if_pos e, if_pos (by omega)]
  · rw [if_neg e, if_neg (by omega)]

theorem putRow_cell (n lat : Nat) (g : Group) (r : Row × Lanes) (m c : Nat) (hb : r.1.b < 3) (hc : c < 3) :
    (g.putRow n lat r).cellNow (.vec m c) = if m = n ∧ c = r.1.b then
      (g.cellNow (.vec m c)).zipIdx.map (fun q => if r.1.act.getLsbD q.2 then r.2.getD q.2 0#32 else q.1)
      else g.cellNow (.vec m c) := by
  rw [cellNow_set g _ n m r.1.b c _ _ hb hc rfl (g.putRow n lat r) rfl]
  split
  · rename_i e
    rw [e.1, e.2]
  · rfl

theorem putRows_cell (n lat : Nat) (rs : List (Row × Lanes)) (g : Group) (m c : Nat) (hb : ∀ r ∈ rs, r.1.b < 3)
    (hd : (rs.map fun r => r.1.b).Nodup) (hc : c < 3) :
    (rs.foldl (Group.putRow n lat) g).cellNow (.vec m c) = match rs.find? fun r => r.1.b = c with
      | some r => if m = n then
          (g.cellNow (.vec m c)).zipIdx.map (fun q => if r.1.act.getLsbD q.2 then r.2.getD q.2 0#32 else q.1)
          else g.cellNow (.vec m c)
      | none => g.cellNow (.vec m c) := by
  induction rs generalizing g with
  | nil => rfl
  | cons r rs ih =>
    simp only [List.map_cons, List.nodup_cons] at hd
    simp only [List.foldl_cons]
    rw [ih (g.putRow n lat r) (fun r' h' => hb r' (List.mem_cons_of_mem _ h')) hd.2,
      putRow_cell n lat g r m c (hb r (by simp)) hc]
    by_cases e : r.1.b = c
    · have hn : rs.find? (fun r => decide (r.1.b = c)) = none := by
        rw [List.find?_eq_none]
        intro x hx
        simp only [decide_eq_true_eq]
        intro hxc
        exact hd.1 (by rw [e, ← hxc]; exact List.mem_map_of_mem hx)
      simp only [List.find?_cons, e, decide_true, hn, and_true]
    · have e' : ¬(m = n ∧ c = r.1.b) := fun h => e h.2.symm
      simp only [List.find?_cons, e, decide_false, e', if_false]

theorem putRows_pend (n lat : Nat) (rs : List (Row × Lanes)) (g : Group) (hb : ∀ r ∈ rs, r.1.b < 3)
    (hd : (rs.map fun r => r.1.b).Nodup) :
    (rs.foldl (Group.putRow n lat) g).pend =
      g.pend ++ rs.map fun r => ⟨.vec n r.1.b, r.1.cyc + lat, g.cellNow (.vec n r.1.b)⟩ := by
  induction rs generalizing g with
  | nil => simp
  | cons r rs ih =>
    simp only [List.map_cons, List.nodup_cons] at hd
    simp only [List.foldl_cons]
    rw [ih (g.putRow n lat r) (fun r' h' => hb r' (List.mem_cons_of_mem _ h')) hd.2]
    have hp : (g.putRow n lat r).pend = g.pend ++ [⟨.vec n r.1.b, r.1.cyc + lat, g.cellNow (.vec n r.1.b)⟩] := rfl
    rw [hp, List.map_cons, List.append_assoc, List.singleton_append]
    congr 2
    apply List.map_congr_left
    intro q hq
    have hne : q.1.b ≠ r.1.b := fun e => hd.1 (by rw [← e]; exact List.mem_map_of_mem hq)
    have := putRow_cell n lat g r n q.1.b (hb r (by simp)) (hb q (by simp [hq]))
    rw [if_neg (fun e => hne e.2)] at this
    rw [this]

/-! ## Released registers (R57) -/

theorem beats_lt (g : Group) : g.beats ≤ 3 := by
  unfold Group.beats
  omega

theorem dryReg_vr (n m b : Nat) (hb : b < 3) (l : List Nat) (hl : ∀ i ∈ l, i < 3) (t : Tbl VEntry) :
    (l.foldl (fun v i => v.set (3 * n + i) .dry) t).find? (3 * m + b) =
      if m = n ∧ b ∈ l then some .dry else t.find? (3 * m + b) := by
  induction l generalizing t with
  | nil => simp
  | cons i l ih =>
    simp only [List.foldl_cons]
    rw [ih (fun j hj => hl j (List.mem_cons_of_mem _ hj)), Tbl.find?_set]
    have := hl i (by simp)
    by_cases e : m = n ∧ b ∈ l
    · rw [if_pos e, if_pos ⟨e.1, List.mem_cons_of_mem _ e.2⟩]
    · rw [if_neg e]
      by_cases e2 : 3 * n + i = 3 * m + b
      · rw [if_pos e2, if_pos ⟨by omega, by rw [show b = i by omega]; simp⟩]
      · rw [if_neg e2, if_neg]
        rintro ⟨rfl, hm⟩
        rcases List.mem_cons.mp hm with h | h
        · exact e2 (by rw [h])
        · exact e ⟨rfl, h⟩

theorem dryReg_cell (g : Group) (n m b : Nat) (hb : b < g.beats) :
    (g.dryReg n).cellNow (.vec m b) = if m = n then zeroLanes else g.cellNow (.vec m b) := by
  have h3 := beats_lt g
  unfold Group.cellNow Group.dryReg
  simp only
  rw [dryReg_vr n m b (by omega) _ (fun i hi => by have := List.mem_range.mp hi; omega)]
  by_cases e : m = n
  · rw [if_pos ⟨e, List.mem_range.mpr hb⟩, if_pos e]
  · rw [if_neg (fun h => e h.1), if_neg e]

theorem dryRegs_kept (ds : List Nat) (g : Group) :
    let h := ds.foldl (fun g n => g.dryReg n) g
    h = { g with vr := h.vr, pend := h.pend } := by
  induction ds generalizing g with
  | nil => rfl
  | cons n ds ih =>
    simp only [List.foldl_cons]
    rw [ih (g.dryReg n)]
    rfl

theorem dryRegs_cell (ds : List Nat) (g : Group) (m b : Nat) (hb : b < g.beats) :
    (ds.foldl (fun g n => g.dryReg n) g).cellNow (.vec m b) = g.cellDry ds m b := by
  induction ds generalizing g with
  | nil => simp [Group.cellDry]
  | cons n ds ih =>
    simp only [List.foldl_cons]
    rw [ih (g.dryReg n) (by exact hb)]
    simp only [Group.cellDry, List.contains_cons, dryReg_cell g n m b hb]
    by_cases e : m = n <;> simp [e]

theorem dryRegs_pend (ds : List Nat) (g : Group) :
    (ds.foldl (fun g n => g.dryReg n) g).pend.map (fun p => (p.cell, p.ready)) = g.pend.map fun p => (p.cell, p.ready) := by
  induction ds generalizing g with
  | nil => rfl
  | cons n ds ih =>
    simp only [List.foldl_cons]
    rw [ih (g.dryReg n)]
    simp only [Group.dryReg, List.map_map]
    apply List.map_congr_left
    intro p _
    simp only [Function.comp]
    split
    · split <;> rfl
    · rfl

/-! ## Gathering -/

theorem State.setLink_eq (s : State) (u k : Nat) (l : Link) :
    s.setLink u k l = { s with units := (s.setLink u k l).units } := by
  unfold State.setLink State.modUnit
  split <;> rfl

theorem popPorts_state {s : State} {gid : Nat} {qs : List Nat} {r : State × Tbl Item} (h : popPorts s gid qs = .ok r) :
    r.1 = { s with units := r.1.units } := by
  unfold popPorts at h
  simp only at h
  split at h
  · cases h
  · split at h
    · cases h
    · injection h with h
      rw [← h]
      generalize sortBy (fun a b => decide (a ≤ b)) qs.eraseDups = l
      have key : ∀ (l : List Nat) (a : State × Tbl Item), a.1 = { s with units := a.1.units } →
          (l.foldl (fun (a : State × Tbl Item) q =>
            match a.1.linkOf (s.grp gid) q true with
            | some (k, l) =>
              match l.items with
              | it :: t => (a.1.setLink (s.grp gid).unit k { l with items := t }, a.2.set q it)
              | [] => a
            | none => a) a).1 = { s with units := (l.foldl (fun (a : State × Tbl Item) q =>
            match a.1.linkOf (s.grp gid) q true with
            | some (k, l) =>
              match l.items with
              | it :: t => (a.1.setLink (s.grp gid).unit k { l with items := t }, a.2.set q it)
              | [] => a
            | none => a) a).1.units } := by
        intro l
        induction l with
        | nil => intro a ha; exact ha
        | cons q l ih =>
          intro a ha
          simp only [List.foldl_cons]
          apply ih
          split
          · split
            · simp only
              rw [State.setLink_eq, ha]
            · exact ha
          · exact ha
      exact key l (s, []) rfl

theorem popPorts_nil (s : State) (gid : Nat) : popPorts s gid [] = .ok (s, []) := by
  simp [popPorts, sortBy, List.eraseDups]

theorem beatsFrom_map (s : State) (g : Group) (bs : List Nat) (c : Nat) : ((beatsFrom s g bs c).map fun q => q.b) = bs := by
  induction bs generalizing c with
  | nil => rfl
  | cons b bs ih => simp only [beatsFrom, List.map_cons, ih]

theorem planFrom_sub (s : State) (g : Group) (bs : List Nat) (c : Nat) :
    ((planFrom s g bs c).map fun q => q.b).Sublist bs := by
  have h := (List.filter_sublist (p := fun q : Beat => q.mask != 0#32) (l := beatsFrom s g bs c)).map fun q => q.b
  rwa [beatsFrom_map] at h

/-- What gathered operands are: the state with port items popped, rows of different beats of the group. -/
theorem gather_facts {x : IX} {s : State} {xch : Bool} {srcs : List Src} {dv : List Nat} {ds : List SDst} {q : Gath}
    (h : gather x s xch srcs dv ds = .ok q) :
    q.s = { s with units := q.s.units } ∧ (q.rows.map fun r => r.b) = (plan s x).map (fun p => p.b) ∧
      (q.rows.map fun r => r.cyc) = (plan s x).map (fun p => p.cyc) ∧
      (q.rows.map fun r => r.mask) = (plan s x).map (fun p => p.mask) ∧ q.last = lastCyc x (plan s x) := by
  unfold gather at h
  simp only at h
  split at h
  · cases h
  · split at h
    · cases h
    · split at h
      · rename_i hp
        injection h with h
        rw [← h, hp]
        exact ⟨rfl, rfl, rfl, rfl, rfl⟩
      · split at h
        · cases h
        cases hp : popPorts s x.gid (portsOf srcs) with
        | error e => rw [hp] at h; cases h
        | ok r =>
          rw [hp] at h
          injection h with h
          rw [← h]
          refine ⟨popPorts_state hp, ?_, ?_, ?_, rfl⟩ <;> simp [List.map_map, Function.comp_def]

theorem gather_rows {x : IX} {s : State} {xch : Bool} {srcs : List Src} {dv : List Nat} {ds : List SDst} {q : Gath}
    (h : gather x s xch srcs dv ds = .ok q) :
    (q.rows.map fun r => r.b).Nodup ∧ (∀ r ∈ q.rows, r.b < x.g.beats) ∧ q.rows.length ≤ 3 := by
  have h2 := (gather_facts h).2.1
  have hs : (q.rows.map fun r => r.b).Sublist (List.range x.g.beats) := by
    rw [h2]
    exact planFrom_sub _ _ _ _
  refine ⟨hs.nodup List.nodup_range, ?_, ?_⟩
  · intro r hr
    exact List.mem_range.mp (hs.subset (List.mem_map_of_mem hr))
  · have := hs.length_le
    have := beats_lt x.g
    simp only [List.length_map, List.length_range] at *
    omega

/-! ## A vector word that writes rows -/

theorem raiseFlags_fold (lat : Nat) (fs : List (Row × Nat)) (g : Group) :
    fs.foldl (fun g p => g.raiseFlags (p.1.cyc + lat) p.2) g = { g with flagPend := g.flagPend ++ flagsOf lat fs } := by
  induction fs generalizing g with
  | nil => simp [flagsOf]
  | cons p fs ih =>
    simp only [List.foldl_cons]
    rw [ih]
    by_cases e : p.2 = 0
    · simp [Group.raiseFlags, flagsOf, e]
    · simp [Group.raiseFlags, flagsOf, e]

/-- Writing the rows of a vector word, its flags, and its retirement. -/
theorem rows_done (x : IX) (sf lat d : Nat) (dry : List Nat) (s : State) (q : Gath) (s1 : State) (rows : List Row)
    (vals : Row → Lanes) (fs : List (Row × Nat)) (rnd : Word)
    (hg : x.g = s.grp x.gid) (hf : (s.groups.find? x.gid).isSome = true) (hq : q.s = { s with units := q.s.units })
    (h1 : OnlyGroup x.gid x.g.core q.s s1) (h1g : s1.groups = q.s.groups)
    (h1c : s1.core x.g.core = { q.s.core x.g.core with rnd := rnd })
    (hroom : Roomy q.s x.g.core) (hn : (rows.map fun r => r.b).Nodup) (hb : ∀ r ∈ rows, r.b < x.g.beats) (hl : rows.length ≤ 3) :
    ∃ s2, writeRows x.gid d lat (rows.map fun r => (r, vals r)) (dryAll s1 x.gid dry) = .ok s2 ∧
      keysRise s2.groups = true ∧ VectorDone x sf lat d dry q rows (fun r l => (vals r).getD l 0#32) (flagsOf lat fs) rnd
        (State.finish x sf true ⟨s2.modGrp x.gid fun g => fs.foldl (fun g p => g.raiseFlags (p.1.cyc + lat) p.2) g,
          q.last, none, none, none⟩) := by
  have hqg : q.s.groups = s.groups := by rw [hq]
  have hf1 : (s1.groups.find? x.gid).isSome = true := by rw [h1g, hqg]; exact hf
  have hg1 : s1.grp x.gid = x.g := by
    rw [hg]
    simp [State.grp, h1g, hqg]
  have hr1 : keysRise s1.groups = true := by rw [h1g]; exact hroom.1
  have hu1 : s1.units = q.s.units := by rw [h1.1]
  have he1 : s1.entriesUsed x.g.core = q.s.entriesUsed x.g.core := by
    rw [entriesUsed_eq, entriesUsed_eq, h1g]
    have : poolOf s1 x.g.core = poolOf q.s x.g.core := by
      funext p
      simp [poolOf, State.unit, hu1]
    rw [this]
  -- released registers
  have hdry : dryAll s1 x.gid dry = s1.setGrp x.gid (dry.foldl (fun g n => g.dryReg n) x.g) := by
    unfold dryAll
    rw [State.modGrp_eq_setGrp _ _ _ hf1, hg1]
  have hdk := dryRegs_kept dry x.g
  simp only at hdk
  generalize hgd : dry.foldl (fun g n => g.dryReg n) x.g = gd at hdry hdk
  have hgdcore : gd.core = x.g.core := by rw [hdk]
  have hgdm : gd.mappedCount ≤ x.g.mappedCount + 0 := by
    rw [← hgd]
    clear hdk hdry hgd hgdcore
    have key : ∀ (ds : List Nat) (g : Group), (ds.foldl (fun g n => g.dryReg n) g).mappedCount ≤ g.mappedCount := by
      intro ds
      induction ds with
      | nil => intro g; exact Nat.le_refl _
      | cons n ds ih =>
        intro g
        simp only [List.foldl_cons]
        refine Nat.le_trans (ih (g.dryReg n)) ?_
        have k2 : ∀ (l : List Nat) (v : Tbl VEntry), ((l.foldl (fun m b => m.set (3 * n + b) .dry) v).filter fun e => match e.2 with
            | .mapped _ _ => true
            | _ => false).length ≤ (v.filter fun e => match e.2 with
            | .mapped _ _ => true
            | _ => false).length := by
          intro l
          induction l with
          | nil => intro v; exact Nat.le_refl _
          | cons b l ih2 =>
            intro v
            simp only [List.foldl_cons]
            refine Nat.le_trans (ih2 _) ?_
            exact filter_set_le_of_false _ _ _ _ rfl
        exact k2 _ _
    exact key dry x.g
  have hg2 : (s1.setGrp x.gid gd).grp x.gid = gd := State.setGrp_grp_same _ _ _
  have hw := writeRows_roomy x.gid d lat (rows.map fun r => (r, vals r)) (s1.setGrp x.gid gd) (keysRise_setGrp _ _ _ hr1 hf1)
    (by simp) (by
      rw [hg2, hgdcore, List.length_map]
      have := entriesUsed_setGrp s1 x.gid x.g.core 0 x.g gd hr1 (by rw [find_grp _ _ hf1, hg1]) (by rw [hdk]) (by rw [hdk])
        (by rw [hdk]) hgdm
      have := hroom.2
      omega)
  rw [hdry]
  rw [hg2, State.setGrp_setGrp] at hw
  have hk := putRows_kept d lat (rows.map fun r => (r, vals r)) gd
  simp only at hk
  have hgdb : gd.beats = x.g.beats := by rw [hdk]; rfl
  have hb3 : ∀ r ∈ rows.map (fun r => (r, vals r)), r.1.b < 3 := by
    intro r hr
    obtain ⟨r', h', rfl⟩ := List.mem_map.mp hr
    have := hb r' h'
    have := beats_lt x.g
    simp only
    omega
  have hnd : ((rows.map fun r => (r, vals r)).map fun r => r.1.b).Nodup := by
    simpa [List.map_map, Function.comp_def] using hn
  have hcell := fun m c => putRows_cell d lat (rows.map fun r => (r, vals r)) gd m c hb3 hnd
  have hpend := putRows_pend d lat (rows.map fun r => (r, vals r)) gd hb3 hnd
  generalize hgw : (rows.map fun r => (r, vals r)).foldl (Group.putRow d lat) gd = gw at hw hk hcell hpend
  refine ⟨_, hw, keysRise_setGrp _ _ _ hr1 hf1, ?_⟩
  rw [State.modGrp_eq_setGrp _ _ _ (by simp), State.setGrp_grp_same, State.setGrp_setGrp, raiseFlags_fold]
  have hgwg : gw = { x.g with vr := gw.vr, pend := gw.pend, ops := gw.ops } := by
    rw [hk.1, hdk]
  rw [finish_plain _ _ _ _ (by simp) (by rw [State.setGrp_grp_same, hgwg]) rfl rfl]
  simp only [State.setGrp_grp_same, State.setGrp_setGrp]
  refine ⟨onlyGroup_of _ _ _ _ _ _ _ _ h1, ?_, ?_, ?_, ?_, ?_, ?_⟩
  · simp only [CoreAfter, State.coreTime_core, State.setGrp_core, h1c]
  · simp only [State.coreTime_grp, State.setGrp_grp_same]
    refine ⟨?_, ?_⟩
    · rw [hgwg]
      rfl
    · have : gw.inFlight = x.g.inFlight := by
        rw [hk.2, hdk]
        rfl
      exact this
  · simp only [State.coreTime_grp, State.setGrp_grp_same]
    have := retires_retire x sf ⟨s1, q.last, none, none, none⟩ { gw with flagPend := gw.flagPend ++ flagsOf lat fs }
      (by rw [hgwg]) (by rw [hgwg]) (by rw [hgwg])
    have hfp : gw.flagPend = x.g.flagPend := by rw [hgwg]
    rw [hfp] at this ⊢
    exact this
  · simp only [State.coreTime_grp, State.setGrp_grp_same]
    show gw.sr = x.g.sr
    rw [hgwg]
  · intro n b hbb
    simp only [State.coreTime_grp, State.setGrp_grp_same]
    show gw.cellNow (.vec n b) = _
    have h3 := beats_lt x.g
    rw [hcell n b (by omega)]
    have hdc : gd.cellNow (.vec n b) = x.g.cellDry dry n b := by rw [← hgd]; exact dryRegs_cell dry x.g n b hbb
    rw [hdc, List.find?_map]
    unfold vecAfter
    simp only [Function.comp_def]
    cases rows.find? (fun r => decide (r.b = b)) <;> rfl
  · simp only [State.coreTime_grp, State.setGrp_grp_same]
    have hpp : gw.pend = gd.pend ++ rows.map fun r => ⟨.vec d r.b, r.cyc + lat, x.g.cellDry dry d r.b⟩ := by
      rw [hpend, List.map_map]
      congr 1
      apply List.map_congr_left
      intro r hr
      simp only [Function.comp]
      rw [← hgd, dryRegs_cell dry x.g d r.b (hb r hr)]
    have hdp := dryRegs_pend dry x.g
    rw [hgd] at hdp
    refine ⟨?_, ?_⟩
    · intro r hr ht
      show _ ∈ gw.pend.filter _
      rw [List.mem_filter, hpp]
      refine ⟨List.mem_append_right _ (List.mem_map_of_mem hr), ?_⟩
      simpa using ht
    · intro p hp
      have hp : p ∈ gw.pend.filter _ := hp
      rw [List.mem_filter, hpp, List.mem_append] at hp
      rcases hp.1 with h | h
      · right
        have : (p.cell, p.ready) ∈ gd.pend.map fun p => (p.cell, p.ready) := List.mem_map_of_mem h
        rw [hdp] at this
        obtain ⟨o, ho, he⟩ := List.mem_map.mp this
        injection he with e1 e2
        exact ⟨o, ho, e1.symm, e2.symm⟩
      · left
        obtain ⟨r, hr, rfl⟩ := List.mem_map.mp h
        exact ⟨r, hr, rfl⟩

theorem vecAfter_congr (g : Group) (dry : List Nat) (d : Nat) (rows : List Row) (f h : Row → Nat → Word)
    (e : ∀ r l, l < 32 → f r l = h r l) (n b : Nat) : vecAfter g dry d rows f n b = vecAfter g dry d rows h n b := by
  unfold vecAfter
  split
  · rename_i r _
    split
    · apply List.map_congr_left
      intro q _
      split
      · rename_i ha
        have : q.2 < 32 := by
          by_cases hl : q.2 < 32
          · exact hl
          · rw [BitVec.getLsbD_of_ge _ _ (by omega)] at ha
            cases ha
        rw [e r q.2 this]
      · rfl
    · rfl
  · rfl

theorem vectorDone_congr {x : IX} {sf lat d : Nat} {dry : List Nat} {q : Gath} {rows : List Row} {f h : Row → Nat → Word}
    {fl : List (Nat × Nat)} {rnd : Word} {t : State} (e : ∀ r l, l < 32 → f r l = h r l)
    (v : VectorDone x sf lat d dry q rows f fl rnd t) : VectorDone x sf lat d dry q rows h fl rnd t := by
  obtain ⟨a, b, c, k, r, m, p⟩ := v
  exact ⟨a, b, c, k, r, fun n b' hb => by rw [m n b' hb]; exact vecAfter_congr _ _ _ _ _ _ e _ _, p⟩

theorem lanes_getD (f : Nat → Word) (l : Nat) (h : l < 32) : ((List.range 32).map f).getD l 0#32 = f l := by
  simp [List.getD_eq_getElem?_getD, List.getElem?_map, List.getElem?_range h]

/-- A lane-wise form whose operands are gathered completes. -/
theorem lanewise_done {i : Instr} {sf : BitVec 3} {s : State} {lat : Nat} {srcs : IX → List Src} {dry : IX → List Nat} {d : IX → Nat}
    {f : IX → List Word → Word} {q : Gath} (h : Passes none true i s)
    (hq : gather (s.ix true) s.issuing false (srcs (s.ix true)) [d (s.ix true)] [] = .ok q) (hr : Roomy q.s (s.ix true).g.core) :
    ∃ t, issueV i sf (fun x => lanewise x lat (srcs x) (dry x) (d x) (f x)) s = .next t ∧
      VectorDone (s.ix true) sf.toNat lat (d (s.ix true)) (dry (s.ix true)) q q.rows
        (fun r l => f (s.ix true) (r.args (srcs (s.ix true)).length l)) [] (q.s.core (s.ix true).g.core).rnd t := by
  have hgr := gather_rows hq
  have hgf := gather_facts hq
  obtain ⟨s2, h2, hk, hv⟩ := rows_done (s.ix true) sf.toNat lat (d (s.ix true)) (dry (s.ix true)) s.issuing q q.s q.rows
    (fun r => (List.range 32).map fun l => f (s.ix true) (r.args (srcs (s.ix true)).length l)) []
    (q.s.core (s.ix true).g.core).rnd (by rw [s.ix_g, s.ix_gid]) (by rw [s.ix_gid]; exact s.issuing_groups_isSome h.1) hgf.1
    ⟨rfl, fun _ _ => rfl, fun _ _ => rfl⟩ rfl rfl hr hgr.1 hgr.2.1 hgr.2.2
  refine ⟨_, issue_next h (e := ⟨s2, q.last, none, none, none⟩) ?_, ?_⟩
  · simp only [lanewise, hq]
    simp only [Row.args] at h2
    simp only [bind, Except.bind, h2]
    rfl
  · have hs : (s2.modGrp (s.ix true).gid fun g => g) = s2 := by
      unfold State.modGrp
      split
      · rename_i y hy
        rw [State.setGrp, tbl_set_self _ _ _ hk hy]
      · rfl
    simp only [List.foldl_nil, hs] at hv
    exact vectorDone_congr (fun r l hl => lanes_getD _ l hl) hv

/-- A float form whose operands are gathered and none of whose beats raises an enabled exception completes. -/
theorem flanewise_done {i : Instr} {sf : BitVec 3} {s : State} {lat : Nat} {stoch : IX → Bool} {srcs : IX → List Src}
    {dry : IX → List Nat} {d : IX → Nat} {f : IX → Word → Nat → List Word → Word × Nat} {q : Gath} (h : Passes none true i s)
    (hq : gather (s.ix true) s.issuing false (srcs (s.ix true)) [d (s.ix true)] [] = .ok q) (hr : Roomy q.s (s.ix true).g.core)
    (dr : List Word × Word) (hdr : dr = if stoch (s.ix true) then draws q.rows.length (q.s.core (s.ix true).g.core).rnd
      else ([], (q.s.core (s.ix true).g.core).rnd))
    (val : Row → Nat → Word × Nat) (hval : val = fun r l => f (s.ix true) (dr.1.getD (q.rows.findIdx (fun p => p.b = r.b)) 0#32) l
      (r.args (srcs (s.ix true)).length l))
    (hx : fpxOf (gstEn (s.ix true).g.gst) (q.rows.map fun r => (r.b, beatFlags val r)) = none) :
    ∃ t, issueV i sf (fun x => flanewise x lat (stoch x) (srcs x) (dry x) (d x) (f x)) s = .next t ∧
      VectorDone (s.ix true) sf.toNat lat (d (s.ix true)) (dry (s.ix true)) q q.rows (fun r l => (val r l).1)
        (flagsOf lat (q.rows.map fun r => (r, beatFlags val r))) dr.2 t := by
  have hgr := gather_rows hq
  have hgf := gather_facts hq
  have hres : (q.rows.zipIdx.map fun p => (p.1, (List.range 32).map fun l =>
      f (s.ix true) (dr.1.getD p.2 0#32) l ((List.range (srcs (s.ix true)).length).map fun i => p.1.at i l))) =
      q.rows.map fun r => (r, (List.range 32).map (val r)) := by
    apply List.ext_getElem
    · simp
    · intro k hk _
      have hk : k < q.rows.length := by simpa using hk
      have hi : q.rows.findIdx (fun p => decide (p.b = q.rows[k].b)) = k := by
        rw [List.findIdx_eq hk]
        refine ⟨by simp, ?_⟩
        intro j hj
        simp only [decide_eq_false_iff_not]
        intro e
        have e2 : (q.rows.map fun r => r.b)[j]'(by simp; omega) = (q.rows.map fun r => r.b)[k]'(by simpa using hk) := by
          simp [e]
        exact List.pairwise_iff_getElem.mp hgr.1 j k (by simp; omega) (by simpa using hk) hj e2
      simp [hval, hi, Row.args]
  have hc1 : (q.s.setCore (s.ix true).g.core { q.s.core (s.ix true).g.core with rnd := dr.2 }).core (s.ix true).g.core =
      { q.s.core (s.ix true).g.core with rnd := dr.2 } := State.setCore_core_same _ _ _
  have ho : OnlyGroup (s.ix true).gid (s.ix true).g.core q.s
      (q.s.setCore (s.ix true).g.core { q.s.core (s.ix true).g.core with rnd := dr.2 }) :=
    ⟨rfl, fun _ _ => rfl, fun k hk => by rw [State.setCore_cores, Tbl.find?_set_ne _ _ _ _ (Ne.symm hk)]⟩
  obtain ⟨s2, h2, hk, hv⟩ := rows_done (s.ix true) sf.toNat lat (d (s.ix true)) (dry (s.ix true)) s.issuing q _ q.rows
    (fun r => (List.range 32).map fun l => (val r l).1) (q.rows.map fun r => (r, beatFlags val r)) dr.2
    (by rw [s.ix_g, s.ix_gid]) (by rw [s.ix_gid]; exact s.issuing_groups_isSome h.1) hgf.1 ho rfl hc1 hr hgr.1 hgr.2.1 hgr.2.2
  have hfl : ((q.rows.map fun r => (r, (List.range 32).map (val r))).map fun p =>
      (p.1, p.1.lanes.foldl (fun m l => m ||| (p.2.getD l (0#32, 0)).2) 0)) = q.rows.map fun r => (r, beatFlags val r) := by
    rw [List.map_map]
    apply List.map_congr_left
    intro r _
    simp only [Function.comp, beatFlags]
    congr 1
    have key : ∀ (ls : List Nat) (m : Nat), (∀ l ∈ ls, l < 32) →
        ls.foldl (fun m l => m ||| (((List.range 32).map (val r)).getD l (0#32, 0)).2) m = ls.foldl (fun m l => m ||| (val r l).2) m := by
      intro ls
      induction ls with
      | nil => intro m _; rfl
      | cons l ls ih =>
        intro m hl
        simp only [List.foldl_cons]
        have hl0 := hl l (by simp)
        rw [ih _ (fun k hk => hl k (List.mem_cons_of_mem _ hk))]
        simp [List.getD_eq_getElem?_getD, List.getElem?_map, List.getElem?_range hl0]
    exact key _ _ (fun l hl => by
      unfold Row.lanes at hl
      exact List.mem_range.mp (List.mem_filter.mp hl).1)
  refine ⟨_, issue_next h (e := ⟨s2.modGrp (s.ix true).gid fun g => (q.rows.map fun r => (r, beatFlags val r)).foldl
    (fun g p => g.raiseFlags (p.1.cyc + lat) p.2) g, q.last, none, none, none⟩) ?_, ?_⟩
  · simp only [flanewise, hq]
    simp only [bind, Except.bind, ← hdr, hres]
    rw [show ((q.rows.map fun r => (r, (List.range 32).map (val r))).map fun p : Row × List (Word × Nat) =>
      (p.1, p.2.map fun x => x.1)) = q.rows.map fun r => (r, (List.range 32).map fun l => (val r l).1) from by
        simp [List.map_map, Function.comp_def]]
    simp only [h2, hfl, raiseBeats]
    rw [show ((q.rows.map fun r => (r, beatFlags val r)).map fun p => (p.1.b, p.2)) =
      q.rows.map fun r => (r.b, beatFlags val r) from by simp [List.map_map, Function.comp_def], hx]
    rfl
  · exact vectorDone_congr (fun r l hl => lanes_getD _ l hl) hv

/-! ## A vector word that writes scalars -/

/-- A group with a scalar written: its value and the cycle of the write. -/
def Group.putScal (lat : Nat) (g : Group) (w : Nat × Word × Nat) : Group :=
  if 48 ≤ w.1 then g
  else { g with
    sr := g.sr.set w.1 w.2.1
    pend := g.pend ++ [⟨.scal w.1, w.2.2 + lat, [wAt g.sr w.1]⟩]
    ops := g.ops.map fun o => if (g.cellsOf o).contains (.scal w.1) then { o with newer := (.scal w.1, 1#32) :: o.newer } else o }

/-- Scalars written one after another change the record of their group only. -/
theorem writeScals_state (gid c lat : Nat) (hl : 0 < lat) (ws : List (Nat × Word × Nat)) (s : State)
    (hf : (s.groups.find? gid).isSome = true) :
    let s' := ws.foldl (fun s w => writeScal s gid w.1 w.2.1 w.2.2 lat) s
    OnlyGroup gid c s s' ∧ s'.cores = s.cores ∧ s'.grp gid = ws.foldl (Group.putScal lat) (s.grp gid) ∧
      (s'.groups.find? gid).isSome = true := by
  induction ws generalizing s with
  | nil => exact ⟨⟨rfl, fun _ _ => rfl, fun _ _ => rfl⟩, rfl, rfl, hf⟩
  | cons w ws ih =>
    simp only [List.foldl_cons]
    by_cases h : 48 ≤ w.1
    · rw [writeScal_zr _ _ _ _ _ _ h]
      have := ih s hf
      rw [show (s.grp gid).putScal lat w = s.grp gid from if_pos h]
      exact this
    · rw [writeScal_eq _ _ _ _ _ _ (by omega) hl]
      have hp : (s.grp gid).putScal lat w = { s.grp gid with
          sr := (s.grp gid).sr.set w.1 w.2.1
          pend := (s.grp gid).pend ++ [⟨.scal w.1, w.2.2 + lat, [wAt (s.grp gid).sr w.1]⟩]
          ops := (s.grp gid).ops.map fun o => if ((s.grp gid).cellsOf o).contains (.scal w.1) then { o with newer := (.scal w.1, 1#32) :: o.newer } else o } :=
        if_neg h
      rw [← hp]
      obtain ⟨⟨a, b, d⟩, e, f, g⟩ := ih (s.setGrp gid ((s.grp gid).putScal lat w)) (by simp)
      refine ⟨⟨?_, ?_, ?_⟩, ?_, ?_, g⟩
      · rw [a]
        rfl
      · intro k hk
        rw [b k hk, State.setGrp_groups, Tbl.find?_set_ne _ _ _ _ (Ne.symm hk)]
      · intro k hk
        rw [d k hk]
        rfl
      · rw [e]
        rfl
      · rw [f, State.setGrp_grp_same]

theorem putScals_kept (lat : Nat) (ws : List (Nat × Word × Nat)) (g : Group) :
    let h := ws.foldl (Group.putScal lat) g
    h = { g with sr := h.sr, pend := h.pend, ops := h.ops } ∧ h.inFlight = g.inFlight ∧
      h.sr = ws.foldl (fun r w => if w.1 < 48 then r.set w.1 w.2.1 else r) g.sr ∧
      (∀ p ∈ g.pend, p ∈ h.pend) ∧ ∀ w ∈ ws, w.1 < 48 → ∃ p ∈ h.pend, p.cell = .scal w.1 ∧ p.ready = w.2.2 + lat := by
  induction ws generalizing g with
  | nil => exact ⟨rfl, rfl, rfl, fun _ h => h, fun _ h => by cases h⟩
  | cons w ws ih =>
    simp only [List.foldl_cons]
    obtain ⟨a, b, c, d, e⟩ := ih (g.putScal lat w)
    by_cases h : 48 ≤ w.1
    · have hp : g.putScal lat w = g := if_pos h
      rw [hp] at a b c d e ⊢
      rw [if_neg (by omega)]
      refine ⟨a, b, c, d, ?_⟩
      intro v hv h48
      rcases List.mem_cons.mp hv with rfl | hv
      · omega
      · exact e v hv h48
    · have hp : g.putScal lat w = { g with
          sr := g.sr.set w.1 w.2.1
          pend := g.pend ++ [⟨.scal w.1, w.2.2 + lat, [wAt g.sr w.1]⟩]
          ops := g.ops.map fun o => if (g.cellsOf o).contains (.scal w.1) then { o with newer := (.scal w.1, 1#32) :: o.newer } else o } :=
        if_neg h
      have hpi : (g.putScal lat w).inFlight = g.inFlight := by
        rw [hp]
        exact inFlight_newer _ (fun o => (g.cellsOf o).contains (.scal w.1)) _
      refine ⟨?_, by rw [b, hpi], ?_, ?_, ?_⟩
      · rw [a, hp]
      · rw [c, if_pos (by omega), hp]
      · intro p hpm
        apply d
        rw [hp]
        exact List.mem_append_left _ hpm
      · intro v hv h48
        rcases List.mem_cons.mp hv with rfl | hv
        · refine ⟨⟨.scal v.1, v.2.2 + lat, [wAt g.sr v.1]⟩, d _ ?_, rfl, rfl⟩
          rw [hp]
          simp
        · exact e v hv h48

/-- Writing scalars after a vector word's operands are gathered, its flags, and its retirement. -/
theorem scals_done (x : IX) (sf lat : Nat) (hl : 0 < lat) (dry : List Nat) (s : State) (q : Gath) (ws : List (Nat × Word × Nat))
    (fs : List (Row × Nat)) (hg : x.g = s.grp x.gid) (hf : (s.groups.find? x.gid).isSome = true)
    (hq : q.s = { s with units := q.s.units }) :
    VScalarDone x sf lat dry q ws (flagsOf lat fs)
      (State.finish x sf true ⟨(ws.foldl (fun s w => writeScal s x.gid w.1 w.2.1 w.2.2 lat) (dryAll q.s x.gid dry)).modGrp x.gid
        (fun g => fs.foldl (fun g p => g.raiseFlags (p.1.cyc + lat) p.2) g), q.last, none, none, none⟩) := by
  have hqg : q.s.groups = s.groups := by rw [hq]
  have hf1 : (q.s.groups.find? x.gid).isSome = true := by rw [hqg]; exact hf
  have hg1 : q.s.grp x.gid = x.g := by
    rw [hg]
    simp [State.grp, hqg]
  have hdry : dryAll q.s x.gid dry = q.s.setGrp x.gid (dry.foldl (fun g n => g.dryReg n) x.g) := by
    unfold dryAll
    rw [State.modGrp_eq_setGrp _ _ _ hf1, hg1]
  rw [hdry]
  have hdk := dryRegs_kept dry x.g
  have hdc := fun m b => dryRegs_cell dry x.g m b
  simp only at hdk
  generalize hgd : dry.foldl (fun g n => g.dryReg n) x.g = gd at hdk hdc ⊢
  obtain ⟨ho, hc, hgr, hf2⟩ := writeScals_state x.gid x.g.core lat hl ws (q.s.setGrp x.gid gd) (by simp)
  generalize hs2 : ws.foldl (fun s w => writeScal s x.gid w.1 w.2.1 w.2.2 lat) (q.s.setGrp x.gid gd) = s2 at ho hc hgr hf2 ⊢
  rw [State.setGrp_grp_same] at hgr
  obtain ⟨ka, kb, kc, kd, ke⟩ := putScals_kept lat ws gd
  rw [← hgr] at ka kb kc kd ke
  have ho2 : OnlyGroup x.gid x.g.core q.s s2 := by
    obtain ⟨a, b, c⟩ := ho
    refine ⟨?_, ?_, ?_⟩
    · rw [a]
      rfl
    · intro k hk
      rw [b k hk, State.setGrp_groups, Tbl.find?_set_ne _ _ _ _ (Ne.symm hk)]
    · intro k hk
      rw [c k hk]
      rfl
  have hcore : s2.core x.g.core = q.s.core x.g.core := by simp [State.core, hc]
  have hk : s2.grp x.gid = { x.g with sr := (s2.grp x.gid).sr, vr := (s2.grp x.gid).vr, pend := (s2.grp x.gid).pend,
                                      ops := (s2.grp x.gid).ops } := by
    rw [ka, hdk]
  rw [State.modGrp_eq_setGrp _ _ _ hf2, raiseFlags_fold]
  generalize hg2 : s2.grp x.gid = g2 at *
  rw [finish_plain _ _ _ _ (by simp) (by rw [State.setGrp_grp_same, hk]) rfl rfl]
  simp only [State.setGrp_grp_same, State.setGrp_setGrp]
  refine ⟨onlyGroup_of _ _ _ _ _ _ _ _ ho2, ?_, ?_, ?_, ?_, ?_, ?_⟩
  · simp only [CoreAfter, State.coreTime_core, State.setGrp_core, hcore]
  · simp only [State.coreTime_grp, State.setGrp_grp_same]
    refine ⟨?_, ?_⟩
    · rw [hk]
      rfl
    · have : g2.inFlight = x.g.inFlight := by
        rw [kb, hdk]
        rfl
      exact this
  · simp only [State.coreTime_grp, State.setGrp_grp_same]
    have := retires_retire x sf ⟨q.s, q.last, none, none, none⟩ { g2 with flagPend := g2.flagPend ++ flagsOf lat fs }
      (by rw [hk]) (by rw [hk]) (by rw [hk])
    have hfp : g2.flagPend = x.g.flagPend := by rw [hk]
    rw [hfp] at this ⊢
    exact this
  · intro n b hb
    simp only [State.coreTime_grp, State.setGrp_grp_same]
    rw [← hdc n b hb]
    show g2.cellNow (.vec n b) = gd.cellNow (.vec n b)
    rw [ka]
    rfl
  · simp only [State.coreTime_grp, State.setGrp_grp_same]
    have hsr : gd.sr = x.g.sr := by rw [hdk]
    rw [← hsr, ← kc]
    rfl
  · intro w hw h48 ht
    simp only [State.coreTime_grp, State.setGrp_grp_same]
    obtain ⟨p, hp, h1, h2⟩ := ke w hw h48
    refine ⟨p, ?_, h1, h2⟩
    show p ∈ g2.pend.filter _
    rw [List.mem_filter]
    refine ⟨hp, ?_⟩
    simp only [decide_eq_true_eq, h2]
    exact ht

/-! ## Rules of the shapes -/

theorem scalarRule_of {i : Instr} {sf : BitVec 3} {srcs : IX → List Nat} {d : IX → Nat} {f : IX → List Word → Word} {s : State}
    (e : exec i s = issueS i sf (fun x => scalarForm x (srcs x) (d x) (f x)) s) : ScalarRule i sf srcs d f s := by
  intro h hs
  rw [e]
  exact scalarForm_done h rfl rfl rfl hs

theorem vectorRule_of {i : Instr} {sf : BitVec 3} {lat : Nat} {srcs : IX → List Src} {dry : IX → List Nat} {d : IX → Nat}
    {f : IX → List Word → Word} {s : State}
    (e : exec i s = issueV i sf (fun x => lanewise x lat (srcs x) (dry x) (d x) (f x)) s) :
    VectorRule i sf lat srcs dry d f s := by
  intro q h hq hr
  rw [e]
  exact lanewise_done h hq hr

theorem floatRule_of {i : Instr} {sf : BitVec 3} {lat : Nat} {stoch : IX → Bool} {srcs : IX → List Src} {dry : IX → List Nat}
    {d : IX → Nat} {f : IX → Word → Nat → List Word → Word × Nat} {s : State}
    (e : exec i s = issueV i sf (fun x => flanewise x lat (stoch x) (srcs x) (dry x) (d x) (f x)) s) :
    FloatRule i sf lat stoch srcs dry d f s := by
  intro q h hq hr dr val hx
  rw [e]
  exact flanewise_done h hq hr dr rfl val rfl hx

theorem writeTriple_eq (s : State) (gid t lat last : Nat) (rows : List Row) (f : Row → Nat → Bool) (h : rows ≠ []) :
    writeTriple s gid t lat last (rows.map fun r => (r, maskOf fun l => f r l)) =
      (tripleWords t last rows f).foldl (fun s w => writeScal s gid w.1 w.2.1 w.2.2 lat) s := by
  unfold writeTriple tripleWords
  rw [if_neg h, List.foldl_map]
  congr 1
  funext s b
  rw [List.find?_map]
  simp only [Function.comp_def]
  cases rows.find? (fun r => decide (r.b = b)) <;> rfl

theorem tripleForm_eq {x : IX} {lat : Nat} {srcs : List Src} {dry : List Nat} {t : Nat} {f : List Word → Bool × Nat} {s : State}
    {q : Gath} (hq : gather x s false srcs [] (tripDst t) = .ok q) :
    tripleForm x lat srcs dry t f s =
      let res := q.rows.map fun r => (r, (List.range 32).map fun l => f (r.args srcs.length l))
      let s := if q.rows = [] then dryAll q.s x.gid dry
        else writeTriple (dryAll q.s x.gid dry) x.gid t lat q.last (res.map fun p => (p.1, maskOf fun l => (p.2.getD l (false, 0)).1))
      let fl := res.map fun p => (p.1, p.1.lanes.foldl (fun m l => m ||| (p.2.getD l (false, 0)).2) 0)
      .ok ⟨(raiseBeats x s lat fl).1, q.last, none, (raiseBeats x s lat fl).2, none⟩ := by
  simp only [tripleForm, hq, bind, Except.bind]
  rfl

theorem getD_range {α : Type} (f : Nat → α) (d : α) (l : Nat) (h : l < 32) : ((List.range 32).map f).getD l d = f l := by
  simp [List.getD_eq_getElem?_getD, List.getElem?_map, List.getElem?_range h]

theorem foldl_congr_mem {α β : Type} (f g : α → β → α) (l : List β) (a : α) (h : ∀ a, ∀ b ∈ l, f a b = g a b) :
    l.foldl f a = l.foldl g a := by
  induction l generalizing a with
  | nil => rfl
  | cons b l ih =>
    simp only [List.foldl_cons]
    rw [h a b (by simp), ih _ (fun a c hc => h a c (List.mem_cons_of_mem _ hc))]

theorem maskOf_congr (f g : Nat → Bool) (h : ∀ l, l < 32 → f l = g l) : maskOf f = maskOf g := by
  unfold maskOf
  apply foldl_congr_mem
  intro a b hb
  rw [h b (List.mem_range.mp hb)]

theorem lanes_lt (r : Row) : ∀ l ∈ r.lanes, l < 32 := fun _ hl => List.mem_range.mp (List.mem_filter.mp hl).1

theorem tripleRule_of {i : Instr} {sf : BitVec 3} {lat : Nat} {srcs : IX → List Src} {dry : IX → List Nat} {t : IX → Nat}
    {f : IX → List Word → Bool × Nat} {s : State} (hl : 0 < lat)
    (e : exec i s = issueV i sf (fun x => tripleForm x lat (srcs x) (dry x) (t x) (f x)) s) :
    TripleRule i sf lat srcs dry t f s := by
  intro q h hq val fl hx
  rw [e]
  have hfl : ((q.rows.map fun r => (r, (List.range 32).map (val r))).map fun p =>
      (p.1, p.1.lanes.foldl (fun m l => m ||| (p.2.getD l (false, 0)).2) 0)) = fl := by
    rw [List.map_map]
    apply List.map_congr_left
    intro r _
    simp only [Function.comp]
    rw [foldl_congr_mem _ _ _ _ (fun a b hb => by rw [getD_range _ _ b (lanes_lt r b hb)])]
  have hmask : ((q.rows.map fun r => (r, (List.range 32).map (val r))).map fun p =>
      (p.1, maskOf fun l => (p.2.getD l (false, 0)).1)) = q.rows.map fun r => (r, maskOf fun l => (val r l).1) := by
    rw [List.map_map]
    apply List.map_congr_left
    intro r _
    simp only [Function.comp]
    rw [maskOf_congr _ _ (fun l hl => by rw [getD_range _ _ l hl])]
  have hd := scals_done (s.ix true) sf.toNat lat hl (dry (s.ix true)) s.issuing q
    (tripleWords (t (s.ix true)) q.last q.rows fun r l => (val r l).1) fl
    (by rw [s.ix_g, s.ix_gid]) (by rw [s.ix_gid]; exact s.issuing_groups_isSome h.1) (gather_facts hq).1
  have hs : (if q.rows = [] then dryAll q.s (s.ix true).gid (dry (s.ix true))
      else writeTriple (dryAll q.s (s.ix true).gid (dry (s.ix true))) (s.ix true).gid (t (s.ix true)) lat q.last
      (q.rows.map fun r => (r, maskOf fun l => (val r l).1))) =
      (tripleWords (t (s.ix true)) q.last q.rows fun r l => (val r l).1).foldl
        (fun s' w => writeScal s' (s.ix true).gid w.1 w.2.1 w.2.2 lat) (dryAll q.s (s.ix true).gid (dry (s.ix true))) := by
    by_cases h0 : q.rows = []
    · rw [if_pos h0]
      unfold tripleWords
      rw [if_pos h0, List.foldl_nil]
    · rw [if_neg h0, writeTriple_eq _ _ _ _ _ _ _ h0]
  refine ⟨_, issue_next h ?_, hd⟩
  rw [tripleForm_eq hq]
  have hv : (q.rows.map fun r => (r, (List.range 32).map fun l => f (s.ix true) (r.args (srcs (s.ix true)).length l))) =
      q.rows.map fun r => (r, (List.range 32).map (val r)) := rfl
  simp only [hv, hmask, hfl, hs, raiseBeats, hx, Option.map_none]

end Sys2Proof.Machine
end

