-- ==== Sys2Proof/Laws/Shapes.lean ====
section
/-!
SUPPORT. Sys2Proof/Laws/Shapes.lean: the rule of each shared shape of the scalar and vector instructions, for any function
equal to the one the meaning applies.
-/
namespace Sys2Proof.Machine

theorem scalarRule_congr {i : Instr} {sf : BitVec 3} {srcs : IX → List Nat} {d : IX → Nat} {f g : IX → List Word → Word}
    {s : State} (h : ∀ x v, f x v = g x v) (r : ScalarRule i sf srcs d f s) : ScalarRule i sf srcs d g s := by
  rw [show g = f from (funext fun x => funext fun v => h x v).symm]
  exact r

theorem vectorRule_congr {i : Instr} {sf : BitVec 3} {lat : Nat} {srcs : IX → List Src} {dry : IX → List Nat} {d : IX → Nat}
    {f g : IX → List Word → Word} {s : State} (h : ∀ x v, f x v = g x v) (r : VectorRule i sf lat srcs dry d f s) :
    VectorRule i sf lat srcs dry d g s := by
  rw [show g = f from (funext fun x => funext fun v => h x v).symm]
  exact r

theorem tripleRule_congr {i : Instr} {sf : BitVec 3} {lat : Nat} {srcs : IX → List Src} {dry : IX → List Nat} {t : IX → Nat}
    {f g : IX → List Word → Bool × Nat} {s : State} (h : ∀ x v, f x v = g x v) (r : TripleRule i sf lat srcs dry t f s) :
    TripleRule i sf lat srcs dry t g s := by
  rw [show g = f from (funext fun x => funext fun v => h x v).symm]
  exact r

theorem binS_rule {i : Instr} {o : FS} {f : Word → Word → Word} {F : IX → List Word → Word} {s : State} (e : exec i s = binS i o f s)
    (h : ∀ (x : IX) (v : List Word), f (v0 v) (v1 v) = F x v) :
    ScalarRule i o.s (fun x => [x.a o.a, x.b o.b]) (fun x => x.d o.d) F s :=
  scalarRule_congr h (scalarRule_of (f := fun _ v => f (v0 v) (v1 v)) e)

theorem unS_rule {i : Instr} {o : FD} {f : Word → Word} {F : IX → List Word → Word} {s : State} (e : exec i s = unS i o f s)
    (h : ∀ (x : IX) (v : List Word), f (v0 v) = F x v) :
    ScalarRule i o.s (fun x => [x.a o.a]) (fun x => x.d o.d) F s :=
  scalarRule_congr h (scalarRule_of (f := fun _ v => f (v0 v)) e)

theorem immS_rule {i : Instr} {o : FI} {f : Word → Word → Word} {F : IX → List Word → Word} {s : State} (e : exec i s = immS i o f s)
    (h : ∀ (x : IX) (v : List Word), f (v0 v) (immOf x.gl o.i) = F x v) :
    ScalarRule i o.s (fun x => [x.a o.a]) (fun x => x.d o.d) F s :=
  scalarRule_congr h (scalarRule_of (f := fun x v => f (v0 v) (immOf x.gl o.i)) e)

theorem binV_rule {i : Instr} {o : FR} {f : Word → Word → Word} {F : IX → List Word → Word} {s : State} (e : exec i s = binV i o f s)
    (h : ∀ (x : IX) (v : List Word), f (v0 v) (v1 v) = F x v) :
    VectorRule i o.s 4 (fun x => [x.srcA o.a o.fa, x.srcB o.b o.fb]) (fun x => x.dryAB o.a o.b o.fa o.fb) (fun x => x.d o.d) F s :=
  vectorRule_congr h (vectorRule_of (f := fun _ v => f (v0 v) (v1 v)) e)

theorem triV_rule {i : Instr} {o : FR} {f : Word → Word → Word → Word} {F : IX → List Word → Word} {s : State} (e : exec i s = triV i o f s)
    (h : ∀ (x : IX) (v : List Word), f (v0 v) (v1 v) (v2 v) = F x v) :
    VectorRule i o.s 4 (fun x => [.vec (x.d o.d), x.srcA o.a o.fa, x.srcB o.b o.fb]) (fun x => x.dryAB o.a o.b o.fa o.fb)
      (fun x => x.d o.d) F s :=
  vectorRule_congr h (vectorRule_of (f := fun _ v => f (v0 v) (v1 v) (v2 v)) e)

theorem unV_rule {i : Instr} {o : FU} {f : Word → Word} {F : IX → List Word → Word} {s : State} (e : exec i s = unV i o f s)
    (h : ∀ (x : IX) (v : List Word), f (v0 v) = F x v) :
    VectorRule i o.s 4 (fun x => [x.srcA o.a o.fa]) (fun x => dryOf (x.a o.a) o.a o.fa) (fun x => x.d o.d) F s :=
  vectorRule_congr h (vectorRule_of (f := fun _ v => f (v0 v)) e)

theorem immV_rule {i : Instr} {o : FI} {f : Word → Word → Word} {F : IX → List Word → Word} {s : State} (e : exec i s = immV i o f s)
    (h : ∀ (x : IX) (v : List Word), f (v0 v) (immOf x.gl o.i) = F x v) :
    VectorRule i o.s 4 (fun x => [.vec (x.a o.a)]) (fun x => dryOf (x.a o.a) o.a 0#1) (fun x => x.d o.d) F s :=
  vectorRule_congr h (vectorRule_of (f := fun x v => f (v0 v) (immOf x.gl o.i)) e)

theorem cmpV_rule {i : Instr} {o : FC} {f : IX → Word → Word → Bool × Nat} {F : IX → List Word → Bool × Nat} {s : State}
    (e : exec i s = cmpV i o f s) (h : ∀ x v, f x (v0 v) (v1 v) = F x v) :
    TripleRule i o.s 4 (fun x => [x.srcA o.a o.fa, x.srcB o.b o.fb]) (fun x => x.dryAB o.a o.b o.fa o.fb) (fun _ => o.t.toNat)
      F s :=
  tripleRule_congr h (tripleRule_of (f := fun x v => f x (v0 v) (v1 v)) (by decide) e)

/-! ## Numbers of the integer forms -/

theorem mulhiN_eq (a b : Word) : mulhiN a b = ((a.setWidth 64 * b.setWidth 64) >>> 32).setWidth 32 := by
  apply BitVec.eq_of_toNat_eq
  have h1 := a.isLt
  have h2 := b.isLt
  have h3 : a.toNat * b.toNat < 2 ^ 64 := by
    have := Nat.mul_le_mul (Nat.le_of_lt_succ h1) (Nat.le_of_lt_succ h2)
    omega
  simp only [mulhiN, toW, BitVec.toNat_ofNat, BitVec.toNat_setWidth, BitVec.toNat_ushiftRight, BitVec.toNat_mul,
    Nat.shiftRight_eq_div_pow]
  rw [Nat.mod_eq_of_lt (show a.toNat < 2 ^ 64 by omega), Nat.mod_eq_of_lt (show b.toNat < 2 ^ 64 by omega), Nat.mod_eq_of_lt h3]

theorem setWidth8 (b : Word) : (b.setWidth 8).toNat = b.toNat % 256 := by simp

theorem minI_eq (a b : Word) : minI a b = if a.slt b then a else b := by simp [minI, BitVec.slt]
theorem maxI_eq (a b : Word) : maxI a b = if a.slt b then b else a := by simp [maxI, BitVec.slt]
theorem minN_eq (a b : Word) : minN a b = if a.ult b then a else b := by simp [minN, BitVec.ult]
theorem maxN_eq (a b : Word) : maxN a b = if a.ult b then b else a := by simp [maxN, BitVec.ult]

theorem find_getD_findIdx (p : Nat → Bool) (n k : Nat) :
    ((List.range' k n).find? p).getD (k + n) = k + (List.range' k n).findIdx p := by
  induction n generalizing k with
  | zero => simp
  | succ n ih =>
    rw [List.range'_succ, List.find?_cons, List.findIdx_cons]
    cases h : p k
    · simp only [cond_false]
      rw [show k + (n + 1) = k + 1 + n by omega, ih (k + 1)]
      omega
    · simp

theorem clz_eq (a : Word) : clz a = BitVec.ofNat 32 ((List.range 32).findIdx fun i => a.getLsbD (31 - i)) := by
  have := find_getD_findIdx (fun i => a.getLsbD (31 - i)) 32 0
  simp only [Nat.zero_add] at this
  rw [clz, toW, List.range_eq_range', this]

theorem ctz_eq (a : Word) : ctz a = BitVec.ofNat 32 ((List.range 32).findIdx fun i => a.getLsbD i) := by
  have := find_getD_findIdx (fun i => a.getLsbD i) 32 0
  simp only [Nat.zero_add] at this
  rw [ctz, toW, List.range_eq_range', this]

theorem popc_eq (a : Word) : popc a = BitVec.ofNat 32 ((List.range 32).countP fun i => a.getLsbD i) := by
  simp [popc, toW, List.countP_eq_length_filter]

/-- The bits of a mask built lane by lane. -/
theorem maskOf_bit (f : Nat → Bool) (j : Nat) (hj : j < 32) : (maskOf f).getLsbD j = f j := by
  have key : ∀ (l : List Nat) (m : Word), (∀ i ∈ l, i < 32) →
      (l.foldl (fun m i => if f i then m ||| (1#32 <<< i) else m) m).getLsbD j = (m.getLsbD j || (l.contains j && f j)) := by
    intro l
    induction l with
    | nil => intro m _; simp
    | cons i l ih =>
      intro m hl
      simp only [List.foldl_cons]
      rw [ih _ (fun k hk => hl k (List.mem_cons_of_mem _ hk))]
      have hi := hl i (by simp)
      simp only [List.contains_cons]
      by_cases e : j = i
      · subst e
        cases hf : f j <;> simp [hj]
      · have e2 : (j == i) = false := by simpa using e
        rw [e2, Bool.false_or]
        cases hf : f i
        · simp
        · simp only [if_true, BitVec.getLsbD_or, BitVec.getLsbD_shiftLeft, hj, decide_true, Bool.true_and]
          have : (!decide (j < i) && (1#32).getLsbD (j - i)) = false := by
            by_cases h : j < i
            · simp [h]
            · simp only [h, decide_false, Bool.not_false, Bool.true_and]
              have : 0 < j - i := by omega
              simp [BitVec.getLsbD_one]
              omega
          rw [this, Bool.or_false]
  unfold maskOf
  rw [key _ _ (fun i hi => List.mem_range.mp hi)]
  simp [hj]

theorem brev_eq (a : Word) : brev a = a.reverse := by
  apply BitVec.eq_of_getLsbD_eq
  intro j hj
  rw [brev, maskOf_bit _ _ hj, BitVec.getLsbD_reverse, BitVec.getMsbD_eq_getLsbD]
  simp [hj]

end Sys2Proof.Machine
end

