-- ==== Sys2Proof/Tests/Slice0.lean ====
section
/-!
SUPPORT. Sys2Proof/Tests/Slice0.lean: decoding of words written out from the spec's encodings, terms that are not well-formed,
results worked out by hand from the spec's rules, and states that meet the hypotheses of each statement.
-/
namespace Sys2Proof.Tests

set_option Elab.async false

open Sys2Proof Sys2Proof.Machine

/-! ## Words written out bit by bit (R31-R36, R248, R249; the source lines are the spec's examples) -/

-- vadd.f32 v16, v8, s20 :5
theorem test_decode_vadd_f32 :
    decodeGroup 0b0100000_010000_0001000_0010100_0_1_101#32 = .ok (.vaddF32 ⟨16#6, 8#7, 20#7, 0#1, 1#1, 5#3⟩) := rfl
-- vadd.i32 v3, q0, v4 :4
theorem test_decode_vadd_i32 :
    decodeGroup 0b0000001_000011_0110000_0000100_1_0_100#32 = .ok (.vaddI32 ⟨3#6, 48#7, 4#7, 1#1, 0#1, 4#3⟩) := rfl
-- vbfx.i32 v9, v3, s12 :4
theorem test_decode_vbfx_i32 :
    decodeGroup 0b0011001_001001_0000011_0001100_0_1_100#32 = .ok (.vbfxI32 ⟨9#6, 3#7, 12#7, 0#1, 1#1, 4#3⟩) := rfl
-- vcmp.f32.lt t1, v2, s9 :5
theorem test_decode_vcmp_f32 :
    decodeGroup 0b0010110_010_001_0000010_0001001_0_1_101#32 = .ok (.vcmpF32 ⟨2#3, 1#3, 2#7, 9#7, 0#1, 1#1, 5#3⟩) := rfl
-- vdot4.e4m3 v5, v6, v7! :6
theorem test_decode_vdot4_e4m3 :
    decodeGroup 0b0110000_000101_0000110_1000111_0_0_110#32 = .ok (.vdot4E4m3 ⟨5#6, 6#7, 0b1000111#7, 0#1, 0#1, 6#3⟩) := rfl
-- vcvt.bf16.f32 v5, v4! :5
theorem test_decode_vcvt_bf16_f32 :
    decodeGroup 0b0111000_000101_1000100_0001011_0_0_101#32 = .ok (.vcvtBf16F32 ⟨5#6, 0b1000100#7, 0#1, 5#3⟩) := rfl
-- vcvt.e4m3.f32.b2.sr v6, v1 :5
theorem test_decode_vcvt_e4m3_f32 :
    decodeGroup 0b0111000_000110_0000001_0110010_0_0_101#32 = .ok (.vcvtE4m3F32 ⟨6#6, 1#7, 1#1, 2#2, 0#1, 5#3⟩) := rfl
-- vcvt.f32.e2m1.nb0 v2, v8 :5
theorem test_decode_vcvt_f32_e2m1 :
    decodeGroup 0b0111000_000010_0001000_0101000_0_0_101#32 = .ok (.vcvtF32E2m1 ⟨2#6, 8#7, 0#3, 0#1, 5#3⟩) := rfl
-- vsfu.rsq v7, v6
theorem test_decode_vsfu_rsq :
    decodeGroup 0b0111001_000111_0000110_0000001_0_0_000#32 = .ok (.vsfuRsq ⟨7#6, 6#7, 0#1, 0#3⟩) := rfl
-- vmov q2, v7
theorem test_decode_vmov_port :
    decodeGroup 0b0111010_110010_0000111_0000000_0_1_000#32 = .ok (.vmovPortPush ⟨50#6, 7#7, 0#1, 0#3⟩) := rfl
-- vbit.neg.i32 v2, v1 :4
theorem test_decode_vbit_neg :
    decodeGroup 0b0111010_000010_0000001_0000111_0_0_100#32 = .ok (.vbitNegI32 ⟨2#6, 1#7, 0#1, 4#3⟩) := rfl
-- vscan.x.add.i32 v10, v11! :4
theorem test_decode_vscan :
    decodeGroup 0b0111011_001010_1001011_1000000_0_0_100#32 = .ok (.vscanAddI32 ⟨10#6, 0b1001011#7, 1#1, 0#1, 4#3⟩) := rfl
-- vvote.ballot s6, v4 :6
theorem test_decode_vvote : decodeGroup 0b0111100_000110_0000100_0000010_0_0_110#32 = .ok (.vvoteBallot ⟨6#6, 4#7, 6#3⟩) := rfl
-- vred.add.i32 s12, v7! :6
theorem test_decode_vred : decodeGroup 0b0111110_001100_1000111_0000000_0_0_110#32 = .ok (.vredAddI32 ⟨12#6, 0b1000111#7, 6#3⟩) := rfl
-- vdropm t2, v9, s15 :5
theorem test_decode_vdropm :
    decodeGroup 0b0111111_000010_0001001_0001111_0_1_101#32 = .ok (.vdropm ⟨2#6, 9#7, 15#7, 5#3⟩) := rfl
-- sclt.n32 s7, s8, s9 :2
theorem test_decode_sclt :
    decodeGroup 0b1001111_000111_0001000_0001001_0_0_010#32 = .ok (.scltN32 ⟨7#6, 8#7, 9#7, 2#3⟩) := rfl
-- vaddi v6, v5!, -3 :4
theorem test_decode_vaddi :
    decodeGroup 0b1010000_000110_1000101_111111101_100#32 = .ok (.vaddi ⟨6#6, 0b1000101#7, 0x1FD#9, 4#3⟩) := rfl
-- sbit.clz s10, s11 :2
theorem test_decode_sbit : decodeGroup 0b1010111_001010_0001011_0000011_0_0_010#32 = .ok (.sbitClz ⟨10#6, 11#7, 2#3⟩) := rfl
-- br done
theorem test_decode_br : decodeGroup 0b1011000_0000000000000000000010_000#32 = .ok (.br ⟨2#22, 0#3⟩) := rfl
-- brz s16, gone
theorem test_decode_brz : decodeGroup 0b1011001_010000_0000000000001010_000#32 = .ok (.brz ⟨16#6, 10#16, 0#3⟩) := rfl
-- ld.b64 v8, [s6, v2!]
theorem test_decode_ld :
    decodeGroup 0b1100000_001000_1000010_00011_101_0_000#32 = .ok (.ld ⟨8#6, 0b1000010#7, 3#5, 5#3, 0#3⟩) := rfl
-- stp.b64 v6, [v2!]
theorem test_decode_stp :
    decodeGroup 0b1100011_000110_1000010_00000_101_0_000#32 = .ok (.stp ⟨6#6, 0b1000010#7, 5#3, 0#3⟩) := rfl
-- stx.b32 v5, [s8, v2]
theorem test_decode_stx :
    decodeGroup 0b1100101_000101_0000010_00100_100_0_000#32 = .ok (.stx ⟨5#6, 2#7, 4#5, 4#3, 0#3⟩) := rfl
-- sld.b128 s24, [s6, s12]
theorem test_decode_sld :
    decodeGroup 0b1100110_011000_0001100_00011_110_0_000#32 = .ok (.sld ⟨24#6, 12#7, 3#5, 6#3, 0#3⟩) := rfl
-- atom.cas v6, [s8, v2]
theorem test_decode_atom :
    decodeGroup 0b1101000_000110_0000010_00100_1010_000#32 = .ok (.atom ⟨6#6, 2#7, 4#5, 10#4, 0#3⟩) := rfl
-- red.add.bf16x2 v5, [s12, v1!]
theorem test_decode_red :
    decodeGroup 0b1101001_000101_1000001_00110_1011_000#32 = .ok (.red ⟨5#6, 0b1000001#7, 6#5, 11#4, 0#3⟩) := rfl
-- atomx.add.i32 v6, [s8, v3]
theorem test_decode_atomx :
    decodeGroup 0b1101010_000110_0000011_00100_0000_000#32 = .ok (.atomx ⟨6#6, 3#7, 4#5, 0#4, 0#3⟩) := rfl
-- npost s12, s20, [s8]
theorem test_decode_npost :
    decodeGroup 0b1101011_001100_0010100_00100_0000_000#32 = .ok (.npost ⟨12#6, 20#7, 4#5, 0#3⟩) := rfl
-- nread s16, [s8]
theorem test_decode_nread : decodeGroup 0b1101101_010000_0000000_00100_0000_000#32 = .ok (.nread ⟨16#6, 4#5, 0#3⟩) := rfl
-- cpyx v4, s24
theorem test_decode_cpyx : decodeGroup 0b1101111_000000_0000100_0011000_0_1_000#32 = .ok (.cpyx ⟨4#7, 24#7, 0#3⟩) := rfl
-- bseal s13 :2
theorem test_decode_bseal : decodeGroup 0b1110000_001101_0000000_0000000_00_010#32 = .ok (.bseal ⟨13#6, 2#3⟩) := rfl
-- mpost s9, s20 :2
theorem test_decode_mpost : decodeGroup 0b1110001_001001_0010100_0000000_00_010#32 = .ok (.mpost ⟨9#6, 20#7, 2#3⟩) := rfl
-- sq.fork s10, s24 :2
theorem test_decode_sq_fork : decodeGroup 0b1110010_001010_0011000_0000100_00_010#32 = .ok (.sqFork ⟨10#6, 24#7, 2#3⟩) := rfl
-- spawn s16, s20
theorem test_decode_spawn : decodeGroup 0b1110011_010000_0010100_0000000_00_000#32 = .ok (.spawn ⟨16#6, 20#7, 0#3⟩) := rfl
-- launch s17, s20 :2
theorem test_decode_launch : decodeGroup 0b1110100_010001_0010100_0000000_00_010#32 = .ok (.launch ⟨17#6, 20#7, 2#3⟩) := rfl
-- chain.query s15 :2
theorem test_decode_chain : decodeGroup 0b1110101_001111_0000000_0000010_00_010#32 = .ok (.chainQuery ⟨15#6, 2#3⟩) := rfl
-- cache.icinv s6, s20
theorem test_decode_cache : decodeGroup 0b1110110_000110_0010100_0000011_00_000#32 = .ok (.cacheIcinv ⟨6#6, 20#7, 0#3⟩) := rfl
-- regroup s15, s14 :2
theorem test_decode_regroup : decodeGroup 0b1110111_001111_0001110_0000000_00_010#32 = .ok (.regroup ⟨15#6, 14#7, 2#3⟩) := rfl
-- bar.init c, s10, s9
theorem test_decode_bar_init :
    decodeGroup 0b1111000_001010_0001001_0000000_00_000#32 = .ok (.barInit ⟨10#6, 9#7, 0#2, 0#3⟩) := rfl
-- park.waitm p, s12, s20
theorem test_decode_park_waitm :
    decodeGroup 0b1111001_001100_0010100_0010011_00_000#32 = .ok (.parkWaitm ⟨12#6, 20#7, 1#2, 0#3⟩) := rfl
-- fence.acqrel package :1
theorem test_decode_fence : decodeGroup 0b1111010_100_10_00000000000000000_001#32 = .ok (.fence ⟨4#3, 2#2, 1#3⟩) := rfl
-- sys.setst s8
theorem test_decode_sys_setst : decodeGroup 0b1111011_000000_0001000_0000101_00_000#32 = .ok (.sysSetst ⟨8#7, 0#3⟩) := rfl
-- sys.trap 17
theorem test_decode_sys_trap : decodeGroup 0xF6011020#32 = .ok (.sysTrap ⟨17#13, 0#3⟩) := rfl
-- grep 4, d+a, 1
theorem test_decode_grep :
    decodeGroup 0b1111100_01_000011_1_1_0_00_000000000000#32 = .ok (.grep ⟨3#6, 1#1, 1#1, 0#1, 0#2⟩) := rfl
-- gmod scope=tenant
theorem test_decode_gmod :
    decodeGroup 0b1111100_10_0_00_0_000_1_011_0_00000000000#32 = .ok (.gmod ⟨0#1, 0#2, 0#1, 0#3, 1#1, 3#3, 0#1⟩) := rfl
-- gext c=v9
theorem test_decode_gext : decodeGroup 0b1111100_11_0001001_0_000_000000000000#32 = .ok (.gext ⟨9#7, 0#1, 0#3⟩) := rfl
-- gstall 10
theorem test_decode_gstall : decodeGroup 0b1111101_00_00001010_000000000000000#32 = .ok (.gstall ⟨10#8⟩) := rfl
-- gscale a=v12.b1, b=v13.b0
theorem test_decode_gscale :
    decodeGroup 0b1111101_01_001100_01_001101_00_0000000#32 = .ok (.gscale ⟨12#6, 1#2, 13#6, 0#2⟩) := rfl
-- hmovi h6, 64
theorem test_decode_hmovi : decodeHelm 0b00001_00110_0_000000000000001000000#32 = .ok (.hmovi ⟨6#5, 64#21⟩) := rfl
-- hadd h4, h4, 128
theorem test_decode_hadd : decodeHelm 0b00010_00100_00100_00000_1_00010000000#32 = .ok (.hadd ⟨4#5, 4#5, 0#5, 1#1, 128#11⟩) := rfl
-- mpop h8
theorem test_decode_mpop : decodeHelm 0b01011_01000_0000000000000000000000#32 = .ok (.mpop ⟨8#5⟩) := rfl
-- mma acc0, h4, h5, h6, h7
theorem test_decode_mma :
    decodeHelm 0b10001_00_00100_00101_00110_00111_00000#32 = .ok (.mma ⟨0#2, 4#5, 5#5, 6#5, 7#5⟩) := rfl
-- mrmax.keep acc0, h14, h15
theorem test_decode_mrmax : decodeHelm 0b10011_00_01110_01111_00000_00000_00001#32 = .ok (.mrmaxKeep ⟨0#2, 14#5, 15#5⟩) := rfl
-- mstore.f16 acc1, h10, h11
theorem test_decode_mstore : decodeHelm 0b10110_01_01010_01011_00000_00000_00001#32 = .ok (.mstore ⟨1#2, 10#5, 11#5, 1#2⟩) := rfl
-- mplane.bi4 acc2, h16, h17, h18, h19
theorem test_decode_mplane :
    decodeHelm 0b10111_10_10000_10001_10010_10011_00011#32 = .ok (.mplane ⟨2#2, 16#5, 17#5, 18#5, 19#5, 0#1, 3#3⟩) := rfl
-- hhalt
theorem test_decode_hhalt : decodeHelm 0b11100_000000000000000000000000000#32 = .ok .hhalt := rfl

/-! ## Terms that are not well-formed: one for each check -/

-- a dry bit on a source that the file bit makes scalar (R11, R32)
theorem test_wf_xsrc : Instr.wf (.vaddI32 ⟨1#6, 0x41#7, 2#7, 1#1, 0#1, 0#3⟩) = false := by decide
-- a dry bit on a scalar source, and a scalar index that may not be read (R12, R32)
theorem test_wf_ssrc_dry : Instr.wf (.sadd ⟨1#6, 0x41#7, 2#7, 0#3⟩) = false := by decide
theorem test_wf_ssrc_lid : Instr.wf (.sadd ⟨1#6, 57#7, 2#7, 0#3⟩) = false := by decide
-- an odd base, and a base whose words end above s47 (R32)
theorem test_wf_sbase_odd : Instr.wf (.mpost ⟨1#6, 21#7, 0#3⟩) = false := by decide
theorem test_wf_sbase_high : Instr.wf (.cpy ⟨42#7, 0#3⟩) = false := by decide
theorem test_wf_sbase6 : Instr.wf (.nread ⟨15#6, 4#5, 0#3⟩) = false := by decide
-- data registers of a scalar store that are no multiple of their number
theorem test_wf_sdat : Instr.wf (.sst ⟨3#6, 1#7, 4#5, 5#3, 0#3⟩) = false := by decide
-- vector registers of a wide load that are no multiple of their number (R18)
theorem test_wf_vdst : Instr.wf (.ld ⟨6#6, 1#7, 4#5, 6#3, 0#3⟩) = false := by decide
-- scalar destinations: a special register, and one past s47 (R32)
theorem test_wf_sdst : Instr.wf (.smov ⟨58#6, 1#7, 0#3⟩) = false := by decide
theorem test_wf_sdst_zr : Instr.wf (.smov ⟨56#6, 1#7, 0#3⟩) = true := by decide
theorem test_wf_sdstN : Instr.wf (.sld ⟨46#6, 1#7, 4#5, 6#3, 0#3⟩) = false := by decide
-- a tested scalar that is a port, and a link register that is not s0-s47 (R93)
theorem test_wf_scal : Instr.wf (.brz ⟨50#6, 1#16, 0#3⟩) = false := by decide
theorem test_wf_s47 : Instr.wf (.call ⟨48#6, 1#16, 0#3⟩) = false := by decide
-- a triple above 7 (R32), a port push to a plain index (R34)
theorem test_wf_trip : Instr.wf (.vdropm ⟨8#6, 1#7, 2#7, 0#3⟩) = false := by decide
theorem test_wf_pdst : Instr.wf (.vmovPortPush ⟨57#6, 1#7, 0#1, 0#3⟩) = false := by decide
-- a base pair above s46 (R32)
theorem test_wf_pair : Instr.wf (.ld ⟨1#6, 1#7, 24#5, 4#3, 0#3⟩) = false := by decide
-- sizes: the reserved code, a sign-extending store, a private byte (R18, R131)
theorem test_wf_lsize : Instr.wf (.ld ⟨1#6, 1#7, 4#5, 7#3, 0#3⟩) = false := by decide
theorem test_wf_ssize : Instr.wf (.st ⟨1#6, 1#7, 4#5, 1#3, 0#3⟩) = false := by decide
theorem test_wf_psize : Instr.wf (.ldp ⟨1#6, 1#7, 3#3, 0#3⟩) = false := by decide
-- an atomic of code 11, which only red has, and one of code 12 (R36)
theorem test_wf_aop_atom : Instr.wf (.atom ⟨2#6, 1#7, 4#5, 11#4, 0#3⟩) = false := by decide
theorem test_wf_aop_red : Instr.wf (.red ⟨2#6, 1#7, 4#5, 12#4, 0#3⟩) = false := by decide
-- a reserved progress class (R35) and a reserved scope (R21)
theorem test_wf_cls : Instr.wf (.barInit ⟨1#6, 2#7, 3#2, 0#3⟩) = false := by decide
theorem test_wf_scope : Instr.wf (.fence ⟨7#3, 0#2, 0#3⟩) = false := by decide
-- a gmod that gives a rounding mode without its enable, and the reserved scope (R23)
theorem test_wf_gmod_rm : Instr.wf (.gmod ⟨0#1, 1#2, 0#1, 0#3, 0#1, 0#3, 0#1⟩) = false := by decide
theorem test_wf_gmod_scope : Instr.wf (.gmod ⟨0#1, 0#2, 0#1, 0#3, 1#1, 7#3, 0#1⟩) = false := by decide
-- an HR form with an immediate and a register (R248)
theorem test_wf_hrImm : Instr.wf (.hadd ⟨1#5, 2#5, 3#5, 1#1, 4#11⟩) = false := by decide
-- helm registers of mpop and mdone (R252)
theorem test_wf_mult4 : Instr.wf (.mpop ⟨6#5⟩) = false := by decide
theorem test_wf_hEven : Instr.wf (.mdone ⟨5#5⟩) = false := by decide
-- element formats (R254, R255)
theorem test_wf_elemFmt : Instr.wf (.mstore ⟨0#2, 1#5, 2#5, 3#2⟩) = false := by decide
theorem test_wf_planeFmt : Instr.wf (.mplane ⟨0#2, 1#5, 2#5, 3#5, 4#5, 1#1, 2#3⟩) = false := by decide

/-! ## Small states -/

/-- Group 1 of unit 1, alone on core 0, about to run instruction i. -/
def at1 (i : Instr) : State := { State.reset.placeGroup (encodeWord i) with cur := 1, iw := encodeWord i, agenda := [] }

/-- The same, with the group changed. -/
def atG (i : Instr) (f : Group → Group) : State := (at1 i).modGrp 1 f

/-- One GiB of context 0 of VF 0 mapped onto itself at both stages; the context's trap block is at 0x6000, its vector at
0x10000100 (R309-R312, R358). -/
def paged (s : State) : State :=
  let m := s.mem.store 0x1000 (leBytes 8 0x2001)
  let m := m.store 0x2000 (leBytes 8 0x7F)
  let m := m.store 0x3000 (leBytes 8 0x4001 ++ leBytes 8 0x6000 ++ leBytes 8 1)
  let m := m.store 0x4000 (leBytes 8 0x5001)
  let m := m.store 0x5000 (leBytes 8 0x7F)
  let m := m.store 0x6000 (leBytes 8 0x10000100 ++ leBytes 8 0 ++ leBytes 8 0 ++ leBytes 8 0x7000)
  { s with mem := m, vfs := s.vfs.set 0 { s.vf 0 with s2 := 0x1001#64, ctxTbl := 0x3001#64 } }

/-- The words of that trap block. -/
def tblk : List Word := [0x10000100#32, 0#32, 0#32, 0#32, 0#32, 0#32, 0x7000#32, 0#32] ++ List.replicate 8 0#32

/-- Whether an instruction answers a next state of which p holds. -/
def goes (i : Instr) (s : State) (p : State → Bool) : Bool :=
  match exec i s with
  | .next t => p t
  | _ => false

/-- Whether an operation succeeds with a result of which p holds. -/
def okOf {ε α : Type} (e : Except ε α) (p : α → Bool) : Bool :=
  match e with
  | .ok a => p a
  | .error _ => false

theorem exists_ok {ε α : Type} {e : Except ε α} {p : α → Bool} (h : okOf e p = true) : ∃ a, e = .ok a ∧ p a = true := by
  cases e with
  | ok a => exact ⟨a, rfl, h⟩
  | error _ => exact absurd h (by simp [okOf])

/-- An operation that succeeds with a result of which a decidable P holds. -/
theorem ok_dec {ε α : Type} {e : Except ε α} {P : α → Prop} [DecidablePred P] (h : okOf e (fun a => decide (P a)) = true) :
    ∃ a, e = .ok a ∧ P a :=
  (exists_ok h).imp fun _ k => ⟨k.1, of_decide_eq_true k.2⟩

/-- Whether the core has room for a register more after the operands are gathered. -/
def roomy (c : Nat) (q : Gath) : Bool := keysRise q.s.groups && decide (q.s.entriesUsed c + 3 ≤ Config.coreEntries)

/-- A group whose scalars at the listed numbers hold the listed values. -/
def sets (l : List (Nat × Word)) (g : Group) : Group := { g with sr := l.foldl (fun r p => r.set p.1 p.2) g.sr }

/-- Beat 0 of a vector register holds in each lane the value of a function. -/
def setv (n : Nat) (f : Nat → Word) (g : Group) : Group := { g with vr := g.vr.set (3 * n) (.mapped ((List.range 32).map f) 0) }

/-- Glosses before the instruction. -/
def glossed (l : List Instr) (g : Group) : Group := { g with chain := l.map encodeWord }

/-- The hypotheses of a scalar rule. -/
def ScalarMeets (i : Instr) (srcs : IX → List Nat) (d : IX → Nat) (s : State) : Prop :=
  Passes none false i s ∧ (s.ix false).g.scoreboard (scalarUses (s.ix false) (srcs (s.ix false)) [d (s.ix false)]) = none

/-- The hypotheses of a vector rule. -/
def VectorMeets (i : Instr) (late : Bool) (srcs : IX → List Src) (d : IX → Nat) (s : State) : Prop :=
  Passes none true i s ∧ ∃ q, gather (s.ix true) s.issuing late (srcs (s.ix true)) [d (s.ix true)] [] = .ok q ∧
    Roomy q.s (s.ix true).g.core

theorem vectorMeets {i : Instr} {late : Bool} {srcs : IX → List Src} {d : IX → Nat} {s : State} (h : Passes none true i s)
    (k : okOf (gather (s.ix true) s.issuing late (srcs (s.ix true)) [d (s.ix true)] []) (roomy (s.ix true).g.core) = true) :
    VectorMeets i late srcs d s := by
  obtain ⟨q, hq, hp⟩ := exists_ok k
  rw [roomy, Bool.and_eq_true, decide_eq_true_eq] at hp
  exact ⟨h, q, hq, hp⟩

/-! ## Scalar forms (O1) -/

theorem wit_scalar : ScalarMeets (.sadd ⟨47#6, 46#7, 0#7, 2#3⟩) (fun x => [x.a 46#7, x.a 0#7]) (fun x => x.d 47#6)
    (at1 (.sadd ⟨47#6, 46#7, 0#7, 2#3⟩)) := by unfold ScalarMeets Passes; decide +kernel
theorem wit_scalar_zr : ScalarMeets (.smulhiN32 ⟨56#6, 4#7, 5#7, 2#3⟩) (fun x => [x.a 4#7, x.a 5#7]) (fun x => x.d 56#6)
    (at1 (.smulhiN32 ⟨56#6, 4#7, 5#7, 2#3⟩)) := by unfold ScalarMeets Passes; decide +kernel
theorem wit_scalar_one : ScalarMeets (.sbitClz ⟨5#6, 56#7, 2#3⟩) (fun x => [x.a 56#7]) (fun x => x.d 5#6)
    (at1 (.sbitClz ⟨5#6, 56#7, 2#3⟩)) := by unfold ScalarMeets Passes; decide +kernel
theorem wit_scalar_imm : ScalarMeets (.saddi ⟨5#6, 5#7, 0x1FF#9, 2#3⟩) (fun x => [x.a 5#7]) (fun x => x.d 5#6)
    (atG (.saddi ⟨5#6, 5#7, 0x1FF#9, 2#3⟩) (glossed [.gimm ⟨5#23⟩])) := by unfold ScalarMeets Passes; decide +kernel
theorem wit_smovi : ScalarMeets (.smovi ⟨5#6, 1#9, 2#3⟩) (fun _ => []) (fun x => x.d 5#6) (at1 (.smovi ⟨5#6, 1#9, 2#3⟩)) := by
  unfold ScalarMeets Passes; decide +kernel

-- the sum wraps; d may be a source
theorem test_sadd : goes (.sadd ⟨4#6, 4#7, 5#7, 2#3⟩)
    (atG (.sadd ⟨4#6, 4#7, 5#7, 2#3⟩) (sets [(4, 0xFFFFFFFF#32), (5, 3#32)]))
    (fun t => wAt (t.grp 1).sr 4 = 2#32 && (t.grp 1).pc = 0x10000004) = true := by decide +kernel
theorem test_ssub : goes (.ssub ⟨6#6, 4#7, 5#7, 2#3⟩) (atG (.ssub ⟨6#6, 4#7, 5#7, 2#3⟩) (sets [(4, 1#32), (5, 3#32)]))
    (fun t => wAt (t.grp 1).sr 6 = 0xFFFFFFFE#32) = true := by decide +kernel
-- bits [63:32] of an unsigned product
theorem test_smulhi : goes (.smulhiN32 ⟨6#6, 4#7, 5#7, 2#3⟩)
    (atG (.smulhiN32 ⟨6#6, 4#7, 5#7, 2#3⟩) (sets [(4, 0xFFFFFFFF#32), (5, 0xFFFFFFFF#32)]))
    (fun t => wAt (t.grp 1).sr 6 = 0xFFFFFFFE#32) = true := by decide +kernel
-- a count of 32 and more (R75); the count is bits [7:0]
theorem test_sshl : goes (.sshl ⟨6#6, 4#7, 5#7, 2#3⟩) (atG (.sshl ⟨6#6, 4#7, 5#7, 2#3⟩) (sets [(4, 1#32), (5, 0x120#32)]))
    (fun t => wAt (t.grp 1).sr 6 = 0#32) = true := by decide +kernel
theorem test_sshr : goes (.sshrI32 ⟨6#6, 4#7, 5#7, 2#3⟩)
    (atG (.sshrI32 ⟨6#6, 4#7, 5#7, 2#3⟩) (sets [(4, 0x80000000#32), (5, 0xFF#32)]))
    (fun t => wAt (t.grp 1).sr 6 = 0xFFFFFFFF#32) = true := by decide +kernel
theorem test_sclt : goes (.scltI32 ⟨6#6, 4#7, 5#7, 2#3⟩) (atG (.scltI32 ⟨6#6, 4#7, 5#7, 2#3⟩) (sets [(4, 0xFFFFFFFF#32), (5, 0#32)]))
    (fun t => wAt (t.grp 1).sr 6 = 1#32) = true := by decide +kernel
theorem test_sclz : goes (.sbitClz ⟨6#6, 4#7, 2#3⟩) (atG (.sbitClz ⟨6#6, 4#7, 2#3⟩) (sets [(4, 0x00010000#32)]))
    (fun t => wAt (t.grp 1).sr 6 = 15#32) = true := by decide +kernel
-- zr discards what is written, and the word completes (R12)
theorem test_smov_zr : goes (.smov ⟨56#6, 4#7, 2#3⟩) (atG (.smov ⟨56#6, 4#7, 2#3⟩) (sets [(4, 7#32)]))
    (fun t => (t.grp 1).sr = ((atG (.smov ⟨56#6, 4#7, 2#3⟩) (sets [(4, 7#32)])).grp 1).sr && (t.grp 1).pc = 0x10000004) = true := by decide +kernel
-- the short immediate is sign-extended (R19)
theorem test_saddi : goes (.saddi ⟨6#6, 4#7, 0x1FD#9, 2#3⟩) (atG (.saddi ⟨6#6, 4#7, 0x1FD#9, 2#3⟩) (sets [(4, 5#32)]))
    (fun t => wAt (t.grp 1).sr 6 = 2#32) = true := by decide +kernel
-- with gimm the immediate is {p23, imm9} (R19)
theorem test_smovi_gimm : goes (.smovi ⟨6#6, 1#9, 2#3⟩) (atG (.smovi ⟨6#6, 1#9, 2#3⟩) (glossed [.gimm ⟨1#23⟩]))
    (fun t => wAt (t.grp 1).sr 6 = 0x201#32 && (t.grp 1).chain.isEmpty) = true := by decide +kernel

/-! ## Vector forms (O2) -/

theorem wit_vector : VectorMeets (.vaddI32 ⟨1#6, 0x42#7, 4#7, 0#1, 1#1, 4#3⟩) false (fun x => [x.srcA 0x42#7 0#1, x.srcB 4#7 1#1])
    (fun x => x.d 1#6) (at1 (.vaddI32 ⟨1#6, 0x42#7, 4#7, 0#1, 1#1, 4#3⟩)) :=
  vectorMeets (by unfold Passes; decide +kernel) (by decide +kernel)
theorem wit_vector_one : VectorMeets (.vbitClz ⟨63#6, 57#7, 1#1, 4#3⟩) false (fun x => [x.srcA 57#7 1#1])
    (fun x => x.d 63#6) (at1 (.vbitClz ⟨63#6, 57#7, 1#1, 4#3⟩)) :=
  vectorMeets (by unfold Passes; decide +kernel) (by decide +kernel)
theorem wit_vector_imm : VectorMeets (.vshli ⟨1#6, 2#7, 31#9, 4#3⟩) false (fun x => [.vec (x.a 2#7)])
    (fun x => x.d 1#6) (at1 (.vshli ⟨1#6, 2#7, 31#9, 4#3⟩)) :=
  vectorMeets (by unfold Passes; decide +kernel) (by decide +kernel)
theorem wit_vmovi : VectorMeets (.vmovi ⟨1#6, 1#9, 4#3⟩) false (fun _ => []) (fun x => x.d 1#6) (at1 (.vmovi ⟨1#6, 1#9, 4#3⟩)) :=
  vectorMeets (by unfold Passes; decide +kernel) (by decide +kernel)
theorem wit_vmad : VectorMeets (.vmadI32 ⟨1#6, 2#7, 3#7, 0#1, 0#1, 4#3⟩) false
    (fun x => [(x.addend 1#6).1, x.srcA 2#7 0#1, x.srcB 3#7 0#1]) (fun x => x.d 1#6)
    (atG (.vmadI32 ⟨1#6, 2#7, 3#7, 0#1, 0#1, 4#3⟩) (glossed [.gext ⟨9#7, 0#1, 0#3⟩])) :=
  vectorMeets (by unfold Passes; decide +kernel) (by decide +kernel)
theorem wit_vbfi : VectorMeets (.vbfi ⟨1#6, 2#7, 3#7, 0#1, 0#1, 4#3⟩) false
    (fun x => [.vec (x.d 1#6), x.srcA 2#7 0#1, x.srcB 3#7 0#1]) (fun x => x.d 1#6)
    (at1 (.vbfi ⟨1#6, 2#7, 3#7, 0#1, 0#1, 4#3⟩)) :=
  vectorMeets (by unfold Passes; decide +kernel) (by decide +kernel)
theorem wit_vsel : VectorMeets (.vsel ⟨1#6, 2#7, 3#7, 0#1, 0#1, 4#3⟩) false
    (fun x => [x.srcA 2#7 0#1, x.srcB 3#7 0#1, .trip 1]) (fun x => x.d 1#6)
    (at1 (.vsel ⟨1#6, 2#7, 3#7, 0#1, 0#1, 4#3⟩)) :=
  vectorMeets (by unfold Passes; decide +kernel) (by decide +kernel)
theorem wit_vdot4_i8 : VectorMeets (.vdot4I8 ⟨1#6, 2#7, 3#7, 0#1, 0#1, 6#3⟩) false
    (fun x => [x.srcA 2#7 0#1, x.srcB 3#7 0#1, (x.addend 1#6).1]) (fun x => x.d 1#6)
    (at1 (.vdot4I8 ⟨1#6, 2#7, 3#7, 0#1, 0#1, 6#3⟩)) :=
  vectorMeets (by unfold Passes; decide +kernel) (by decide +kernel)

/-- Lane l of beat 0 of a vector register of group 1. -/
def lane (t : State) (n l : Nat) : Word := ((t.grp 1).cellNow (.vec n 0)).getD l 0#32

-- the inactive lanes keep what they held (R46); a dry source reads 0 afterwards (R57)
theorem test_vadd : goes (.vaddI32 ⟨1#6, 0x42#7, 3#7, 0#1, 0#1, 4#3⟩)
    (atG (.vaddI32 ⟨1#6, 0x42#7, 3#7, 0#1, 0#1, 4#3⟩) fun g =>
      sets [(0, 0x80000001#32)] (setv 1 (fun _ => 9#32) (setv 2 (fun l => BitVec.ofNat 32 l) (setv 3 (fun _ => 0xFFFFFFFF#32) g))))
    (fun t => lane t 1 0 = 0xFFFFFFFF#32 && lane t 1 1 = 9#32 && lane t 1 31 = 30#32 && lane t 2 5 = 0#32 &&
      lane t 3 5 = 0xFFFFFFFF#32) = true := by decide +kernel
-- bits [63:32] of a signed product
theorem test_vmulhi : goes (.vmulhiI32 ⟨1#6, 2#7, 3#7, 0#1, 0#1, 4#3⟩)
    (atG (.vmulhiI32 ⟨1#6, 2#7, 3#7, 0#1, 0#1, 4#3⟩) fun g => setv 2 (fun _ => 0xFFFFFFFF#32) (setv 3 (fun _ => 2#32) g))
    (fun t => lane t 1 0 = 0xFFFFFFFF#32) = true := by decide +kernel
-- R76's field that is cut at bit 31: p = 28, w = 8
theorem test_vbfx_n32 : goes (.vbfxN32 ⟨1#6, 2#7, 3#7, 0#1, 0#1, 4#3⟩)
    (atG (.vbfxN32 ⟨1#6, 2#7, 3#7, 0#1, 0#1, 4#3⟩) fun g => setv 2 (fun _ => 0xF1234567#32) (setv 3 (fun _ => 0x081C#32) g))
    (fun t => lane t 1 0 = 0xF#32) = true := by decide +kernel
-- the example under R79: 0xA50 with p = 4, w = 8 gives 0xFFFFFFA5
theorem test_vbfx_i32 : goes (.vbfxI32 ⟨9#6, 3#7, 12#7, 0#1, 1#1, 4#3⟩)
    (atG (.vbfxI32 ⟨9#6, 3#7, 12#7, 0#1, 1#1, 4#3⟩) fun g => sets [(12, 0x804#32)] (setv 3 (fun _ => 0xA50#32) g))
    (fun t => lane t 9 0 = 0xFFFFFFA5#32) = true := by decide +kernel
theorem test_vaddsat : goes (.vaddsatI32 ⟨1#6, 2#7, 3#7, 0#1, 0#1, 4#3⟩)
    (atG (.vaddsatI32 ⟨1#6, 2#7, 3#7, 0#1, 0#1, 4#3⟩) fun g => setv 2 (fun _ => 0x7FFFFFFF#32) (setv 3 (fun _ => 1#32) g))
    (fun t => lane t 1 0 = 0x7FFFFFFF#32) = true := by decide +kernel
theorem test_vpack16 : goes (.vpack16 ⟨1#6, 2#7, 3#7, 0#1, 0#1, 4#3⟩)
    (atG (.vpack16 ⟨1#6, 2#7, 3#7, 0#1, 0#1, 4#3⟩) fun g => setv 2 (fun _ => 0x11112222#32) (setv 3 (fun _ => 0x33334444#32) g))
    (fun t => lane t 1 0 = 0x44442222#32) = true := by decide +kernel
-- the lane numbers by lid (R12)
theorem test_vmov_lid : goes (.vmov ⟨1#6, 57#7, 1#1, 4#3⟩) (at1 (.vmov ⟨1#6, 57#7, 1#1, 4#3⟩))
    (fun t => lane t 1 0 = 0#32 && lane t 1 31 = 31#32) = true := by decide +kernel
-- four signed bytes: 1*2 + (-1)*3 + 0 + 0 added to d
theorem test_vdot4 : goes (.vdot4I8 ⟨1#6, 2#7, 3#7, 0#1, 0#1, 6#3⟩)
    (atG (.vdot4I8 ⟨1#6, 2#7, 3#7, 0#1, 0#1, 6#3⟩) fun g =>
      setv 1 (fun _ => 10#32) (setv 2 (fun _ => 0x0000FF01#32) (setv 3 (fun _ => 0x00000302#32) g)))
    (fun t => lane t 1 0 = 9#32) = true := by decide +kernel
-- the second of two repeats with step 1 on d writes the next register (R28)
theorem test_grep : goes (.vmovi ⟨4#6, 7#9, 4#3⟩)
    (atG (.vmovi ⟨4#6, 7#9, 4#3⟩) fun g => { glossed [.grep ⟨1#6, 1#1, 0#1, 0#1, 0#2⟩] g with gst := withRpi g.gst 1 })
    (fun t => lane t 4 0 = 0#32 && lane t 5 0 = 7#32 && (t.grp 1).pc = 0x10000004) = true := by decide +kernel

/-! ## Compares (O3) -/

/-- The hypotheses of a rule that writes a condition triple. -/
def TripleMeets (i : Instr) (srcs : IX → List Src) (t : IX → Nat) (f : IX → List Word → Bool × Nat) (s : State) : Prop :=
  let x := s.ix true
  Passes none true i s ∧ ∃ q, gather x s.issuing false (srcs x) [] (tripDst (t x)) = .ok q ∧
    fpxOf (gstEn x.g.gst) (q.rows.map fun r =>
      (r.b, r.lanes.foldl (fun m l => m ||| (f x (r.args (srcs x).length l)).2) 0)) = none

theorem tripleMeets {i : Instr} {srcs : IX → List Src} {t : IX → Nat} {f : IX → List Word → Bool × Nat} {s : State}
    (h : Passes none true i s)
    (k : okOf (gather (s.ix true) s.issuing false (srcs (s.ix true)) [] (tripDst (t (s.ix true))))
      (fun q => (fpxOf (gstEn (s.ix true).g.gst) (q.rows.map fun r =>
        (r.b, r.lanes.foldl (fun m l => m ||| (f (s.ix true) (r.args (srcs (s.ix true)).length l)).2) 0))).isNone) = true) :
    TripleMeets i srcs t f s := by
  obtain ⟨q, hq, hp⟩ := exists_ok k
  exact ⟨h, q, hq, Option.isNone_iff_eq_none.1 hp⟩

theorem wit_vcmp_i32 : TripleMeets (.vcmpI32 ⟨4#3, 7#3, 2#7, 13#7, 0#1, 1#1, 4#3⟩) (fun x => [x.srcA 2#7 0#1, x.srcB 13#7 1#1])
    (fun _ => 7) (fun _ v => (intCond 4 (v0 v == v1 v) ((v0 v).slt (v1 v)), 0))
    (at1 (.vcmpI32 ⟨4#3, 7#3, 2#7, 13#7, 0#1, 1#1, 4#3⟩)) :=
  tripleMeets (by unfold Passes; decide +kernel) (by decide +kernel)
theorem wit_vcmp_f32 : TripleMeets (.vcmpF32 ⟨2#3, 0#3, 2#7, 9#7, 0#1, 1#1, 5#3⟩) (fun x => [x.srcA 2#7 0#1, x.srcB 9#7 1#1])
    (fun _ => 0) (fun x v => fmt32.cmp (gstDn x.g.gst) 2 (v0 v).toNat (v1 v).toNat)
    (at1 (.vcmpF32 ⟨2#3, 0#3, 2#7, 9#7, 0#1, 1#1, 5#3⟩)) :=
  tripleMeets (by unfold Passes; decide +kernel) (by decide +kernel)
theorem wit_vdropm : TripleMeets (.vdropm ⟨2#6, 9#7, 15#7, 5#3⟩) (fun x => [.vec (x.a 9#7), .sc (x.b 15#7)])
    (fun x => (2#6).toNat + x.gl.off .d x.rep)
    (fun x v => (((dropHash (v0 v) x.g.key) >>> 16).ult ((v1 v) &&& 0xFFFF#32), 0))
    (at1 (.vdropm ⟨2#6, 9#7, 15#7, 5#3⟩)) :=
  tripleMeets (by unfold Passes; decide +kernel) (by decide +kernel)

-- a compare into triple 0 narrows the mask (R80): v5 > s16 in lanes 3 and above
theorem test_vcmp_i32 : goes (.vcmpI32 ⟨4#3, 0#3, 5#7, 16#7, 0#1, 1#1, 4#3⟩)
    (atG (.vcmpI32 ⟨4#3, 0#3, 5#7, 16#7, 0#1, 1#1, 4#3⟩) fun g =>
      sets [(0, 0x0000FFFF#32), (16, 2#32)] (setv 5 (fun l => BitVec.ofNat 32 l) g))
    (fun t => wAt (t.grp 1).sr 0 = 0x0000FFF8#32 && wAt (t.grp 1).sr 1 = 0#32) = true := by decide +kernel
-- an ordered relation with a quiet NaN is false and raises a flag (R81)
theorem test_vcmp_f32 : goes (.vcmpF32 ⟨2#3, 1#3, 2#7, 9#7, 0#1, 1#1, 5#3⟩)
    (atG (.vcmpF32 ⟨2#3, 1#3, 2#7, 9#7, 0#1, 1#1, 5#3⟩) fun g =>
      sets [(9, 0x40000000#32)] (setv 2 (fun l => if l = 0 then 0x7FC00000#32 else 0x3F800000#32) g))
    (fun t => wAt (t.grp 1).sr 3 = 0xFFFFFFFE#32 && (t.grp 1).flagPend.length = 1) = true := by decide +kernel

/-! ## Float forms (O4, O5, O6) -/

/-- The hypotheses of a float rule. -/
def FloatMeets (i : Instr) (stoch : IX → Bool) (srcs : IX → List Src) (d : IX → Nat)
    (f : IX → Word → Nat → List Word → Word × Nat) (s : State) : Prop :=
  let x := s.ix true
  Passes none true i s ∧ ∃ q, gather x s.issuing false (srcs x) [d x] [] = .ok q ∧ Roomy q.s x.g.core ∧
    fpxOf (gstEn x.g.gst) (q.rows.map fun r => (r.b, beatFlags (fun (r : Row) (l : Nat) =>
      f x ((drawsOf (stoch x) q (q.s.core x.g.core).rnd).1.getD (q.rows.findIdx fun p => p.b = r.b) 0#32) l
        (r.args (srcs x).length l)) r)) = none

theorem floatMeets {i : Instr} {stoch : IX → Bool} {srcs : IX → List Src} {d : IX → Nat}
    {f : IX → Word → Nat → List Word → Word × Nat} {s : State} (h : Passes none true i s)
    (k : okOf (gather (s.ix true) s.issuing false (srcs (s.ix true)) [d (s.ix true)] [])
      (fun q => roomy (s.ix true).g.core q && (fpxOf (gstEn (s.ix true).g.gst) (q.rows.map fun r =>
        (r.b, beatFlags (fun (r : Row) (l : Nat) =>
          f (s.ix true) ((drawsOf (stoch (s.ix true)) q (q.s.core (s.ix true).g.core).rnd).1.getD
            (q.rows.findIdx fun p => p.b = r.b) 0#32) l (r.args (srcs (s.ix true)).length l)) r))).isNone) = true) :
    FloatMeets i stoch srcs d f s := by
  obtain ⟨q, hq, hp⟩ := exists_ok k
  rw [Bool.and_eq_true, roomy, Bool.and_eq_true, decide_eq_true_eq, Option.isNone_iff_eq_none] at hp
  exact ⟨h, q, hq, hp.1, hp.2⟩

theorem wit_vadd_f32 : FloatMeets (.vaddF32 ⟨16#6, 8#7, 20#7, 0#1, 1#1, 5#3⟩) (fun _ => false)
    (fun x => [x.srcA 8#7 0#1, x.srcB 20#7 1#1]) (fun x => x.d 16#6)
    (fun x _ _ v => asW (fmt32.add (x.env x.rm false) (v0 v).toNat (v1 v).toNat))
    (atG (.vaddF32 ⟨16#6, 8#7, 20#7, 0#1, 1#1, 5#3⟩) (glossed [.gmod ⟨1#1, 1#2, 0#1, 0#3, 0#1, 0#3, 0#1⟩])) :=
  floatMeets (by unfold Passes; decide +kernel) (by decide +kernel)
theorem wit_vfma_f32 : FloatMeets (.vfmaF32 ⟨4#6, 2#7, 3#7, 0#1, 0#1, 5#3⟩) (fun _ => false)
    (fun x => [x.srcA 2#7 0#1, x.srcB 3#7 0#1, (x.addend 4#6).1]) (fun x => x.d 4#6)
    (fun x _ _ v => asW (fmt32.fma (x.env x.rm false) (v0 v).toNat (v1 v).toNat (v2 v).toNat))
    (at1 (.vfmaF32 ⟨4#6, 2#7, 3#7, 0#1, 0#1, 5#3⟩)) :=
  floatMeets (by unfold Passes; decide +kernel) (by decide +kernel)
theorem wit_vcopysign : VectorMeets (.vcopysignF32 ⟨4#6, 2#7, 3#7, 0#1, 0#1, 5#3⟩) false
    (fun x => [x.srcA 2#7 0#1, x.srcB 3#7 0#1]) (fun x => x.d 4#6)
    (at1 (.vcopysignF32 ⟨4#6, 2#7, 3#7, 0#1, 0#1, 5#3⟩)) :=
  vectorMeets (by unfold Passes; decide +kernel) (by decide +kernel)
-- stochastic: gst.sr holds
theorem wit_vadd_f16x2 : FloatMeets (.vaddF16x2 ⟨4#6, 2#7, 3#7, 0#1, 0#1, 5#3⟩) IX.stoch
    (fun x => [x.srcA 2#7 0#1, x.srcB 3#7 0#1]) (fun x => x.d 4#6)
    (fun x r l v => packed x 13 r l fun e lo => fmt16.add e (bits (v0 v).toNat lo 16) (bits (v1 v).toNat lo 16))
    (atG (.vaddF16x2 ⟨4#6, 2#7, 3#7, 0#1, 0#1, 5#3⟩) fun g => { g with gst := g.gst ||| 0x01000000#32 }) :=
  floatMeets (by unfold Passes; decide +kernel) (by decide +kernel)
theorem wit_vfma_f16x2 : FloatMeets (.vfmaF16x2 ⟨4#6, 2#7, 3#7, 0#1, 0#1, 5#3⟩) IX.stoch
    (fun x => [x.srcA 2#7 0#1, x.srcB 3#7 0#1, (x.addend 4#6).1]) (fun x => x.d 4#6)
    (fun x r l v => packed x 13 r l fun e lo =>
      fmt16.fma e (bits (v0 v).toNat lo 16) (bits (v1 v).toNat lo 16) (bits (v2 v).toNat lo 16))
    (at1 (.vfmaF16x2 ⟨4#6, 2#7, 3#7, 0#1, 0#1, 5#3⟩)) :=
  floatMeets (by unfold Passes; decide +kernel) (by decide +kernel)
theorem wit_vmin_f16x2 : FloatMeets (.vminF16x2 ⟨4#6, 2#7, 3#7, 0#1, 0#1, 5#3⟩) (fun _ => false)
    (fun x => [x.srcA 2#7 0#1, x.srcB 3#7 0#1]) (fun x => x.d 4#6)
    (fun x _ _ v =>
      let h := fun lo => fmt16.minmax false (gstDn x.g.gst) (bits (v0 v).toNat lo 16) (bits (v1 v).toNat lo 16)
      (toW ((h 0).1 + (h 16).1 * 65536), fOr (h 0).2 (h 16).2))
    (at1 (.vminF16x2 ⟨4#6, 2#7, 3#7, 0#1, 0#1, 5#3⟩)) :=
  floatMeets (by unfold Passes; decide +kernel) (by decide +kernel)
theorem wit_vcvt_i32 : FloatMeets (.vcvtI32F32 ⟨4#6, 2#7, 1#2, 0#1, 5#3⟩) (fun _ => false)
    (fun x => [x.srcA 2#7 0#1]) (fun x => x.d 4#6)
    (fun x _ _ v => toInt32 (x.env (RM.ofCode 1) x.sat) (-2147483648) 2147483647 (v0 v).toNat)
    (at1 (.vcvtI32F32 ⟨4#6, 2#7, 1#2, 0#1, 5#3⟩)) :=
  floatMeets (by unfold Passes; decide +kernel) (by decide +kernel)
theorem wit_vcvt_f32 : FloatMeets (.vcvtF32I32 ⟨4#6, 2#7, 0#1, 5#3⟩) (fun _ => false)
    (fun x => [x.srcA 2#7 0#1]) (fun x => x.d 4#6) (fun x _ _ v => asW (ofInt32 (x.env x.rm false) (v0 v).toInt))
    (at1 (.vcvtF32I32 ⟨4#6, 2#7, 0#1, 5#3⟩)) :=
  floatMeets (by unfold Passes; decide +kernel) (by decide +kernel)
theorem wit_vcvt_f16 : FloatMeets (.vcvtF16F32 ⟨4#6, 2#7, 0#1, 5#3⟩) IX.stoch
    (fun x => [x.srcA 2#7 0#1]) (fun x => x.d 4#6)
    (fun x r l v => asW (fmt16.narrow (x.env (x.srMode (r.rotateLeft l) 13) x.sat) (v0 v).toNat))
    (at1 (.vcvtF16F32 ⟨4#6, 2#7, 0#1, 5#3⟩)) :=
  floatMeets (by unfold Passes; decide +kernel) (by decide +kernel)
theorem wit_vcvt_e4m3 : FloatMeets (.vcvtE4m3F32 ⟨6#6, 1#7, 1#1, 3#2, 0#1, 5#3⟩) (fun _ => true)
    (fun x => [x.srcA 1#7 0#1, .vec (x.d 6#6)]) (fun x => x.d 6#6)
    (fun x r l v =>
      let c := fmtE4.narrow (x.env (.sr (r.rotateLeft l).toNat 20) x.sat) (v0 v).toNat
      (insBits (v1 v).toNat 24 8 c.1, c.2))
    (at1 (.vcvtE4m3F32 ⟨6#6, 1#7, 1#1, 3#2, 0#1, 5#3⟩)) :=
  floatMeets (by unfold Passes; decide +kernel) (by decide +kernel)
theorem wit_vcvt_e2m1 : FloatMeets (.vcvtE2m1F32 ⟨6#6, 1#7, 0#1, 7#3, 0#1, 5#3⟩) (fun _ => false)
    (fun x => [x.srcA 1#7 0#1, .vec (x.d 6#6)]) (fun x => x.d 6#6)
    (fun x _ _ v =>
      let c := fmtE2.narrow (x.env (x.mode 0) x.sat) (v0 v).toNat
      (insBits (v1 v).toNat 28 4 c.1, c.2))
    (at1 (.vcvtE2m1F32 ⟨6#6, 1#7, 0#1, 7#3, 0#1, 5#3⟩)) :=
  floatMeets (by unfold Passes; decide +kernel) (by decide +kernel)
theorem wit_vcvt_f32_e4m3 : FloatMeets (.vcvtF32E4m3 ⟨6#6, 1#7, 3#2, 0#1, 5#3⟩) (fun _ => false)
    (fun x => [x.srcA 1#7 0#1]) (fun x => x.d 6#6) (fun _ _ _ v => asW (fmtE4.widen false (bits (v0 v).toNat 24 8)))
    (at1 (.vcvtF32E4m3 ⟨6#6, 1#7, 3#2, 0#1, 5#3⟩)) :=
  floatMeets (by unfold Passes; decide +kernel) (by decide +kernel)
theorem wit_vcvt_f32_e2m1 : FloatMeets (.vcvtF32E2m1 ⟨6#6, 1#7, 7#3, 0#1, 5#3⟩) (fun _ => false)
    (fun x => [x.srcA 1#7 0#1]) (fun x => x.d 6#6) (fun _ _ _ v => asW (fmtE2.widen false (bits (v0 v).toNat 28 4)))
    (at1 (.vcvtF32E2m1 ⟨6#6, 1#7, 7#3, 0#1, 5#3⟩)) :=
  floatMeets (by unfold Passes; decide +kernel) (by decide +kernel)
-- a block with a value that is not zero: the hypotheses of a quantisation
theorem wit_vquant : let i : Instr := .vquantE4m3 ⟨6#6, 1#7, 0#1, 0#1, 5#3⟩
    let s := atG i (setv 1 fun l => if l = 0 then 0x3F800000#32 else 0#32)
    VectorMeets i false (fun x => [x.srcA 1#7 0#1]) (fun x => x.d 6#6) s ∧ gstEn (s.ix true).g.gst = 0 :=
  ⟨vectorMeets (by unfold Passes; decide +kernel) (by decide +kernel), by decide +kernel⟩
theorem wit_vsfu : FloatMeets (.vsfuRcp ⟨7#6, 6#7, 0#1, 0#3⟩) (fun _ => false)
    (fun x => [x.srcA 6#7 0#1]) (fun x => x.d 7#6) (fun x _ _ v => asW (sfuRcp (gstDn x.g.gst) (v0 v).toNat))
    (atG (.vsfuRcp ⟨7#6, 6#7, 0#1, 0#3⟩) (glossed [.gstall ⟨10#8⟩])) :=
  floatMeets (by unfold Passes; decide +kernel) (by decide +kernel)
theorem wit_vdot_float : VectorMeets (.vdot4E4m3 ⟨5#6, 6#7, 7#7, 0#1, 0#1, 6#3⟩) false
    (fun x => [x.srcA 6#7 0#1, x.srcB 7#7 0#1, (x.addend 5#6).1] ++ (match x.gl.scale with
      | some g => [.vec g.a.toNat, .vec g.b.toNat]
      | none => [])) (fun x => x.d 5#6)
    (atG (.vdot4E4m3 ⟨5#6, 6#7, 7#7, 0#1, 0#1, 6#3⟩) (glossed [.gscale ⟨12#6, 1#2, 13#6, 0#2⟩])) :=
  vectorMeets (by unfold Passes; decide +kernel) (by decide +kernel)

-- 1.0 + 2.0 = 3.0, no flag
theorem test_vadd_f32 : goes (.vaddF32 ⟨1#6, 2#7, 3#7, 0#1, 0#1, 5#3⟩)
    (atG (.vaddF32 ⟨1#6, 2#7, 3#7, 0#1, 0#1, 5#3⟩) fun g => setv 2 (fun _ => 0x3F800000#32) (setv 3 (fun _ => 0x40000000#32) g))
    (fun t => lane t 1 0 = 0x40400000#32 && (t.grp 1).flagPend.isEmpty) = true := by decide +kernel
-- the largest finite number doubled overflows to infinity
theorem test_vadd_f32_overflow : goes (.vaddF32 ⟨1#6, 2#7, 3#7, 0#1, 0#1, 5#3⟩)
    (atG (.vaddF32 ⟨1#6, 2#7, 3#7, 0#1, 0#1, 5#3⟩) fun g => setv 2 (fun _ => 0x7F7FFFFF#32) (setv 3 (fun _ => 0x7F7FFFFF#32) g))
    (fun t => lane t 1 0 = 0x7F800000#32) = true := by decide +kernel
-- one rounding: (1 + 2^-12)^2 - 1 = 2^-11 + 2^-24, of which a product rounded first would lose the last term
theorem test_vfma_f32 : goes (.vfmaF32 ⟨1#6, 2#7, 3#7, 0#1, 0#1, 5#3⟩)
    (atG (.vfmaF32 ⟨1#6, 2#7, 3#7, 0#1, 0#1, 5#3⟩) fun g =>
      setv 1 (fun _ => 0xBF800000#32) (setv 2 (fun _ => 0x3F800800#32) (setv 3 (fun _ => 0x3F800800#32) g)))
    (fun t => lane t 1 0 = 0x3A000400#32) = true := by decide +kernel
-- 1.5 and 2.5 round to the even integer 2
theorem test_vcvt_i32 : goes (.vcvtI32F32 ⟨1#6, 2#7, 0#2, 0#1, 5#3⟩)
    (atG (.vcvtI32F32 ⟨1#6, 2#7, 0#2, 0#1, 5#3⟩) (setv 2 fun l => if l = 0 then 0x3FC00000#32 else 0x40200000#32))
    (fun t => lane t 1 0 = 2#32 && lane t 1 1 = 2#32) = true := by decide +kernel
-- 448 is the largest e4m3 number, 0x7E
theorem test_vcvt_f32_e4m3 : goes (.vcvtF32E4m3 ⟨1#6, 2#7, 1#2, 0#1, 5#3⟩)
    (atG (.vcvtF32E4m3 ⟨1#6, 2#7, 1#2, 0#1, 5#3⟩) (setv 2 fun _ => 0x00007E00#32))
    (fun t => lane t 1 0 = 0x43E00000#32) = true := by decide +kernel
-- the square root of 4.0 and the reciprocal of 0.0
theorem test_vsfu_sqrt : goes (.vsfuSqrt ⟨1#6, 2#7, 0#1, 0#3⟩) (atG (.vsfuSqrt ⟨1#6, 2#7, 0#1, 0#3⟩) (setv 2 fun _ => 0x40800000#32))
    (fun t => lane t 1 0 = 0x40000000#32) = true := by decide +kernel
theorem test_vsfu_rcp : goes (.vsfuRcp ⟨1#6, 2#7, 0#1, 0#3⟩) (atG (.vsfuRcp ⟨1#6, 2#7, 0#1, 0#3⟩) (setv 2 fun _ => 0#32))
    (fun t => lane t 1 0 = 0x7F800000#32 && (t.grp 1).flagPend.length = 1) = true := by decide +kernel
-- four products 1.0 * 1.0 of e4m3 (0x38) and an addend of 1.0
theorem test_vdot4_e4m3 : goes (.vdot4E4m3 ⟨1#6, 2#7, 3#7, 0#1, 0#1, 6#3⟩)
    (atG (.vdot4E4m3 ⟨1#6, 2#7, 3#7, 0#1, 0#1, 6#3⟩) fun g =>
      setv 1 (fun _ => 0x3F800000#32) (setv 2 (fun _ => 0x38383838#32) (setv 3 (fun _ => 0x38383838#32) g)))
    (fun t => lane t 1 0 = 0x40A00000#32) = true := by decide +kernel
-- a block of zeros (R125)
theorem test_vquant_zero : goes (.vquantE4m3 ⟨1#6, 2#7, 0#1, 0#1, 5#3⟩) (at1 (.vquantE4m3 ⟨1#6, 2#7, 0#1, 0#1, 5#3⟩))
    (fun t => lane t 1 0 = 0x00007F00#32) = true := by decide +kernel

/-! ## Lane exchange (O7, O8) -/

theorem wit_vshfl : VectorMeets (.vshfl ⟨8#6, 4#7, 5#7, 0#1, 0#1, 6#3⟩) true (fun x => [x.srcA 4#7 0#1, x.srcB 5#7 0#1])
    (fun x => x.d 8#6) (at1 (.vshfl ⟨8#6, 4#7, 5#7, 0#1, 0#1, 6#3⟩)) :=
  vectorMeets (by unfold Passes; decide +kernel) (by decide +kernel)
theorem wit_vscan : VectorMeets (.vscanAddI32 ⟨8#6, 4#7, 1#1, 0#1, 6#3⟩) true (fun x => [x.srcA 4#7 0#1])
    (fun x => x.d 8#6) (at1 (.vscanAddI32 ⟨8#6, 4#7, 1#1, 0#1, 6#3⟩)) :=
  vectorMeets (by unfold Passes; decide +kernel) (by decide +kernel)
/-- The further hypothesis of the float scans and reductions holds wherever no float exception is enabled. -/
theorem wit_fpx (l : List (Nat × Nat)) : fpxOf 0 l = none := by simp [fpxOf]
theorem wit_vred : let i : Instr := .vredAddF32 ⟨47#6, 0x47#7, 6#3⟩
    Passes none true i (at1 i) ∧ gstEn ((at1 i).ix true).g.gst = 0 ∧
      ∃ q, gather ((at1 i).ix true) (at1 i).issuing true [.vec (((at1 i).ix true).a 0x47#7)] [] [(((at1 i).ix true).d 47#6, none)] = .ok q :=
  ⟨by unfold Passes; decide +kernel, by decide +kernel, (exists_ok (p := fun _ => true) (by decide +kernel)).imp fun _ h => h.1⟩
theorem wit_vvote : let i : Instr := .vvoteBallot ⟨6#6, 4#7, 6#3⟩
    Passes none true i (at1 i) ∧
      ∃ q, gather ((at1 i).ix true) (at1 i).issuing true [.vec (((at1 i).ix true).a 4#7)] []
        ((if ((at1 i).ix true).d 6#6 = 56 then [56] else (List.range ((at1 i).ix true).g.beats).map fun j => ((at1 i).ix true).d 6#6 + j).map (·, none)) =
          .ok q :=
  ⟨by unfold Passes; decide +kernel, (exists_ok (p := fun _ => true) (by decide +kernel)).imp fun _ h => h.1⟩

-- an index at or above the width keeps the lane's own value; an inactive lane may be read (R87)
theorem test_vshfl : goes (.vshfl ⟨8#6, 4#7, 5#7, 0#1, 0#1, 6#3⟩)
    (atG (.vshfl ⟨8#6, 4#7, 5#7, 0#1, 0#1, 6#3⟩) fun g =>
      sets [(0, 3#32)] (setv 4 (fun l => BitVec.ofNat 32 (100 + l)) (setv 5 (fun l => if l = 0 then 31#32 else 32#32) g)))
    (fun t => lane t 8 0 = 131#32 && lane t 8 1 = 101#32 && lane t 8 2 = 0#32) = true := by decide +kernel
-- exclusive: the lowest active lane takes the identity, inactive lanes take no part (R88)
theorem test_vscan : goes (.vscanAddI32 ⟨8#6, 4#7, 1#1, 0#1, 6#3⟩)
    (atG (.vscanAddI32 ⟨8#6, 4#7, 1#1, 0#1, 6#3⟩) fun g => sets [(0, 0xFFFFFFFD#32)] (setv 4 (fun l => BitVec.ofNat 32 (l + 1)) g))
    (fun t => lane t 8 0 = 0#32 && lane t 8 1 = 0#32 && lane t 8 2 = 1#32 && lane t 8 3 = 4#32) = true := by decide +kernel
theorem test_vred : goes (.vredAddI32 ⟨12#6, 4#7, 6#3⟩) (atG (.vredAddI32 ⟨12#6, 4#7, 6#3⟩) (setv 4 fun l => BitVec.ofNat 32 l))
    (fun t => wAt (t.grp 1).sr 12 = 496#32) = true := by decide +kernel
theorem test_vvote_first : goes (.vvoteFirst ⟨12#6, 4#7, 6#3⟩)
    (atG (.vvoteFirst ⟨12#6, 4#7, 6#3⟩) (setv 4 fun l => if l < 5 then 0#32 else 1#32))
    (fun t => wAt (t.grp 1).sr 12 = 5#32) = true := by decide +kernel

/-! ## Ports (O9) -/

/-- A chain of two stages whose first writes port 0 of the second. -/
def chained (folded : Bool) (s : State) : State :=
  s.modUnit 1 fun x => { x with chain := some ⟨folded, 0, false, 0, 0, [⟨0, 0, 0, 1, 0, [], 0, 0#32, 0#32, 0, 0, [], false⟩]⟩ }

theorem wit_push_zr : let i : Instr := .vmovPortPush ⟨56#6, 7#7, 0#1, 0#3⟩
    Passes none true i (at1 i) ∧ ∃ q, gather ((at1 i).ix true) (at1 i).issuing false [((at1 i).ix true).srcA 7#7 0#1] [] [] = .ok q :=
  ⟨by unfold Passes; decide +kernel, (exists_ok (p := fun _ => true) (by decide +kernel)).imp fun _ h => h.1⟩
/-- A push with an issued beat to a port with room, in a spread and in a folded chain. -/
theorem wit_push (f : Bool) : let i : Instr := .vmovPortPush ⟨48#6, 7#7, 0#1, 0#3⟩
    let s := chained f (at1 i)
    let x := s.ix true
    Passes none true i s ∧ ∃ q, gather x s.issuing false [x.srcA 7#7 0#1] [] [] = .ok q ∧ q.rows ≠ [] ∧
      ∃ r, q.s.linkOf x.g 0 false = some r ∧ portTrap q.s x.g 0 false = none ∧ r.2.items.length < 1 := by
  refine ⟨by cases f <;> (unfold Passes; decide +kernel), ?_⟩
  obtain ⟨q, hq, hp⟩ := exists_ok (p := fun q : Gath => q.rows != [] &&
      ((q.s.linkOf ((chained f (at1 (.vmovPortPush ⟨48#6, 7#7, 0#1, 0#3⟩))).ix true).g 0 false).any fun (r : Nat × Link) =>
        decide (portTrap q.s ((chained f (at1 (.vmovPortPush ⟨48#6, 7#7, 0#1, 0#3⟩))).ix true).g 0 false = none ∧
          r.2.items.length < 1))) (show okOf (gather ((chained f (at1 (.vmovPortPush ⟨48#6, 7#7, 0#1, 0#3⟩))).ix true)
        (chained f (at1 (.vmovPortPush ⟨48#6, 7#7, 0#1, 0#3⟩))).issuing false
        [((chained f (at1 (.vmovPortPush ⟨48#6, 7#7, 0#1, 0#3⟩))).ix true).srcA 7#7 0#1] [] []) _ = true by
      cases f <;> decide +kernel)
  rw [Bool.and_eq_true, bne_iff_ne, Option.any_eq_true] at hp
  obtain ⟨hn, r, hr, hd⟩ := hp
  exact ⟨q, hq, hn, r, hr, of_decide_eq_true hd⟩

/-! ## One-cycle words (O10, O11) -/

/-- The hypotheses of the rule of a one-cycle word. -/
def PlainMeets (i : Instr) (reads writes : IX → List Nat) (cond : IX → State → Prop) (s : State) : Prop :=
  let x := s.ix false
  Passes none false i s ∧ x.g.scoreboard (scalarUses x (reads x) []) = none ∧ x.g.scoreboard (scalarUses x [] (writes x)) = none ∧
    cond x s.issuing

theorem wit_br : PlainMeets (.br ⟨2#22, 0#3⟩) (fun _ => []) (fun _ => [])
    (fun x s => checkTarget x s (target x.g.pc (2#22).toInt) = none) (at1 (.br ⟨2#22, 0#3⟩)) := by
  unfold PlainMeets Passes; decide +kernel
theorem wit_brz_taken : PlainMeets (.brz ⟨16#6, 10#16, 0#3⟩) (fun _ => [16]) (fun _ => [])
    (fun x s => (scalarVal s x.g 16 x.t == 0#32) = true ∧ checkTarget x s (target x.g.pc (10#16).toInt) = none)
    (at1 (.brz ⟨16#6, 10#16, 0#3⟩)) := by unfold PlainMeets Passes; decide +kernel
theorem wit_brz_not : PlainMeets (.brz ⟨16#6, 10#16, 0#3⟩) (fun _ => [16]) (fun _ => [])
    (fun x s => (scalarVal s x.g 16 x.t == 0#32) ≠ true) (atG (.brz ⟨16#6, 10#16, 0#3⟩) (sets [(16, 1#32)])) := by
  unfold PlainMeets Passes; decide +kernel
theorem wit_call : PlainMeets (.call ⟨47#6, 10#16, 0#3⟩) (fun _ => []) (fun _ => [47])
    (fun x s => checkTarget x s (target x.g.pc (10#16).toInt) = none) (at1 (.call ⟨47#6, 10#16, 0#3⟩)) := by
  unfold PlainMeets Passes; decide +kernel
theorem wit_jr : PlainMeets (.jr ⟨4#6, 0#3⟩) (fun _ => [4]) (fun _ => [])
    (fun x s => 0x10000040 = x.g.pc / 4294967296 * 4294967296 + (scalarVal s x.g 4 x.t).toNat ∧ checkTarget x s 0x10000040 = none)
    (atG (.jr ⟨4#6, 0#3⟩) (sets [(4, 0x10000040#32)])) := by unfold PlainMeets Passes; decide +kernel
-- fifteen entries held: the mark takes the last place
theorem wit_mark : PlainMeets (.mark ⟨4#22, 0#3⟩) (fun x => List.range x.g.beats) (fun _ => []) (fun x _ => x.g.stk.length < 16)
    (atG (.mark ⟨4#22, 0#3⟩) fun g => { g with stk := List.replicate 15 ⟨0x10000000#32, 0#32, 0#32, 0#32⟩ }) := by
  unfold PlainMeets Passes; decide +kernel
/-- The three cases of brd: no lane of the triple, every lane, some lanes. -/
theorem wit_brd : let i : Instr := .brd ⟨1#3, 4#19, 0#3⟩
    let reads := fun (x : IX) => ((List.range x.g.beats).map fun b => 3 + b) ++ List.range x.g.beats
    let T := fun (x : IX) (s : State) => (List.range x.g.beats).map fun b => scalarVal s x.g (3 + b) x.t &&& scalarVal s x.g b x.t
    let N := fun (x : IX) (s : State) => (List.range x.g.beats).map fun b => scalarVal s x.g b x.t &&& ~~~(scalarVal s x.g (3 + b) x.t)
    let ok := fun (x : IX) (s : State) => checkTarget x s (target x.g.pc (4#19).toInt) = none
    PlainMeets i reads (fun _ => []) (fun x s => (T x s).all (· = 0#32) = true) (at1 i) ∧
    PlainMeets i reads (fun _ => []) (fun x s => (T x s).all (· = 0#32) = false ∧ (N x s).all (· = 0#32) = true ∧ ok x s)
      (atG i (sets [(3, 0xFFFFFFFF#32)])) ∧
    PlainMeets i reads (fun _ => [])
      (fun x s => (T x s).all (· = 0#32) = false ∧ (N x s).all (· = 0#32) = false ∧ ok x s ∧ x.g.stk.length < 16)
      (atG i (sets [(3, 1#32)])) := by unfold PlainMeets Passes; decide +kernel
/-- A full stack with room in the mapped spill area (R66): mark and a partial brd spill its oldest entry. -/
theorem wit_div_spill : let old : DivEntry := ⟨0x10000000#32, 0#32, 0#32, 0#32⟩
    let full := fun (i : Instr) => paged (atG i fun g => sets [(3, 1#32)] { g with stk := List.replicate 16 old })
    let m : Instr := .mark ⟨4#22, 0#3⟩
    let b : Instr := .brd ⟨1#3, 4#19, 0#3⟩
    let put := fun (x : IX) (u : State) => x.g.stk.length = 16 ∧ x.g.stk.getLast? = some old ∧ x.g.stkSp < x.g.dspill ∧
      (u.privPut x.gid (x.g.plim + 64 + x.g.stkSp) 0 (old.words.flatMap fun w => leBytes 4 w.toNat)).2 = true
    (let s := full m
     let x := s.ix false
     Passes none false m s ∧ x.g.scoreboard (scalarUses x (List.range x.g.beats) []) = none ∧ put x s.issuing) ∧
    (let s := full b
     let x := s.ix false
     let dest := target x.g.pc (4#19).toInt
     Passes none false b s ∧ x.g.scoreboard (scalarUses x (((List.range x.g.beats).map fun b => 3 + b) ++ List.range x.g.beats) []) = none ∧
       checkTarget x s.issuing dest = none ∧ put x (targetRead x s.issuing dest)) := by unfold Passes; decide +kernel
/-- A join has left a spilled entry behind: the group refills it. -/
theorem wit_stack_refill : let s := paged ((at1 (.nop ⟨0#3⟩)).modGrp 1 fun g => { g with st := .refilling, stkSp := 1 })
    (s.groups.find? 1).isSome = true ∧ (s.grp 1).st = .refilling ∧ (s.grp 1).refill = [] ∧ (s.grp 1).stkSp ≠ 0 ∧ (s.grp 1).stk.length < 16 ∧
      (s.unit (s.grp 1).unit).chain = none ∧ (s.privGet 1 ((s.grp 1).plim + 64 + 0) 0 16).2.isSome = true := by decide +kernel
/-- The two kinds of entry a join pops: a rejoin and a pending path. -/
theorem wit_join (k : Bool) : let i : Instr := .join ⟨0#3⟩
    let e : DivEntry := ⟨if k then 0x10000041#32 else 0x10000040#32, 7#32, 0#32, 0#32⟩
    PlainMeets i (fun _ => []) (fun _ => [])
      (fun x s => x.g.stk = e :: [] ∧ e.kind < 2 ∧ x.g.stkSp = 0 ∧ checkTarget x s (e.pc x.g.pc) = none)
      (atG i fun g => { g with stk := [e] }) := by cases k <;> (unfold PlainMeets Passes; decide +kernel)

-- the target is the address of the following word plus 4 times the offset (R20)
theorem test_br : goes (.br ⟨2#22, 0#3⟩) (at1 (.br ⟨2#22, 0#3⟩)) (fun t => (t.grp 1).pc = 0x1000000C) = true := by decide +kernel
theorem test_br_back : goes (.br ⟨0x3FFFFF#22, 0#3⟩) (at1 (.br ⟨0x3FFFFF#22, 0#3⟩)) (fun t => (t.grp 1).pc = 0x10000000) = true := by
  decide +kernel
theorem test_call : goes (.call ⟨5#6, 10#16, 0#3⟩) (at1 (.call ⟨5#6, 10#16, 0#3⟩))
    (fun t => (t.grp 1).pc = 0x1000002C && wAt (t.grp 1).sr 5 = 0x10000004#32) = true := by decide +kernel
-- a partial split: the lanes of the triple run first, the others wait at the next word (R95)
theorem test_brd : goes (.brd ⟨1#3, 4#19, 0#3⟩) (atG (.brd ⟨1#3, 4#19, 0#3⟩) (sets [(0, 0xFF#32), (3, 0xF0F#32)]))
    (fun t => (t.grp 1).pc = 0x10000014 && wAt (t.grp 1).sr 0 = 0xF#32 &&
      (t.grp 1).stk == [⟨0x10000005#32, 0xF0#32, 0#32, 0#32⟩]) = true := by decide +kernel
theorem test_join : goes (.join ⟨0#3⟩) (atG (.join ⟨0#3⟩) fun g => { g with stk := [⟨0x10000041#32, 0xF0#32, 0#32, 0#32⟩] })
    (fun t => (t.grp 1).pc = 0x10000040 && wAt (t.grp 1).sr 0 = 0xF0#32 && (t.grp 1).stk.isEmpty) = true := by decide +kernel

-- a gloss issues whatever the state is, and joins the chain (R26)
theorem test_gimm : goes (.gimm ⟨5#23⟩) (at1 (.gimm ⟨5#23⟩))
    (fun t => (t.grp 1).chain.length = 1 && (t.grp 1).pc = 0x10000004 && (t.core 0).cycle = 1) = true := by decide +kernel
theorem wit_nop : PlainMeets (.nop ⟨0#3⟩) (fun _ => []) (fun _ => []) (fun _ _ => True) (at1 (.nop ⟨0#3⟩)) := by
  unfold PlainMeets Passes; decide +kernel
theorem wit_getst : PlainMeets (.sysGetst ⟨47#6, 0#3⟩) (fun _ => []) (fun _ => [47]) (fun _ _ => True) (at1 (.sysGetst ⟨47#6, 0#3⟩)) := by
  unfold PlainMeets Passes; decide +kernel
/-- A status word whose reserved bits are 0: every settable bit, and the flags to clear. -/
theorem wit_setst : PlainMeets (.sysSetst ⟨8#7, 0#3⟩) (fun x => [x.a 8#7]) (fun _ => [])
    (fun x s => scalarVal s x.g (x.a 8#7) x.t &&& 0x0001E0E0#32 = 0#32)
    (atG (.sysSetst ⟨8#7, 0#3⟩) (sets [(8, 0xFFFE1F1F#32)])) := by unfold PlainMeets Passes; decide +kernel
theorem wit_rseed : PlainMeets (.sysRseed ⟨9#7, 0#3⟩) (fun x => [x.a 9#7]) (fun _ => []) (fun _ _ => True)
    (at1 (.sysRseed ⟨9#7, 0#3⟩)) := by unfold PlainMeets Passes; decide +kernel
theorem wit_dcommit : PlainMeets (.sysDcommit ⟨0#3⟩) (fun _ => []) (fun _ => []) (fun x _ => x.g.draft = none)
    (at1 (.sysDcommit ⟨0#3⟩)) := by unfold PlainMeets Passes; decide +kernel
/-- A draft of die 0, entry 3, with one draft copy of line 0x80000. -/
def drafting (s : State) : State :=
  let s := s.modGrp 1 fun g => { g with draft := some (0, 3), gst := g.gst ||| 0x20000000#32 }
  { (s.setDraft (0, 3) .opened) with drafts := [⟨0, 3, 0x80000, List.replicate 128 5#8, 0#128, [(0, 0x4000000)]⟩] }
theorem wit_dcommit_draft : let i : Instr := .sysDcommit ⟨0#3⟩
    let s := drafting (at1 i)
    Passes none false i s ∧ (s.ix false).g.draft = some (0, 3) ∧ s.issuing.copying (s.ix false).gid = false ∧
      (s.ix false).g.ops = [] := by unfold Passes; decide +kernel
-- the draft copies become the committed lines (R287)
theorem test_dcommit : goes (.sysDcommit ⟨0#3⟩) (drafting (at1 (.sysDcommit ⟨0#3⟩)))
    (fun t => t.mem.read 0x400007F = 5#8 && t.drafts.isEmpty && (t.grp 1).draft.isNone) = true := by decide +kernel

/-! ## Exceptions, returns, ends (O12-O15) -/

/-- Group gid of a host's work that no partition runs, in no draft, its unit saved where a save is due (tests only). -/
def Plain (s : State) (gid : Nat) : Prop :=
  (s.unit (s.grp gid).unit).unsaved = false ∧ (s.groups.find? gid).isSome = true ∧ (s.units.find? (s.grp gid).unit).isSome = true ∧ (s.grp gid).draft = none ∧
    (s.workOf (s.grp gid)).src = .host ∧ s.ctxPart (s.keyOf (s.grp gid) / 65536) (s.keyOf (s.grp gid) % 65536) = none

theorem Plain.src {s : State} {gid : Nat} (h : Plain s gid) (c : Nat) : (s.workOf (s.grp gid)).src ≠ .handler c := by
  rw [h.2.2.2.2.1]
  exact nofun

theorem Plain.saving {s : State} {gid : Nat} (h : Plain s gid) : s.saving (s.keyOf (s.grp gid)) = false := by
  unfold State.saving
  rw [show s.ctxPart (s.keyOf (s.grp gid) / 65536) (s.keyOf (s.grp gid) % 65536) = none from h.2.2.2.2.2]

theorem Plain.stuck {s : State} {gid : Nat} (h : Plain s gid) : s.stuckSave (s.grp gid).unit = false := by
  simp [State.stuckSave, h.1]

theorem rungOpen {s : State} {gid : Nat} (h : Plain s gid) (k : (s.grp gid).rung = 0 ∧ s.trapBlock (s.keyOf (s.grp gid)) = some (tblk, 0x6000)) :
    GroupRungOpen s gid tblk := ⟨h.2.2.2.1, k.1, h.src, h.saving, h.stuck, ⟨0x6000, k.2⟩, by decide +kernel⟩

/-- The group rung has a handler in a paged state. -/
theorem wit_group_rung : Plain (paged (at1 (.nop ⟨0#3⟩))) 1 ∧ GroupRungOpen (paged (at1 (.nop ⟨0#3⟩))) 1 tblk :=
  have h : Plain (paged (at1 (.nop ⟨0#3⟩))) 1 := by unfold Plain; decide +kernel
  ⟨h, rungOpen h (by decide +kernel)⟩
/-- The ways a trap passes up: from a handler of the group rung, without a vector, from one of the block rung. -/
theorem wit_pass_up :
    (Plain (atG (.nop ⟨0#3⟩) fun g => { g with rung := 1 }) 1 ∧ ((atG (.nop ⟨0#3⟩) fun g => { g with rung := 1 }).grp 1).rung = 1) ∧
    (Plain (at1 (.nop ⟨0#3⟩)) 1 ∧ ((at1 (.nop ⟨0#3⟩)).grp 1).rung = 0 ∧ (at1 (.nop ⟨0#3⟩)).trapBlock 0 = none) ∧
    (Plain (atG (.nop ⟨0#3⟩) fun g => { g with rung := 2 }) 1 ∧ ((atG (.nop ⟨0#3⟩) fun g => { g with rung := 2 }).grp 1).rung = 2) ∧
    causeRung 0x05 = 0 ∧ causeRung 0x15 = 2 := by unfold Plain; decide +kernel

theorem wit_sys_trap : let i : Instr := .sysTrap ⟨17#13, 0#3⟩
    Passes none false i (paged (at1 i)) ∧ GroupRungOpen (paged (at1 i)).issuing 1 tblk :=
  ⟨by unfold Passes; decide +kernel, rungOpen (by unfold Plain; decide +kernel) (by decide +kernel)⟩

/-- A group in a handler: s43-s45 hold the disposition 0, the saved PC and the saved status. -/
def handling (rung : Nat) (s : State) : State :=
  s.modGrp 1 fun g => { g with
    gst := 0x90000000#32, rung := rung, hiPc := 0
    sr := (g.sr.set 44 0x10000020#32).set 45 0x80000000#32, bank := List.replicate 8 3#32 }
/-- The same of the block rung, serving a trap of group 2 of the unit. -/
def serving (s : State) : State :=
  let s := handling 2 s
  (s.setGrp 2 { s.grp 1 with rung := 0, gst := 0x80000000#32, held := true, pc := 0x10000040 }).modUnit 1 fun u =>
    { u with bserve := some (some 2, ⟨0x06, 0#32, 0x10000040, 0, true⟩) }
/-- The premises of a return. -/
def TretMeets (s : State) : Prop :=
  let x := s.ix false
  Passes none false .sysTret s ∧ x.g.chain = [] ∧ x.g.scoreboard (scalarUses x [44, 45, 43] []) = none ∧
    gstHdl x.g.gst = true ∧ tretBad (scalarVal s.issuing x.g 45 x.t) x.g.gst = false ∧
    checkTarget x s.issuing (x.g.hiPc * 4294967296 + (scalarVal s.issuing x.g 44 x.t).toNat) = none
theorem wit_tret : let s := serving (at1 .sysTret)
    TretMeets (handling 1 (at1 .sysTret)) ∧ TretMeets s ∧ (s.units.find? 1).isSome = true ∧
      (s.unit 1).bserve = some (some 2, ⟨0x06, 0#32, 0x10000040, 0, true⟩) ∧ (s.unit 1).chain = none ∧
      (s.groups.find? 2).isSome = true ∧ scalarVal s.issuing (s.ix false).g 43 (s.ix false).t = 0#32 := by
  unfold TretMeets Passes; decide +kernel

-- R366's example: sys.trap 17 saves the next word and 17 (cause USER)
theorem test_sys_trap : goes (.sysTrap ⟨17#13, 0#3⟩) (paged (at1 (.sysTrap ⟨17#13, 0#3⟩)))
    (fun t => (t.grp 1).pc = 0x10000100 && wAt (t.grp 1).sr 44 = 0x10000004#32 && wAt (t.grp 1).sr 47 = 17#32 &&
      wAt (t.grp 1).sr 40 = 0x7000#32 && (t.grp 1).gst.getLsbD 28) = true := by decide +kernel
theorem test_sys_tret : goes .sysTret (handling 1 (at1 .sysTret))
    (fun t => (t.grp 1).pc = 0x10000020 && (t.grp 1).gst = 0x80000000#32 && (t.grp 1).sr.drop 40 = List.replicate 8 3#32) = true := by
  decide +kernel

theorem wit_exit : Passes none false .sysExit (at1 .sysExit) ∧ ((at1 .sysExit).ix false).g.ops = [] ∧
    ((at1 .sysExit).ix false).g.rung ≠ 2 ∧ ((at1 .sysExit).ix false).g.draft = none ∧ keysRise (at1 .sysExit).groups = true ∧
    ((at1 .sysExit).units.find? ((at1 .sysExit).ix false).g.unit).isSome = true ∧
    ((at1 .sysExit).unit ((at1 .sysExit).ix false).g.unit).done = false ∧
    ∀ p ∈ (at1 .sysExit).groups, p.1 ≠ ((at1 .sysExit).ix false).gid → p.2.unit = ((at1 .sysExit).ix false).g.unit → p.2.st = .exited := by
  unfold Passes; decide +kernel
theorem wit_exit_draft : let s := drafting (at1 .sysExit)
    Passes none false .sysExit s ∧ (s.ix false).g.ops = [] ∧ (s.ix false).g.rung ≠ 2 ∧ (s.ix false).g.draft = some (0, 3) ∧
      s.issuing.copying (s.ix false).gid = false := by unfold Passes; decide +kernel
theorem wit_dabort : let s := drafting (at1 .sysDabort)
    Passes none false .sysDabort s ∧ (s.ix false).g.draft = some (0, 3) := by unfold Passes; decide +kernel
theorem test_exit : goes .sysExit (at1 .sysExit) (fun t => (t.grp 1).st = .exited && (t.unit 1).done) = true := by decide +kernel
theorem test_dabort : goes .sysDabort (drafting (at1 .sysDabort))
    (fun t => t.mem.read 0x400007F = 0#8 && t.drafts.isEmpty) = true := by decide +kernel

/-- A word whose d names no register of a group of 64: refused before it does anything (R38). -/
theorem wit_refused : let i : Instr := .vmovPortPush ⟨57#6, 7#7, 0#1, 0#3⟩
    let s := paged (at1 i)
    (encode i).isSome = true ∧ helmWord i = false ∧ (s.groups.find? s.cur).isSome = true ∧ (s.ix false).g.fences = [] ∧
      (s.ix false).g.notice = none ∧
      chainFault (s.ix false).g.chain i s.iw (s.ix false).g.regs (s.ix false).g.beats (s.ix false).g.pc (s.ix false).rep = some s.iw ∧
      GroupRungOpen s.issuing s.cur tblk :=
  ⟨by decide +kernel, by decide +kernel, by decide +kernel, by decide +kernel, by decide +kernel, by decide +kernel,
    rungOpen (by unfold Plain; decide +kernel) (by decide +kernel)⟩
theorem wit_no_word : let s := paged { at1 (.nop ⟨0#3⟩) with iw := 0#32 }
    isGloss s.iw = false ∧ (s.groups.find? s.cur).isSome = true ∧ (s.ixOf false).g.chain = [] ∧ GroupRungOpen s s.cur tblk :=
  ⟨by decide +kernel, by decide +kernel, by decide +kernel, rungOpen (by unfold Plain; decide +kernel) (by decide +kernel)⟩
/-- An early read of a scalar under chk (R63), and a status word with a reserved bit (R54). -/
theorem wit_stallchk : let i : Instr := .sadd ⟨1#6, 4#7, 5#7, 2#3⟩
    let p : PendW := ⟨.scal 4, 9, [0#32]⟩
    let s := paged (atG i fun g => { g with gst := g.gst ||| 0x08000000#32, pend := [p] })
    let x := s.ix false
    Passes none false i s ∧ gstChk x.g.gst = true ∧ x.a 4#7 < 48 ∧ p ∈ x.g.pend ∧ p.cell = .scal (x.a 4#7) ∧ x.t < p.ready ∧
      x.g.varPending (.scal (x.a 4#7)) = false ∧ GroupRungOpen s.issuing x.gid tblk :=
  ⟨by unfold Passes; decide +kernel, by decide +kernel, by decide +kernel, by decide +kernel, by decide +kernel, by decide +kernel,
    by decide +kernel, rungOpen (by unfold Plain; decide +kernel) (by decide +kernel)⟩
theorem wit_mark_full : let i : Instr := .mark ⟨4#22, 0#3⟩
    let s := paged (atG i fun g => { g with stk := List.replicate 16 ⟨0x10000000#32, 0#32, 0#32, 0#32⟩, dspill := 0 })
    let x := s.ix false
    Passes none false i s ∧ x.g.scoreboard (scalarUses x (List.range x.g.beats) []) = none ∧ 16 ≤ x.g.stk.length ∧
      x.g.dspill ≤ x.g.stkSp ∧ GroupRungOpen s.issuing x.gid tblk :=
  ⟨by unfold Passes; decide +kernel, by decide +kernel, by decide +kernel, by decide +kernel,
    rungOpen (by unfold Plain; decide +kernel) (by decide +kernel)⟩
theorem wit_setst_reserved : let i : Instr := .sysSetst ⟨8#7, 0#3⟩
    let s := paged (atG i (sets [(8, 0x00010000#32)]))
    let x := s.ix false
    Passes none false i s ∧ x.g.scoreboard (scalarUses x [x.a 8#7] []) = none ∧
      scalarVal s.issuing x.g (x.a 8#7) x.t &&& 0x0001E0E0#32 ≠ 0#32 ∧ gstHdl x.g.gst = false ∧ GroupRungOpen s.issuing x.gid tblk :=
  ⟨by unfold Passes; decide +kernel, by decide +kernel, by decide +kernel, by decide +kernel,
    rungOpen (by unfold Plain; decide +kernel) (by decide +kernel)⟩
/-- A misaligned lane address of a load, and a private word at plim. -/
theorem wit_ld_misaligned : let i : Instr := .ld ⟨8#6, 2#7, 3#5, 4#3, 0#3⟩
    let s := paged (atG i fun g => sets [(0, 1#32), (6, 0x8002#32)] g)
    let x := s.ix false
    Passes (some 0) false i s ∧ GroupRungOpen s.issuing x.gid tblk ∧
      ∃ q, gather x s.issuing false [.vec (x.a 2#7), .sc 6, .sc 7] ((List.range (sizeRegs 4#3)).map fun j => x.d 8#6 + j) [] = .ok q ∧
        ((laneAsks q (rowVa 1) 4 (fun _ _ => [])).map (fun e => e.va % sizeBytes 4#3) = [2] ∧
          s.issuing.askedBefore x (laneAsks q (rowVa 1) 4 fun _ _ => []) = none) :=
  ⟨by unfold Passes; decide +kernel, rungOpen (by unfold Plain; decide +kernel) (by decide +kernel), ok_dec (by decide +kernel)⟩
/-- A private word at plim, and a return outside a handler. -/
theorem wit_ldp_limit : let i : Instr := .ldp ⟨8#6, 2#7, 4#3, 0#3⟩
    let s := paged (atG i fun g => sets [(0, 1#32)] (setv 2 (fun _ => 64#32) g))
    let x := s.ix false
    Passes (some 0) false i s ∧ GroupRungOpen s.issuing x.gid tblk ∧
      ∃ q, gather x s.issuing false [.vec (x.a 2#7)] ((List.range (sizeRegs 4#3)).map fun j => x.d 8#6 + j) [] = .ok q ∧
        ((q.rows.flatMap fun r => r.lanes.map fun l => (r, l)).map fun e => decide (x.g.plim ≤ (e.1.at 0 e.2).toNat)) = [true] :=
  ⟨by unfold Passes; decide +kernel, rungOpen (by unfold Plain; decide +kernel) (by decide +kernel), ok_dec (by decide +kernel)⟩
theorem wit_tret_outside : let s := paged (at1 .sysTret)
    Passes none false .sysTret s ∧ gstHdl (s.ix false).g.gst = false ∧ GroupRungOpen s.issuing (s.ix false).gid tblk :=
  ⟨by unfold Passes; decide +kernel, by decide +kernel, rungOpen (by unfold Plain; decide +kernel) (by decide +kernel)⟩

/-! ## Memory instructions at issue (O16, O17, O18) -/

/-- Whether the checks of R135, R144 and R146 pass over what an instruction asks for. -/
def askedOk (x : IX) (s : State) (c : Ctr) (align scope : Nat) (a : Access) (kind : Nat) (q : List Ask) : Bool :=
  let m := s.translateAll (s.keyOf x.g) x.g.core a kind q
  (s.askedBefore x q).isNone && (q.all fun e => e.reg != 0 || e.va % align = 0) && !(s.scopeDenied (s.keyOf x.g / 65536) scope) &&
    (m.2.all fun p => match p.2 with
      | .ok _ _ => true
      | _ => false) && (draftSide x.g (m.2.map accOf)).isNone &&
    (!needW a || (m.1.draftStop x.g (m.2.map accOf)).isNone) && decide (x.g.count c < 63) &&
    okOf (m.1.missGate x.gid x.g.core x.g.pc (m.2.map accOf)) fun _ => true

theorem asked {x : IX} {s : State} {c : Ctr} {align scope : Nat} {a : Access} {kind : Nat} {q : List Ask}
    (h : askedOk x s c align scope a kind q = true) : ∃ r, Asked x s c align scope a kind q r := by
  simp only [askedOk, Bool.and_eq_true, List.all_eq_true, decide_eq_true_eq, Option.isNone_iff_eq_none, Bool.not_eq_true', bne_iff_ne,
    Bool.or_eq_true] at h
  obtain ⟨⟨⟨⟨⟨⟨⟨h0, h1⟩, h2⟩, h3⟩, h4⟩, h5⟩, h6⟩, h7⟩ := h
  obtain ⟨t, ht, -⟩ := exists_ok h7
  refine ⟨(t.1, (s.translateAll (s.keyOf x.g) x.g.core a kind q).2.map accOf, t.2), .inl ⟨h0, fun e he r => (h1 e he).resolve_left (fun k => k r), h2, fun p hp => ?_, rfl, h4, fun w => ?_, h6, ht⟩⟩
  · have := h3 p hp
    split at this
    · exact ⟨_, _, ‹_›⟩
    · exact absurd this (by decide)
  · rcases h5 with k | k
    · rw [w] at k
      exact absurd k (by decide)
    · exact k

theorem gather_asked {x y : IX} {s : State} {late : Bool} {srcs : List Src} {vd : List Nat} {sd : List SDst} {c : Ctr} {align scope : Nat} {a : Access}
    {kind : Nat} {f : Gath → List Ask}
    (h : okOf (gather x s late srcs vd sd) (fun q => askedOk y q.s c align scope a kind (f q)) = true) :
    ∃ q, gather x s late srcs vd sd = .ok q ∧ ∃ r, Asked y q.s c align scope a kind (f q) r :=
  (exists_ok h).imp fun _ k => ⟨k.1, asked k.2⟩

/-- A paged state whose group has the base 0x8000 in s6. -/
def based (i : Instr) (f : Group → Group) : State := paged (atG i fun g => f (sets [(6, 0x8000#32)] g))

theorem wit_ld : let i : Instr := .ld ⟨8#6, 0x42#7, 3#5, 6#3, 0#3⟩
    let s := based i id
    let x := s.ix false
    Passes (some 0) false i s ∧
      ∃ q, gather x s.issuing false [.vec (x.a 0x42#7), .sc 6, .sc 7] ((List.range 4).map fun j => x.d 8#6 + j) [] = .ok q ∧
        ∃ r, Asked x q.s .g 16 x.scope .read 0 (laneAsks q (rowVa 1) 6 fun _ _ => []) r :=
  ⟨by unfold Passes; decide +kernel, gather_asked (by decide +kernel)⟩
theorem wit_st : let i : Instr := .st ⟨3#6, 2#7, 3#5, 0#3, 0#3⟩
    let s := based i (setv 2 fun l => BitVec.ofNat 32 l)
    let x := s.ix false
    Passes (some 1) false i s ∧
      ∃ q, gather x s.issuing false [.vec (x.a 2#7), .vec 3, .sc 6, .sc 7] [] [] = .ok q ∧
        ∃ r, Asked x q.s .w 1 x.scope .write 1 (laneAsks q (rowVa 2) 0 fun r l => storeData 0 [r.at 1 l]) r :=
  ⟨by unfold Passes; decide +kernel, gather_asked (by decide +kernel)⟩
theorem wit_sld : let i : Instr := .sld ⟨56#6, 12#7, 3#5, 5#3, 0#3⟩
    let s := based i (sets [(12, 0xFFFFFFF8#32)])
    let x := s.ix false
    Passes (some 0) false i s ∧ x.g.scoreboard (scalarUses x (pairRegs 3#5 ++ [x.a 12#7]) []) = none ∧
      ∃ r, Asked x s.issuing .g 8 x.scope .read 0 (asksOf 0 (addOff48 (pair48 (scalarVal s.issuing x.g 6 x.t)
        (scalarVal s.issuing x.g 7 x.t)) (scalarVal s.issuing x.g 12 x.t)) 5 []) r :=
  ⟨by unfold Passes; decide +kernel, by decide +kernel, asked (by decide +kernel)⟩
theorem wit_sst : let i : Instr := .sst ⟨20#6, 12#7, 3#5, 4#3, 0#3⟩
    let s := based i id
    let x := s.ix false
    Passes (some 1) false i s ∧ x.g.scoreboard (scalarUses x (pairRegs 3#5 ++ [x.a 12#7] ++ [20]) []) = none ∧
      ∃ r, Asked x s.issuing .w 4 x.scope .write 1 (asksOf 0 (addOff48 (pair48 (scalarVal s.issuing x.g 6 x.t)
        (scalarVal s.issuing x.g 7 x.t)) (scalarVal s.issuing x.g 12 x.t)) 4 (storeData 4 [scalarVal s.issuing x.g 20 x.t])) r :=
  ⟨by unfold Passes; decide +kernel, by decide +kernel, asked (by decide +kernel)⟩
/-- The last private word below plim. -/
theorem wit_ldp : let i : Instr := .ldp ⟨8#6, 2#7, 4#3, 0#3⟩
    let s := paged (atG i (setv 2 fun _ => 63#32))
    let x := s.ix false
    Passes (some 0) false i s ∧
      ∃ q, gather x s.issuing false [.vec (x.a 2#7)] ((List.range 1).map fun j => x.d 8#6 + j) [] = .ok q ∧
        ((∀ w ∈ q.rows, ∀ l ∈ w.lanes, (w.at 0 l).toNat + 1 - 1 < x.g.plim) ∧
          askedOk x q.s .p 1 2 .read 0 (q.rows.flatMap fun w => w.lanes.flatMap fun l => (List.range 1).map fun j =>
            ⟨32 * w.b + l, x.g.win + (((w.at 0 l).toNat + j) * x.g.beats * 32 + (32 * w.b + l)) * 4, 4, j, []⟩) = true) :=
  ⟨by unfold Passes; decide +kernel, ok_dec (by decide +kernel)⟩
/-- A scratch store that ends where the footprint ends, and an atomic. -/
theorem wit_stx : let i : Instr := .stx ⟨5#6, 2#7, 4#5, 4#3, 0#3⟩
    let s := (atG i (setv 2 fun l => BitVec.ofNat 32 (4 * l))).modUnit 1 fun u => { u with foot := 128, scr := List.replicate 128 0#8 }
    let x := s.ix false
    Passes (some 1) false i s ∧
      ∃ q, gather x s.issuing false [.vec (x.a 2#7), .vec 5, .sc 8] [] [] = .ok q ∧
        ScratchAsked x q.s 4 true (laneAsks q (fun r l => (r.at 2 l + r.at 0 l).toNat) 4 fun r l => storeData 4 [r.at 1 l]) :=
  ⟨by unfold Passes; decide +kernel, by unfold ScratchAsked; exact ok_dec (by decide +kernel)⟩
theorem wit_atomx : let i : Instr := .atomx ⟨6#6, 3#7, 4#5, 0#4, 0#3⟩
    let s := (at1 i).modUnit 1 fun u => { u with foot := 128, scr := List.replicate 128 0#8 }
    let x := s.ix false
    Passes (some 2) false i s ∧
      ∃ q, gather x s.issuing false [.vec (x.a 3#7), .vec 6, .sc 8] [x.d 6#6] [] = .ok q ∧
        ScratchAsked x q.s 4 true (q.rows.flatMap fun r => r.lanes.map fun l =>
          ⟨32 * r.b + l, (r.at 2 l + r.at 0 l).toNat, 4, 0, atomData 0#4 r l⟩) :=
  ⟨by unfold Passes; decide +kernel, by unfold ScratchAsked; exact ok_dec (by decide +kernel)⟩
theorem wit_atom : let i : Instr := .atom ⟨4#6, 2#7, 3#5, 10#4, 0#3⟩
    let s := based i id
    let x := s.ix false
    Passes (some 2) false i s ∧ x.g.draft = none ∧
      ∃ q, gather x s.issuing false [.vec (x.a 2#7), .vec 4, .vec 5, .sc 6, .sc 7] [x.d 4#6] [] = .ok q ∧
        ∃ r, Asked x q.s .g 4 2 .readWrite 2 (q.rows.flatMap fun w => w.lanes.map fun l =>
          ⟨32 * w.b + l, rowVa 3 w l, 4, 0, atomData 10#4 w l⟩) r :=
  ⟨by unfold Passes; decide +kernel, by decide +kernel, gather_asked (by decide +kernel)⟩
theorem wit_red : let i : Instr := .red ⟨4#6, 2#7, 3#5, 11#4, 0#3⟩
    let s := based i id
    let x := s.ix false
    Passes (some 1) false i s ∧ x.g.draft = none ∧
      ∃ q, gather x s.issuing false [.vec (x.a 2#7), .vec 4, .sc 6, .sc 7] [] [] = .ok q ∧
        ∃ r, Asked x q.s .w 4 2 .write 1 (q.rows.flatMap fun w => w.lanes.map fun l =>
          ⟨32 * w.b + l, rowVa 2 w l, 4, 0, atomData 11#4 w l⟩) r :=
  ⟨by unfold Passes; decide +kernel, by decide +kernel, gather_asked (by decide +kernel)⟩

-- one access for an active lane, at the base plus the signed offset; the operation counts on w
theorem test_st : goes (.st ⟨3#6, 2#7, 3#5, 4#3, 0#3⟩)
    (based (.st ⟨3#6, 2#7, 3#5, 4#3, 0#3⟩) fun g => sets [(0, 2#32)] (setv 2 (fun _ => 0xFFFFFFFC#32) (setv 3 (fun _ => 0x01020304#32) g)))
    (fun t => ((t.grp 1).ops.flatMap fun o => o.accs.map fun a => (a.lane, a.va, a.pa, a.data)) =
      [(1, 0x7FFC, 0x7FFC, [4#8, 3#8, 2#8, 1#8])] && (t.grp 1).count .w = 1) = true := by decide +kernel
-- an aligned b128 load makes two requests for its lane (R136)
theorem test_ld_b128 : goes (.ld ⟨8#6, 2#7, 3#5, 6#3, 0#3⟩) (based (.ld ⟨8#6, 2#7, 3#5, 6#3, 0#3⟩) (sets [(0, 1#32)]))
    (fun t => ((t.grp 1).ops.flatMap fun o => o.accs.map fun a => (a.va, a.n)) = [(0x8000, 8), (0x8008, 8)]) = true := by decide +kernel
theorem test_ldx_b128 : let i : Instr := .ldx ⟨8#6, 2#7, 4#5, 6#3, 0#3⟩
    goes i ((atG i (sets [(0, 1#32)])).modUnit 1 fun u => { u with foot := 16, scr := List.replicate 16 0#8 })
      (fun t => (t.grp 1).count .x = 1) = true := by decide +kernel

/-! ## Accesses performed (O19-O22) -/

/-- Group 1 with one operation in flight, of one access. -/
def flying (o : Op) : State := (at1 (.nop ⟨0#3⟩)).modGrp 1 fun g => { g with ops := [o] }
/-- An access of four bytes at 0x8004. -/
def acc4 (data : List Byte) : Acc := ⟨0, 0x8004, 0x8004, 0x8004, 4, 0, data, [], false, false, false, none⟩
def opOf (c : Ctr) (k : OpKind) (aop : Nat) (a : Acc) : Op := ⟨c, k, 2, 0, aop, 4, 8, true, [a], [], false, [], 0, []⟩
/-- An L1 line of core 0 at 0x8000: every byte 7, valid, with some dirty bytes. -/
def warm (dirty : BitVec 128) (s : State) : State :=
  { s with l1 := [⟨0, 0x100, [(0, 32)], dirty, List.replicate 128 7#8, 0#128, [], [], []⟩] }
/-- The line at 0x8000 helped, with a slot POSTED in it. -/
def helpedLine (s : State) : State := { s with helped := [0x100], mem := s.mem.store 0x801F [0x40#8] }

theorem wit_load_home : let o := opOf .g .load 0 (acc4 [])
    SoleAccess (flying o) 1 0 o (acc4 []) ∧ windowPa 0x8004 = false ∧ ((flying o).grp 1).draft = none ∧ Uncached (flying o) 0x100 ∧
      L1Free (flying o) ((flying o).l1For ((flying o).grp 1).core 0x8004) 0x100 := by
  unfold SoleAccess Uncached L1Free; decide +kernel
theorem wit_load_l1 : let o := opOf .g .load 0 (acc4 [])
    let s := warm 0#128 (flying o)
    SoleAccess s 1 0 o (acc4 []) ∧ s.inL1 (s.grp 1) o 0x8004 = true ∧ NoUpdates s 0x100 ∧
      ∀ k, k < 4 → s.l1Byte? (s.grp 1).core (0x8004 + k) = some ((List.replicate 4 7#8).getD k 0#8) := by
  unfold SoleAccess NoUpdates; decide +kernel
theorem wit_load_scratch : let o := opOf .x .ldx 0 (acc4 [])
    SoleAccess (flying o) 1 0 o (acc4 []) := by unfold SoleAccess; decide +kernel
theorem test_home_read : goes (.homeRead 1 0) ({ flying (opOf .g .load 0 (acc4 [])) with mem := Mem.store [] 0x8004 [1#8, 2#8] })
    (fun t => ((t.grp 1).ops.flatMap fun o => o.accs.map fun a => (a.fin, a.new)) = [(true, [1#8, 2#8, 0#8, 0#8])]) = true := by
  decide +kernel

theorem noLog {s : State} (h : s.vfs = []) : NoLog s := by
  intro v
  unfold State.vf
  rw [h]
  show VfSt.init.dlog.getLsbD 0 = false
  decide
theorem L1Ok_one {s : State} {l : L1Line} (h : s.l1 = [l]) (k : l.ok) : L1Ok s := by
  unfold L1Ok
  rw [h]
  exact ⟨List.pairwise_singleton _ _, fun x hx => by rw [List.mem_singleton.1 hx]; exact k⟩
theorem L1Ok_none {s : State} (h : s.l1 = []) : L1Ok s := by
  unfold L1Ok
  rw [h]
  exact ⟨List.Pairwise.nil, nofun⟩

/-- A store of scope 3 (at the home), one of cluster scope (in the L1), one to a helped line with a slot in use. -/
theorem wit_store : let d : List Byte := [1#8, 2#8, 3#8, 4#8]
    let o := opOf .w .store 0 (acc4 d)
    let home : Op := { o with scope := 3 }
    (SoleAccess (flying home) 1 0 home (acc4 d) ∧ (acc4 d).data.length = (acc4 d).n ∧ L1Ok (flying home) ∧ NoLog (flying home) ∧
      Memory.wf (flying home).mem = true ∧ (flying home).suppresses 0x100 = false ∧
      (flying home).inL1 ((flying home).grp 1) home 0x8004 = false) ∧
    (SoleAccess (flying o) 1 0 o (acc4 d) ∧ L1Ok (flying o) ∧ (flying o).inL1 ((flying o).grp 1) o 0x8004 = true ∧
      L1Free (flying o) ((flying o).l1For ((flying o).grp 1).core 0x8004) 0x100) ∧
    (SoleAccess (helpedLine (flying o)) 1 0 o (acc4 d) ∧ (helpedLine (flying o)).suppresses 0x100 = true ∧
      Memory.wf (helpedLine (flying o)).mem = true) := by
  refine ⟨⟨by unfold SoleAccess; decide +kernel, by decide, L1Ok_none (by decide +kernel), noLog (by decide +kernel), by decide +kernel,
    by decide +kernel, by decide +kernel⟩, ⟨by unfold SoleAccess; decide +kernel, L1Ok_none (by decide +kernel), by decide +kernel, by unfold L1Free; decide +kernel⟩,
    ⟨by unfold SoleAccess; decide +kernel, by decide +kernel, by decide +kernel⟩⟩
theorem wit_stx_performed : let o := opOf .x .stx 0 ⟨0, 124, 124, 0, 4, 0, [1#8, 2#8, 3#8, 4#8], [], false, false, false, none⟩
    let s := (flying o).modUnit 1 fun u => { u with foot := 128, scr := List.replicate 128 0#8 }
    SoleAccess s 1 0 o ⟨0, 124, 124, 0, 4, 0, [1#8, 2#8, 3#8, 4#8], [], false, false, false, none⟩ ∧ (s.units.find? (s.grp 1).unit).isSome = true ∧
      124 + 4 ≤ (s.unit (s.grp 1).unit).scr.length := by unfold SoleAccess; decide +kernel
theorem wit_write_back : let s := warm 0xF#128 (at1 (.nop ⟨0#3⟩))
    NoLog s ∧ Memory.wf s.mem = true ∧ L1Ok s ∧ s.helped.contains 0x100 = false ∧ NoUpdates s 0x100 ∧
      (s.l1At 0 0x100).dirty ≠ 0#128 :=
  ⟨noLog (by decide +kernel), by decide +kernel, L1Ok_one rfl (by unfold L1Line.ok; decide +kernel), by decide +kernel,
    by unfold NoUpdates; decide +kernel, by decide +kernel⟩
theorem test_store_home : let o : Op := { opOf .w .store 0 (acc4 [1#8, 2#8, 3#8, 4#8]) with scope := 3 }
    goes (.homeWritePerform (.op 1 0)) (flying o)
      (fun t => t.mem.read 0x8004 = 1#8 && t.mem.read 0x8007 = 4#8 && t.mem.read 0x8008 = 0#8) = true := by decide +kernel
theorem test_write_back : goes (.homeWritePerform (.writeBack 0 0x100)) (warm 0xF#128 (at1 (.nop ⟨0#3⟩)))
    (fun t => t.mem.read 0x8003 = 7#8 && t.mem.read 0x8004 = 0#8 && (t.l1At 0 0x100).dirty = 0#128) = true := by decide +kernel
-- a write to a helped line with a slot in use is suppressed (R282)
theorem test_store_helped : goes (.homeWritePerform (.op 1 0)) (helpedLine (flying { opOf .w .store 0 (acc4 [1#8, 2#8, 3#8, 4#8]) with scope := 3 }))
    (fun t => t.mem.read 0x8004 = 0#8 && ((t.grp 1).ops.flatMap fun o => o.accs.map fun a => a.bad) = [true]) = true := by
  decide +kernel

theorem wit_atomic : let o := opOf .g .atom 0 (acc4 [1#8, 0#8, 0#8, 0#8])
    let s := flying o
    let p := { s with poison := [0x8005] }
    SoleAccess s 1 0 o (acc4 [1#8, 0#8, 0#8, 0#8]) ∧ NoLog s ∧ s.suppresses 0x100 = false ∧ s.helped.contains 0x100 = false ∧
      Uncached s 0x100 ∧ s.poisoned 0x8004 4 = false ∧ SoleAccess p 1 0 o (acc4 [1#8, 0#8, 0#8, 0#8]) ∧ p.poisoned 0x8004 4 = true ∧
      (p.grp 1).draft = none :=
  ⟨by unfold SoleAccess; decide +kernel, noLog (by decide +kernel), by decide +kernel, by decide +kernel, by unfold Uncached; decide +kernel,
    by decide +kernel, by unfold SoleAccess; decide +kernel, by decide +kernel, by decide +kernel⟩
theorem wit_atomx_performed : let o := opOf .x .atomx 0 (acc4 [1#8, 0#8, 0#8, 0#8])
    SoleAccess (flying o) 1 0 o (acc4 [1#8, 0#8, 0#8, 0#8]) ∧ ((flying o).units.find? ((flying o).grp 1).unit).isSome = true := by
  unfold SoleAccess; decide +kernel
theorem test_atom : goes (.homeAtomic 1 0) { flying (opOf .g .atom 0 (acc4 [1#8, 0#8, 0#8, 0#8])) with mem := Mem.store [] 0x8004 [0xFF#8] }
    (fun t => t.mem.read 0x8004 = 0#8 && t.mem.read 0x8005 = 1#8 &&
      ((t.grp 1).ops.flatMap fun o => o.accs.map fun a => a.new) = [[0xFF#8, 0#8, 0#8, 0#8]]) = true := by decide +kernel

theorem wit_update_only : let o := opOf .w .red 0 (acc4 [1#8, 0#8, 0#8, 0#8])
    SoleAccess (flying o) 1 0 o (acc4 [1#8, 0#8, 0#8, 0#8]) ∧ (flying o).drafted 0x100 = false ∧ Uncached (flying o) 0x100 ∧
      L1Free (flying o) ((flying o).l1For ((flying o).grp 1).core 0x8004) 0x100 := by
  unfold SoleAccess Uncached L1Free; decide +kernel
theorem wit_update_evict : let s := { at1 (.nop ⟨0#3⟩) with l1 := [⟨0, 0x100, [], 0#128, List.replicate 128 0#8, 0#128, [], [], [(1, 0, 5#32, 0)]⟩] }
    NoLog s ∧ s.helped.contains 0x100 = false ∧ (s.l1At 0 0x100).upd = [(1, 0, 5#32, 0)] ∧
      s.poison.any (fun p => p / 4 = 0x100 * 32 + 1) = false ∧
      ∀ l ∈ s.l1, l.line = 0x100 → l.dirty &&& spanMask 128 (4 * 1) 4 = 0#128 :=
  ⟨noLog (by decide +kernel), by decide +kernel, by decide +kernel, by decide +kernel, by decide +kernel⟩
theorem wit_claim : let o := opOf .w .store 0 (acc4 [1#8, 2#8, 3#8, 4#8])
    let s := flying o
    (s.groups.find? 1).isSome = true ∧ (s.grp 1).ops[0]? = some o ∧ (acc4 [1#8, 2#8, 3#8, 4#8]) ∈ o.accs ∧ s.l1For (s.grp 1).core 0x8004 = 0 ∧
      s.inL1 (s.grp 1) o 0x8004 = true ∧ s.mayStore (s.grp 1).core 0x8004 4 = false ∧
      (s.groups.flatMap fun p => s.wantedSpans p.2 0 0x100).head? = some (spanOfBytes 4 4) ∧ NoUpdates s 0x100 := by unfold NoUpdates; decide +kernel
/-- The first beat of an instruction rejected, and a later beat of an operation of which one beat is accepted. -/
theorem wit_miss_grant : let r : Machine.Reject := ⟨1, 0x10000000, true, [acc4 []], [], [(0, 0x100)]⟩
    let s := (at1 (.nop ⟨0#3⟩)).setRejects 0 [r]
    let q : Machine.Reject := ⟨1, 0x10000000, false, [acc4 []], [], [(0, 0x100)]⟩
    let o : Op := { opOf .g .load 0 (acc4 []) with todo := [[acc4 []]] }
    let t := (flying o).setRejects 0 [q]
    s.rejects 0 = [r] ∧ (∀ e ∈ r.lacks, s.missUsed e.1 + r.lacks.length ≤ Config.missMax) ∧ t.rejects 0 = [q] ∧
      (∀ e ∈ q.lacks, t.missUsed e.1 + q.lacks.length ≤ Config.missMax) ∧
      (t.grp 1).ops.findIdx? (fun o => o.todo != []) = some 0 ∧ (t.grp 1).ops[0]? = some o := by decide +kernel
-- a freed entry goes to the oldest rejected beat, and a later beat that has all of its entries is accepted (R146, R147)
theorem test_miss_grant : goes (.missEntryGrant 0) ((flying { opOf .g .load 0 (acc4 []) with todo := [[acc4 []]] }).setRejects 0
      [⟨1, 0x10000000, false, [acc4 []], [], [(0, 0x100)]⟩])
    (fun t => ((t.grp 1).ops.map fun o => (o.accs.length, o.todo, o.ents)) = [(2, [], [(0, 0, 0x100)])] && (t.core 0).rejected.isEmpty) = true := by
  decide +kernel
theorem test_red_enter : goes (.homeWritePerform (.op 1 0)) (flying (opOf .w .red 0 (acc4 [1#8, 0#8, 0#8, 0#8])))
    (fun t => (t.l1At 0 0x100).upd = [(1, 0, 1#32, 0)] && t.mem.read 0x8004 = 0#8) = true := by decide +kernel
theorem test_update_evict : goes (.updateOnlyEvict 0 0x100)
    { at1 (.nop ⟨0#3⟩) with l1 := [⟨0, 0x100, [], 0#128, List.replicate 128 0#8, 0#128, [], [], [(1, 0, 5#32, 0)]⟩] }
    (fun t => t.mem.read 0x8004 = 5#8 && t.l1.isEmpty) = true := by decide +kernel
theorem test_claim : goes (.spanClaim 0 0x100) (flying (opOf .w .store 0 (acc4 [1#8, 2#8, 3#8, 4#8])))
    (fun t => t.mayStore 0 0x8004 4) = true := by decide +kernel

/-! ## Completion and the cache forms (O23, O24) -/

/-- The premises of a completion: the oldest operation of a counter, performed. -/
def CompletesMeets (s : State) (o : Op) : Prop :=
  (s.groups.find? 1).isSome = true ∧ (s.grp 1).oldest o.ctr = some 0 ∧ (s.grp 1).ops[0]? = some o ∧ o.todo = [] ∧ ∀ a ∈ o.accs, a.fin = true
def done4 (new : List Byte) (bad : Bool) : Acc := ⟨31, 0x8004, 0x8004, 0x8004, 4, 0, [], new, true, bad, false, none⟩
theorem wit_complete_scalar : let o : Op := { opOf .g .load 0 (done4 [1#8, 2#8, 3#8, 4#8] false) with vec := false, d := 47 }
    CompletesMeets (flying o) o ∧ (loadWords 4 [1#8, 2#8, 3#8, 4#8]).length + 47 ≤ 48 := by unfold CompletesMeets; decide +kernel
theorem wit_complete_vector : let o := opOf .g .load 0 (done4 [1#8, 2#8, 3#8, 4#8] false)
    let s := (flying o).modGrp 1 (setv 8 fun _ => 9#32)
    CompletesMeets s o ∧ loadWords 4 [1#8, 2#8, 3#8, 4#8] = [0x04030201#32] ∧ o.cells = [.vec 8 0] ∧
      (s.grp 1).vr.find? 24 = some (.mapped ((List.range 32).map fun _ => 9#32) 0) := by unfold CompletesMeets; decide +kernel
theorem wit_complete_others : CompletesMeets (flying (opOf .w .store 0 (done4 [] false))) (opOf .w .store 0 (done4 [] false)) ∧
    CompletesMeets (flying (opOf .g .load 0 (done4 [] true))) (opOf .g .load 0 (done4 [] true)) ∧
    CompletesMeets (flying (opOf .w .store 0 (done4 [] true))) (opOf .w .store 0 (done4 [] true)) ∧
    ((flying (opOf .w .store 0 (done4 [] true))).grp 1).trapPend = none := by unfold CompletesMeets; decide +kernel
/-- A group that refills register 8 of beat 0. -/
def refilling : State := paged ((at1 (.nop ⟨0#3⟩)).modGrp 1 fun g =>
  { g with st := .refilling, refill := [.vec 8 0], vr := g.vr.set 24 .spilled })
theorem wit_refill : (refilling.groups.find? 1).isSome = true ∧ (refilling.grp 1).st = .refilling ∧ (refilling.grp 1).stkSp = 0 ∧
    (refilling.grp 1).vr.find? 24 = some .spilled ∧ (refilling.unit (refilling.grp 1).unit).chain = none ∧
    refilling.entriesUsed (refilling.grp 1).core < Config.coreEntries ∧
    (refilling.privGet 1 ((refilling.grp 1).plim + 8) 0 128).2.isSome = true := by decide +kernel
/-- Every entry of the core holds a register of group 2, which is not active; group 1 is about to write a vector register. -/
def crammed (i : Instr) : State :=
  let s := paged (at1 i)
  s.setGrp 2 { s.grp 1 with st := .pending, vr := (List.range Config.coreEntries).map fun k => (k, .mapped zeroLanes 0) }
theorem wit_spill : let i : Instr := .vmovi ⟨8#6, 7#9, 0#3⟩
    let s := crammed i
    let x := s.ix true
    Passes none true i s ∧ ∃ q, gather x s.issuing false [] [x.d 8#6] [] = .ok q ∧
      (q.rows.map (·.b) = [0] ∧ x.g.vr.find? (3 * x.d 8#6) = none ∧ Config.coreEntries ≤ q.s.entriesUsed x.g.core ∧
        q.s.victim x.g.core = some (2, 0, zeroLanes) ∧ x.gid = 1 ∧
        (q.s.privPut 2 ((q.s.grp 2).plim + 0) 0 (zeroLanes.flatMap fun w => leBytes 4 w.toNat)).2 = true) :=
  ⟨by unfold Passes; decide +kernel, ok_dec (by decide +kernel)⟩
theorem test_complete_load : goes (.inFlightComplete 1 .g) ((flying (opOf .g .load 0 (done4 [1#8, 2#8, 3#8, 4#8] false))).modGrp 1 (setv 8 fun _ => 9#32))
    (fun t => lane t 8 31 = 0x04030201#32 && lane t 8 30 = 9#32 && (t.grp 1).ops.isEmpty) = true := by decide +kernel
theorem test_refill : goes (.refillComplete 1) refilling (fun t => (t.grp 1).st = .pending && lane t 8 0 = 0#32) = true := by decide +kernel

theorem wit_cache : let i : Instr := .cacheL1wb ⟨6#6, 20#7, 0#3⟩
    let x := (at1 i).ix false
    Passes (some 1) false i (at1 i) ∧ x.g.scoreboard (scalarUses x [6, x.a 20#7, x.a 20#7 + 1] []) = none ∧ x.g.count .w < 63 := by
  unfold Passes; decide +kernel
theorem wit_fetchbar : PlainMeets (.cacheFetchbar ⟨0#3⟩) (fun _ => []) (fun _ => []) (fun _ _ => True) (at1 (.cacheFetchbar ⟨0#3⟩)) := by
  unfold PlainMeets Passes; decide +kernel
theorem wit_pref : let i : Instr := .cachePref ⟨6#6, 20#7, 0#3⟩
    let s := paged (atG i (sets [(6, 128#32), (20, 0x8000#32)]))
    let x := s.ix false
    Passes none false i s ∧ x.g.scoreboard (scalarUses x [6, x.a 20#7, x.a 20#7 + 1] []) = none ∧
      (s.issuing.rangeLines (s.keyOf x.g) 0x8000 128).2 = [(0x100, 0x100)] := by unfold Passes; decide +kernel
/-- A write-back of the line at 0x8000, and an instruction cache invalidation, about to complete. -/
theorem wit_cache_complete : let o : Op := ⟨.w, .cache 0 0x8000 128, 2, 0, 0, 4, 0, false, [], [], false, [], 0, []⟩
    let s := paged (warm 0xF#128 (flying o))
    (s.groups.find? 1).isSome = true ∧ (s.grp 1).oldest .w = some 0 ∧ (s.grp 1).ops[0]? = some o ∧ s.myL1 (s.grp 1).core 0 = true ∧
      (s.rangeLines (s.keyOf (s.grp 1)) 0x8000 128).2 = [(0x100, 0x100)] ∧ s.helped.contains 0x100 = false ∧ Memory.wf s.mem = true ∧
      (∀ v ∈ s.vfs, v.2.dlog.getLsbD 0 = false) := by decide +kernel
theorem test_cache_wb : goes (.inFlightComplete 1 .w) (paged (warm 0xF#128 (flying ⟨.w, .cache 0 0x8000 128, 2, 0, 0, 4, 0, false, [], [], false, [], 0, []⟩)))
    (fun t => t.mem.read 0x8000 = 7#8 && t.mem.read 0x8004 = 0#8 && (t.grp 1).ops.isEmpty) = true := by decide +kernel

/-! ## Copies (O25) -/

/-- A descriptor in s16-s23: one row of 16 bytes from 0x8000 to scratch 112; direction 1 into the scratchpad. -/
def copying (dir : Nat) (i : Instr) : State :=
  let src : Nat := if dir = 2 then 112 else 0x8000
  let dst : Nat := if dir = 2 then 0x8000 else 112
  (paged (atG i (sets [(16, toW src), (17, 0x10000#32), (18, toW dst), (19, 0x10000#32), (22, toW (dir * 1073741824))]))).modUnit 1 fun u =>
    { u with foot := 128, scr := List.replicate 128 0#8 }
theorem wit_cpy (b : Bool) : let i : Instr := .cpy ⟨16#7, 0#3⟩
    let s := copying (if b then 2 else 1) i
    let x := s.ix false
    let v := (List.range 8).map fun k => scalarVal s.issuing x.g (x.a 16#7 + k) x.t
    let dir := ctlDir (wAt v 6)
    let rows := (List.range (hi16 (wAt v 1))).map fun k =>
      (rowAddr (dir = 2) (pair48 (wAt v 0) (wAt v 1)) k (wAt v 4), rowAddr (dir = 1) (pair48 (wAt v 2) (wAt v 3)) k (wAt v 5))
    Passes (some 3) false i s ∧ x.g.scoreboard (scalarUses x ((List.range 8).map fun k => x.a 16#7 + k) []) = none ∧
      cpyCheck v (s.unit x.g.unit).foot = none ∧ dir = (if b then 2 else 1) ∧ rows.length = 1 ∧
      copyStop x s.issuing (wAt v 7) dir (rowOut (ctlPl (wAt v 6)) (hi16 (wAt v 3) * 16)) rows = none := by
  cases b <;> (unfold Passes; decide +kernel)
theorem test_cpy : goes (.cpy ⟨16#7, 0#3⟩) (copying 2 (.cpy ⟨16#7, 0#3⟩))
    (fun t => (t.copies.map fun c => (c.2.rows, c.2.dir, c.2.len)) = [([(112, 0x8000)], 2, 16)] &&
      (t.unit 1).claims == [⟨112, 128, 0, 1⟩] && (t.grp 1).pc = 0x10000004) = true := by decide +kernel
/-- Block indices in v4; s24-s31 hold base, destination, length and rows of a block, stride of blocks, number of blocks. -/
def gathering (i : Instr) : State :=
  (paged (atG i fun g => sets [(0, 3#32), (24, 0x8000#32), (26, 64#32), (27, 0x10001#32), (28, 32#32), (29, 8#32),
    (30, 0x40000000#32)] (setv 4 (fun l => BitVec.ofNat 32 (7 - l)) g))).modUnit 1 fun u =>
    { u with foot := 128, scr := List.replicate 128 0#8 }
theorem wit_cpyx : let i : Instr := .cpyx ⟨4#7, 24#7, 0#3⟩
    let s := gathering i
    let x := s.ix false
    let v := (List.range 8).map fun k => scalarVal s.issuing x.g (x.b 24#7 + k) x.t
    Passes (some 3) false i s ∧ okOf (cpyxDesc x s.issuing ((List.range 8).map fun k => x.b 24#7 + k)) (fun w => w = v) = true ∧
      cpyxBad v = none ∧ misaligned [(wAt v 0, 16), (wAt v 2, 16), (wAt v 4, 16), (wAt v 7, 128)] = none ∧
      (∀ r, r < 2 * 1 → rowOutside (s.unit x.g.unit).foot (((wAt v 2).toNat + r * 16) % 4294967296) 16 = none) ∧
      copyStop x s.issuing (wAt v 7) 1 16 ((List.range 2).map fun r => (0, ((wAt v 2).toNat + r * 16) % 4294967296)) = none ∧
      ∃ q, gather x s.issuing true [.vec (x.a 4#7)] [] [] = .ok q ∧
        ((laneList q.rows).length = 2 ∧ ∀ l ∈ laneList q.rows, l.2.toNat < (wAt v 5).toNat) :=
  ⟨by unfold Passes; decide +kernel, by decide +kernel, by decide +kernel, by decide +kernel, by decide +kernel, by decide +kernel,
    ok_dec (by decide +kernel)⟩
/-- A gather in which no lane is active. -/
theorem wit_cpyx_none : let i : Instr := .cpyx ⟨4#7, 24#7, 0#3⟩
    let s := (gathering i).modGrp 1 (sets [(0, 0#32)])
    let x := s.ix false
    Passes (some 3) false i s ∧ okOf (cpyxDesc x s.issuing ((List.range 8).map fun k => x.b 24#7 + k)) (fun _ => true) = true ∧
      ∃ q, gather x s.issuing true [.vec (x.a 4#7)] [] [] = .ok q ∧ laneList q.rows = [] :=
  ⟨by unfold Passes; decide +kernel, by decide +kernel, ok_dec (by decide +kernel)⟩
-- the blocks 7 and 6 of 32 bytes each, their first 16 bytes to 64 and 80
theorem test_cpyx : goes (.cpyx ⟨4#7, 24#7, 0#3⟩) (gathering (.cpyx ⟨4#7, 24#7, 0#3⟩))
    (fun t => (t.copies.map fun c => c.2.rows) = [[(0x80E0, 64), (0x80C0, 80)]]) = true := by decide +kernel
theorem wit_bseal : let i : Instr := .bseal ⟨13#6, 2#3⟩
    let x := (at1 i).ix false
    Passes (some 3) false i (at1 i) ∧ x.g.scoreboard (scalarUses x [] [13]) = none := by unfold Passes; decide +kernel
theorem test_bseal : goes (.bseal ⟨13#6, 2#3⟩) (atG (.bseal ⟨13#6, 2#3⟩) fun g => { g with sealed := 4#32 })
    (fun t => wAt (t.grp 1).sr 13 = 5#32 && (t.grp 1).sealed = 5#32) = true := by decide +kernel

/-- A copy in the engine of one row of 16 bytes from 0x8000 to scratch 112. -/
def aCopy : Copy := ⟨0, 0, 1, 0, some 1, [(0x8000, 112)], 1, 0, 16, 0, 1, [], 0, none, [], 1#32, false, none, [], false⟩
def engine (c : Copy) : State :=
  let s := (paged (at1 (.nop ⟨0#3⟩))).modUnit 1 fun u => { u with foot := 128, scr := List.replicate 128 0#8 }
  { s with copies := [(1, c)], mem := s.mem.store 0x8000 [1#8, 2#8, 3#8] }
theorem wit_chunk : let s := engine aCopy
    let m := s.mapAll 0 0 .read 4 ((List.range 16).map (0x8000 + ·))
    s.copy? 1 = some aCopy ∧ aCopy.left = none ∧ s.frozen 0 3 = false ∧ s.unitAway 1 = false ∧ s.copyBehind 1 aCopy = false ∧ s.draftOf aCopy = none ∧
      112 + 16 ≤ (s.unit 1).scr.length ∧ (s.unit 1).bars = [] ∧ (s.units.find? 1).isSome = true ∧ m.fail = none ∧
      (∀ i, i < 16 → windowPa (m.at (0x8000 + i)).1 = false) ∧ m.s.l1 = [] ∧ m.s.poison = [] := by decide +kernel
theorem wit_copy_complete : let s := engine { aCopy with chunk := 1 }
    let t := engine { aCopy with chunk := 1, task := 0x9000 }
    s.copy? 1 = some { aCopy with chunk := 1 } ∧ ({ aCopy with chunk := 1 } : Copy).chunks ≤ 1 ∧ s.frozen 0 3 = false ∧
      t.copy? 1 = some { aCopy with chunk := 1, task := 0x9000 } ∧ (t.cluster 0).taskQ.length < Config.taskMax := by decide +kernel
-- a chunk brought to its end, as a pre-emption does (R231)
theorem test_chunk : (((engine aCopy).chunkStep 1 aCopy true).unit 1).scr.drop 111 |>.take 5 |> (· = [0#8, 1#8, 2#8, 3#8, 0#8]) := by
  decide +kernel
theorem test_copy_complete : goes (.copyComplete 1) (engine { aCopy with chunk := 1 }) (fun t => t.copies.isEmpty) = true := by
  decide +kernel

/-! ## Barriers (O26) -/

/-- Unit 1 with a footprint of 64 bytes and a barrier of two participants at 48. -/
def barred (arr : Nat) (i : Instr) (f : Group → Group) : State :=
  (atG i f).modUnit 1 fun u => { u with foot := 64, scr := List.replicate 64 0#8,
                                         bars := [⟨48, 0, 2, 0, [⟨2, arr, []⟩, ⟨2, 0, []⟩, ⟨2, 0, []⟩], 0, false⟩] }
theorem wit_bar_init : let i : Instr := .barInit ⟨10#6, 9#7, 0#2, 0#3⟩
    let s := (atG i (sets [(9, 48#32), (10, 255#32)])).modUnit 1 fun u => { u with foot := 64, scr := List.replicate 64 0#8 }
    let x := s.ix false
    Passes (some 3) false i s ∧ (s.units.find? x.g.unit).isSome = true ∧ x.g.scoreboard (scalarUses x [10, x.a 9#7] []) = none ∧
      (scalarVal s.issuing x.g 10 x.t).toNat = 255 ∧ (scalarVal s.issuing x.g (x.a 9#7) x.t).toNat + 16 ≤ (s.unit x.g.unit).foot ∧
      (s.unit x.g.unit).bar? 48 = none := by unfold Passes; decide +kernel
theorem wit_bar_arrive : let i : Instr := .barArrive ⟨11#6, 9#7, 2#3⟩
    let s := barred 1 i (sets [(9, 48#32)])
    let x := s.ix false
    Passes (some 3) false i s ∧ x.g.scoreboard (scalarUses x [x.a 9#7] [x.d 11#6]) = none ∧
      (scalarVal s.issuing x.g (x.a 9#7) x.t).toNat = 48 ∧ ((s.unit x.g.unit).bar? 48).map (·.phaseOf x.gid) = some (some 0) ∧
      x.g.storeDeps.all (· = 0) = true ∧ (s.unit x.g.unit).arrs = [] := by unfold Passes; decide +kernel
theorem wit_bar_drop : let i : Instr := .barDrop ⟨9#7, 0#3⟩
    let s := barred 0 i (sets [(9, 48#32)])
    let x := s.ix false
    Passes (some 3) false i s ∧ x.g.scoreboard (scalarUses x [x.a 9#7] []) = none ∧
      ((s.unit x.g.unit).bar? 48).map (·.phaseOf x.gid) = some (some 0) ∧ x.g.storeDeps.all (· = 0) = true := by
  unfold Passes; decide +kernel
theorem wit_bar_query : let i : Instr := .barQuery ⟨12#6, 9#7, 2#3⟩
    let s := barred 0 i (sets [(9, 48#32)])
    let x := s.ix false
    Passes none false i s ∧ x.g.scoreboard (scalarUses x [x.a 9#7] [x.d 12#6]) = none := by unfold Passes; decide +kernel
/-- A deferred arrival with nothing left before it, and what an arrival meets: the last of a phase, and an earlier one. -/
theorem wit_bar_effect : let s := (barred 1 (.nop ⟨0#3⟩) id).modUnit 1 fun u => { u with arrs := [⟨48, 0, 1, false, [0, 0, 0]⟩] }
    (s.unit 1).arrs = [⟨48, 0, 1, false, [0, 0, 0]⟩] ∧
      ((s.unit 1).bar? 48).map (·.ph) = some [⟨2, 1, []⟩, ⟨2, 0, []⟩, ⟨2, 0, []⟩] ∧
      (((barred 0 (.nop ⟨0#3⟩) id).unit 1).bar? 48).map (·.ph) = some [⟨2, 0, []⟩, ⟨2, 0, []⟩, ⟨2, 0, []⟩] := by decide +kernel
/-- A barrier at 48 of a base count, with arrivals and counts of its phases, that a drop meets. -/
def dropping (base : Nat) (ph : List Phase) : UnitSt :=
  { UnitSt.blank with foot := 64, scr := List.replicate 64 0#8, bars := [⟨48, 0, base, 0, ph, 0, false⟩] }
theorem wit_bar_drops (p : Nat × List Phase) : ((dropping p.1 p.2).bar? 48).map (fun b => (b.addr, b.base, b.ph, b.held, b.disarm)) =
    some (48, p.1, p.2, 0, false) := rfl
-- a drop of one of three: the base and the later counts fall (R190)
theorem test_bar_drops : ((dropping 3 [⟨3, 1, []⟩, ⟨3, 0, []⟩, ⟨3, 0, []⟩]).arriveAt 48 0 true).bars.map (fun b => (b.base, b.ph)) =
    [(2, [⟨3, 2, []⟩, ⟨2, 0, []⟩, ⟨2, 0, []⟩])] := by decide +kernel
-- the second of two arrivals completes the phase: K rises (R189)
theorem test_bar_arrive : goes (.barArrive ⟨11#6, 9#7, 2#3⟩) (barred 1 (.barArrive ⟨11#6, 9#7, 2#3⟩) (sets [(9, 48#32)]))
    (fun t => wAt (t.grp 1).sr 11 = 0x00030000#32 && ((t.unit 1).bars.map (·.k)) = [1]) = true := by decide +kernel
theorem test_bar_query : goes (.barQuery ⟨12#6, 9#7, 2#3⟩) (barred 1 (.barQuery ⟨12#6, 9#7, 2#3⟩) (sets [(9, 48#32)]))
    (fun t => wAt (t.grp 1).sr 12 = 0x01022000#32) = true := by decide +kernel

/-! ## Parks, fences, regroup (O27, O28, O29) -/

/-- Group 1 with one store in flight, about to run an instruction. -/
def waiting (i : Instr) (f : Group → Group) : State := paged (atG i fun g => f { g with ops := [opOf .w .store 0 (acc4 [1#8, 2#8, 3#8, 4#8])] })
theorem wit_waitc : let i : Instr := .parkWaitc ⟨12#7, 1#2, 0#3⟩
    let s := waiting i id
    let x := s.ix false
    (s.unit x.g.unit).foldedChain = false ∧ Passes none false i s ∧ x.g.scoreboard (scalarUses x [x.a 12#7] []) = none ∧
      (scalarVal s.issuing x.g (x.a 12#7) x.t).toNat < x.g.count (ctrOf 1#2) ∧
    PlainMeets i (fun x => [x.a 12#7]) (fun _ => []) (fun x s => x.g.count (ctrOf 1#2) ≤ (scalarVal s x.g (x.a 12#7) x.t).toNat)
      (waiting i (sets [(12, 1#32)])) := by unfold PlainMeets Passes; decide +kernel
theorem wit_bwait : let i : Instr := .parkBwait ⟨13#7, 0#3⟩
    let s := (engine aCopy).modGrp 1 fun g => sets [(13, 1#32)] { g with sealed := 1#32 }
    let x := s.ix false
    Passes none false i s ∧ x.g.scoreboard (scalarUses x [x.a 13#7] []) = none ∧ scalarVal s.issuing x.g (x.a 13#7) x.t ≠ 0#32 ∧
      (x.g.sealed - scalarVal s.issuing x.g (x.a 13#7) x.t).toNat < 2147483648 ∧
      s.issuing.batchDone x.gid (scalarVal s.issuing x.g (x.a 13#7) x.t) = false ∧
    PlainMeets i (fun x => [x.a 13#7]) (fun _ => []) (fun x s => scalarVal s x.g (x.a 13#7) x.t = 0#32) (at1 i) := by
  unfold PlainMeets Passes; decide +kernel
theorem wit_wbar : let i : Instr := .parkWbar ⟨11#7, 0#3⟩
    let s := barred 0 i (sets [(11, 0x00030000#32)])
    let x := s.ix false
    Passes none false i s ∧ x.g.scoreboard (scalarUses x [x.a 11#7] []) = none ∧ bits (scalarVal s.issuing x.g (x.a 11#7) x.t).toNat 3 13 = 0 ∧
      ((s.unit x.g.unit).bar? 48).map (fun b => (b.cls, b.k)) = some (0, 0) ∧
    PlainMeets i (fun x => [x.a 11#7]) (fun _ => []) (fun x s => bits (scalarVal s x.g (x.a 11#7) x.t).toNat 3 13 = 0 ∧
      (s.unit x.g.unit).phaseLeft ((scalarVal s x.g (x.a 11#7) x.t).toNat / 65536 * 16) (scalarVal s x.g (x.a 11#7) x.t) = true)
      (at1 i) := by unfold PlainMeets Passes; decide +kernel
/-- The word at 0x8000 read by a waitm, equal to the scalar and not. -/
theorem wit_waitm : let i : Instr := .parkWaitm ⟨12#6, 20#7, 1#2, 0#3⟩
    let s := paged (atG i (sets [(20, 0x8000#32)]))
    let x := s.ix false
    Passes (some 0) false i s ∧ x.g.scoreboard (scalarUses x [12, x.a 20#7, x.a 20#7 + 1] []) = none ∧
      (s.issuing.access (s.keyOf x.g) 0x8000 .read 0 x.g.core).2 = .ok 0x8000 0x8000 ∧ x.g.draft = none ∧ x.g.wordHeld 0x8000 4 = false ∧
      (s.issuing.access (s.keyOf x.g) 0x8000 .read 0 x.g.core).1.memWord 0x8000 = scalarVal s.issuing x.g 12 x.t ∧
      (s.issuing.access (s.keyOf x.g) 0x8000 .read 0 x.g.core).1.poisoned 0x8000 4 = false ∧
      Uncached (s.issuing.access (s.keyOf x.g) 0x8000 .read 0 x.g.core).1 0x100 := by unfold Passes Uncached; decide +kernel
theorem wit_yield : Passes none false (.parkYield ⟨0#3⟩) (at1 (.parkYield ⟨0#3⟩)) := by unfold Passes; decide +kernel
/-- A parked group whose wait is over, and one whose is not. -/
theorem wit_wake (t : Nat) : let s := waiting (.nop ⟨0#3⟩) fun g => { g with st := .parked, wait := some (0, .waitc .w t 0x10000004) }
    (s.groups.find? 1).isSome = true ∧ (s.grp 1).st = .parked ∧ (s.grp 1).wait = some (0, .waitc .w t 0x10000004) ∧ (s.grp 1).held = false ∧
      (s.unit (s.grp 1).unit).chain = none ∧ s.holds 1 (.waitc .w t 0x10000004) = decide (1 ≤ t) := by
  refine ⟨rfl, rfl, rfl, rfl, rfl, rfl⟩
theorem test_waitc : goes (.parkWaitc ⟨12#7, 1#2, 0#3⟩) (waiting (.parkWaitc ⟨12#7, 1#2, 0#3⟩) id)
    (fun t => (t.grp 1).st = .parked && (t.grp 1).wait == some (0, .waitc .w 0 0x10000004) && (t.grp 1).pc = 0x10000000) = true := by decide +kernel
theorem test_waitm : goes (.parkWaitm ⟨12#6, 20#7, 1#2, 0#3⟩) (paged (atG (.parkWaitm ⟨12#6, 20#7, 1#2, 0#3⟩) (sets [(12, 1#32), (20, 0x8000#32)])))
    (fun t => (t.grp 1).st = .parked && (t.grp 1).wait == some (5, .word 0x8000 1#32) && (t.grp 1).pc = 0x10000000) = true := by decide +kernel
theorem test_wbar : goes (.parkWbar ⟨11#7, 0#3⟩) (barred 0 (.parkWbar ⟨11#7, 0#3⟩) (sets [(11, 0x00030000#32)]))
    (fun t => (t.grp 1).st = .parked && (t.grp 1).wait == some (3, .barPhase 48 0x00030000#32)) = true := by decide +kernel

theorem wit_fence : let i : Instr := .fence ⟨2#3, 1#2, 0#3⟩
    let s := waiting i id
    Passes none false i s ∧ s.scopeDenied (s.keyOf (s.ix false).g / 65536) 2 = false ∧
      (fenceOf s.issuing (s.ix false).gid (s.ix false).g 1 2).spent = false := by unfold Passes; decide +kernel
/-- The die scope, which no policy grants after reset. -/
theorem wit_fence_denied : let i : Instr := .fence ⟨4#3, 1#2, 0#3⟩
    Passes none false i (paged (at1 i)) ∧ GroupRungOpen (paged (at1 i)).issuing 1 tblk ∧
      (paged (at1 i)).scopeDenied ((paged (at1 i)).keyOf ((paged (at1 i)).ix false).g / 65536) 4 = true :=
  ⟨by unfold Passes; decide +kernel, rungOpen (by unfold Plain; decide +kernel) (by decide +kernel), by decide +kernel⟩
theorem wit_fenced : let s := (waiting (.st ⟨3#6, 2#7, 3#5, 4#3, 0#3⟩) id).modGrp 1 fun g => { g with fences := [⟨3, 2, 0, 0, 1, 0, 0, []⟩] }
    (s.groups.find? s.cur).isSome = true ∧ (∃ r ∈ (s.ix false).g.fences, r.holds 0 = true) ∧ ∃ r ∈ (s.ix false).g.fences, r.holds 1 = true := by
  refine ⟨by decide +kernel, ⟨⟨3, 2, 0, 0, 1, 0, 0, []⟩, by decide +kernel, by decide⟩, ⟨⟨3, 2, 0, 0, 1, 0, 0, []⟩, by decide +kernel, by decide⟩⟩
/-- The last operation a fence waits for completes, and the bytes one waits for are written back. -/
theorem wit_fence_ends : let o := opOf .w .store 0 (done4 [] false)
    let s := (flying o).modGrp 1 fun g => { g with fences := [⟨1, 3, 0, 0, 1, 0, 0, []⟩] }
    let w := (warm 0xF#128 (at1 (.nop ⟨0#3⟩))).modGrp 1 fun g => { g with fences := [⟨1, 3, 0, 0, 0, 0, 0, [(0x100, 0xF#128)]⟩] }
    (CompletesMeets s o ∧ (s.grp 1).fences = [⟨1, 3, 0, 0, 1, 0, 0, []⟩] ∧ (⟨1, 3, 0, 0, 1, 0, 0, []⟩ : FenceRec).count o.ctr = 1) ∧
      NoLog w ∧ Memory.wf w.mem = true ∧ L1Ok w ∧ w.helped.contains 0x100 = false ∧ NoUpdates w 0x100 ∧ (w.l1At 0 0x100).dirty ≠ 0#128 ∧
      coreCl (w.grp 1).core = 0 / 4 :=
  ⟨by unfold CompletesMeets; decide +kernel, noLog (by decide +kernel), by decide +kernel, L1Ok_one rfl (by unfold L1Line.ok; decide +kernel),
    by decide +kernel, by unfold NoUpdates; decide +kernel, by decide +kernel, by decide +kernel⟩
theorem test_fence : goes (.fence ⟨2#3, 1#2, 0#3⟩) (waiting (.fence ⟨2#3, 1#2, 0#3⟩) id)
    (fun t => (t.grp 1).fences.length = 1 && (t.grp 1).pc = 0x10000004) = true := by decide +kernel

/-- Groups 1 and 2 of one unit, gix 0 and 1; group 1 about to run regroup on the other. -/
def pair2 (f : Group → Group) : State :=
  let s := atG (.regroup ⟨15#6, 14#7, 2#3⟩) fun g => sets [(0, 0xFFFF#32), (14, 1#32)] { g with gpb := 2 }
  s.setGrp 2 (f (sets [(0, 0xFF#32)] { s.grp 1 with gix := 1 }))
def RegroupMeets (f : Group → Group) : Prop :=
  Passes none false (.regroup ⟨15#6, 14#7, 2#3⟩) (pair2 f) ∧
    ((pair2 f).ix false).g.scoreboard (scalarUses ((pair2 f).ix false) (((pair2 f).ix false).a 14#7 :: List.range 1) [15]) = none ∧
    keysRise (pair2 f).groups = true ∧ (∀ q ∈ (pair2 f).groups, q.2.unit = 1 → (q.2.gix = 1 ↔ q.1 = 2)) ∧
    ((pair2 f).grp 2).unit = 1 ∧ ((pair2 f).ix false).g.ops = [] ∧ 1 < ((pair2 f).ix false).g.gpb
/-- The other has exited, runs, waits for another, or waits for this group with lanes to give or with a divergence entry here. -/
theorem wit_regroup : RegroupMeets (fun g => { g with st := .exited }) ∧ RegroupMeets id ∧
    RegroupMeets (fun g => { g with st := .parked, wait := some (0xD, .partner 5 15 0x10000004 2 []) }) ∧
    RegroupMeets (fun g => { g with st := .parked, wait := some (0xD, .partner 0 15 0x10000004 2 [0xFF#32]) }) ∧
    (posOf [0xFF#32] 1 true).length ≤ (posOf [0xFFFF#32] 1 false).length := by unfold RegroupMeets Passes; decide +kernel
/-- Of two groups that meet, more lanes to move than are free; and mapped vector registers to move. -/
theorem wit_regroup_fuse : let i : Instr := .regroup ⟨15#6, 14#7, 2#3⟩
    let parked := fun (g : Group) => { g with st := .parked, wait := some (0xD, .partner 0 15 0x10000004 2 [0xFF#32]) }
    let s := (pair2 parked).modGrp 1 (sets [(0, 0xFFFFFFFF#32)])
    let t := (pair2 fun g => parked (setv 5 (fun _ => 9#32) g)).modGrp 1 (setv 5 fun _ => 8#32)
    Passes none false i s ∧ (posOf [0xFFFFFFFF#32] 1 false).length < (posOf [0xFF#32] 1 true).length ∧ Passes none false i t ∧
      (t.grp 1).vr = [(15, .mapped ((List.range 32).map fun _ => 8#32) 0)] ∧ (t.grp 2).vr = [(15, .mapped ((List.range 32).map fun _ => 9#32) 0)] ∧
      (t.grp 1).stk = [] ∧ (t.grp 2).stk = [] ∧ (t.grp 2).regs = (t.grp 1).regs ∧ (t.grp 2).beats = (t.grp 1).beats ∧
      t.entriesUsed (t.grp 1).core + 3 * (t.grp 1).regs ≤ Config.coreEntries := by unfold Passes; decide +kernel
theorem test_regroup : goes (.regroup ⟨15#6, 14#7, 2#3⟩)
    (pair2 fun g => { g with st := .parked, wait := some (0xD, .partner 0 15 0x10000004 2 [0xFF#32]) })
    (fun t => wAt (t.grp 1).sr 0 = 0xFFFFFF#32 && wAt (t.grp 1).sr 15 = 1#32 && wAt (t.grp 2).sr 0 = 0#32 && wAt (t.grp 2).sr 15 = 2#32) = true := by
  decide +kernel

/-! ## Chains and streams (O30) -/

/-- As paged, with context 0 in partition 0 of quarter-die 0 and a save pool of 16 frames at 0x100000 (R358, R378, R385). -/
def homed (s : State) : State :=
  let s := paged s
  let m := (s.mem.store 0x3010 (leBytes 8 1)).store 0x6030 (leBytes 8 0x100000 ++ leBytes 4 16)
  { s with mem := m, dev := { s.dev with partTbl := [(0, 0x8000#32)] } }
/-- Unit 1 a chain of two stages on core 0, in the form and with the pending switch asked for; its group parks at the fix point. -/
def linked (folded pending : Bool) (setting : Nat) (i : Instr) : State :=
  homed ((atG i fun g => { g with st := .parked, wait := some (7, .portItem 0) }).modUnit 1 fun x =>
    { x with chain := some ⟨folded, setting, pending, 0, 0, [⟨0, 0, 0, 1, 0, [], 0, 0#32, 0#32, 0, 0, [], false⟩]⟩ })
/-- The words of a record: entry 0x10000000, 64 registers, one group of one beat, class 1, one block (R152). -/
def rec1 : List Word := [0x10000000#32, 0x20040000#32, 0x10000#32, 1#32, 1#32, 1#32, 0#32, 0#32, 0x80000000#32, 0#32, 0#32, 0x20000000#32,
  0#32, 64#32, 16#32, 1#32] ++ List.replicate 16 0#32

/-- Whether an outcome is a next state of which p holds. -/
def nextOf {α : Type} (o : Out α) (p : α → Bool) : Bool :=
  match o with
  | .next t => p t
  | _ => false
theorem next_dec {α : Type} {o : Out α} {P : α → Prop} [DecidablePred P] (h : nextOf o (fun t => decide (P t)) = true) :
    ∃ t, o = .next t ∧ P t := by
  cases o with
  | next t => exact ⟨t, rfl, of_decide_eq_true h⟩
  | _ => exact absurd h (by simp [nextOf])
theorem tbl_all {α : Type} {d : α} {q : α → Bool} (hd : q d = true) : ∀ {l : Tbl α}, (l.all fun p => q p.2) = true → ∀ k, q (Tbl.getD l k d) = true
  | [], _, _ => hd
  | (j, x) :: t, h, k => by
    have h := Bool.and_eq_true _ _ ▸ (show (q x && t.all fun p => q p.2) = true from h)
    unfold Tbl.getD Tbl.find?
    split
    · exact h.1
    · exact tbl_all hd h.2 k
/-- No page is logged where every VF listed has its log off. -/
theorem noLog_all {s : State} (h : (s.vfs.all fun p => !p.2.dlog.getLsbD 0) = true) : NoLog s := fun v => by
  have := tbl_all (d := VfSt.init) (q := fun x => !x.dlog.getLsbD 0) rfl h v
  unfold State.vf
  simpa using this

theorem wit_chain_fix (p : Bool) : let s := chained false (at1 (.chainFix ⟨0#3⟩))
    let t := s.modUnit 1 fun x => { x with chain := x.chain.map fun c => { c with pending := p } }
    let c : ChainSt := ⟨false, 0, p, 0, 0, [⟨0, 0, 0, 1, 0, [], 0, 0#32, 0#32, 0, 0, [], false⟩]⟩
    (t.unit (t.ix false).g.unit).chain = some c ∧ (t.units.find? (t.ix false).g.unit).isSome = true ∧ Passes none false (.chainFix ⟨0#3⟩) t := by
  cases p <;> (unfold Passes; decide +kernel)
theorem wit_chain_form : let i : Instr := .chainForm ⟨9#7, 0#3⟩
    let s := chained false (atG i (sets [(9, 2#32)]))
    let x := s.ix false
    (s.unit x.g.unit).chain.isSome = true ∧ Passes none false i s ∧ x.g.scoreboard (scalarUses x [x.a 9#7] []) = none ∧
      (scalarVal s.issuing x.g (x.a 9#7) x.t).toNat = 2 := by unfold Passes; decide +kernel
theorem wit_chain_query : let i : Instr := .chainQuery ⟨9#6, 0#3⟩
    let s := chained false (at1 i)
    Passes none false i s ∧ (s.ix false).g.scoreboard (scalarUses (s.ix false) [] [9]) = none := by unfold Passes; decide +kernel
/-- A spread chain with setting 2; a folded one whose reservation does not fit; a spread one at its fix point. -/
theorem wit_chain_switch : let n : Instr := .nop ⟨0#3⟩
    let s := linked false false 2 n
    let big := (linked true true 0 n).setWork 1 { (linked true true 0 n).work 1 with words := rec1.set 2 0x24001#32 }
    let f := linked false true 0 n
    let d : ChainSt := ⟨true, 0, false, 0, 0, [⟨0, 0, 0, 1, 0, [], 0, 0#32, 0#32, 0, 0, [], false⟩]⟩
    s.ctxPart (s.work (s.unit 1).work).vf (s.work (s.unit 1).work).ctx = some 0 ∧ (s.unit 1).chain.map (·.setting) = some 2 ∧
    (big.ctxPart (big.work (big.unit 1).work).vf (big.work (big.unit 1).work).ctx = some 0 ∧ big.unitHere 1 = true ∧
      (big.unit 1).chain.map (big.fixPoint 1) = some true ∧ (big.without 1).spreadOn 0 (big.work (big.unit 1).work) = none) ∧
    (f.ctxPart (f.work (f.unit 1).work).vf (f.work (f.unit 1).work).ctx = some 0 ∧ f.unitHere 1 = true ∧
      (f.unit 1).chain.map (f.fixPoint 1) = some true ∧ (f.unit 1).cores.contains 0 = true ∧
      (f.without 1).roomAt 0 (f.work (f.unit 1).work) 0 1 (f.work (f.unit 1).work).foot = true ∧
      ∃ s1, f.restUnit 1 = .next s1 ∧ s1.quiet 1 = true ∧ (s1.switchForm 1 d [0]).2 = true ∧ (s1.units.find? 1).isSome = true) :=
  ⟨by decide +kernel, by decide +kernel, by decide +kernel, by decide +kernel, by decide +kernel, by decide +kernel, by decide +kernel,
    by decide +kernel, next_dec (by decide +kernel)⟩
/-- The stage that goes on after a fold waits at the fix point for the switch. -/
theorem wit_fold_resume : let s0 := linked false true 0 (.nop ⟨0#3⟩)
    let f := s0.modGrp 1 fun g => { g with wait := some (0xE, .formSwitch 0x10000004) }
    let c : ChainSt := ⟨false, 0, true, 0, 0, [⟨0, 0, 0, 1, 0, [], 0, 0#32, 0#32, 0, 0, [], false⟩]⟩
    let d : ChainSt := { c with folded := true, pending := false, run := c.resumeAt }
    (f.unit 1).chain = some c ∧ f.unitHere 1 = true ∧ f.fixPoint 1 c = true ∧ (f.leaving 1 d [0]).all (fun j => (f.core j).fwd.length < 16) = true ∧
      ∃ s1, f.restUnit 1 = .next s1 ∧ (s1.quiet 1 = true ∧ (s1.switchForm 1 d [0]).2 = true ∧ keysRise s1.groups = true ∧
        (s1.grp 1).stage = c.resumeAt ∧ (s1.grp 1).st = .parked ∧ (s1.grp 1).wait = some (0xE, .formSwitch 0x10000004) ∧ (s1.grp 1).held = false ∧
        (s1.groupsOf 1).map (·.1) = [1]) :=
  ⟨by decide +kernel, by decide +kernel, by decide +kernel, by decide +kernel, next_dec (by decide +kernel)⟩
/-- A stream of words at 0x8000, four bytes from lane to lane. -/
def streaming (kind : Nat) (items : List Item) : State :=
  (homed (at1 (.nop ⟨0#3⟩))).modUnit 1 fun x =>
    { x with chain := some ⟨true, 0, false, 0, 0, [⟨kind, 0, 0, 1, 0, items, 0x8000, 4#32, 128#32, 3, 1, [], false⟩]⟩ }
theorem wit_stream_load : let s := { streaming 1 [] with mem := (streaming 1 []).mem.store 0x8080 [1#8] }
    let l : Link := ⟨1, 0, 0, 1, 0, [], 0x8000, 4#32, 128#32, 3, 1, [], false⟩
    let m := s.mapAll 0 0 .read 6 ((List.range 32).map l.addr)
    s.unitHere 1 = true ∧ m.fail = none ∧ m.s.l1 = [] ∧ m.s.poison = [] ∧
      ∀ i, i < 32 → l.addr i % 4 = 0 ∧ windowPa (m.at (l.addr i)).1 = false := by decide +kernel
theorem wit_stream_store : let s := streaming 2 [⟨[(List.range 32).map fun l => BitVec.ofNat 32 l], [1#32 <<< 5]⟩]
    let l : Link := ⟨2, 0, 0, 1, 0, [⟨[(List.range 32).map fun l => BitVec.ofNat 32 l], [1#32 <<< 5]⟩], 0x8000, 4#32, 128#32, 3, 1, [], false⟩
    let m := s.mapAll 0 0 .write 6 [l.addr 5]
    s.unitHere 1 = true ∧ m.fail = none ∧ windowPa (m.at (l.addr 5)).1 = false ∧ m.s.helped = [] ∧ m.s.l1 = [] ∧ NoLog m.s ∧
      (streaming 2 [⟨[], []⟩]).unitHere 1 = true :=
  ⟨by decide +kernel, by decide +kernel, by decide +kernel, by decide +kernel, by decide +kernel,
    noLog_all (by decide +kernel), by decide +kernel⟩
/-- A store stream of a chain whose stages have all exited, with an item left. -/
theorem wit_stream_after : let s := ((streaming 2 [⟨[], []⟩]).modUnit 1 fun u => { u with done := true })
    (s.unit 1).done = true ∧ s.moves (s.work (s.unit 1).work) = true ∧ (s.units.find? 1).isSome = true := by decide +kernel
theorem test_chain_form : goes (.chainForm ⟨9#7, 0#3⟩) (chained false (atG (.chainForm ⟨9#7, 0#3⟩) (sets [(9, 2#32)])))
    (fun t => (t.unit 1).chain.map (fun c => (c.setting, c.pending)) == some (2, true)) = true := by decide +kernel
theorem test_stream_load : goes (.streamLoadItem 1 0) { streaming 1 [] with mem := (streaming 1 []).mem.store 0x8084 [1#8, 2#8] }
    (fun t => ((t.unit 1).chain.map fun c => c.links.map fun l => (l.next, l.items.map fun i => (i.vals.getD 0 []).take 2)) ==
      some [(2, [[0#32, 0x201#32]])]) = true := by decide +kernel
theorem test_stream_store : goes (.streamStoreItem 1 0) (streaming 2 [⟨[(List.range 32).map fun l => BitVec.ofNat 32 l], [1#32 <<< 5]⟩])
    (fun t => t.mem.read 0x8094 = 5#8 && t.mem.read 0x8090 = 0#8) = true := by decide +kernel

/-! ## Work and its scheduling (O31-O36) -/

theorem wit_launch : let i : Instr := .launch ⟨9#6, 20#7, 0#3⟩
    let s := atG i (sets [(20, 0x9000#32)])
    let full := s.setCore 0 { CoreSt.init with launchQ := [7, 8, 9, 10] }
    let x := s.ix false
    x.g.scoreboard (scalarUses x [x.a 20#7, x.a 20#7 + 1] [9]) = none ∧ x.g.draft = none ∧
      pair48 (scalarVal s.issuing x.g (x.a 20#7) x.t) (scalarVal s.issuing x.g (x.a 20#7 + 1) x.t) % 128 = 0 ∧
      Passes (some 3) false i s ∧ (s.core x.g.core).launchQ.length < 4 ∧ Passes (some 3) false i full ∧
      4 ≤ (full.core (full.ix false).g.core).launchQ.length ∧ (full.unit (full.ix false).g.unit).foldedChain = false := by
  unfold Passes; decide +kernel
theorem wit_spawn : let i : Instr := .spawn ⟨9#6, 20#7, 0#3⟩
    let s := atG i (sets [(20, 0x9000#32)])
    let x := s.ix false
    Passes (some 3) false i s ∧ x.g.scoreboard (scalarUses x [x.a 20#7, x.a 20#7 + 1] [9]) = none ∧ x.g.depth < 4 ∧
      (s.cluster (coreCl x.g.core)).taskQ.length < Config.taskMax := by unfold Passes; decide +kernel
-- the first serial number of a context is 1 (DESIGN CHOICE, log 5)
theorem test_launch : goes (.launch ⟨9#6, 20#7, 0#3⟩) (atG (.launch ⟨9#6, 20#7, 0#3⟩) (sets [(20, 0x9000#32)]))
    (fun t => (t.core 0).launchQ = [2] && (t.work 2).addr = 0x9000 && wAt (t.grp 1).sr 9 = 1#32) = true := by decide +kernel
theorem test_spawn : goes (.spawn ⟨9#6, 20#7, 0#3⟩) (atG (.spawn ⟨9#6, 20#7, 0#3⟩) (sets [(20, 0x9000#32)]))
    (fun t => (t.cluster 0).taskQ = [2] && (t.work 2).depth = 1 && (t.grp 1).pc = 0x10000004) = true := by decide +kernel

/-- Work 2, launched by a group of core 0, with its record at 0x9000, not yet checked. -/
def recorded (r : List Word) : State :=
  let s := homed (at1 (.nop ⟨0#3⟩))
  ({ s with mem := s.mem.store 0x9000 (r.flatMap fun (w : Word) => leBytes 4 w.toNat) }.setWork 2
    { Work.blank with src := .launch 0, addr := 0x9000, phase := .queued }).setCore 0 { CoreSt.init with launchQ := [2] }
/-- Whether a check accepts. -/
def RecCheck.accepts : State × RecCheck → Bool
  | (_, .ok w) => w.regs = 64
  | _ => false
theorem wit_record_check : (recorded rec1).checkable 2 = true ∧
    ∃ s1 w1, (recorded rec1).checkRecord ((recorded rec1).work 2) = (s1, .ok w1) := by
  refine ⟨by decide +kernel, ?_⟩
  have h : RecCheck.accepts ((recorded rec1).checkRecord ((recorded rec1).work 2)) = true := by decide +kernel
  revert h
  generalize State.checkRecord _ _ = q
  obtain ⟨s1, r⟩ := q
  cases r with
  | ok w => exact fun _ => ⟨s1, w, rfl⟩
  | _ => exact fun h => absurd h (by simp [RecCheck.accepts])
/-- A record of no registers is refused. -/
theorem wit_record_refused : let s := recorded (rec1.set 1 0x40000#32)
    let w := s.work 2
    s.checkable 2 = true ∧ s.ctxPart w.vf w.ctx = some 0 ∧ w.fatal = false ∧ w.addr % 128 = 0 ∧ w.src = .launch 0 ∧
      ∃ r, (s.recWords w w.addr 32).2 = .ok r ∧ Work.recordOk { w with words := r } = false :=
  ⟨by decide +kernel, by decide +kernel, by decide +kernel, by decide +kernel, by decide +kernel, ok_dec (by decide +kernel)⟩
/-- Work 1, its block exited, with a completion word at 0x8000. -/
def finished : State := (homed ((at1 (.nop ⟨0#3⟩)).modGrp 1 fun g => { g with st := .exited })).setWork 1
  { Work.blank with phase := .accepted, next := 1, live := 0, words := (rec1.set 9 0x8000#32) }
def trOk : State × Tr → Bool
  | (s, .ok pa _) => !windowPa pa && s.helped.isEmpty && s.l1.isEmpty && s.vfs.all fun p => !p.2.dlog.getLsbD 0
  | _ => false
theorem tr_ok {q : State × Tr} (h : trOk q = true) : ∃ s1 pa vfa, q = (s1, .ok pa vfa) ∧ windowPa pa = false ∧ s1.helped = [] ∧ s1.l1 = [] ∧
    NoLog s1 := by
  obtain ⟨s, r⟩ := q
  cases r with
  | ok pa v =>
    simp only [trOk, Bool.and_eq_true, Bool.not_eq_true', List.isEmpty_iff] at h
    exact ⟨s, pa, v, rfl, h.1.1.1, h.1.1.2, h.1.2, noLog_all h.2⟩
  | _ => exact absurd h (by simp [trOk])
theorem wit_completion : let s := finished
    let w := s.work 1
    (w.phase = .accepted ∧ w.total ≤ w.next ∧ w.live = 0 ∧ (∀ p ∈ s.units, p.2.work = 1 → p.2.drained = true) ∧ w.keys = [] ∧
      w.fatal = false ∧ w.ccnt ≠ 0 ∧ s.l1 = [] ∧ s.helped = []) ∧ NoLog s ∧
    ∃ s1 pa vfa, s.translate w.vf w.ctx w.ccnt .write 9 (s.workCl w) none (coreCid (s.workCl w * 4)) = (s1, .ok pa vfa) ∧ windowPa pa = false ∧
      s1.helped = [] ∧ s1.l1 = [] ∧ NoLog s1 :=
  ⟨by decide +kernel, noLog_all (by decide +kernel), tr_ok (by decide +kernel)⟩
theorem test_completion : goes (.workCompletionWord 1) finished (fun t => t.mem.read 0x8000 = 1#8 && (t.work 1).phase = .complete) = true := by
  decide +kernel

/-- Work 2 accepted, with a block to place on core 1. -/
def toPlace (r : List Word) (src : WSrc) : State :=
  (homed (at1 (.nop ⟨0#3⟩))).setWork 2 { Work.blank with phase := .accepted, words := r, src := src }
theorem wit_place : let s := toPlace rec1 (.launch 0)
    let w := s.work 2
    s.placeable 2 = some 0 ∧ w.chn = false ∧ w.pair = false ∧ w.drf = false ∧ w.handler = false ∧ w.isTask = false ∧ w.cls ≠ 0 ∧
      s.roomAt 0 w 1 w.gpb w.foot = true ∧ (State.pinWindows (ctxKey w.vf w.ctx) 1 w (w.nextWindows 1 0) s).2.isSome = true := by decide +kernel
theorem wit_task_place : let s := (toPlace (rec1.set 15 0x101#32) (.task 0)).setCluster 0 { ClusterSt.init with taskQ := [2] }
    let w := s.work 2
    s.placeable 2 = some 0 ∧ w.chn = false ∧ w.pair = false ∧ w.drf = false ∧ w.handler = false ∧ coreCl 1 = 0 ∧
      (s.cluster 0).taskQ.contains 2 = true ∧ s.roomAt 0 w 1 1 w.foot = true ∧
      s.entriesUsed 1 + s.asideOn 1 + w.regs * w.beats ≤ Config.coreEntries ∧ s.taskSlot w = some 0 ∧ w.gpb = 1 ∧
      (State.pinWindows (ctxKey w.vf w.ctx) 1 w (w.nextWindows 1 0) s).2.isSome = true := by decide +kernel
theorem test_place : goes (.blockPlace (.block 2 1)) (toPlace (rec1.set 2 0x10004#32) (.launch 0))
    (fun t => (t.unit 2).foot = 64 && (t.grp 2).core = 1 && (t.grp 2).pc = 0x10000000 && (t.grp 2).st = .pending &&
      wAt (t.grp 2).sr 0 = 0xFFFFFFFF#32 && wAt (t.grp 2).sr 3 = 0#32) = true := by decide +kernel

/-- Core 0 with eight active groups of unit 1, and group 9 pending. -/
def crowd : State :=
  let s := at1 (.nop ⟨0#3⟩)
  let s := (List.range 8).foldl (fun s i => s.setGrp (i + 1) { s.grp 1 with gix := i, st := .active, entered := i }) s
  (s.setGrp 9 { s.grp 1 with gix := 8, st := .pending, readySince := 5, nextIssue := 0 }).setCore 0 { CoreSt.init with cycle := 2053 }
theorem wit_enter : let s := (atG (.nop ⟨0#3⟩) fun g => { g with st := .pending, readySince := 0 })
    keysRise s.groups = true ∧ (s.contenders 0 = [(1, s.grp 1)]) ∧ (s.actives 0).length < Config.activeMax ∧ (s.grp 1).st = .pending ∧
      (s.grp 1).readySince ≤ (s.core 0).cycle := by decide +kernel
theorem wit_displace : keysRise crowd.groups = true ∧ Config.activeMax ≤ (crowd.actives 0).length ∧
    crowd.nextIn 0 = some (9, crowd.grp 9) ∧ (crowd.grp 9).readySince + 2048 ≤ (crowd.core 0).cycle ∧
    (1, crowd.grp 1) ∈ crowd.actives 0 ∧ ∀ r ∈ crowd.actives 0, r ≠ (1, crowd.grp 1) → (crowd.grp 1).entered < r.2.entered ∧
    (crowd.grp 1).midUnit = false := by
  decide +kernel
theorem wit_boost : let s := crowd
    s.groups.find? 9 = some (s.grp 9) ∧ (s.grp 9).st = .pending ∧ (s.grp 9).boost < 3 ∧
      (s.grp 9).boostAt + 256 ≤ (s.core (s.grp 9).core).cycle := by decide +kernel
theorem test_displace : goes (.displace 0) crowd (fun t => (t.grp 1).st = .pending && (t.grp 9).st = .active && (t.grp 2).st = .active) = true := by
  decide +kernel

/-- Unit 1 of a class with quantum begun at 0, on a core whose clock is at t; other work of a class and priority waits. -/
def ruled (cls t : Nat) (other : Word) (f : Group → Group) : State :=
  let s := (homed (atG (.nop ⟨0#3⟩) f)).setWork 1 { Work.blank with phase := .accepted, next := 1, live := 1, words := rec1.set 2 (toW (cls * 65536)) }
  (s.setWork 2 { Work.blank with phase := .accepted, words := rec1.set 2 other }).setCore 0 { CoreSt.init with cycle := t }
/-- Whether a unit comes to rest and is saved. -/
def savedOk (s : State) (u : Nat) : Bool :=
  match s.restUnit u with
  | .next s1 =>
    match s1.saveUnit u true with
    | (_, .ok) => s1.quiet u
    | _ => false
  | _ => false
theorem saved_ok {s : State} {u : Nat} (h : savedOk s u = true) :
    ∃ s1 s2, s.restUnit u = .next s1 ∧ s1.quiet u = true ∧ s1.saveUnit u true = (s2, .ok) := by
  unfold savedOk at h
  split at h
  · rename_i s1 e
    split at h
    · rename_i s2 e2
      exact ⟨s1, s2, e, h, e2⟩
    · exact absurd h (by simp)
  · exact absurd h (by simp)
theorem wit_quantum (b : Bool) : let s := ruled 1 1700000 (if b then 0x10000#32 else 0x20000#32) id
    let w := s.work 1
    s.unitHere 1 = true ∧ w.chn = false ∧ w.cls = 1 ∧ (s.unit 1).quantum + 1700000 ≤ (s.core ((s.unit 1).cores.headD 0)).cycle ∧
      s.waitsFor w (fun c p => c = 1 && w.prio ≤ p) = b := by cases b <;> decide +kernel
theorem wit_w_save : let s := ruled 2 0 0x10000#32 id
    s.unitHere 1 = true ∧ (s.work 1).cls = 2 ∧ s.waitsFor (s.work 1) (fun c _ => c != 2) = true := by decide +kernel
theorem wit_gang_save : let s := ruled 0 0 0x50000#32 id
    s.unitHere 1 = true ∧ (s.work 1).cls = 0 ∧ (s.units.filter fun p => p.2.work = (s.unit 1).work && !p.2.done).map (·.1) = [1] ∧
      (s.unit 1).chain = none ∧ (s.work 1).next = (s.work 1).total ∧ s.waitsFor (s.work 1) (fun _ p => (s.work 1).prio < p) = true := by
  decide +kernel
theorem wit_swap_out : let s := ruled 1 0 0x10000#32 fun g => { g with st := .parked, wait := some (5, .word 0x8000 1#32) }
    s.unitHere 1 = true ∧ s.gangOf 1 = [1] ∧ s.allParked 1 (s.work 1).cls = true ∧ (s.unit 1).chain = none ∧
      s.waitsFor (s.work 1) (fun _ _ => true) = true := by decide +kernel
theorem wit_save : ∃ s1 s2, (ruled 1 1700000 0x10000#32 id).restUnit 1 = .next s1 ∧ s1.quiet 1 = true ∧ s1.saveUnit 1 true = (s2, .ok) :=
  saved_ok (by decide +kernel)
/-- Group 1 parked since cycle 0 with a limit of 64 cycles for its class. -/
def starving : State :=
  let s := ruled 2 64 0x10000#32 fun g => { g with st := .parked, wait := some (5, .word 0x8000 1#32), gst := 0x80000000#32 }
  s.setPart 0 { s.part 0 with starve := toW (6 * 262144) }
theorem wit_starve : let s := starving
    let x := s.grp 1
    (s.groups.find? 1 = some x ∧ x.st = .parked ∧ x.wait = some (5, .word 0x8000 1#32) ∧ x.held = false ∧
      s.starveLimit (s.partOf x) (gstCls x.gst) = some 64 ∧ 64 ≤ s.starved x ∧ s.holds 1 (.word 0x8000 1#32) = false) ∧
    s.frozen (s.keyOf x) 0 = false ∧ s.unitAway x.unit = false ∧ (s.unit x.unit).chain = none ∧ x.draft = none ∧
      (s.workOf x).src = .host ∧ x.rung ≠ 2 ∧ s.saving (s.keyOf x) = false ∧ s.stuckSave x.unit = false ∧ (s.units.find? x.unit).isSome = true := by
  decide +kernel
theorem test_starve : goes (.starveTimerExpiry 1) starving (fun t => (t.grp 1).held &&
    (t.unit 1).btraps = [(some 1, ⟨0x0A, 5#32, 0x10000000, 1, false⟩)]) = true := by decide +kernel
theorem wit_migrate : let s := ruled 1 0 0x10000#32 id
    let x := s.unit 1
    let w := s.work x.work
    s.ctxPart w.vf w.ctx = some 0 ∧ s.unitHere 1 = true ∧ x.chain = none ∧ (∀ c ∈ x.cores, c ∉ w.spanOf 5) ∧
      (s.core (x.cores.headD 0)).fwd.length < 16 ∧ s.roomAt 0 w 5 (s.liveGroups 1).length x.foot = true ∧
      ∃ s1, s.restUnit 1 = .next s1 ∧ s1.quiet 1 = true ∧ (s1.moveUnit 1 5).2 = true :=
  ⟨by decide +kernel, by decide +kernel, by decide +kernel, by decide +kernel, by decide +kernel, by decide +kernel,
    next_dec (by decide +kernel)⟩
theorem wit_migrate_groups : ∃ s1, (ruled 1 0 0x10000#32 (setv 8 fun _ => 9#32)).restUnit 1 = .next s1 ∧
    (keysRise s1.groups = true ∧ ((s1.liveGroups 1).map (·.1)) = [1] ∧ keysRise (s1.grp 1).vr = true) := next_dec (by decide +kernel)
theorem test_migrate : goes (.migrateUnit 1 5) (ruled 1 0 0x10000#32 (setv 8 fun _ => 9#32)) (fun t => (t.grp 1).core = 5 && (t.core 0).fwd = [1] &&
    lane t 8 3 = 9#32) = true := by decide +kernel

/-! ## Sequences (O37, O38) -/

theorem wit_sq : ∀ p ∈ ([(.sqLd, 0), (.sqSt, 1), (.sqMark, 2), (.sqBack, 3), (.sqFork, 4), (.sqDrop, 5), (.sqInfo, 6)] : List ((FD → Instr) × Nat)),
    let s := (atG (p.1 ⟨9#6, 20#7, 0#3⟩) (sets [(20, 0x1005#32)])).modUnit 1 fun u => { u with foot := 64, scr := List.replicate 64 0#8 }
    let x := s.ix false
    let q := (List.range 4).map fun i => scalarVal s.issuing x.g (x.a 20#7 + i) x.t
    Passes (some 2) false (p.1 ⟨9#6, 20#7, 0#3⟩) s ∧ x.g.scoreboard (scalarUses x ((List.range 4).map fun i => x.a 20#7 + i) [9]) = none ∧
      x.g.sqReq = none ∧ sqBad p.2 q = none ∧ x.g.draft = none ∧ (wAt q 2).toNat = 0 ∧ (s.unit x.g.unit).barIn? 0 64 = none ∧
      (s.unit x.g.unit).claimed 0 64 = false ∧ (s.unit x.g.unit).foot = 64 := by unfold Passes; decide +kernel
/-- A sequence of one layer of one-page states, position 6 in set 3, waypoint 4 in set 2 (R293). -/
def seq1 : SqSeq := ⟨0, 1, [⟨6#32, 3, [(4#32, 2)]⟩]⟩
/-- Group 1 with a request sent, in a machine whose die 0 holds a sequence in slot 5; its unit has 4,096 bytes of scratch. -/
def asking (q : SqSeq) (r : SqReq) : State :=
  let s := homed ((atG (.sqLd ⟨9#6, 20#7, 0#3⟩) fun g => { g with sqReq := some r }).modUnit 1 fun u => { u with foot := 4096, scr := [1#8, 2#8] ++ List.replicate 62 0#8 })
  { s with mem := s.mem.store 0x3020 (leBytes 4 16) }.setDie 0 { s.die 0 with
    seqs := [(5, q)], pool := 1, sets := [(2, ⟨0, 1, [7#8, 8#8], false⟩), (3, ⟨0, 1, [9#8, 0#8], false⟩)] }
def req (form : Nat) (q : List Word) : SqReq := ⟨form, 9, q, 0⟩
def AskMeets (s : State) (r : SqReq) : Prop :=
  (s.groups.find? 1).isSome = true ∧ (s.grp 1).sqReq = some r ∧ (s.grp 1).chain = [] ∧ s.frozen (s.keyOf (s.grp 1)) 4 = false ∧
    s.frozen (s.keyOf (s.grp 1)) 0 = false ∧ s.unitAway (s.grp 1).unit = false ∧ (s.grp 1).held = false
theorem wit_sq_stale : let r := req 5 [0x2005#32, 0#32, 0#32, 0#32]
    AskMeets (asking seq1 r) r ∧ (asking seq1 r).seqOf 0x2005#32 = none := by unfold AskMeets; decide +kernel
theorem freeSlot_spec {s : State} {die : Nat} (h : (List.range 4096).any (fun k => decide ((s.die die).seqs.find? k = none)) = true) :
    ∃ k, s.freeSlot die = some k ∧ (s.die die).seqs.find? k = none := by
  obtain ⟨j, hj, hn⟩ := List.any_eq_true.1 h
  unfold State.freeSlot
  have hm := List.mem_filter (p := fun k => decide ((s.die die).seqs.find? k = none)) |>.2 ⟨hj, hn⟩
  generalize hf : (List.range 4096).filter (fun k => decide ((s.die die).seqs.find? k = none)) = fs at hm ⊢
  have hall : ∀ x ∈ fs, (s.die die).seqs.find? x = none := fun x hx => by
    rw [← hf] at hx
    exact of_decide_eq_true (List.mem_filter.1 hx).2
  have hne : fs ≠ [] := List.ne_nil_of_mem hm
  have hl : (Config.freeWord (s.free * 65536 + 65528)).toNat % fs.length < fs.length :=
    Nat.mod_lt _ (List.length_pos_iff.2 hne)
  refine ⟨fs[(Config.freeWord (s.free * 65536 + 65528)).toNat % fs.length], ?_, ?_⟩
  · simp [hne, List.getD_eq_getElem?_getD, List.getElem?_eq_getElem hl]
  · exact hall _ (List.getElem_mem hl)
theorem wit_sq_create : let r := req 4 [0#32, 0x100#32, 0#32, 0#32]
    AskMeets (asking seq1 r) r ∧ ∃ k, (asking seq1 r).freeSlot (coreDie ((asking seq1 r).grp 1).core) = some k :=
  ⟨by unfold AskMeets; decide +kernel, (freeSlot_spec (List.any_eq_true.2 ⟨0, List.mem_range.2 (by omega), by decide +kernel⟩)).imp fun _ h => h.1⟩
/-- Requests on the sequence in slot 5: drop, mark, back to 4, info at 0, ld at 0, st of position 1 of a sequence without a state. -/
theorem wit_sq_live : (∀ r ∈ [req 5 [0x1005#32], req 2 [0x1005#32], req 3 [0x1005#32, 0#32, 4#32], req 6 [0x1005#32], req 0 [0x1005#32],
      req 4 [0x1005#32, 0#32, 4#32]],
    let s := asking seq1 r
    AskMeets s r ∧ s.seqOf 0x1005#32 = some seq1 ∧ seq1.key = s.keyOf (s.grp 1) ∧ s.storing 0 5 [0] = false ∧
      (s.unit 1).barIn? 0 64 = none ∧ (s.units.find? 1).isSome = true ∧ (s.unit 1).foot = 4096 ∧ (s.unit 1).claimed 0 4096 = false ∧
      (s.die 0).sets.find? 3 = some ⟨0, 1, [9#8, 0#8], false⟩ ∧ (s.die 0).sets.find? 2 = some ⟨0, 1, [7#8, 8#8], false⟩) ∧
    hDie 0x1005#32 = 0 ∧ hSlot 0x1005#32 = 5 ∧ hGen 0x1005#32 = 1 := by
  refine ⟨?_, rfl, rfl, rfl⟩
  unfold AskMeets
  decide +kernel
theorem wit_sq_fork : ∃ k, (asking seq1 (req 4 [0x1005#32, 0#32, 4#32])).freeSlot 0 = some k ∧ k ≠ 5 := by
  obtain ⟨k, h, hn⟩ := freeSlot_spec (s := asking seq1 (req 4 [0x1005#32, 0#32, 4#32])) (die := 0)
    (List.any_eq_true.2 ⟨0, List.mem_range.2 (by omega), by decide +kernel⟩)
  refine ⟨k, h, ?_⟩
  rintro rfl
  exact absurd hn (by decide +kernel)
theorem wit_sq_store : let r := req 1 [0x1005#32, 0#32, 0#32, 1#32]
    let s := asking ⟨0, 1, [⟨0#32, 0, []⟩]⟩ r
    AskMeets s r ∧ s.seqOf 0x1005#32 = some ⟨0, 1, [⟨0#32, 0, []⟩]⟩ ∧ s.storing 0 5 [0] = false ∧ s.pagesFit 0 0 1 = true := by
  unfold AskMeets; decide +kernel
/-- The transfer of an sq.ld of set 2 to 0, and of an sq.st from 0 to set 3. -/
def moving (kind : Nat) : State :=
  { asking seq1 (req 5 []) with copies := [(1, ⟨kind, 0, 1, 0, some 1, [(0, 0)], kind, 0, 2, 0, 0, [], 0, none, [], 0#32, false, none,
      [0, 5, 0, if kind = 1 then 2 else 3], false⟩)] }
theorem wit_transfer : let a := moving 1
    let b := moving 2
    (a.copies.map fun c => (c.2.kind, c.2.sq, c.2.fin, c.2.failed)) = [(1, [0, 5, 0, 2], false, none)] ∧ a.unitAway 1 = false ∧
      a.frozen 0 4 = false ∧ (a.units.find? 1).isSome = true ∧ (a.die 0).sets.find? 2 = some ⟨0, 1, [7#8, 8#8], false⟩ ∧
      (a.unit 1).barIn? 0 2 = none ∧ (b.die 0).sets.find? 3 = some ⟨0, 1, [9#8, 0#8], false⟩ ∧ 3 ∈ (b.die 0).seqs.flatMap (fun q => q.2.sets) ∧
      b.copies.any (fun e => e.1 < 1 && e.2.kind = 1 && !e.2.fin && e.2.sq.getD 0 8 = 0 && e.2.sq.getD 3 0 = 3) = false := by decide +kernel
-- mark of position 6: the ring holds 4 and 6; info: position, layer, page and ring counts (R302)
theorem test_sq_mark : goes (.sqEngineRequest 1) (asking seq1 (req 2 [0x1005#32, 0#32, 0#32, 0#32])) (fun t => wAt (t.grp 1).sr 9 = 0#32 &&
    ((t.die 0).seqs.map fun q => q.2.layers.map (·.ring)) = [[[(4#32, 2), (6#32, 3)]]]) = true := by decide +kernel
theorem test_sq_info : goes (.sqEngineRequest 1) (asking seq1 (req 6 [0x1005#32, 0#32, 0#32, 0#32])) (fun t =>
    (t.unit 1).scr.take 12 = [6#8, 0#8, 0#8, 0#8, 1#8, 0#8, 0#8, 0#8, 4#8, 0#8, 0#8, 0#8]) = true := by decide +kernel
-- every byte of a transfer that is left moved, as the last of its steps does (R303)
theorem test_sq_ld : (((moving 1).sqMove 1 true).unit 1).scr.take 2 = [7#8, 8#8] ∧ ((moving 1).sqMove 1 true).copies.isEmpty = true := by
  decide +kernel

/-! ## The helm (O39-O42) -/

/-- The helm of context 0 on cluster 0, bound to unit 1 (4,096 bytes of scratch), about to run a word with some registers. -/
def steered (i : Instr) (l : List (Nat × Word)) (f : HelmSt → HelmSt) : State :=
  let s := homed ((at1 (.nop ⟨0#3⟩)).modUnit 1 fun u => { u with foot := 4096, scr := List.replicate 4096 0#8 })
  let s := s.setCluster 0 { ClusterSt.init with serve := some 0 }
  let h := f { HelmSt.init with run := .running, bind := some 1, pc := 5 }
  { s.setHelm 0 0 { h with h := l.foldl (fun r p => r.set p.1 p.2) h.h } with iw := encodeWord i, curCl := 0 }
/-- One word of each scalar and control form can run. -/
theorem wit_helm_runs : ∀ i ∈ ([.hadd ⟨3#5, 4#5, 0#5, 1#1, 0x7FF#11⟩, .hsub ⟨3#5, 4#5, 5#5, 0#1, 0#11⟩, .hshl ⟨3#5, 4#5, 0#5, 1#1, 4#11⟩,
      .hand ⟨3#5, 4#5, 5#5, 0#1, 0#11⟩, .hmovi ⟨3#5, 7#21⟩, .hmoviHi ⟨3#5, 7#16⟩, .hbr ⟨9#12⟩, .hbrnz ⟨4#5, 9#12⟩, .hloop ⟨4#5, 9#12⟩,
      .hcall ⟨9#12⟩, .hret, .hnop, .helmReservedMajor] : List Instr), HelmRuns i 0 (steered i [] id) := by
  unfold HelmRuns
  decide +kernel
theorem wit_helm_stack : let s := steered .hret [] fun h => { h with stack := [7] }
    let t := steered (.hcall ⟨9#12⟩) [] fun h => { h with stack := List.replicate 8 7 }
    (HelmRuns .hret 0 s ∧ (s.helm 0 s.curCl).stack = [7]) ∧ (HelmRuns (.hcall ⟨9#12⟩) 0 t ∧ 8 ≤ (t.helm 0 t.curCl).stack.length) := by
  unfold HelmRuns; decide +kernel
theorem test_hadd : goes (.hadd ⟨3#5, 4#5, 0#5, 1#1, 0x7FF#11⟩) (steered (.hadd ⟨3#5, 4#5, 0#5, 1#1, 0x7FF#11⟩) [(4, 9#32)] id)
    (fun t => wAt (t.helm 0 0).h 3 = 8#32 && (t.helm 0 0).pc = 6) = true := by decide +kernel
theorem test_hloop : goes (.hloop ⟨4#5, 9#12⟩) (steered (.hloop ⟨4#5, 9#12⟩) [(4, 2#32)] id)
    (fun t => wAt (t.helm 0 0).h 4 = 1#32 && (t.helm 0 0).pc = 9) = true := by decide +kernel
theorem test_hcall : goes (.hcall ⟨9#12⟩) (steered (.hcall ⟨9#12⟩) [] id) (fun t => (t.helm 0 0).stack = [6] && (t.helm 0 0).pc = 9) = true := by
  decide +kernel

theorem wit_mpost (full : Bool) : let i : Instr := .mpost ⟨9#6, 20#7, 0#3⟩
    let s := (atG i (sets [(20, 0x40000003#32)])).setCluster 0 { ClusterSt.init with fifo := if full then List.replicate Config.fifoMax ⟨[], 0, 1, 1, true, [], 0⟩ else [] }
    let x := s.ix false
    let q := (List.range 4).map fun i => scalarVal s.issuing x.g (x.a 20#7 + i) x.t
    Passes (some 3) false i s ∧ x.g.scoreboard (scalarUses x ((List.range 4).map fun i => x.a 20#7 + i) [9]) = none ∧ reqBad q = false ∧
      x.g.draft = none ∧ decide ((s.cluster 0).fifo.length < Config.fifoMax) = !full := by
  cases full <;> (unfold Passes; decide +kernel)
/-- A halted helm of context 0 with a request that is visible. -/
def requested (r : Req) (serve : Option Nat) : State :=
  let s := steered .hnop [] fun h => { h with run := .halted }
  s.setCluster 0 { s.cluster 0 with serve := serve, fifo := [r] }
theorem wit_visible : (requested ⟨[], 0, 1, 1, false, [0, 0], 0⟩ none).clusters.map (fun c => c.2.fifo.map fun r => (r.deps.all (· = 0), r.vis)) =
    [[(true, false)]] := by decide +kernel
theorem wit_start : let r : Req := ⟨[0x40000003#32, 1#32, 2#32, 3#32], 0, 1, 1, true, [], 0⟩
    let s := requested r (some 0)
    (s.cleanFifo 0).servable 0 = some (0, r) ∧ (s.cluster 0).serve = some r.key ∧ r.kind = 1 := by decide +kernel
theorem wit_load : let r : Req := ⟨[0x80001003#32, 0x8000#32, 0#32, 0#32], 0, 1, 1, true, [], 0⟩
    let s := requested r (some 0)
    (s.cleanFifo 0).servable 0 = some (0, r) ∧ (s.cluster 0).serve = some r.key ∧ r.kind = 2 ∧ (s.helm r.key 0).run = .halted ∧ r.got = 0 ∧
      bits (wAt r.q 0).toNat 12 13 = 1 ∧
      ((s.cleanFifo 0).access r.key (pair48 (wAt r.q 1) (wAt r.q 2) % 281474976710656) .read 5 0).2 = .ok 0x8000 0x8000 ∧
      ((s.cleanFifo 0).access r.key (pair48 (wAt r.q 1) (wAt r.q 2) % 281474976710656) .read 5 0).1.l1 = [] ∧
      ((s.cleanFifo 0).access r.key (pair48 (wAt r.q 1) (wAt r.q 2) % 281474976710656) .read 5 0).1.poison = [] := by decide +kernel
/-- A helm that takes up context 0 from another, its bank kept or put away, and one whose context was never saved. -/
theorem wit_switch : let r : Req := ⟨[0x40000003#32, 1#32, 2#32, 3#32], 0, 1, 1, true, [], 0⟩
    let s := requested r none
    let t := (s.setHelm 7 0 { HelmSt.init with run := .halted }).setHelm 9 0 { HelmSt.init with run := .waiting (.mpop 4) }
    let b := t.setCluster 0 { t.cluster 0 with serve := some 9, banks := [9, 7] }
    (s.cleanFifo 0).nextServe 0 = some 0 ∧ (s.cluster 0).serve = none ∧ ((s.cleanFifo 0).cluster 0).bankVictim 0 = none ∧
      (((s.cleanFifo 0).ctx 0).frames.all fun f => f.2 != helmOwner 0) = true ∧
      ((b.cleanFifo 0).nextServe 0 = some 0 ∧ ((b.cleanFifo 0).cluster 0).serve = some 9 ∧
        ((b.cleanFifo 0).helm 9 0).run = .waiting (.mpop 4) ∧ ((b.cleanFifo 0).cluster 0).bankVictim 0 = some 7 ∧
        ((b.cleanFifo 0).helm 7 0).tiles = [] ∧
        ((((b.cleanFifo 0).helmLeave 9 0).bankOut 7 0).getHelm 0 0).2 = true) := by decide +kernel
/-- Of mpop: no request, a message in its turn, and a message behind an earlier request of another context. -/
theorem wit_mpop : let i : Instr := .mpop ⟨4#5⟩
    let s := steered i [] id
    let r : Req := ⟨[3#32, 1#32, 2#32, 3#32], 0, 1, 1, true, [], 0⟩
    let q : Req := ⟨[0x40000003#32, 1#32, 2#32, 3#32], 7, 1, 1, true, [], 0⟩
    let waits := fun (s : State) => (s.cleanFifo 0).setHelm 0 0 { s.helm 0 0 with run := .waiting (.mpop 4) }
    let t := s.setCluster 0 { s.cluster 0 with fifo := [r] }
    let t2 := { s with works := s.works, groups := s.groups }.setCluster 0 { s.cluster 0 with fifo := [q, r] }
    (HelmRuns i 0 s ∧ (s.cleanFifo s.curCl).oldestReq s.curCl 0 = none) ∧
      (HelmRuns i 0 t ∧ (t.cleanFifo t.curCl).oldestReq t.curCl 0 = some (0, r) ∧ r.kind = 0 ∧ r.vis = true ∧
        (waits t).servable 0 = some (0, r)) ∧
      (HelmRuns i 0 t2 ∧ (t2.cleanFifo t2.curCl).oldestReq t2.curCl 0 = some (1, r) ∧ (waits t2).servable 0 = some (0, q)) := by
  unfold HelmRuns; decide +kernel
/-- The context's oldest request is a start: mpop halts the program. -/
theorem wit_mpop_halts : let i : Instr := .mpop ⟨4#5⟩
    let s := steered i [] id
    let r : Req := ⟨[0x40000003#32, 1#32, 2#32, 3#32], 0, 1, 1, true, [], 0⟩
    let t := s.setCluster 0 { s.cluster 0 with fifo := [r] }
    HelmRuns i 0 t ∧ (t.cleanFifo 0).oldestReq 0 0 = some (0, r) ∧ (t.helm 0 0).tiles = [] ∧ (t.helm 0 0).defers = [] ∧
      t.helmCopies 0 0 = [] ∧ t.helmFailed 0 0 = none := by unfold HelmRuns; decide +kernel
theorem test_helm_start : goes (.helmStartRequest 0) (requested ⟨[0x40000003#32, 1#32, 2#32, 3#32], 0, 1, 1, true, [], 0⟩ (some 0))
    (fun t => (t.helm 0 0).pc = 3 && wAt (t.helm 0 0).h 2 = 2#32 && (t.helm 0 0).run == .running) = true := by decide +kernel
theorem test_mpop : goes (.mpop ⟨4#5⟩)
    ((steered (.mpop ⟨4#5⟩) [] id).setCluster 0 { ClusterSt.init with serve := some 0, fifo := [⟨[3#32, 1#32, 2#32, 3#32], 0, 1, 1, true, [], 0⟩] })
    (fun t => wAt (t.helm 0 0).h 4 = 3#32 && wAt (t.helm 0 0).h 7 = 3#32 && (t.cluster 0).fifo = []) = true := by decide +kernel

/-- The bound unit with a barrier of two participants at 48; a helm copy in the engine; a tile operation queued. -/
def withBar (s : State) : State :=
  s.modUnit 1 fun u => { u with bars := [⟨48, 0, 2, 0, [⟨2, 0, []⟩, ⟨2, 0, []⟩, ⟨2, 0, []⟩], 0, false⟩] }
def withCopy (s : State) : State := { s with copies := [(1, { aCopy with gid := none, batch := 0#32 })] }
theorem wit_mwbar : let i : Instr := .mwbar ⟨4#5⟩
    let s := withBar (steered i [(4, 0x00030000#32)] id)
    (HelmRuns i 0 s ∧ bits 0x00030000 3 13 = 0 ∧ (s.unit 1).phaseLeft (0x00030000 / 65536 * 16) 0x00030000#32 = false ∧
      (s.helm 0 0).run = .running) ∧
    (s.unit 1).phaseLeft (0x00030007 / 65536 * 16) 0x00030007#32 = true ∧
    (let t := withBar (steered i [(4, 0x00030000#32)] fun h => { h with run := .waiting (.mwbar 0x00030000#32 none) })
     HelmRuns i 0 t ∧ (t.helm 0 0).run = .waiting (.mwbar 0x00030000#32 none)) := by unfold HelmRuns; decide +kernel
theorem wit_mcwait (b : Bool) : let i : Instr := .mcwait ⟨4#5⟩
    let s := (if b then withCopy else id) (steered i [] id)
    HelmRuns i 0 s ∧ (s.helmCopies 0 s.curCl).length = (if b then 1 else 0) ∧ s.helmFailed 0 s.curCl = none := by
  cases b <;> (unfold HelmRuns; decide +kernel)
theorem wit_mfence (b : Bool) : ∀ i ∈ ([.mfence, .hhalt] : List Instr),
    let s := (if b then withCopy else id) (steered i [] id)
    HelmRuns i 0 s ∧ (s.helm 0 s.curCl).tiles = [] ∧ (s.helm 0 s.curCl).defers = [] ∧ decide (s.helmCopies 0 s.curCl = []) = !b ∧
      s.helmFailed 0 s.curCl = none := by cases b <;> (unfold HelmRuns; decide +kernel)
theorem wit_marrive : let i : Instr := .marrive ⟨4#5⟩
    let s := withBar (steered i [(4, 48#32)] id)
    HelmRuns i 0 s ∧ (wAt (s.helm 0 0).h 4).toNat = 48 ∧ (s.unit 1).foot = 4096 ∧ ((s.unit 1).bar? 48).isSome = true := by
  unfold HelmRuns; decide +kernel
theorem wit_mdone : let i : Instr := .mdone ⟨4#5⟩
    HelmRuns i 0 (steered i [(4, 0x8000#32)] id) ∧ pair48 (wAt ((steered i [(4, 0x8000#32)] id).helm 0 0).h 4) (wAt ((steered i [(4, 0x8000#32)] id).helm 0 0).h 5) % 4 = 0 := by
  unfold HelmRuns; decide +kernel
/-- A descriptor at scratch 64: one row of 16 bytes from 0x8000 to 112. -/
def described : State :=
  (steered (.mcopy ⟨4#5⟩) [(4, 64#32)] id).modUnit 1 fun u => u.scrWrite 64 (([0x8000#32, 0x10000#32, 112#32, 0x10000#32, 0#32, 0#32, 0x40000000#32, 0#32] :
    List Word).flatMap fun w => leBytes 4 w.toNat)
theorem wit_mcopy : let s := described
    let v := leWords ((s.unit 1).scrRead 64 32) 8
    HelmRuns (.mcopy ⟨4#5⟩) 0 s ∧ cpyCheck v 4096 = none ∧ wAt v 7 = 0#32 ∧ ctlDir (wAt v 6) = 1 ∧
      (s.unit 1).rowClaimed (cpyRows v) (rowOut (ctlPl (wAt v 6)) (hi16 (wAt v 3) * 16)) = false ∧ s.copiesIn 0 < Config.copyMax ∧
      (s.helmCopies 0 0).length < 63 := by unfold HelmRuns; decide +kernel
theorem wit_defers : let s := withBar (steered .hnop [] fun h => { h with defers := [⟨false, 1, 48, [], [], 5, []⟩] })
    let t := steered .hnop [] fun h => { h with defers := [⟨true, 1, 0x8000, [], [], 5, []⟩] }
    (s.deferReady 0 false).isSome = true ∧ (t.deferReady 0 true).map (·.1) = some 0 ∧
      (t.access 0 0x8000 .write 5 0).2 = .ok 0x8000 0x8000 ∧ (t.access 0 0x8000 .write 5 0).1.l1 = [] ∧
      (t.access 0 0x8000 .write 5 0).1.helped = [] ∧ NoLog (t.access 0 0x8000 .write 5 0).1 :=
  ⟨by decide +kernel, by decide +kernel, by decide +kernel, by decide +kernel, by decide +kernel, noLog_all (by decide +kernel)⟩
/-- An addition of mdone in the fabric window, of a partition that may not send. -/
theorem wit_defer_window : let t := steered .hnop [] fun h => { h with defers := [⟨true, 1, 0x9000, [], [], 5, []⟩] }
    let s := { t.setVf 0 { t.vf 0 with pol := 0xF#32 } with tlb := [⟨0, 0, 0, 9, 1, 0x4050000000000 / 4096, 9, true, true, true, true⟩] }
    (s.deferReady 0 true).map (·.1) = some 0 ∧ (s.access 0 0x9000 .write 5 0).2 = .ok 0x4050000000000 0x9000 ∧ windowPa 0x4050000000000 = true ∧
      (s.access 0 0x9000 .write 5 0).1.sends 0 = false := by decide +kernel
/-- A helm that has waited in mwbar since cycle 0. -/
def stuck : State :=
  let s := steered .hnop [] fun h => { h with run := .waiting (.mwbar 0x00030000#32 (some 0)) }
  s.setCluster 0 { s.cluster 0 with hcycle := 1073741824 }
theorem wit_mwbar_starve : (stuck.cluster 0).serve = some 0 ∧ (stuck.helm 0 0).run = .waiting (.mwbar 0x00030000#32 (some 0)) ∧
    (stuck.helm 0 0).bind = some 1 ∧ 0 + 1073741824 ≤ (stuck.cluster 0).hcycle ∧ stuck.frozen 0 1 = false ∧
    (stuck.units.find? 1).isSome = true := by decide +kernel
theorem test_mcopy : goes (.mcopy ⟨4#5⟩) described (fun t => (t.copies.map fun c => (c.2.rows, c.2.dir, c.2.len)) = [([(0x8000, 112)], 1, 16)]) = true := by
  decide +kernel
theorem test_mdone_effect : goes (.mdoneEffect 0) (steered .hnop [] fun h => { h with defers := [⟨true, 1, 0x8000, [], [], 5, []⟩] })
    (fun t => t.mem.read 0x8000 = 1#8 && (t.helm 0 0).defers = []) = true := by decide +kernel
theorem test_mwbar_starve : goes (.helmMwbarStarve 0) stuck (fun t => (t.unit 1).btraps.map (fun b => (b.1, b.2.cause, b.2.pc)) = [(none, 0x0A, 5)]) = true := by
  decide +kernel

/-- Tile words that can be queued: rows and vectors within a footprint of 262,144 bytes. -/
def tiled (i : Instr) (l : List (Nat × Word)) : State := (steered i l id).modUnit 1 fun u => { u with foot := 262144 }
theorem wit_tiles : ∀ i ∈ ([.mzero ⟨1#2⟩, .mload ⟨1#2, 4#5, 5#5, 0#2⟩, .mstore ⟨1#2, 4#5, 5#5, 1#2⟩, .mplane ⟨1#2, 4#5, 6#5, 5#5, 5#5, 1#1, 3#3⟩,
      .mexp ⟨1#2, 4#5⟩, .mscale ⟨1#2, 4#5⟩, .mrmax ⟨1#2, 4#5⟩, .mrsum ⟨1#2, 4#5⟩, .mexpVdiff ⟨4#5, 6#5⟩, .mexpRcp ⟨4#5⟩,
      .mrmaxKeep ⟨1#2, 4#5, 6#5⟩, .mrsumDecay ⟨1#2, 4#5, 6#5⟩] : List Instr),
    HelmRuns i 0 (tiled i [(4, 64#32), (5, 256#32), (6, 0x8000#32)]) := by unfold HelmRuns; decide +kernel
theorem wit_tile_regions : let s := tiled (.mzero ⟨1#2⟩) [(4, 64#32), (5, 256#32), (6, 0x8000#32)]
    regionFault (s.unit 1) 262144 [⟨rows64 64#32 256#32, 256, true⟩, ⟨rows64 0x8000#32 256#32, 2, true⟩, ⟨[64], 256, true⟩,
      ⟨[0x8000], 256, true⟩] = none ∧ s.pendingStx 1 0 262144 = false := by decide +kernel
/-- Headers at 0x40 (A: i8 at 0, scales at 0x3000) and 0x60 (B: one plane at 0x4000, scales at 0x3400) for K of 32. -/
def headA : List Word := [0#32, 16#32, 0#32, 0x3000#32, 1#32, 5#32, 0#32, 0#32]
def headB : List Word := [0x4000#32, 16#32, 0#32, 0x3400#32, 1#32, 1#32, 0#32, 0#32]
def headed : State :=
  let b := (headA ++ headB).flatMap fun (w : Word) => leBytes 4 w.toNat
  (tiled (.mma ⟨1#2, 4#5, 5#5, 6#5, 7#5⟩) [(4, 0x40#32), (5, 0x60#32), (6, 32#32)]).modUnit 1 fun u => u.scrWrite 0x40 b
theorem wit_mma_headers : leWords ((headed.unit 1).scrRead 0x40 32) 8 = headA ∧ leWords ((headed.unit 1).scrRead 0x60 32) 8 = headB := by
  decide +kernel
theorem wit_mma : HelmRuns (.mma ⟨1#2, 4#5, 5#5, 6#5, 7#5⟩) 0 headed ∧ hdMis headA true = false ∧ hdMis headB false = false ∧ hdFmt headA = 5 ∧
    hdSp headA = false ∧ hdFmt headB = 1 ∧ hdRsv headA = false ∧ hdRsv headB = false ∧ (wAt headB 6).toNat % 4 = 0 ∧
    regionFault (headed.unit 1) 262144 (mmaRegions 0x40#32 0x60#32 headA headB 0 32) = none := by unfold HelmRuns; decide +kernel
/-- A tile operation at the head of the helm's queue. -/
def tiling (i : Instr) : State :=
  (steered .hnop [] fun h => { h with tiles := [⟨1, 5, encodeWord i, 64#32, 512#32, 0#32, 0#32, 0, 0, 0, [], none⟩], nextTile := 1 }).modUnit 1 fun u =>
    { u with claims := [⟨64, 320, 1, 0⟩] }
theorem wit_tile_complete : ∀ i ∈ ([.mzero ⟨1#2⟩, .mload ⟨1#2, 4#5, 5#5, 0#2⟩, .mexp ⟨1#2, 4#5⟩, .mscale ⟨1#2, 4#5⟩, .mma ⟨1#2, 4#5, 5#5, 6#5, 7#5⟩,
      .mexpRcp ⟨4#5⟩, .mexpVdiff ⟨4#5, 6#5⟩, .mrmax ⟨1#2, 4#5⟩, .mrsum ⟨1#2, 4#5⟩, .mrsumDecay ⟨1#2, 4#5, 6#5⟩] : List Instr),
    let s := tiling i
    ((s.tileHead 0).map fun p => (p.1, p.2.tiles)) = some (0, [⟨1, 5, encodeWord i, 64#32, 512#32, 0#32, 0#32, 0, 0, 0, [], none⟩]) ∧
      s.unitAway 1 = false ∧ (s.unit 1).bars = [] ∧ (s.units.find? 1).isSome = true ∧ 64 + 256 ≤ (s.unit 1).scr.length ∧
      okOf (decodeHelm (encodeWord i)) (fun j => j = i) = true := by decide +kernel
/-- As tiling, with room for 64 rows at 64: the rows of mstore 128 apart, those of mplane at 64 and its scales at 4,160. -/
def tilingRows (i : Instr) (b c e : Word) : State :=
  (steered .hnop [] fun h => { h with tiles := [⟨1, 5, encodeWord i, 64#32, b, c, e, 0, 0, 0, [], none⟩], nextTile := 1 }).modUnit 1 fun u =>
    { u with scr := List.replicate 8256 0#8 }
theorem wit_tile_rows : let i : Instr := .mstore ⟨1#2, 4#5, 5#5, 1#2⟩
    let j : Instr := .mplane ⟨1#2, 4#5, 5#5, 6#5, 7#5, 0#1, 1#3⟩
    let k : Instr := .mrmaxKeep ⟨1#2, 4#5, 5#5⟩
    let row := fun (a b : Word) (i : Nat) => (a + toW i * b).toNat
    let z := planeRow ⟨1#2, 4#5, 5#5, 6#5, 7#5, 0#1, 1#3⟩
    (okOf (decodeHelm (encodeWord i)) (fun n => n = i) = true ∧ ((tilingRows i 128#32 0#32 0#32).unit 1).scr.length = 8256 ∧
      (∀ n, n < 64 → row 64#32 128#32 n + 128 ≤ 8256)) ∧
    (okOf (decodeHelm (encodeWord j)) (fun n => n = j) = true ∧ (∀ n, n < 64 → row 64#32 64#32 n + z ≤ 8256 ∧ row 4160#32 2#32 n + 2 ≤ 8256) ∧
      z ≤ 64) ∧
    okOf (decodeHelm (encodeWord k)) (fun n => n = k) = true ∧ ((tilingRows k 512#32 0#32 0#32).tileHead 0).isSome = true ∧
      ((tilingRows j 4160#32 64#32 2#32).tileHead 0).isSome = true ∧ 64 + 256 ≤ 512 ∧ 512 + 256 ≤ 8256 := by decide +kernel
-- 1 / 2 in every element
theorem test_mexp_rcp : goes (.tileOpComplete 0) ((tiling (.mexpRcp ⟨4#5⟩)).modUnit 1 fun u => u.scrWrite 64 [0#8, 0#8, 0#8, 0x40#8])
    (fun t => (t.unit 1).scrRead 64 4 == [0#8, 0#8, 0#8, 0x3F#8] && (t.unit 1).claims == [] && (t.helm 0 0).tiles.isEmpty) = true := by decide +kernel

/-! ## Notices, drafts, errors (O43, O44) -/

/-- Group 1, owner number 9, about to run a notice instruction on the line at 0x8000 with its record at 0x8100. -/
def noticing (i : Instr) : State := homed (atG i fun g => sets [(6, 0x8000#32), (20, 0x8100#32)] { g with owner := 9 })
/-- The line at 0x8000 helped, nseq 4, of context 0, val 5, slot 1 in a state with operation 0, sequence 3 and owner 9. -/
def lineOf (st : Nat) (pay : Nat) (s : State) : State :=
  { s with helped := [0x100], mem := s.mem.store 0x8000 (leBytes 8 5 ++ leBytes 4 4 ++ leBytes 4 0x80000000 ++
      leBytes 8 pay ++ leBytes 4 3 ++ leBytes 4 (9 + st * 1073741824)) }
/-- What a notice instruction meets as it starts; a plain line for npost and nread, the helped one for ndone. -/
def StartMeets (i : Instr) (s : State) (reads : IX → List Nat) (writes : List Nat) : Prop :=
  let x := s.ix false
  let s1 := (s.issuing.access 0 0x8000 .readWrite 2 x.g.core).1
  Passes (some 2) false i s ∧ (s.grp s.cur).notice = none ∧ x.g.scoreboard (scalarUses x (reads x) writes) = none ∧ x.g.draft = none ∧
    s.keyOf x.g = 0 ∧ (s.issuing.access 0 0x8000 .readWrite 2 x.g.core).2 = .ok 0x8000 0x8000 ∧ s1.foreign 0x100 0 = false ∧
    x.g.count .g < 63 ∧ (noticeRelease s1 x.gid x.g).spent = true ∧ x.g.fences = [] ∧ s1.l1 = [] ∧ s1.poison = [] ∧ Memory.wf s1.mem = true ∧
    (s1.vfs.all fun p => !p.2.dlog.getLsbD 0) = true
theorem wit_npost : StartMeets (.npost ⟨9#6, 20#7, 3#5, 0#3⟩) (noticing (.npost ⟨9#6, 20#7, 3#5, 0#3⟩))
    (fun x => pairRegs 3#5 ++ [x.a 20#7, x.a 20#7 + 1]) [9] := by unfold StartMeets Passes; decide +kernel
theorem wit_nread : StartMeets (.nread ⟨8#6, 3#5, 0#3⟩) (noticing (.nread ⟨8#6, 3#5, 0#3⟩)) (fun _ => pairRegs 3#5) [8, 9] := by
  unfold StartMeets Passes; decide +kernel
theorem wit_ndone : let i : Instr := .ndone ⟨8#6, 12#7, 3#5, 0#3⟩
    let s := (lineOf 2 7 (noticing i)).modGrp 1 (sets [(12, 3#32)])
    let s1 := (s.issuing.access 0 0x8000 .readWrite 2 0).1
    StartMeets i s (fun x => pairRegs 3#5 ++ [x.a 12#7]) [8, 9] ∧ s1.helped.contains 0x100 = true ∧
      (∃ p ∈ s1.mem.slots 0x100, (p.2.st = 1 ∨ p.2.st = 2) ∧ p.2.seq = 3#32 ∧ p.2.own = 9) := by
  unfold StartMeets Passes; decide +kernel
/-- A group whose notice instruction has taken its snapshot. -/
def noted (form : Nat) (todo : List (Nat × Word × Nat)) (s : State) : State :=
  s.modGrp 1 fun g => { g with notice := some ⟨form, 0x8000, 0x8000, 0x100, 9, 0, 3#32, 0x8100, true, todo⟩ }
theorem wit_nread_end : let s := noted 2 [] (noticing (.nread ⟨8#6, 3#5, 0#3⟩))
    (s.groups.find? s.cur).isSome = true ∧ (s.grp s.cur).notice.map (fun n => (n.snap, n.form, n.todo)) = some (true, 2, []) ∧
      (s.grp s.cur).chain = [] ∧ s.l1 = [] ∧ s.poison = [] := by decide +kernel
/-- The earliest POSTED slot, and a stale notice. -/
theorem wit_commit (q : Bool) : let s := noted 2 [(1, if q then 3#32 else 2#32, 0x8100)] (lineOf 1 0x8100 (noticing (.nop ⟨0#3⟩)))
    (s.noticeOf 1).isSome = true ∧ (s.groups.find? 1).isSome = true ∧
      ∃ b, (s.recordRead (s.grp 1) 0x8100 16).2 = .ok b ∧
        let s1 := (s.recordRead (s.grp 1) 0x8100 16).1
        let p := s1.mem.slot 0x100 1
        s1.l1 = [] ∧ s1.poison = [] ∧ (s1.vfs.all fun p => !p.2.dlog.getLsbD 0) = true ∧ Memory.wf s1.mem = true ∧
        s1.helped.contains 0x100 = true ∧ p.st = 1 ∧ p.seq = 3#32 ∧ (s1.mem.posted 0x100).head?.map (·.1) = some 1 := by
  cases q <;> exact ⟨by decide +kernel, by decide +kernel, ok_dec (by decide +kernel)⟩
/-- A line with free slots, and one whose slots are all POSTED. -/
def fullLine (s : State) : State :=
  { lineOf 1 0x8100 s with mem := (lineOf 1 0x8100 s).mem.store 0x8020 ((List.range 6).flatMap fun i => leBytes 8 0 ++ leBytes 4 (i + 4) ++ leBytes 4 0x40000009) }
theorem wit_claim_slot (full : Bool) : let s := noted 0 [] ((if full then fullLine else lineOf 1 0x8100) (noticing (.nop ⟨0#3⟩)))
    (s.noticeOf 1).isSome = true ∧ (s.grp 1).owner < 16777216 ∧ (s.grp 1).chain = [] ∧
      ∃ b, (s.recordRead (s.grp 1) 0x811C 4).2 = .ok b ∧
        let s1 := (s.recordRead (s.grp 1) 0x811C 4).1
        (leWord b).toNat < 10 ∧ s1.l1 = [] ∧ s1.poison = [] ∧ Memory.wf s1.mem = true ∧ s1.helped.contains 0x100 = true ∧
        (s1.vfs.all fun p => !p.2.dlog.getLsbD 0) = true ∧ s1.mem.hCtx 0x100 = s.keyOf (s.grp 1) % 65536 ∧
        s1.claimSlot 0 0x100 = (if full then none else some 2) := by
  cases full <;> exact ⟨by decide +kernel, by decide +kernel, by decide +kernel, ok_dec (by decide +kernel)⟩
/-- An nread of another group stands between its snapshot and its read of the line. -/
theorem wit_claim_waits : let s := noted 0 [] (lineOf 1 0x8100 (noticing (.nop ⟨0#3⟩)))
    let t := s.setGrp 2 { s.grp 1 with notice := some ⟨2, 0x8000, 0x8000, 0x100, 9, 0, 3#32, 0x8100, true, []⟩ }
    (t.noticeOf 1).isSome = true ∧ t.readUnder 1 0x100 = true := by decide +kernel
theorem wit_release (mine : Bool) : let s := noted 1 [] (lineOf (if mine then 2 else 0) 7 (noticing (.nop ⟨0#3⟩)))
    (s.noticeOf 1).isSome = true ∧ s.l1 = [] ∧ s.poison = [] ∧ NoLog s ∧ Memory.wf s.mem = true ∧
      ((s.mem.slots 0x100).find? fun p => p.2.seq = 3#32 && p.2.own = (s.grp 1).owner && p.2.st = 2).map (fun p => (p.1, p.2.pay)) =
        (if mine then some (1, 7) else none) := by
  cases mine <;> exact ⟨by decide +kernel, by decide +kernel, by decide +kernel, noLog_all (by decide +kernel), by decide +kernel, by decide +kernel⟩
-- val 5 plus the record's x of 2 (R278, R280): the slot answers the old value
theorem test_commit : goes (.noticeCommit 1) (noted 2 [(1, 3#32, 0x8100)] (lineOf 1 0x8100
      { noticing (.nop ⟨0#3⟩) with mem := (noticing (.nop ⟨0#3⟩)).mem.store 0x8100 [2#8] }))
    (fun t => t.mem.hVal 0x100 = 7 && t.mem.slot 0x100 1 = ⟨2, 0, 9, 3#32, 5⟩) = true := by decide +kernel
theorem test_claim_slot : goes (.noticeClaim 1) (noted 0 [] (lineOf 1 0x8100 (noticing (.nop ⟨0#3⟩))))
    (fun t => t.mem.slot 0x100 2 = ⟨1, 0, 9, 4#32, 0x8100⟩ && t.mem.hSeq 0x100 = 5#32) = true := by decide +kernel
theorem test_release : goes (.noticeRelease 1) (noted 1 [] (lineOf 2 7 (noticing (.nop ⟨0#3⟩))))
    (fun t => (t.mem.slot 0x100 1).st = 0 && ((t.grp 1).ops.flatMap fun o => o.accs.map (·.new)) = [leBytes 8 7]) = true := by decide +kernel

/-- Group 1 a draft with entry 3 of die 0. -/
def drafted1 (st : DraftState) : State :=
  (atG (.nop ⟨0#3⟩) fun g => { g with draft := some (0, 3), depth := 0 }).setDie 0 { DieSt.init with drafts := [(3, st)] }
theorem wit_draft : ((drafted1 .committed).die 0).drafts.find? 3 = some .committed ∧
    (let s := drafted1 .opened
     (s.grp 1).draft = some (0, 3) ∧ (s.grp 1).st ≠ .exited ∧ (s.grp 1).replays < 3 ∧
       (((s.draftDrop (0, 3)).setDraft (0, 3) .discarded).freeDraft (coreDie (s.grp 1).core)).isSome = true) := by
  exact ⟨by decide +kernel, by decide +kernel⟩
/-- A draft copy to commit, and a damaged tag of a line with one. -/
theorem wit_draft_commit : let s := drafting (at1 (.nop ⟨0#3⟩))
    s.l1 = [] ∧ s.helped = [] ∧ NoLog s ∧ Memory.wf s.mem = true ∧ ((s.drafts.filter fun x => x.die = 0 && x.ent = 3).map (·.line)) = [0x80000] ∧
      (∀ x ∈ s.drafts, x.bytes.length = 128 ∧ windowPa (x.line * 128) = false) ∧ s.drafted 0x80000 = true :=
  ⟨by decide +kernel, by decide +kernel, noLog (by decide +kernel), by decide +kernel, by decide +kernel, by decide +kernel, by decide +kernel⟩
theorem wit_undrafted : let s := at1 (.nop ⟨0#3⟩)
    (s.groups.find? 1).isSome = true ∧ (s.grp 1).draft = none ∧ (s.grp 1).st ≠ .exited ∧ (s.grp 1).trapPend = none := by decide +kernel
/-- A dirty line of VF 0 at the home of the line at 0x8000; the VF has context 0. -/
def tagged : State :=
  let s := homed (at1 (.nop ⟨0#3⟩))
  { s.setCtx 0 (s.ctx 0) with l2 := [⟨0x100, true, [0], List.replicate 128 0#8, 0#128, false⟩] }
theorem wit_tag_error : (tagged.l2.any fun x => x.line = 0x100 && x.dirty) = true ∧ Memory.wf tagged.mem = true ∧
    tagged.sliceDirty (homeDie (0x100 * 128) * 64 + homeSlice (0x100 * 128)) 0 = true ∧ (tagged.ctxs.any fun c => c.1 / 65536 = 0) = true ∧
    (∀ x ∈ (at1 (.nop ⟨0#3⟩)).l2, x.line = 0x100 → x.dirty = false) := by
  decide +kernel
theorem test_draft_replay : goes (.draftReplay 1) (drafted1 .opened) (fun t => (t.grp 1).replays = 1 && (t.die 0).drafts.find? 3 == some .discarded) = true := by
  decide +kernel
theorem test_register_error : goes (.draftReplay 1) (at1 (.nop ⟨0#3⟩))
    (fun t => (t.grp 1).trapPend.map (fun p => (p.cause, p.rung)) == some (0x15, 2)) = true := by decide +kernel
theorem test_data_error : goes (.l2DataError 0x807E 4) (at1 (.nop ⟨0#3⟩)) (fun t => t.poison = [0x807E, 0x807F]) = true := by decide +kernel

/-! ## Translation and its owners (O45-O47) -/

theorem wit_walk : let s := homed (at1 (.nop ⟨0#3⟩))
    (s.pageWalk 0 0 0x8004 .read 0 s.curCl none (coreCid (s.curCl * 4))).2 = .ok 0x8004 0x8004 := by decide +kernel
/-- A translation of page 8 of context 0, an invalidation of it under way, and an access that used it. -/
def invalidating (busy : Bool) : State :=
  { (if busy then flying (opOf .g .load 0 (acc4 [])) else at1 (.nop ⟨0#3⟩)) with
    invs := [⟨0, false, 0, 0, 8, 1⟩], tlb := [⟨0, 0, 0, 8, 1, 8, 8, true, true, true, true⟩, ⟨0, 0, 0, 9, 1, 9, 9, true, true, true, true⟩] }
theorem wit_inv : (homed (at1 (.nop ⟨0#3⟩))).osOf (.partitionOS 0) 0 = true ∧ (homed (at1 (.nop ⟨0#3⟩))).osOf (.partitionOS 1) 0 = false ∧
    regionPages (bits 0 38 3) = some 1 := by decide +kernel
theorem wit_inv_complete (b : Bool) : (invalidating b).invs[0]? = some ⟨0, false, 0, 0, 8, 1⟩ ∧
    (invalidating b).invBusy ⟨0, false, 0, 0, 8, 1⟩ = b := by cases b <;> decide +kernel
theorem test_walk : goes (.pageWalk 0 0 0x8004 .read) (homed (at1 (.nop ⟨0#3⟩)))
    (fun t => t.tlb.any fun e => e.serves 0 0 0 0x8004 .read) = true := by decide +kernel
theorem test_inv : goes (.tlbInvComplete 0) (invalidating false) (fun t => t.tlb.map (·.page) = [9] && t.invs.isEmpty) = true := by decide +kernel

theorem wit_fq_base : let s := homed (at1 (.nop ⟨0#3⟩))
    s.frecs = [] ∧ s.osOf (.partitionOS 0) 0 = true ∧ s.ringBy (.partitionOS 1) (.guest 0) = false ∧ s.ringBy (.hypervisor) (.guest 0) = false := by
  decide +kernel
/-- A guest queue of 5 records, all read but two. -/
theorem wit_fq_head : let s := (homed (at1 (.nop ⟨0#3⟩))).setVf 0 { VfSt.init with gq := ⟨1#64, 3, 5, 5⟩ }
    s.frecs = [] ∧ s.osOf (.partitionOS 0) 0 = true ∧ ((s.vf 0).gq.tail + 8192 - 5) % 8192 ≤ 4096 ∧
      ((s.vf 0).pq.tail + 8192 - 0) % 8192 ≤ 4096 ∧ 4096 < ((s.vf 0).gq.tail + 8192 - 6) % 8192 := by decide +kernel
/-- A trap ring of five records, all of them read at once. -/
theorem wit_ptr_head : let s := (homed (at1 (.nop ⟨0#3⟩))).setPart 0 { (homed (at1 (.nop ⟨0#3⟩))).part 0 with tq := ⟨1#64, 3, 5, 5⟩, serv := [(3, 7, 0), (4, 7, 0)] }
    s.frecs = [] ∧ ((s.part 0).tq.tail + 8192 - 5) % 8192 ≤ 4096 := by decide +kernel
theorem test_ptr_head : goes (.fqPtrHeadWrite (.partitionOS 0) (.ptr 0) 4#32)
    ((homed (at1 (.nop ⟨0#3⟩))).setPart 0 { (homed (at1 (.nop ⟨0#3⟩))).part 0 with tq := ⟨1#64, 3, 5, 5⟩, serv := [(3, 7, 0), (4, 7, 0)] })
    (fun t => (t.part 0).serv = [(4, 7, 0)] && (t.part 0).tq.head = 4) = true := by decide +kernel
/-- Group 1 parked on page 8 of context 0. -/
def faulted : State :=
  { homed (atG (.nop ⟨0#3⟩) fun g => { g with st := .parked, wait := some (0xC, .keys [⟨0, false, 0, 8⟩]) }) with fkeys := [⟨0, false, 0, 8⟩] }
theorem wit_resolve : let s := faulted
    let v : BitVec 64 := 0x8002#64
    regionPages (bits v.toNat 9 3) = some 1 ∧ bits v.toNat 2 7 = 0 ∧ s.osOf (.partitionOS 0) 0 = true ∧ v.getLsbD 1 = true ∧
      keysRise s.groups = true ∧ (s.grp 1).st = .parked ∧ (s.grp 1).wait = some (0xC, .keys [⟨0, false, 0, 8⟩]) ∧ (s.grp 1).draft = none ∧
      (s.groups.map (·.1)) = [1] ∧ (s.units.all fun u => u.2.chain = none) = true ∧ s.copies = [] ∧ s.helms = [] ∧
      ([⟨0, false, 0, 8⟩] : List FKey).find? (fun f => s.fkeys.contains f && decide (f.vf = 0 ∧ f.stg2 = false ∧ (false = true ∨ f.ctx = bits v.toNat 48 16) ∧
        bits v.toNat 12 36 / 1 * 1 ≤ f.page ∧ f.page < bits v.toNat 12 36 / 1 * 1 + 1)) = some ⟨0, false, 0, 8⟩ := by decide +kernel
theorem test_resolve : goes (.fqResolve (.partitionOS 0) 0 false 0x8000#64) faulted (fun t => t.fkeys.isEmpty) = true := by decide +kernel
theorem test_resolve_fatal : goes (.fqResolveFatal (.partitionOS 0) 0 false 0x8002#64) faulted
    (fun t => (t.grp 1).held && t.trapQ.map (fun r => (r.rung, r.trap.cause, r.trap.info)) = [(2, 0x1B, 0x8000#32)]) = true := by decide +kernel

/-- Commands of the tier transfer queue: move 0x8000 to 0x9000, demote 0x8000 to outer memory, promote it from there; version entry 0xA000. -/
def tier (op : Nat) : TtqCmd :=
  ⟨if op = 2 then 0#32 else 0x8000#32, if op = 2 then 0x80000#32 else 0#32, if op = 1 then 0#32 else 0x9000#32, if op = 1 then 0x80000#32 else 0#32,
    if op = 0 then 0#32 else 0xA000#32, 0#32, toW (op * 1073741824), 0#32⟩
theorem wit_ttq : ∀ op ∈ [0, 1, 2], let s := (homed (at1 (.nop ⟨0#3⟩))).setDie 0 { DieSt.init with ttq := [tier op] }
    ttqOp (tier op) = op ∧ (s.die 0).ttq = [tier op] ∧ s.l1 = [] ∧ s.helped = [] ∧ s.poison = [] ∧ Memory.wf s.mem = true ∧
      ttqClean (tier op) = true ∧ s.placed (tier op) = true ∧ ttqVer (tier op) / 4096 ≠ ttqDst (tier op) / 4096 ∧
      leNat ((s.mem.bytes (ttqVer (tier op)) 32).take 6) = 0 := by decide +kernel
theorem wit_ttq_full : let s := (homed (at1 (.nop ⟨0#3⟩))).setDie 0 { DieSt.init with ttq := [tier 1] }
    let t : State := { s with mem := s.mem.store 0xA000 (List.replicate 6 0xFF#8) }
    Memory.wf t.mem = true ∧ t.placed (tier 1) = true ∧ leNat ((t.mem.bytes (ttqVer (tier 1)) 32).take 6) = 2 ^ 48 - 1 := by decide +kernel
theorem test_ttq_demote_full : goes (.ttqCommandComplete 0)
    (let s := (homed (at1 (.nop ⟨0#3⟩))).setDie 0 { DieSt.init with ttq := [tier 1] }
     { s with mem := s.mem.store 0xA000 (List.replicate 6 0xFF#8) }) (fun t => t.mem.read 0xA018 = 2#8 && (t.die 0).ttqDone = 1#32) = true := by
  decide +kernel

/-! ## The upper rungs, timeouts, pre-emption, the device (O48-O52) -/

/-- As homed, with a block vector, a handler record, a trap ring at 0xB000 and the partition's ring at 0xC0000 (R358, R363, R385). -/
def laddered (f : Group → Group) : State :=
  let s := homed (atG (.nop ⟨0#3⟩) f)
  let s : State := { s with mem := (s.mem.store 0x6008 (leBytes 8 0x10000200 ++ leBytes 8 0x9000)).store 0x6020 (leBytes 8 0xB000) }
  s.setPart 0 { s.part 0 with tq := ⟨0xC0001#64, 0, 0, 0⟩ }
/-- Group 1 trapped at the block rung; group 2 of its unit may handle it. -/
def blocked (two : Bool) : State :=
  let s := (laddered fun g => { g with held := true, gpb := 2 }).modUnit 1 fun u => { u with btraps := [(some 1, ⟨0x0A, 5#32, 0x10000000, 1, false⟩)] }
  if two then s.setGrp 2 { s.grp 1 with gix := 1, held := false } else s
theorem wit_block_rung (two : Bool) : let s := blocked two
    (s.units.find? 1).isSome = true ∧ (s.unit 1).chain = none ∧ (s.unit 1).bserve = none ∧
      (s.unit 1).btraps = [(some 1, ⟨0x0A, 5#32, 0x10000000, 1, false⟩)] ∧ s.unitAway 1 = false ∧ s.frozen 0 0 = false ∧
      (s.blockHandler 1 (some 1)).map (·.1) = (if two then some 2 else none) ∧
      (s.trapBlock 0).map (fun b => goodVec (pair48 (wAt b.1 2) (wAt b.1 3))) = some true := by cases two <;> decide +kernel
/-- A trap for the context rung, from an engine (party 3); the context has a handler, or none, or its ring is full. -/
def rec2 : TrapRec := ⟨2, 0, 0, none, none, 3, ⟨0x07, 5#32, 0, 2, false⟩, 1#32, 0#32, 0#32, 0, 0#32⟩
def climbing (kind : Nat) : State :=
  let s := laddered id
  { s with trapQ := [rec2], mem := match kind with
    | 0 => s.mem
    | 1 => s.mem.store 0x6010 (leBytes 8 0)
    | 2 => s.mem.store 0x602C [128#8]
    | _ => s.mem.store 0x3000 (leBytes 8 0x4001 ++ leBytes 8 0x40000000) }
/-- The machine as the context rung takes its record up. -/
def rung2 (s : State) : State := (({ s with trapQ := s.trapQ.eraseIdx 0 } : State).useTrap 0 false).dropPassed 0
theorem wit_context_rung : (climbing 0).trapQ[0]? = some rec2 ∧ (climbing 0).frozen 0 0 = false ∧ (rung2 (climbing 3)).trapBlock 0 = none ∧
    ((rung2 (climbing 1)).trapBlock 0).map (fun b => pair48 (wAt b.1 4) (wAt b.1 5)) = some 0 ∧
    ((rung2 (climbing 2)).trapBlock 0).map (fun b => ((wAt b.1 11).toNat % 256 + 256 - (wAt b.1 10).toNat % 256) % 256) = some 128 := by decide +kernel
theorem wit_context_ring : let s := climbing 0
    let s0 := (({ s with trapQ := [] } : State).useTrap 0 false).dropPassed 0
    (s0.trapBlock 0).map (fun b => (pair48 (wAt b.1 4) (wAt b.1 5), (wAt b.1 10).toNat % 256, (wAt b.1 11).toNat % 256, pair48 (wAt b.1 8) (wAt b.1 9), b.2)) =
      some (0x9000, 0, 0, 0xB000, 0x6000) ∧ (s.ctx 0).handler = none ∧ Memory.wf (s0.translate 0 0 0xB000 .write 1 (cidCl 0#32) none 0#32).1.mem = true ∧
      ∃ s1 pa vfa, s0.translate 0 0 0xB000 .write 1 (cidCl 0#32) none 0#32 = (s1, .ok pa vfa) ∧ windowPa pa = false ∧ s1.helped = [] ∧ s1.l1 = [] ∧ NoLog s1 :=
  ⟨by decide +kernel, by decide +kernel, by decide +kernel, tr_ok (by decide +kernel)⟩
/-- Whether a stage-2 translation ends in a leaf of which p holds. -/
def st2Ok (r : St2) (p : Leaf → Bool) : Bool :=
  match r with
  | .ok l => p l
  | _ => false
theorem st2_ok {r : St2} {p : Leaf → Bool} (h : st2Ok r p = true) : ∃ l, r = .ok l ∧ p l = true := by
  cases r with
  | ok l => exact ⟨l, rfl, h⟩
  | _ => exact absurd h (by simp [st2Ok])
/-- Traps for the partition rung, of no context and of context 0; a record of the device rung. -/
def rising (rung key party : Nat) : State :=
  { laddered id with trapQ := [{ rec2 with rung := rung, key := key, party := party }] }
theorem wit_partition_rung : let s := rising 3 noCtx 3
    let r : TrapRec := { rec2 with rung := 3, key := noCtx }
    let q := (s.part (s.recPart r)).tq
    (s.recPart r = 0 ∧ q.room = true ∧ s.l1 = [] ∧ s.helped = [] ∧ Memory.wf s.mem = true ∧ q.count = 0) ∧ NoLog s ∧
      ∃ l, s.stage2 ((s.vfOf 0).getD (r.key / 65536)) q.addr false true false = .ok l :=
  ⟨by decide +kernel, noLog_all (by decide +kernel), (st2_ok (p := fun _ => true) (by decide +kernel)).imp fun _ h => h.1⟩
/-- A trap of context 0, whose only unit has exited, at the partition rung. -/
def risen : State := { (laddered fun g => { g with st := .exited }).modUnit 1 (fun u => { u with done := true }) with trapQ := [{ rec2 with rung := 3 }] }
theorem wit_partition_hold : let s := risen
    let r : TrapRec := { rec2 with rung := 3 }
    let q := (s.part (s.recPart r)).tq
    q.room = true ∧ r.key ≠ noCtx ∧ st2Ok (s.stage2 ((s.vfOf 0).getD 0) q.addr false true false) (fun _ =>
      nextOf (s.holdCtxs [0]) fun t => t.2) = true := by decide +kernel
/-- A trap whose partition ring is not enabled. -/
def ringless (s : State) : State := s.setPart 0 { s.part 0 with tq := ⟨0#64, 0, 0, 0⟩ }
theorem wit_partition_wait : ((ringless risen).part 0).tq.room = false ∧ nextOf ((ringless risen).holdCtxs [0]) (fun t => t.2) = true := by
  decide +kernel
theorem test_partition_wait : goes (.partitionTrap 0) (ringless (rising 3 noCtx 3)) (fun t => t.trapQ.map (fun r => r.rung) == [6]) = true := by
  decide +kernel
theorem wit_device_rung : (rising 4 noCtx 6).trapQ[0]? = some { rec2 with rung := 4, key := noCtx, party := 6 } ∧
    (let s := rising 4 noCtx 3
     s.trapQ[0]? = some { rec2 with rung := 4, key := noCtx } ∧ ({ s with trapQ := [], ctxs := [] } : State).ctxsIn 0 = []) := by decide +kernel
theorem test_block_handler : goes (.blockHandlerEntry 1) (blocked true) (fun t => (t.grp 2).pc = 0x10000200 && (t.grp 2).rung = 2 &&
    wAt (t.grp 2).sr 42 = 0#32 && wAt (t.grp 2).sr 47 = 5#32) = true := by decide +kernel
theorem test_context_trap : goes (.contextTrap 0) (climbing 0) (fun t => (t.ctx 0).handler.isSome && t.mem.read 0x602C = 1#8 &&
    t.mem.read 0xB001 = 0x32#8 && t.mem.read 0xB004 = 5#8) = true := by decide +kernel
theorem test_partition_trap : goes (.partitionTrap 0) (rising 3 noCtx 3) (fun t => (t.part 0).tq.tail = 1 && t.trapQ.isEmpty &&
    t.mem.read 0xC0004 = 5#8 && t.mem.read 0xC001F = 0x80#8) = true := by decide +kernel

/-- Group 1 in a handler of a rung since cycle 0. -/
def serving2 (rung now : Nat) : State :=
  (laddered fun g => { g with rung := rung, served := 0x0B, gst := 0x90000000#32 }).setCore 0 { CoreSt.init with cycle := now }
theorem wit_service (b : Bool) : let s := serving2 (if b then 1 else 2) (if b then 65536 else 262144)
    let x := s.grp 1
    (s.groups.find? 1 = some x ∧ gstHdl x.gst = true ∧ x.held = false ∧ x.st ≠ .exited ∧
      (if b then 65536 else 262144) ≤ x.service + ((s.core x.core).cycle - x.serviceAt) ∧ s.unitAway x.unit = false ∧
      s.frozen (s.keyOf x) 0 = false ∧ x.draft = none ∧ (s.workOf x).src = .host ∧ (s.unit x.unit).chain = none ∧
      (s.units.find? x.unit).isSome = true) ∧ (s.groups.map (·.1)) = [1] ∧ keysRise s.groups = true ∧ s.saving (s.keyOf x) = false ∧
      s.stuckSave x.unit = false := by cases b <;> decide +kernel
theorem wit_part_service : let s := ((laddered id).setPart 0 { (laddered id).part 0 with serv := [(3, 0x0B, 5)] }).setDie 0 { DieSt.init with sclk := 16777221 }
    ((s.part 0).serv.find? fun r => r.1 = 3) = some (3, 0x0B, 5) ∧ 5 + 16777216 ≤ (s.die (s.partDie 0)).sclk := by decide +kernel
theorem wit_report (a : Bool) : ({ laddered id with dev := { DevSt.init with reports := [.record [] 0 0 a] } } : State).dev.reports[0]? =
    some (.record [] 0 0 a) := rfl
theorem test_timeout : goes (.handlertimeout (.group 1)) (serving2 1 65536) (fun t => (t.grp 1).held &&
    (t.unit 1).btraps.map (fun b => (b.2.cause, b.2.info)) = [(0x19, 0x0B#32)]) = true := by decide +kernel
theorem test_timeout_early : goes (.handlertimeout (.group 1)) (serving2 1 65535) (fun t => !(t.grp 1).held) = true := by decide +kernel

/-- Partition 0 pre-empting context 0, whose only unit has exited. -/
def stopping (ack : BitVec 6) : State :=
  let s := (laddered fun g => { g with st := .exited }).modUnit 1 fun u => { u with done := true }
  (s.setPart 0 { s.part 0 with busy := true, res := false, all := true, ack := ack }).setCtx 0 (s.ctx 0)
theorem wit_preempt_ack : let s := stopping 0x3E#6
    (s.part 0).busy = true ∧ (s.part 0).res = false ∧ (s.part 0).ack.getLsbD 0 = false ∧ ((s.part 0).ack ||| (1#6 <<< 0)) = 0x3F#6 ∧
      s.pmtKeys 0 = [0] ∧ ∃ r, State.stopAll ((s.pmtKeys 0).map fun k => (k, 0)) .saved s = .next r ∧ r.2 ≠ .notYet :=
  ⟨by decide +kernel, by decide +kernel, by decide +kernel, by decide +kernel, by decide +kernel, next_dec (by decide +kernel)⟩
/-- PMT_CTL of partition 0 for its context 0; a unit of the context with a load that no port can send. -/
theorem wit_preempt : let s := laddered id
    s.vfOf 0 = some 0 ∧ s.ctxPart 0 (bits (0x80000000 : BitVec 32).toNat 0 16) = some 0 ∧ (s.part 0).busy = false ∧
    (let t := laddered fun g => { g with ops := [opOf .g .load 0 { acc4 [] with pa := 0x4000000000000 + 5 * 2 ^ 40 }] }
     let b := (t.setPart 0 { t.part 0 with busy := true, res := false, all := true, ack := 0#6 }).setCtx 0 (t.ctx 0)
     nextOf (State.stopAll ((b.pmtKeys 0).map fun k => (k, 0)) .saved b) fun r => decide (r.2 = .notYet)) = true := by decide +kernel
theorem test_preempt_ack : goes (.preemptClassAck 0 0) (stopping 0x3E#6) (fun t => !(t.part 0).busy && (t.ctx 0).preempted) = true := by
  decide +kernel
theorem test_resume : goes (.pmtResume .hypervisor 0 0xA0010000#32)
    ((laddered id).setCtx 0 { (laddered id).ctx 0 with preempted := true, held := true, stops := 63 })
    (fun t => !(t.ctx 0).preempted && !(t.ctx 0).held && (t.ctx 0).stops = 0) = true := by decide +kernel
theorem wit_fence_core : (laddered id).units.all (fun u => !u.2.cores.contains 5) = true := by decide +kernel
theorem wit_fence_cluster : (laddered id).units.all (fun u => (List.range 4).all fun i => !u.2.cores.contains (1 * 4 + i)) = true := by decide +kernel
theorem test_fence_core : goes (.unitFence .core 5) (laddered id) (fun t => (t.core 5).fenced && t.trapQ.map (fun r => (r.rung, r.party, r.cid)) =
    [(4, 7, 0x00500000#32)]) = true := by decide +kernel
theorem test_context_destroy : goes (.contextDestroy 0 0) (laddered id) (fun t => (t.unit 1).done && (t.ctx 0).destroyed) = true := by decide +kernel

/-- The semaphore held by host port 0; quarter-die 0 in partition 0. -/
def owned : State := let s := laddered id
  { s with dev := { s.dev with semHeld := true, semOwn := 0 } }
theorem wit_semaphore : semNum (.host 0) = some 0 ∧ (laddered id).dev.semHeld = false ∧ owned.dev.semHeld = true ∧ owned.semBy (.host 0) = true ∧
    owned.semBy (.host 1) = false := by decide +kernel
theorem wit_part_tbl : owned.semBy (.host 0) = true ∧ bits 0x8100 17 15 = 0 ∧ bits 0x8100 13 2 = 0 ∧ bits 0x8100 6 2 = 0 ∧
    (owned.dev.partTbl.getD 1 0#32).getLsbD 16 = false ∧ (owned.dev.partTbl.getD 1 0#32).getLsbD 15 = false ∧
    (owned.dev.partTbl.getD 0 0#32).getLsbD 15 = true ∧
    (owned.dev.partTbl.all fun e => bits e.2.toNat 8 5 != 1) = true := by decide +kernel
theorem wit_part_wipe : let s := { owned with groups := [], units := [] }
    State.clearUnits ((s.units.filter fun p => p.2.cores.any fun c => c / 96 = 0).map (·.1)) s = .next s := rfl
theorem test_part_tbl : goes (.partTblWrite (.host 0) 1 0x8100#32) owned (fun t => t.dev.partTbl.find? 1 = some 0x8100#32) = true := by decide +kernel
theorem test_wipe_done : goes (.quarterWipeDone 0) { owned with dev := { owned.dev with partTbl := [(0, 0x18000#32)] } }
    (fun t => t.dev.partTbl == [(0, 0x8000#32)]) = true := by decide +kernel
theorem wit_boot : (laddered id).dev.fwu = false ∧ State.reset.dev.bootDone = false ∧ State.reset.dev.halted = false ∧
    Memory.wf (laddered id).mem = true ∧ keysRise (laddered id).cores = true ∧
    keysRise (laddered id).clusters = true ∧ keysRise (laddered id).sys = true := by decide +kernel
theorem test_cold : goes .coldReset { laddered id with mem := [(0x8000, 1#8), (0x8000000000001, 2#8)] }
    (fun t => t.mem == [(0x8000000000001, 2#8)] && t.groups.isEmpty) = true := by decide +kernel

/-! ## Registers, hosts, command queues, the fabric (O53-O55) -/

theorem wit_registers : (laddered id).osOf (.partitionOS 0) 0 = true ∧ ((laddered id).die 0).pages = 0 ∧
    bits (0x14000 : BitVec 64).toNat 24 8 = 0 ∧ bits (0x14000 : BitVec 64).toNat 0 6 = 0 := by decide +kernel
-- exponents 20 and 40 are taken, 19 leaves the field at 30 (R175)
theorem test_starve_write : goes (.registerWrite (.partitionOS 0) 0x20001000000 (BitVec.ofNat 64 (20 * 64 + 19 * 4096 + 40 * 262144))) (laddered id)
    (fun t => (t.part 0).starve = BitVec.ofNat 32 (20 * 64 + 30 * 4096 + 40 * 262144)) = true := by decide +kernel
theorem test_pool_write : goes (.sqPoolWrite .hypervisor 1 1024#32) (laddered id) (fun t => (t.die 1).pool = 1024) = true := by decide +kernel

/-- The queue of VF 0 at 0x20000, kicked with stamp 2, its first packet in slot 1. -/
def queued (p : List Word) (f : VfSt → VfSt) : State :=
  let s := laddered id
  let b := fun (l : List Word) => l.flatMap fun w => leBytes 4 w.toNat
  let m := (s.mem.store 0x20040 (b p)).store 0x9000 (b rec1)
  { s with mem := m }.setVf 0 (f { s.vf 0 with cqBase := 0x20001#64, kick := 2#32, kicked := true })
/-- A packet with an operation, an address, P3 and a stamp. -/
def packet (op : Nat) (a p3 stamp : Word) : List Word :=
  [toW op, a, 0#32, p3] ++ List.replicate 11 0#32 ++ [stamp]
def cqIs (r : Option (State × List Word)) (q : State → List Word → Bool) : Bool :=
  match r with
  | some (s, p) => q s p
  | none => false
theorem cq_is {r : Option (State × List Word)} {q : State → List Word → Bool} (h : cqIs r q = true) :
    ∃ s p, r = some (s, p) ∧ q s p = true := by
  cases r with
  | some x => exact ⟨x.1, x.2, rfl, h⟩
  | none => exact absurd h (by simp [cqIs])
theorem wit_packets : ∀ op ∈ [0, 1, 2, 3, 7], ∃ s1 p, (queued (packet op 0x9000#32 0#32 1#32) id).cqPacket 0 = some (s1, p) ∧
    decide (cqOp p = op ∧ s1.l1 = [] ∧ s1.poison = [] ∧ s1.helped = []) = true := by
  intro op h
  refine cq_is ?_
  revert op
  decide +kernel
theorem wit_stale (n : Nat) (h : n = 0 ∨ n = 15) : let s := queued (packet 0 0#32 0#32 9#32) fun f => { f with reread := n }
    let late := s.setDie 0 { s.die 0 with sclk := 1024 }
    s.cqRuns 0 = true ∧ (∃ s1 p, s.cqRead 0 = some (s1, p) ∧ decide (wAt p 15 ≠ (s1.vf 0).done + 1#32 ∧ (s1.vf 0).reread = n ∧
      s1.queueClock 0 < (s1.vf 0).readAt + 1024) = true) ∧
    late.cqRuns 0 = true ∧ ∃ s1 p, late.cqRead 0 = some (s1, p) ∧ decide (wAt p 15 ≠ (s1.vf 0).done + 1#32 ∧ (s1.vf 0).reread = n ∧
      (s1.vf 0).readAt + 1024 ≤ s1.queueClock 0) = true := by
  rcases h with rfl | rfl <;> exact ⟨by decide +kernel, cq_is (by decide +kernel), by decide +kernel, cq_is (by decide +kernel)⟩
theorem wit_queue_launch : let s := queued (packet 1 0x9000#32 0#32 1#32) id
    s.frozen (ctxKey 0 0) 5 = false ∧ cqIs (s.cqPacket 0) (fun s1 p =>
      RecCheck.accepts (s1.checkRecord { Work.blank with vf := 0, ctx := cqCtx p, addr := cqAddr p, fatal := (s1.vf 0).fatal })) = true := by
  decide +kernel
/-- A launch of a record whose address is no multiple of 128; and P14 of a packet at 0x20040 written. -/
theorem wit_queue_refused : cqIs ((queued (packet 1 0x9004#32 0#32 1#32) id).cqPacket 0) (fun s1 p =>
      decide ((s1.checkRecord { Work.blank with vf := 0, ctx := cqCtx p, addr := cqAddr p, fatal := (s1.vf 0).fatal }).2 = .refused)) = true ∧
    (match (queued [] id).use2 none 0 (0x20040 + 56) false true false with
      | (u, .ok l) => decide (u.l1 = [] ∧ u.helped = [] ∧ windowPa (l.out (0x20040 + 56)) = false) && (u.vfs.all fun p => !p.2.dlog.getLsbD 0)
      | _ => false) = true := by decide +kernel
def cqAt (r : State × Option (Nat × Nat)) (q : State → Nat → Bool) : Bool :=
  match r with
  | (s, some (pa, _)) => q s pa
  | _ => false
theorem wit_queue_words : cqIs ((queued (packet 2 0x9000#32 0#32 1#32) id).cqPacket 0) (fun s1 p =>
      cqAt (s1.cqWord 0 p .read 0) fun s2 pa => s2.l1.isEmpty && s2.poison.isEmpty && pa == 0x9000) = true ∧
    cqIs ((queued (packet 3 0xA000#32 7#32 1#32) fun f => { f with signal := true }).cqPacket 0) (fun s1 p =>
      cqAt (s1.cqWord 0 p .write 1) fun s2 pa => s2.l1.isEmpty && s2.helped.isEmpty && pa == 0xA000 &&
        s2.vfs.all fun p => !p.2.dlog.getLsbD 0) = true := by decide +kernel
theorem wit_queue_waiting : let s := queued [] fun f => { f with waiting := some (0x9000, 0x10000001#32) }
    (s.vf 0).waiting = some (0x9000, 0x10000001#32) ∧ s.l1 = [] ∧ s.poison = [] ∧ (s.memWord 0x9000).toNat < (0x10000001#32 : Word).toNat := by
  decide +kernel
theorem wit_host_of : (laddered id).hostOf (.hostVf 0 0) 0 = true ∧ (laddered id).hostOf (.hostVf 0 1) 1 = false ∧ (laddered id).partsOf 0 ≠ [] := by decide +kernel
theorem wit_host_pages (w : Bool) : let s := laddered id
    s.partsOf 0 ≠ [] ∧ ∃ s1 m, State.outside 0 (!w) w (pageStarts 0x8004 4) s = some (s1, m) ∧ s1.l1 = [] ∧ s1.dir = [] ∧ s1.poison = [] ∧ s1.helped = [] ∧
      windowPa (pageAt m 0x8004) = false := by
  have h : ∀ o : Option (State × Tbl Nat), (match o with
      | some (s1, m) => decide (s1.l1 = [] ∧ s1.dir = [] ∧ s1.poison = [] ∧ s1.helped = [] ∧ windowPa (pageAt m 0x8004) = false)
      | none => false) = true → ∃ s1 m, o = some (s1, m) ∧ s1.l1 = [] ∧ s1.dir = [] ∧ s1.poison = [] ∧ s1.helped = [] ∧ windowPa (pageAt m 0x8004) = false := by
    intro o h
    cases o with
    | some x => exact ⟨x.1, x.2, rfl, of_decide_eq_true h⟩
    | none => exact absurd h (by simp)
  refine ⟨by decide +kernel, h _ ?_⟩
  cases w <;> decide +kernel
theorem test_host_write : goes (.hostBar2Write 0 0x8004 [1#8, 2#8]) (laddered id) (fun t => t.mem.read 0x8005 = 2#8) = true := by decide +kernel
theorem test_host_abort : goes (.hostBar2Read 0 0x40000000 4) (laddered id) (fun t => t.dev.reports == [.hostAbort 0]) = true := by decide +kernel
theorem test_cq_launch : goes (.cqLaunch 0) (queued (packet 1 0x9000#32 0#32 1#32) id) (fun t => (t.vf 0).done = 1#32 &&
    (t.vf 0).launches = [2] && (t.work 2).phase = .accepted && (t.work 2).gpb = 1) = true := by decide +kernel
theorem test_cq_signal : goes (.cqSignalWrite 0) (queued (packet 3 0xA000#32 7#32 1#32) fun f => { f with signal := true })
    (fun t => t.mem.read 0xA000 = 7#8 && (t.vf 0).done = 1#32) = true := by decide +kernel

theorem wit_ports : let s := (laddered id).setPort 1 3 ⟨2, 0, 5, false, 9, 8, 9, 8⟩
    let x := s.port 1 3
    2 ≤ x.st ∧ x.rx = 5 ∧ 8 ≤ x.row ∧ x.last = 9 ∧ ((laddered id).port 1 4).st < 2 ∧ (((laddered id).setPort 1 4 ⟨1, 0, 0, false, 0, 0, 0, 0⟩).port 1 4).st = 1 := by
  decide +kernel
/-- A port up, with two flits in its replay buffer, one of which is replayed a second time and then acknowledged. -/
theorem wit_replay : let x := ((laddered id).setPort 1 3 ⟨2, 0, 5, false, 11, 9, 9, 1⟩).port 1 3
    2 ≤ x.st ∧ x.row < 8 ∧ x.holds 9 = true ∧ x.holds 11 = false ∧ x.unacked = 2 ∧ x.last = 9 := by decide +kernel
/-- Partition 0 may send and its VF grants the fabric. -/
def granted : State :=
  let s := (laddered id).setPart 0 { (laddered id).part 0 with eid := 0x80000005#32 }
  s.setVf 0 { s.vf 0 with pol := 0x0F#32 }
theorem wit_remote : ∀ k ∈ ([.load 4, .store [1#8, 2#8], .atomic 0 1#32 0#32, .red 0 1#32 0#32] : List RemoteKind),
    let r : RemoteReq := ⟨0, 0, 0x8004, k, 0⟩
    let n := remoteNeeds k
    granted.vfOf r.part = some 0 ∧ (granted.part r.part).eid.getLsbD 31 = true ∧ (granted.vf 0).pol.getLsbD 3 = true ∧
      (match State.remotePages 0 n.1 n.2.1 (pageStarts r.off (remoteSize k)) granted with
        | (s1, .ok m) => decide (s1.l1 = [] ∧ s1.helped = [] ∧ s1.poison = [] ∧ windowPa (pageAt m 0x8004) = false)
        | _ => false) = true := by decide +kernel
/-- A request at a page that stage 2 does not map, and a load of a poisoned byte. -/
theorem wit_remote_held : let n := remoteNeeds (.load 4)
    (match State.remotePages 0 n.1 n.2.1 (pageStarts 0x40000000 4) granted with
      | (_, .fault _ _) => true
      | _ => false) = true ∧
    (match State.remotePages 0 n.1 n.2.1 (pageStarts 0x8004 4) { granted with poison := [0x8006] } with
      | (s1, .ok m) => decide (s1.l1 = []) && s1.poison.contains (pageAt m 0x8006)
      | _ => false) = true := by decide +kernel
theorem wit_endpoint : let s := (laddered fun g => { g with ops := [opOf .g .load 0 { acc4 [] with pa := 0x4000000000000 + 5 * 2 ^ 40 }] })
    s.ctxPart (s.keyOf (s.grp 1) / 65536) (s.keyOf (s.grp 1) % 65536) = some 0 ∧ (s.grp 1).st ≠ .exited ∧ (s.grp 1).draft = none ∧
      toEndpoint 5 (0x4000000000000 + 5 * 2 ^ 40) = true ∧ keysRise s.groups = true := by decide +kernel
theorem test_flit : goes (.flitReceive 1 3 4095#12 true) ((laddered id).setPort 1 3 ⟨3, 0, 4095, true, 0, 0, 0, 0⟩) (fun t => (t.port 1 3).rx = 0) = true := by
  decide +kernel
theorem test_endpoint : goes (.endpointLost 0 5) (laddered fun g => { g with ops := [opOf .g .load 0 { acc4 [] with pa := 0x4000000000000 + 5 * 2 ^ 40 }] })
    (fun t => (t.grp 1).trapPend.map (·.cause) == some 0x15 && t.trapQ.map (fun r => (r.rung, r.party, r.trap.info)) == [(3, 7, 5#32)]) = true := by
  decide +kernel

/-! ## Decoding, the step, the state as a whole (O57-O59) -/

theorem wit_encode : encode (.vaddF32 ⟨16#6, 8#7, 20#7, 0#1, 1#1, 5#3⟩) = some 0x4080828D#32 ∧
    helmWord (.vaddF32 ⟨16#6, 8#7, 20#7, 0#1, 1#1, 5#3⟩) = false ∧ helmWord (.hadd ⟨4#5, 4#5, 0#5, 1#1, 128#11⟩) = true := by decide +kernel
/-- A core about to run a nop; a helm about to run an hnop; a step of another agent. -/
theorem wit_step_core : let s := State.reset.placeGroup (encodeWord (.nop ⟨0#3⟩))
    let s0 : State := { s with agenda := [] }
    s.dev.halted = false ∧ s.agenda = [.core 0] ∧ (rotateTies (s0.free * 65536 + 65524) (sortBy firstOf (s0.readyOn 0))).map (·.1) = [1] ∧
      (s0.grp 1).trapPend = none ∧ decodeGroup (encodeWord (.nop ⟨0#3⟩)) = .ok (.nop ⟨0#3⟩) ∧
      (match (s0.fetch 1 (s0.grp 1).pc).2 with
        | .word w => decide (w = encodeWord (.nop ⟨0#3⟩))
        | _ => false) = true := by
  refine ⟨by decide +kernel, by decide +kernel, by decide +kernel, by decide +kernel, rfl, by decide +kernel⟩
theorem wit_step_helm : let s := State.reset.placeHelm (encodeWord .hnop)
    s.dev.halted = false ∧ s.agenda = [.helm 0] ∧ (s.cluster 0).serve = some 0 ∧ (s.helm 0 0).run = .running ∧
      (s.helm 0 0).store.getD (s.helm 0 0).pc 0#32 = encodeWord .hnop := by decide +kernel
/-- A hypervisor's system core and one of another mode about to write a register; a matrix engine's turn. -/
theorem wit_step_system : Instr.writer (.tlbInv .hypervisor 0 0#64) = some .hypervisor ∧
    (let s := State.reset.setSys 4 { SysSt.init with mode := 1 }
     s.actsAs 4 .hypervisor = true ∧ s.actsAs 4 .firmware = false) ∧ State.reset.dev.halted = false := by decide +kernel
theorem wit_step_event : Instr.isStep .coldReset = true := rfl
theorem wit_canonical : Canonical State.reset := ⟨by decide +kernel, by decide +kernel, by decide +kernel, L1Ok_none rfl⟩
/-- A step from a state in canonical form: a scalar addition placed right after reset. -/
theorem test_step : (match step (State.reset.withFetchWord 32 (encodeWord (.smovi ⟨9#6, 7#9, 0#3⟩)).toNat) with
    | .next t => wAt (t.grp 1).sr 9 = 7#32 && (t.grp 1).pc = 0x10000004
    | _ => false) = true := by decide +kernel

end Sys2Proof.Tests
end

section
/-!
SUPPORT. The integer and bit forms and the shuffle (R74-R79, R82-R84, R86, R87, R118): the rule of a word that gathers its operands
and writes rows, the lane functions as the statements write them, and the statements they settle.
-/
namespace Sys2Proof.Machine

/-! ## Words that gather their operands and write rows -/

/-- The effects of a word that writes rows of register d and nothing else: it releases its dry sources, then writes the rows. -/
def rowsEff (x : IX) (lat d : Nat) (dry : List Nat) (q : Gath) (rows : List Row) (val : Row → Nat → Word) : R Eff := do
  let s ← writeRows x.gid d lat (rows.map fun r => (r, (List.range 32).map fun l => val r l)) (dryAll q.s x.gid dry)
  pure ⟨s, q.last, none, none, none⟩

theorem State.modGrp_id (s : State) (gid : Nat) (h : keysRise s.groups = true) : (s.modGrp gid fun g => g) = s := by
  unfold State.modGrp
  split
  next y hy => rw [State.setGrp, tbl_set_self _ _ _ h hy]
  next => rfl

/-- A word completes where its operands are gathered and it writes rows of the beats that issue. -/
theorem rowsWord_done {i : Instr} {sf : BitVec 3} {lat : Nat} {xch : Bool} {srcs : IX → List Src} {dry : IX → List Nat}
    {d : IX → Nat} {rows : Gath → List Row} {val : IX → Gath → Row → Nat → Word} {s : State} {q : Gath}
    (e : exec i s = issueV i sf (fun x s => do
      let q ← gather x s xch (srcs x) [d x] []
      rowsEff x lat (d x) (dry x) q (rows q) (val x q)) s)
    (hrows : (rows q).map (fun r => r.b) = q.rows.map fun r => r.b) (h : Passes none true i s)
    (hq : gather (s.ix true) s.issuing xch (srcs (s.ix true)) [d (s.ix true)] [] = .ok q) (hr : Roomy q.s (s.ix true).g.core) :
    ∃ t, exec i s = .next t ∧ VectorDone (s.ix true) sf.toNat lat (d (s.ix true)) (dry (s.ix true)) q (rows q)
      (val (s.ix true) q) [] (q.s.core (s.ix true).g.core).rnd t := by
  obtain ⟨hnodup, hbeats, hlen⟩ := gather_rows hq
  have hb : ∀ r ∈ rows q, r.b < (s.ix true).g.beats := by
    intro r hmem
    have hmem' : r.b ∈ q.rows.map fun r => r.b := hrows ▸ List.mem_map_of_mem hmem
    obtain ⟨r', hr', hbr⟩ := List.mem_map.mp hmem'
    exact hbr ▸ hbeats r' hr'
  have hl : (rows q).length ≤ 3 := by
    have := congrArg List.length hrows
    simp only [List.length_map] at this
    omega
  obtain ⟨s2, hw, hk, hv⟩ := rows_done (s.ix true) sf.toNat lat (d (s.ix true)) (dry (s.ix true)) s.issuing q q.s (rows q)
    (fun r => (List.range 32).map fun l => val (s.ix true) q r l) [] (q.s.core (s.ix true).g.core).rnd
    (by rw [s.ix_g, s.ix_gid]) (by rw [s.ix_gid]; exact s.issuing_groups_isSome h.1) (gather_facts hq).1
    ⟨rfl, fun _ _ => rfl, fun _ _ => rfl⟩ rfl rfl hr (hrows ▸ hnodup) hb hl
  rw [e]
  refine ⟨_, issue_next h (e := ⟨s2, q.last, none, none, none⟩) ?_, ?_⟩
  · simp only [hq, bind, Except.bind, rowsEff, hw]
    rfl
  · simp only [List.foldl_nil, State.modGrp_id s2 _ hk] at hv
    exact vectorDone_congr (fun r l hl => lanes_getD _ l hl) hv

/-! ## The lane functions as the statements write them -/

theorem setWidth5 (b : Word) : (b.setWidth 5).toNat = b.toNat % 32 := by simp

theorem shlW_eq (a b : Word) : shlW a b = a <<< (b.setWidth 8).toNat := by rw [shlW, setWidth8]
theorem shrN_eq (a b : Word) : shrN a b = a >>> (b.setWidth 8).toNat := by rw [shrN, setWidth8]
theorem shrI_eq (a b : Word) : shrI a b = a.sshiftRight (b.setWidth 8).toNat := by rw [shrI, setWidth8]

theorem boolW_decide (p : Prop) [Decidable p] : boolW (decide p) = if p then 1#32 else 0#32 := by simp [boolW]

/-- The upper word of a 64-bit number is its quotient by 2^32. -/
theorem upperWord_ofInt (n : Int) : ((BitVec.ofInt 64 n) >>> 32).setWidth 32 = BitVec.ofInt 32 (n / 4294967296) := by
  apply BitVec.eq_of_toNat_eq
  simp only [BitVec.toNat_setWidth, BitVec.toNat_ushiftRight, BitVec.toNat_ofInt, Nat.shiftRight_eq_div_pow]
  omega

theorem mulhiI_eq (a b : Word) : mulhiI a b = ((a.signExtend 64 * b.signExtend 64) >>> 32).setWidth 32 := by
  rw [mulhiI, ← upperWord_ofInt, BitVec.ofInt_mul]
  rfl

theorem clampI_eq (n : Int) : clampI n = BitVec.ofInt 32 (max (-2147483648) (min 2147483647 n)) := by
  unfold clampI
  split
  next h => rw [show max (-2147483648) (min 2147483647 n) = -2147483648 by omega]; rfl
  next h =>
    split
    next h' => rw [show max (-2147483648) (min 2147483647 n) = 2147483647 by omega]; rfl
    next h' => rw [show max (-2147483648) (min 2147483647 n) = n by omega]

theorem pack16_eq (a b : Word) : (b <<< 16) ||| (a &&& 0xFFFF#32) = (b.setWidth 16 ++ a.setWidth 16 : BitVec 32) := by
  apply BitVec.eq_of_toNat_eq
  have hlow : (a &&& 0xFFFF#32).toNat = a.toNat % 2 ^ 16 := Nat.and_two_pow_sub_one_eq_mod a.toNat 16
  have hhigh : (b <<< 16).toNat = (b.toNat % 2 ^ 16) <<< 16 := by
    rw [BitVec.toNat_shiftLeft, Nat.shiftLeft_eq, Nat.shiftLeft_eq]
    omega
  rw [BitVec.toNat_or, BitVec.toNat_append, BitVec.toNat_setWidth, BitVec.toNat_setWidth, hlow, hhigh]

theorem absI_eq (a : Word) : absI a = if a.msb then -a else a := by
  rw [absI, BitVec.msb_eq_getLsbD_last, BitVec.zero_sub]

/-- A word added to an exact sum is the sum taken modulo 2^32 (R118). -/
theorem add_ofInt_foldl (c : Word) (k : Nat) (f : Nat → Int) :
    c + BitVec.ofInt 32 ((List.range k).foldl (fun t j => t + f j) 0) = BitVec.ofInt 32 (c.toInt + ((List.range k).map f).sum) := by
  rw [BitVec.ofInt_add, BitVec.ofInt_toInt, List.sum_eq_foldl, List.foldl_map]

theorem dotI_rule {i : Instr} {o : FR} {sgn : Bool} {n k : Nat} {s : State} (e : exec i s = dotI i o sgn n k s) :
    VectorRule i o.s 6 (fun x => [x.srcA o.a o.fa, x.srcB o.b o.fb, (x.addend o.d).1])
      (fun x => x.dryAB o.a o.b o.fa o.fb ++ (x.addend o.d).2) (fun x => x.d o.d)
      (fun _ v => BitVec.ofInt 32 ((v2 v).toInt + ((List.range k).map fun j =>
        intElem sgn n (n * j) (v0 v).toNat * intElem sgn n (n * j) (v1 v).toNat).sum)) s :=
  vectorRule_congr (fun _ _ => add_ofInt_foldl _ _ _) (vectorRule_of e)

/-! ## The statements -/

/-- Settles O1: exec of each form is its shared shape, whose rule holds for the function the spec gives. -/
theorem scalarResults : Obligations.ScalarResults := by
  unfold Obligations.ScalarResults
  simp only [List.forall_mem_cons]
  refine ⟨?_, ⟨?_, ?_, ?_⟩⟩
  -- two sources (R82)
  · exact ⟨fun o s => binS_rule (exec_sadd o s) fun _ _ => rfl,
      fun o s => binS_rule (exec_ssub o s) fun _ _ => rfl,
      fun o s => binS_rule (exec_smul o s) fun _ _ => rfl,
      fun o s => binS_rule (exec_smulhiN32 o s) fun _ _ => mulhiN_eq _ _,
      fun o s => binS_rule (exec_sand o s) fun _ _ => rfl,
      fun o s => binS_rule (exec_sor o s) fun _ _ => rfl,
      fun o s => binS_rule (exec_sxor o s) fun _ _ => rfl,
      fun o s => binS_rule (exec_sshl o s) fun _ _ => shlW_eq _ _,
      fun o s => binS_rule (exec_sshrN32 o s) fun _ _ => shrN_eq _ _,
      fun o s => binS_rule (exec_sshrI32 o s) fun _ _ => shrI_eq _ _,
      fun o s => binS_rule (exec_sminI32 o s) fun _ _ => minI_eq _ _,
      fun o s => binS_rule (exec_smaxI32 o s) fun _ _ => maxI_eq _ _,
      fun o s => binS_rule (exec_sminN32 o s) fun _ _ => minN_eq _ _,
      fun o s => binS_rule (exec_smaxN32 o s) fun _ _ => maxN_eq _ _,
      fun o s => binS_rule (exec_scltI32 o s) fun _ _ => rfl,
      fun o s => binS_rule (exec_scltN32 o s) fun _ _ => rfl,
      List.forall_mem_nil _⟩
  -- one source (R83)
  · exact ⟨fun o s => unS_rule (exec_smov o s) fun _ _ => rfl,
      fun o s => unS_rule (exec_sbitNot o s) fun _ _ => rfl,
      fun o s => unS_rule (exec_sbitPopc o s) fun _ _ => popc_eq _,
      fun o s => unS_rule (exec_sbitClz o s) fun _ _ => clz_eq _,
      fun o s => unS_rule (exec_sbitCtz o s) fun _ _ => ctz_eq _,
      fun o s => unS_rule (exec_sbitBrev o s) fun _ _ => brev_eq _,
      fun o s => unS_rule (exec_sbitSeqz o s) fun _ _ => boolW_decide _,
      List.forall_mem_nil _⟩
  -- a source and the immediate (R84)
  · exact ⟨fun o s => immS_rule (exec_saddi o s) fun _ _ => rfl,
      fun o s => immS_rule (exec_sandi o s) fun _ _ => rfl,
      fun o s => immS_rule (exec_sori o s) fun _ _ => rfl,
      List.forall_mem_nil _⟩
  · exact fun o s => scalarRule_of (exec_smovi o s)

/-- Settles O2: exec of each form is its shared shape, whose rule holds for the function the spec gives; vsel writes the rows it
gathers with a condition of each lane's own. -/
theorem vectorIntegerResults : Obligations.VectorIntegerResults := by
  unfold Obligations.VectorIntegerResults
  simp only [List.forall_mem_cons]
  refine ⟨?_, ⟨?_, ?_, ?_⟩, ?_, ?_, ?_, ?_⟩
  -- two sources (R74-R76)
  · exact ⟨fun o s => binV_rule (exec_vaddI32 o s) fun _ _ => rfl,
      fun o s => binV_rule (exec_vsubI32 o s) fun _ _ => rfl,
      fun o s => binV_rule (exec_vmulI32 o s) fun _ _ => rfl,
      fun o s => binV_rule (exec_vmulhiI32 o s) fun _ _ => mulhiI_eq _ _,
      fun o s => binV_rule (exec_vmulhiN32 o s) fun _ _ => mulhiN_eq _ _,
      fun o s => binV_rule (exec_vminI32 o s) fun _ _ => minI_eq _ _,
      fun o s => binV_rule (exec_vmaxI32 o s) fun _ _ => maxI_eq _ _,
      fun o s => binV_rule (exec_vminN32 o s) fun _ _ => minN_eq _ _,
      fun o s => binV_rule (exec_vmaxN32 o s) fun _ _ => maxN_eq _ _,
      fun o s => binV_rule (exec_vand o s) fun _ _ => rfl,
      fun o s => binV_rule (exec_vor o s) fun _ _ => rfl,
      fun o s => binV_rule (exec_vxor o s) fun _ _ => rfl,
      fun o s => binV_rule (exec_vandn o s) fun _ _ => rfl,
      fun o s => binV_rule (exec_vshl o s) fun _ _ => shlW_eq _ _,
      fun o s => binV_rule (exec_vshrN32 o s) fun _ _ => shrN_eq _ _,
      fun o s => binV_rule (exec_vshrI32 o s) fun _ _ => shrI_eq _ _,
      fun o s => binV_rule (exec_vrotl o s) fun _ v => congrArg (v0 v).rotateLeft (setWidth5 (v1 v)).symm,
      fun o s => binV_rule (exec_vbfxN32 o s) fun _ _ => rfl,
      fun o s => binV_rule (exec_vbfxI32 o s) fun _ _ => rfl,
      fun o s => binV_rule (exec_vaddsatI32 o s) fun _ _ => clampI_eq _,
      fun o s => binV_rule (exec_vsubsatI32 o s) fun _ _ => clampI_eq _,
      fun o s => binV_rule (exec_vpack16 o s) fun _ _ => pack16_eq _ _,
      List.forall_mem_nil _⟩
  -- one source (R79)
  · exact ⟨fun o s => unV_rule (exec_vmov o s) fun _ _ => rfl,
      fun o s => unV_rule (exec_vbitNot o s) fun _ _ => rfl,
      fun o s => unV_rule (exec_vbitPopc o s) fun _ _ => popc_eq _,
      fun o s => unV_rule (exec_vbitClz o s) fun _ _ => clz_eq _,
      fun o s => unV_rule (exec_vbitCtz o s) fun _ _ => ctz_eq _,
      fun o s => unV_rule (exec_vbitBrev o s) fun _ _ => brev_eq _,
      fun o s => unV_rule (exec_vbitAbsI32 o s) fun _ _ => absI_eq _,
      fun o s => unV_rule (exec_vbitNegI32 o s) fun _ _ => BitVec.zero_sub _,
      fun o s => unV_rule (exec_vbitAbsF32 o s) fun _ _ => rfl,
      fun o s => unV_rule (exec_vbitNegF32 o s) fun _ _ => rfl,
      List.forall_mem_nil _⟩
  -- immediates (R84)
  · exact ⟨fun o s => immV_rule (exec_vaddi o s) fun _ _ => rfl,
      fun o s => immV_rule (exec_vshli o s) fun _ _ => rfl,
      List.forall_mem_nil _⟩
  · exact fun o s => vectorRule_of (exec_vmovi o s)
  -- the addend of vmad (R29, R74)
  · exact fun o s => vectorRule_congr (fun _ _ => BitVec.add_comm _ _) (vectorRule_of (exec_vmadI32 o s))
  -- forms that read d (R76, R77)
  · exact ⟨fun o s => triV_rule (exec_vbfi o s) fun _ _ => rfl,
      fun o s => triV_rule (exec_vperm o s) fun _ _ => rfl,
      List.forall_mem_nil _⟩
  -- the condition of vsel (R78)
  · exact fun o s q h hq hr => rowsWord_done (rows := fun q => q.rows)
      (val := fun _ _ r l => if (r.at 2 l).getLsbD l then r.at 0 l else r.at 1 l) (exec_vsel o s) rfl h hq hr
  -- the dot products (R118)
  · exact ⟨fun o s => dotI_rule (exec_vdot4I8 o s),
      fun o s => dotI_rule (exec_vdot4N8 o s),
      fun o s => dotI_rule (exec_vdot8I4 o s),
      List.forall_mem_nil _⟩

theorem Gath.late_beats (q : Gath) : (q.late.map fun r => r.b) = q.rows.map fun r => r.b := by
  simp [Gath.late]

/-- Settles O7: the shuffle gathers every beat and writes the rows of the issued beats as its last one (R86). -/
theorem shuffleResult : Obligations.ShuffleResult := by
  unfold Obligations.ShuffleResult
  intro o s x q h hq hr
  exact rowsWord_done (rows := Gath.late)
    (val := fun x q r l => if (r.at 1 l).toNat < 32 * x.g.beats then q.lane 0 (r.at 1 l).toNat else r.at 0 l)
    (exec_vshfl o s) q.late_beats h hq hr

end Sys2Proof.Machine
end

section
/-!
SUPPORT. Traps and returns (R355-R361, R366, R367): a trap with a handler at the group rung, the slot of a folded chain, the release of
a trapped group, the return from a handler, and the statement they settle.
-/
namespace Sys2Proof.Machine

/-! ## States that differ in one group and its core -/

theorem onlyGroup_setGrp (s : State) (gid c : Nat) (x : Group) : OnlyGroup gid c s (s.setGrp gid x) :=
  ⟨rfl, fun k hk => by rw [State.setGrp_groups, Tbl.find?_set_ne _ _ _ _ (Ne.symm hk)], fun _ _ => rfl⟩

theorem OnlyGroup.coreTime {s t : State} {gid c : Nat} (h : OnlyGroup gid c s t) (cyc last : Nat) (vec : Bool) :
    OnlyGroup gid c s (t.coreTime c cyc last vec) := by
  obtain ⟨hrest, hgroups, hcores⟩ := h
  refine ⟨by rw [hrest]; rfl, hgroups, fun k hk => ?_⟩
  rw [State.coreTime, State.setCore_cores, Tbl.find?_set_ne _ _ _ _ (Ne.symm hk), hcores k hk]

theorem State.coreTime_unit (s : State) (c t last : Nat) (vec : Bool) (u : Nat) : (s.coreTime c t last vec).unit u = s.unit u := rfl

theorem State.coreTime_mem (s : State) (c t last : Nat) (vec : Bool) : (s.coreTime c t last vec).mem = s.mem := rfl

/-! ## A trap with a handler at the group rung -/

/-- The group once it has taken a trap at the group rung in a cycle of its core, with the words b of the trap block (R359): the record
that raise sets, term for term. -/
def Group.takeTrap (g : Group) (b : List Word) (t : Trap) (cycle : Nat) : Group :=
  let x := g.enterHandler t.pc t.word t.info (0#32, 0#32) (0#32, 0#32) (wAt b 6, wAt b 7 &&& 0xFFFF#32) (pair48 (wAt b 0) (wAt b 1))
  { x with
    rung := 1
    served := t.cause
    service := 0
    serviceAt := cycle
    st := if x.st = .active then .active else .pending
    trapPend := none }

theorem inHandler_takeTrap (g : Group) (b : List Word) (t : Trap) (cycle : Nat) :
    InHandler g b t.cause t.word t.info t.pc (g.takeTrap b t cycle) := by
  unfold Group.takeTrap Group.enterHandler
  refine ⟨rfl, rfl, rfl, rfl, rfl, rfl, ?_⟩
  dsimp only
  split
  · exact .inl rfl
  · exact .inr rfl

theorem Work.handler_eq_false {w : Work} (h : ∀ c, w.src ≠ .handler c) : w.handler = false := by
  unfold Work.handler
  split
  next c hw => exact absurd hw (h c)
  next => rfl

/-- A trap raised at the group rung where that rung has a handler enters it at once (R356, R359). -/
theorem raise_groupRung {s : State} {gid : Nat} {b : List Word} (t : Trap) (h : GroupRungOpen s gid b) :
    let u := s.useTrap (s.keyOf (s.grp gid)) false
    ∃ n, s.raise gid 0 t = u.setGrp gid ((u.grp gid).takeTrap b t n) := by
  obtain ⟨hdraft, hrung, hsrc, hsaving, hstuck, ⟨a, htrap⟩, hvec⟩ := h
  have hhandler := Work.handler_eq_false hsrc
  unfold State.keyOf at *
  simp only [State.raise, hdraft, hrung, hhandler, hsaving, hstuck, htrap, hvec, Bool.false_and, Bool.or_self,
    Bool.false_eq_true, if_false, if_true, Nat.zero_ne_one, decide_false, decide_true, Bool.and_false, reduceCtorEq]
  exact ⟨_, rfl⟩

/-- A cause of the group rung whose trap that rung takes. -/
theorem trapAt_trapped {s : State} {gid cause : Nat} {b : List Word} (info : Word) (pc : Nat) (hc : causeRung cause = 0)
    (h : GroupRungOpen s gid b) : Trapped (s.grp gid) b cause info pc gid s (s.trapAt gid cause info pc) := by
  unfold Trapped State.trapAt
  obtain ⟨n, hraise⟩ := raise_groupRung ⟨cause, info, pc, 0, false⟩ h
  rw [hc, hraise]
  refine ⟨onlyGroup_setGrp .., ?_⟩
  rw [State.setGrp_grp_same, (MemStep.useTrap s (s.keyOf (s.grp gid)) false).grp gid]
  have hword : (⟨cause, info, pc, 0, false⟩ : Trap).word = toW cause := by simp [Trap.word]
  exact hword ▸ inHandler_takeTrap _ b ⟨cause, info, pc, 0, false⟩ _

theorem Trapped.coreTime {g : Group} {b : List Word} {cause pc gid : Nat} {info : Word} {s t : State}
    (h : Trapped g b cause info pc gid s t) (cyc last : Nat) (vec : Bool) :
    Trapped g b cause info pc gid s (t.coreTime (s.grp gid).core cyc last vec) :=
  ⟨h.1.coreTime .., by rw [State.coreTime_grp]; exact h.2⟩

/-- A word that traps after its effects retires, then enters the handler with the next word as its saved PC. -/
theorem stopAt_after_trapped {x : IX} {s u : State} {sf cause last : Nat} {vec : Bool} {b : List Word} (info : Word)
    (hc : causeRung cause = 0) (hf : (s.groups.find? x.gid).isSome = true) (hg : s.grp x.gid = x.g)
    (hu : u = s.setGrp x.gid (x.g.retire x ⟨s, last, none, none, none⟩ sf)) (ho : GroupRungOpen u x.gid b) :
    ∃ t, s.stopAt x sf vec (.after cause info last) = .next t ∧
      Trapped (u.grp x.gid) b cause info (nextPc x.g.pc) x.gid u t := by
  have hcore : (u.grp x.gid).core = x.g.core := by
    rw [hu, State.setGrp_grp_same]
    rfl
  refine ⟨_, ?_, (trapAt_trapped info (nextPc x.g.pc) hc ho).coreTime x.t last vec⟩
  rw [hcore, hu, ← hg, ← State.modGrp_eq_setGrp s x.gid (fun g => g.retire x ⟨s, last, none, none, none⟩ sf) hf]
  simp only [State.stopAt, hg]

/-! ## The slot of a folded chain (R202) -/

/-- A table whose values are mapped, entry by entry. -/
theorem Tbl.find?_map {α : Type} (f : Nat × α → Nat × α) (hf : ∀ p, (f p).1 = p.1) (t : Tbl α) (k : Nat) :
    Tbl.find? (t.map f) k = (Tbl.find? t k).map fun x => (f (k, x)).2 := by
  induction t with
  | nil => rfl
  | cons p t ih =>
    obtain ⟨j, y⟩ := p
    have hj : f (j, y) = (j, (f (j, y)).2) := Prod.ext (hf _) rfl
    rw [List.map_cons, hj]
    simp only [Tbl.find?]
    split
    next e => subst e; rfl
    next => exact ih

/-- The group h is g, set pending as the slot of its chain passes to a stage. -/
def SlotMoved (g h : Group) : Prop :=
  h = { g with st := .pending, entered := h.entered, boost := h.boost, boostAt := h.boostAt, readySince := h.readySince }

/-- A stage that takes the slot while no stage is active leaves each group as it is, or sets it pending where it is one of the chain's
unit that could run. -/
theorem runStage_find (s : State) (u k j : Nat) :
    (s.runStage u k false).groups.find? j = s.groups.find? j ∨
      ∃ g h, s.groups.find? j = some g ∧ (s.runStage u k false).groups.find? j = some h ∧ g.unit = u ∧ SlotMoved g h := by
  unfold State.runStage
  split
  next c _ =>
    dsimp only
    rw [State.modUnit_groups, Tbl.find?_map]
    case hf =>
      intro p
      split
      · split <;> rfl
      · rfl
    cases hg : s.groups.find? j with
    | none => exact .inl rfl
    | some g =>
      dsimp only [Option.map_some]
      split
      next hin =>
        have hu : g.unit = u := by
          simp only [Bool.and_eq_true, decide_eq_true_eq] at hin
          exact hin.1
        refine .inr ⟨g, _, rfl, rfl, hu, ?_⟩
        split
        · rfl
        · simp only [SlotMoved, Bool.and_false, Bool.false_eq_true, if_false]
      next => exact .inl rfl
  next => exact .inl rfl

/-- What a change of a unit keeps in each unit. -/
theorem State.modUnit_unit_of {α : Type} (π : UnitSt → α) (s : State) (u j : Nat) (f : UnitSt → UnitSt) (hf : ∀ x, π (f x) = π x) :
    π ((s.modUnit u f).unit j) = π (s.unit j) := by
  unfold State.modUnit
  split
  next x hx =>
    by_cases e : u = j
    · subst e
      rw [State.setUnit_unit_same, hf]
      simp only [State.unit, Tbl.getD, hx, Option.getD_some]
    · rw [State.setUnit_unit_ne _ _ _ _ e]
  next => rfl

@[simp] theorem runStage_mem (s : State) (u k : Nat) (act : Bool) : (s.runStage u k act).mem = s.mem := by
  unfold State.runStage
  split
  · exact State.modUnit_mem ..
  · rfl

@[simp] theorem runStage_bserve (s : State) (u k j : Nat) (act : Bool) : ((s.runStage u k act).unit j).bserve = (s.unit j).bserve := by
  unfold State.runStage
  split
  · exact State.modUnit_unit_of (·.bserve) s u j _ fun _ => rfl
  · rfl

/-- Taking the slot does nothing, or it runs the stage of a group whose unit is a chain. -/
theorem takeSlot_cases (s : State) (i : Nat) :
    s.takeSlot i = s ∨ ((s.unit (s.grp i).unit).chain ≠ none ∧ s.takeSlot i = s.runStage (s.grp i).unit (s.grp i).stage false) := by
  unfold State.takeSlot
  dsimp only
  split
  next c hc =>
    split
    · exact .inr ⟨by rw [hc]; exact nofun, rfl⟩
    · exact .inl rfl
  next => exact .inl rfl

@[simp] theorem takeSlot_mem (s : State) (i : Nat) : (s.takeSlot i).mem = s.mem := by
  rcases takeSlot_cases s i with h | ⟨-, h⟩ <;> rw [h]
  exact runStage_mem ..

@[simp] theorem takeSlot_bserve (s : State) (i j : Nat) : ((s.takeSlot i).unit j).bserve = (s.unit j).bserve := by
  rcases takeSlot_cases s i with h | ⟨-, h⟩ <;> rw [h]
  exact runStage_bserve ..

/-- A slot that is taken sets groups of chains pending, and touches no other. -/
theorem takeSlot_find (s : State) (i j : Nat) :
    (s.takeSlot i).groups.find? j = s.groups.find? j ∨
      ∃ g h, s.groups.find? j = some g ∧ (s.takeSlot i).groups.find? j = some h ∧ (s.unit g.unit).chain ≠ none ∧ SlotMoved g h := by
  rcases takeSlot_cases s i with h | ⟨hc, h⟩ <;> rw [h]
  · exact .inl rfl
  · rcases runStage_find s (s.grp i).unit (s.grp i).stage j with h | ⟨g, g', hg, hg', hu, hm⟩
    · exact .inl h
    · exact .inr ⟨g, g', hg, hg', hu ▸ hc, hm⟩

/-- A group whose unit is no chain. -/
theorem takeSlot_find_unchained {s : State} {j : Nat} {g : Group} (i : Nat) (hg : s.groups.find? j = some g)
    (hc : (s.unit g.unit).chain = none) : (s.takeSlot i).groups.find? j = some g := by
  rcases takeSlot_find s i j with h | ⟨g', -, hg', -, hc', -⟩
  · rw [h, hg]
  · rw [hg, Option.some.injEq] at hg'
    exact absurd (hg' ▸ hc) hc'

/-! ## The release of a held group (R361) -/

/-- The group g released in cycle t of its core. -/
def Group.goOn (g : Group) (t : Nat) : Group := { g.ready t with held := false }

theorem release_eq {s : State} {p : Nat} {g : Group} (h : s.groups.find? p = some g) :
    s.release p = (s.setGrp p (g.goOn (s.core g.core).cycle)).takeSlot p := by
  simp only [State.release, State.modGrp, h]
  rfl

/-- The released group is pending, no longer held, and at its saved PC. -/
theorem release_grp {s : State} {p : Nat} (h : (s.groups.find? p).isSome = true) :
    ((s.release p).grp p).held = false ∧ ((s.release p).grp p).st = .pending ∧ ((s.release p).grp p).pc = (s.grp p).pc := by
  have hfind := find_grp s p h
  rw [release_eq hfind]
  generalize s.grp p = g at *
  rcases takeSlot_find (s.setGrp p (g.goOn (s.core g.core).cycle)) p p with k | ⟨x, y, hx, hy, -, hm⟩
  · rw [State.setGrp_find] at k
    simp only [State.grp, Tbl.getD, k]
    exact ⟨rfl, rfl, rfl⟩
  · rw [State.setGrp_find, Option.some.injEq] at hx
    simp only [State.grp, Tbl.getD, hy]
    rw [hm, ← hx]
    exact ⟨rfl, rfl, rfl⟩

/-- Another group whose unit is no chain is as before. -/
theorem release_find_ne {s : State} {p j : Nat} {g : Group} (hp : (s.groups.find? p).isSome = true) (hj : p ≠ j)
    (hg : s.groups.find? j = some g) (hc : (s.unit g.unit).chain = none) : (s.release p).groups.find? j = some g := by
  rw [release_eq (find_grp s p hp)]
  exact takeSlot_find_unchained p (by rw [State.setGrp_groups, Tbl.find?_set_ne _ _ _ _ hj, hg]) hc

@[simp] theorem release_mem (s : State) (p : Nat) : (s.release p).mem = s.mem := by
  rw [State.release, takeSlot_mem, State.modGrp_mem]

@[simp] theorem release_bserve (s : State) (p j : Nat) : ((s.release p).unit j).bserve = (s.unit j).bserve := by
  rw [State.release, takeSlot_bserve, State.modGrp_unit]

/-- The disposition 0 ends the service of a unit and releases the trapped group (R361). -/
theorem blockEnd_release {s : State} {u p : Nat} {t : Trap} (c : Nat) (h : (s.unit u).bserve = some (some p, t)) :
    s.blockEnd u c 0#32 = (s.setUnit u { s.unit u with bserve := none }).release p := by
  simp only [State.blockEnd, h, if_true]

/-! ## The return from a handler (R367) -/

theorem MemStep.wordBefore (s : State) (g : Group) (target : Nat) : MemStep s (s.wordBefore g target).1 := by
  have h := MemStep.translate s (s.keyOf g / 65536) (s.keyOf g % 65536) ((target + 281474976710656 - 4) % 281474976710656) .fetch 3
    (coreCl g.core) (some g.core) (coreCid g.core)
  unfold State.wordBefore
  dsimp only
  split
  next t pa vfa e => rw [e] at h; exact h
  next => exact .refl s

/-- The check of a target is a step over memory. -/
theorem MemStep.targetRead (x : IX) (s : State) (pc : Nat) : MemStep s (Machine.targetRead x s pc) :=
  .ite _ (.refl s) (.wordBefore ..)

/-- The group h is g back from its handler, at pc with a status (R367). -/
def Returned (g : Group) (pc : Nat) (gst : Word) (h : Group) : Prop :=
  h.pc = pc ∧ h.gst = gst ∧ h.sr = g.sr.take 40 ++ g.bank ∧ h.xsv = g.sr.drop 44 ∧ h.rung = 0 ∧ h.vr = g.vr ∧ h.ops = g.ops ∧
    h.stk = g.stk

/-- The scalars that sys.tret reads, and of what they hold the saved PC and the saved status. -/
def tretReads (x : IX) : List Nat := [44, 45] ++ if x.g.rung = 2 then [43] else []
def tretPc (x : IX) (s : State) : Nat := x.g.hiPc * 4294967296 + (scalarVal s x.g 44 x.t).toNat
def tretGst (x : IX) (s : State) : Word := scalarVal s x.g 45 x.t

/-- A group as sys.tret leaves it before it retires. -/
def Group.backWith (g : Group) (gst : Word) : Group := { g.leaveHandler with gst := gst }

theorem Group.backWith_unit (g : Group) (gst : Word) : (g.backWith gst).unit = g.unit := rfl

/-- The returning group once the check of the saved PC has passed and it has left its handler. -/
def backGroup (x : IX) (s : State) : Group := ((targetRead x s (tretPc x s)).grp x.gid).backWith (tretGst x s)

/-- The state once the check of the saved PC has passed and the group has left its handler. -/
def State.leftHandler (x : IX) (s : State) : State :=
  (targetRead x s (tretPc x s)).modGrp x.gid fun g => g.backWith (tretGst x s)

theorem returned_retire {x : IX} {g h : Group} {e : Eff} {sf pc : Nat} {gst : Word} (hgl : x.gl.grep = none) (hp : e.pc = some pc)
    (hh : h = { g with fences := h.fences }) : Returned g pc gst ((h.backWith gst).retire x e sf) := by
  rw [hh]
  unfold Returned Group.retire Group.backWith Group.leaveHandler
  simp [hgl, hp, Group.settleFlags, Group.gstAt]

/-- What the returning word meets: it passes its checks, its operands are ready, and its group is in a handler whose saved status and
PC it may go back to. -/
structure TretPasses (s : State) : Prop where
  passes : Passes none false .sysTret s
  noChain : (s.ix false).g.chain = []
  ready : (s.ix false).g.scoreboard (scalarUses (s.ix false) (tretReads (s.ix false)) []) = none
  inHandler : gstHdl (s.ix false).g.gst = true
  status : tretBad (tretGst (s.ix false) s.issuing) (s.ix false).g.gst = false
  target : checkTarget (s.ix false) s.issuing (tretPc (s.ix false) s.issuing) = none

/-- The state from which sys.tret retires: at the block rung its unit's service has ended by the disposition in s43. -/
def State.tretEnd (s : State) : State :=
  let x := s.ix false
  let r := s.issuing.leftHandler x
  if x.g.rung = 2 then r.blockEnd x.g.unit x.g.core (scalarVal s.issuing x.g 43 x.t) else r

theorem scalars_ok {x : IX} {rs ws : List Nat} (s : State) (h : x.g.scoreboard (scalarUses x rs ws) = none) :
    scalars x s rs ws = .ok (rs.map fun n => scalarVal s x.g n x.t) := by
  simp only [scalars, h]

theorem v0_tretReads (x : IX) (f : Nat → Word) : v0 ((tretReads x).map f) = f 44 := rfl

theorem v1_tretReads (x : IX) (f : Nat → Word) : v1 ((tretReads x).map f) = f 45 := rfl

theorem v2_tretReads {x : IX} (f : Nat → Word) (h : x.g.rung = 2) : v2 ((tretReads x).map f) = f 43 := by
  rw [tretReads, if_pos h]
  rfl

/-- A return that passes its checks retires from the state in which the handler has ended, at the saved PC. -/
theorem sysTret_next {s : State} (h : TretPasses s) :
    exec .sysTret s = .next (State.finish (s.ix false) (s.iw.setWidth 3).toNat false
      (Eff.jump (s.ix false) s.tretEnd (tretPc (s.ix false) s.issuing))) := by
  obtain ⟨hpass, -, hready, hhdl, hstatus, htarget⟩ := h
  rw [exec_sysTret]
  unfold execSysTret issueS
  refine issue_next hpass ?_
  unfold State.tretEnd State.leftHandler
  generalize s.ix false = x at *
  have hvals : scalars x s.issuing ([44, 45] ++ if x.g.rung = 2 then [43] else []) [] =
    .ok ((tretReads x).map fun n => scalarVal s.issuing x.g n x.t) := scalars_ok s.issuing hready
  have hv0 := v0_tretReads x fun n => scalarVal s.issuing x.g n x.t
  have hv1 := v1_tretReads x fun n => scalarVal s.issuing x.g n x.t
  have hv2 := v2_tretReads (x := x) fun n => scalarVal s.issuing x.g n x.t
  generalize ((tretReads x).map fun n => scalarVal s.issuing x.g n x.t) = v at *
  unfold tretGst at *
  unfold tretPc at *
  simp only [hhdl, hvals, hv0, hv1, hstatus, htarget, bind, Except.bind, Bool.not_true, Bool.false_eq_true, if_false]
  by_cases hr : x.g.rung = 2
  · simp only [hr, if_true, hv2 hr]
    rfl
  · simp only [hr, if_false]
    rfl

theorem State.ix_gl (s : State) (vec : Bool) : (s.ix vec).gl = Gloss.ofChain (s.ix vec).g.chain := rfl

/-- The checks of the saved PC and the leaving of the handler change the returning group, and no unit. -/
theorem leftHandler_eq {x : IX} {s : State} (hf : (s.groups.find? x.gid).isSome = true) :
    s.leftHandler x = (targetRead x s (tretPc x s)).setGrp x.gid (backGroup x s) :=
  State.modGrp_eq_setGrp _ _ _ (((MemStep.targetRead x s (tretPc x s)).isSome x.gid).trans hf)

theorem leftHandler_unit (x : IX) (s : State) (u : Nat) : (s.leftHandler x).unit u = s.unit u := by
  rw [State.leftHandler, State.modGrp_unit]
  simp only [State.unit, (MemStep.targetRead x s (tretPc x s)).units]

theorem leftHandler_find_ne {x : IX} {s : State} {p : Nat} (hp : p ≠ x.gid) (hf : (s.groups.find? x.gid).isSome = true)
    (h : (s.groups.find? p).isSome = true) :
    ((s.leftHandler x).groups.find? p).isSome = true ∧ ((s.leftHandler x).grp p).pc = (s.grp p).pc := by
  have hm := MemStep.targetRead x s (tretPc x s)
  rw [leftHandler_eq hf, State.setGrp_groups, Tbl.find?_set_ne _ _ _ _ (Ne.symm hp), State.setGrp_grp_ne _ _ _ _ (Ne.symm hp), hm.grp p]
  exact ⟨(hm.isSome p).trans h, rfl⟩

theorem backGroup_unit {x : IX} {s : State} (hg : s.grp x.gid = x.g) : (backGroup x s).unit = x.g.unit := by
  have hread := congrArg Group.unit ((MemStep.targetRead x s (tretPc x s)).grp x.gid)
  rw [backGroup, Group.backWith_unit, ← hg]
  exact hread

/-- The retirement of a return from a state in which the group has left its handler. -/
theorem finish_returned {x : IX} {s e : State} (sf : Nat) (hgl : x.gl.grep = none) (hg : s.grp x.gid = x.g)
    (he : e.groups.find? x.gid = some (backGroup x s)) :
    ∃ h, State.finish x sf false (Eff.jump x e (tretPc x s)) = (e.setGrp x.gid h).coreTime x.g.core x.t x.t false ∧
      Returned x.g (tretPc x s) (tretGst x s) h := by
  have hread := (MemStep.targetRead x s (tretPc x s)).grp x.gid
  rw [hg] at hread
  have hgrp : e.grp x.gid = backGroup x s := by simp only [State.grp, Tbl.getD, he, Option.getD_some]
  have hst : (e.grp x.gid).st = x.g.st := by rw [hgrp, backGroup, hread]; rfl
  refine ⟨_, finish_plain x sf false (Eff.jump x e (tretPc x s)) (by simp only [Eff.jump, he, Option.isSome_some]) hst rfl rfl, ?_⟩
  show Returned _ _ _ ((e.grp x.gid).retire _ _ _)
  rw [hgrp, backGroup]
  exact returned_retire hgl rfl hread

theorem State.issuing_grp (s : State) (vec : Bool) : s.issuing.grp (s.ix vec).gid = (s.ix vec).g := by
  rw [s.ix_gid, s.ix_g]

/-- A group other than the issuing one is as before. -/
theorem State.issuing_find_ne (s : State) {p : Nat} (hp : p ≠ s.cur) : s.issuing.groups.find? p = s.groups.find? p := by
  unfold State.issuing State.modGrp
  split
  · rw [State.setGrp_groups, Tbl.find?_set_ne _ _ _ _ (Ne.symm hp)]
  · rfl

section
variable {s : State} (h : TretPasses s)
include h

theorem TretPasses.find : (s.issuing.groups.find? (s.ix false).gid).isSome = true := by
  rw [s.ix_gid]
  exact s.issuing_groups_isSome h.passes.1

theorem TretPasses.grep : (s.ix false).gl.grep = none := by
  rw [s.ix_gl, h.noChain]
  rfl

/-- sys.tret at the group rung changes its group, back from the handler, and its core (R367). -/
theorem sysTret_groupRung (hr : (s.ix false).g.rung ≠ 2) :
    let x := s.ix false
    ∃ t, exec .sysTret s = .next t ∧ OnlyGroup x.gid x.g.core (targetRead x s.issuing (tretPc x s.issuing)) t ∧
      Returned x.g (tretPc x s.issuing) (tretGst x s.issuing) (t.grp x.gid) := by
  intro x
  have hleft := leftHandler_eq h.find
  have hend : s.tretEnd = s.issuing.leftHandler x := if_neg hr
  obtain ⟨g, hfin, hback⟩ := finish_returned (e := s.tretEnd) (s.iw.setWidth 3).toNat h.grep (s.issuing_grp false)
    (by rw [hend, hleft, State.setGrp_find])
  refine ⟨_, sysTret_next h, ?_⟩
  rw [hfin, State.coreTime_grp, State.setGrp_grp_same]
  refine ⟨?_, hback⟩
  rw [hend, hleft]
  exact onlyGroup_of _ _ _ _ _ _ _ _ (onlyGroup_setGrp ..)

/-- sys.tret at the block rung with the disposition 0: the group is back from its handler, the service of its unit has ended, and the
trapped group goes on at its saved PC (R361, R367). -/
theorem sysTret_blockRung {p : Nat} {tr : Trap} (hr : (s.ix false).g.rung = 2)
    (hserve : (s.unit (s.ix false).g.unit).bserve = some (some p, tr)) (hchain : (s.unit (s.ix false).g.unit).chain = none)
    (hp : (s.groups.find? p).isSome = true) (hne : p ≠ (s.ix false).gid)
    (hdisp : scalarVal s.issuing (s.ix false).g 43 (s.ix false).t = 0#32) :
    let x := s.ix false
    ∃ t, exec .sysTret s = .next t ∧ Returned x.g (tretPc x s.issuing) (tretGst x s.issuing) (t.grp x.gid) ∧
      (t.unit x.g.unit).bserve = none ∧ (t.grp p).held = false ∧ (t.grp p).st = .pending ∧ (t.grp p).pc = (s.grp p).pc ∧
      t.mem = (targetRead x s.issuing (tretPc x s.issuing)).mem := by
  intro x
  -- the state in which the group has left its handler, and that in which the service has ended
  have hcur : p ≠ s.cur := s.ix_gid false ▸ hne
  have hpi : (s.issuing.groups.find? p).isSome = true := by rwa [s.issuing_find_ne hcur]
  obtain ⟨hpl, hppc⟩ := leftHandler_find_ne hne h.find hpi
  have hunit : (s.issuing.leftHandler x).unit x.g.unit = s.unit x.g.unit := by
    rw [leftHandler_unit, State.issuing, State.modGrp_unit]
  have hend : s.tretEnd = ((s.issuing.leftHandler x).setUnit x.g.unit { s.unit x.g.unit with bserve := none }).release p := by
    rw [← hunit, ← blockEnd_release x.g.core (hunit ▸ hserve), ← hdisp]
    exact if_pos hr
  generalize hl : (s.issuing.leftHandler x).setUnit x.g.unit { s.unit x.g.unit with bserve := none } = l at hend
  -- what the release finds there: the returning group, whose unit is no chain, and the trapped one
  have hself : l.groups.find? x.gid = some (backGroup x s.issuing) := by
    rw [← hl, State.setUnit_groups, leftHandler_eq h.find, State.setGrp_find]
  have hunchained : (l.unit (backGroup x s.issuing).unit).chain = none := by
    rw [backGroup_unit (s.issuing_grp false), ← hl, State.setUnit_unit_same, hchain]
  have hlp : (l.groups.find? p).isSome = true := by rw [← hl, State.setUnit_groups, hpl]
  have hlpc : (l.grp p).pc = (s.grp p).pc := by
    rw [← hl, State.setUnit_grp, hppc]
    simp only [State.grp, Tbl.getD, s.issuing_find_ne hcur]
  have hlserve : (l.unit x.g.unit).bserve = none := by rw [← hl, State.setUnit_unit_same]
  have hlmem : l.mem = (targetRead x s.issuing (tretPc x s.issuing)).mem := by
    rw [← hl, State.setUnit_mem, leftHandler_eq h.find, State.setGrp_mem]
  -- the retirement
  obtain ⟨g, hfin, hback⟩ := finish_returned (e := s.tretEnd) (s.iw.setWidth 3).toNat h.grep (s.issuing_grp false)
    (by rw [hend]; exact release_find_ne hlp hne hself hunchained)
  obtain ⟨hheld, hst, hpc⟩ := release_grp hlp
  refine ⟨_, sysTret_next h, ?_⟩
  rw [hfin, State.coreTime_grp, State.coreTime_grp, State.setGrp_grp_same, State.setGrp_grp_ne _ _ _ _ (Ne.symm hne),
    State.coreTime_unit, State.setGrp_unit, State.coreTime_mem, State.setGrp_mem, hend, release_bserve, release_mem]
  exact ⟨hback, hlserve, hheld, hst, hpc.trans hlpc, hlmem⟩

end

/-! ## The statement -/

/-- Settles O13: sys.trap retires and its trap enters the handler; sys.tret leaves it, and at the block rung its disposition 0 releases the
trapped group, whose own chain may move its slot. -/
theorem sysTrapAndReturn : Obligations.SysTrapAndReturn := by
  unfold Obligations.SysTrapAndReturn
  refine ⟨?_, ?_⟩
  · intro o s b x u h ho
    have hf : (s.issuing.groups.find? x.gid).isSome = true := s.ix_gid false ▸ s.issuing_groups_isSome h.1
    obtain ⟨t, hstop, ht⟩ := stopAt_after_trapped (vec := false) (sf := o.s.toNat) (cause := 0x16) (last := x.t) (u := u)
      (o.n.setWidth 32) rfl hf (s.issuing_grp false) rfl ho
    refine ⟨t, ?_, ht, ?_⟩
    · rw [exec_sysTrap, ← hstop]
      exact issue_stop (body := fun x s => .error (s, .after 0x16 (o.n.setWidth 32) x.t)) h rfl
    · rw [State.setGrp_grp_same]
      exact ⟨rfl, rfl⟩
  · intro s x v pc u hpass hchain hsb hhdl hbad htgt back
    have h : TretPasses s := ⟨hpass, hchain, hsb, hhdl, hbad, htgt⟩
    exact ⟨sysTret_groupRung h, fun p tr hr _ hserve hunchained hp hne hdisp =>
      sysTret_blockRung h hr hserve hunchained hp hne hdisp⟩

end Sys2Proof.Machine
end
